-- ==== Sys2Proof/Word.lean ====
section
/-! DEFINITION. The word types, and the operand kinds an Axmen instruction or a step of the machine names
(spec/03 R42–R47, R55, R57; spec/01 R12, R14). -/

namespace Sys2Proof

/-- R6: a word is 8 bytes. -/
abbrev Word := BitVec 64

abbrev Byte := BitVec 8

/-- R12, R43: a source operand. `q n` is the n-th most recent result, `k n` is keep register n. -/
inductive Src where
  | q (n : Fin 16)
  | k (n : Fin 16)
deriving DecidableEq, Repr

/-- R14, R44: a destination. `push` is code 0b00000; `keep n` is 0b1nnnn. -/
inductive Dest where
  | push
  | keep (n : Fin 16)
deriving DecidableEq, Repr

/-- R46: M-format size codes 0b00–0b11. -/
inductive Size where
  | b | h | w | d
deriving DecidableEq, Repr

/-- R18: span hints 0b00–0b11. -/
inductive Span where
  | pred | words | sector | region
deriving DecidableEq, Repr

/-- R55: scalar floating-point precision, 0 .sf and 1 .df. -/
inductive Prec where
  | sf | df
deriving DecidableEq, Repr

/-- R49: width codes of sext and zext. -/
inductive ExtW where
  | b | h | w
deriving DecidableEq, Repr

/-- R57: the 3-bit arithmetic type code. -/
inductive ATy where
  | b | h | w | d | hf | bf | sf | df
deriving DecidableEq, Repr

/-- R57: the 5-bit element type code. `b8 p` is .b8pP, `b8n p` is .b8pPn and `mxp p` is .mxpP, each with P = p + 1. -/
inductive ETy where
  | b | h | w | d | i4 | hf | bf | sf | df
  | b8 (p : Fin 7)
  | mxi8
  | b8n (p : Fin 7)
  | mx4
  | mxp (p : Fin 7)
deriving DecidableEq, Repr

/-- R55: fcvt scalar type codes 0–7. -/
inductive STy where
  | sf | df | hf | bf | w | d | wz | dz
deriving DecidableEq, Repr

/-- R53, R151: the operations of amof, func[3:0] 0–5. -/
inductive FarOp where
  | add | and | or | xor | min | max
deriving DecidableEq, Repr

/-- R53, R148: the operations of amo and amor, func[3:0] 0–8. -/
inductive AmoOp where
  | add | and | or | xor | min | max | minz | maxz | swap
deriving DecidableEq, Repr

/-- R359: vcmp conditions, op 0–5. -/
inductive Cc where
  | eq | ne | lt | le | ltz | lez
deriving DecidableEq, Repr

/-- R362: vscan operations 0–2. -/
inductive ScanOp where
  | sum | min | max
deriving DecidableEq, Repr

/-- R177: coherence modes 00 HC, 01 SW, 10 CP (11 is the fault code and no mode). -/
inductive CMode where
  | hc | sw | cp
deriving DecidableEq, Repr

/-- R197, R206: whose write-back it is: the holder (R203), and the name of its block: ASID and VA[55:9]. -/
structure WbFrom where
  who : Nat
  asid : Nat
  va : Nat
deriving DecidableEq, Repr

/-- A fill of one region on its way to a cache (R192, R195): the words `first` to `last` that are requested, the lowest and the
highest word that the access touches (`touch`, `touchEnd`), the span rule, and the Squirrel index of the filling instruction
(R193). `ctx` is the context of the core that asks, 8 for none. `va` is VA[55:9] and `region` is the region's physical number; `l2`
says that the target is the die's L2 slice, `fromL2` that this slice serves the words (R199), `l2ext` that the slice held some of
the words and is extended too, and `ext` that the access found some of its words held (R195). -/
structure FillReq where
  core : Nat
  ctx : Nat
  l2 : Bool
  asid : Nat
  va : Nat
  region : Nat
  fromL2 : Bool
  l2ext : Bool
  ext : Bool
  first : Nat
  last : Nat
  touch : Nat
  touchEnd : Nat
  span : Span
  pcIdx : Nat
deriving DecidableEq, Repr

end Sys2Proof
end

