-- ==== Sys2Proof/Syntax.lean ====
section
/-! DEFINITION. The instructions of the Rharek A64: one constructor per row of spec/opcode_table.json. The first 197 are
the Axmen words of R48–R59; the other 101 are the steps of the machine that have no word, with the operands that say
which unit takes the step (an arbiter index is that of R118). A step with no operand is taken by the unit that `State.cur`
names, as a word is executed by the context that it names: a context location (`c.self`, R41), a core (`c.self[17:3]`), or the
identifier of a commit, delivery, packet or module. The rows without operands stand at the end. -/

namespace Sys2Proof

inductive Instr where
  /-- R72: add. -/
  | add (a : Src) (b : Src) (d : Dest) (w : Bool)
  /-- R72: sub. -/
  | sub (a : Src) (b : Src) (d : Dest) (w : Bool)
  /-- R72: mul. -/
  | mul (a : Src) (b : Src) (d : Dest) (w : Bool)
  /-- R72: mulh. -/
  | mulh (a : Src) (b : Src) (d : Dest)
  /-- R72: mulhz. -/
  | mulhz (a : Src) (b : Src) (d : Dest)
  /-- R73: div. -/
  | div (a : Src) (b : Src) (d : Dest) (w : Bool)
  /-- R73: divz. -/
  | divz (a : Src) (b : Src) (d : Dest) (w : Bool)
  /-- R73: rem. -/
  | rem (a : Src) (b : Src) (d : Dest) (w : Bool)
  /-- R73: remz. -/
  | remz (a : Src) (b : Src) (d : Dest) (w : Bool)
  /-- R72: and. -/
  | andR (a : Src) (b : Src) (d : Dest)
  /-- R72: or. -/
  | orR (a : Src) (b : Src) (d : Dest)
  /-- R72: xor. -/
  | xorR (a : Src) (b : Src) (d : Dest)
  /-- R72: andn. -/
  | andn (a : Src) (b : Src) (d : Dest)
  /-- R72: orn. -/
  | orn (a : Src) (b : Src) (d : Dest)
  /-- R74: shl. -/
  | shl (a : Src) (b : Src) (d : Dest) (w : Bool)
  /-- R74: shr. -/
  | shr (a : Src) (b : Src) (d : Dest) (w : Bool)
  /-- R74: sra. -/
  | sra (a : Src) (b : Src) (d : Dest) (w : Bool)
  /-- R74: rol. -/
  | rol (a : Src) (b : Src) (d : Dest) (w : Bool)
  /-- R74: ror. -/
  | ror (a : Src) (b : Src) (d : Dest) (w : Bool)
  /-- R72: min. -/
  | minS (a : Src) (b : Src) (d : Dest)
  /-- R72: max. -/
  | maxS (a : Src) (b : Src) (d : Dest)
  /-- R72: minz. -/
  | minz (a : Src) (b : Src) (d : Dest)
  /-- R72: maxz. -/
  | maxz (a : Src) (b : Src) (d : Dest)
  /-- R72: slt. -/
  | slt (a : Src) (b : Src) (d : Dest)
  /-- R72: sltz. -/
  | sltz (a : Src) (b : Src) (d : Dest)
  /-- R72: seq. -/
  | seqR (a : Src) (b : Src) (d : Dest)
  /-- R72: sne. -/
  | sne (a : Src) (b : Src) (d : Dest)
  /-- R72: clz. -/
  | clz (a : Src) (d : Dest) (w : Bool)
  /-- R72: ctz. -/
  | ctz (a : Src) (d : Dest) (w : Bool)
  /-- R72: popc. -/
  | popc (a : Src) (d : Dest) (w : Bool)
  /-- R72: brev. -/
  | brev (a : Src) (d : Dest) (w : Bool)
  /-- R72: bswap. -/
  | bswap (a : Src) (d : Dest) (w : Bool)
  /-- R72: sext.b. -/
  | sext (a : Src) (x : ExtW) (d : Dest)
  /-- R72: zext.b. -/
  | zext (a : Src) (x : ExtW) (d : Dest)
  /-- R75: sel. -/
  | sel (a : Src) (b : Src) (c : Src) (d : Dest)
  /-- R75: ins. -/
  | ins (a : Src) (b : Src) (c : Src) (d : Dest)
  /-- R75: lea. -/
  | lea (a : Src) (b : Src) (c : Src) (d : Dest)
  /-- R76: addi. -/
  | addi (a : Src) (d : Dest) (i : BitVec 15)
  /-- R76: andi. -/
  | andi (a : Src) (d : Dest) (i : BitVec 15)
  /-- R76: ori. -/
  | ori (a : Src) (d : Dest) (i : BitVec 15)
  /-- R76: xori. -/
  | xori (a : Src) (d : Dest) (i : BitVec 15)
  /-- R76: shli. -/
  | shli (a : Src) (d : Dest) (n : BitVec 6)
  /-- R76: shri. -/
  | shri (a : Src) (d : Dest) (n : BitVec 6)
  /-- R76: srai. -/
  | srai (a : Src) (d : Dest) (n : BitVec 6)
  /-- R76: slti. -/
  | slti (a : Src) (d : Dest) (i : BitVec 15)
  /-- R76: sltzi. -/
  | sltzi (a : Src) (d : Dest) (i : BitVec 15)
  /-- R76: seqi. -/
  | seqi (a : Src) (d : Dest) (i : BitVec 15)
  /-- R76: li. -/
  | li (d : Dest) (i : BitVec 15)
  /-- R76: lcat. -/
  | lcat (a : Src) (d : Dest) (i : BitVec 15)
  /-- R76: ext. -/
  | extI (a : Src) (d : Dest) (p : BitVec 6) (l : BitVec 6)
  /-- R78: space. -/
  | space (a : Src) (d : Dest)
  /-- R79: cast.pg. -/
  | castPg (a : Src) (d : Dest)
  /-- R79: cast.sl. -/
  | castSl (a : Src) (d : Dest)
  /-- R79: cast.sx. -/
  | castSx (a : Src) (d : Dest)
  /-- R79: cast.cl. -/
  | castCl (a : Src) (d : Dest)
  /-- R79: cast.off. -/
  | castOff (a : Src) (d : Dest)
  /-- R80: j. -/
  | jmp (o : BitVec 25)
  /-- R80: call. -/
  | call (o : BitVec 25)
  /-- R81: beq. -/
  | beq (a : Src) (b : Src) (o : BitVec 15)
  /-- R81: bne. -/
  | bne (a : Src) (b : Src) (o : BitVec 15)
  /-- R81: blt. -/
  | blt (a : Src) (b : Src) (o : BitVec 15)
  /-- R81: bge. -/
  | bge (a : Src) (b : Src) (o : BitVec 15)
  /-- R81: bltz. -/
  | bltz (a : Src) (o : BitVec 15)
  /-- R81: bgez. -/
  | bgez (a : Src) (o : BitVec 15)
  /-- R81: bz. -/
  | bz (a : Src) (o : BitVec 15)
  /-- R81: bnz. -/
  | bnz (a : Src) (o : BitVec 15)
  /-- R82: jtab. -/
  | jtab (a : Src) (b : Src) (o : BitVec 15)
  /-- R80: jr. -/
  | jr (a : Src)
  /-- R80: callr. -/
  | callr (a : Src)
  /-- R139: ld.s. -/
  | ld (b : Src) (d : Dest) (z : Size) (p : Span) (o : BitVec 11)
  /-- R139: lz.s. -/
  | lz (b : Src) (d : Dest) (z : Size) (p : Span) (o : BitVec 11)
  /-- R139: st.s. -/
  | st (b : Src) (r : Src) (z : Size) (p : Span) (o : BitVec 11)
  /-- R139: st.s.nt. -/
  | stNt (b : Src) (r : Src) (z : Size) (o : BitVec 11)
  /-- R143: ldp. -/
  | ldp (b : Src) (d : Dest) (p : Span) (o : BitVec 11)
  /-- R143: stp. -/
  | stp (a : Src) (b : Src) (c : Src) (o : BitVec 5)
  /-- R147: pref. -/
  | pref (b : Src) (l : Src) (p : Span)
  /-- R146: flush. -/
  | flush (b : Src) (l : Src)
  /-- R146: clean. -/
  | clean (b : Src) (l : Src)
  /-- R147: inval. -/
  | inval (b : Src) (l : Src)
  /-- R148: amo.op. -/
  | amo (a : Src) (b : Src) (d : Dest) (w : Bool) (o : AmoOp)
  /-- R149: cas. -/
  | cas (a : Src) (b : Src) (c : Src) (d : Dest) (w : Bool)
  /-- R151: amof.op. -/
  | amof (a : Src) (b : Src) (w : Bool) (o : FarOp)
  /-- R152: amor.op. -/
  | amor (a : Src) (b : Src) (d : Dest) (w : Bool) (o : AmoOp)
  /-- R152: amor.cas. -/
  | amorCas (a : Src) (b : Src) (c : Src) (d : Dest) (w : Bool)
  /-- R153: ldacq.sys.s. -/
  | ldacqSys (b : Src) (d : Dest) (z : Size) (o : BitVec 11)
  /-- R153: strel.sys.s. -/
  | strelSys (b : Src) (r : Src) (z : Size) (o : BitVec 11)
  /-- R156: waita. -/
  | waita (a : Src) (b : Src)
  /-- R158: give. -/
  | give (a : Src)
  /-- R158: take. -/
  | take (a : Src)
  /-- R160: fwait. -/
  | fwait (a : Src) (b : Src) (d : Dest)
  /-- R160: froom. -/
  | froom (a : Src) (b : Src) (d : Dest)
  /-- R160: fadv. -/
  | fadv (a : Src) (b : Src)
  /-- R160: fpub. -/
  | fpub (a : Src) (b : Src)
  /-- R163: tbinit. -/
  | tbinit (a : Src) (b : Src)
  /-- R163: tbarr. -/
  | tbarr (a : Src)
  /-- R163: tbexp. -/
  | tbexp (a : Src) (b : Src)
  /-- R164: tbwait. -/
  | tbwait (a : Src) (b : Src)
  /-- R248: send. -/
  | send (a : Src)
  /-- R250: sendr. -/
  | sendr (a : Src) (b : Src)
  /-- R249: enq. -/
  | enq (a : Src)
  /-- R249: enqt. -/
  | enqt (a : Src) (b : Src)
  /-- R251: deq. -/
  | deq (a : Src) (d : Dest)
  /-- R254: jinit. -/
  | jinit (a : Src) (b : Src)
  /-- R255: done.j. -/
  | doneJ (a : Src)
  /-- R255: done.t. -/
  | doneT (a : Src)
  /-- R256: done.f. -/
  | doneF (a : Src)
  /-- R258: rread.s. -/
  | rread (a : Src) (d : Dest) (z : Size)
  /-- R259: launch. -/
  | launch (a : Src)
  /-- R262: qmap. -/
  | qmap (a : Src) (b : Src)
  /-- R320: try. -/
  | tryC (a : Src) (o : BitVec 15)
  /-- R320: try.s. -/
  | tryS (a : Src) (o : BitVec 15)
  /-- R323: cut. -/
  | cut (a : Src)
  /-- R323: mark. -/
  | mark (d : Dest)
  /-- R324: trail.s. -/
  | trail (a : Src) (z : Size)
  /-- R84: fadd.sf. -/
  | fadd (a : Src) (b : Src) (d : Dest) (p : Prec)
  /-- R84: fsub.sf. -/
  | fsub (a : Src) (b : Src) (d : Dest) (p : Prec)
  /-- R84: fmul.sf. -/
  | fmul (a : Src) (b : Src) (d : Dest) (p : Prec)
  /-- R84: fdiv.sf. -/
  | fdiv (a : Src) (b : Src) (d : Dest) (p : Prec)
  /-- R85: fmin.sf. -/
  | fmin (a : Src) (b : Src) (d : Dest) (p : Prec)
  /-- R85: fmax.sf. -/
  | fmax (a : Src) (b : Src) (d : Dest) (p : Prec)
  /-- R84: fsqrt.sf. -/
  | fsqrt (a : Src) (d : Dest) (p : Prec)
  /-- R87: fclass.sf. -/
  | fclass (a : Src) (d : Dest) (p : Prec)
  /-- R88: fround.sf. -/
  | fround (a : Src) (d : Dest) (p : Prec)
  /-- R88: fsgn.sf. -/
  | fsgn (a : Src) (b : Src) (d : Dest) (p : Prec)
  /-- R84: ffma.sf. -/
  | ffma (a : Src) (b : Src) (c : Src) (d : Dest) (p : Prec)
  /-- R86: feq.sf. -/
  | feq (a : Src) (b : Src) (d : Dest) (p : Prec)
  /-- R86: flt.sf. -/
  | flt (a : Src) (b : Src) (d : Dest) (p : Prec)
  /-- R86: fle.sf. -/
  | fle (a : Src) (b : Src) (d : Dest) (p : Prec)
  /-- R89: fcvt.dst.src. -/
  | fcvt (a : Src) (d : Dest) (t : STy) (s : STy)
  /-- R396: mfmt. -/
  | mfmt (i : BitVec 15)
  /-- R397: mscl. -/
  | mscl (a : Src) (n : Fin 8)
  /-- R398: mtick. -/
  | mtick (d : Dest)
  /-- R399: mresume. -/
  | mresume (a : Src)
  /-- R400: accspill. -/
  | accspill (a : Src) (b : Src)
  /-- R355: vld.s. -/
  | vld (v : Fin 32) (b : Src) (m : Fin 8) (p : Span) (z : Size)
  /-- R355: vst.s. -/
  | vst (v : Fin 32) (b : Src) (m : Fin 8) (p : Span) (z : Size)
  /-- R355: vlds.s. -/
  | vlds (v : Fin 32) (b : Src) (x : Src) (m : Fin 8) (p : Span) (z : Size)
  /-- R355: vsts.s. -/
  | vsts (v : Fin 32) (b : Src) (x : Src) (m : Fin 8) (p : Span) (z : Size)
  /-- R355: vgather.s. -/
  | vgather (v : Fin 32) (b : Src) (x : Fin 32) (m : Fin 8) (p : Span) (z : Size)
  /-- R355: vscatter.s. -/
  | vscatter (v : Fin 32) (b : Src) (x : Fin 32) (m : Fin 8) (p : Span) (z : Size)
  /-- R358: vadd.t. -/
  | vadd (d : Fin 32) (a : Fin 32) (b : Fin 32) (m : Fin 8) (t : ATy)
  /-- R358: vsub.t. -/
  | vsub (d : Fin 32) (a : Fin 32) (b : Fin 32) (m : Fin 8) (t : ATy)
  /-- R358: vmul.t. -/
  | vmul (d : Fin 32) (a : Fin 32) (b : Fin 32) (m : Fin 8) (t : ATy)
  /-- R358: vfma.t. -/
  | vfma (d : Fin 32) (a : Fin 32) (b : Fin 32) (m : Fin 8) (t : ATy)
  /-- R358: vmin.t. -/
  | vmin (d : Fin 32) (a : Fin 32) (b : Fin 32) (m : Fin 8) (t : ATy)
  /-- R358: vmax.t. -/
  | vmax (d : Fin 32) (a : Fin 32) (b : Fin 32) (m : Fin 8) (t : ATy)
  /-- R358: vabs.t. -/
  | vabs (d : Fin 32) (a : Fin 32) (m : Fin 8) (t : ATy)
  /-- R358: vneg.t. -/
  | vneg (d : Fin 32) (a : Fin 32) (m : Fin 8) (t : ATy)
  /-- R358: vand.t. -/
  | vand (d : Fin 32) (a : Fin 32) (b : Fin 32) (m : Fin 8) (t : ATy)
  /-- R358: vor.t. -/
  | vor (d : Fin 32) (a : Fin 32) (b : Fin 32) (m : Fin 8) (t : ATy)
  /-- R358: vxor.t. -/
  | vxor (d : Fin 32) (a : Fin 32) (b : Fin 32) (m : Fin 8) (t : ATy)
  /-- R358: vshl.t. -/
  | vshl (d : Fin 32) (a : Fin 32) (b : Fin 32) (m : Fin 8) (t : ATy)
  /-- R358: vshr.t. -/
  | vshr (d : Fin 32) (a : Fin 32) (b : Fin 32) (m : Fin 8) (t : ATy)
  /-- R358: vsra.t. -/
  | vsra (d : Fin 32) (a : Fin 32) (b : Fin 32) (m : Fin 8) (t : ATy)
  /-- R359: vcmp.cc.t. -/
  | vcmp (d : Fin 8) (a : Fin 32) (b : Fin 32) (m : Fin 8) (c : Cc) (t : ATy)
  /-- R360: vsel.t. -/
  | vsel (d : Fin 32) (a : Fin 32) (b : Fin 32) (m : Fin 8) (t : ATy)
  /-- R361: vred.sum.t. -/
  | vredSum (d : Fin 32) (a : Fin 32) (m : Fin 8) (t : ATy)
  /-- R361: vred.min.t. -/
  | vredMin (d : Fin 32) (a : Fin 32) (m : Fin 8) (t : ATy)
  /-- R361: vred.max.t. -/
  | vredMax (d : Fin 32) (a : Fin 32) (m : Fin 8) (t : ATy)
  /-- R362: vscan.op.t. -/
  | vscan (d : Fin 32) (a : Fin 32) (o : ScanOp) (m : Fin 8) (t : ATy)
  /-- R363: vperm.t. -/
  | vperm (d : Fin 32) (a : Fin 32) (b : Fin 32) (m : Fin 8) (t : ATy)
  /-- R364: vcompress.t. -/
  | vcompress (d : Fin 32) (a : Fin 32) (m : Fin 8) (t : ATy)
  /-- R365: vbcast.t. -/
  | vbcast (d : Fin 32) (a : Src) (m : Fin 8) (t : ATy)
  /-- R365: vext.t. -/
  | vext (d : Dest) (a : Fin 32) (i : BitVec 6) (t : ATy)
  /-- R365: vins.t. -/
  | vins (d : Fin 32) (a : Src) (i : BitVec 6) (t : ATy)
  /-- R366: vcvt.dst.src. -/
  | vcvt (d : Fin 32) (a : Fin 32) (s : ETy) (m : Fin 8) (t : ETy)
  /-- R368: vdq.dst.src. -/
  | vdq (d : Fin 32) (a : Fin 32) (s : ETy) (m : Fin 8) (t : ETy)
  /-- R370: vdot.t. -/
  | vdot (d : Fin 32) (a : Fin 32) (b : Fin 32) (m : Fin 8) (t : ETy)
  /-- R367: vcvtq.dst.src. -/
  | vcvtq (d : Fin 32) (a : Fin 32) (s : ETy) (m : Fin 8) (t : ETy)
  /-- R367: vcvtq.h16.dst.src. -/
  | vcvtqH16 (d : Fin 32) (a : Fin 32) (s : ETy) (t : ETy)
  /-- R367: vcvtq.h32.dst.src. -/
  | vcvtqH32 (d : Fin 32) (a : Fin 32) (s : ETy) (t : ETy)
  /-- R369: vhad.h16.t. -/
  | vhadH16 (d : Fin 32) (a : Fin 32) (t : ETy)
  /-- R369: vhad.h32.t. -/
  | vhadH32 (d : Fin 32) (a : Fin 32) (t : ETy)
  /-- R371: mand. -/
  | mand (d : Fin 8) (a : Fin 8) (b : Fin 8)
  /-- R371: mor. -/
  | mor (d : Fin 8) (a : Fin 8) (b : Fin 8)
  /-- R371: mnot. -/
  | mnot (d : Fin 8) (a : Fin 8)
  /-- R371: mpop. -/
  | mpop (d : Dest) (a : Fin 8)
  /-- R281: trap. -/
  | trap (a : Src)
  /-- R283: crd. -/
  | crd (r : BitVec 5) (d : Dest)
  /-- R283: cwr. -/
  | cwr (a : Src) (r : BitVec 5)
  /-- R284: tinv. -/
  | tinv (a : Src) (b : Src)
  /-- R285: rmode. -/
  | rmode (a : Src) (b : Src) (m : CMode)
  /-- R286: ctxsave. -/
  | ctxsave (a : Src)
  /-- R286: ctxload. -/
  | ctxload (a : Src)
  /-- R287: pre. -/
  | pre (a : Src)
  /-- R267: MCHECK. -/
  | mcheck (loc : Nat) (reason : Nat) (detail : Nat) (badva : Word)
  /-- R105: GRANT_REQUEST. -/
  | grantRequest (arb : Nat) (cid : Nat)
  /-- R106: COMMIT_MESSAGE. -/
  | commitMessage (home : Nat) (cid : Nat)
  /-- R107: FORWARDED_W. -/
  | forwardedW (core : Nat) (cid : Nat)
  /-- R114: FAULT_RESPONSE. -/
  | faultResponse (loc : Nat) (pos : Nat)
  /-- R204: GETS. -/
  | getS (home : Nat) (f : FillReq)
  /-- R204: HOME_DATA_ARRIVAL. -/
  | homeDataArrival (home : Nat) (region : Nat)
  /-- R206: WRITE_BACK. -/
  | writeBack (home : Nat) (region : Nat) (who : WbFrom) (words : List (Nat × Word))
  /-- R206: SNOOP. -/
  | snoop (home : Nat) (region : Nat) (who : Nat) (inval : Bool)
  /-- R204: OWNER_MOVE_REPORT. -/
  | ownerMoveReport (home : Nat) (region : Nat) (who : Nat)
  /-- R190: FILL_ARRIVAL. -/
  | fillArrival (f : FillReq)
  /-- R195: EXTENSION_ARRIVAL. -/
  | extensionArrival (f : FillReq)
  /-- R208: LEASE_EXPIRY. -/
  | leaseExpiry (core : Nat) (asid : Nat) (va : Nat)
  /-- R182: RECALL. -/
  | recallName (home : Nat) (region : Nat) (asid : Nat) (va : Nat)
  /-- R182: RECALL_ANSWER. -/
  | recallAnswer (home : Nat) (region : Nat) (core : Nat) (asid : Nat) (va : Nat)
  /-- R176: PAGE_WALK. -/
  | pageWalk (home : Nat) (asid : Nat) (page : Nat) (write : Bool)
  /-- R184: TINV_HOME. -/
  | tinvHome (home : Nat) (tid : Nat)
  /-- R207: RMODE_DRAIN. -/
  | rmodeDrain (home : Nat) (tid : Nat)
  /-- R210: DIRECTORY_ERROR. -/
  | directoryError (home : Nat) (region : Nat)
  /-- R210: FILTER_ERROR. -/
  | filterError (unit : Nat) (key : Nat)
  /-- R132: INBOUND_WRITE. -/
  | inboundWrite (req : Nat) (ro : Bool) (cells : List (Nat × Byte))
  /-- R132: INBOUND_READ. -/
  | inboundRead (req : Nat) (pa : Nat) (n : Nat)
  /-- R288: ATOMICOP_FETCHADD. -/
  | atomicopFetchadd (req : Nat) (pa : Nat) (n : Nat) (x : Word)
  /-- R288: ATOMICOP_SWAP. -/
  | atomicopSwap (req : Nat) (pa : Nat) (n : Nat) (x : Word)
  /-- R288: ATOMICOP_CAS. -/
  | atomicopCas (req : Nat) (pa : Nat) (n : Nat) (x : Word) (y : Word)
  /-- R296: BACK_INVALIDATE. -/
  | backInvalidate (line : Nat) (cid : Nat)
  /-- R296: BACK_INVALIDATE_ANSWER. -/
  | backInvalidateAnswer (line : Nat) (cid : Nat) (cells : List (Nat × Byte))
  /-- R294: MESSAGE_PORT_WORD. -/
  | messagePortWord (asid : Nat) (req : Nat) (j : Nat) (x : Word)
  /-- R294: MESSAGE_PORT_SEND. -/
  | messagePortSend (asid : Nat) (req : Nat) (x : Word)
  /-- R233: GANG_GATHER. -/
  | gangGather (lid : Nat) (g : Nat)
  /-- R326: THEFT. -/
  | theft (victim : Nat) (rec : Word) (thief : Nat)
  /-- R225: QUEUE_MISS. -/
  | queueMiss (die : Nat) (asid : Nat) (h : Nat)
  /-- R222: MAILBOX_DELIVERY. -/
  | mailboxDelivery (core : Nat) (asid : Nat) (msg : List Word)
  /-- R229: SUCCESSOR_WALK. -/
  | successorWalk (asid : Nat) (tcb : Word) (loc : Nat) (i : Nat)
  /-- R229: TCB_DECREMENT. -/
  | tcbDecrement (asid : Nat) (s : Word) (tcb : Word) (loc : Nat) (i : Nat)
  /-- R230: JOIN_DECREMENT. -/
  | joinDecrement (asid : Nat) (blk : Word) (loc : Nat)
  /-- R236: GROUP_COMPLETE. -/
  | groupComplete (lid : Nat) (g : Nat)
  /-- R239: DUP_COMPARE. -/
  | dupCompare (lid : Nat) (g : Nat)
  /-- R260: BARRIER_RELEASE. -/
  | barrierRelease (gang : Nat) (band : Bool)
  /-- R270: PREEMPT_REQUEST. -/
  | preemptRequest (desc : Word) (excl : Nat)
  /-- R270: PREEMPT_COMPLETE. -/
  | preemptComplete (desc : Word) (asids : List Nat)
  /-- R269: RELEASE_HELD. -/
  | releaseHeld (desc : Word)
  /-- R385: ACC_WRITEBACK. -/
  | accWriteback (cl : Nat) (tile : Nat)
  /-- R394: CHAIN_HOP. -/
  | chainHop (pid : Nat) (hop : Nat)
  /-- R269: PRE_EMPTION_REGISTER. -/
  | preEmptionRegister (master : Nat) (x : Word)
  /-- R291: ASID_INVALIDATE. -/
  | asidInvalidate (master : Nat) (asid : Nat)
  /-- R291: LOST_EVENT_CLEAR. -/
  | lostEventClear (master : Nat) (asid : Nat)
  /-- R277: HALT. -/
  | haltCores (master : Nat) (die : Nat) (x : Word)
  /-- R292: HALT_RELEASE. -/
  | haltRelease (master : Nat) (die : Nat) (x : Word)
  /-- R292: STEP. -/
  | stepCore (master : Nat) (die : Nat)
  /-- R277: DEBUG_WINDOW_WRITE. -/
  | debugWindowWrite (master : Nat) (die : Nat) (off : Nat) (x : Word)
  /-- R290: CONTROL_SPACE_WRITE. -/
  | controlSpaceWrite (master : Nat) (off : Nat) (x : Word)
  /-- R305: CLAIM. -/
  | claim (id : Nat) (nonce : BitVec 32)
  /-- R305: HEARTBEAT. -/
  | heartbeat (id : Nat) (nonce : BitVec 32)
  /-- R305: SUCCESSOR. -/
  | successor (id : Nat) (nonce : BitVec 32) (next : Nat) (nextNonce : BitVec 32)
  /-- R306: SWITCH_IMAGE. -/
  | switchImage (img : Nat) (target : Bool)
  /-- R303: RESET. -/
  | resetPackage (keep : Bool)
  /-- R309: POWER_THROTTLE. -/
  | powerThrottle (die : Nat) (down : Bool)
  /-- R130: SYSTEM_SCOPE_COMPLETION. -/
  | systemScopeCompletion (id : Nat) (x : Word)
  /-- R49: nop. -/
  | nop
  /-- R154: fence.sys. -/
  | fenceSys
  /-- R154: fence.io. -/
  | fenceIo
  /-- R155: cend. -/
  | cend
  /-- R253: spawn. -/
  | spawn
  /-- R255: done. -/
  | doneP
  /-- R257: yield. -/
  | yieldC
  /-- R260: bar. -/
  | bar
  /-- R260: barb. -/
  | barb
  /-- R321: fail. -/
  | failC
  /-- R282: eret. -/
  | eret
  /-- R281: brk. -/
  | brk
  /-- R39: TRAP_ENTRY. -/
  | trapEntry
  /-- R266: ASYNC_TRAP. -/
  | asyncTrap
  /-- R95: CHUNK_LENGTH_LIMIT. -/
  | chunkLengthLimit
  /-- R104: CHUNK_END. -/
  | chunkEnd
  /-- R105: COMMIT_POINT. -/
  | commitPoint
  /-- R105: COMMIT_COMPLETE. -/
  | commitComplete
  /-- R111: HELD_CHUNK_START. -/
  | heldChunkStart
  /-- R116: SOFT_ERROR. -/
  | softError
  /-- R135: WATCH_WAKE. -/
  | watchWake
  /-- R257: YIELD_RESUME. -/
  | yieldResume
  /-- R128: ENGINE_COMMIT. -/
  | engineCommit
  /-- R298: IO_COMMIT. -/
  | ioCommit
  /-- R295: CXL_CACHE_SNOOP. -/
  | cxlCacheSnoop
  /-- R293: MSIX_SEND. -/
  | msixSend
  /-- R232: DISPATCH. -/
  | dispatch
  /-- R246: QUEUE_PROBE. -/
  | queueProbe
  /-- R227: RING_DELIVERY. -/
  | ringDelivery
  /-- R226: RING_RETRY. -/
  | ringRetry
  /-- R226: QUEUE_STALL. -/
  | queueStall
  /-- R240: TASK_HANG. -/
  | taskHang
  /-- R378: MMA. -/
  | mma
  /-- R378: MMAZ. -/
  | mmaz
  /-- R378: MLOAD. -/
  | mload
  /-- R383: MSTORE. -/
  | mstore
  /-- R378: MZERO. -/
  | mzero
  /-- R378: MFENCE. -/
  | mfence
  /-- R382: COMMAND_COMPLETE. -/
  | commandComplete
  /-- R392: COPY. -/
  | pktCopy
  /-- R392: TOFIFO. -/
  | pktTofifo
  /-- R392: GATHER. -/
  | pktGather
  /-- R392: SCATTER. -/
  | pktScatter
  /-- R392: FILL. -/
  | pktFill
  /-- R394: CHAIN. -/
  | pktChain
  /-- R305: ELECTION_CLOSE. -/
  | electionClose
  /-- R305: OWNER_STALE. -/
  | ownerStale
  /-- R306: RECALIBRATE_HOME. -/
  | recalibrateHome
  /-- R307: RETIRE_DIE. -/
  | retireDie
  /-- R306: WRITE_RETIRED_MASK. -/
  | writeRetiredMask
  /-- R306: SERVICE_COMPLETE. -/
  | serviceComplete
  /-- R308: FATAL_ERROR_DUMP. -/
  | fatalErrorDump
  /-- R68: SPRINNY_TRANSLATE. -/
  | sprinnyTranslate
  /-- R25: LOADER_START. -/
  | loaderStart
deriving DecidableEq, Repr

end Sys2Proof
end

