-- ==== Sys2Proof/Decode.lean ====
section
/-! DEFINITION. The decoder (R42–R61): total on any bytes, refusing by name, and after it the encoder written from the
same tables. Bits are those of the 32-bit word; a word stands in memory little-endian (R5). -/

namespace Sys2Proof

/-- R60: why a word is not an instruction. Every one of these raises ILLEGAL (R61). -/
inductive DecodeError where
  /-- fewer than four bytes were given: not a word -/
  | tooShort
  /-- page 0x00 -/
  | zeroPage
  /-- a page that R48 marks reserved -/
  | reservedPage
  /-- page 0x7E reached by the core (R69) -/
  | portableWord
  /-- an unassigned func, sub or type code -/
  | unassigned
  /-- a reserved field that is not zero (R45) -/
  | reservedField
  /-- a destination code 0b00001–0b01111 (R44) -/
  | badDestination
  /-- a non-zero destination on an instruction without a result (R44) -/
  | destinationGiven
  /-- func[9] = 1 where R47 forbids .w -/
  | wForbidden
deriving DecidableEq, Repr

abbrev Decoded := Except DecodeError Instr

/-! ## Fields of a word (R42) -/

def fOp (w : BitVec 32) : BitVec 7 := w.extractLsb' 25 7
def fA (w : BitVec 32) : BitVec 5 := w.extractLsb' 20 5
def fB (w : BitVec 32) : BitVec 5 := w.extractLsb' 15 5
def fD (w : BitVec 32) : BitVec 5 := w.extractLsb' 10 5
def fW (w : BitVec 32) : BitVec 1 := w.extractLsb' 9 1
def fF9 (w : BitVec 32) : BitVec 9 := w.extractLsb' 0 9
def fC (w : BitVec 32) : BitVec 5 := w.extractLsb' 5 5
def fF5 (w : BitVec 32) : BitVec 5 := w.extractLsb' 0 5
def fImm (w : BitVec 32) : BitVec 15 := w.extractLsb' 0 15
def fOff25 (w : BitVec 32) : BitVec 25 := w.extractLsb' 0 25
def fSize (w : BitVec 32) : BitVec 2 := w.extractLsb' 13 2
def fSpan (w : BitVec 32) : BitVec 2 := w.extractLsb' 11 2
def fOff11 (w : BitVec 32) : BitVec 11 := w.extractLsb' 0 11
def fMask (w : BitVec 32) : BitVec 3 := w.extractLsb' 7 3
def fF7 (w : BitVec 32) : BitVec 7 := w.extractLsb' 0 7
def fVSpan (w : BitVec 32) : BitVec 2 := w.extractLsb' 5 2
def fSub (w : BitVec 32) : BitVec 10 := w.extractLsb' 0 10

/-! ## Words of the nine formats (R42) -/

def mkA (op : BitVec 7) (a b d : BitVec 5) (w : BitVec 1) (f : BitVec 9) : BitVec 32 := op ++ a ++ b ++ d ++ w ++ f
def mkA3 (op : BitVec 7) (a b d c f : BitVec 5) : BitVec 32 := op ++ a ++ b ++ d ++ c ++ f
def mkI (op : BitVec 7) (a d : BitVec 5) (i : BitVec 15) : BitVec 32 := op ++ a ++ d ++ i
def mkJ (op : BitVec 7) (o : BitVec 25) : BitVec 32 := op ++ o
def mkM (op : BitVec 7) (a b : BitVec 5) (z p : BitVec 2) (o : BitVec 11) : BitVec 32 := op ++ a ++ b ++ z ++ p ++ o
def mkV (op : BitVec 7) (a b d : BitVec 5) (m : BitVec 3) (f : BitVec 7) : BitVec 32 := op ++ a ++ b ++ d ++ m ++ f
def mkVM (op : BitVec 7) (a b d : BitVec 5) (m : BitVec 3) (p : BitVec 2) (f : BitVec 5) : BitVec 32 :=
  op ++ a ++ b ++ d ++ m ++ p ++ f
def mkS (op : BitVec 7) (a b d : BitVec 5) (s : BitVec 10) : BitVec 32 := op ++ a ++ b ++ d ++ s

/-! ## Codes of the operands -/

/-- R43: 0–15 select q0–q15, 16–31 select k0–k15. -/
def srcCode : Src → BitVec 5
  | .q n => BitVec.ofNat 5 n.val
  | .k n => BitVec.ofNat 5 (16 + n.val)

def srcOf (c : BitVec 5) : Src :=
  if c.toNat < 16 then .q (Fin.ofNat 16 c.toNat) else .k (Fin.ofNat 16 c.toNat)

/-- R44. -/
def destCode : Dest → BitVec 5
  | .push => 0
  | .keep n => BitVec.ofNat 5 (16 + n.val)

def destOf (c : BitVec 5) : Except DecodeError Dest :=
  if c = 0 then .ok .push
  else if c.toNat < 16 then .error .badDestination
  else .ok (.keep (Fin.ofNat 16 c.toNat))

/-- R46. -/
def sizeCode : Size → BitVec 2
  | .b => 0 | .h => 1 | .w => 2 | .d => 3

def sizeOf (c : BitVec 2) : Size :=
  if c = 0 then .b else if c = 1 then .h else if c = 2 then .w else .d

/-- R18. -/
def spanCode : Span → BitVec 2
  | .pred => 0 | .words => 1 | .sector => 2 | .region => 3

def spanOf (c : BitVec 2) : Span :=
  if c = 0 then .pred else if c = 1 then .words else if c = 2 then .sector else .region

def precCode : Prec → BitVec 1
  | .sf => 0 | .df => 1

def precOf (c : BitVec 1) : Prec := if c = 0 then .sf else .df

def boolCode (w : Bool) : BitVec 1 := if w then 1 else 0
def boolOf (c : BitVec 1) : Bool := c == 1

/-- R49: width codes of sext and zext. -/
def extCode : ExtW → BitVec 5
  | .b => 0 | .h => 1 | .w => 2

def extOf (c : BitVec 5) : Option ExtW :=
  if c = 0 then some .b else if c = 1 then some .h else if c = 2 then some .w else none

/-- R57: arithmetic type codes. -/
def atyCode : ATy → BitVec 3
  | .b => 0 | .h => 1 | .w => 2 | .d => 3 | .hf => 4 | .bf => 5 | .sf => 6 | .df => 7

def atyOf (c : BitVec 3) : ATy :=
  if c = 0 then .b else if c = 1 then .h else if c = 2 then .w else if c = 3 then .d
  else if c = 4 then .hf else if c = 5 then .bf else if c = 6 then .sf else .df

/-- R57: element type codes. -/
def etyCode : ETy → BitVec 5
  | .b => 0x00 | .h => 0x01 | .w => 0x02 | .d => 0x03 | .i4 => 0x04
  | .hf => 0x05 | .bf => 0x06 | .sf => 0x07 | .df => 0x08
  | .b8 p => BitVec.ofNat 5 (0x09 + p.val)
  | .mxi8 => 0x10
  | .b8n p => BitVec.ofNat 5 (0x11 + p.val)
  | .mx4 => 0x18
  | .mxp p => BitVec.ofNat 5 (0x19 + p.val)

def etyOf (c : BitVec 5) : ETy :=
  if c = 0x00 then .b else if c = 0x01 then .h else if c = 0x02 then .w else if c = 0x03 then .d
  else if c = 0x04 then .i4 else if c = 0x05 then .hf else if c = 0x06 then .bf else if c = 0x07 then .sf
  else if c = 0x08 then .df else if c.toNat < 0x10 then .b8 (Fin.ofNat 7 (c.toNat - 0x09))
  else if c = 0x10 then .mxi8 else if c.toNat < 0x18 then .b8n (Fin.ofNat 7 (c.toNat - 0x11))
  else if c = 0x18 then .mx4 else .mxp (Fin.ofNat 7 (c.toNat - 0x19))

/-- R55: fcvt type codes; 8–15 are illegal. -/
def styCode : STy → BitVec 4
  | .sf => 0 | .df => 1 | .hf => 2 | .bf => 3 | .w => 4 | .d => 5 | .wz => 6 | .dz => 7

def styOf (c : BitVec 4) : Option STy :=
  if c = 0 then some .sf else if c = 1 then some .df else if c = 2 then some .hf else if c = 3 then some .bf
  else if c = 4 then some .w else if c = 5 then some .d else if c = 6 then some .wz else if c = 7 then some .dz
  else none

/-- R53: operations 0–5 of amof. -/
def farCode : FarOp → BitVec 4
  | .add => 0 | .and => 1 | .or => 2 | .xor => 3 | .min => 4 | .max => 5

def farOf (c : BitVec 4) : Option FarOp :=
  if c = 0 then some .add else if c = 1 then some .and else if c = 2 then some .or else if c = 3 then some .xor
  else if c = 4 then some .min else if c = 5 then some .max else none

/-- R53: operations 0–8 of amo and amor. -/
def amoCode : AmoOp → BitVec 4
  | .add => 0 | .and => 1 | .or => 2 | .xor => 3 | .min => 4 | .max => 5 | .minz => 6 | .maxz => 7 | .swap => 8

def amoOf (c : BitVec 4) : Option AmoOp :=
  if c = 0 then some .add else if c = 1 then some .and else if c = 2 then some .or else if c = 3 then some .xor
  else if c = 4 then some .min else if c = 5 then some .max else if c = 6 then some .minz
  else if c = 7 then some .maxz else if c = 8 then some .swap else none

/-- R58: vcmp ops 0–5. -/
def ccCode : Cc → BitVec 3
  | .eq => 0 | .ne => 1 | .lt => 2 | .le => 3 | .ltz => 4 | .lez => 5

def ccOf (c : BitVec 3) : Option Cc :=
  if c = 0 then some .eq else if c = 1 then some .ne else if c = 2 then some .lt else if c = 3 then some .le
  else if c = 4 then some .ltz else if c = 5 then some .lez else none

/-- R362. -/
def scanCode : ScanOp → BitVec 5
  | .sum => 0 | .min => 1 | .max => 2

def scanOf (c : BitVec 5) : Option ScanOp :=
  if c = 0 then some .sum else if c = 1 then some .min else if c = 2 then some .max else none

/-- R59: rmode's sub[9:8]; 3 is illegal. -/
def cmodeCode : CMode → BitVec 2
  | .hc => 0 | .sw => 1 | .cp => 2

def cmodeOf (c : BitVec 2) : Option CMode :=
  if c = 0 then some .hc else if c = 1 then some .sw else if c = 2 then some .cp else none

def vregCode (n : Fin 32) : BitVec 5 := BitVec.ofNat 5 n.val
def vregOf (c : BitVec 5) : Fin 32 := Fin.ofNat 32 c.toNat

/-- A mask register named in a 5-bit field (R58: 8 or more is illegal). -/
def mregCode (n : Fin 8) : BitVec 5 := BitVec.ofNat 5 n.val
def mregOf (c : BitVec 5) : Option (Fin 8) := if c.toNat < 8 then some (Fin.ofNat 8 c.toNat) else none

def maskCode (n : Fin 8) : BitVec 3 := BitVec.ofNat 3 n.val
def maskOf (c : BitVec 3) : Fin 8 := Fin.ofNat 8 c.toNat

/-! ## Which types a form takes (R55, R58, R366–R370) -/

def isMx : ETy → Bool
  | .mx4 | .mxi8 | .mxp _ => true
  | _ => false

def isInt : ATy → Bool
  | .b | .h | .w | .d => true
  | _ => false

/-- R352: element width in bits of an arithmetic type. -/
def atyBits : ATy → Nat
  | .b => 8 | .h => 16 | .w => 32 | .d => 64 | .hf => 16 | .bf => 16 | .sf => 32 | .df => 64

/-- R55: a conversion between two integer codes, or from a code to itself, is illegal. -/
def fcvtOk (t s : STy) : Bool :=
  let isI : STy → Bool := fun x => match x with
    | .w | .d | .wz | .dz => true
    | _ => false
  t != s && !(isI t && isI s)

/-- R366. -/
def vcvtOk (t s : ETy) : Bool := !isMx t && !isMx s && t != s

/-- The sources of vcvtq and vhad, the destinations of vdq. -/
def isHalfOrSingle : ETy → Bool
  | .hf | .bf | .sf => true
  | _ => false

/-- The integer, binary8 and MX types that quantising forms take (R367, R368, R370). -/
def isQuant : ETy → Bool
  | .b | .i4 | .b8 _ | .b8n _ | .mx4 | .mxp _ | .mxi8 => true
  | _ => false

/-- R367: plain vcvtq. An MX destination needs a .hf or .bf source and mask 0. -/
def vcvtqOk (t s : ETy) (m : Fin 8) : Bool :=
  isQuant t && isHalfOrSingle s && (!isMx t || (s != .sf && m == 0))

/-- R367: Hadamard forms; a run of n must divide N = 512 / width of the source. -/
def vcvtqHOk (t s : ETy) (n : Nat) : Bool :=
  isQuant t && isHalfOrSingle s && (!isMx t || s != .sf) && (n == 16 || s != .sf)

/-- R368. -/
def vdqOk (t s : ETy) : Bool := isHalfOrSingle t && isQuant s

/-- R370. -/
def vdotOk : ETy → Bool
  | .hf | .bf | .b8 _ | .b8n _ | .mx4 | .mxp _ | .mxi8 | .b | .i4 => true
  | _ => false

/-- R369. -/
def vhadOk (t : ETy) (n : Nat) : Bool := isHalfOrSingle t && (n == 16 || t != .sf)

/-- R365: an element index below N = 512 / w. -/
def idxOk (i : BitVec 6) (t : ATy) : Bool := i.toNat < 512 / atyBits t

/-- R359: op 4 and 5 take integer types and vb = 0. -/
def vcmpOk (c : Cc) (b : Fin 32) (t : ATy) : Bool :=
  match c with
  | .ltz | .lez => isInt t && b == 0
  | _ => true

/-- R396: imm15 of mfmt holds no invalid field. -/
def fmtOk (i : BitVec 15) : Bool := (i.extractLsb' 2 2 : BitVec 2) != 3

/-- R59: control register numbers 0x1D–0x1F are not registers. -/
def crOk (r : BitVec 5) : Bool := r.toNat < 0x1D

/-! ## Decoding by shape -/

/-- Refuse with `e` unless `c` holds. -/
def need (c : Bool) (e : DecodeError) (k : Decoded) : Decoded := if c then k else .error e

def withDest (c : BitVec 5) (k : Dest → Decoded) : Decoded :=
  match destOf c with
  | .ok d => k d
  | .error e => .error e

/-- An operand code that its table may leave unassigned. -/
def withCode {α : Type} (o : Option α) (k : α → Decoded) : Decoded :=
  match o with
  | some x => k x
  | none => .error .unassigned

def zeroA (w : BitVec 32) (k : Decoded) : Decoded := need (fA w == 0) .reservedField k
def zeroB (w : BitVec 32) (k : Decoded) : Decoded := need (fB w == 0) .reservedField k
/-- The destination field of an instruction without a result, at [14:10] (R44). -/
def noD (w : BitVec 32) (k : Decoded) : Decoded := need (fD w == 0) .destinationGiven k
def noW (w : BitVec 32) (k : Decoded) : Decoded := need (fW w == 0) .wForbidden k

def sA (w : BitVec 32) : Src := srcOf (fA w)
def sB (w : BitVec 32) : Src := srcOf (fB w)
def sC (w : BitVec 32) : Src := srcOf (fC w)

/-- A: a, b, d with the .w flag. -/
def shABW (w : BitVec 32) (f : Src → Src → Dest → Bool → Instr) : Decoded :=
  withDest (fD w) fun d => .ok (f (sA w) (sB w) d (boolOf (fW w)))

/-- A: a, b, d, no .w. -/
def shAB (w : BitVec 32) (f : Src → Src → Dest → Instr) : Decoded :=
  noW w (withDest (fD w) fun d => .ok (f (sA w) (sB w) d))

/-- A: a, d with the .w flag, b = 0. -/
def shAW (w : BitVec 32) (f : Src → Dest → Bool → Instr) : Decoded :=
  zeroB w (withDest (fD w) fun d => .ok (f (sA w) d (boolOf (fW w))))

/-- A: a, d, b = 0, no .w. -/
def shA (w : BitVec 32) (f : Src → Dest → Instr) : Decoded :=
  noW w (zeroB w (withDest (fD w) fun d => .ok (f (sA w) d)))

/-- A3: a, b, c, d. -/
def shABC (w : BitVec 32) (f : Src → Src → Src → Dest → Instr) : Decoded :=
  withDest (fD w) fun d => .ok (f (sA w) (sB w) (sC w) d)

/-- I: a, d, imm15. -/
def shI (w : BitVec 32) (f : Src → Dest → BitVec 15 → Instr) : Decoded :=
  withDest (fB w) fun d => .ok (f (sA w) d (fImm w))

/-- I: a, d, a 6-bit count, imm15[14:6] = 0. -/
def shISh (w : BitVec 32) (f : Src → Dest → BitVec 6 → Instr) : Decoded :=
  need (w.extractLsb' 6 9 == 0) .reservedField (withDest (fB w) fun d => .ok (f (sA w) d (w.extractLsb' 0 6)))

/-- B: a, b, off15. -/
def shBr2 (w : BitVec 32) (f : Src → Src → BitVec 15 → Instr) : Decoded := .ok (f (sA w) (sB w) (fImm w))

/-- B: a, off15, b = 0. -/
def shBr1 (w : BitVec 32) (f : Src → BitVec 15 → Instr) : Decoded := zeroB w (.ok (f (sA w) (fImm w)))

/-- S: nothing. -/
def shS0 (w : BitVec 32) (i : Instr) : Decoded := zeroA w (zeroB w (noD w (.ok i)))

/-- S: a. -/
def shS1 (w : BitVec 32) (f : Src → Instr) : Decoded := zeroB w (noD w (.ok (f (sA w))))

/-- S: a, b. -/
def shS2 (w : BitVec 32) (f : Src → Src → Instr) : Decoded := noD w (.ok (f (sA w) (sB w)))

/-- S: a, d. -/
def shS1D (w : BitVec 32) (f : Src → Dest → Instr) : Decoded := zeroB w (withDest (fD w) fun d => .ok (f (sA w) d))

/-- S: a, b, d. -/
def shS2D (w : BitVec 32) (f : Src → Src → Dest → Instr) : Decoded := withDest (fD w) fun d => .ok (f (sA w) (sB w) d)

/-- S: d. -/
def shSD (w : BitVec 32) (f : Dest → Instr) : Decoded := zeroA w (zeroB w (withDest (fD w) fun d => .ok (f d)))

/-- V: vd, va, vb, mask, arithmetic type in func[2:0]. -/
def shV3 (w : BitVec 32) (f : Fin 32 → Fin 32 → Fin 32 → Fin 8 → ATy → Instr) : Decoded :=
  .ok (f (vregOf (fA w)) (vregOf (fB w)) (vregOf (fD w)) (maskOf (fMask w)) (atyOf (w.extractLsb' 0 3)))

/-- V: vd, va, mask, type, vb = 0. -/
def shV2 (w : BitVec 32) (f : Fin 32 → Fin 32 → Fin 8 → ATy → Instr) : Decoded :=
  need (fD w == 0) .reservedField
    (.ok (f (vregOf (fA w)) (vregOf (fB w)) (maskOf (fMask w)) (atyOf (w.extractLsb' 0 3))))

/-- V: as `shV3`, integer types only. -/
def shV3I (w : BitVec 32) (f : Fin 32 → Fin 32 → Fin 32 → Fin 8 → ATy → Instr) : Decoded :=
  need (isInt (atyOf (w.extractLsb' 0 3))) .unassigned (shV3 w f)

/-! ## Decoding by page (R49–R59) -/

/-- R49, page 0x01. -/
def decodeInt (w : BitVec 32) : Decoded :=
  let f := fF9 w
  if f = 0x000 then zeroA w (zeroB w (noD w (noW w (.ok .nop))))
  else if f = 0x001 then shABW w .add
  else if f = 0x002 then shABW w .sub
  else if f = 0x003 then shABW w .mul
  else if f = 0x004 then shAB w .mulh
  else if f = 0x005 then shAB w .mulhz
  else if f = 0x006 then shABW w .div
  else if f = 0x007 then shABW w .divz
  else if f = 0x008 then shABW w .rem
  else if f = 0x009 then shABW w .remz
  else if f = 0x00A then shAB w .andR
  else if f = 0x00B then shAB w .orR
  else if f = 0x00C then shAB w .xorR
  else if f = 0x00D then shAB w .andn
  else if f = 0x00E then shAB w .orn
  else if f = 0x00F then shABW w .shl
  else if f = 0x010 then shABW w .shr
  else if f = 0x011 then shABW w .sra
  else if f = 0x012 then shABW w .rol
  else if f = 0x013 then shABW w .ror
  else if f = 0x014 then shAB w .minS
  else if f = 0x015 then shAB w .maxS
  else if f = 0x016 then shAB w .minz
  else if f = 0x017 then shAB w .maxz
  else if f = 0x018 then shAB w .slt
  else if f = 0x019 then shAB w .sltz
  else if f = 0x01A then shAB w .seqR
  else if f = 0x01B then shAB w .sne
  else if f = 0x01C then shAW w .clz
  else if f = 0x01D then shAW w .ctz
  else if f = 0x01E then shAW w .popc
  else if f = 0x01F then shAW w .brev
  else if f = 0x020 then shAW w .bswap
  else if f = 0x021 then
    noW w (withCode (extOf (fB w)) fun x => withDest (fD w) fun d => .ok (.sext (sA w) x d))
  else if f = 0x022 then
    noW w (withCode (extOf (fB w)) fun x => withDest (fD w) fun d => .ok (.zext (sA w) x d))
  else .error .unassigned

/-- R49, page 0x02. -/
def decodeSel (w : BitVec 32) : Decoded :=
  if fF5 w = 0x00 then shABC w .sel
  else if fF5 w = 0x01 then shABC w .ins
  else if fF5 w = 0x02 then shABC w .lea
  else .error .unassigned

/-- R50, page 0x0D. -/
def decodeLi (w : BitVec 32) : Decoded := zeroA w (withDest (fB w) fun d => .ok (.li d (fImm w)))

/-- R50, page 0x0F. -/
def decodeExt (w : BitVec 32) : Decoded :=
  need (w.extractLsb' 12 3 == 0) .reservedField
    (withDest (fB w) fun d => .ok (.extI (sA w) d (w.extractLsb' 6 6) (w.extractLsb' 0 6)))

/-- R49, page 0x10. -/
def decodeSpace (w : BitVec 32) : Decoded :=
  let f := fF9 w
  if f = 0x000 then shA w .space
  else if f = 0x001 then shA w .castPg
  else if f = 0x002 then shA w .castSl
  else if f = 0x003 then shA w .castSx
  else if f = 0x004 then shA w .castCl
  else if f = 0x005 then shA w .castOff
  else .error .unassigned

/-- R51, page 0x2B. -/
def decodeJr (w : BitVec 32) : Decoded :=
  if fF9 w = 0 then noW w (shS1 w .jr)
  else if fF9 w = 1 then noW w (shS1 w .callr)
  else .error .unassigned

/-- R52, page 0x30 and R53, page 0x44: a load of the M format. -/
def decodeLd (w : BitVec 32) : Decoded :=
  withDest (fB w) fun d => .ok (.ld (sA w) d (sizeOf (fSize w)) (spanOf (fSpan w)) (fOff11 w))

/-- R52, page 0x31. -/
def decodeLz (w : BitVec 32) : Decoded :=
  need (fSize w != 3) .unassigned
    (withDest (fB w) fun d => .ok (.lz (sA w) d (sizeOf (fSize w)) (spanOf (fSpan w)) (fOff11 w)))

/-- R52, page 0x32: span 0b11 is st.nt. -/
def decodeSt (w : BitVec 32) : Decoded :=
  if fSpan w = 3 then .ok (.stNt (sA w) (sB w) (sizeOf (fSize w)) (fOff11 w))
  else .ok (.st (sA w) (sB w) (sizeOf (fSize w)) (spanOf (fSpan w)) (fOff11 w))

/-- R52, page 0x33. -/
def decodeLdp (w : BitVec 32) : Decoded :=
  need (fSize w == 3) .unassigned (withDest (fB w) fun d => .ok (.ldp (sA w) d (spanOf (fSpan w)) (fOff11 w)))

/-- R52, page 0x34. -/
def decodeStp (w : BitVec 32) : Decoded := noD w (.ok (.stp (sA w) (sB w) (sC w) (fF5 w)))

/-- R52, page 0x35. -/
def decodeRange (w : BitVec 32) : Decoded :=
  need (fOff11 w == 0) .reservedField
    (if fSize w = 0 then .ok (.pref (sA w) (sB w) (spanOf (fSpan w)))
     else need (fSpan w == 0) .reservedField
      (if fSize w = 1 then .ok (.flush (sA w) (sB w))
       else if fSize w = 2 then .ok (.clean (sA w) (sB w))
       else .ok (.inval (sA w) (sB w))))

/-- R53, page 0x40. -/
def decodeAmo (w : BitVec 32) : Decoded :=
  need (w.extractLsb' 4 5 == 0) .unassigned
    (withCode (amoOf (w.extractLsb' 0 4)) fun o =>
      withDest (fD w) fun d => .ok (.amo (sA w) (sB w) d (boolOf (fW w)) o))

/-- R53, page 0x41. -/
def decodeCas (w : BitVec 32) : Decoded :=
  need (w.extractLsb' 1 4 == 0) .unassigned
    (withDest (fD w) fun d => .ok (.cas (sA w) (sB w) (sC w) d (boolOf (w.extractLsb' 0 1))))

/-- R53, page 0x42. -/
def decodeAmof (w : BitVec 32) : Decoded :=
  need (w.extractLsb' 4 5 == 0) .unassigned
    (withCode (farOf (w.extractLsb' 0 4)) fun o => noD w (.ok (.amof (sA w) (sB w) (boolOf (fW w)) o)))

/-- R53, page 0x43: func[3:0] 9 is cas, which alone uses c. -/
def decodeAmor (w : BitVec 32) : Decoded :=
  withDest (fD w) fun d =>
    if w.extractLsb' 0 4 = (9 : BitVec 4) then
      .ok (.amorCas (sA w) (sB w) (sC w) d (boolOf (w.extractLsb' 4 1)))
    else withCode (amoOf (w.extractLsb' 0 4)) fun o =>
      need (fC w == 0) .reservedField (.ok (.amor (sA w) (sB w) d (boolOf (w.extractLsb' 4 1)) o))

/-- R53, page 0x44. -/
def decodeLdacq (w : BitVec 32) : Decoded :=
  need (fSpan w == 0) .reservedField
    (withDest (fB w) fun d => .ok (.ldacqSys (sA w) d (sizeOf (fSize w)) (fOff11 w)))

/-- R53, page 0x45. -/
def decodeStrel (w : BitVec 32) : Decoded :=
  need (fSpan w == 0) .reservedField (.ok (.strelSys (sA w) (sB w) (sizeOf (fSize w)) (fOff11 w)))

/-- R53, page 0x46. -/
def decodeFence (w : BitVec 32) : Decoded :=
  if fSub w = 0 then shS0 w .fenceSys
  else if fSub w = 1 then shS0 w .fenceIo
  else if fSub w = 2 then shS2 w .waita
  else if fSub w = 3 then shS0 w .cend
  else .error .unassigned

/-- R53, page 0x47. -/
def decodeTile (w : BitVec 32) : Decoded :=
  if fSub w = 0 then shS1 w .give
  else if fSub w = 1 then shS1 w .take
  else .error .unassigned

/-- R53, page 0x48. -/
def decodeFifo (w : BitVec 32) : Decoded :=
  if fSub w = 0 then shS2D w .fwait
  else if fSub w = 1 then shS2D w .froom
  else if fSub w = 2 then shS2 w .fadv
  else if fSub w = 3 then shS2 w .fpub
  else .error .unassigned

/-- R53, page 0x49. -/
def decodeTb (w : BitVec 32) : Decoded :=
  if fSub w = 0 then shS2 w .tbinit
  else if fSub w = 1 then shS1 w .tbarr
  else if fSub w = 2 then shS2 w .tbexp
  else if fSub w = 3 then shS2 w .tbwait
  else .error .unassigned

/-- A page of the S format with the one sub value 0. -/
def onlySub (w : BitVec 32) (k : Decoded) : Decoded := need (fSub w == 0) .unassigned k

/-- R54, page 0x52. -/
def decodeEnq (w : BitVec 32) : Decoded :=
  if fSub w = 0 then shS1 w .enq
  else if fSub w = 1 then shS2 w .enqt
  else .error .unassigned

/-- R54, page 0x56. -/
def decodeDone (w : BitVec 32) : Decoded :=
  if fSub w = 0 then shS0 w .doneP
  else if fSub w = 1 then shS1 w .doneJ
  else if fSub w = 2 then shS1 w .doneT
  else if fSub w = 3 then shS1 w .doneF
  else .error .unassigned

/-- R54, page 0x58. -/
def decodeRread (w : BitVec 32) : Decoded :=
  need (w.extractLsb' 2 8 == 0) .unassigned
    (zeroB w (withDest (fD w) fun d => .ok (.rread (sA w) d (sizeOf (w.extractLsb' 0 2)))))

/-- R54, page 0x5A. -/
def decodeBar (w : BitVec 32) : Decoded :=
  if fSub w = 0 then shS0 w .bar
  else if fSub w = 1 then shS0 w .barb
  else .error .unassigned

/-- R54, page 0x5C: b holds 0 for try and 1 for try.s. -/
def decodeTry (w : BitVec 32) : Decoded :=
  if fB w = 0 then .ok (.tryC (sA w) (fImm w))
  else if fB w = 1 then .ok (.tryS (sA w) (fImm w))
  else .error .unassigned

/-- R54, page 0x5D. -/
def decodeFail (w : BitVec 32) : Decoded :=
  if fSub w = 0 then shS0 w .failC
  else if fSub w = 1 then shS1 w .cut
  else if fSub w = 2 then shSD w .mark
  else .error .unassigned

/-- R54, page 0x5E. -/
def decodeTrail (w : BitVec 32) : Decoded :=
  need (w.extractLsb' 2 8 == 0) .unassigned
    (zeroB w (noD w (.ok (.trail (sA w) (sizeOf (w.extractLsb' 0 2))))))

/-- R55: the bits of func that a scalar floating-point page leaves zero; bit 8 is the precision. -/
def fpGuard (w : BitVec 32) (k : Decoded) : Decoded := noW w (need (w.extractLsb' 3 5 == 0) .unassigned k)

def shF2 (w : BitVec 32) (f : Src → Src → Dest → Prec → Instr) : Decoded :=
  withDest (fD w) fun d => .ok (f (sA w) (sB w) d (precOf (w.extractLsb' 8 1)))

def shF1 (w : BitVec 32) (f : Src → Dest → Prec → Instr) : Decoded :=
  zeroB w (withDest (fD w) fun d => .ok (f (sA w) d (precOf (w.extractLsb' 8 1))))

/-- R55, page 0x60. -/
def decodeFp2 (w : BitVec 32) : Decoded :=
  let f : BitVec 3 := w.extractLsb' 0 3
  fpGuard w
    (if f = 0 then shF2 w .fadd
     else if f = 1 then shF2 w .fsub
     else if f = 2 then shF2 w .fmul
     else if f = 3 then shF2 w .fdiv
     else if f = 4 then shF2 w .fmin
     else if f = 5 then shF2 w .fmax
     else .error .unassigned)

/-- R55, page 0x61. -/
def decodeFp1 (w : BitVec 32) : Decoded :=
  let f : BitVec 3 := w.extractLsb' 0 3
  fpGuard w
    (if f = 0 then shF1 w .fsqrt
     else if f = 1 then shF1 w .fclass
     else if f = 2 then shF1 w .fround
     else if f = 3 then shF2 w .fsgn
     else .error .unassigned)

/-- R55, page 0x62. -/
def decodeFfma (w : BitVec 32) : Decoded :=
  need (w.extractLsb' 1 4 == 0) .unassigned
    (withDest (fD w) fun d => .ok (.ffma (sA w) (sB w) (sC w) d (precOf (w.extractLsb' 0 1))))

/-- R55, page 0x63. -/
def decodeFcmp (w : BitVec 32) : Decoded :=
  let f : BitVec 3 := w.extractLsb' 0 3
  fpGuard w
    (if f = 0 then shF2 w .feq
     else if f = 1 then shF2 w .flt
     else if f = 2 then shF2 w .fle
     else .error .unassigned)

/-- R55, page 0x64. -/
def decodeFcvt (w : BitVec 32) : Decoded :=
  noW w (need (w.extractLsb' 8 1 == 0) .reservedField (zeroB w
    (withCode (styOf (w.extractLsb' 4 4)) fun t => withCode (styOf (w.extractLsb' 0 4)) fun s =>
      need (fcvtOk t s) .unassigned (withDest (fD w) fun d => .ok (.fcvt (sA w) d t s)))))

/-- R56, page 0x68. The Hadamard code 3 of imm15 is invalid (R396). -/
def decodeMfmt (w : BitVec 32) : Decoded :=
  zeroA w (need (fB w == 0) .destinationGiven (need (fmtOk (fImm w)) .unassigned (.ok (.mfmt (fImm w)))))
/-- R56, page 0x69. -/
def decodeMscl (w : BitVec 32) : Decoded :=
  need (w.extractLsb' 3 7 == 0) .unassigned (shS1 w fun a => .mscl a (maskOf (w.extractLsb' 0 3)))

def shVMem (w : BitVec 32) (f : Fin 32 → Src → Fin 8 → Span → Size → Instr) : Decoded :=
  need (fD w == 0) .reservedField
    (.ok (f (vregOf (fA w)) (sB w) (maskOf (fMask w)) (spanOf (fVSpan w)) (sizeOf (w.extractLsb' 0 2))))

def shVMemX (w : BitVec 32) (f : Fin 32 → Src → Src → Fin 8 → Span → Size → Instr) : Decoded :=
  .ok (f (vregOf (fA w)) (sB w) (srcOf (fD w)) (maskOf (fMask w)) (spanOf (fVSpan w)) (sizeOf (w.extractLsb' 0 2)))

def shVMemI (w : BitVec 32) (f : Fin 32 → Src → Fin 32 → Fin 8 → Span → Size → Instr) : Decoded :=
  .ok (f (vregOf (fA w)) (sB w) (vregOf (fD w)) (maskOf (fMask w)) (spanOf (fVSpan w)) (sizeOf (w.extractLsb' 0 2)))

/-- R58, page 0x70; func[2] = 0 (R372). -/
def decodeVMem (w : BitVec 32) : Decoded :=
  let f : BitVec 2 := w.extractLsb' 3 2
  need (w.extractLsb' 2 1 == 0) .reservedField
    (if f = 0 then shVMem w .vld
     else if f = 1 then shVMem w .vst
     else if f = 2 then shVMemX w .vlds
     else shVMemX w .vsts)

/-- R58, page 0x71. -/
def decodeVGather (w : BitVec 32) : Decoded :=
  let f : BitVec 2 := w.extractLsb' 3 2
  need (w.extractLsb' 2 1 == 0) .reservedField
    (if f = 0 then shVMemI w .vgather
     else if f = 1 then shVMemI w .vscatter
     else .error .unassigned)

/-- V-form op codes stand in func[6:3]. -/
def vOp (w : BitVec 32) : BitVec 4 := w.extractLsb' 3 4

/-- R358, page 0x72. -/
def decodeVArith (w : BitVec 32) : Decoded :=
  let f := vOp w
  if f = 0 then shV3 w .vadd
  else if f = 1 then shV3 w .vsub
  else if f = 2 then shV3 w .vmul
  else if f = 3 then shV3 w .vfma
  else if f = 4 then shV3 w .vmin
  else if f = 5 then shV3 w .vmax
  else if f = 6 then shV2 w .vabs
  else if f = 7 then shV2 w .vneg
  else .error .unassigned

/-- R358, page 0x73. -/
def decodeVLogic (w : BitVec 32) : Decoded :=
  let f := vOp w
  if f = 0 then shV3I w .vand
  else if f = 1 then shV3I w .vor
  else if f = 2 then shV3I w .vxor
  else if f = 3 then shV3I w .vshl
  else if f = 4 then shV3I w .vshr
  else if f = 5 then shV3I w .vsra
  else .error .unassigned

/-- R359, R360, page 0x74: op 8 is vsel, ops 0–5 vcmp. -/
def decodeVCmp (w : BitVec 32) : Decoded :=
  if w.extractLsb' 6 1 = (1 : BitVec 1) then
    need (w.extractLsb' 3 3 == 0) .unassigned (shV3 w .vsel)
  else withCode (ccOf (w.extractLsb' 3 3)) fun c => withCode (mregOf (fA w)) fun md =>
    need (vcmpOk c (vregOf (fD w)) (atyOf (w.extractLsb' 0 3))) .reservedField
      (.ok (.vcmp md (vregOf (fB w)) (vregOf (fD w)) (maskOf (fMask w)) c (atyOf (w.extractLsb' 0 3))))

/-- R361–R364, page 0x75. -/
def decodeVRed (w : BitVec 32) : Decoded :=
  let f := vOp w
  if f = 0 then shV2 w .vredSum
  else if f = 1 then shV2 w .vredMin
  else if f = 2 then shV2 w .vredMax
  else if f = 3 then withCode (scanOf (fD w)) fun o =>
    .ok (.vscan (vregOf (fA w)) (vregOf (fB w)) o (maskOf (fMask w)) (atyOf (w.extractLsb' 0 3)))
  else if f = 4 then shV3 w .vperm
  else if f = 5 then shV2 w .vcompress
  else .error .unassigned

/-- R365: the element index of vext and vins: mask[7] is bit 5 and vb bits [4:0]. -/
def vIdx (w : BitVec 32) : BitVec 6 := (w.extractLsb' 7 1 : BitVec 1) ++ fD w

/-- R365, page 0x76. -/
def decodeVMove (w : BitVec 32) : Decoded :=
  let f := vOp w
  let t := atyOf (w.extractLsb' 0 3)
  if f = 0 then need (fD w == 0) .reservedField (.ok (.vbcast (vregOf (fA w)) (sB w) (maskOf (fMask w)) t))
  else if f = 1 then
    need (w.extractLsb' 8 2 == 0) .reservedField (need (idxOk (vIdx w) t) .unassigned
      (withDest (fA w) fun d => .ok (.vext d (vregOf (fB w)) (vIdx w) t)))
  else if f = 2 then
    need (w.extractLsb' 8 2 == 0) .reservedField (need (idxOk (vIdx w) t) .unassigned
      (.ok (.vins (vregOf (fA w)) (sB w) (vIdx w) t)))
  else .error .unassigned

/-- R366, R368, R370, page 0x77. -/
def decodeVCvt (w : BitVec 32) : Decoded :=
  let t := etyOf (fF5 w)
  let s := etyOf (fD w)
  let m := maskOf (fMask w)
  let f : BitVec 2 := w.extractLsb' 5 2
  if f = 0 then need (vcvtOk t s) .unassigned (.ok (.vcvt (vregOf (fA w)) (vregOf (fB w)) s m t))
  else if f = 1 then need (vdqOk t s) .unassigned (.ok (.vdq (vregOf (fA w)) (vregOf (fB w)) s m t))
  else if f = 2 then need (vdotOk t) .unassigned (.ok (.vdot (vregOf (fA w)) (vregOf (fB w)) (vregOf (fD w)) m t))
  else .error .unassigned

/-- R367, R369, page 0x78. -/
def decodeVQuant (w : BitVec 32) : Decoded :=
  let t := etyOf (fF5 w)
  let s := etyOf (fD w)
  let m := maskOf (fMask w)
  let f : BitVec 2 := w.extractLsb' 5 2
  if f = 0 then need (vcvtqOk t s m) .unassigned (.ok (.vcvtq (vregOf (fA w)) (vregOf (fB w)) s m t))
  else need (fMask w == 0) .reservedField
    (if f = 1 then need (vcvtqHOk t s 16) .unassigned (.ok (.vcvtqH16 (vregOf (fA w)) (vregOf (fB w)) s t))
     else if f = 2 then need (vcvtqHOk t s 32) .unassigned (.ok (.vcvtqH32 (vregOf (fA w)) (vregOf (fB w)) s t))
     else need (w.extractLsb' 0 4 == 0) .reservedField
      (if w.extractLsb' 4 1 = (0 : BitVec 1) then
        need (vhadOk s 16) .unassigned (.ok (.vhadH16 (vregOf (fA w)) (vregOf (fB w)) s))
       else need (vhadOk s 32) .unassigned (.ok (.vhadH32 (vregOf (fA w)) (vregOf (fB w)) s))))

/-- R371, page 0x79. -/
def decodeMask (w : BitVec 32) : Decoded :=
  need (fMask w == 0) .reservedField
    (if fF7 w = 0 then withCode (mregOf (fA w)) fun d => withCode (mregOf (fB w)) fun a =>
      withCode (mregOf (fD w)) fun b => .ok (.mand d a b)
     else if fF7 w = 1 then withCode (mregOf (fA w)) fun d => withCode (mregOf (fB w)) fun a =>
      withCode (mregOf (fD w)) fun b => .ok (.mor d a b)
     else if fF7 w = 2 then need (fD w == 0) .reservedField
      (withCode (mregOf (fA w)) fun d => withCode (mregOf (fB w)) fun a => .ok (.mnot d a))
     else if fF7 w = 3 then need (fD w == 0) .reservedField
      (withCode (mregOf (fB w)) fun a => withDest (fA w) fun d => .ok (.mpop d a))
     else .error .unassigned)

/-- R59, page 0x7F. sub[9:8] is used by rmode alone. -/
def decodeSystem (w : BitVec 32) : Decoded :=
  let f := fSub w
  if f = 0 then shS1 w .trap
  else if f = 1 then shS0 w .eret
  else if f = 2 then zeroA w (need (crOk (fB w)) .unassigned (withDest (fD w) fun d => .ok (.crd (fB w) d)))
  else if f = 3 then noD w (need (crOk (fB w)) .unassigned (.ok (.cwr (sA w) (fB w))))
  else if f = 4 then shS0 w .brk
  else if f = 5 then shS2 w .tinv
  else if w.extractLsb' 0 8 = (6 : BitVec 8) then
    withCode (cmodeOf (w.extractLsb' 8 2)) fun m => noD w (.ok (.rmode (sA w) (sB w) m))
  else if f = 7 then shS1 w .ctxsave
  else if f = 8 then shS1 w .ctxload
  else if f = 9 then shS1 w .pre
  else .error .unassigned
/-- R48: the page decides the format. -/
def decodeWord (w : BitVec 32) : Decoded :=
  let p := fOp w
  if p = 0x00 then .error .zeroPage
  else if p = 0x01 then decodeInt w
  else if p = 0x02 then decodeSel w
  else if p = 0x03 then shI w .addi
  else if p = 0x04 then shI w .andi
  else if p = 0x05 then shI w .ori
  else if p = 0x06 then shI w .xori
  else if p = 0x07 then shISh w .shli
  else if p = 0x08 then shISh w .shri
  else if p = 0x09 then shISh w .srai
  else if p = 0x0A then shI w .slti
  else if p = 0x0B then shI w .sltzi
  else if p = 0x0C then shI w .seqi
  else if p = 0x0D then decodeLi w
  else if p = 0x0E then shI w .lcat
  else if p = 0x0F then decodeExt w
  else if p = 0x10 then decodeSpace w
  else if p = 0x20 then .ok (.jmp (fOff25 w))
  else if p = 0x21 then .ok (.call (fOff25 w))
  else if p = 0x22 then shBr2 w .beq
  else if p = 0x23 then shBr2 w .bne
  else if p = 0x24 then shBr2 w .blt
  else if p = 0x25 then shBr2 w .bge
  else if p = 0x26 then shBr1 w .bltz
  else if p = 0x27 then shBr1 w .bgez
  else if p = 0x28 then shBr1 w .bz
  else if p = 0x29 then shBr1 w .bnz
  else if p = 0x2A then shBr2 w .jtab
  else if p = 0x2B then decodeJr w
  else if p = 0x30 then decodeLd w
  else if p = 0x31 then decodeLz w
  else if p = 0x32 then decodeSt w
  else if p = 0x33 then decodeLdp w
  else if p = 0x34 then decodeStp w
  else if p = 0x35 then decodeRange w
  else if p = 0x40 then decodeAmo w
  else if p = 0x41 then decodeCas w
  else if p = 0x42 then decodeAmof w
  else if p = 0x43 then decodeAmor w
  else if p = 0x44 then decodeLdacq w
  else if p = 0x45 then decodeStrel w
  else if p = 0x46 then decodeFence w
  else if p = 0x47 then decodeTile w
  else if p = 0x48 then decodeFifo w
  else if p = 0x49 then decodeTb w
  else if p = 0x50 then onlySub w (shS1 w .send)
  else if p = 0x51 then onlySub w (shS2 w .sendr)
  else if p = 0x52 then decodeEnq w
  else if p = 0x53 then onlySub w (shS1D w .deq)
  else if p = 0x54 then onlySub w (shS0 w .spawn)
  else if p = 0x55 then onlySub w (shS2 w .jinit)
  else if p = 0x56 then decodeDone w
  else if p = 0x57 then onlySub w (shS0 w .yieldC)
  else if p = 0x58 then decodeRread w
  else if p = 0x59 then onlySub w (shS1 w .launch)
  else if p = 0x5A then decodeBar w
  else if p = 0x5B then onlySub w (shS2 w .qmap)
  else if p = 0x5C then decodeTry w
  else if p = 0x5D then decodeFail w
  else if p = 0x5E then decodeTrail w
  else if p = 0x60 then decodeFp2 w
  else if p = 0x61 then decodeFp1 w
  else if p = 0x62 then decodeFfma w
  else if p = 0x63 then decodeFcmp w
  else if p = 0x64 then decodeFcvt w
  else if p = 0x68 then decodeMfmt w
  else if p = 0x69 then decodeMscl w
  else if p = 0x6A then onlySub w (shSD w .mtick)
  else if p = 0x6B then onlySub w (shS1 w .mresume)
  else if p = 0x6C then onlySub w (shS2 w .accspill)
  else if p = 0x70 then decodeVMem w
  else if p = 0x71 then decodeVGather w
  else if p = 0x72 then decodeVArith w
  else if p = 0x73 then decodeVLogic w
  else if p = 0x74 then decodeVCmp w
  else if p = 0x75 then decodeVRed w
  else if p = 0x76 then decodeVMove w
  else if p = 0x77 then decodeVCvt w
  else if p = 0x78 then decodeVQuant w
  else if p = 0x79 then decodeMask w
  else if p = 0x7E then .error .portableWord
  else if p = 0x7F then decodeSystem w
  else .error .reservedPage

/-- R5: the little-endian word of the first four bytes. -/
def wordOfBytes (b0 b1 b2 b3 : Byte) : BitVec 32 := b3 ++ b2 ++ b1 ++ b0

/-- The instruction at the front of a list of bytes, with the bytes that follow it. -/
def decode : List Byte → Except DecodeError (Instr × List Byte)
  | b0 :: b1 :: b2 :: b3 :: rest =>
    match decodeWord (wordOfBytes b0 b1 b2 b3) with
    | .ok i => .ok (i, rest)
    | .error e => .error e
  | _ => .error .tooShort

/-- Byte `j` of a number. -/
def natByte (w j : Nat) : Byte := BitVec.ofNat 8 (w / 2 ^ (8 * j))

/-- What the decoder reads from an instruction whose bits are `w`, numbered as spec/opcode_table.json numbers them;
every bit from `nbits` up is 0. An Axmen instruction is one 32-bit word. -/
def decodeTableWord (nbits w : Nat) : Option Instr :=
  let v := w % 2 ^ nbits
  match decode [natByte v 0, natByte v 1, natByte v 2, natByte v 3] with
  | .ok (i, _) => some i
  | .error _ => none

/-! ## The encoder -/

/-- R42–R59: the word of an instruction. A step of the machine has no word; 0 stands for it (page 0x00 is never an
instruction). -/
def encode : Instr → BitVec 32
  | .nop => mkA 0x01 0 0 0 0 0x000
  | .add a b d w => mkA 0x01 (srcCode a) (srcCode b) (destCode d) (boolCode w) 0x001
  | .sub a b d w => mkA 0x01 (srcCode a) (srcCode b) (destCode d) (boolCode w) 0x002
  | .mul a b d w => mkA 0x01 (srcCode a) (srcCode b) (destCode d) (boolCode w) 0x003
  | .mulh a b d => mkA 0x01 (srcCode a) (srcCode b) (destCode d) 0 0x004
  | .mulhz a b d => mkA 0x01 (srcCode a) (srcCode b) (destCode d) 0 0x005
  | .div a b d w => mkA 0x01 (srcCode a) (srcCode b) (destCode d) (boolCode w) 0x006
  | .divz a b d w => mkA 0x01 (srcCode a) (srcCode b) (destCode d) (boolCode w) 0x007
  | .rem a b d w => mkA 0x01 (srcCode a) (srcCode b) (destCode d) (boolCode w) 0x008
  | .remz a b d w => mkA 0x01 (srcCode a) (srcCode b) (destCode d) (boolCode w) 0x009
  | .andR a b d => mkA 0x01 (srcCode a) (srcCode b) (destCode d) 0 0x00A
  | .orR a b d => mkA 0x01 (srcCode a) (srcCode b) (destCode d) 0 0x00B
  | .xorR a b d => mkA 0x01 (srcCode a) (srcCode b) (destCode d) 0 0x00C
  | .andn a b d => mkA 0x01 (srcCode a) (srcCode b) (destCode d) 0 0x00D
  | .orn a b d => mkA 0x01 (srcCode a) (srcCode b) (destCode d) 0 0x00E
  | .shl a b d w => mkA 0x01 (srcCode a) (srcCode b) (destCode d) (boolCode w) 0x00F
  | .shr a b d w => mkA 0x01 (srcCode a) (srcCode b) (destCode d) (boolCode w) 0x010
  | .sra a b d w => mkA 0x01 (srcCode a) (srcCode b) (destCode d) (boolCode w) 0x011
  | .rol a b d w => mkA 0x01 (srcCode a) (srcCode b) (destCode d) (boolCode w) 0x012
  | .ror a b d w => mkA 0x01 (srcCode a) (srcCode b) (destCode d) (boolCode w) 0x013
  | .minS a b d => mkA 0x01 (srcCode a) (srcCode b) (destCode d) 0 0x014
  | .maxS a b d => mkA 0x01 (srcCode a) (srcCode b) (destCode d) 0 0x015
  | .minz a b d => mkA 0x01 (srcCode a) (srcCode b) (destCode d) 0 0x016
  | .maxz a b d => mkA 0x01 (srcCode a) (srcCode b) (destCode d) 0 0x017
  | .slt a b d => mkA 0x01 (srcCode a) (srcCode b) (destCode d) 0 0x018
  | .sltz a b d => mkA 0x01 (srcCode a) (srcCode b) (destCode d) 0 0x019
  | .seqR a b d => mkA 0x01 (srcCode a) (srcCode b) (destCode d) 0 0x01A
  | .sne a b d => mkA 0x01 (srcCode a) (srcCode b) (destCode d) 0 0x01B
  | .clz a d w => mkA 0x01 (srcCode a) 0 (destCode d) (boolCode w) 0x01C
  | .ctz a d w => mkA 0x01 (srcCode a) 0 (destCode d) (boolCode w) 0x01D
  | .popc a d w => mkA 0x01 (srcCode a) 0 (destCode d) (boolCode w) 0x01E
  | .brev a d w => mkA 0x01 (srcCode a) 0 (destCode d) (boolCode w) 0x01F
  | .bswap a d w => mkA 0x01 (srcCode a) 0 (destCode d) (boolCode w) 0x020
  | .sext a x d => mkA 0x01 (srcCode a) (extCode x) (destCode d) 0 0x021
  | .zext a x d => mkA 0x01 (srcCode a) (extCode x) (destCode d) 0 0x022
  | .sel a b c d => mkA3 0x02 (srcCode a) (srcCode b) (destCode d) (srcCode c) 0x00
  | .ins a b c d => mkA3 0x02 (srcCode a) (srcCode b) (destCode d) (srcCode c) 0x01
  | .lea a b c d => mkA3 0x02 (srcCode a) (srcCode b) (destCode d) (srcCode c) 0x02
  | .addi a d i => mkI 0x03 (srcCode a) (destCode d) i
  | .andi a d i => mkI 0x04 (srcCode a) (destCode d) i
  | .ori a d i => mkI 0x05 (srcCode a) (destCode d) i
  | .xori a d i => mkI 0x06 (srcCode a) (destCode d) i
  | .shli a d n => mkI 0x07 (srcCode a) (destCode d) ((0 : BitVec 9) ++ n)
  | .shri a d n => mkI 0x08 (srcCode a) (destCode d) ((0 : BitVec 9) ++ n)
  | .srai a d n => mkI 0x09 (srcCode a) (destCode d) ((0 : BitVec 9) ++ n)
  | .slti a d i => mkI 0x0A (srcCode a) (destCode d) i
  | .sltzi a d i => mkI 0x0B (srcCode a) (destCode d) i
  | .seqi a d i => mkI 0x0C (srcCode a) (destCode d) i
  | .li d i => mkI 0x0D 0 (destCode d) i
  | .lcat a d i => mkI 0x0E (srcCode a) (destCode d) i
  | .extI a d p l => mkI 0x0F (srcCode a) (destCode d) ((0 : BitVec 3) ++ p ++ l)
  | .space a d => mkA 0x10 (srcCode a) 0 (destCode d) 0 0x000
  | .castPg a d => mkA 0x10 (srcCode a) 0 (destCode d) 0 0x001
  | .castSl a d => mkA 0x10 (srcCode a) 0 (destCode d) 0 0x002
  | .castSx a d => mkA 0x10 (srcCode a) 0 (destCode d) 0 0x003
  | .castCl a d => mkA 0x10 (srcCode a) 0 (destCode d) 0 0x004
  | .castOff a d => mkA 0x10 (srcCode a) 0 (destCode d) 0 0x005
  | .jmp o => mkJ 0x20 o
  | .call o => mkJ 0x21 o
  | .beq a b o => mkI 0x22 (srcCode a) (srcCode b) o
  | .bne a b o => mkI 0x23 (srcCode a) (srcCode b) o
  | .blt a b o => mkI 0x24 (srcCode a) (srcCode b) o
  | .bge a b o => mkI 0x25 (srcCode a) (srcCode b) o
  | .bltz a o => mkI 0x26 (srcCode a) 0 o
  | .bgez a o => mkI 0x27 (srcCode a) 0 o
  | .bz a o => mkI 0x28 (srcCode a) 0 o
  | .bnz a o => mkI 0x29 (srcCode a) 0 o
  | .jtab a b o => mkI 0x2A (srcCode a) (srcCode b) o
  | .jr a => mkA 0x2B (srcCode a) 0 0 0 0x000
  | .callr a => mkA 0x2B (srcCode a) 0 0 0 0x001
  | .ld b d z p o => mkM 0x30 (srcCode b) (destCode d) (sizeCode z) (spanCode p) o
  | .lz b d z p o => mkM 0x31 (srcCode b) (destCode d) (sizeCode z) (spanCode p) o
  | .st b r z p o => mkM 0x32 (srcCode b) (srcCode r) (sizeCode z) (spanCode p) o
  | .stNt b r z o => mkM 0x32 (srcCode b) (srcCode r) (sizeCode z) 3 o
  | .ldp b d p o => mkM 0x33 (srcCode b) (destCode d) 3 (spanCode p) o
  | .stp a b c o => mkA3 0x34 (srcCode a) (srcCode b) 0 (srcCode c) o
  | .pref b l p => mkM 0x35 (srcCode b) (srcCode l) 0 (spanCode p) 0
  | .flush b l => mkM 0x35 (srcCode b) (srcCode l) 1 0 0
  | .clean b l => mkM 0x35 (srcCode b) (srcCode l) 2 0 0
  | .inval b l => mkM 0x35 (srcCode b) (srcCode l) 3 0 0
  | .amo a b d w o => mkA 0x40 (srcCode a) (srcCode b) (destCode d) (boolCode w) ((0 : BitVec 5) ++ amoCode o)
  | .cas a b c d w => mkA3 0x41 (srcCode a) (srcCode b) (destCode d) (srcCode c) ((0 : BitVec 4) ++ boolCode w)
  | .amof a b w o => mkA 0x42 (srcCode a) (srcCode b) 0 (boolCode w) ((0 : BitVec 5) ++ farCode o)
  | .amor a b d w o => mkA3 0x43 (srcCode a) (srcCode b) (destCode d) 0 (boolCode w ++ amoCode o)
  | .amorCas a b c d w => mkA3 0x43 (srcCode a) (srcCode b) (destCode d) (srcCode c) (boolCode w ++ (9 : BitVec 4))
  | .ldacqSys b d z o => mkM 0x44 (srcCode b) (destCode d) (sizeCode z) 0 o
  | .strelSys b r z o => mkM 0x45 (srcCode b) (srcCode r) (sizeCode z) 0 o
  | .fenceSys => mkS 0x46 0 0 0 0
  | .fenceIo => mkS 0x46 0 0 0 1
  | .waita a b => mkS 0x46 (srcCode a) (srcCode b) 0 2
  | .cend => mkS 0x46 0 0 0 3
  | .give a => mkS 0x47 (srcCode a) 0 0 0
  | .take a => mkS 0x47 (srcCode a) 0 0 1
  | .fwait a b d => mkS 0x48 (srcCode a) (srcCode b) (destCode d) 0
  | .froom a b d => mkS 0x48 (srcCode a) (srcCode b) (destCode d) 1
  | .fadv a b => mkS 0x48 (srcCode a) (srcCode b) 0 2
  | .fpub a b => mkS 0x48 (srcCode a) (srcCode b) 0 3
  | .tbinit a b => mkS 0x49 (srcCode a) (srcCode b) 0 0
  | .tbarr a => mkS 0x49 (srcCode a) 0 0 1
  | .tbexp a b => mkS 0x49 (srcCode a) (srcCode b) 0 2
  | .tbwait a b => mkS 0x49 (srcCode a) (srcCode b) 0 3
  | .send a => mkS 0x50 (srcCode a) 0 0 0
  | .sendr a b => mkS 0x51 (srcCode a) (srcCode b) 0 0
  | .enq a => mkS 0x52 (srcCode a) 0 0 0
  | .enqt a b => mkS 0x52 (srcCode a) (srcCode b) 0 1
  | .deq a d => mkS 0x53 (srcCode a) 0 (destCode d) 0
  | .spawn => mkS 0x54 0 0 0 0
  | .jinit a b => mkS 0x55 (srcCode a) (srcCode b) 0 0
  | .doneP => mkS 0x56 0 0 0 0
  | .doneJ a => mkS 0x56 (srcCode a) 0 0 1
  | .doneT a => mkS 0x56 (srcCode a) 0 0 2
  | .doneF a => mkS 0x56 (srcCode a) 0 0 3
  | .yieldC => mkS 0x57 0 0 0 0
  | .rread a d z => mkS 0x58 (srcCode a) 0 (destCode d) ((0 : BitVec 8) ++ sizeCode z)
  | .launch a => mkS 0x59 (srcCode a) 0 0 0
  | .bar => mkS 0x5A 0 0 0 0
  | .barb => mkS 0x5A 0 0 0 1
  | .qmap a b => mkS 0x5B (srcCode a) (srcCode b) 0 0
  | .tryC a o => mkI 0x5C (srcCode a) 0 o
  | .tryS a o => mkI 0x5C (srcCode a) 1 o
  | .failC => mkS 0x5D 0 0 0 0
  | .cut a => mkS 0x5D (srcCode a) 0 0 1
  | .mark d => mkS 0x5D 0 0 (destCode d) 2
  | .trail a z => mkS 0x5E (srcCode a) 0 0 ((0 : BitVec 8) ++ sizeCode z)
  | .fadd a b d p => mkA 0x60 (srcCode a) (srcCode b) (destCode d) 0 (precCode p ++ (0 : BitVec 8))
  | .fsub a b d p => mkA 0x60 (srcCode a) (srcCode b) (destCode d) 0 (precCode p ++ (1 : BitVec 8))
  | .fmul a b d p => mkA 0x60 (srcCode a) (srcCode b) (destCode d) 0 (precCode p ++ (2 : BitVec 8))
  | .fdiv a b d p => mkA 0x60 (srcCode a) (srcCode b) (destCode d) 0 (precCode p ++ (3 : BitVec 8))
  | .fmin a b d p => mkA 0x60 (srcCode a) (srcCode b) (destCode d) 0 (precCode p ++ (4 : BitVec 8))
  | .fmax a b d p => mkA 0x60 (srcCode a) (srcCode b) (destCode d) 0 (precCode p ++ (5 : BitVec 8))
  | .fsqrt a d p => mkA 0x61 (srcCode a) 0 (destCode d) 0 (precCode p ++ (0 : BitVec 8))
  | .fclass a d p => mkA 0x61 (srcCode a) 0 (destCode d) 0 (precCode p ++ (1 : BitVec 8))
  | .fround a d p => mkA 0x61 (srcCode a) 0 (destCode d) 0 (precCode p ++ (2 : BitVec 8))
  | .fsgn a b d p => mkA 0x61 (srcCode a) (srcCode b) (destCode d) 0 (precCode p ++ (3 : BitVec 8))
  | .ffma a b c d p => mkA3 0x62 (srcCode a) (srcCode b) (destCode d) (srcCode c) ((0 : BitVec 4) ++ precCode p)
  | .feq a b d p => mkA 0x63 (srcCode a) (srcCode b) (destCode d) 0 (precCode p ++ (0 : BitVec 8))
  | .flt a b d p => mkA 0x63 (srcCode a) (srcCode b) (destCode d) 0 (precCode p ++ (1 : BitVec 8))
  | .fle a b d p => mkA 0x63 (srcCode a) (srcCode b) (destCode d) 0 (precCode p ++ (2 : BitVec 8))
  | .fcvt a d t s => mkA 0x64 (srcCode a) 0 (destCode d) 0 ((0 : BitVec 1) ++ styCode t ++ styCode s)
  | .mfmt i => mkI 0x68 0 0 i
  | .mscl a n => mkS 0x69 (srcCode a) 0 0 ((0 : BitVec 7) ++ maskCode n)
  | .mtick d => mkS 0x6A 0 0 (destCode d) 0
  | .mresume a => mkS 0x6B (srcCode a) 0 0 0
  | .accspill a b => mkS 0x6C (srcCode a) (srcCode b) 0 0
  | .vld v b m p z => mkVM 0x70 (vregCode v) (srcCode b) 0 (maskCode m) (spanCode p) ((0 : BitVec 3) ++ sizeCode z)
  | .vst v b m p z => mkVM 0x70 (vregCode v) (srcCode b) 0 (maskCode m) (spanCode p) ((2 : BitVec 3) ++ sizeCode z)
  | .vlds v b x m p z => mkVM 0x70 (vregCode v) (srcCode b) (srcCode x) (maskCode m) (spanCode p) ((4 : BitVec 3) ++ sizeCode z)
  | .vsts v b x m p z => mkVM 0x70 (vregCode v) (srcCode b) (srcCode x) (maskCode m) (spanCode p) ((6 : BitVec 3) ++ sizeCode z)
  | .vgather v b x m p z => mkVM 0x71 (vregCode v) (srcCode b) (vregCode x) (maskCode m) (spanCode p) ((0 : BitVec 3) ++ sizeCode z)
  | .vscatter v b x m p z => mkVM 0x71 (vregCode v) (srcCode b) (vregCode x) (maskCode m) (spanCode p) ((2 : BitVec 3) ++ sizeCode z)
  | .vadd d a b m t => mkV 0x72 (vregCode d) (vregCode a) (vregCode b) (maskCode m) ((0 : BitVec 4) ++ atyCode t)
  | .vsub d a b m t => mkV 0x72 (vregCode d) (vregCode a) (vregCode b) (maskCode m) ((1 : BitVec 4) ++ atyCode t)
  | .vmul d a b m t => mkV 0x72 (vregCode d) (vregCode a) (vregCode b) (maskCode m) ((2 : BitVec 4) ++ atyCode t)
  | .vfma d a b m t => mkV 0x72 (vregCode d) (vregCode a) (vregCode b) (maskCode m) ((3 : BitVec 4) ++ atyCode t)
  | .vmin d a b m t => mkV 0x72 (vregCode d) (vregCode a) (vregCode b) (maskCode m) ((4 : BitVec 4) ++ atyCode t)
  | .vmax d a b m t => mkV 0x72 (vregCode d) (vregCode a) (vregCode b) (maskCode m) ((5 : BitVec 4) ++ atyCode t)
  | .vabs d a m t => mkV 0x72 (vregCode d) (vregCode a) 0 (maskCode m) ((6 : BitVec 4) ++ atyCode t)
  | .vneg d a m t => mkV 0x72 (vregCode d) (vregCode a) 0 (maskCode m) ((7 : BitVec 4) ++ atyCode t)
  | .vand d a b m t => mkV 0x73 (vregCode d) (vregCode a) (vregCode b) (maskCode m) ((0 : BitVec 4) ++ atyCode t)
  | .vor d a b m t => mkV 0x73 (vregCode d) (vregCode a) (vregCode b) (maskCode m) ((1 : BitVec 4) ++ atyCode t)
  | .vxor d a b m t => mkV 0x73 (vregCode d) (vregCode a) (vregCode b) (maskCode m) ((2 : BitVec 4) ++ atyCode t)
  | .vshl d a b m t => mkV 0x73 (vregCode d) (vregCode a) (vregCode b) (maskCode m) ((3 : BitVec 4) ++ atyCode t)
  | .vshr d a b m t => mkV 0x73 (vregCode d) (vregCode a) (vregCode b) (maskCode m) ((4 : BitVec 4) ++ atyCode t)
  | .vsra d a b m t => mkV 0x73 (vregCode d) (vregCode a) (vregCode b) (maskCode m) ((5 : BitVec 4) ++ atyCode t)
  | .vcmp d a b m c t => mkV 0x74 (mregCode d) (vregCode a) (vregCode b) (maskCode m) ((0 : BitVec 1) ++ ccCode c ++ atyCode t)
  | .vsel d a b m t => mkV 0x74 (vregCode d) (vregCode a) (vregCode b) (maskCode m) ((8 : BitVec 4) ++ atyCode t)
  | .vredSum d a m t => mkV 0x75 (vregCode d) (vregCode a) 0 (maskCode m) ((0 : BitVec 4) ++ atyCode t)
  | .vredMin d a m t => mkV 0x75 (vregCode d) (vregCode a) 0 (maskCode m) ((1 : BitVec 4) ++ atyCode t)
  | .vredMax d a m t => mkV 0x75 (vregCode d) (vregCode a) 0 (maskCode m) ((2 : BitVec 4) ++ atyCode t)
  | .vscan d a o m t => mkV 0x75 (vregCode d) (vregCode a) (scanCode o) (maskCode m) ((3 : BitVec 4) ++ atyCode t)
  | .vperm d a b m t => mkV 0x75 (vregCode d) (vregCode a) (vregCode b) (maskCode m) ((4 : BitVec 4) ++ atyCode t)
  | .vcompress d a m t => mkV 0x75 (vregCode d) (vregCode a) 0 (maskCode m) ((5 : BitVec 4) ++ atyCode t)
  | .vbcast d a m t => mkV 0x76 (vregCode d) (srcCode a) 0 (maskCode m) ((0 : BitVec 4) ++ atyCode t)
  | .vext d a i t => mkV 0x76 (destCode d) (vregCode a) (i.extractLsb' 0 5) ((0 : BitVec 2) ++ (i.extractLsb' 5 1 : BitVec 1)) ((1 : BitVec 4) ++ atyCode t)
  | .vins d a i t => mkV 0x76 (vregCode d) (srcCode a) (i.extractLsb' 0 5) ((0 : BitVec 2) ++ (i.extractLsb' 5 1 : BitVec 1)) ((2 : BitVec 4) ++ atyCode t)
  | .vcvt d a s m t => mkV 0x77 (vregCode d) (vregCode a) (etyCode s) (maskCode m) ((0 : BitVec 2) ++ etyCode t)
  | .vdq d a s m t => mkV 0x77 (vregCode d) (vregCode a) (etyCode s) (maskCode m) ((1 : BitVec 2) ++ etyCode t)
  | .vdot d a b m t => mkV 0x77 (vregCode d) (vregCode a) (vregCode b) (maskCode m) ((2 : BitVec 2) ++ etyCode t)
  | .vcvtq d a s m t => mkV 0x78 (vregCode d) (vregCode a) (etyCode s) (maskCode m) ((0 : BitVec 2) ++ etyCode t)
  | .vcvtqH16 d a s t => mkV 0x78 (vregCode d) (vregCode a) (etyCode s) 0 ((1 : BitVec 2) ++ etyCode t)
  | .vcvtqH32 d a s t => mkV 0x78 (vregCode d) (vregCode a) (etyCode s) 0 ((2 : BitVec 2) ++ etyCode t)
  | .vhadH16 d a t => mkV 0x78 (vregCode d) (vregCode a) (etyCode t) 0 0x60
  | .vhadH32 d a t => mkV 0x78 (vregCode d) (vregCode a) (etyCode t) 0 0x70
  | .mand d a b => mkV 0x79 (mregCode d) (mregCode a) (mregCode b) 0 0
  | .mor d a b => mkV 0x79 (mregCode d) (mregCode a) (mregCode b) 0 1
  | .mnot d a => mkV 0x79 (mregCode d) (mregCode a) 0 0 2
  | .mpop d a => mkV 0x79 (destCode d) (mregCode a) 0 0 3
  | .trap a => mkS 0x7F (srcCode a) 0 0 0
  | .eret => mkS 0x7F 0 0 0 1
  | .crd r d => mkS 0x7F 0 r (destCode d) 2
  | .cwr a r => mkS 0x7F (srcCode a) r 0 3
  | .brk => mkS 0x7F 0 0 0 4
  | .tinv a b => mkS 0x7F (srcCode a) (srcCode b) 0 5
  | .rmode a b m => mkS 0x7F (srcCode a) (srcCode b) 0 (cmodeCode m ++ (6 : BitVec 8))
  | .ctxsave a => mkS 0x7F (srcCode a) 0 0 7
  | .ctxload a => mkS 0x7F (srcCode a) 0 0 8
  | .pre a => mkS 0x7F (srcCode a) 0 0 9
  | .trapEntry => 0
  | .asyncTrap => 0
  | .mcheck _ _ _ _ => 0
  | .chunkLengthLimit => 0
  | .chunkEnd => 0
  | .grantRequest _ _ => 0
  | .commitPoint => 0
  | .commitMessage _ _ => 0
  | .forwardedW _ _ => 0
  | .commitComplete => 0
  | .heldChunkStart => 0
  | .faultResponse _ _ => 0
  | .softError => 0
  | .watchWake => 0
  | .yieldResume => 0
  | .getS _ _ => 0
  | .homeDataArrival _ _ => 0
  | .writeBack _ _ _ _ => 0
  | .snoop _ _ _ _ => 0
  | .ownerMoveReport _ _ _ => 0
  | .fillArrival _ => 0
  | .extensionArrival _ => 0
  | .leaseExpiry _ _ _ => 0
  | .recallName _ _ _ _ => 0
  | .recallAnswer _ _ _ _ _ => 0
  | .pageWalk _ _ _ _ => 0
  | .tinvHome _ _ => 0
  | .rmodeDrain _ _ => 0
  | .directoryError _ _ => 0
  | .filterError _ _ => 0
  | .engineCommit => 0
  | .inboundWrite _ _ _ => 0
  | .ioCommit => 0
  | .inboundRead _ _ _ => 0
  | .atomicopFetchadd _ _ _ _ => 0
  | .atomicopSwap _ _ _ _ => 0
  | .atomicopCas _ _ _ _ _ => 0
  | .backInvalidate _ _ => 0
  | .backInvalidateAnswer _ _ _ => 0
  | .cxlCacheSnoop => 0
  | .msixSend => 0
  | .messagePortWord _ _ _ _ => 0
  | .messagePortSend _ _ _ => 0
  | .dispatch => 0
  | .gangGather _ _ => 0
  | .theft _ _ _ => 0
  | .queueMiss _ _ _ => 0
  | .queueProbe => 0
  | .ringDelivery => 0
  | .ringRetry => 0
  | .queueStall => 0
  | .mailboxDelivery _ _ _ => 0
  | .successorWalk _ _ _ _ => 0
  | .tcbDecrement _ _ _ _ _ => 0
  | .joinDecrement _ _ _ => 0
  | .groupComplete _ _ => 0
  | .dupCompare _ _ => 0
  | .taskHang => 0
  | .barrierRelease _ _ => 0
  | .preemptRequest _ _ => 0
  | .preemptComplete _ _ => 0
  | .releaseHeld _ => 0
  | .mma => 0
  | .mmaz => 0
  | .mload => 0
  | .mstore => 0
  | .mzero => 0
  | .mfence => 0
  | .commandComplete => 0
  | .accWriteback _ _ => 0
  | .pktCopy => 0
  | .pktTofifo => 0
  | .pktGather => 0
  | .pktScatter => 0
  | .pktFill => 0
  | .pktChain => 0
  | .chainHop _ _ => 0
  | .preEmptionRegister _ _ => 0
  | .asidInvalidate _ _ => 0
  | .lostEventClear _ _ => 0
  | .haltCores _ _ _ => 0
  | .haltRelease _ _ _ => 0
  | .stepCore _ _ => 0
  | .debugWindowWrite _ _ _ _ => 0
  | .controlSpaceWrite _ _ _ => 0
  | .claim _ _ => 0
  | .electionClose => 0
  | .heartbeat _ _ => 0
  | .ownerStale => 0
  | .successor _ _ _ _ => 0
  | .switchImage _ _ => 0
  | .recalibrateHome => 0
  | .retireDie => 0
  | .writeRetiredMask => 0
  | .serviceComplete => 0
  | .resetPackage _ => 0
  | .fatalErrorDump => 0
  | .powerThrottle _ _ => 0
  | .sprinnyTranslate => 0
  | .loaderStart => 0
  | .systemScopeCompletion _ _ => 0

/-- The instruction is a word; a step of the machine has none. -/
def hasWord (i : Instr) : Bool := fOp (encode i) != 0

/-- The four bytes of an instruction's word, lowest address first (R5). -/
def encodeBytes (i : Instr) : List Byte :=
  let w := encode i
  [w.extractLsb' 0 8, w.extractLsb' 8 8, w.extractLsb' 16 8, w.extractLsb' 24 8]

end Sys2Proof
end

