-- ==== Sys2Proof/Config.lean ====
section
/-! DEFINITION. What the spec leaves to an implementation or leaves open, as constants without a body (free values), and
the fixed figures of the package (R1, R2, R174). Nothing can be proved of a free value beyond its type. -/

namespace Sys2Proof

/-- A free choice: the `i`-th that step number `tick` makes (which agent acts next, which idle context takes work, which
entry a full translation cache drops: spec/14 R232, R233; spec/10 R180). -/
opaque Config.choose : (tick i : Nat) → Nat

/-- A free amount of time in cycles that a step takes (no latency is architectural; spec/06 R113 gives upper bounds). -/
opaque Config.elapse : (tick : Nat) → Nat

/-- A free word: the `i`-th that step number `tick` reads from outside the package (host and peer memory, R119, R297). -/
opaque Config.outside : (tick i : Nat) → Word

/-- R267: the firmware vector that the firmware image installs. -/
opaque Config.firmwareVector : Word

/-- R302: package power in watts, averaged over the last millisecond. -/
opaque Config.power : (tick : Nat) → Word

/-- R302: the versions of the firmware images, code 0–4 and target image. -/
opaque Config.imageVersion : (code image : Nat) → BitVec 16

/-- R344 (log entry 83): the scale byte of an MX block whose X + 127 does not fit a byte. A free value. -/
opaque Config.mxScale : (x : Nat) → BitVec 8

/-! ## Fixed figures -/

/-- R34, R240: cycles per nanosecond are 1.8; the figures below are in cycles, rounded up. -/
def Config.cycles256ns : Nat := 461
/-- 64 µs (R226). -/
def Config.cycles64us : Nat := 115200
/-- 1 µs (R293). -/
def Config.cycles1us : Nat := 1800
/-- 1 s (R305). -/
def Config.cycles1s : Nat := 1800000000
/-- 10 ms (R305). -/
def Config.cycles10ms : Nat := 18000000
/-- R125: the lease of an SW copy. -/
def Config.lease : Nat := 4096
/-- R257: the longest issue pause of yield. -/
def Config.yieldCycles : Nat := 256

/-- R2: the S-die positions. -/
def Config.sDies : List Nat := [0, 1, 3, 5, 7, 15, 16, 31, 32, 47, 48, 56, 58, 60, 62, 63]

/-- R2: position `d` carries an M-die. -/
def Config.isM (d : Nat) : Bool := d < 64 && !(Config.sDies.contains d)

/-- R1: clusters of a die. -/
def Config.clusters (d : Nat) : Nat := if Config.isM d then 48 else 40

/-- R1: scratchpad bytes of a core on die `d`. -/
def Config.scratchSize (d : Nat) : Nat := if Config.isM d then 65536 else 196608

/-- R172: cluster SRAM bytes of a cluster on die `d`. -/
def Config.clusterSize (d : Nat) : Nat := if Config.isM d then 1048576 else 2097152

/-- R174: the memory of a home. -/
def Config.homeSize : Nat := 2 ^ 37

/-- R178: the firmware areas at the top of H0, the last 1.25 GiB. -/
def Config.firmwareArea : Nat := 5 * 2 ^ 28

end Sys2Proof
end

