-- ==== Sys2Proof/Machine/Table.lean ====
section
/-! DEFINITION. A sparse table: a list of (index, value) pairs, indices strictly rising. An index that is not listed has
the unit's reset value, which the reader supplies. -/

namespace Sys2Proof.Machine

/-- A table of the units of one kind by index. -/
abbrev Tbl (α : Type) := List (Nat × α)

/-- The entry at index `i`, if it is listed. -/
def tblFind {α : Type} (t : Tbl α) (i : Nat) : Option α :=
  match t with
  | [] => none
  | (j, x) :: rest => if j = i then some x else tblFind rest i

/-- The entry at index `i`, or `d` when it is not listed. -/
def tblGet {α : Type} (t : Tbl α) (i : Nat) (d : α) : α :=
  match tblFind t i with
  | some x => x
  | none => d

/-- Put `x` at index `i`, keeping the indices rising. -/
def tblSet {α : Type} (t : Tbl α) (i : Nat) (x : α) : Tbl α :=
  match t with
  | [] => [(i, x)]
  | (j, y) :: rest =>
    if i < j then (i, x) :: (j, y) :: rest
    else if i = j then (i, x) :: rest
    else (j, y) :: tblSet rest i x

/-- Drop index `i`. -/
def tblDel {α : Type} (t : Tbl α) (i : Nat) : Tbl α :=
  t.filter (fun e => e.1 != i)

/-- Replace every listed value by a function of its index and value. -/
def tblMap {α : Type} (f : Nat → α → α) (t : Tbl α) : Tbl α :=
  t.map (fun e => (e.1, f e.1 e.2))

/-- The element at position `n` of a list. -/
def nth {α : Type} : List α → Nat → Option α
  | [], _ => none
  | x :: _, 0 => some x
  | _ :: xs, n + 1 => nth xs n

/-- The list without its element at position `n`. -/
def dropNth {α : Type} : List α → Nat → List α
  | [], _ => []
  | _ :: xs, 0 => xs
  | x :: xs, n + 1 => x :: dropNth xs n

/-- Replace the element at position `n`. -/
def setNth {α : Type} : List α → Nat → α → List α
  | [], _, _ => []
  | _ :: xs, 0, y => y :: xs
  | x :: xs, n + 1, y => x :: setNth xs n y

end Sys2Proof.Machine
end

