-- ==== Sys2Proof/Machine/Types.lean ====
section
/-! DEFINITION. The records that State is made of: what a context, a core, a cluster, a die, a home, an arbiter, the Fox,
the engines and the I/O die each hold. Plain data only; State itself and its reset value stand in State.lean. -/

namespace Sys2Proof.Machine

/-! ## A context (spec/02) -/

/-- R28–R31: the registers that a squash restores. `ring` and `head` are the result queue; q(n) is ring entry
(head − n) mod 16. m0 is stored as all ones and never written (R31). -/
structure Regs where
  ring : Vector Word 16
  head : Fin 16
  k : Vector Word 16
  v : Vector (BitVec 512) 32
  m : Vector Word 8
  pc : Word
deriving DecidableEq, Repr

/-- R34: the per-context control registers. c.self is the context's location, c.rng and c.cycle are the core's. -/
structure Ctl where
  status : Word
  asid : Word
  hdr : Word
  epc : Word
  cause : Word
  badva : Word
  tval : Word
  trapvec : Word
  tsave : Word
  chunklen : Word
  privbase : Word
  privlen : Word
  choice : Word
  choicebase : Word
  choicelim : Word
  spoor : Word
  spoorbase : Word
  spoorlim : Word
  frame : Word
  framelen : Word
  failvec : Word
  lineage : Word
  fpmode : Word
  fpflags : Word
  icount : Word
  replay : Word
deriving DecidableEq, Repr

/-- R265: what a trap writes. -/
structure TrapInfo where
  cause : Nat
  epc : Word
  badva : Word
  tval : Word
deriving DecidableEq, Repr

/-- Which memory a speculative store goes to when its chunk commits (R104, R119). -/
inductive Space where
  | hc | sw | cp | pinned | scratch | cluster | engine
deriving DecidableEq, Repr

/-- A speculative store of a live chunk (R99): the key VA (R101), the memory key of its first byte, its bytes, and
whether it stands in the L1 as words of a speculative-write block. -/
structure Store where
  space : Space
  asid : Nat
  va : Nat
  pa : Nat
  bytes : List Byte
deriving DecidableEq, Repr

/-- R106: a far entry of a commit message. -/
structure FarEntry where
  op : FarOp
  w : Bool
  va : Nat
  pa : Nat
  x : Word
  /-- the chunk's stores that came before it (R239) -/
  after : Nat
deriving DecidableEq, Repr

/-- R255: how a thread retires. -/
inductive Retire where
  | plain
  | join (va : Word)
  | tcb (va : Word)
  | status (x : BitVec 32)
deriving DecidableEq, Repr

/-- R97: an entry of the deferred-effect buffer; it leaves the core at the commit of its chunk. -/
inductive Effect where
  | far (e : FarEntry)
  /-- a store into the engine window: offset and bytes (R374) -/
  | engine (off : Nat) (bytes : List Byte)
  | mfmt (i : BitVec 15)
  | mscl (n : Fin 8) (x : BitVec 32)
  | mresume
  | accspill (tile : Nat) (va : Word)
  /-- R147: words `lo`..`hi` (byte addresses, rounded outward) of the ASID; `drop` for flush -/
  | writeBack (lo hi : Nat) (drop : Bool)
  /-- R147: an inval of `lo`..`hi` (byte addresses, rounded outward): the dirty words as they stood when it executed; the flag falls
  when one is made dirty again -/
  | discard (lo hi : Nat) (words : List (Nat × Bool))
  | fadv (h n : Nat)
  | fpub (h n : Nat)
  | tbarr (pa : Nat) (va : Word)
  | tbexp (pa : Nat) (va : Word) (n : Nat)
  | qmap (h : Nat) (desc : Word)
  | send (core : Nat) (msg : List Word)
  | enq (h : Nat) (msg : List Word)
  | sendr (h e : Nat) (msg : List Word)
  | spawn (msg : List Word)
  | launch (va : Word)
  | retire (r : Retire)
deriving DecidableEq, Repr

/-- R99: what a squash restores. -/
structure Checkpoint where
  regs : Regs
  choice : Word
  spoor : Word
  fpflags : Word
  step : Bool
deriving DecidableEq, Repr

/-- R94–R117: the live chunk of a context. -/
structure Chunk where
  /-- a chunk is live: its checkpoint stands -/
  live : Bool
  num : Nat
  /-- instructions executed so far -/
  count : Nat
  r : BitVec 1024
  w : BitVec 1024
  readHomes : BitVec 16
  writtenHomes : BitVec 16
  /-- it read or wrote a scratchpad or cluster grain (R104) -/
  sram : Bool
  /-- it read or wrote a page pinned in this die's L2 slices (R104) -/
  pinned : Bool
  /-- the cached words that its loads have read, of any page mode: ASID, VA[55:9], physical region, first and last word
  (R108, R196) -/
  reads : List (Nat × Nat × Nat × Nat × Nat)
  /-- newest first -/
  stores : List Store
  /-- oldest first -/
  effects : List Effect
  /-- records that a try.s of the chunk has written (R325) -/
  tries : List Nat
  cp : Checkpoint
  /-- conflict squashes of this chunk (R111) -/
  conflicts : Nat
  /-- soft-error squashes in a row (R116) -/
  softs : Nat
  /-- the arbiter set of the previous execution (R111) -/
  prevArbs : List Nat
  /-- this execution runs held, with these priority grants (R111) -/
  held : Bool
  grants : List Nat
  /-- R114: the execution ends after this many instructions -/
  stopAt : Option Nat
  /-- R114 step 4: the next instruction executes alone and traps at once -/
  alone : Bool
deriving DecidableEq, Repr

/-- What follows the commit of a chunk that has ended. -/
inductive After where
  /-- the next chunk begins -/
  | resume
  /-- a trap that the core found is taken (R115) -/
  | trap (t : TrapInfo)
  /-- the thread retires (R255) -/
  | retire (r : Retire)
  /-- the issue pause of yield (R257) -/
  | yield
  /-- the context waits, holding no chunk, at the instruction (R95) -/
  | wait
deriving DecidableEq, Repr

/-- Why an instruction that has not executed waits; it executes again when the unit answers. -/
inductive Stall where
  /-- a walk (R176, R180) -/
  | walk (home asid page : Nat)
  /-- a recall, a frozen region, a paused home or a commit in progress holds the region -/
  | home (h : Nat)
  /-- the die Fox's answer to a probe of a queue handle (R246) -/
  | probe (h : Nat)
  /-- a fault response is on its way (R114) -/
  | fault
  /-- an arbiter refused (R105) -/
  | arb
  /-- a system-scope access (R130) -/
  | sys (id : Nat)
  /-- a tinv or rmode runs at the homes (R284, R285) -/
  | homes (tid : Nat)
  /-- room for the footprint, or for a deferred effect that is still being delivered (R97, R98) -/
  | room
  /-- the prune check or the priority grants before the next chunk (R111, R329) -/
  | start
deriving DecidableEq, Repr

/-- What a context is doing. -/
inductive Run where
  /-- no thread -/
  | dormant
  /-- reserved for a gang (R233) -/
  | reserved (gang : Nat)
  /-- it may issue its next instruction -/
  | ready
  /-- its chunk has ended and has not committed yet (R100) -/
  | committing (a : After)
  /-- it waits, holding no chunk; `kind` is the wait kind of R274 (1–7) -/
  | waiting (kind : Nat)
  | stalled (w : Stall)
  /-- the issue pause of yield: until the given cycle, or until the other contexts listed have committed (R257) -/
  | yielded (till : Nat) (await : List Nat)
deriving DecidableEq, Repr

/-- R135: the grain a parked context watches: its key and physical address. -/
structure Watch where
  grain : Nat
deriving DecidableEq, Repr

/-- R241: the core-bound dispatch queue that a thread was taken from: its handle, its core, and its persistent regions (offset and
length). -/
structure Bound where
  handle : Nat
  core : Nat
  regions : List (Nat × Nat)
deriving DecidableEq, Repr

/-- R217, R274: the unit a thread belongs to. -/
structure UnitInfo where
  /-- 0 task, 1 crew, 2 band -/
  gangKind : Nat
  gang : Nat
  thread : Nat
  /-- launch identifier and group, when launched -/
  launch : Option (Nat × Nat)
  launchVa : Word
  bound : Option Bound
  /-- the die class that its launch or its queue names (R232) -/
  cls : Nat
  /-- the module of its handler (R24) -/
  module : Option Nat
  /-- the dispatch queue and slot of an ordered task (R238): queue handle, timestamp, slot -/
  ordered : Option (Nat × Nat × Nat)
  /-- the message that started it -/
  msg : List Word
  /-- R239: 0 ordinary or copy A of nothing, 1 copy A, 2 copy B, 3 copy C -/
  dup : Nat
  crc : BitVec 64
  /-- one more than the number of the chunk that last passed a bar, and a barb (R260) -/
  bars : Nat
  barbs : Nat
  atBar : Bool
  atBarb : Bool
  /-- the release of the thread's next bar or barb has been given (R261) -/
  barOpen : Bool
  barbOpen : Bool
  /-- budget left and the cycle it was last counted from (R240); none for no budget -/
  budget : Option Nat
  since : Nat
deriving DecidableEq, Repr

/-- Answer of a probe (R246): a trap, or the descriptor VA and its static words. -/
structure ProbeAnswer where
  handle : Nat
  bad : Option (Nat × Word)
  desc : Nat
  word0 : Word
  word1 : Word
deriving DecidableEq, Repr

/-- R267: the firmware record. -/
structure FirmwareRecord where
  pc : Word
  status : Word
  epc : Word
  cause : Word
  badva : Word
  tval : Word
  q : Vector Word 16
deriving DecidableEq, Repr

/-- An asynchronous trap that waits for a chunk boundary (R266). -/
structure Pending where
  /-- 0x19 MCHECK, 0x14 ENGINE_FAULT, 0x13 ACC_OWNED -/
  cause : Nat
  badva : Word
  tval : Word
deriving DecidableEq, Repr

structure Ctx where
  run : Run
  regs : Regs
  ctl : Ctl
  chunk : Chunk
  unit : UnitInfo
  /-- asynchronous traps, oldest first -/
  pending : List Pending
  /-- a walk's fault, waiting for the instruction that met it: page and cause (R180) -/
  walkFault : Option (Nat × Nat × Nat)
  /-- a deferred effect needed a probe; its answer (R246) -/
  probe : Option ProbeAnswer
  /-- the grain a waiting context watches (R135, R251) -/
  watch : Option Nat
  /-- a watch fired or a wait ended: the instruction continues -/
  woken : Bool
  /-- the cycle at which the present wait began, and the VA of the queue that a deq waits on (R251, R226) -/
  waitSince : Nat
  /-- the present wait of a deq has posted its QUEUE_STALL -/
  waitPosted : Bool
  waitDesc : Nat
  /-- the word being executed, for c.tval of ILLEGAL and PRIV (R61) -/
  word : BitVec 32
  firmware : Option FirmwareRecord
  /-- commits older than this have been fetched past by fence.sys (R144) -/
  fenceSeq : Nat
  /-- deferred effects of committed chunks that are still being delivered (R247) -/
  undelivered : Nat
  /-- system-scope accesses not yet complete: identifiers (R130) -/
  sysOut : List Nat
  /-- last completed ticket (R382) -/
  ticket : BitVec 16
  /-- R384: accumulator tiles tagged to the context -/
  accMask : BitVec 16
  /-- R271: a tinv or rmode that the saved thread had in progress -/
  after : Option Nat
  /-- the prune check of the last commit is still to be made: its position in package order (R329) -/
  tail : Option Nat
  /-- the thread has been resumed, and its stack is not registered again yet: 1 the next commit registers it; 2 one that comes before
  its first on this cluster is still to be passed (R325) -/
  unregistered : Nat
deriving DecidableEq, Repr

/-! ## Caches (spec/11) -/

/-- R188: a block of a set. SW and CP blocks carry their words; the words of an HC block are those of committed
memory (R120, R195). -/
structure Block where
  asid : Nat
  /-- VA[55:9] -/
  va : Nat
  /-- the region's physical number, PA[40:9] -/
  region : Nat
  start : Nat
  stop : Nat
  /-- 0 I, 1 S, 2 E, 3 O, 4 M -/
  state : Nat
  specRead : BitVec 8
  writer : Option (Fin 8)
  pinned : Bool
  off : Nat
  mode : CMode
  /-- placement of the page (R200) -/
  place : Nat
  dirty : BitVec 64
  /-- dirty words whose parity has failed (R211) -/
  bad : BitVec 64
  words : List (Nat × Word)
  /-- the earliest fill time of its parts (R208) -/
  filled : Nat
  /-- Squirrel index, first word touched, and the lowest and highest words touched while held (R193) -/
  pcIdx : Nat
  first : Nat
  lowest : Nat
  highest : Nat
deriving DecidableEq, Repr

/-- A set: its blocks, most recently used first (the age of R188 is the position). -/
abbrev CacheSet := List Block

/-! ## Engines (spec/24) -/

/-- R384: the tag of an accumulator tile. -/
structure AccTag where
  asid : Nat
  core : Nat
  ctx : Nat
  image : Word
deriving DecidableEq, Repr

/-- R400: an accspill that has committed and is not done: the tile, the context that executed it, and where the tile goes (0: nowhere). -/
structure AccSpill where
  tile : Nat
  asid : Nat
  core : Nat
  ctx : Nat
  va : Word
deriving DecidableEq, Repr

/-- R375: an accepted command with what it captured. -/
structure Cmd where
  num : Nat
  words : List Word
  fmt : BitVec 15
  scales : Vector (BitVec 32) 8
  tag : AccTag
  refused : Bool
  /-- steps completed; kept in word 5 when stopped (R381) -/
  done : Nat
  begun : Bool
  /-- it has been issued, before a pre-emption too (R402) -/
  opened : Bool
  /-- package-wide acceptance order (R380) -/
  seq : Nat
  /-- engine commits of the command that are not complete (R382) -/
  commits : Nat
deriving DecidableEq, Repr

/-- R390: a copy packet that an engine holds. -/
structure Packet where
  pid : Nat
  /-- which of the home's two engines holds it -/
  engine : Nat
  home : Nat
  asid : Nat
  /-- the slot VA, for events (R395) -/
  slot : Word
  words : List Word
  /-- parameter block, or chain table, once read -/
  table : List Word
  /-- bytes of the source once read, for CHAIN -/
  data : List Byte
  row : Nat
  commits : Nat
  finished : Bool
deriving DecidableEq, Repr

/-- R385, R381: why a queue is stopped. -/
inductive QueueStop where
  | running | preempted | owned
deriving DecidableEq, Repr

/-! ## Cores, clusters, dies, homes -/

/-- A message held with the ASID its activation runs under. -/
structure Held where
  asid : Nat
  msg : List Word
deriving DecidableEq, Repr

/-- R277: whether a step command lets one chunk of the core run: of any context, until one has begun, and then of that one. -/
inductive Stepping where
  | off
  | any
  | only (l : Nat)
deriving DecidableEq, Repr

structure CoreSt where
  rng : Word
  sets : Tbl CacheSet
  /-- R193: start and end relative to the first word touched -/
  squirrel : Tbl (Int × Int)
  mailbox : List Held
  /-- the messages of the overflow ring, oldest first: the slot of the memory that holds the words (R292), and the ASID -/
  overflow : List (Nat × Nat)
  /-- top first -/
  deque : List Held
  /-- the entries of the deque overflow area, top first: slot and ASID -/
  dequeOver : List (Nat × Nat)
  /-- pushes that found the deque and its overflow area full, with the context whose entry they hold (R231) -/
  spawnWait : List (Option Nat × Held)
  /-- tiles whose owner is E (R127) -/
  tilesE : List Nat
  /-- tiles bound to a barrier: tile, barrier address (R389) -/
  bindings : List (Nat × Nat)
  /-- the module whose .scratch image the core last received (R24) -/
  scratchOf : Option Nat
  fmt : BitVec 15
  scales : Vector (BitVec 32) 8
  cmds : List Cmd
  stop : QueueStop
  halted : Bool
  /-- a step command lets one chunk run (R277) -/
  stepping : Stepping
deriving DecidableEq, Repr

structure ClusterSt where
  tags : Vector (Option AccTag) 16
  /-- accspills in their order (R400) -/
  spills : List AccSpill
  executing : Option Nat
  clusterOf : Option Nat
  /-- sectors by address: 8-bit core mask (R202) -/
  filter : Tbl (BitVec 8)
deriving DecidableEq, Repr

/-- R225: a resident queue head. -/
structure Head where
  asid : Nat
  handle : Nat
  desc : Nat
  words : List Word
  /-- entries may stand undispatched -/
  hint : Bool
  used : Nat
  /-- since when the Fox waits for the stamp of the slot at the read index (R226) -/
  waiting : Option Nat
deriving DecidableEq, Repr

structure DieSt where
  l2 : Tbl CacheSet
  /-- regions: 48-bit cluster mask (R202) -/
  filter : Tbl (BitVec 48)
  heads : List Head
  /-- dispatches since the last background dispatch (R232) -/
  sinceB : Nat
  /-- round-robin position among the resident queues (R232) -/
  robin : Nat
  /-- 100 MHz steps by which the arithmetic clock is lowered (R309) -/
  throttle : Nat
deriving DecidableEq, Repr

/-- R180: a cached leaf translation. `bits` is the leaf size (16, 25 or 34), `vpn` the VA[50:0] above it. -/
structure Tlb where
  asid : Nat
  bits : Nat
  vpn : Nat
  pte : Word
  /-- memory key of the leaf entry -/
  entry : Nat
deriving DecidableEq, Repr

/-- R182: a remap-filter entry. -/
structure Remap where
  region : Nat
  names : List (Nat × Nat)
  readOnly : Bool
deriving DecidableEq, Repr

/-- R203: a directory entry, and what a transient state awaits. -/
structure DirEntry where
  dies : BitVec 64
  state : Nat
  lost : Bool
  mode : Nat
  owner : Nat
  /-- answers still awaited, and the stable state and owner that follow -/
  await : Nat
  next : Nat
  nextOwner : Nat
  /-- the old owner has answered gone, and its write-back is awaited (R206) -/
  gone : Bool
  /-- the fill that the transition serves -/
  fill : Option FillReq
deriving DecidableEq, Repr

structure HomeSt where
  tlb : List Tlb
  /-- most recently used first -/
  remap : List Remap
  dir : Tbl DirEntry
  /-- recalls in flight: region and answers awaited (R182) -/
  recalls : List (Nat × Nat)
  /-- owners of directly mapped CP pages: physical page, core, and the ASID and page they were reached by (R126) -/
  cpOwner : List (Nat × Nat × Nat × Nat)
  /-- owners of the regions that an rmode has made CP (R207) -/
  cpRegion : Tbl Nat
  /-- pinning dies: physical page, die, and the ASID and page they were reached by (R200) -/
  pinDie : List (Nat × Nat × Nat × Nat)
  /-- contexts whose access to a region waits at the home, in arrival order: region and context (R204, R207, R209) -/
  waiting : List (Nat × Nat)
  /-- paused for recalibration (R306) -/
  paused : Bool
  /-- ranges that an rmode is draining: tid (R207) -/
  draining : List Nat
  /-- copy packets that the engines hold, oldest first (R390), and the engine that takes the next slot -/
  packets : List Packet
  nextEngine : Nat
  /-- cached parameter blocks, most recently used first: engine, VA and generation, words (R393) -/
  params : List (Nat × Word × List Word)
deriving DecidableEq, Repr

/-- R117: a record that an arbiter will append to a replay ring: the commit it waits for, while it is not complete. -/
structure ReplayRec where
  waitsFor : Option Nat
  asid : Nat
  loc : Nat
  num : Nat
  count : Nat
deriving DecidableEq, Repr

/-- R105: an arbiter. -/
structure ArbSt where
  inProg : List Nat
  waiting : List Nat
  /-- the context that holds the priority grant (R111), and those that ask for one -/
  priority : Option Nat
  asking : List Nat
  /-- ASIDs whose full replay ring has been reported, and those for which recording is disabled (R118) -/
  stalled : List Nat
  disabled : List Nat
  /-- records not appended yet, in grant order (R117) -/
  records : List ReplayRec
deriving DecidableEq, Repr

/-- What a commit in progress is. -/
inductive CommitKind where
  | chunk | engine | io
deriving DecidableEq, Repr

/-- A commit that has asked for a grant and is not complete (R105). -/
structure Commit where
  kind : CommitKind
  loc : Nat
  asid : Nat
  num : Nat
  count : Nat
  r : BitVec 1024
  w : BitVec 1024
  held : Bool
  replay : Bool
  /-- arbiters still to ask, in order, and those that granted -/
  ask : List Nat
  granted : List Nat
  /-- oldest first -/
  stores : List Store
  far : List FarEntry
  /-- the commit messages by home, as R106 lays them out, once the commit point has passed -/
  msgs : List (Nat × List Word)
  /-- regions whose copy the committer's core lost to another commit's W since the grant (R205) -/
  dropped : List Nat
  /-- R205: the blocks of those regions that the core has lost -/
  lost : List Block
  /-- R211: words of the commit's units whose parity has failed: they are poisoned when their home applies them -/
  bad : List Nat
  /-- homes whose commit message has not been applied; cores whose answer to W is awaited -/
  homes : List Nat
  fwd : List Nat
  /-- host lines whose back-invalidate is unanswered (R296) -/
  lines : List Nat
  /-- the commit point has passed, and its position in package order (R109) -/
  point : Bool
  seq : Nat
  /-- an engine commit's core (command) or packet, and the barrier that counts its sectors -/
  core : Option Nat
  pid : Option Nat
  barrier : Option Nat
  sectors : Nat
  /-- the requester of an I/O commit -/
  req : Nat
deriving DecidableEq, Repr

/-! ## The Fox (spec/14) -/

/-- A hardware delivery to a ring (R226, R227). -/
structure Delivery where
  /-- the context whose deferred-effect entry it holds -/
  loc : Option Nat
  /-- whose deliveries it keeps its order with (R227, R294): a context, or a requester -/
  src : Option Nat
  /-- the die from which it refers; none where the package Fox chooses (R225) -/
  die : Option Nat
  asid : Nat
  handle : Nat
  /-- the queue's descriptor and its static words, once a slot is claimed (R262) -/
  desc : Nat
  words : List Word
  msg : List Word
  /-- the route queue's handle when a sendr has not yet read its route entry, and the expert -/
  route : Option (Nat × Nat)
  /-- the descriptor and the handle of the route queue, once its entry is read (R250) -/
  via : Option (Nat × Nat)
  /-- the slot claimed, once step 1 is done -/
  slot : Option Nat
  since : Nat
  stallPosted : Bool
  /-- a message-port message: its faults are posted as events -/
  port : Bool
  /-- the record is an event-ring record (R221) -/
  event : Bool
deriving DecidableEq, Repr

/-- A group of a launch that has been dispatched. -/
structure GroupSt where
  g : Nat
  /-- threads that have been started and have not retired -/
  live : Nat
  /-- executions wanted: 1; 2 or 3 for DUP (R239); 0 when the group never completes (R240) -/
  want : Nat
  done : Bool
  retried : Bool
  /-- DUP: CRCs of the copies that have retired (R239) -/
  crcs : List (Nat × BitVec 64)
  /-- the die of each execution, in dispatch order -/
  dies : List Nat
  /-- dies that a retry keeps away from (R240) -/
  avoid : List Nat
  /-- where the thread ran that retired last (R225) -/
  lastLoc : Nat
deriving DecidableEq, Repr

/-- R235, R236: an accepted launch. -/
structure Launch where
  lid : Nat
  asid : Nat
  va : Word
  words : List Word
  groups : List GroupSt
  complete : Nat
deriving DecidableEq, Repr

/-- R218: a gang that has started or is being gathered. -/
structure Gang where
  id : Nat
  kind : Nat
  threads : Nat
  /-- contexts are being gathered for it: the clusters, by crew (R233) -/
  gather : Option (List (Nat × Nat))
  /-- members that have retired: thread indices -/
  retired : List Nat
  launch : Nat × Nat
deriving DecidableEq, Repr

/-- R273, R274: a saved thread. -/
structure Saved where
  area : Nat
  /-- where its private slot begins -/
  slotLo : Nat
  asid : Nat
  cls : Nat
  origin : Nat
  unit : UnitInfo
  accMask : BitVec 16
  ticket : BitVec 16
  pending : List Pending
  after : Option Nat
  /-- the prune check of its last commit is still to be made (R329) -/
  tail : Option Nat
  firmware : Option FirmwareRecord
  lineage : Word
  /-- bytes in the spill area: VA, scratchpad offset and length (R275) -/
  spill : List (Nat × Nat × Nat)
deriving DecidableEq, Repr

/-- R325: a registered choice record. -/
structure Choice where
  loc : Nat
  recVa : Nat
  frame : Word
  framelen : Word
  spoor : Word
  seq : Nat
deriving DecidableEq, Repr

/-- R238: an entry of an ordered domain. -/
structure OTask where
  stamp : Nat
  slot : Nat
  msg : List Word
  /-- it has been dispatched -/
  sent : Bool
  /-- a chunk of it has committed -/
  begun : Bool
deriving DecidableEq, Repr

/-- R238: an ordered domain: entries taken from the ring that have not retired. -/
structure Domain where
  asid : Nat
  handle : Nat
  tasks : List OTask
deriving DecidableEq, Repr

/-- R270: a pre-emption that is not complete. -/
structure PreemptSt where
  desc : Word
  /-- contexts still to save -/
  left : List Nat
  asids : List Nat
deriving DecidableEq, Repr

structure FoxSt where
  deliveries : Tbl Delivery
  launches : List Launch
  gangs : List Gang
  resume : List Saved
  heldItems : List Saved
  choices : List Choice
  /-- private slots taken: ASID, slot, and its base (R37) -/
  slots : List (Nat × Nat × Nat)
  /-- R328: slots of retired victims that a thief's lineage still names: ASID, and the slot's bytes -/
  heldSlots : List (Nat × Nat × Nat)
  /-- ASIDs whose template refusal has been posted (R37) -/
  refused : List Nat
  domains : List Domain
  /-- queues that a core has run an activation of: ASID, and what R241 says of them -/
  bound : List (Nat × Bound)
  /-- round-robin position among the queues of other dies (R232) -/
  robin : Nat
  /-- successor walks: list VA and count, read once (R229) -/
  walks : Tbl (Nat × Nat)
  preempts : Tbl PreemptSt
  nextLaunch : Nat
  nextGang : Nat
  nextDelivery : Nat
deriving DecidableEq, Repr

/-! ## The I/O die, the platform and the loader (spec/03, 17, 18) -/

/-- R294: a staging buffer: ASID, requester, words 1–7. -/
structure Staging where
  asid : Nat
  req : Nat
  words : List (Nat × Word)
deriving DecidableEq, Repr

/-- R132: an inbound write waiting for its I/O commit. -/
structure Inbound where
  id : Nat
  req : Nat
  ro : Bool
  cells : List (Nat × Byte)
  /-- its commit has been asked for -/
  asked : Bool
deriving DecidableEq, Repr

/-- What leaves the package. -/
inductive Out where
  | msix (vector : Nat)
  | write (addr : Nat) (bytes : List Byte)
  | read (req : Nat) (bytes : List Byte)
  | unsupported (req : Nat)
  | atomic (req : Nat) (old : Word)
  | backInvalidate (line : Nat)
  | snoopAnswer (line : Nat) (cells : List (Nat × Byte))
deriving DecidableEq, Repr

/-- R305: the ownership registers. -/
structure Ownership where
  held : Bool
  stale : Bool
  owner : Nat
  nonce : BitVec 32
  /-- cycle at which the owner becomes stale -/
  staleAt : Nat
  /-- the open election window: claims in arrival order -/
  window : Option Nat
  claims : List (Nat × BitVec 32)
deriving DecidableEq, Repr

/-- R303: a package configuration. -/
structure Flash where
  /-- the per-die trims -/
  trims : List Word
  dark : Nat
  retired : BitVec 64
  /-- requester of each master id -/
  masters : List (Nat × Nat)
deriving DecidableEq, Repr

/-- R303: a copy in the module's flash, and whether its signature verifies. -/
structure FlashCopy where
  verifies : Bool
  data : Flash
deriving DecidableEq, Repr

/-- R295: an HDM decoder: package physical base and size, and the requester of the host to which it is bound. -/
structure Hdm where
  base : Nat
  size : Nat
  host : Nat
deriving DecidableEq, Repr

structure IoSt where
  /-- control-space words that hold non-zero values, by BAR0 offset -/
  bar0 : Tbl Word
  inbound : List Inbound
  staging : List Staging
  /-- 64-byte lines of HDM that hosts hold (R296): line, requester -/
  hostLines : List (Nat × Nat)
  /-- bytes of host memory in the I/O-die cache, of the line last used first (R295): system address and byte -/
  cxlCells : List (Nat × Byte)
  /-- R288, R289, R295: what the hosts have configured: log2 of the BAR2 size of each port's physical function, the enabled virtual
  functions, and the HDM decoders -/
  bar2 : Vector Nat 4
  vfs : List Nat
  hdm : List Hdm
  ownership : Ownership
  /-- the servicing operation that runs: operation and operand (R306) -/
  service : Option (Nat × Nat)
  /-- the configuration that was loaded at reset, whether one verified, and the two copies in flash (R303) -/
  flash : Flash
  verified : Bool
  copyA : FlashCopy
  copyB : FlashCopy
  /-- retired in this power-on (R307) -/
  retired : BitVec 64
  /-- cycle at which each package vector last sent (R293) -/
  lastSent : Tbl Nat
  /-- R277: writes through the debug window that wait for a release: context, offset and word -/
  window : List (Nat × Nat × Word)
  /-- R302: the firmware images whose copy B is active (translator, Fox, Badgers, homes, I/O die: 0 to 4) -/
  activeB : List Nat
  /-- vectors with records to announce -/
  pendingMsix : List Nat
  out : List Out
  nextInbound : Nat
  /-- the fatal-error stop (R308) -/
  stopped : Bool
deriving DecidableEq, Repr

/-- R130: a system-scope access that is not complete. -/
structure SysOp where
  loc : Nat
  /-- the ASID and VA under which it was translated (R184) -/
  asid : Nat
  va : Nat
  addr : Nat
  n : Nat
  io : Bool
  write : Bool
  bytes : List Byte
  answer : Option Word
deriving DecidableEq, Repr

/-- R184: a tinv that is not complete. -/
structure TinvSt where
  loc : Option Nat
  asid : Nat
  lo : Nat
  hi : Nat
  homes : List Nat
deriving DecidableEq, Repr

/-- R207: an rmode that is not complete. -/
structure RmodeSt where
  loc : Nat
  core : Nat
  asid : Nat
  lo : Nat
  hi : Nat
  mode : CMode
  homes : List Nat
deriving DecidableEq, Repr

/-- R64: an entry of a module's section table: the name as an offset in the string table, and where the section's bytes stand in the
file. -/
structure Section where
  name : Nat
  kind : Nat
  start : Nat
  size : Nat
deriving DecidableEq, Repr

/-- R11: a named placement, and the numbers of the sections that follow it. -/
structure Region where
  home : Nat
  mode : Nat
  place : Nat
  base : Nat
  sects : List Nat
deriving DecidableEq, Repr

/-- R9, R23: what a symbol of a module stands for: a label of one of its sections, or a value (a constant, or a name of another
module). -/
inductive Symbol where
  | label (sect off : Nat)
  | value (x : Word)
deriving DecidableEq, Repr

/-- R63–R67, R21: a Sprinny module as a host registered it: its file, and the objects of its symbol table and of its .sprinny.obj
section, whose layouts the spec does not give (log 27). -/
structure Module where
  mid : Nat
  asid : Nat
  file : List Byte
  regions : List Region
  symbols : List Symbol
  /-- handler index and entry; queue handle and descriptor; launch descriptors -/
  handlers : List (Nat × Symbol)
  queues : List (Nat × Symbol)
  launches : List Symbol
  /-- .tile declarations: first tile and count -/
  tiles : List (Nat × Nat)
  /-- .fifo declarations: handle, base, slot size and count -/
  fifos : List (Nat × Nat × Nat × Nat)
  /-- R68: the older translator version that this load names -/
  version : Option (BitVec 16)
  refused : Bool
  loaded : Bool
deriving DecidableEq, Repr

/-- R68: an image of the translation cache: the digest of the portable module, the version of the translator, and the native file. -/
structure Image where
  digest : Nat
  version : BitVec 16
  file : List Byte
deriving DecidableEq, Repr

end Sys2Proof.Machine
end

