-- ==== Sys2Proof/Machine/Reset.lean ====
section
/-! DEFINITION. What each unit holds right after reset (R31, R33, R34, R302, R303, R402). Where the spec gives a register
no reset value the value is zero, or the one the assumption log names. -/

namespace Sys2Proof.Machine

/-- R31: m0 reads as all ones. DESIGN CHOICE (log 5): every other register of a context is zero at reset. -/
def initRegs : Regs :=
  { ring := Vector.replicate 16 0, head := 0, k := Vector.replicate 16 0, v := Vector.replicate 32 0,
    m := (Vector.replicate 8 0).set 0 (BitVec.allOnes 64), pc := 0 }

/-- R33: a context is at firmware level after reset. DESIGN CHOICE (log 5): every other control register is zero, but
c.chunklen, which no write can put below 256 (R34), is 256. -/
def initCtl : Ctl :=
  { status := 2, asid := 0, hdr := 0, epc := 0, cause := 0, badva := 0, tval := 0, trapvec := 0, tsave := 0,
    chunklen := 256, privbase := 0, privlen := 0, choice := 0, choicebase := 0, choicelim := 0, spoor := 0,
    spoorbase := 0, spoorlim := 0, frame := 0, framelen := 0, failvec := 0, lineage := 0, fpmode := 0, fpflags := 0,
    icount := 0, replay := 0 }

def initCheckpoint : Checkpoint := { regs := initRegs, choice := 0, spoor := 0, fpflags := 0, step := false }

def initChunk : Chunk :=
  { live := false, num := 0, count := 0, r := 0, w := 0, readHomes := 0, writtenHomes := 0, sram := false,
    pinned := false, reads := [], stores := [], effects := [], tries := [], cp := initCheckpoint, conflicts := 0, softs := 0, prevArbs := [],
    held := false, grants := [], stopAt := none, alone := false }

def initUnit : UnitInfo :=
  { gangKind := 0, gang := 0, thread := 0, launch := none, launchVa := 0, bound := none, cls := 0, module := none, ordered := none,
    msg := [], dup := 0, crc := 0, bars := 0, barbs := 0, atBar := false, atBarb := false,
    barOpen := false, barbOpen := false, budget := none, since := 0 }

/-- A context right after reset: dormant (R217). -/
def initCtx : Ctx :=
  { run := .dormant, regs := initRegs, ctl := initCtl, chunk := initChunk, unit := initUnit, pending := [],
    walkFault := none, probe := none, watch := none, woken := false, waitSince := 0, waitPosted := false, waitDesc := 0, word := 0, firmware := none,
    fenceSeq := 0, undelivered := 0, sysOut := [], ticket := 0, accMask := 0, after := none, tail := none, unregistered := 0 }

/-- R34: the c.rng of the core at location L = c.self[17:3]. -/
def initRng (core : Nat) : Word := 0x6A09E667F3BCC908 ^^^ BitVec.ofNat 64 core

/-- R402: every tile is T. DESIGN CHOICE (log 6): the scale registers and the format context are zero at reset. -/
def initCore (core : Nat) : CoreSt :=
  { rng := initRng core, sets := [], squirrel := [], mailbox := [], overflow := [], deque := [], dequeOver := [], spawnWait := [],
    tilesE := [], bindings := [], scratchOf := none, fmt := 0, scales := Vector.replicate 8 0, cmds := [],
    stop := .running, halted := false, stepping := .off }

/-- R402: every accumulator tile is free. -/
def initCluster : ClusterSt :=
  { tags := Vector.replicate 16 none, spills := [], executing := none, clusterOf := none, filter := [] }

def initDie : DieSt := { l2 := [], filter := [], heads := [], sinceB := 0, robin := 0, throttle := 0 }

def initHome : HomeSt :=
  { tlb := [], remap := [], dir := [], recalls := [], cpOwner := [], cpRegion := [], pinDie := [], waiting := [], paused := false, draining := [],
    packets := [], nextEngine := 0, params := [] }

def initDir : DirEntry :=
  { dies := 0, state := 0, lost := false, mode := 0, owner := 0, await := 0, next := 0, nextOwner := 0, gone := false, fill := none }

def initArb : ArbSt := { inProg := [], waiting := [], priority := none, asking := [], stalled := [], disabled := [], records := [] }

def initFox : FoxSt :=
  { deliveries := [], launches := [], gangs := [], resume := [], heldItems := [], choices := [], slots := [], heldSlots := [],
    refused := [], domains := [], bound := [], robin := 0, walks := [], preempts := [], nextLaunch := 0, nextGang := 0, nextDelivery := 0 }

/-- R305: no owner is held after reset. -/
def initOwnership : Ownership :=
  { held := false, stale := false, owner := 0, nonce := 0, staleAt := 0, window := none, claims := [] }

/-- DESIGN CHOICE (log 7): both copies in flash verify and hold one configuration: the dark position is 7 (the example of R302), no die
is retired, no host function is a master, and there is no trim. -/
def initFlash : FlashCopy := { verifies := true, data := { trims := [], dark := 7, retired := 0, masters := [] } }

/-- R303: the I/O die loads the first copy that verifies; with none the configuration is empty. -/
def loadedFlash (a b : FlashCopy) : Flash :=
  if a.verifies then a.data else if b.verifies then b.data else { trims := [], dark := 0, retired := 0, masters := [] }

/-- R302: which positions execute work; without a configuration none does (R303). -/
def liveMask (verified : Bool) (f : Flash) (retired : BitVec 64) : BitVec 64 :=
  if verified then BitVec.allOnes 64 &&& ~~~((1 : BitVec 64) <<< f.dark) &&& ~~~f.retired &&& ~~~retired else 0

/-- R302: the class mask. -/
def classMask : BitVec 64 :=
  (List.range 64).foldl (fun acc d => if Config.isM d then acc ||| ((1 : BitVec 64) <<< d) else acc) 0

/-- The number of set bits among those of `m`. -/
def countBits (m : BitVec 64) : Nat := ((List.range 64).filter (fun i => m.getLsbD i)).length

/-- R302: the census words that are not zero, by BAR0 offset. A failed configuration starts no compute die (R303). -/
def censusWords (verified : Bool) (f : Flash) (retired : BitVec 64) : Tbl Word :=
  let live := liveMask verified f retired
  let liveM := countBits (live &&& classMask)
  let liveS := countBits (live &&& ~~~classMask)
  let failed : Word := if verified then 0 else (1 : Word) <<< 63
  let w0 : Word := failed ||| ((1 : Word) <<< 24)
    ||| (BitVec.ofNat 64 liveS <<< 16) ||| (BitVec.ofNat 64 liveM <<< 8) ||| BitVec.ofNat 64 f.dark
  let head : Tbl Word := [(0x000, w0), (0x008, classMask), (0x010, live)]
  let ret : BitVec 64 := f.retired ||| retired
  let mid : Tbl Word := if ret = 0 then [] else [(0x018, ret)]
  head ++ mid ++ (List.range 16).map (fun h => (0x020 + 8 * h, BitVec.ofNat 64 Config.homeSize))

/-- PRESUMED of PCI Express and CXL (log 71): at reset BAR2 has its smallest size, no virtual function is enabled, and no HDM decoder is
set. -/
def initIo (a b : FlashCopy) : IoSt :=
  let v := a.verifies || b.verifies
  { bar0 := censusWords v (loadedFlash a b) 0, inbound := [], staging := [], hostLines := [], cxlCells := [],
    bar2 := Vector.replicate 4 30, vfs := [], hdm := [], ownership := initOwnership, service := none, flash := loadedFlash a b, verified := v,
    copyA := a, copyB := b, retired := 0, lastSent := [], window := [], activeB := [], pendingMsix := [], out := [], nextInbound := 0,
    stopped := false }

end Sys2Proof.Machine
end

