-- ==== Sys2Proof/Machine/State.lean ====
section
/-! DEFINITION. The state of the package and its value right after reset. -/

namespace Sys2Proof.Machine

/-- Everything the spec gives the machine. `mem` is committed memory, one canonical list of bytes over the address spaces
of Ops.lean (HBM, scratchpads, cluster SRAM, engine windows, FIFO descriptors, accumulators); speculative bytes stand in
the live chunks. `agenda` holds the steps that are on their way (messages, grants, events, requests of the outside), each
with the cycle from which it may happen and the unit that takes it. `tick` numbers the steps, for the free values (the model's own field). `cur` is
the unit that takes the present step: for a word, the context that executes it (the model's own field). -/
structure State where
  now : Nat
  tick : Nat
  /-- commits that have reached their commit point so far: positions in package order (R120) -/
  order : Nat
  cur : Nat
  mem : List Host.Cell
  /-- poisoned words, by the key of their first byte (R211) -/
  poison : List Nat
  /-- R144: words of global memory as they stood before a committed store, with the position in package order at which the
  store's commit was complete, and the commit while it is not complete -/
  codeLog : List (Nat × Word × Nat × Option Nat)
  ctxs : Tbl Ctx
  cores : Tbl CoreSt
  clusters : Tbl ClusterSt
  dies : Tbl DieSt
  homes : Tbl HomeSt
  arbs : Tbl ArbSt
  commits : Tbl Commit
  nextCommit : Nat
  fox : FoxSt
  io : IoSt
  sysOps : Tbl SysOp
  tinvs : Tbl TinvSt
  rmodes : Tbl RmodeSt
  nextOp : Nat
  modules : List Module
  /-- R68: the translation cache: digest, translator version and bytes, most recently loaded first -/
  images : List Image
  agenda : List (Nat × Nat × Instr)
deriving DecidableEq, Repr

/-- Why the machine stops. The spec stops it nowhere: conditions of the program are traps and events (R265). -/
inductive Fault where
  /-- raised by `step` when the agenda holds a step that names a unit no package has (an ill-formed term of `Instr`). Safe:
  the hardware has no such step. -/
  | noSuchUnit
deriving DecidableEq, Repr

/-- Why the model gives no meaning. -/
inductive Refusal where
  /-- raised by an arm of `exec` that has no meaning yet; names the instruction. Safe. -/
  | notModelled (mnemonic : String)
deriving DecidableEq, Repr

/-- R34, R302, R303, R402: the package right after reset. DESIGN CHOICE (log 88): every cache is empty, the L1s, the L2 slices and the
translator's cache of images among them. -/
def State.reset : State :=
  { now := 0, tick := 0, order := 0, cur := 0, mem := [], poison := [], codeLog := [], ctxs := [], cores := [],
    clusters := [], dies := [], homes := [], arbs := [], commits := [], nextCommit := 0, fox := initFox,
    io := initIo initFlash initFlash, sysOps := [], tinvs := [], rmodes := [], nextOp := 0, modules := [], images := [],
    agenda := [] }

end Sys2Proof.Machine
end

