-- ==== Sys2Proof/Machine/Memory.lean ====
section
/-! DEFINITION. Committed memory: one list of (address, byte) pairs in canonical form, over all address spaces of the
package, and the addresses (keys) of each space. R5: little-endian. -/

namespace Sys2Proof.Machine

/-! ## The address spaces -/

/-- HBM by package physical address (R176): 41 bits, [40:37] home. -/
def keyHbm (pa : Nat) : Nat := pa
/-- The scratchpad of the core at c.self[17:3] (R172). -/
def keyScratch (core off : Nat) : Nat := 2 ^ 56 + core * 2 ^ 18 + off
/-- The SRAM of the cluster at c.self[17:6] (R172). -/
def keyCluster (cl off : Nat) : Nat := 2 * 2 ^ 56 + cl * 2 ^ 21 + off
/-- The engine window of a core, offsets 0x000–0x41F (R373). -/
def keyEngine (core off : Nat) : Nat := 4 * 2 ^ 56 + core * 2 ^ 12 + off
/-- The FIFO descriptors of a cluster: offset 32h + o (R373, R387). -/
def keyFifo (cl off : Nat) : Nat := 5 * 2 ^ 56 + cl * 2 ^ 10 + off
/-- Accumulator tile `t` of a cluster's matrix unit, 16 KiB each (R384). -/
def keyAcc (cl t off : Nat) : Nat := 6 * 2 ^ 56 + cl * 2 ^ 18 + t * 2 ^ 14 + off

/-- The key names device memory (the one space that homes translate). -/
def isHbm (key : Nat) : Bool := key < 2 ^ 41

/-! ## Cells -/

/-- What an address that is not listed reads as. R402: scratchpad, cluster SRAM, engine words and accumulators are zero at
reset. DESIGN CHOICE (log 4): HBM too. -/
def unlisted : Byte := 0

/-- One byte of memory. -/
def memGet : List Host.Cell → Nat → Byte
  | [], _ => unlisted
  | (j, b) :: rest, a => if j = a then b else memGet rest a

/-- Put one byte, keeping the form: addresses rising, no entry that an unlisted address reads as. -/
def memPut : List Host.Cell → Nat → Byte → List Host.Cell
  | [], a, b => if b = unlisted then [] else [(a, b)]
  | (j, x) :: rest, a, b =>
    if a < j then (if b = unlisted then (j, x) :: rest else (a, b) :: (j, x) :: rest)
    else if a = j then (if b = unlisted then rest else (a, b) :: rest)
    else (j, x) :: memPut rest a b

/-- Put bytes at rising addresses from `a`. -/
def memPutAll : List Host.Cell → Nat → List Byte → List Host.Cell
  | m, _, [] => m
  | m, a, b :: bs => memPutAll (memPut m a b) (a + 1) bs

/-- `n` bytes from address `a`. -/
def memBytes (m : List Host.Cell) (a : Nat) : Nat → List Byte
  | 0 => []
  | n + 1 => memGet m a :: memBytes m (a + 1) n

/-- Every entry's address is above `lo` and rising, and no entry reads as an unlisted address does. -/
def memWfFrom : Option Nat → List Host.Cell → Bool
  | _, [] => true
  | lo, (a, b) :: rest =>
    (match lo with
     | none => true
     | some l => decide (l < a)) && b != unlisted && memWfFrom (some a) rest

/-- The canonical form of memory. -/
def Memory.wf (m : List Host.Cell) : Bool := memWfFrom none m

/-! ## Words -/

/-- R5: the number whose little-endian bytes are given. -/
def leNat : List Byte → Nat
  | [] => 0
  | b :: bs => b.toNat + 256 * leNat bs

/-- R5: the low `n` bytes of a number, little-endian. -/
def natBytes : Nat → Nat → List Byte
  | 0, _ => []
  | n + 1, x => BitVec.ofNat 8 x :: natBytes n (x / 256)

/-- The word at an address. -/
def memWord (m : List Host.Cell) (a : Nat) : Word := BitVec.ofNat 64 (leNat (memBytes m a 8))

def wordBytes (x : Word) : List Byte := natBytes 8 x.toNat

/-- A bit field [hi:lo] of a word as a number. -/
def fld (x : Word) (hi lo : Nat) : Nat := x.toNat / 2 ^ lo % 2 ^ (hi + 1 - lo)

/-- A bit of a word. -/
def bit (x : Word) (i : Nat) : Bool := x.getLsbD i

/-- R62: extend the low `n` bits with their sign. -/
def signExt (x : Word) (n : Nat) : Word :=
  if n ≥ 64 then x
  else
    let v := x.toNat % 2 ^ n
    if v ≥ 2 ^ (n - 1) then BitVec.ofNat 64 (v + (2 ^ 64 - 2 ^ n)) else BitVec.ofNat 64 v

/-- R62: extend the low `n` bits with zeros. -/
def zeroExt (x : Word) (n : Nat) : Word := BitVec.ofNat 64 (x.toNat % 2 ^ n)

/-- R46: bytes of a size. -/
def sizeN : Size → Nat
  | .b => 1 | .h => 2 | .w => 4 | .d => 8

/-- The first `n` elements, `d` where the list is shorter. -/
def takePad {α : Type} (d : α) : Nat → List α → List α
  | 0, _ => []
  | n + 1, [] => d :: takePad d n []
  | n + 1, x :: xs => x :: takePad d n xs

/-- Cut a list into runs of `n` (`fuel` runs at most). -/
def runs {α : Type} (n : Nat) : Nat → List α → List (List α)
  | 0, _ => []
  | fuel + 1, l => if l.isEmpty then [] else l.take n :: runs n fuel (l.drop n)

/-- The words of a record held as bytes. -/
def wordsOf (bs : List Byte) : List Word :=
  (runs 8 (bs.length / 8) bs).map (fun b => BitVec.ofNat 64 (leNat b))

/-- Word `i` of a record, zero beyond its end. -/
def wordAt (ws : List Word) (i : Nat) : Word :=
  match nth ws i with
  | some x => x
  | none => 0

/-- Remove repeats from a list of numbers, keeping the first of each. -/
def dedup {α : Type} [DecidableEq α] (l : List α) : List α := l.foldl (fun acc x => if acc.contains x then acc else acc ++ [x]) []

end Sys2Proof.Machine
end

