-- ==== Sys2Proof/Machine/Sig.lean ====
section
/-! DEFINITION. Signatures (R101–R103). -/

namespace Sys2Proof.Machine

/-- R102: G for an ASID and a key VA: 61 bits. -/
def sigG (asid va : Nat) : Nat := asid * 2 ^ 51 + va / 32 % 2 ^ 51

/-- R102: rotate a 61-bit value left by `r`. -/
def rot61 (g r : Nat) : Nat := (g * 2 ^ r % 2 ^ 61) + g / 2 ^ (61 - r)

/-- R102: the XOR of the eight bytes of a value. -/
def xorBytes (x : Nat) : Nat :=
  (List.range 8).foldl (fun acc i => acc ^^^ (x / 2 ^ (8 * i) % 256)) 0

/-- R102: the index that bank `b` sets for a key. -/
def sigIndex (asid va b : Nat) : Nat :=
  256 * b + xorBytes (rot61 (sigG asid va) ((16 * b + 3) % 61))

/-- R102: the signature of one grain. -/
def sigGrain (asid va : Nat) : BitVec 1024 :=
  (List.range 4).foldl (fun acc b => acc ||| ((1 : BitVec 1024) <<< sigIndex asid va b)) 0

/-- R101: the signature of every grain that `n` bytes at a key VA touch. -/
def sigRange (asid va n : Nat) : BitVec 1024 :=
  if n = 0 then 0
  else (List.range ((va + n - 1) / 32 - va / 32 + 1)).foldl
    (fun acc i => acc ||| sigGrain asid ((va / 32 + i) * 32)) 0

/-- R103: two signatures intersect when every bank has a bit set in both. -/
def sigMeets (a b : BitVec 1024) : Bool :=
  let c := a &&& b
  (List.range 4).all (fun i => (c.extractLsb' (256 * i) 256) != 0)

/-- R182: the signature of the sixteen grains of a region under a name (ASID, VA[55:9]). -/
def sigRegion (asid va : Nat) : BitVec 1024 := sigRange asid (va * 512) 512

end Sys2Proof.Machine
end

