-- ==== Sys2Proof/Machine/Units.lean ====
section
/-! DEFINITION. Reading and writing the units of the package: contexts, cores, clusters, dies, homes, arbiters, and the
words of memory. Every change of State goes through one of these. -/

namespace Sys2Proof.Machine

/-! ## Places (R41) -/

def coreOf (loc : Nat) : Nat := loc / 8
def clusterOf (loc : Nat) : Nat := loc / 64
def dieOf (loc : Nat) : Nat := loc / 4096
def dieOfCore (core : Nat) : Nat := core / 512
def dieOfCluster (cl : Nat) : Nat := cl / 64
def clusterOfCore (core : Nat) : Nat := core / 8

/-- R41: c.self. -/
def selfWord (loc : Nat) : Word := BitVec.ofNat 64 loc

/-! ## Units -/

def ctxAt (s : State) (l : Nat) : Ctx := tblGet s.ctxs l initCtx
def setCtx (s : State) (l : Nat) (c : Ctx) : State := { s with ctxs := tblSet s.ctxs l c }
def modCtx (s : State) (l : Nat) (f : Ctx → Ctx) : State := setCtx s l (f (ctxAt s l))
/-- The context that executes. -/
def me (s : State) : Ctx := ctxAt s s.cur
def modMe (s : State) (f : Ctx → Ctx) : State := modCtx s s.cur f
def setMe (s : State) (c : Ctx) : State := setCtx s s.cur c

def coreAt (s : State) (c : Nat) : CoreSt := tblGet s.cores c (initCore c)
def setCore (s : State) (c : Nat) (x : CoreSt) : State := { s with cores := tblSet s.cores c x }
def modCore (s : State) (c : Nat) (f : CoreSt → CoreSt) : State := setCore s c (f (coreAt s c))

def clusterAt (s : State) (c : Nat) : ClusterSt := tblGet s.clusters c initCluster
def setCluster (s : State) (c : Nat) (x : ClusterSt) : State := { s with clusters := tblSet s.clusters c x }
def modCluster (s : State) (c : Nat) (f : ClusterSt → ClusterSt) : State := setCluster s c (f (clusterAt s c))

def dieAt (s : State) (d : Nat) : DieSt := tblGet s.dies d initDie
def modDie (s : State) (d : Nat) (f : DieSt → DieSt) : State := { s with dies := tblSet s.dies d (f (dieAt s d)) }

def homeAt (s : State) (h : Nat) : HomeSt := tblGet s.homes h initHome
def modHome (s : State) (h : Nat) (f : HomeSt → HomeSt) : State := { s with homes := tblSet s.homes h (f (homeAt s h)) }

def arbAt (s : State) (a : Nat) : ArbSt := tblGet s.arbs a initArb
def modArb (s : State) (a : Nat) (f : ArbSt → ArbSt) : State := { s with arbs := tblSet s.arbs a (f (arbAt s a)) }

def modFox (s : State) (f : FoxSt → FoxSt) : State := { s with fox := f s.fox }
def modIo (s : State) (f : IoSt → IoSt) : State := { s with io := f s.io }

/-- A directory entry (R203). -/
def dirAt (s : State) (h r : Nat) : DirEntry := tblGet (homeAt s h).dir r initDir
def modDir (s : State) (h r : Nat) (f : DirEntry → DirEntry) : State :=
  modHome s h (fun x => { x with dir := tblSet x.dir r (f (tblGet x.dir r initDir)) })

/-- A context's core lets it issue: it is not halted, and runs no single chunk of another context (R277). -/
def coreRuns (s : State) (l : Nat) : Bool :=
  !(coreAt s (coreOf l)).halted && (match (coreAt s (coreOf l)).stepping with
    | .only k => k == l
    | _ => true)

/-! ## The agenda -/

/-- A step of unit `u` that may happen from now on (cycle 0: at once). -/
def post (s : State) (u : Nat) (i : Instr) : State := { s with agenda := s.agenda ++ [(0, u, i)] }
/-- A step of unit `u` that may happen once `d` cycles have passed. -/
def postIn (s : State) (d u : Nat) (i : Instr) : State := { s with agenda := s.agenda ++ [(s.now + d, u, i)] }

/-- A step that is asked for once: not again while it is on its way. -/
def postOnce (s : State) (u : Nat) (i : Instr) : State := if s.agenda.any (fun e => e.2.2 == i) then s else post s u i

/-! ## Control space words (R290) -/

def bar0Get (s : State) (off : Nat) : Word := tblGet s.io.bar0 off 0
def bar0Set (s : State) (off : Nat) (x : Word) : State :=
  modIo s (fun io => { io with bar0 := if x = 0 then tblDel io.bar0 off else tblSet io.bar0 off x })

/-- R291: word `w` of an ASID's entry. -/
def asidOff (asid w : Nat) : Nat := 0x100000 + 256 * asid + w
def asidWord (s : State) (asid w : Nat) : Word := bar0Get s (asidOff asid w)

/-- R292: a word of a die's block. -/
def dieOff (d w : Nat) : Nat := 0x400000 + 0x10000 * d + w

/-! ## Control register fields (R34, R35) -/

def plOf (c : Ctl) : Nat := fld c.status 1 0
def pplOf (c : Ctl) : Nat := fld c.status 3 2
def stepOn (c : Ctl) : Bool := bit c.status 4
def tsOn (c : Ctl) : Bool := bit c.status 5
def heldOn (c : Ctl) : Bool := bit c.status 6

/-- c.status from its fields; reserved bits read as zero. -/
def statusWord (pl ppl : Nat) (step ts held : Bool) : Word :=
  BitVec.ofNat 64 (pl % 4 + 4 * (ppl % 4) + (if step then 16 else 0) + (if ts then 32 else 0) + (if held then 64 else 0))

/-- A number that an Option of flags replaces: c.status with some fields changed. -/
def withPl (c : Ctl) (pl ppl : Nat) (ts : Bool) : Ctl :=
  { c with status := statusWord pl ppl (stepOn c) ts (heldOn c) }
def withHeld (c : Ctl) (h : Bool) : Ctl := { c with status := statusWord (plOf c) (pplOf c) (stepOn c) (tsOn c) h }

def asidOf (c : Ctx) : Nat := fld c.ctl.asid 9 0

/-- R35: user level. -/
def isUser (c : Ctx) : Bool := plOf c.ctl == 0

/-! ## Result queue and registers (R28–R31) -/

def qGet (r : Regs) (n : Fin 16) : Word := r.ring.get (r.head - n)
def srcGet (r : Regs) : Src → Word
  | .q n => qGet r n
  | .k n => r.k.get n

/-- R28: push a result; the destination field copies it to a keep register. -/
def push (r : Regs) (d : Dest) (x : Word) : Regs :=
  let h := r.head + 1
  let r' := { r with head := h, ring := r.ring.set h.val x h.isLt }
  match d with
  | .push => r'
  | .keep n => { r' with k := r'.k.set n.val x n.isLt }

/-- R31: m0 reads as all ones. -/
def maskGet (r : Regs) (n : Fin 8) : Word := if n = 0 then BitVec.allOnes 64 else r.m.get n
/-- R31: a write to m0 is discarded. -/
def maskSet (r : Regs) (n : Fin 8) (x : Word) : Regs := if n = 0 then r else { r with m := r.m.set n.val x n.isLt }

def vGet (r : Regs) (n : Fin 32) : BitVec 512 := r.v.get n
def vSet (r : Regs) (n : Fin 32) (x : BitVec 512) : Regs := { r with v := r.v.set n.val x n.isLt }

/-- q0–q15 in age order, as a save area holds them (R39). -/
def qList (r : Regs) : List Word := (List.finRange 16).map (qGet r)

/-- Reload q0–q15 in age order (R28: h itself is kept). -/
def qLoad (r : Regs) (f : Fin 16 → Word) : Regs :=
  { r with ring := Vector.ofFn (fun i => f (r.head - i)) }

/-- R100: the context holds no live chunk, or one that has executed nothing. -/
def chunkEmpty (c : Ctx) : Bool :=
  c.chunk.count == 0 && c.chunk.stores.isEmpty && c.chunk.effects.isEmpty

end Sys2Proof.Machine
end

