-- ==== Sys2Proof/Machine/Walk.lean ====
section
/-! DEFINITION. Pointers and the page walk (R171–R178, R297). -/

namespace Sys2Proof.Machine

/-! ## Causes (R265) -/

def cIllegal : Nat := 0x01
def cPriv : Nat := 0x02
def cBrk : Nat := 0x03
def cSys : Nat := 0x04
def cAlign : Nat := 0x05
def cNoncanon : Nat := 0x06
def cWindow : Nat := 0x07
def cForeign : Nat := 0x08
def cCpForeign : Nat := 0x09
def cNotPresent : Nat := 0x0A
def cProt : Nat := 0x0B
def cMapHome : Nat := 0x0C
def cTileOwned : Nat := 0x0D
def cFifo : Nat := 0x0E
def cQueueInvalid : Nat := 0x0F
def cQueueStall : Nat := 0x10
def cSpoorFull : Nat := 0x11
def cChoiceFull : Nat := 0x12
def cAccOwned : Nat := 0x13
def cEngineFault : Nat := 0x14
def cWatch : Nat := 0x15
def cPreempt : Nat := 0x16
def cTaskHang : Nat := 0x17
def cDupMismatch : Nat := 0x18
def cMcheck : Nat := 0x19

/-! ## Fields of a global VA (R171) -/

/-- A canonical global VA: [63:56] zero, [55] one. -/
def isGlobal (va : Nat) : Bool := va / 2 ^ 55 == 1
def homeOf (va : Nat) : Nat := va / 2 ^ 51 % 16
def offsetOf (va : Nat) : Nat := va % 2 ^ 51
/-- The 64 KiB page of a VA: VA[55:16]. -/
def pageOf (va : Nat) : Nat := va / 2 ^ 16
/-- The region of a VA: VA[55:9]. -/
def regionOf (va : Nat) : Nat := va / 512

/-! ## The walk -/

/-- What a walk finds: the leaf, its size in address bits, and the key of the entry. -/
structure Leaf where
  pte : Word
  bits : Nat
  entry : Nat
deriving DecidableEq, Repr

/-- R177: a non-leaf (or root) entry whose reserved fields are zero. -/
def tableOk (e : Word) : Bool := fld e 55 52 == 0 && fld e 51 41 == 0 && fld e 11 2 == 0 && !bit e 1

/-- R177: the reserved fields of a leaf of `bits` address bits. -/
def leafOk (e : Word) (bits : Nat) : Bool :=
  fld e 55 52 == 0 && fld e 15 12 == 0
    && (bits != 25 || fld e 24 16 == 0) && (bits != 34 || fld e 33 16 == 0)

/-- R176: the home-local root array address that firmware set at reset. -/
def rootBase (s : State) (h : Nat) : Nat := fld (bar0Get s (0x10000 + 0x1000 * h)) 36 12 * 4096

/-- R176, R177: the levels below the root, highest first: index base bit, and whether a leaf may stand there. -/
def walkLevels : List (Nat × Nat × Bool) := [(43, 256, false), (34, 512, true), (25, 512, true), (16, 512, true)]

/-- The next table of a non-leaf entry, or the fault it ends the walk with. -/
def nextTable (home : Nat) (e : Word) : Except Nat Nat :=
  if !tableOk e then .error cNotPresent
  else if fld e 40 37 != home then .error cMapHome
  else .ok (fld e 40 12 * 4096)

/-- R176: walk the levels from a table. -/
def walkFrom (m : List Host.Cell) (home va : Nat) : List (Nat × Nat × Bool) → Nat → Except Nat Leaf
  | [], _ => .error cNotPresent
  | (lo, n, leafAllowed) :: rest, base =>
    let key := base + 8 * (va / 2 ^ lo % n)
    let e := memWord m key
    if !bit e 0 then .error cNotPresent
    else if bit e 1 then
      if leafAllowed && leafOk e lo then .ok ⟨e, lo, key⟩ else .error cNotPresent
    else if rest.isEmpty then .error cNotPresent
    else match nextTable home e with
      | .error c => .error c
      | .ok b => walkFrom m home va rest b

/-- R176: the walk of a global VA under an ASID, over committed memory. -/
def walk (s : State) (asid va : Nat) : Except Nat Leaf :=
  let h := homeOf va
  let e := memWord s.mem (h * 2 ^ 37 + rootBase s h + 8 * asid)
  if !bit e 0 then .error cNotPresent
  else if bit e 1 then .error cNotPresent
  else match nextTable h e with
    | .error c => .error c
    | .ok b => walkFrom s.mem h (offsetOf va) walkLevels b

/-! ## Leaves (R177, R178) -/

def pteMode (e : Word) : Nat := fld e 9 8
def ptePlace (e : Word) : Nat := fld e 7 6
def pteR (e : Word) : Bool := bit e 2
def pteW (e : Word) : Bool := bit e 3
def pteX (e : Word) : Bool := bit e 4
def pteUser (e : Word) : Bool := bit e 5
def pteAccessed (e : Word) : Bool := bit e 10
def pteDirty (e : Word) : Bool := bit e 11
def pteSystem (e : Word) : Bool := bit e 51

/-- R178: the address accessed, of 51 bits: the frame with the VA bits below the leaf size added. -/
def leafAddr (l : Leaf) (va : Nat) : Nat := fld l.pte 50 l.bits * 2 ^ l.bits + va % 2 ^ l.bits

/-- R297: a system target that exists. -/
def systemOk (addr : Nat) : Bool :=
  let t := addr / 2 ^ 47
  t < 4 || (8 ≤ t && t < 16 && addr / 2 ^ 41 % 32 == 0)

/-- R178, R297: a coherence mode of 0b11, or a mode and placement that no leaf may combine. -/
def comboBad (e : Word) (addr : Nat) : Bool :=
  if pteSystem e then ptePlace e != 3 || pteMode e ≥ 2 || !systemOk addr
  else pteMode e == 3 || (ptePlace e == 2 && pteMode e != 2)

/-- R174, R302: usable bytes of a home. -/
def homeBytes (s : State) (h : Nat) : Nat := (bar0Get s (0x020 + 8 * h)).toNat

/-- R178: the package address is beyond the home, or in the firmware areas at the top of H0. -/
def beyondHome (s : State) (pa : Nat) : Bool :=
  let h := pa / 2 ^ 37
  let a := pa % 2 ^ 37
  a ≥ homeBytes s h || (h == 0 && a ≥ homeBytes s 0 - Config.firmwareArea)

/-- The rights an access needs (R138). -/
structure Need where
  r : Bool
  w : Bool
  x : Bool
deriving DecidableEq, Repr

/-- Checks 9 and 10 of R137 on a leaf. `sup` is set for accesses made with supervisor rights. -/
def leafFault (s : State) (l : Leaf) (va : Nat) (need : Need) (user : Bool) : Option Nat :=
  let e := l.pte
  let a := leafAddr l va
  if comboBad e a then some cProt
  else if (need.r && !pteR e) || (need.w && !pteW e) || (need.x && !pteX e) then some cProt
  else if user && !pteUser e then some cProt
  else if pteSystem e then none
  else if fld e 50 41 != 0 || fld e 40 37 != homeOf va then some cMapHome
  else if beyondHome s a then some cMapHome
  else none

/-! ## The translation cache (R180) -/

/-- The cached leaf for a VA. -/
def tlbFind (s : State) (asid va : Nat) : Option Leaf :=
  let o := offsetOf va
  match (homeAt s (homeOf va)).tlb.find? (fun t => t.asid == asid && t.vpn == o / 2 ^ t.bits) with
  | some t => some ⟨t.pte, t.bits, t.entry⟩
  | none => none

/-- R180: the cache holds 64 Ki translations; which one a full cache drops is a free choice. -/
def tlbPut (s : State) (asid va : Nat) (l : Leaf) : State :=
  let t : Tlb := { asid := asid, bits := l.bits, vpn := offsetOf va / 2 ^ l.bits, pte := l.pte, entry := l.entry }
  modHome s (homeOf va) (fun h =>
    let kept := h.tlb.filter (fun x => !(x.asid == asid && x.bits == t.bits && x.vpn == t.vpn))
    let kept := if kept.length ≥ 65536 then dropNth kept (Config.choose s.tick 1 % kept.length) else kept
    { h with tlb := t :: kept })

/-! ## Windows (R172, R173, R78) -/

/-- The 64-bit alias of a private offset: a full sum (R172). -/
def privAlias (c : Ctl) (off : Nat) : Nat := (c.privbase + BitVec.ofNat 64 off).toNat

def isHere (tag : Nat) : Bool := tag == 0xFFF

/-- A die, cluster and core that the package has: not dark or retired, and within the die's figures (R1, R173). -/
def placeExists (s : State) (die cl core : Nat) : Bool :=
  (liveMask s.io.verified s.io.flash s.io.retired).getLsbD die && cl < Config.clusters die && core < 8

end Sys2Proof.Machine
end

