-- ==== Sys2Proof/Machine/Cache.lean ====
section
/-! DEFINITION. Span-cache sets (R187–R201): placing, compacting, evicting, merging, cutting, and the Squirrel. Functions on
one set, one core's L1 or one die's L2. The words of an HC block are those of committed memory; SW and CP blocks carry
theirs. -/

namespace Sys2Proof.Machine

/-- R189: the XOR fold of a region number into seven bits. -/
def l1Index (n : Nat) : Nat := (List.range 7).foldl (fun acc k => acc ^^^ (n / 2 ^ (7 * k) % 128)) 0

/-- R199: slice and set of a region in an L2. -/
def l2Index (asid va : Nat) : Nat :=
  let x := asid * 2 ^ 47 + va
  let h := (List.range 4).foldl (fun acc i => acc ^^^ (x / 2 ^ (16 * i) % 2 ^ 16)) 0
  let st := (List.range 7).foldl (fun acc i => acc ^^^ (x / 2 ^ (9 * i) % 2 ^ 9)) 0
  (h % 160) * 512 + st

/-- R188, R199: data words and tags of a set. -/
structure Geometry where
  words : Nat
  tags : Nat
deriving DecidableEq, Repr

def geoL1 : Geometry := ⟨64, 8⟩
def geoL2 (die : Nat) : Geometry := if Config.isM die then ⟨64, 8⟩ else ⟨96, 12⟩

def blockLen (b : Block) : Nat := b.stop - b.start + 1
def usedWords (st : CacheSet) : Nat := (st.map blockLen).foldl (· + ·) 0

/-- The block holds word `w` of the region named (ASID, VA[55:9]). -/
def holds (b : Block) (asid va w : Nat) : Bool := b.asid == asid && b.va == va && b.start ≤ w && w ≤ b.stop

/-- The words `off`..`off + k − 1` of the data area are free. -/
def holeFits (g : Geometry) (st : CacheSet) (off k : Nat) : Bool :=
  off + k ≤ g.words && st.all (fun b => off + k ≤ b.off || b.off + blockLen b ≤ off)

/-- R190: the lowest data offset whose hole fits `k` words. -/
def lowestHole (g : Geometry) (st : CacheSet) (k : Nat) : Option Nat :=
  (List.range (g.words + 1)).find? (fun off => holeFits g st off k)

/-- Insert a block in order of data offset. -/
def insOff (b : Block) : List Block → List Block
  | [] => [b]
  | c :: cs => if b.off < c.off then b :: c :: cs else c :: insOff b cs

/-- R190: slide every block toward offset 0, keeping the order of offsets and the ages. -/
def compact (st : CacheSet) : CacheSet :=
  let sorted := st.foldr insOff []
  let offs := sorted.foldl (fun (acc : List (Nat × Nat) × Nat) b => (acc.1 ++ [(b.off, acc.2)], acc.2 + blockLen b)) ([], 0)
  st.map (fun b => match offs.1.find? (fun p => p.1 == b.off) with
    | some p => { b with off := p.2 }
    | none => b)

/-- R191: a block that may be evicted. -/
def eligible (b : Block) : Bool := b.writer.isNone && !b.pinned

/-- R191: the set without its oldest eligible block, and that block. -/
def evictOldest (st : CacheSet) : Option (CacheSet × Block) :=
  match st.reverse.find? eligible with
  | none => none
  | some b => some (st.filter (fun c => c != b), b)

/-- R190, R191: place a block as the most recently used one: in the lowest hole, else after compaction, else after evicting
the oldest eligible blocks, one at a time (`fuel` evictions at most). None when it cannot be placed. -/
def place (g : Geometry) : Nat → CacheSet → Block → List Block → Option (CacheSet × List Block)
  | fuel, st, b, out =>
    let k := blockLen b
    let room := st.length < g.tags
    match (if room then lowestHole g st k else none) with
    | some off => some ({ b with off := off } :: st, out)
    | none =>
      if room && usedWords st + k ≤ g.words then some ({ b with off := usedWords st } :: compact st, out)
      else match fuel with
        | 0 => none
        | fuel + 1 =>
          match evictOldest st with
          | none => none
          | some (st', e) => place g fuel st' b (out ++ [e])

/-- R194: two blocks of one name that overlap or adjoin. -/
def touches (a b : Block) : Bool :=
  a.asid == b.asid && a.va == b.va && a.start ≤ b.stop + 1 && b.start ≤ a.stop + 1

/-- R194: blocks merge only when both are non-speculative, or both speculative-write blocks of one context. DESIGN CHOICE (log 93): blocks of
one name that neither overlap nor adjoin stand side by side (R194, R198), in spite of the last words of R201. -/
def mayMerge (a b : Block) : Bool := touches a b && a.writer == b.writer

/-- R194, R195, R208: the union of a new block with one that is held: held words and the earlier fill time win. DESIGN CHOICE (log 92): of
two held blocks that a fill joins, the one folded last gives the PC and the first word of the fill (R193). -/
def mergeBlock (new held : Block) : Block :=
  { new with
    start := min new.start held.start, stop := max new.stop held.stop,
    state := max new.state held.state, specRead := new.specRead ||| held.specRead,
    dirty := new.dirty ||| held.dirty, bad := new.bad ||| held.bad,
    words := held.words ++ new.words.filter (fun p => !(held.words.any (fun q => q.1 == p.1))),
    filled := min new.filled held.filled, pcIdx := held.pcIdx, first := held.first,
    lowest := min new.lowest held.lowest, highest := max new.highest held.highest }

/-- R200: `k` more pinned words stay within half of the data area and half of the tags of a set, and 16 KiB beside the `all`
pinned bytes of the rest of the L1. -/
def pinRoom (g : Geometry) (st : CacheSet) (all k : Nat) : Bool :=
  let p := st.filter (fun b => b.pinned)
  usedWords p + k ≤ g.words / 2 && p.length + 1 ≤ g.tags / 2 && all + 8 * k ≤ 16384

/-- Merge with every block that may merge, and place the result (R190: the merged blocks' words count as the hole). It is pinned
when its page asks for it (`pin`) and there is room beside the `all` pinned bytes elsewhere (R200). -/
def installBlock (g : Geometry) (pin : Block → Bool) (all : Nat) (st : CacheSet) (b : Block) : Option (CacheSet × List Block) :=
  let b := (st.filter (fun c => mayMerge c b)).foldl mergeBlock b
  let st := st.filter (fun c => !mayMerge c b)
  let own := ((st.filter (fun c => c.pinned)).map blockLen).foldl (· + ·) 0
  place g g.tags st { b with pinned := pin b && b.writer.isNone && pinRoom g st (all + 8 * own) (blockLen b) } []

/-- R200: the blocks that an L1, or an L2 slice, pins. -/
def pinL1 (b : Block) : Bool := b.place == 2
def pinL2 (b : Block) : Bool := b.place == 1

/-! ## Cutting blocks (R198) -/

/-- The runs of consecutive words among the words `lo`..`hi` that satisfy `p`: first and last of each. -/
def wordRuns (p : Nat → Bool) (lo hi : Nat) : List (Nat × Nat) :=
  ((List.range (hi + 1 - lo)).map (· + lo)).foldr (fun w acc =>
    if !p w then acc
    else match acc with
      | (a, z) :: rest => if a = w + 1 then (w, z) :: rest else (w, w) :: acc
      | [] => [(w, w)]) []

/-- The words of a mask that satisfy `p`. -/
def maskWords (p : Nat → Bool) (m : BitVec 64) : BitVec 64 :=
  (List.range 64).foldl (fun d w => if p w then d else d &&& ~~~((1 : BitVec 64) <<< w)) m

/-- The part of a block that holds the words `a`..`z`; they stay where they are. An SW block without dirty words is S (R203). -/
def pieceOf (b : Block) (a z : Nat) : Block :=
  let inside : Nat → Bool := fun w => a ≤ w && w ≤ z
  let d := maskWords inside b.dirty
  { b with start := a, stop := z, off := b.off + (a - b.start), dirty := d, bad := maskWords inside b.bad,
           words := b.words.filter (fun p => inside p.1),
           state := if b.mode == .sw && d = 0 then 1 else b.state }

/-- R198: a set of which only some words stay: `keep b` says which words of a block do, none that the block is not touched. The
pieces take its tag and free tags; a piece for which no tag is free leaves. -/
def cutSet (g : Geometry) (keep : Block → Option (Nat → Bool)) : CacheSet → CacheSet → CacheSet × List Block
  | [], done => (done, [])
  | b :: rest, done =>
    match keep b with
    | none => cutSet g keep rest (done ++ [b])
    | some p =>
      let pieces := (wordRuns p b.start b.stop).map (fun r => pieceOf b r.1 r.2)
      let free := g.tags - (done.length + rest.length)
      let (st, out) := cutSet g keep rest (done ++ pieces.take free)
      (st, pieces.drop free ++ out)

/-- R200: at most half of the tags of a set are pinned; a pinned block beyond them is cached like any other. -/
def capPins (g : Geometry) : Nat → CacheSet → CacheSet
  | _, [] => []
  | k, b :: rest =>
    if !b.pinned then b :: capPins g k rest
    else if k < g.tags / 2 then b :: capPins g (k + 1) rest
    else { b with pinned := false } :: capPins g k rest

/-- R198: a set cut, and the pieces that leave it. -/
def cutOne (g : Geometry) (keep : Block → Option (Nat → Bool)) (st : CacheSet) : CacheSet × List Block :=
  let p := cutSet g keep st []
  (capPins g 0 p.1, p.2)

/-! ## A core's L1 -/

def l1Set (c : CoreSt) (va : Nat) : CacheSet := tblGet c.sets (l1Index va) []
def l1SetPut (c : CoreSt) (va : Nat) (st : CacheSet) : CoreSt :=
  { c with sets := if st.isEmpty then tblDel c.sets (l1Index va) else tblSet c.sets (l1Index va) st }

/-- The non-speculative block that holds a word. -/
def l1Find (c : CoreSt) (asid va w : Nat) : Option Block :=
  (l1Set c va).find? (fun b => b.writer.isNone && holds b asid va w)

/-- Is the word in the L1 (a non-speculative block, or a speculative-write block of the context)? -/
def l1Has (c : CoreSt) (ctx asid va w : Nat) : Bool :=
  (l1Set c va).any (fun b => holds b asid va w && (b.writer.isNone || b.writer.any (fun x => x.val == ctx)))

/-- R196: a load of those words of a region that satisfy `need` sets its context's speculative-read bit in every block that it reads
and makes each the most recently used; the context's own speculative-write blocks shadow the others. R193: the words touched are
noted. -/
def l1Touch (c : CoreSt) (ctx asid va : Nat) (need : Nat → Bool) : CoreSt :=
  let st := l1Set c va
  let own : Block → Bool := fun b => b.writer.any (fun x => x.val == ctx)
  let shadowed : Nat → Bool := fun w => st.any (fun b => own b && holds b asid va w)
  let read : Block → List Nat := fun b =>
    (List.range 64).filter (fun w => need w && holds b asid va w && (own b || (b.writer.isNone && !shadowed w)))
  let mark : Block → Block := fun b =>
    { b with specRead := b.specRead ||| ((1 : BitVec 8) <<< ctx), lowest := (read b).foldl min b.lowest,
             highest := (read b).foldl max b.highest }
  if st.all (fun b => (read b).isEmpty) then c
  else l1SetPut c va ((st.filter (fun b => !(read b).isEmpty)).map mark ++ st.filter (fun b => (read b).isEmpty))

/-- R193: a block that leaves teaches its instruction's entry. -/
def learn (c : CoreSt) (b : Block) : CoreSt :=
  if b.writer.isSome then c
  else { c with squirrel := tblSet c.squirrel b.pcIdx ((b.lowest : Int) - b.first, (b.highest : Int) - b.first) }

/-- R192, R193: the words that a fill for the missing words `first`..`last` asks. The sector rule follows the last word that the
access touches, and a prediction is relative to the first. -/
def spanWords (c : CoreSt) (f : FillReq) : Nat × Nat :=
  let sector := (f.first, max f.last (f.touchEnd / 8 * 8 + 7))
  match f.span with
  | .words => (f.first, f.last)
  | .sector => sector
  | .region => (0, 63)
  | .pred =>
    match tblFind c.squirrel f.pcIdx with
    | none => sector
    | some (a, b) => (min f.first ((f.touch : Int) + a).toNat, max f.last (min 63 ((f.touch : Int) + b).toNat))

/-- R195: the smallest run covering every word of `lo`..`hi` that satisfies `need` and that the set does not hold for context
`ctx` (8 for none): in a non-speculative block, or in the context's own speculative-write block. -/
def missingRun (st : CacheSet) (ctx asid va lo hi : Nat) (need : Nat → Bool) : Option (Nat × Nat) :=
  let miss := ((List.range (hi + 1 - lo)).map (· + lo)).filter
    (fun w => need w && !(st.any (fun b => (b.writer.isNone || b.writer.any (fun x => x.val == ctx)) && holds b asid va w)))
  match miss, miss.reverse with
  | a :: _, b :: _ => some (a, b)
  | _, _ => none

/-- Every block of a core. -/
def l1Blocks (c : CoreSt) : List Block := (c.sets.map (fun p => p.2)).foldr (· ++ ·) []

/-- Change or drop every block of every set of a core's L1. A block that is dropped teaches the Squirrel (R193). -/
def l1Map (c : CoreSt) (f : Block → Option Block) : CoreSt :=
  ((l1Blocks c).filter (fun b => (f b).isNone)).foldl learn
    { c with sets := (c.sets.map (fun p => (p.1, p.2.filterMap f))).filter (fun p => !p.2.isEmpty) }

/-- R198: every set of a core's L1 cut, and the pieces that leave. A block of which nothing stays teaches the Squirrel. -/
def l1Cut (c : CoreSt) (keep : Block → Option (Nat → Bool)) : CoreSt × List Block :=
  let cuts := c.sets.map (fun p => (p.1, cutOne geoL1 keep p.2))
  let gone := (l1Blocks c).filter (fun b => (keep b).any (fun p => (wordRuns p b.start b.stop).isEmpty))
  (gone.foldl learn { c with sets := (cuts.map (fun p => (p.1, p.2.1))).filter (fun p => !p.2.isEmpty) },
   (cuts.map (fun p => p.2.2)).flatten)

/-- The pinned bytes of an L1 outside the set of a region. -/
def pinnedElsewhere (c : CoreSt) (va : Nat) : Nat :=
  (c.sets.filter (fun p => p.1 != l1Index va)).foldl (fun n p => n + 8 * usedWords (p.2.filter (fun b => b.pinned))) 0

/-- Place a block in a core's L1; what it pushes out teaches the Squirrel. -/
def l1Install (c : CoreSt) (b : Block) : Option (CoreSt × List Block) :=
  match installBlock geoL1 pinL1 (pinnedElsewhere c b.va) (l1Set c b.va) b with
  | none => none
  | some (st, out) => some (out.foldl learn (l1SetPut c b.va st), out)

/-- R196: drop a context's speculative-write blocks and clear its speculative-read bits. -/
def l1EndChunk (c : CoreSt) (ctx : Nat) : CoreSt :=
  l1Map c (fun b =>
    if b.writer.any (fun x => x.val == ctx) then none
    else some { b with specRead := b.specRead &&& ~~~((1 : BitVec 8) <<< ctx) })

/-- R98: the data bytes in a context's speculative-write blocks. -/
def footprint (c : CoreSt) (ctx : Nat) : Nat :=
  ((l1Blocks c).filter (fun b => b.writer.any (fun x => x.val == ctx))).foldl (fun n b => n + 8 * blockLen b) 0

/-- R98: the footprints of the eight contexts together. -/
def footprintAll (c : CoreSt) : Nat :=
  ((l1Blocks c).filter (fun b => b.writer.isSome)).foldl (fun n b => n + 8 * blockLen b) 0

/-- R196, R98: a speculative-write block for words `lo`..`hi` of a region; none when only a speculative-write block could
make room, or when the words cannot be placed. DESIGN CHOICE (log 92): such a block has had no fill, and counts as one of the store's PC
for the Squirrel (R193). -/
def l1SpecWrite (c : CoreSt) (ctx : Fin 8) (asid va region : Nat) (mode : CMode) (plc pcIdx lo hi now : Nat) :
    Option (CoreSt × List Block) :=
  l1Install c { asid := asid, va := va, region := region, start := lo, stop := hi, state := 0, specRead := 0,
                writer := some ctx, pinned := false, off := 0, mode := mode, place := plc, dirty := 0, bad := 0, words := [],
                filled := now, pcIdx := pcIdx, first := lo, lowest := lo, highest := hi }

/-- The word of an SW or CP region that the L1 holds, if it does. -/
def l1Word (c : CoreSt) (asid va w : Nat) : Option Word :=
  match l1Find c asid va w with
  | none => none
  | some b => match b.words.find? (fun p => p.1 == w) with
    | some p => some p.2
    | none => none

/-- R196, R142: at the commit, the written words `a`..`z` of a speculative-write block become dirty words of a non-speculative
block; under SW and CP they carry their values. What leaves, itself when it cannot be placed. -/
def l1Dirty (c : CoreSt) (b : Block) (a z : Nat) (ws : List (Nat × Word)) : CoreSt × List Block :=
  let mask := maskWords (fun w => a ≤ w && w ≤ z) (BitVec.allOnes 64)
  let clean : Block → Block := fun x =>
    if x.writer.isNone && x.asid == b.asid && x.va == b.va && x.start ≤ z && a ≤ x.stop then
      { x with words := x.words.filter (fun p => !(a ≤ p.1 && p.1 ≤ z)), bad := x.bad &&& ~~~mask } else x
  let c := l1SetPut c b.va ((l1Set c b.va).map clean)
  let b' := { b with start := a, stop := z, writer := none, state := 4, specRead := 0, dirty := mask, bad := 0, words := ws,
                     lowest := a, highest := z }
  match l1Install c b' with
  | none => (c, [b'])
  | some p => p

/-! ## A die's L2 slices (R199) -/

def l2Set (d : DieSt) (asid va : Nat) : CacheSet := tblGet d.l2 (l2Index asid va) []
def l2SetPut (d : DieSt) (asid va : Nat) (st : CacheSet) : DieSt :=
  { d with l2 := if st.isEmpty then tblDel d.l2 (l2Index asid va) else tblSet d.l2 (l2Index asid va) st }

/-- The L2 block that holds a word. -/
def l2Find (d : DieSt) (asid va w : Nat) : Option Block := (l2Set d asid va).find? (fun b => holds b asid va w)

/-- The word of an SW or CP region that the L2 holds, if it does. -/
def l2Word (d : DieSt) (asid va w : Nat) : Option Word :=
  match l2Find d asid va w with
  | none => none
  | some b => (b.words.find? (fun p => p.1 == w)).map (fun p => p.2)

def l2Blocks (d : DieSt) : List Block := (d.l2.map (fun p => p.2)).foldr (· ++ ·) []

/-- Change or drop every block of the L2 slices of a die. -/
def l2Map (d : DieSt) (f : Block → Option Block) : DieSt :=
  { d with l2 := (d.l2.map (fun p => (p.1, p.2.filterMap f))).filter (fun p => !p.2.isEmpty) }

/-- R198: every L2 set of die number `die` cut, and the pieces that leave. -/
def l2Cut (die : Nat) (d : DieSt) (keep : Block → Option (Nat → Bool)) : DieSt × List Block :=
  let cuts := d.l2.map (fun p => (p.1, cutOne (geoL2 die) keep p.2))
  ({ d with l2 := (cuts.map (fun p => (p.1, p.2.1))).filter (fun p => !p.2.isEmpty) }, (cuts.map (fun p => p.2.2)).flatten)

/-- An access to the words `lo`..`hi` makes the L2 blocks that hold them the most recently used. -/
def l2Touch (d : DieSt) (asid va lo hi : Nat) : DieSt :=
  let used : Block → Bool := fun b => b.asid == asid && b.va == va && b.start ≤ hi && lo ≤ b.stop
  let st := l2Set d asid va
  if st.any used then l2SetPut d asid va (st.filter used ++ st.filter (fun b => !used b)) else d

/-- Place a block in the L2 slices of die number `die`. -/
def l2Install (die : Nat) (d : DieSt) (b : Block) : Option (DieSt × List Block) :=
  match installBlock (geoL2 die) pinL2 0 (l2Set d b.asid b.va) b with
  | none => none
  | some (st, out) => some (l2SetPut d b.asid b.va st, out)

/-- The words `a`..`z` of the name of block `p` no longer stand in a block: a newer value of them is placed over it. -/
def overwritten (p : Block) (x : Block) : Block :=
  if x.asid == p.asid && x.va == p.va then
    { x with words := x.words.filter (fun q => !(p.start ≤ q.1 && q.1 ≤ p.stop)),
             bad := maskWords (fun w => !(p.start ≤ w && w ≤ p.stop)) x.bad }
  else x

/-- R197: the dirty words of a block that leaves an L1 go into the die's L2: the die, and what must go on to the homes. A piece that
cannot be placed goes there itself, and the L2 keeps no older copy of its words. -/
def l2Take (die now : Nat) (d : DieSt) (b : Block) : DieSt × List Block :=
  (wordRuns (fun w => b.dirty.getLsbD w) b.start b.stop).foldl (fun (acc : DieSt × List Block) r =>
    let p := { pieceOf b r.1 r.2 with specRead := 0, writer := none, pinned := false, filled := now }
    match l2Install die (l2Map acc.1 (fun x => some (overwritten p x))) p with
    | some (d', out) => (d', acc.2 ++ out)
    | none =>
      let q := l2Cut die acc.1 (fun x =>
        if x.asid == p.asid && x.va == p.va then some (fun w => !(p.start ≤ w && w ≤ p.stop)) else none)
      (q.1, acc.2 ++ q.2 ++ [p])) (d, [])

/-- Dirty words of a block with their values. -/
def dirtyWords (b : Block) : List (Nat × Word) := b.words.filter (fun p => b.dirty.getLsbD p.1)

/-- The dirty words of blocks that are given up; 64 is added to the number of a word whose parity has failed (R211). -/
def givenWords (bs : List Block) : List (Nat × Word) :=
  (bs.map (fun b => (dirtyWords b).map (fun p => (if b.bad.getLsbD p.1 then p.1 + 64 else p.1, p.2)))).flatten

/-- R192: the Squirrel index of a PC. -/
def pcIndex (pc : Word) : Nat := fld pc 9 2

end Sys2Proof.Machine
end

