-- ==== Sys2Proof/Machine/Ops.lean ====
section
/-! DEFINITION. The shared operations: finishing an instruction, ending a chunk, squashing, writing committed memory,
hardware reads and writes of records, events, and TAKING AN EXCEPTION with the return from one. -/

namespace Sys2Proof.Machine

abbrev Res := Host.Outcome State Fault Refusal

/-! ## Finishing an instruction -/

/-- One more instruction of the live chunk has executed, and left the registers `r`. -/
def stepped (c : Ctx) (r : Regs) : Ctx :=
  { c with regs := r, chunk := { c.chunk with count := c.chunk.count + 1 }, walkFault := none, probe := none,
           woken := false }

/-- The executing instruction is done; the next is at `pc`. -/
def finishAt (s : State) (r : Regs) (pc : Word) : Res := .next (modMe s (fun c => stepped c { r with pc := pc }))

/-- The executing instruction is done; the next follows it. -/
def finish (s : State) (r : Regs) : Res := finishAt s r (r.pc + 4)

/-- Push one result and go on (R28, R70). -/
def finishPush (s : State) (d : Dest) (x : Word) : Res := finish s (push (me s).regs d x)

/-- R94: the chunk after one that has committed with `n` instructions. -/
def nextChunk (c : Ctx) (n : Nat) : Ctx :=
  { c with ctl := { withHeld c.ctl false with icount := c.ctl.icount + BitVec.ofNat 64 n },
           chunk := { initChunk with num := c.chunk.num + 1 }, probe := none }

/-- R96: a closing operation was a chunk of one instruction, and has committed. -/
def closedCtx (c : Ctx) (r : Regs) (pc : Word) : Ctx :=
  let n := nextChunk { c with regs := { r with pc := pc }, walkFault := none, woken := false, run := .ready } 1
  { n with chunk := { n.chunk with tries := c.chunk.tries } }

/-- The instruction waits for a unit and executes again when it answers. -/
def stallCtx (s : State) (l : Nat) (w : Stall) : State := modCtx s l (fun c => { c with run := .stalled w })
def stall (s : State) (w : Stall) : Res := .next (stallCtx s s.cur w)

/-- R95: the live chunk of context `l` ends before its next instruction. -/
def endChunkOf (s : State) (l : Nat) (a : After) : State :=
  post (modCtx s l (fun c => { c with run := .committing a })) l .chunkEnd
def endChunk (s : State) (a : After) : Res := .next (endChunkOf s s.cur a)

/-- R238: the thread is an ordered task that is not yet the oldest of its domain: none of its chunks has committed, and another task
is older or goes on after a commit. -/
def youngTask (s : State) (l : Nat) : Bool :=
  match (ctxAt s l).unit.ordered with
  | none => false
  | some (d, ts, slot) =>
    match s.fox.domains.find? (fun x => x.asid == asidOf (ctxAt s l) && x.handle == d) with
    | none => false
    | some x =>
      let mine : OTask → Bool := fun t => t.stamp == ts && t.slot == slot
      !(x.tasks.any (fun t => mine t && t.begun))
        && x.tasks.any (fun t => !mine t && (t.begun || t.stamp < ts || (t.stamp == ts && t.slot < slot)))

/-- R96: a chunk-closing operation. The chunk before it ends and commits first; it then executes as a chunk of one
instruction. R238: a task of an ordered domain waits before it until it is the oldest. -/
def closing (s : State) (k : State → Res) : Res :=
  if !chunkEmpty (me s) then endChunk s .resume
  else if youngTask s s.cur then stall s .start
  else k s

/-! ## Waking -/

/-- Contexts whose run state satisfies `p` issue again. -/
def wakeAll (s : State) (p : Nat → Ctx → Bool) : State :=
  { s with ctxs := tblMap (fun l c => if p l c then { c with run := .ready } else c) s.ctxs }

def wakeStall (s : State) (w : Stall) : State := wakeAll s (fun _ c => c.run == .stalled w)

/-- A wait of the given kind on a core or cluster is examined again. -/
def wakeWaiters (s : State) (p : Nat → Bool) (kinds : List Nat) : State :=
  wakeAll s (fun l c => p l && (match c.run with | .waiting k => kinds.contains k | _ => false))

/-! ## Squash (R99, R107, R110) -/

/-- Restore the checkpoint and discard what the chunk held; `conflict` counts toward R111. The soft-error squashes in a row end
(R116). -/
def squashedCtx (c : Ctx) (conflict : Bool) (arbs : List Nat) : Ctx :=
  { c with
    run := .ready, regs := c.chunk.cp.regs,
    ctl := { c.ctl with choice := c.chunk.cp.choice, spoor := c.chunk.cp.spoor, fpflags := c.chunk.cp.fpflags,
                        status := statusWord (plOf c.ctl) (pplOf c.ctl) c.chunk.cp.step (tsOn c.ctl) (heldOn c.ctl) },
    chunk := { initChunk with num := c.chunk.num, conflicts := c.chunk.conflicts + (if conflict then 1 else 0),
                              prevArbs := arbs, held := c.chunk.held, grants := c.chunk.grants, stopAt := c.chunk.stopAt,
                              alone := c.chunk.alone },
    walkFault := none, probe := none }

/-- The arbiters of R104 for what the chunk has touched so far. -/
def arbSet (l : Nat) (c : Chunk) : List Nat :=
  (if c.sram then [80 + 48 * dieOf l + clusterOf l % 64] else [])
    ++ (if c.pinned then [16 + dieOf l] else [])
    ++ (List.range 16).filter (fun h => c.readHomes.getLsbD h || c.writtenHomes.getLsbD h)

/-- The commit that the context's chunk has asked for and that has not reached its commit point. -/
def openCommit (s : State) (l : Nat) : Option Nat :=
  match s.commits.find? (fun p => p.2.kind == .chunk && p.2.loc == l && !p.2.point) with
  | some p => some p.1
  | none => none

/-- R105: the requests that wait at an arbiter are examined again, in arrival order and before any that arrives later. -/
def reexamine (s : State) (arb : Nat) : State :=
  let ws := (tblGet s.arbs arb initArb).waiting
  if ws.isEmpty then s
  else
    let mine : Instr → Bool := fun i => ws.any (fun w => i == .grantRequest arb w)
    { s with agenda := ws.map (fun w => (0, 0, .grantRequest arb w)) ++ s.agenda.filter (fun e => !mine e.2.2) }

/-- R111: a held chunk's priority grants are released. -/
def releasePriority (s : State) (loc : Nat) : State :=
  let one : Nat → ArbSt → ArbSt := fun _ a =>
    { a with priority := if a.priority == some loc then none else a.priority, asking := a.asking.filter (· != loc) }
  let held := (s.arbs.filter (fun e => e.2.priority == some loc)).map (fun e => e.1)
  held.foldl reexamine { s with arbs := tblMap one s.arbs }

/-- R105: a squash withdraws the waiting request and releases the grants. -/
def withdraw (s : State) (l : Nat) : State :=
  match openCommit s l with
  | none => s
  | some cid =>
    let held := (s.arbs.filter (fun e => e.2.inProg.contains cid)).map (fun e => e.1)
    let one : Nat → ArbSt → ArbSt := fun _ a =>
      { a with inProg := a.inProg.filter (· != cid), waiting := a.waiting.filter (· != cid),
               records := a.records.filter (fun r => r.waitsFor != some cid) }
    held.foldl reexamine { s with commits := tblDel s.commits cid, arbs := tblMap one s.arbs }

/-- The context waits, holding no chunk and no priority grant, at its instruction (R95, R111, R274). -/
def waitHere (s : State) (kind : Nat) : Res :=
  .next (modMe (releasePriority s s.cur) (fun c => { c with
    run := .waiting kind, woken := false, probe := none, ctl := withHeld c.ctl false,
    waitSince := if c.woken then c.waitSince else s.now, waitPosted := c.woken && c.waitPosted,
    chunk := { initChunk with num := c.chunk.num } }))

/-- Squash the live chunk of context `l`. -/
def squash (s : State) (l : Nat) (conflict : Bool) : State :=
  let c := ctxAt s l
  let s := withdraw s l
  let s := setCtx s l (squashedCtx c conflict (arbSet l c.chunk))
  modCore s (coreOf l) (fun x => l1EndChunk x (l % 8))

/-- R107: every live chunk among the contexts that satisfy `p` whose R meets W is squashed. -/
def squashMeeting (s : State) (w : BitVec 1024) (p : Nat → Bool) : State :=
  s.ctxs.foldl (fun t e =>
    let k := (ctxAt t e.1).chunk
    if p e.1 && k.live && sigMeets k.r w then squash t e.1 true else t) s

/-- R111: another context of the core runs held, and this chunk would commit at the core against it. -/
def heldBlocks (s : State) (l : Nat) (w : BitVec 1024) : Bool :=
  (List.range 8).any (fun i =>
    let o := coreOf l * 8 + i
    let k := (ctxAt s o).chunk
    o != l && k.held && k.live && (sigMeets w k.r || sigMeets w k.w))

/-- R111: what a held chunk has been granted or has asked for is given up when its execution ends. -/
def dropHeld (s : State) (l : Nat) : State :=
  if (ctxAt s l).chunk.held || 4 ≤ (ctxAt s l).chunk.conflicts then releasePriority s l else s

/-- R96: the executing operation was a chunk of one instruction, and goes on at `pc`. -/
def finishClosingAt (s : State) (r : Regs) (pc : Word) : Res := .next (modMe (dropHeld s s.cur) (fun c => closedCtx c r pc))
def finishClosing (s : State) (r : Regs) : Res := finishClosingAt s r (r.pc + 4)

/-! ## Committed writes -/

/-- Word keys that `n` bytes at a key touch. -/
def wordsTouched (key n : Nat) : List Nat :=
  if n = 0 then [] else (List.range ((key + n - 1) / 8 - key / 8 + 1)).map (fun i => (key / 8 + i) * 8)

/-- R211: a write of all 8 bytes clears poison; R144: the words of device memory as they stood are logged, for the commit `cid`
while it is not complete. -/
def putBytesFor (s : State) (cid : Option Nat) (key : Nat) (bs : List Byte) : State :=
  let n := bs.length
  let ws := wordsTouched key n
  { s with
    mem := memPutAll s.mem key bs,
    poison := s.poison.filter (fun w => !(key ≤ w && w + 8 ≤ key + n)),
    codeLog := if isHbm key then s.codeLog ++ ws.map (fun w => (w, memWord s.mem w, s.order, cid)) else s.codeLog }

/-- A write whose commit is complete with it. -/
def putBytes (s : State) (key : Nat) (bs : List Byte) : State := putBytesFor s none key bs

/-- R144: the commit is complete: what it stored may be fetched after the next fence.sys. -/
def logComplete (s : State) (cid : Nat) : State :=
  { s with codeLog := s.codeLog.map (fun e => if e.2.2.2 == some cid then (e.1, e.2.1, s.order, none) else e), order := s.order + 1 }

/-- R225: the grain of a resident head's write index, by its device address. -/
def headGrain (s : State) (h : Head) : Option Nat :=
  match walk s h.asid (h.desc + 0x10) with
  | .ok l => some (leafAddr l (h.desc + 0x10) / 32)
  | .error _ => none

/-- A grain that a context watches has been written: the watch fires (R135). Heads that watch their write index learn
that an entry may stand (R225). -/
def noteWrite (s : State) (key n : Nat) : State :=
  let hit : Nat → Bool := fun g => key / 32 ≤ g && g ≤ (key + n - 1) / 32
  let woke := s.ctxs.filter (fun e => e.2.watch.any hit)
  let s := woke.foldl (fun t e => post t e.1 .watchWake) s
  { s with dies := tblMap (fun _ d => { d with heads := d.heads.map (fun h =>
      if headGrain s h |>.any hit then { h with hint := true } else h) }) s.dies }

/-! ## Words that caches hold of device memory -/

/-- The words of a write-back reach memory, word by word; a word marked with 64 is poisoned (R211). -/
def putWords (s : State) (region : Nat) (ws : List (Nat × Word)) : State :=
  ws.foldl (fun t p =>
    let key := region * 512 + 8 * (p.1 % 64)
    let t := noteWrite (putBytes t key (wordBytes p.2)) key 8
    if p.1 < 64 then t else { t with poison := t.poison ++ [key] }) s

/-- A write-back of words of the region by a holder that `who` picks. -/
def flightOf (region : Nat) (who : Nat → Bool) : Instr → Bool
  | .writeBack _ r f ws => r == region && who f.who && !ws.isEmpty
  | _ => false

/-- R206: the write-backs of a region that `who` picks and that are on their way are answered from the write-back buffer: their words
reach memory now, in their order. -/
def absorbFlight (s : State) (region : Nat) (who : Nat → Bool) : State :=
  let hits := s.agenda.filter (fun e => flightOf region who e.2.2)
  if hits.isEmpty then s
  else hits.foldl (fun t e => match e.2.2 with
    | .writeBack _ _ _ ws => putWords t region ws
    | _ => t) { s with agenda := s.agenda.filter (fun e => !flightOf region who e.2.2) }

/-- The blocks of every L1 that are not speculative, and those of every L2. -/
def l1All (s : State) : List Block := ((s.cores.map (fun e => l1Blocks e.2)).flatten).filter (fun b => b.writer.isNone)
def l2All (s : State) : List Block := (s.dies.map (fun e => l2Blocks e.2)).flatten

/-- Some cache or write-back holds words of a region's CP page. -/
def cpHeld (s : State) (region : Nat) : Bool :=
  (l1All s ++ l2All s).any (fun b => b.mode == .cp && b.region == region) || s.agenda.any (fun e => flightOf region (fun _ => true) e.2.2)

/-- R120, R289: the words of a region's CP page that its owner's caches hold reach memory: those on their way, then the L2's, then the
L1's. -/
def cpHome (s : State) (region : Nat) : State :=
  if !cpHeld s region then s
  else
    let cp : Block → Bool := fun b => b.mode == .cp && b.region == region
    putWords (putWords (absorbFlight s region (fun _ => true)) region (givenWords ((l2All s).filter cp))) region
      (givenWords ((l1All s).filter cp))

/-- The regions that `n` bytes at a device address touch. -/
def keyRegions (key n : Nat) : List Nat := if n = 0 then [] else (List.range ((key + n - 1) / 512 + 1 - key / 512)).map (fun i => key / 512 + i)

/-- R211: the words of an HC block whose parity has failed are poisoned when the block is written back. -/
def poisonBad (s : State) (b : Block) : State :=
  if b.mode != .hc || b.bad = 0 then s
  else
    let ws := (List.range 64).filter (fun w => b.bad.getLsbD w && b.dirty.getLsbD w)
    { s with poison := s.poison ++ ws.map (fun w => b.region * 512 + 8 * w) }

/-- R211: the dirty HC words of a region whose parity has failed are poisoned before a write to the region, wherever they are held
but in the L1 of core `own`. -/
def settleBad (own : Option Nat) (s : State) (region : Nat) : State :=
  let hit : Block → Bool := fun b => b.writer.isNone && b.mode == .hc && b.region == region && b.bad != 0
  let bad := ((s.cores.filter (fun e => own != some e.1)).map (fun e => l1Blocks e.2)).flatten.filter hit ++ (l2All s).filter hit
  if bad.isEmpty then s
  else
    let clear : Block → Option Block := fun b => some (if hit b then { b with bad := 0 } else b)
    bad.foldl poisonBad { s with
      cores := tblMap (fun i c => if own == some i then c else l1Map c clear) s.cores, dies := tblMap (fun _ d => l2Map d clear) s.dies }

/-- R204: a write by a unit without a cache leaves memory current and no owner. -/
def forgetOwner (s : State) (region : Nat) : State :=
  let one : Nat → DirEntry → DirEntry := fun r d =>
    if r = region ∧ d.mode = 0 ∧ 1 ≤ d.state ∧ d.state ≤ 4 then { d with state := 0, owner := 0 } else d
  let h := region / 2 ^ 28
  { s with homes := tblMap (fun i x => if i = h then { x with dir := tblMap one x.dir } else x) s.homes }

/-- R120, R204: the non-speculative HC and CP blocks of a region are dropped wherever they are, and the directory forgets them. -/
def dropCopies (s : State) (region : Nat) : State :=
  let gone : Block → Option Block := fun b =>
    if b.writer.isNone && b.mode != .sw && b.region == region then none else some b
  let s := forgetOwner s region
  { s with cores := tblMap (fun _ c => l1Map c gone) s.cores, dies := tblMap (fun _ d => l2Map d gone) s.dies }

/-- R296: the 64-byte lines that a host holds among `n` bytes at a device address. -/
def hostTouched (s : State) (key n : Nat) : List Nat :=
  if !isHbm key || n = 0 then []
  else dedup ((s.io.hostLines.filter (fun p => key / 64 ≤ p.1 && p.1 ≤ (key + n - 1) / 64)).map (fun p => p.1))

/-- R182, R289: the signature of a device address under every name that its home's filter records. -/
def nameSig (s : State) (pa n : Nat) : BitVec 1024 :=
  match (homeAt s (pa / 2 ^ 37)).remap.find? (fun x => x.region == pa / 512) with
  | none => 0
  | some x => x.names.foldl (fun acc m => acc ||| sigRange m.1 (m.2 * 512 + pa % 512) n) 0

/-! ## Inbound writes (R132, R298) -/

/-- R183: the signature of a write of device memory under its own name and under every name that its home's filter records. -/
def allNames (s : State) (w : BitVec 1024) (key n : Nat) : BitVec 1024 :=
  if isHbm key && w != 0 then w ||| nameSig s key n else w

/-- R109: `n` bytes at a device address rounded out to the 64-byte sectors that they lie in: address and length. -/
def sectorsOf (key n : Nat) : Nat × Nat := (key / 64 * 64, (key + n - 1) / 64 * 64 + 64 - key / 64 * 64)

/-- One committed write by a unit other than a chunk, at one point of package order: bytes, squashes, watches, copies. The
signature is that of the write's grains. -/
def commitPlain (s : State) (w : BitVec 1024) (key : Nat) (bs : List Byte) : State :=
  let regions := if isHbm key then keyRegions key bs.length else []
  let s := putBytes (regions.foldl (settleBad none) s) key bs
  let s := { s with order := s.order + 1 }
  let s := squashMeeting s w (fun _ => true)
  let s := regions.foldl dropCopies s
  noteWrite s key bs.length

/-- What leaves the package. -/
def answer (s : State) (o : Out) : State := modIo s (fun io => { io with out := io.out ++ [o] })

/-- Cells of one write, cut into runs of consecutive addresses. -/
def runsOf (cells : List (Nat × Byte)) : List (Nat × List Byte) :=
  cells.foldr (fun e acc => match acc with
    | (a, bs) :: rest => if e.1 + 1 = a then (e.1, e.2 :: bs) :: rest else (e.1, [e.2]) :: (a, bs) :: rest
    | [] => [(e.1, [e.2])]) []

/-- R296: the bytes of a line that a host returns: modified or not, and with which values, is free. -/
def returnedLine (s : State) (line : Nat) : List (Nat × Byte) :=
  let base := 2 ^ 40 + 128 * line
  if (Config.outside s.tick base).getLsbD 0 then
    (List.range 64).map (fun i => (line * 64 + i, (Config.outside s.tick (base + 1 + i)).setWidth 8))
  else []

/-- R296: a line is the host's no longer, and what it returned is applied. -/
def lineBack (s : State) (line : Nat) (cells : List (Nat × Byte)) : State :=
  let s := modIo s (fun io => { io with hostLines := io.hostLines.filter (fun p => p.1 != line) })
  (runsOf (cells.filter (fun e => e.1 / 64 == line))).foldl (fun t r => commitPlain t (nameSig t r.1 r.2.length) r.1 r.2) s

/-- A write that is one step has what others hold of its bytes back before they are applied, and a read-modify-write before it reads:
the words that a CP owner's caches hold (R120), and the lines that hosts hold (R296, log 13). -/
def gather (s : State) (key n : Nat) : State :=
  let s := if isHbm key then (keyRegions key n).foldl cpHome s else s
  (hostTouched s key n).foldl (fun t l => lineBack (answer t (.backInvalidate l)) l (returnedLine s l)) s

/-- Something of `n` bytes at a key must come back before a write of them. -/
def heldElsewhere (s : State) (key n : Nat) : Bool := !(hostTouched s key n).isEmpty || (isHbm key && (keyRegions key n).any (cpHeld s))

/-- One committed write by a unit other than a chunk, once nothing of its bytes is held elsewhere. -/
def commitBytes (s : State) (w : BitVec 1024) (key : Nat) (bs : List Byte) : State :=
  commitPlain (gather s key bs.length) w key bs

/-- R183, DEDUCED (log 61): a committed write by hardware, which names the bytes under an ASID's VA or none: chunks that have
read them under another name are squashed too. -/
def hwCommit (s : State) (w : BitVec 1024) (key : Nat) (bs : List Byte) : State := commitBytes s (allNames s w key bs.length) key bs

/-! ## Arbiters (R105, R111) -/

/-- Two requests that may not be in progress together. -/
def conflict (r1 w1 r2 w2 : BitVec 1024) : Bool := sigMeets w1 r2 || sigMeets w1 w2 || sigMeets r1 w2

/-- R105, R111: arbiter `a` refuses a request of context `l` (none for other units). -/
def refuses (s : State) (a : Nat) (l : Option Nat) (r w : BitVec 1024) : Bool :=
  let x := arbAt s a
  (match x.priority with
   | none => false
   | some p => l != some p)
  || x.inProg.any (fun cid => match tblFind s.commits cid with
    | none => false
    | some c => conflict c.r c.w r w)

/-! ## Commits past their commit point (R105, R106) -/

/-- A commit writes into the regions `lo`..`hi`, by a store or a far operation. -/
def commitTouches (c : Commit) (lo hi : Nat) : Bool :=
  c.stores.any (fun t => t.pa / 512 ≤ hi && lo ≤ (t.pa + t.bytes.length - 1) / 512) || c.far.any (fun f => lo ≤ f.pa / 512 && f.pa / 512 ≤ hi)

/-- R105: a region that a commit past its commit point writes and that is not complete; an access to it waits. DEDUCED
(log 14): a copy that the core holds waits too, since it stands for the words of committed memory. -/
def beingWritten (s : State) (key n : Nat) : Bool :=
  s.commits.any (fun p => p.2.point && p.2.kind == .chunk && commitTouches p.2 (key / 512) ((key + n - 1) / 512))

/-- R105: a commit in progress at the home's arbiter, from its grant on, writes the region: a fill waits. -/
def inProgress (s : State) (h region : Nat) : Bool :=
  (arbAt s h).inProg.any (fun cid => (tblFind s.commits cid).any (fun c => commitTouches c region region))

/-- A directory entry in a transient state (R204). -/
def transient (st : Nat) : Bool := 8 ≤ st && st ≤ 16

/-- R207 step 1: a drain at the home covers a region under one of its recorded names. -/
def drainHolds (s : State) (h region : Nat) : Bool :=
  (homeAt s h).draining.any (fun t => (tblFind s.rmodes t).any (fun r =>
    (homeAt s h).remap.any (fun x => x.region == region && x.names.any (fun n => n.1 == r.asid && r.lo ≤ n.2 * 512 + 511 && n.2 * 512 ≤ r.hi))))

/-- R204, R207, R209, R210: a write by a unit that is no chunk waits at the region: it is in a transient state, frozen, drained or
lost. -/
def regionHeld (s : State) (region : Nat) : Bool :=
  let h := region / 2 ^ 28
  let d := dirAt s h region
  transient d.state || d.state == 17 || d.lost || drainHolds s h region

/-- R106: a commit past its commit point writes into the region of a device address, and its home has not applied it yet. A
hardware access to the region waits. -/
def unapplied (s : State) (pa : Nat) : Bool :=
  s.commits.any (fun p => p.2.point && p.2.kind == .chunk && p.2.homes.contains (pa / 2 ^ 37) && commitTouches p.2 (pa / 512) (pa / 512))

/-! ## Hardware reads and writes of records -/

/-- How a hardware access ends. `retry`: an arbiter refused, or the home holds the region; the step is taken again. -/
inductive Hw (α : Type) where
  | ok (x : α) (s : State)
  | fault (cause : Nat) (s : State)
  | retry

/-- R179: the signature of a PTE's grain under every name that the filter records for its region. -/
def pteSig (s : State) (h entry : Nat) : BitVec 1024 :=
  match (homeAt s h).remap.find? (fun x => x.region == entry / 512) with
  | none => 0
  | some x => x.names.foldl (fun acc n => acc ||| sigGrain n.1 (n.2 * 512 + entry % 512)) 0

/-- DEDUCED (log 32): the context whose own walk of the page an arbiter serves although it holds that arbiter's priority
grant: the walk belongs to the held chunk (R111). -/
def walkOwner (s : State) (h asid va : Nat) : Option Nat :=
  match (arbAt s h).priority with
  | some p => if (ctxAt s p).run == .stalled (.walk h asid (pageOf va)) then some p else none
  | none => none

/-- R179: the leaf entry as a walk leaves it. -/
def walkedPte (e : Word) (write : Bool) : Word := e ||| 0x400 ||| (if write then 0x800 else 0)

/-- R176, R179: walk, set the accessed (and dirty) bit with a grant, and cache the leaf. A host gives up its line of the entry before
the entry is read (R296). -/
def walkSet (s : State) (asid va : Nat) (write : Bool) : Hw Leaf :=
  match walk s asid va with
  | .error c => .fault c s
  | .ok l =>
    let h := homeOf va
    if walkedPte l.pte write = l.pte then .ok l (tlbPut s asid va l)
    else
      let w := pteSig s h l.entry
      if refuses s h (walkOwner s h asid va) 0 w || unapplied s l.entry || regionHeld s (l.entry / 512) then .retry
      else
        let s := gather s l.entry 8
        match walk s asid va with
        | .error c => .fault c s
        | .ok l =>
          let l' := { l with pte := walkedPte l.pte write }
          .ok l' (tlbPut (commitBytes s w l.entry (wordBytes l'.pte)) asid va l')

/-- A translation: from the cache, or by a walk. A cached leaf whose dirty bit is 0 is walked again for a write (R179). -/
def translate (s : State) (asid va : Nat) (write : Bool) : Hw Leaf :=
  match tlbFind s asid va with
  | some l => if write && !pteDirty l.pte then walkSet s asid va write else .ok l s
  | none => walkSet s asid va write

/-- R209, R306: the home holds accesses to the region of a physical address. -/
def homeHolds (s : State) (h pa asid va : Nat) : Bool :=
  (homeAt s h).paused
  || (dirAt s h (pa / 512)).state == 17 || (dirAt s h (pa / 512)).lost
  || (homeAt s h).draining.any (fun t => match tblFind s.rmodes t with
    | none => false
    | some r => r.asid == asid && r.lo ≤ va && va ≤ r.hi)

/-- The page is HC: a package frame, mode HC, not never-cached. -/
def leafHc (l : Leaf) : Bool := !pteSystem l.pte && pteMode l.pte == 0 && ptePlace l.pte != 3

/-- Translate an address that hardware uses with supervisor rights, and check the leaf. -/
def hwAddr (s : State) (asid va : Nat) (write hc : Bool) : Hw Nat :=
  if !isGlobal va then .fault cWindow s
  else if (homeAt s (homeOf va)).paused then .retry
  else match translate s asid va write with
    | .retry => .retry
    | .fault c s => .fault c s
    | .ok l s =>
      match leafFault s l va ⟨true, write, false⟩ false with
      | some c => .fault c s
      | none =>
        if pteSystem l.pte || (hc && !leafHc l) then .fault cProt s
        else if homeHolds s (homeOf va) (leafAddr l va) asid va || regionHeld s (leafAddr l va / 512) || unapplied s (leafAddr l va) then .retry
        else .ok (leafAddr l va) s

/-- The poisoned words among `n` bytes at a key (R211). -/
def poisoned (s : State) (key n : Nat) : Bool := (wordsTouched key n).any (fun w => s.poison.contains w)

/-- Read `n` bytes of a record as committed state. -/
def hwRead (s : State) (asid va n : Nat) (hc : Bool) : Hw (List Byte) :=
  match hwAddr s asid va false hc with
  | .retry => .retry
  | .fault c s => .fault c s
  | .ok pa s => if poisoned s pa n then .fault cMcheck s else .ok (memBytes s.mem pa n) s

/-- Write bytes of a record at one point of package order, with a grant from its home. -/
def hwWrite (s : State) (asid va : Nat) (bs : List Byte) (hc : Bool) : Hw Unit :=
  match hwAddr s asid va true hc with
  | .retry => .retry
  | .fault c s => .fault c s
  | .ok pa s =>
    let w := sigRange asid va bs.length
    if refuses s (homeOf va) none 0 w then .retry
    else .ok () (hwCommit s w pa bs)

/-- Read and change one word at one point of package order (ordered like amor, R152): the old word. -/
def hwChange (s : State) (asid va : Nat) (hc : Bool) (f : Word → Word) : Hw Word :=
  match hwAddr s asid va true hc with
  | .retry => .retry
  | .fault c s => .fault c s
  | .ok pa s =>
    let w := sigRange asid va 8
    if poisoned s pa 8 then .fault cMcheck s
    else if refuses s (homeOf va) none w w then .retry
    else
      let s := gather s pa 8
      let old := memWord s.mem pa
      .ok old (if f old = old then s else hwCommit s w pa (wordBytes (f old)))

/-- The same in an HC page. -/
def hwUpdate (s : State) (asid va : Nat) (f : Word → Word) : Hw Word := hwChange s asid va true f

/-! ## Events (R221) -/

/-- The unit number of delivery `id` on the agenda. -/
def ringUnit (id : Nat) : Nat := 2 ^ 32 + id

/-- Put a delivery on its way (R227). -/
def deliver (s : State) (d : Delivery) : State :=
  let id := s.fox.nextDelivery
  let s := modFox s (fun f => { f with deliveries := tblSet f.deliveries id d, nextDelivery := id + 1 })
  post s (ringUnit id) .ringDelivery

/-- R221: post one event to the supervisor event ring of an ASID; an ASID whose entry is not valid receives none. -/
def event (s : State) (asid reason cause : Nat) (w8 w10 : Word) (msg : List Word) : State :=
  if !bit (asidWord s asid 0) 63 then s
  else
    let w0 : Word := BitVec.ofNat 64 (asid * 2 ^ 16 + reason * 2 ^ 8 + cause)
    deliver s { loc := none, src := none, die := none, asid := asid, handle := fld (asidWord s asid 0x10) 11 0, desc := 0, words := [],
                msg := [w0, w8, w10, BitVec.ofNat 64 s.now, wordAt msg 0, wordAt msg 1, wordAt msg 2, wordAt msg 3],
                route := none, via := none, slot := none, since := s.now, stallPosted := false, port := false, event := true }

/-- R221: QUEUE_INVALID as an event. -/
def badEvent (s : State) (asid reason : Nat) (w8 w10 : Word) (msg : List Word) : State :=
  event s asid reason cQueueInvalid w8 w10 msg

/-! ## Taking an exception (R39, R265–R267) -/

/-- R267: enter firmware level. The firmware record is written first. -/
def mcheckCtx (c : Ctx) (reason detail : Nat) (badva epc : Word) : Ctx :=
  { c with
    firmware := some { pc := c.regs.pc, status := c.ctl.status, epc := c.ctl.epc, cause := c.ctl.cause,
                       badva := c.ctl.badva, tval := c.ctl.tval, q := Vector.ofFn (qGet c.regs) },
    ctl := { c.ctl with
      cause := BitVec.ofNat 64 cMcheck, epc := epc &&& ~~~3, badva := badva,
      tval := BitVec.ofNat 64 (reason % 256 * 256 + detail % 256),
      status := statusWord 2 (pplOf c.ctl) (stepOn c.ctl) (tsOn c.ctl) false },
    regs := { c.regs with pc := Config.firmwareVector },
    run := .ready, chunk := { initChunk with num := c.chunk.num }, watch := none, woken := false, walkFault := none,
    probe := none }

/-- R39: the registers at trap entry to the supervisor. -/
def trapCtx (c : Ctx) (t : TrapInfo) (async : Bool) : Ctx :=
  { c with
    ctl := { c.ctl with
      epc := t.epc &&& ~~~3, cause := BitVec.ofNat 64 (t.cause + (if async then 256 else 0)), badva := t.badva, tval := t.tval,
      status := statusWord 1 (plOf c.ctl) (stepOn c.ctl) true false },
    regs := { c.regs with pc := c.ctl.trapvec &&& ~~~3 },
    run := .ready, chunk := { initChunk with num := c.chunk.num }, watch := none, woken := false, walkFault := none,
    probe := none }

/-- R39: q0–q15 are stored at c.tsave, supervisor rights, HC or any mapped page. -/
def saveQ (s : State) (l : Nat) : Hw Unit :=
  let c := ctxAt s l
  hwWrite s (asidOf c) (c.ctl.tsave &&& ~~~127).toNat ((qList c.regs).foldr (fun x acc => wordBytes x ++ acc) []) false

/-- R39, R267: context `l`, holding no chunk, takes a trap: a nested one, or one whose save faults, is an MCHECK. None when
the save must be tried again. DESIGN CHOICE (log 87): c.badva of those two is the trap's own, and c.tsave. -/
def takeTrap (s : State) (l : Nat) (t : TrapInfo) (async : Bool) : Option State :=
  let c := ctxAt s l
  let s := dropHeld s l
  if tsOn c.ctl then some (setCtx s l (mcheckCtx c 1 t.cause t.badva c.regs.pc))
  else
    let pa := match hwAddr s (asidOf c) (c.ctl.tsave &&& ~~~127).toNat true false with
      | .ok pa _ => some pa
      | _ => none
    if pa.any (fun p => poisoned s p 128) then some (setCtx s l (mcheckCtx c 4 t.cause (c.ctl.tsave &&& ~~~127) c.regs.pc))
    else match saveQ s l with
      | .retry => none
      | .fault _ s => some (setCtx s l (mcheckCtx c 4 t.cause (c.ctl.tsave &&& ~~~127) c.regs.pc))
      | .ok _ s => some (setCtx s l (trapCtx c t async))

/-- R115: a trap that the core found: the chunk ends before the instruction and commits, and the trap is then taken. With
nothing before it in the chunk it is taken at once. -/
def raise (s : State) (cause : Nat) (badva tval : Word) : Res :=
  let t : TrapInfo := { cause := cause, epc := (me s).regs.pc, badva := badva, tval := tval }
  if chunkEmpty (me s) then
    match takeTrap s s.cur t false with
    | some s => .next s
    | none => stall s .arb
  else endChunk s (.trap t)

/-- R96, R280, R281: trap and brk are a chunk of one instruction, whose commit takes the trap. -/
def raiseOwn (s : State) (cause : Nat) (epc badva tval : Word) : Res :=
  closing s (fun s =>
    match takeTrap (modMe (dropHeld s s.cur) (fun c => nextChunk c 1)) s.cur { cause := cause, epc := epc, badva := badva, tval := tval } false with
    | some s => .next s
    | none => stall s .arb)

/-- R267, R211: MCHECK at the executing instruction. -/
def raiseMcheck (s : State) (reason detail : Nat) (badva : Word) : Res :=
  .next (modMe (dropHeld s s.cur) (fun c => mcheckCtx c reason detail badva c.regs.pc))

/-- R114: a fault found at a home. A one-instruction chunk takes it at once (R137); otherwise the fault response squashes
the chunk, which runs again to before the instruction. R322: what a fail has restored commits before its fault is taken. -/
def raiseHome (s : State) (cause : Nat) (badva tval : Word) : Res :=
  let c := me s
  if chunkEmpty c && c.chunk.alone then
    if cause = cMcheck then raiseMcheck s 0 1 badva else raise s cause badva tval
  else if c.chunk.alone then endChunk s .resume
  else .next (post (stallCtx s s.cur .fault) s.cur (.faultResponse s.cur (c.chunk.count + 1)))

/-- As `raiseHome`, for an operation that is a chunk of its own. -/
def raiseClosing (s : State) (cause : Nat) (badva tval : Word) : Res :=
  if cause = cMcheck then raiseMcheck s 0 1 badva else raise s cause badva tval

/-! ## The return from an exception (R282, R267) -/

/-- R282: the level, ts and the PC as eret leaves them; q from the save area when ts was 1. -/
def eretCtx (c : Ctx) (q : Option (List Word)) : Ctx :=
  let r := match q with
    | none => c.regs
    | some ws => qLoad c.regs (fun i => wordAt ws i.val)
  closedCtx { c with ctl := withPl c.ctl (pplOf c.ctl) (pplOf c.ctl) false } r (c.ctl.epc &&& ~~~3)

/-- R267: an eret at firmware level restores every item of the firmware record and continues at its PC. -/
def eretFirmware (c : Ctx) (f : FirmwareRecord) : Ctx :=
  closedCtx { c with firmware := none,
                     ctl := { c.ctl with status := f.status, epc := f.epc, cause := f.cause, badva := f.badva, tval := f.tval } }
    (qLoad c.regs (fun i => f.q.get i)) f.pc

/-- R115, R61: ILLEGAL and PRIV hold the word in c.tval. -/
def raiseIllegal (s : State) : Res := raise s cIllegal (me s).regs.pc (BitVec.ofNat 64 (me s).word.toNat)
def raisePriv (s : State) : Res := raise s cPriv (me s).regs.pc (BitVec.ofNat 64 (me s).word.toNat)

end Sys2Proof.Machine
end

