-- ==== Sys2Proof/Machine/Operands.lean ====
section
/-! DEFINITION. Operand forms: immediates, .w forms, the integer functions of R72–R77, pointer classes (R78) and targets. -/

namespace Sys2Proof.Machine

/-- R62: Src(f) of the executing context. -/
def src (s : State) (a : Src) : Word := srcGet (me s).regs a

/-- R46: imm15 sign-extended. -/
def imm15 (i : BitVec 15) : Word := i.signExtend 64

/-- R71: a 32-bit result sign-extended. -/
def sx32 (x : BitVec 32) : Word := x.signExtend 64
def lo32 (x : Word) : BitVec 32 := x.setWidth 32

/-- R72: 1 for true and 0 for false. -/
def flag01 (c : Bool) : Word := if c then 1 else 0

/-- R71: a two-source function at 64 bits, or at 32 bits for .w. -/
def byW (w : Bool) (f : Word → Word → Word) (g : BitVec 32 → BitVec 32 → BitVec 32) (x y : Word) : Word :=
  if w then sx32 (g (lo32 x) (lo32 y)) else f x y

/-- R73: division truncates; by zero gives −1, and the most negative value by −1 gives itself. -/
def divS {n : Nat} (x y : BitVec n) : BitVec n := if y = 0 then BitVec.allOnes n else x.sdiv y
def divU {n : Nat} (x y : BitVec n) : BitVec n := if y = 0 then BitVec.allOnes n else x / y
/-- R73: the remainder takes the sign of the dividend; by zero it is the dividend. -/
def remS {n : Nat} (x y : BitVec n) : BitVec n := if y = 0 then x else x.srem y
def remU {n : Nat} (x y : BitVec n) : BitVec n := if y = 0 then x else x % y

/-- R72: the high 64 bits of the product. -/
def mulHigh (x y : Word) : Word := ((x.signExtend 128 * y.signExtend 128) >>> 64).setWidth 64
def mulHighZ (x y : Word) : Word := ((x.setWidth 128 * y.setWidth 128) >>> 64).setWidth 64

/-- R74: counts are taken modulo the width. -/
def shlN {n : Nat} (x y : BitVec n) : BitVec n := x <<< (y.toNat % n)
def shrN {n : Nat} (x y : BitVec n) : BitVec n := x >>> (y.toNat % n)
def sraN {n : Nat} (x y : BitVec n) : BitVec n := x.sshiftRight (y.toNat % n)
def rolN {n : Nat} (x y : BitVec n) : BitVec n := x.rotateLeft (y.toNat % n)
def rorN {n : Nat} (x y : BitVec n) : BitVec n := x.rotateRight (y.toNat % n)

def minSg (x y : Word) : Word := if y.slt x then y else x
def maxSg (x y : Word) : Word := if x.slt y then y else x
def minUn (x y : Word) : Word := if y.ult x then y else x
def maxUn (x y : Word) : Word := if x.ult y then y else x

/-- Count the leading zeros of the low `n` bits. -/
def clzN (x : Nat) : Nat → Nat
  | 0 => 0
  | n + 1 => if x.testBit n then 0 else 1 + clzN x n

/-- Count the trailing zeros of the low `n` bits, from bit `i`. -/
def ctzFrom (x i : Nat) : Nat → Nat
  | 0 => 0
  | n + 1 => if x.testBit i then 0 else 1 + ctzFrom x (i + 1) n

def popN (x : Nat) : Nat → Nat
  | 0 => 0
  | n + 1 => (if x.testBit n then 1 else 0) + popN x n

/-- Reverse the low `n` bits: the lowest bit becomes the highest. -/
def revN (x : Nat) : Nat → Nat
  | 0 => 0
  | n + 1 => x % 2 * 2 ^ n + revN (x / 2) n

/-- A one-source bit function at 64 bits, or at 32 with the result sign-extended. -/
def unW (w : Bool) (f : Nat → Nat → Nat) (x : Word) : Word :=
  if w then sx32 (BitVec.ofNat 32 (f (x.toNat % 2 ^ 32) 32)) else BitVec.ofNat 64 (f x.toNat 64)

/-- R72: reverse the bytes of the low `n` bits. -/
def bswapN (x n : Nat) : Nat := leNat (natBytes (n / 8) x).reverse

def extBits : ExtW → Nat
  | .b => 8 | .h => 16 | .w => 32

/-- R75: the mask of ins. -/
def insMask (c : Word) : Word :=
  let pos := fld c 11 6
  let len := fld c 5 0 + 1
  (BitVec.allOnes 64 >>> (64 - len)) <<< pos

def insField (a b c : Word) : Word := (a &&& ~~~insMask c) ||| ((b <<< fld c 11 6) &&& insMask c)

/-- R76: ext. Bits at and above 64 read as zero. -/
def extField (a : Word) (p l : BitVec 6) : Word := BitVec.ofNat 64 (a.toNat / 2 ^ p.toNat % 2 ^ (l.toNat + 1))

/-! ## Pointer classes (R78) -/

/-- R78: the class of a pointer, seen from the context at `loc`. -/
def ptrClass (loc : Nat) (a : Word) : Nat :=
  let win := fld a 54 52
  if fld a 63 56 != 0 then 15
  else if bit a 55 then 8
  else if fld a 51 48 != 0 || win ≥ 5 then 15
  else if win == 0 then 0
  else if win == 1 then 1
  else if win == 2 then
    if fld a 32 18 != 0 then 15
    else if fld a 47 36 == 0xFFF then (if fld a 35 33 == 7 then 2 else 15)
    else if fld a 47 33 != coreOf loc then 0x12 else 2
  else if win == 3 then
    if fld a 35 21 != 0 then 15
    else if fld a 47 36 == 0xFFF then 3
    else if fld a 47 36 != clusterOf loc then 0x13 else 3
  else 4

/-- R79: the offset that cast.sl and cast.sx accept: a plain offset, or an own scratchpad pointer. -/
def scratchOff (loc : Nat) (a : Word) : Option Nat :=
  let o := if fld a 63 18 == 0 then some a.toNat
    else if ptrClass loc a == 2 then some (fld a 17 0) else none
  o.bind (fun x => if x < Config.scratchSize (dieOf loc) then some x else none)

/-- R79: the offset that cast.cl accepts. -/
def clusterOff (loc : Nat) (a : Word) : Option Nat :=
  let o := if fld a 63 21 == 0 then some a.toNat
    else if ptrClass loc a == 3 then some (fld a 20 0) else none
  o.bind (fun x => if x < Config.clusterSize (dieOf loc) then some x else none)

/-- R101: the explicit scratchpad pointer of the context's core. -/
def scratchPtr (loc off : Nat) : Word := 0x0020000000000000 ||| BitVec.ofNat 64 (coreOf loc * 2 ^ 33 + off)
/-- R101: the explicit cluster pointer of the context's cluster. -/
def clusterPtr (loc off : Nat) : Word := 0x0030000000000000 ||| BitVec.ofNat 64 (clusterOf loc * 2 ^ 36 + off)

/-! ## Targets (R17, R80) -/

/-- R80: a jump or branch target, checked for its canonical form. -/
def jumpTo (s : State) (r : Regs) (t : Word) : Res :=
  if fld t 63 56 != 0 then raise s cNoncanon t 0 else finishAt s r t

/-- A displacement of `o` words from the PC. -/
def pcPlus {n : Nat} (s : State) (o : BitVec n) : Word := (me s).regs.pc + (o.signExtend 64 <<< 2)

/-- R80: Check(t) of jr and callr. -/
def jumpReg (s : State) (r : Regs) (t : Word) : Res :=
  if fld t 63 56 != 0 then raise s cNoncanon t 0
  else if fld t 1 0 != 0 then raise s cAlign t 0
  else finishAt s r t

/-- R81: a conditional branch. -/
def branch (s : State) (c : Bool) (o : BitVec 15) : Res :=
  if c then jumpTo s (me s).regs (pcPlus s o) else finish s (me s).regs

/-- R80: k15 := PC + 4, without a push. -/
def linkRegs (r : Regs) : Regs := { r with k := r.k.set 15 (r.pc + 4) }

end Sys2Proof.Machine
end

