-- ==== Sys2Proof/Machine/Access.lean ====
section
/-! DEFINITION. An instruction's access to memory: the checks of R137 in their order, translation at the home, the remap
filter, and what loads and stores do inside the chunk (R99, R101, R120, R196). -/

namespace Sys2Proof.Machine

/-- Where an access goes, once every check has passed. -/
structure Target where
  space : Space
  /-- a chunk-closing access: never cached, I/O, or pinned in another die's slices (R96, R200) -/
  closes : Bool
  /-- a system frame (R178, R297); `key` is then the system address -/
  sys : Bool
  io : Bool
  key : Nat
  /-- key VA and ASID of its grains (R101, R374) -/
  va : Nat
  asid : Nat
  home : Nat
  /-- placement of the page (R200) -/
  place : Nat
deriving DecidableEq, Repr

/-- How the checks of an access end. -/
inductive Acc where
  | ok (t : Target) (s : State)
  /-- a trap found in the core (R115) -/
  | core (cause : Nat) (badva tval : Word)
  /-- a fault found at the home (R114) -/
  | home (cause : Nat) (badva tval : Word) (s : State)
  /-- the access waits -/
  | wait (w : Stall) (s : State)

/-- What an instruction asks of an access. -/
structure AccReq where
  ea : Word
  n : Nat
  align : Nat
  /-- R137: 0 load, 1 store, 2 read-modify-write, 3 range operation -/
  kind : Nat
  need : Need
  /-- check 5: the pointer classes (R78, without the foreign bit) that the instruction admits -/
  wins : List Nat
  /-- check 12: the page kinds it admits -/
  pages : List Space
  /-- check 12: it admits never-cached, I/O and remote pinned pages -/
  closes : Bool
  /-- made with supervisor rights (R251) -/
  sup : Bool
deriving Repr

def anyWin : List Nat := [1, 2, 3, 4, 8]
def anyPage : List Space := [.hc, .sw, .cp, .pinned]

/-- R138: rights of a load, of a store, and of a read-modify-write. -/
def needR : Need := ⟨true, false, false⟩
def needW : Need := ⟨false, true, false⟩
def needRW : Need := ⟨true, true, false⟩

def loadReq (ea : Word) (n : Nat) : AccReq :=
  { ea := ea, n := n, align := n, kind := 0, need := needR, wins := anyWin, pages := anyPage, closes := true, sup := false }
def storeReq (ea : Word) (n : Nat) : AccReq :=
  { ea := ea, n := n, align := n, kind := 1, need := needW, wins := anyWin, pages := anyPage, closes := true, sup := false }

/-- R373: the access lies wholly inside one field of the engine window, and may be made. -/
def engineOk (loc off n : Nat) (write : Bool) : Bool :=
  let m := Config.isM (dieOf loc)
  if off < 0x400 then m && off / 64 == (off + n - 1) / 64
  else if off == 0x400 then m && n == 8
  else if off == 0x408 || off == 0x410 || off == 0x418 then m && n == 8 && !write
  else 0x800 ≤ off && off + n ≤ 0xC00 && n == 8 && off / 8 == (off + n - 1) / 8

/-- R145, R373: a range of whole words lies in the words of the engine window. -/
def engineWords (loc off n : Nat) : Bool := off + n ≤ 0xC00 && (List.range (n / 8)).all (fun i => engineOk loc (off + 8 * i) 8 false)

/-- The memory key of an engine-window offset. -/
def engineKey (loc off : Nat) : Nat :=
  if off < 0x800 then keyEngine (coreOf loc) off else keyFifo (clusterOf loc) (off - 0x800)

/-- R279: the first enabled watch register of the ASID that the access meets. `kinds` are the enable bits it matches. -/
def watchHit (s : State) (asid va n : Nat) (kinds : List Nat) : Option Nat :=
  (List.range 4).find? (fun i =>
    let w0 := asidWord s asid (0x40 + 16 * i)
    let len := 2 ^ fld (asidWord s asid (0x48 + 16 * i)) 4 0
    let base := fld w0 55 0 / len * len
    bit w0 63 && kinds.any (fun k => bit w0 k) && base < va + n && va < base + len)

/-- Enable bits that an access kind matches: load 60, store 61. -/
def watchKinds (kind : Nat) : List Nat := if kind == 0 then [60] else if kind == 1 then [61] else [60, 61]

/-- R182: what an access under a name does to the region's filter entry: the new entry, or the names to recall. -/
def remapStep (e : Option Remap) (region : Nat) (name : Nat × Nat) (write : Bool) : Remap ⊕ List (Nat × Nat) :=
  match e with
  | none => .inl { region := region, names := [name], readOnly := !write }
  | some r =>
    if r.names == [name] then .inl { r with readOnly := r.readOnly && !write }
    else if !write && r.names.contains name then .inl r
    else if !write && r.readOnly && r.names.length < 4 then .inl { r with names := r.names ++ [name] }
    else .inr (r.names.filter (· != name))

/-- R182: the names that a full filter recalls before it records another region: those of the least recently used entry. -/
def remapVictim (s : State) (h region : Nat) : Option Remap :=
  let all := (homeAt s h).remap
  if all.any (fun x => x.region == region) || all.length < 16384 then none else all.getLast?

/-- R182: the filter entry of a region is used: most recently used first. -/
def remapPut (s : State) (h : Nat) (r : Remap) : State :=
  modHome s h (fun x => { x with remap := r :: x.remap.filter (fun y => y.region != r.region) })

/-- R182: the names of a filter entry are recalled. -/
def askRecall (s : State) (h region : Nat) (names : List (Nat × Nat)) : State :=
  if (homeAt s h).recalls.any (fun r => r.1 == region) then s
  else names.foldl (fun t n => postOnce t 0 (.recallName h region n.1 n.2)) s

/-- R126: the core that owns a CP region: as rmode left it, or the first core to reach the page; none before that. -/
def cpOwnerOf (s : State) (h pa : Nat) : Option Nat :=
  match tblFind (homeAt s h).cpRegion (pa / 512) with
  | some core => some core
  | none => match (homeAt s h).cpOwner.find? (fun p => p.1 == pa / 65536) with
    | some p => some p.2.1
    | none => none

/-- R137 check 11: a byte of `lo`–`hi` in the 64 KiB page of `va` lies in a region that another core owns. -/
def cpForeign (s : State) (core : Nat) (lf : Leaf) (va lo hi : Nat) : Bool :=
  !pteSystem lf.pte && pteMode lf.pte == 2 && (List.range 128).any (fun i =>
    let base := va / 65536 * 65536 + 512 * i
    lo ≤ base + 511 && base ≤ hi && (cpOwnerOf s (homeOf va) (leafAddr lf base)).any (· != core))

/-- R200: the die that pins a page, if a core has reached it. -/
def pinDieOf (s : State) (h pa : Nat) : Option Nat :=
  match (homeAt s h).pinDie.find? (fun p => p.1 == pa / 65536) with
  | some p => some p.2.1
  | none => none

/-- R137 c.tval: the access kind in [2:1]. -/
def kindWord (kind : Nat) : Word := BitVec.ofNat 64 (2 * kind)

/-- R126: the first access of a core to a directly mapped CP page makes it the owner. -/
def claimCp (s : State) (h pa asid va core : Nat) : State :=
  if (cpOwnerOf s h pa).isSome then s
  else modHome s h (fun x => { x with cpOwner := (pa / 65536, core, asid, pageOf va) :: x.cpOwner })

/-- R200: the die of the first core to access a page pinned in L2 slices pins it. -/
def claimPin (s : State) (h pa asid va die : Nat) : State :=
  if (pinDieOf s h pa).isSome then s
  else modHome s h (fun x => { x with pinDie := (pa / 65536, die, asid, pageOf va) :: x.pinDie })

/-- R182: the regions that `n` bytes at a device address touch, with the words VA[55:9] of their names. -/
def namedRegions (pa va n : Nat) : List (Nat × Nat) :=
  (List.range ((va + n - 1) / 512 + 1 - va / 512)).map (fun i => (pa / 512 + i, va / 512 + i))

/-- R182: names of the region are being displaced: a recall of it is on its way or not answered. -/
def recallOpen (s : State) (h region : Nat) : Bool :=
  (homeAt s h).recalls.any (fun r => r.1 == region) || s.agenda.any (fun e => match e.2.2 with
    | .recallName h' r _ _ => h' == h && r == region
    | _ => false)

/-- R182: every region of an access is served under its name: the filter records it, or the names to recall are asked back. -/
def throughFilter (s : State) (h asid : Nat) (write : Bool) : List (Nat × Nat) → Option State × State
  | [] => (some s, s)
  | (region, va) :: rest =>
    match remapStep ((homeAt s h).remap.find? (fun x => x.region == region)) region (asid, va) write with
    | .inr names => (none, askRecall s h region names)
    | .inl r =>
      if recallOpen s h region then (none, s)
      else match remapVictim s h region with
        | some old => (none, askRecall s h old.region old.names)
        | none => throughFilter (remapPut s h r) h asid write rest

/-- The words of an access that stands in one region. -/
def wordLo (va : Nat) : Nat := va % 512 / 8
def wordHi (va n : Nat) : Nat := min 63 ((va % 512 + n - 1) / 8)

/-- R105: the L1 holds every word of the access; it needs no fill. -/
def l1Serves (s : State) (asid va n : Nat) : Bool :=
  (missingRun (l1Set (coreAt s (coreOf s.cur)) (regionOf va)) (s.cur % 8) asid (regionOf va) (wordLo va) (wordHi va n) (fun _ => true)).isNone

/-- R105: the access waits for a commit: a fill from its grant on, a held copy from its commit point on (log 14). -/
def mustAwait (s : State) (h pa asid va n : Nat) : Bool :=
  beingWritten s pa n || (!l1Serves s asid va n && inProgress s h (pa / 512))

/-- R204, R209: an access to the region that arrived before that of context `l` still waits at the home. -/
def queuedBefore (s : State) (h region l : Nat) : Bool :=
  (((homeAt s h).waiting.takeWhile (fun e => e != (region, l))).any (fun e =>
    e.1 == region && e.2 != l && (ctxAt s e.2).run == .stalled (.home h) && coreRuns s e.2))

/-- The access of context `l` waits at the home for the region, behind those that came before it. -/
def enqueue (s : State) (h region l : Nat) : State :=
  if (homeAt s h).waiting.contains (region, l) then s
  else modHome s h (fun x => { x with waiting := x.waiting.filter (fun e => e.2 != l) ++ [(region, l)] })

/-- It has been served. -/
def dequeue (s : State) (h l : Nat) : State :=
  if (homeAt s h).waiting.any (fun e => e.2 == l) then modHome s h (fun x => { x with waiting := x.waiting.filter (fun e => e.2 != l) }) else s

/-- Checks 8–12 of R137 for a global VA, and what the home does with the access. -/
def homeAccess (s : State) (q : AccReq) (va : Nat) : Acc :=
  let l := s.cur
  let c := me s
  let asid := asidOf c
  let h := homeOf va
  let write := q.kind != 0 && q.need.w
  let tv := kindWord q.kind
  if va / 2 ^ 56 != 0 then .home cNoncanon q.ea tv s
  else if !isGlobal va then .home cNotPresent q.ea tv s
  else if (homeAt s h).paused then .wait (.home h) s
  else
    let hit := match tlbFind s asid va with
      | some lf => if write && !pteDirty lf.pte then none else some lf
      | none => none
    match hit with
    | none =>
      match c.walkFault with
      | some (a, p, cause) =>
        if a == asid && p == pageOf va then .home cause q.ea tv s
        else .wait (.walk h asid (pageOf va)) (postOnce s 0 (.pageWalk h asid (pageOf va) write))
      | none =>
        .wait (.walk h asid (pageOf va)) (postOnce s 0 (.pageWalk h asid (pageOf va) write))
    | some lf =>
      match leafFault s lf va q.need (isUser c && !q.sup) with
      | some cause => .home cause q.ea tv s
      | none =>
        let a := leafAddr lf va
        if pteSystem lf.pte then
          if !q.closes then .home cProt q.ea tv s
          else .ok { space := .hc, closes := true, sys := true, io := pteMode lf.pte == 1, key := a, va := va, asid := asid,
                     home := h, place := 3 } s
        else if homeHolds s h a asid va || queuedBefore s h (a / 512) l then .wait (.home h) (enqueue s h (a / 512) l)
        else
          let mode := pteMode lf.pte
          let place := ptePlace lf.pte
          let s := if mode == 2 then claimCp s h a asid va (coreOf l) else s
          if mode == 2 && (cpOwnerOf s h a).any (· != coreOf l) then .home cCpForeign q.ea tv s
          else
            let s := if place == 1 then claimPin s h a asid va (dieOf l) else s
            let remote := place == 1 && (pinDieOf s h a).any (· != dieOf l)
            let space : Space := if mode == 1 then .sw else if mode == 2 then .cp else if place == 1 then .pinned else .hc
            let closes := place == 3 || remote
            if (place == 3 && !q.closes) || !(q.pages.contains space) then .home cProt q.ea tv s
            else match throughFilter s h asid write (namedRegions a va q.n) with
              | (none, s) => .wait (.home h) (enqueue s h (a / 512) l)
              | (some s', _) =>
                if mustAwait s h a asid va q.n then .wait (.home h) (enqueue s h (a / 512) l)
                else .ok { space := space, closes := closes, sys := false, io := false, key := a, va := va, asid := asid,
                           home := h, place := place } (dequeue s' h l)

/-- The checks of R137 in their order. -/
def access (s : State) (q : AccReq) : Acc :=
  let l := s.cur
  let c := me s
  let ea := q.ea
  let cls := ptrClass l ea
  let tv := kindWord q.kind
  let last := q.n - 1
  let die := dieOf l
  let scratch := fld ea 17 0
  if fld ea 63 56 != 0 then .home cNoncanon ea tv s
  else if cls == 0 || cls == 15 then .core cWindow ea tv
  else if cls ≥ 16 then .core cForeign ea tv
  else if (cls == 1 && fld ea 47 0 + last ≥ c.ctl.privlen.toNat)
      || (cls == 2 && scratch + last ≥ Config.scratchSize die)
      || (cls == 3 && fld ea 20 0 + last ≥ Config.clusterSize die)
      || (cls == 4 && !(if q.kind == 3 then engineWords l (fld ea 47 0) q.n else engineOk l (fld ea 47 0) q.n (q.kind == 1 || q.kind == 2))) then
    .core cWindow ea tv
  else if !(q.wins.contains cls) then .core cWindow ea tv
  else if ea.toNat % q.align != 0 then .core cAlign ea tv
  else if cls == 2 && ((List.range (last / 4096 + 2)).any (fun i =>
      scratch / 4096 + i ≤ (scratch + last) / 4096 && (coreAt s (coreOf l)).tilesE.contains (scratch / 4096 + i))) then
    .core cTileOwned ea tv
  else match watchHit s (asidOf c) (if cls == 1 then privAlias c.ctl (fld ea 47 0) else ea.toNat) q.n (watchKinds q.kind) with
    | some i => .core cWatch ea (BitVec.ofNat 64 (16 * i) ||| tv)
    | none =>
      if cls == 2 && beingWritten s (keyScratch (coreOf l) scratch) q.n then .wait .arb s
      else if cls == 3 && beingWritten s (keyCluster (clusterOf l) (fld ea 20 0)) q.n then .wait .arb s
      else if cls == 4 && beingWritten s (engineKey l (fld ea 47 0)) q.n then .wait .arb s
      else if cls == 2 then
        .ok { space := .scratch, closes := false, sys := false, io := false, key := keyScratch (coreOf l) scratch,
              va := (scratchPtr l scratch).toNat, asid := asidOf c, home := 0, place := 0 } s
      else if cls == 3 then
        .ok { space := .cluster, closes := false, sys := false, io := false, key := keyCluster (clusterOf l) (fld ea 20 0),
              va := (clusterPtr l (fld ea 20 0)).toNat, asid := asidOf c, home := 0, place := 0 } s
      else if cls == 4 then
        .ok { space := .engine, closes := false, sys := false, io := false, key := engineKey l (fld ea 47 0),
              va := ea.toNat, asid := 0, home := 0, place := 0 } s
      else homeAccess s q (if cls == 1 then privAlias c.ctl (fld ea 47 0) else ea.toNat)

/-- Go on with the target of an access, or take its trap, or wait. -/
def withAccess (s : State) (q : AccReq) (k : Target → State → Res) : Res :=
  match access s q with
  | .ok t s => k t s
  | .core cause badva tval => raise s cause badva tval
  | .home cause badva tval s => raiseHome s cause badva tval
  | .wait w s => stall s w

/-- As `withAccess`, in an operation that is a chunk of its own: a home fault is taken at once (R137). -/
def withClosing (s : State) (q : AccReq) (k : Target → State → Res) : Res :=
  match access s q with
  | .ok t s => k t s
  | .core cause badva tval => raise s cause badva tval
  | .home cause badva tval s => raiseClosing s cause badva tval
  | .wait w s => stall s w

/-- Resolve several accesses in order; all before any has an effect. -/
def withAccesses (s : State) : List AccReq → (List Target → State → Res) → Res
  | [], k => k [] s
  | q :: qs, k => withAccess s q (fun t s => withAccesses s qs (fun ts s => k (t :: ts) s))

/-! ## Loads (R99, R120) -/

/-- The newest store of the chunk that covers a byte. -/
def ownByte : List Store → Nat → Option Byte
  | [], _ => none
  | t :: ts, key => if t.pa ≤ key && key < t.pa + t.bytes.length then nth t.bytes (key - t.pa) else ownByte ts key

/-- R147: the chunk has executed an inval of the word: its loads return the home's value. -/
def discarded (c : Chunk) (va : Nat) : Bool := c.effects.any (fun e => match e with
  | .discard lo hi _ => lo ≤ va && va ≤ hi
  | _ => false)

/-- R206: the word of a region in the newest write-back that is on its way from the L2 of a die. -/
def flightWord (s : State) (die region w : Nat) : Option Word :=
  s.agenda.foldl (fun acc e => match e.2.2 with
    | .writeBack _ r f ws => if r == region && dieOfCore f.who == die then
        (match ws.find? (fun p => p.1 % 64 == w) with
          | some p => some p.2
          | none => acc) else acc
    | _ => acc) none

/-- R125, R197, R200: the word of an SW or CP region as the L2 slices of a die serve it: theirs, one that they have sent to the home,
or the home's. -/
def sliceWord (s : State) (die asid va region w : Nat) : Word :=
  match l2Word (dieAt s die) asid va w with
  | some x => x
  | none => match flightWord s die region w with
    | some x => x
    | none => memWord s.mem (region * 512 + 8 * w)

/-- The word of an SW or CP region as a core sees it: its L1's, or what its die's L2 serves. -/
def wordFor (s : State) (core asid va region w : Nat) : Word :=
  match l1Word (coreAt s core) asid va w with
  | some x => x
  | none => sliceWord s (dieOfCore core) asid va region w

/-- R200: the die whose L2 slices serve an access from another die to a page pinned there. -/
def servedBy (s : State) (t : Target) : Option Nat := if t.closes && t.place == 1 && t.space == .sw then pinDieOf s t.home t.key else none

/-- A committed byte as the core sees it: on SW and CP pages the word that its L1 holds, else memory (R125, R126). R373: the
ticket word is the reading context's. A never-cached access reads memory, or the pinning die's slices (R200). -/
def coreByte (s : State) (t : Target) (i : Nat) : Byte :=
  let l := s.cur
  let key := t.key + i
  let part : Word → Byte := fun w => BitVec.ofNat 8 (w.toNat / 2 ^ (8 * ((t.va + i) % 8)))
  if t.space == .engine && key / 8 * 8 == keyEngine (coreOf l) 0x418 then
    BitVec.ofNat 8 ((me s).ticket.toNat / 2 ^ (8 * (key % 8)))
  else if (t.space == .sw || t.space == .cp) && !t.closes && !discarded (me s).chunk (t.va + i) then
    part (wordFor s (coreOf l) t.asid (regionOf (t.va + i)) (key / 512) ((t.va + i) % 512 / 8))
  else match servedBy s t with
    | some die => part (sliceWord s die t.asid (regionOf (t.va + i)) (key / 512) ((t.va + i) % 512 / 8))
    | none => memGet s.mem key

/-- R120: what the chunk's load of `n` bytes returns. -/
def viewBytes (s : State) (t : Target) : Nat → List Byte
  | 0 => []
  | n + 1 => viewBytes s t n ++ [match ownByte (me s).chunk.stores (t.key + n) with
      | some b => b
      | none => coreByte s t n]

/-- The bytes of an access that are not the chunk's own touch a poisoned word (R211). -/
def viewPoisoned (s : State) (t : Target) (n : Nat) : Bool :=
  !t.sys && (List.range n).any (fun i =>
    (ownByte (me s).chunk.stores (t.key + i)).isNone && s.poison.contains ((t.key + i) / 8 * 8))

def homeBit (h : Nat) : BitVec 16 := (1 : BitVec 16) <<< h

/-- R101, R104: a load of `n` bytes enters R and the masks. -/
def markRead (c : Chunk) (t : Target) (n : Nat) : Chunk :=
  if t.space == .sw || t.closes then c
  else { c with
    r := c.r ||| sigRange t.asid t.va n,
    readHomes := if t.space == .hc || t.space == .pinned then c.readHomes ||| homeBit t.home else c.readHomes,
    sram := c.sram || t.space == .scratch || t.space == .cluster,
    pinned := c.pinned || t.space == .pinned }

/-- R101, R104: a store of `n` bytes enters W and the masks. -/
def markWrite (c : Chunk) (t : Target) (n : Nat) : Chunk :=
  if t.space == .sw || t.closes then c
  else { c with
    w := c.w ||| sigRange t.asid t.va n,
    writtenHomes := if t.space == .hc || t.space == .pinned then c.writtenHomes ||| homeBit t.home else c.writtenHomes,
    sram := c.sram || t.space == .scratch || t.space == .cluster,
    pinned := c.pinned || t.space == .pinned }

def cached (t : Target) : Bool := !t.closes && (t.space == .hc || t.space == .sw || t.space == .cp || t.space == .pinned)

def modeOf (t : Target) : CMode := if t.space == .sw then .sw else if t.space == .cp then .cp else .hc

/-- R202: filter bits of the sectors `lo / 8`..`hi / 8` of a region are set below die and home. -/
def recordFill (s : State) (core region lo hi : Nat) : State :=
  let secs := (List.range (hi / 8 + 1 - lo / 8)).map (fun i => region * 8 + lo / 8 + i)
  let s := modCluster s (clusterOfCore core) (fun c =>
    { c with filter := secs.foldl (fun f x => tblSet f x (tblGet f x 0 ||| ((1 : BitVec 8) <<< (core % 8)))) c.filter })
  modDie s (dieOfCore core) (fun d =>
    { d with filter := tblSet d.filter region (tblGet d.filter region 0 ||| ((1 : BitVec 48) <<< (clusterOfCore core % 64))) })

/-- R108, R196, R202: the live chunk of the executing context has read cached words: the filters and the home record it. -/
def markSharer (s : State) (t : Target) (n : Nat) : State :=
  if !cached t then s
  else
    let l := s.cur
    let x := (t.asid, regionOf t.va, t.key / 512, wordLo t.va, wordHi t.va n)
    let s := modMe s (fun c => { c with chunk := { c.chunk with reads := if c.chunk.reads.contains x then c.chunk.reads else x :: c.chunk.reads } })
    let s := recordFill s (coreOf l) (t.key / 512) (wordLo t.va) (wordHi t.va n)
    if t.space == .sw then s
    else modDir s t.home (t.key / 512) (fun d => { d with dies := d.dies ||| ((1 : BitVec 64) <<< dieOf l) })

/-- The data of a fill are on their way to the cache. -/
def sendFill (s : State) (f : FillReq) : State := post s 0 (if f.ext then .extensionArrival f else .fillArrival f)

/-- R192, R195, R199: the words of a fill are asked: those that the die's L2 holds from there; where it holds some, the smallest run of
the others, by the span rule, from the home, which extends the L2 too; where it holds none, all from the home. -/
def askWords (s : State) (f : FillReq) : State :=
  let die := dieOfCore f.core
  let d := dieAt s die
  let inL2 : Nat → Bool := fun w => (l2Find d f.asid f.va w).isSome
  let s := modDie s die (fun d => l2Touch d f.asid f.va f.first f.last)
  let held := wordRuns inL2 f.first f.last
  let s := held.foldl (fun t r => sendFill t { f with fromL2 := true, first := r.1, last := r.2 }) s
  match missingRun [] 8 f.asid f.va f.first f.last (fun w => !inL2 w) with
  | none => s
  | some (a, b) =>
    let g := { f with first := a, last := b, l2ext := !held.isEmpty }
    let w := if held.isEmpty then (a, b) else spanWords (coreAt s f.core) g
    match missingRun [] 8 f.asid f.va w.1 w.2 (fun w => !inL2 w) with
    | none => s
    | some (a, b) => post s 0 (.getS (f.region / 2 ^ 28) { g with first := a, last := b })

/-- R192, R195: of the words `lo`..`hi` of a region, those that satisfy `need` are asked when the L1 does not hold them: the smallest run
that covers them, by the span rule; the words held are served at once. -/
def askFill (s : State) (asid va region lo hi : Nat) (need : Nat → Bool) (sp : Span) : State :=
  let l := s.cur
  let co := coreAt s (coreOf l)
  match missingRun (l1Set co va) (l % 8) asid va lo hi need with
  | none => s
  | some (a, b) =>
    let ext := (List.range (hi + 1 - lo)).any (fun i => need (lo + i) && l1Has co (l % 8) asid va (lo + i))
    let f : FillReq := { core := coreOf l, ctx := l % 8, l2 := false, asid := asid, va := va, region := region, fromL2 := false, l2ext := false,
                         ext := ext, first := a, last := b, touch := lo, touchEnd := hi, span := sp, pcIdx := pcIndex (me s).regs.pc }
    let w := spanWords co f
    match missingRun (l1Set co va) (l % 8) asid va w.1 w.2 (fun _ => true) with
    | none => s
    | some (a, b) => askWords s { f with first := a, last := b }

/-- The words that the cached parts of an access touch, region by region: ASID, VA[55:9], physical region, first and last. -/
def touchedRegions (items : List (Target × Nat)) : List (Nat × Nat × Nat × Nat × Nat) :=
  (items.filter (fun i => cached i.1 && i.2 != 0)).foldl (fun acc i =>
    let x := (i.1.asid, regionOf i.1.va, i.1.key / 512)
    let lo := wordLo i.1.va
    let hi := wordHi i.1.va i.2
    if acc.any (fun e => (e.1, e.2.1, e.2.2.1) == x) then
      acc.map (fun e => if (e.1, e.2.1, e.2.2.1) == x then (e.1, e.2.1, e.2.2.1, min lo e.2.2.2.1, max hi e.2.2.2.2) else e)
    else acc ++ [(x.1, x.2.1, x.2.2, lo, hi)]) []

/-- The words of a region that some parts of an access touch, or that they cover whole. -/
def wordTouched (items : List (Target × Nat)) (asid va w : Nat) : Bool :=
  items.any (fun i => cached i.1 && i.1.asid == asid && regionOf i.1.va == va && wordLo i.1.va ≤ w && w ≤ wordHi i.1.va i.2)
def wordCovered (items : List (Target × Nat)) (asid va w : Nat) : Bool :=
  (List.range 8).all (fun k => items.any (fun i => cached i.1 && i.1.asid == asid && i.1.va ≤ va * 512 + 8 * w + k
    && va * 512 + 8 * w + k < i.1.va + i.2))

/-- R99: speculative loads of one instruction: they enter R, and the caches learn of them. -/
def loadEffects (s : State) (items : List (Target × Nat)) (sp : Span) : State :=
  let s := items.foldl (fun s i => markSharer (modMe s (fun c => { c with chunk := markRead c.chunk i.1 i.2 })) i.1 i.2) s
  (touchedRegions items).foldl (fun s e =>
    let s := modCore s (coreOf s.cur) (fun x => l1Touch x (s.cur % 8) e.1 e.2.1 (wordTouched items e.1 e.2.1))
    askFill s e.1 e.2.1 e.2.2.1 e.2.2.2.1 e.2.2.2.2 (wordTouched items e.1 e.2.1) sp) s

/-- A load inside the chunk: its bytes, and the state that has it in R. A poisoned word is MCHECK (R211). -/
def withLoad (s : State) (t : Target) (n : Nat) (sp : Span) (ea : Word) (k : List Byte → State → Res) : Res :=
  if viewPoisoned s t n then raiseHome s cMcheck ea 1
  else k (viewBytes s t n) (loadEffects s [(t, n)] sp)

/-! ## Blocks that leave an L1 (R191, R197) -/

/-- R204: cores of a die whose L1 holds dirty words of an HC region. -/
def dirtyCores (s : State) (die region : Nat) : List Nat :=
  (s.cores.filter (fun e => dieOfCore e.1 == die && (l1Blocks e.2).any (fun b =>
    b.writer.isNone && b.mode == .hc && b.region == region && b.dirty != 0))).map (fun e => e.1)
def dirtyL2 (s : State) (die region : Nat) : Bool :=
  (l2Blocks (dieAt s die)).any (fun b => b.mode == .hc && b.region == region && b.dirty != 0)

/-- R204: `who`, of a die, has given up dirty words of an HC region. When its L2 or an L1 holds others the owner is that holder, of which
the home learns; else the home is told of the write-back. -/
def ownerLeft (s : State) (die who : Nat) (b : Block) : State :=
  let home := b.region / 2 ^ 28
  match dirtyCores s die b.region with
  | k :: ks => if (k :: ks).contains who then s else post s 0 (.ownerMoveReport home b.region k)
  | [] =>
    if dirtyL2 s die b.region then (if who == die * 512 + 511 then s else post s 0 (.ownerMoveReport home b.region (die * 512 + 511)))
    else post s 0 (.writeBack home b.region ⟨who, b.asid, b.va⟩ [])

/-- A write-back from the L2 of a die goes to its home: dirty words of SW and CP pages with their values, and a mark of 64 on the
number of a word whose parity has failed (R211). -/
def sendHome (s : State) (die : Nat) (b : Block) : State :=
  if b.dirty = 0 then s
  else if b.mode == .hc then ownerLeft (poisonBad s b) die (die * 512 + 511) b
  else post s 0 (.writeBack (b.region / 2 ^ 28) b.region ⟨die * 512 + 511, b.asid, b.va⟩ (givenWords [b]))

/-- R147: words of the die's L2 that core `core` has made dirty again: a pending discard of another core keeps them. -/
def keepWords (s : State) (mine : Nat → Bool) (asid : Nat) (ws : List Nat) : State :=
  let one : Effect → Effect := fun e => match e with
    | .discard lo hi xs => .discard lo hi (xs.map (fun x => if ws.contains x.1 then (x.1, false) else x))
    | e => e
  { s with ctxs := tblMap (fun l c =>
      if mine l && asidOf c == asid then { c with chunk := { c.chunk with effects := c.chunk.effects.map one } } else c) s.ctxs }

/-- R125, R208: the SW blocks of a name in the L2 of a die are leased from now. -/
def leaseL2 (s : State) (die : Nat) (b : Block) : State :=
  if b.mode == .sw then postIn s Config.lease 0 (.leaseExpiry (die * 512 + 511) b.asid b.va) else s

/-- R197: a block that core `core`'s L1 evicts: its dirty words go to the L2 slice of the die, which may push out others in turn. -/
def leaveOne (s : State) (core : Nat) (b : Block) : State :=
  if b.writer.isSome || b.dirty = 0 then s
  else
    let die := dieOfCore core
    let p := l2Take die s.now (dieAt s die) b
    let s := leaseL2 (modDie s die (fun _ => p.1)) die b
    let s := p.2.foldl (fun t o => if o.mode == .hc && o.region == b.region then poisonBad t o else sendHome t die o) s
    if b.mode == .hc then ownerLeft s die core b
    else keepWords s (fun l => dieOf l == die && coreOf l != core) b.asid
      (((List.range 64).filter (fun w => b.dirty.getLsbD w)).map (fun w => b.va * 512 + 8 * w))

/-- R191: blocks that leave core `core`'s L1. -/
def leaveL1 (s : State) (core : Nat) (out : List Block) : State := out.foldl (fun t b => leaveOne t core b) s

/-! ## Stores (R98, R99, R196) -/

/-- R97: the deferred-effect buffer has no room for `n` more entries. -/
def effectsFull (c : Ctx) (n : Nat) : Bool := c.chunk.effects.length + c.undelivered + n > 32

/-- One store into the chunk. None when R98 forbids it: the chunk ends before it. -/
def storeOne (s : State) (t : Target) (bs : List Byte) : Option State :=
  let l := s.cur
  let n := bs.length
  let rec' : Store := { space := t.space, asid := t.asid, va := t.va, pa := t.key, bytes := bs }
  let s := modMe s (fun c =>
    let k := markWrite c.chunk t n
    { c with chunk := { k with stores := rec' :: c.chunk.stores } })
  if t.space == .engine then
    some (modMe s (fun c => { c with chunk := { c.chunk with effects := c.chunk.effects ++ [.engine (t.va % 2 ^ 48) bs] } }))
  else if cached t then
    let co := coreAt s (coreOf l)
    match l1SpecWrite co (Fin.ofNat 8 l) t.asid (regionOf t.va) (t.key / 512) (modeOf t) t.place (pcIndex (me s).regs.pc)
        (wordLo t.va) (wordHi t.va n) s.now with
    | none => none
    | some (co', out) =>
      if footprint co' (l % 8) > 16384 || footprintAll co' > 49152 then none
      else some (leaveL1 (setCore s (coreOf l) co') (coreOf l) out)
  else some s

/-- R192: the words that the stores of an instruction need from memory: those that they touch and do not cover. -/
def storeFills (s : State) (items : List (Target × Nat)) (sp : Span) : State :=
  (touchedRegions items).foldl (fun s e =>
    askFill s e.1 e.2.1 e.2.2.1 e.2.2.2.1 e.2.2.2.2 (fun w => wordTouched items e.1 e.2.1 w && !wordCovered items e.1 e.2.1 w) sp) s

/-- Several stores, in order. -/
def storeMany (s : State) : List (Target × List Byte) → Option State
  | [] => some s
  | (t, bs) :: rest =>
    match storeOne s t bs with
    | none => none
    | some s => storeMany s rest

/-- R98: without room the chunk ends before the store; when the store is the chunk's first, it stalls until other commits
free the space. -/
def noRoom (s : State) : Res := if chunkEmpty (me s) then stall s .room else endChunk s .resume

/-- Perform stores inside the chunk, then go on. `old` is the state in which nothing of the instruction has happened. -/
def withStores (old s : State) (sp : Span) (items : List (Target × List Byte)) (k : State → Res) : Res :=
  let engines := (items.filter (fun p => p.1.space == .engine)).length
  if engines > 0 && effectsFull (me s) engines then noRoom old
  else match storeMany (storeFills s (items.map (fun i => (i.1, i.2.length))) sp) items with
    | none => noRoom old
    | some s => k s

/-- R97: take one deferred-effect entry, or end the chunk before the operation. -/
def withEffect (old s : State) (e : Effect) (k : State → Res) : Res :=
  if effectsFull (me s) 1 then noRoom old
  else k (modMe s (fun c => { c with chunk := { c.chunk with effects := c.chunk.effects ++ [e] } }))

/-! ## Trailed stores (R141, R316) -/

/-- Stores are trailed now: the choice stack is not empty, and the thread is not in its trap handler. -/
def trailing (c : Ctx) : Bool := c.ctl.choice != c.ctl.choicebase && !tsOn c.ctl

/-- One spoor entry: the EA with its size code, and the aligned word before the store (R316). -/
structure Trail where
  ea : Word
  target : Target
  code : Nat

/-- R316, R318: the entries that are appended at c.spoor, oldest first; SPOOR_FULL is found before anything is written. -/
def withTrails (old : State) : List Trail → List (Target × List Byte) → State → (List (Target × List Byte) → State → Res) → Res
  | [], acc, s, k => k acc s
  | e :: es, acc, s, k =>
    let c := me s
    if c.ctl.spoor.toNat + 16 > c.ctl.spoorlim.toNat then raise old cSpoorFull c.ctl.spoor 0
    else
      let o := e.target.va % 8
      let al : Target := { e.target with key := e.target.key - o, va := e.target.va - o }
      let q := storeReq c.ctl.spoor 16
      match access s q with
      | .core cause badva tval => raise old cause badva tval
      | .home cause badva tval s' => raiseHome { s' with ctxs := old.ctxs, cores := old.cores } cause badva tval
      | .wait w s' => stall { s' with ctxs := old.ctxs, cores := old.cores } w
      | .ok t s' =>
        if viewPoisoned s' al 8 then raiseHome old cMcheck e.ea 1
        else
          let word0 : Word := (e.ea &&& ~~~7 &&& 0x00FFFFFFFFFFFFFF) ||| BitVec.ofNat 64 e.code
          let was := viewBytes s' al 8
          let s' := loadEffects (modMe s' (fun c => { c with ctl := { c.ctl with spoor := c.ctl.spoor + 16 } })) [(al, 8)] .pred
          withTrails old es (acc ++ [(t, wordBytes word0 ++ was)]) s' k

/-- R141: the entries that an instruction's stores append. -/
def trailsOf (s : State) (trails : List Trail) : List Trail :=
  if trailing (me s) then trails.filter (fun e => !(e.target.space == .engine || e.target.closes)) else []

end Sys2Proof.Machine
end

