-- ==== Sys2Proof/Machine/Direct.lean ====
section
/-! DEFINITION. Accesses that are a chunk of their own (R96): never-cached and remote pinned pages, host and peer memory
(R130, R200, R297), and single granted operations. -/

namespace Sys2Proof.Machine

/-! ## CRC of a DUP copy (R239) -/

/-- CRC-64/ECMA-182, one bit. -/
def crcBit (crc : BitVec 64) (b : Bool) : BitVec 64 :=
  if crc.getLsbD 63 != b then (crc <<< 1) ^^^ 0x42F0E1EBA9EA3693 else crc <<< 1

def crcByte (crc : BitVec 64) (b : Byte) : BitVec 64 := (List.range 8).foldl (fun c i => crcBit c (b.getLsbD (7 - i))) crc

/-- R239: the VA, one byte of size and the data. -/
def crcAccess (crc : BitVec 64) (va : Nat) (bs : List Byte) : BitVec 64 :=
  (natBytes 8 va ++ [BitVec.ofNat 8 bs.length] ++ bs).foldl crcByte crc

/-- DEDUCED (log 15): the VA that a copy's CRC takes: an address of the thread's own slot in its private form, and its SRAM
in the "here" form, which are the same in every copy. -/
def crcVa (c : Ctl) (space : Space) (va : Nat) : Nat :=
  if space == .scratch then 0x0020FFFE00000000 + va % 2 ^ 18
  else if space == .cluster then 0x0030FFF000000000 + va % 2 ^ 21
  else if c.privbase.toNat ≤ va && va < c.privbase.toNat + c.privlen.toNat then 0x0010000000000000 + (va - c.privbase.toNat)
  else va

/-- R239: the executing copy of a DUP group takes effect: copies B and C do not. -/
def takesEffect (s : State) : Bool := (me s).unit.dup < 2

/-- R239: a store that is a chunk of its own enters the copy's CRC. -/
def crcClosing (s : State) (t : Target) (bs : List Byte) : State :=
  if (me s).unit.dup = 0 then s
  else modMe s (fun c => { c with unit := { c.unit with crc := crcAccess c.unit.crc (crcVa c.ctl t.space t.va) bs } })

/-! ## The home of a granted operation -/

/-- The arbiters that order a committed operation on a target (R104, R200). -/
def targetArbs (s : State) (t : Target) : List Nat :=
  if t.space == .scratch || t.space == .cluster then [80 + 48 * dieOf s.cur + clusterOf s.cur % 64]
  else if t.space == .hc then [t.home]
  else if t.space == .pinned then
    (match pinDieOf s t.home t.key with
     | some d => [16 + d]
     | none => []) ++ [t.home]
  else []

/-- R101: the signature of `n` bytes of a target; SW and never-cached pages enter none. -/
def targetSig (t : Target) (n : Nat) : BitVec 1024 :=
  if t.space == .sw || (t.closes && t.space != .pinned) then 0 else sigRange t.asid t.va n

/-- R142: the word of an SW or CP page with some bytes replaced, as the core's L1 will hold it. -/
def mergeWord (s : State) (t : Target) (w : Nat) (bs : List Byte) : Word :=
  let va := t.va / 8 * 8 + 8 * w
  let one : Nat → Byte := fun i =>
    match (if t.va ≤ va + i then nth bs (va + i - t.va) else none) with
    | some b => b
    | none =>
      if va + i < t.va then coreByte s { t with key := t.key - (t.va - (va + i)), va := va + i } 0
      else coreByte s { t with key := t.key + (va + i - t.va), va := va + i } 0
  BitVec.ofNat 64 (leNat ((List.range 8).map one))

/-- R104, R142, R196: the words `a`..`z` of the region of block `b` become dirty words of core `core`'s L1; their pending discards
by other contexts of the core keep them (R147), and an SW block is leased (R208). -/
def dirtyRun (s : State) (core : Nat) (mine : Nat) (b : Block) (a z : Nat) (ws : List (Nat × Word)) : State :=
  let p := l1Dirty (coreAt s core) b a z ws
  let s := recordFill (setCore s core p.1) core b.region a z
  let s := keepWords s (fun l => coreOf l == core && l != mine) b.asid (ws.map (fun p => b.va * 512 + 8 * p.1))
  let s := if b.mode == .sw then postIn s Config.lease 0 (.leaseExpiry core b.asid b.va) else s
  leaveL1 s core p.2

/-- A block that stands for nothing yet, of the region of a target. -/
def freshBlock (s : State) (t : Target) (pcIdx : Nat) : Block :=
  { asid := t.asid, va := regionOf t.va, region := t.key / 512, start := 0, stop := 0, state := 4, specRead := 0, writer := none,
    pinned := false, off := 0, mode := modeOf t, place := t.place, dirty := 0, bad := 0, words := [], filled := s.now,
    pcIdx := pcIdx, first := wordLo t.va, lowest := 0, highest := 0 }

/-- R104, R125, R142: committed bytes of an SW or CP page become dirty words of the executing context's L1. -/
def putDirty (s : State) (t : Target) (bs : List Byte) : State :=
  let lo := wordLo t.va
  let hi := wordHi t.va bs.length
  dirtyRun s (coreOf s.cur) s.cur (freshBlock s t (pcIndex (me s).regs.pc)) lo hi
    ((List.range (hi + 1 - lo)).map (fun i => (lo + i, mergeWord s t i bs)))

/-- R200: a store from another die to an SW page pinned in the slices of die `die`: memory has the bytes, and so have the words that the
slices hold. -/
def storePinned (s : State) (t : Target) (die : Nat) (w : BitVec 1024) (bs : List Byte) : State :=
  let s := commitBytes (absorbFlight s (t.key / 512) (fun k => dieOfCore k == die)) w t.key bs
  let one : Block → Block := fun b =>
    if b.asid == t.asid && b.va == regionOf t.va then
      { b with words := b.words.map (fun p =>
          (p.1, BitVec.ofNat 64 (leNat ((List.range 8).map (fun i =>
            let a := b.va * 512 + 8 * p.1 + i
            match (if t.va ≤ a then nth bs (a - t.va) else none) with
            | some x => x
            | none => BitVec.ofNat 8 (p.2.toNat / 2 ^ (8 * i))))))) }
    else b
  modDie s die (fun d => l2Map d (fun b => some (one b)))

/-- One committed store by the executing context, at one point of package order; that of a copy B or C has no effect (R239). -/
def storeNow (s : State) (t : Target) (bs : List Byte) : State :=
  let s := crcClosing s t bs
  if !takesEffect s then s
  else if (t.space == .sw || t.space == .cp) && !t.closes then
    let s := putDirty s t bs
    if t.space == .cp then squashMeeting s (targetSig t bs.length) (fun l => coreOf l == coreOf s.cur && l != s.cur) else s
  else match servedBy s t with
    | some die => storePinned s t die (targetSig t bs.length) bs
    | none => commitBytes s (targetSig t bs.length) t.key bs

/-- R105, R111: may a granted operation on the target be performed now? -/
def mayCommit (s : State) (t : Target) (r w : BitVec 1024) : Bool :=
  (targetArbs s t).all (fun a => !refuses s a (some s.cur) r w) && !heldBlocks s s.cur w

/-! ## Cache operations on local copies (R146, R198) -/

/-- Word `w` of a block lies in a range. -/
def wordIn (lo hi : Nat) (b : Block) (w : Nat) : Bool := lo ≤ b.va * 512 + 8 * w && b.va * 512 + 8 * w ≤ hi

/-- The block is a local copy of the range under the ASID. -/
def inRangeOp (asid lo hi : Nat) (b : Block) : Bool :=
  b.writer.isNone && b.asid == asid && lo ≤ b.va * 512 + 8 * b.stop + 7 && b.va * 512 + 8 * b.start ≤ hi

/-- R146, R198: of the local copies that `touched` picks, only the words that satisfy `keep` stay. -/
def cutCopies (s : State) (core : Nat) (touched : Block → Bool) (keep : Block → Nat → Bool) : State :=
  let f : Block → Option (Nat → Bool) := fun b => if touched b then some (keep b) else none
  let p := l1Cut (coreAt s core) f
  let s := leaveL1 (setCore s core p.1) core p.2
  let die := dieOfCore core
  let q := l2Cut die (dieAt s die) f
  q.2.foldl (fun t b => sendHome t die b) (modDie s die (fun _ => q.1))

/-- The local copies of a core: those of its L1 and of its die's L2, each with its holder (R203). -/
def localCopies (s : State) (core : Nat) : List (Nat × Block) :=
  (l2Blocks (dieAt s (dieOfCore core))).map (fun b => (dieOfCore core * 512 + 511, b))
    ++ ((l1Blocks (coreAt s core)).filter (fun b => b.writer.isNone)).map (fun b => (core, b))

/-- R146, R204, R211: of the local copies that `touched` picks only the words that satisfy `keep` stay. An HC word whose parity has
failed is poisoned as it is written back, and a holder that gives up the last dirty word of an HC region tells the home. -/
def giveUp (s : State) (core : Nat) (touched : Block → Bool) (keep : Block → Nat → Bool) : State :=
  let mine := (localCopies s core).filter (fun p => touched p.2 && p.2.mode == .hc && p.2.dirty != 0)
  let s := mine.foldl (fun t p => poisonBad t { p.2 with bad := maskWords (fun w => !keep p.2 w) p.2.bad }) s
  let s := cutCopies s core touched keep
  let still : Nat × Block → Bool := fun p => (localCopies s core).any (fun q => q.1 == p.1 && q.2.region == p.2.region && q.2.dirty != 0)
  (mine.filter (fun p => !still p)).foldl (fun t p => post t 0 (.writeBack (p.2.region / 2 ^ 28) p.2.region ⟨p.1, p.2.asid, p.2.va⟩ [])) s

/-! ## System scope (R130) -/

def sysOpsOf (s : State) (l : Nat) (write : Bool) : List (Nat × SysOp) :=
  s.sysOps.filter (fun p => p.2.loc == l && p.2.write == write)

/-- Begin a system-scope access of `n` bytes at offset `o` of a target: a request leaves the package, and its completion will come. -/
def sysBegin (s : State) (t : Target) (o n : Nat) (write : Bool) (bs : List Byte) : State :=
  let id := s.nextOp
  let op : SysOp := { loc := s.cur, asid := t.asid, va := t.va + o, addr := t.key + o, n := n, io := t.io, write := write, bytes := bs,
                      answer := none }
  let s := { s with sysOps := tblSet s.sysOps id op, nextOp := id + 1 }
  let s := modMe s (fun c => { c with sysOut := c.sysOut ++ [id] })
  let s := if write then modIo s (fun io => { io with out := io.out ++ [.write (t.key + o) bs] }) else s
  post s 0 (.systemScopeCompletion id (Config.outside s.tick (2 ^ 32 + id)))

/-- The aligned 8-byte pieces of an access of `n` bytes: offsets and lengths (R123). -/
def sysPieces (n : Nat) : List (Nat × Nat) :=
  if n ≤ 8 then [(0, n)] else (List.range (n / 8)).map (fun i => (8 * i, 8))

/-- R130, R131 (a): a write of the thread to the same aligned 8 bytes is not complete. -/
def sysBusy (s : State) (addr : Nat) : Bool := (sysOpsOf s s.cur true).any (fun p => p.2.addr / 8 == addr / 8)

def dropReads (s : State) : State :=
  let ids := (sysOpsOf s s.cur false).map (fun p => p.1)
  let s := { s with sysOps := s.sysOps.filter (fun p => !ids.contains p.1) }
  modMe s (fun c => { c with sysOut := c.sysOut.filter (fun i => !ids.contains i) })

/-- System-scope reads of an instruction: asked once, and all answered before the instruction goes on. The values come from
outside the package (free). -/
def sysRead (s : State) (items : List (Target × Nat)) (k : List Byte → State → Res) : Res :=
  let pieces := (items.map (fun i => (sysPieces i.2).map (fun p => (i.1, p.1, p.2)))).flatten
  let mine := sysOpsOf s s.cur false
  if mine.isEmpty && !pieces.isEmpty then
    if pieces.any (fun p => sysBusy s (p.1.key + p.2.1)) then stall s (.sys 0)
    else stall (pieces.foldl (fun u p => sysBegin u p.1 p.2.1 p.2.2 false []) s) (.sys 0)
  else if mine.all (fun p => p.2.answer.isSome) then
    k ((mine.map (fun p => natBytes p.2.n ((p.2.answer.getD 0).toNat))).flatten) (dropReads s)
  else stall s (.sys 0)

/-- System-scope writes: they leave at once, but for those of a copy that takes no effect (R239); the thread's later writes to the same
8 bytes wait. -/
def sysWrite (s : State) (items : List (Target × List Byte)) (k : State → Res) : Res :=
  let pieces := (items.map (fun i => (sysPieces i.2.length).map (fun p => (i.1, p.1, (i.2.drop p.1).take p.2)))).flatten
  if pieces.any (fun p => sysBusy s (p.1.key + p.2.1)) then stall s (.sys 0)
  else
    let s := items.foldl (fun u i => crcClosing u i.1 i.2) s
    k (if takesEffect s then pieces.foldl (fun u p => sysBegin u p.1 p.2.1 p.2.2.length true p.2.2) s else s)

/-! ## Loads and stores of either kind -/

/-- How the instruction is done: a closing access is a chunk of its own. -/
def finishAny (closing : Bool) (s : State) (r : Regs) (pc : Word) : Res :=
  if closing then finishClosingAt s r pc else finishAt s r pc

/-- The one of the words `w`, `w + 1` that is held, clean, without the other. -/
def lonely (find : Nat → Option Block) (w : Nat) : Option Nat :=
  match find w, find (w + 1) with
  | some b, none => if b.dirty.getLsbD w then none else some w
  | none, some b => if b.dirty.getLsbD (w + 1) then none else some (w + 1)
  | _, _ => none

/-- All words but `x` of the non-speculative blocks of a name. -/
def allBut (asid va x : Nat) (b : Block) : Option (Nat → Bool) :=
  if b.writer.isNone && holds b asid va x then some (fun w => w != x) else none

/-- R123, DEDUCED (log 84): the two words of an ldp of an SW page come from one place: a clean word that a cache holds without the
other is dropped there. -/
def unsplit (s : State) (t : Target) (n : Nat) : State :=
  if !(t.space == .sw && !t.closes && n == 16) then s
  else
    let core := coreOf s.cur
    let die := dieOfCore core
    let va := regionOf t.va
    let s := match lonely (l1Find (coreAt s core) t.asid va) (wordLo t.va) with
      | none => s
      | some x =>
        let p := l1Cut (coreAt s core) (allBut t.asid va x)
        leaveL1 (setCore s core p.1) core p.2
    match lonely (l2Find (dieAt s die) t.asid va) (wordLo t.va) with
    | none => s
    | some x =>
      let p := l2Cut die (dieAt s die) (allBut t.asid va x)
      p.2.foldl (fun t b => sendHome t die b) (modDie s die (fun _ => p.1))

/-- Loads of an instruction: `items` are targets with their lengths and addresses; the bytes come concatenated. -/
def loadAll (s : State) (sp : Span) (items : List (Target × Nat × Word)) (k : Bool → List Byte → State → Res) : Res :=
  if items.any (fun i => i.1.closes) then
    closing s (fun s => match items.find? (fun i => viewPoisoned s i.1 i.2.1) with
      | some i => raiseClosing s cMcheck i.2.2 1
      | none =>
        let sys := (items.filter (fun i => i.1.sys)).map (fun i => (i.1, i.2.1))
        sysRead s sys (fun got s =>
          k true (items.foldl (fun (acc : List Byte × List Byte) i =>
            if i.1.sys then (acc.1 ++ acc.2.take i.2.1, acc.2.drop i.2.1)
            else (acc.1 ++ viewBytes s i.1 i.2.1, acc.2)) ([], got)).1 s))
  else match items.find? (fun i => viewPoisoned s i.1 i.2.1) with
    | some i => raiseHome s cMcheck i.2.2 1
    | none =>
      let s := items.foldl (fun u i => unsplit u i.1 i.2.1) s
      let bs := (items.map (fun i => viewBytes s i.1 i.2.1)).flatten
      k false bs (loadEffects s (items.map (fun i => (i.1, i.2.1))) sp)

/-- Perform stores of an instruction. `old` is the state before the instruction. -/
def putStores (old s : State) (sp : Span) (items : List (Target × List Byte)) (k : Bool → State → Res) : Res :=
  if items.any (fun i => i.1.closes) then
    closing old (fun _ =>
      let near := items.filter (fun i => !i.1.sys)
      if near.all (fun i => mayCommit s i.1 0 (targetSig i.1 i.2.length)) then
        sysWrite s (items.filter (fun i => i.1.sys)) (fun s => k true (near.foldl (fun t i => storeNow t i.1 i.2) s))
      else stall old .arb)
  else withStores old s sp items (k false)

/-- Stores of an instruction, with the spoor entries that they append first (R141, R316). -/
def storeAll (old s : State) (sp : Span) (trails : List Trail) (items : List (Target × List Byte)) (k : Bool → State → Res) : Res :=
  withTrails old (trailsOf s trails) [] s (fun extra s => putStores old s sp (extra ++ items) k)

/-- The size code of a spoor entry (R316). -/
def sizeCode (n : Nat) : Nat := if n = 1 then 0 else if n = 2 then 1 else if n = 4 then 2 else 3

end Sys2Proof.Machine
end

