-- ==== Sys2Proof/Machine/LoadStore.lean ====
section
/-! DEFINITION. Loads, stores and range operations (spec/08 R136–R147). -/

namespace Sys2Proof.Machine

/-- R136: EA = Src(base) + SignExt(off, w) × n. -/
def eaOf {w : Nat} (s : State) (b : Src) (o : BitVec w) (n : Nat) : Word := src s b + o.signExtend 64 * BitVec.ofNat 64 n

/-- One load of `n` bytes. -/
def loadOne (s : State) (q : AccReq) (sp : Span) (k : Bool → List Byte → State → Res) : Res :=
  withAccess s q (fun t s => loadAll s sp [(t, q.n, q.ea)] k)

/-- One store, trailed when `trail` is set. -/
def storeOf (s : State) (q : AccReq) (sp : Span) (bs : List Byte) (trail : Bool) (k : Bool → State → Res) : Res :=
  withAccess s q (fun t s' =>
    storeAll s s' sp (if trail then [{ ea := q.ea, target := t, code := sizeCode q.n }] else []) [(t, bs)] k)

/-- Push one value after a load. -/
def loadPush (d : Dest) (f : List Byte → Word) (closing : Bool) (bs : List Byte) (s : State) : Res :=
  let r := (me s).regs
  finishAny closing s (push r d (f bs)) (r.pc + 4)

def storeDone (closing : Bool) (s : State) : Res := finishAny closing s (me s).regs ((me s).regs.pc + 4)

/-- R139. -/
def execLd (b : Src) (d : Dest) (z : Size) (p : Span) (o : BitVec 11) (s : State) : Res :=
  loadOne s (loadReq (eaOf s b o (sizeN z)) (sizeN z)) p
    (loadPush d (fun bs => signExt (BitVec.ofNat 64 (leNat bs)) (8 * sizeN z)))

def execLz (b : Src) (d : Dest) (z : Size) (p : Span) (o : BitVec 11) (s : State) : Res :=
  loadOne s (loadReq (eaOf s b o (sizeN z)) (sizeN z)) p (loadPush d (fun bs => BitVec.ofNat 64 (leNat bs)))

/-- R139, R141. The span hint of a store says which words its fill brings, and changes no value (R140, R192). -/
def execSt (b r : Src) (z : Size) (p : Span) (o : BitVec 11) (s : State) : Res :=
  storeOf s (storeReq (eaOf s b o (sizeN z)) (sizeN z)) p (natBytes (sizeN z) (src s r).toNat) true storeDone

/-- R192: st.nt fills as span=pred. -/
def execStNt (b r : Src) (z : Size) (o : BitVec 11) (s : State) : Res :=
  storeOf s (storeReq (eaOf s b o (sizeN z)) (sizeN z)) .pred (natBytes (sizeN z) (src s r).toNat) false storeDone

/-- R143: two pushes, the word at +0 first. -/
def execLdp (b : Src) (d : Dest) (p : Span) (o : BitVec 11) (s : State) : Res :=
  loadOne s (loadReq (eaOf s b o 16) 16) p (fun cl bs s =>
    let r := (me s).regs
    let r1 := push r .push (BitVec.ofNat 64 (leNat (bs.take 8)))
    finishAny cl s (push r1 d (BitVec.ofNat 64 (leNat (bs.drop 8)))) (r.pc + 4))

/-- R143, R141: two spoor entries, one per 8-byte word. -/
def execStp (a b c : Src) (o : BitVec 5) (s : State) : Res :=
  let ea := eaOf s a o 16
  withAccess s (storeReq ea 16) (fun t s' =>
    let hi : Target := { t with key := t.key + 8, va := t.va + 8 }
    storeAll s s' .pred [{ ea := ea, target := t, code := 3 }, { ea := ea + 8, target := hi, code := 3 }]
      [(t, wordBytes (src s b) ++ wordBytes (src s c))] storeDone)

/-! ## Range operations (R145–R147) -/

/-- The last byte of a range, rounded outward to whole words. -/
def rangeEnd (ea : Nat) (len : Nat) : Nat := (ea + len - 1) / 8 * 8 + 7

/-- R147: pref asks for fills of at most the first 64 KiB; it never faults and never waits. It passes the remap filter as a load
does (R182); a region whose other names must be recalled first is not fetched. span=sector rounds out to sectors, and span=region
fetches the region. A page pinned in another die's slices is never cached here (R200). -/
def prefRegion (s : State) (sp : Span) (va lo hi : Nat) : State :=
  let asid := asidOf (me s)
  let h := homeOf va
  if !isGlobal va then s
  else match walk s asid va with
    | .error _ => s
    | .ok lf =>
      if (leafFault s lf va needR (isUser (me s))).isSome || pteSystem lf.pte || ptePlace lf.pte == 3 then s
      else
        let pa := leafAddr lf va
        let s := if pteMode lf.pte == 2 then claimCp s h pa asid va (coreOf s.cur) else s
        let s := if ptePlace lf.pte == 1 then claimPin s h pa asid va (dieOf s.cur) else s
        if pteMode lf.pte == 2 && (cpOwnerOf s h pa).any (· != coreOf s.cur) then s
        else if ptePlace lf.pte == 1 && (pinDieOf s h pa).any (· != dieOf s.cur) then s
        else match throughFilter s h asid false [(pa / 512, regionOf va)] with
          | (none, s) => s
          | (some s, _) =>
            let s := if (tlbFind s asid va).isSome then s else post s 0 (.pageWalk h asid (pageOf va) false)
            match sp with
            | .region => askFill s asid (regionOf va) (pa / 512) 0 63 (fun _ => true) .words
            | .sector => askFill s asid (regionOf va) (pa / 512) (lo / 8 * 8) (hi / 8 * 8 + 7) (fun _ => true) .words
            | sp => askFill s asid (regionOf va) (pa / 512) lo hi (fun _ => true) sp

def execPref (b l : Src) (p : Span) (s : State) : Res :=
  let ea := src s b
  let len := min (src s l).toNat 65536
  let cls := ptrClass s.cur ea
  let c := me s
  if len = 0 || !(cls == 8 || (cls == 1 && fld ea 47 0 + len ≤ c.ctl.privlen.toNat)) then finish s c.regs
  else
    let lo := (if cls == 1 then privAlias c.ctl (fld ea 47 0) else ea.toNat) / 8 * 8
    let hi := rangeEnd lo (len + ea.toNat % 8)
    let s' := (List.range (hi / 512 - lo / 512 + 1)).foldl (fun t i =>
      let base := (lo / 512 + i) * 512
      prefRegion t p base (if base < lo then (lo - base) / 8 else 0) (if hi < base + 511 then (hi - base) / 8 else 63)) s
    finish s' (me s').regs

/-- R145: check one page of a range: a fault cause with the page, or the walk that must be made first. -/
inductive PageCheck where
  | ok | fault (cause : Nat) (va : Nat) | walk (va : Nat)
  /-- the home of the page is paused (R306) -/
  | held (h : Nat)
deriving DecidableEq, Repr

/-- One page: it is skipped when its walk finds no valid leaf. DEDUCED (log 63): a walk that ends with MAP_HOME at a non-leaf entry
raises it. A leaf whose accessed bit, or for inval dirty bit, is 0 is walked by the home, which sets it (R179). -/
def checkPage (s : State) (need : Need) (lo hi va : Nat) : PageCheck :=
  let asid := asidOf (me s)
  if (homeAt s (homeOf va)).paused then .held (homeOf va)
  else match walk s asid va with
  | .error c => if c = cNotPresent then .ok else .fault c va
  | .ok lf =>
    if !pteAccessed lf.pte || (need.w && !pteDirty lf.pte) then .walk va
    else match leafFault s lf va need (isUser (me s)) with
      | some c => .fault c va
      | none => if cpForeign s (coreOf s.cur) lf va lo hi then .fault cCpForeign va else .ok

/-- The first page of `n` pages from `va` that does not pass. -/
def checkPages (check : Nat → PageCheck) (lo : Nat) : Nat → PageCheck
  | 0 => .ok
  | n + 1 => match checkPages check lo n with
    | .ok => check (if n = 0 then lo else (lo / 65536 + n) * 65536)
    | x => x

/-- R145, R146: the checks of flush, clean and inval over a range; then `k` with the global bytes lo..hi (lo > hi where the
range lies in another window). DEDUCED (log 63): a range that would reach 2^56 does not lie in one window, also where it is the
alias of a private range. -/
def rangeOp (s : State) (b l : Src) (need : Need) (k : Nat → Nat → State → Res) : Res :=
  let ea := src s b
  let len := (src s l).toNat
  let c := me s
  let cls := ptrClass s.cur ea
  let tv := kindWord 3
  if len = 0 then finish s c.regs
  else if cls == 8 || cls == 1 then
    if cls == 1 && fld ea 47 0 + len > c.ctl.privlen.toNat then raise s cWindow ea tv
    else
      let lo := if cls == 1 then privAlias c.ctl (fld ea 47 0) else ea.toNat
      if lo + len > 2 ^ 56 then raise s cWindow ea tv
      else match watchHit s (asidOf c) lo len [60, 61] with
        | some i => raise s cWatch ea (BitVec.ofNat 64 (16 * i) ||| tv)
        | none =>
          let lo := lo / 8 * 8
          let hi := rangeEnd lo (len + ea.toNat % 8)
          match checkPages (checkPage s need lo hi) lo (hi / 65536 - lo / 65536 + 1) with
          | .ok => k lo hi s
          | .fault cause va => raiseHome s cause (ea - BitVec.ofNat 64 (ea.toNat % 8) + BitVec.ofNat 64 (va - lo)) tv
          | .held h => stall s (.home h)
          | .walk va =>
            stall (postOnce s 0 (.pageWalk (homeOf va) (asidOf c) (pageOf va) need.w)) (.walk (homeOf va) (asidOf c) (pageOf va))
  else
    let q : AccReq := { loadReq (ea - BitVec.ofNat 64 (ea.toNat % 8)) (rangeEnd ea.toNat len + 1 - ea.toNat / 8 * 8) with align := 1, kind := 3 }
    withAccess s q (fun _ s => k 1 0 s)

/-- R146: flush. -/
def execFlush (b l : Src) (s : State) : Res :=
  rangeOp s b l needR (fun lo hi s' => withEffect s s' (.writeBack lo hi true) (fun s => finish s (me s).regs))

/-- R146: clean. -/
def execClean (b l : Src) (s : State) : Res :=
  rangeOp s b l needR (fun lo hi s' => withEffect s s' (.writeBack lo hi false) (fun s => finish s (me s).regs))

/-- The word VAs of a block's dirty words in a range. -/
def dirtyVas (lo hi : Nat) (b : Block) : List Nat :=
  (((List.range 64).filter (fun w => b.dirty.getLsbD w)).map (fun w => b.va * 512 + 8 * w)).filter (fun va => lo ≤ va && va ≤ hi)

/-- R146, R147: the dirty words of the local copies in a range: the core's L1 and its die's L2. -/
def dirtyIn (s : State) (core asid lo hi : Nat) : List Nat :=
  dedup ((((l1Blocks (coreAt s core)).filter (fun b => b.writer.isNone) ++ l2Blocks (dieAt s (dieOfCore core))).filter
    (fun b => b.asid == asid)).map (dirtyVas lo hi)).flatten

/-- R147: clean copies in a range are dropped at once. -/
def dropClean (s : State) (core asid lo hi : Nat) : State :=
  cutCopies s core (inRangeOp asid lo hi)
    (fun b w => b.dirty.getLsbD w || b.va * 512 + 8 * w < lo || hi < b.va * 512 + 8 * w)

/-- R147: the chunk's own earlier stores to SW or CP words of the range are discarded: what is left of one store. -/
def cutStore (asid lo hi : Nat) (t : Store) : List Store :=
  let n := t.bytes.length
  if t.asid != asid || !(t.space == .sw || t.space == .cp) || t.va + n ≤ lo || hi < t.va then [t]
  else
    (if t.va < lo then [{ t with bytes := t.bytes.take (lo - t.va) }] else [])
      ++ (if hi + 1 < t.va + n then
        [{ t with va := hi + 1, pa := t.pa + (hi + 1 - t.va), bytes := t.bytes.drop (hi + 1 - t.va) }] else [])

/-- R147: inval. -/
def execInval (b l : Src) (s : State) : Res :=
  rangeOp s b l needW (fun lo hi s' =>
    let asid := asidOf (me s')
    let core := coreOf s'.cur
    let ws := if hi < lo then [] else dirtyIn s' core asid lo hi
    withEffect s s' (.discard lo hi (ws.map (fun w => (w, true)))) (fun s =>
      let s := if hi < lo then s else dropClean s core asid lo hi
      let s := modMe s (fun c => { c with chunk := { c.chunk with stores := (c.chunk.stores.map (cutStore asid lo hi)).flatten } })
      finish s (me s).regs))

end Sys2Proof.Machine
end

