-- ==== Sys2Proof/Machine/Replay.lean ====
section
/-! DEFINITION. Deterministic replay (R117, R118): an arbiter's ring of commit records. -/

namespace Sys2Proof.Machine

def replayOn (c : Ctx) : Bool := bit c.ctl.replay 0

/-- What an arbiter finds at its descriptor. -/
inductive Ring where
  /-- recording is off: the ASID has no replay table -/
  | off
  /-- R118: the descriptor cannot be read, or is malformed -/
  | bad (va : Nat)
  | busy
  | full
  | room (va base n w r : Nat)
deriving DecidableEq, Repr

/-- R118: the descriptor of arbiter `arb` in the ASID's replay table. -/
def ringOf (s : State) (asid arb : Nat) : Ring :=
  let table := asidWord s asid 0x20
  if table = 0 then .off
  else
    let va := (table + BitVec.ofNat 64 (32 * arb)).toNat
    match hwRead s asid va 32 true with
    | .retry => .busy
    | .fault _ _ => .bad va
    | .ok bs _ =>
      let ws := wordsOf bs
      let lg := fld (wordAt ws 1) 5 0
      if fld (wordAt ws 0) 15 0 != 0 || fld (wordAt ws 1) 63 6 != 0 || lg < 4 || lg > 24 then .bad va
      else if (wordAt ws 2 - wordAt ws 3).toNat = 2 ^ lg then .full
      else .room va (fld (wordAt ws 0) 63 16 * 65536) (2 ^ lg) (wordAt ws 2).toNat (wordAt ws 3).toNat

/-- Records of an ASID that an arbiter has still to append. -/
def pendingRecords (s : State) (asid arb : Nat) : Nat := ((arbAt s arb).records.filter (fun r => r.asid == asid)).length

/-- R118: recording is on for the ASID at an arbiter. -/
def recording (s : State) (asid arb : Nat) : Bool := asidWord s asid 0x20 != 0 && !(arbAt s arb).disabled.contains asid

/-- R118: a bad descriptor disables recording at the arbiter, with an event that names it. -/
def ringBad (s : State) (asid arb va : Nat) : State :=
  badEvent (modArb s arb (fun a => { a with disabled := asid :: a.disabled, records := a.records.filter (fun r => r.asid != asid) })) asid 2
    (BitVec.ofNat 64 va) (BitVec.ofNat 64 arb) []

/-- R118: a full ring refuses the replay-enabled requests of its ASID. DEDUCED (log 58): records that are not appended yet fill it
too. -/
def ringRefuses (s : State) (asid arb : Nat) (replay : Bool) : Bool :=
  replay && recording s asid arb && (match ringOf s asid arb with
    | .full | .busy => true
    | .room _ _ n w r => n ≤ w - r + pendingRecords s asid arb
    | _ => false)

/-- R118: QUEUE_STALL, once until the ring has room again; a bad descriptor disables recording. -/
def ringStall (s : State) (asid arb : Nat) (replay : Bool) : State :=
  if !replay || !recording s asid arb then s
  else match ringOf s asid arb with
    | .full =>
      if (arbAt s arb).stalled.contains asid then s
      else
        event (modArb s arb (fun a => { a with stalled := asid :: a.stalled })) asid 0 cQueueStall
          (asidWord s asid 0x20 + BitVec.ofNat 64 (32 * arb)) (BitVec.ofNat 64 arb) []
    | .bad va => ringBad s asid arb va
    | _ => s

/-- R117: the two words of a record. -/
def recordBytes (x : ReplayRec) : List Byte :=
  wordBytes (BitVec.ofNat 64 (x.num * 2 ^ 32 + x.asid * 2 ^ 18 + x.loc)) ++ wordBytes (BitVec.ofNat 64 (x.count % 2 ^ 14))

/-- A write of a record that no arbiter holds back. -/
def recordWrite (s : State) (asid va : Nat) (bs : List Byte) : Hw Unit :=
  match hwAddr s asid va true true with
  | .ok pa s => .ok () (hwCommit s (sigRange asid va bs.length) pa bs)
  | .fault c s => .fault c s
  | .retry => .retry

/-- R117: arbiter `arb` appends a record to its ring. DESIGN CHOICE (log 66): a slot or an index that cannot be written disables
recording as a bad descriptor does. None: the home must be asked again. -/
def appendRecord (s : State) (x : ReplayRec) (arb : Nat) : Option State :=
  match ringOf s x.asid arb with
  | .room va base n w _ =>
    (match recordWrite s x.asid (base + 16 * (w % n)) (recordBytes x) with
     | .retry => none
     | .fault _ s => some (ringBad s x.asid arb va)
     | .ok _ s =>
       let s := modArb s arb (fun a => { a with stalled := a.stalled.filter (· != x.asid) })
       match recordWrite s x.asid (va + 0x10) (wordBytes (BitVec.ofNat 64 (w + 1))) with
       | .retry => none
       | .fault _ s => some (ringBad s x.asid arb va)
       | .ok _ s => some s)
  | .bad va => some (ringBad s x.asid arb va)
  | .off => some s
  | _ => none

/-- The unit number of an arbiter that has records to append. -/
def arbUnit (arb : Nat) : Nat := 2 ^ 52 + arb

/-- R117: the first records of each ASID, in grant order, up to one whose commit is not complete, are appended; one that cannot be
written yet is tried again after 256 ns. -/
def drainRecords (s : State) (arb : Nat) : Nat → State
  | 0 => s
  | n + 1 =>
    let rs := (arbAt s arb).records
    let ready := rs.find? (fun r => r.waitsFor.isNone && (rs.find? (fun x => x.asid == r.asid)) == some r)
    match ready with
    | none => s
    | some r => match appendRecord s r arb with
      | none => postInOnce s Config.cycles256ns (arbUnit arb) .ringRetry
      | some s => drainRecords (modArb s arb (fun a => { a with records := a.records.erase r })) arb n
where
  /-- The retry is asked for once. -/
  postInOnce (s : State) (d u : Nat) (i : Instr) : State :=
    if s.agenda.any (fun e => e.2.1 == u && e.2.2 == i) then s else postIn s d u i

/-- R117: an arbiter that grants a replay-enabled commit owes a record. -/
def oweRecord (s : State) (arb : Nat) (x : ReplayRec) : State :=
  if recording s x.asid arb then modArb s arb (fun a => { a with records := a.records ++ [x] }) else s

/-- R117: the commit is complete: its records are due. -/
def recordsDue (s : State) (cid : Nat) (arbs : List Nat) : State :=
  arbs.foldl (fun t a =>
    let t := modArb t a (fun x => { x with records := x.records.map (fun r => if r.waitsFor == some cid then { r with waitsFor := none } else r) })
    drainRecords t a (arbAt t a).records.length) s

/-- R96, R117: a closing operation that takes a grant: it waits while an arbiter refuses, and is recorded when it is done. -/
def withGrant (s : State) (arbs : List Nat) (r w : BitVec 1024) (k : State → Res) : Res :=
  let c := me s
  let s := arbs.foldl (fun t a => ringStall t (asidOf c) a (replayOn c)) s
  if arbs.any (fun a => refuses s a (some s.cur) r w || ringRefuses s (asidOf c) a (replayOn c)) then stall s .arb
  else k s

/-- R117: the records of a closing operation. -/
def recordClosing (s : State) (arbs : List Nat) : State :=
  let c := me s
  if replayOn c then
    arbs.foldl (fun t a =>
      let t := oweRecord t a { waitsFor := none, asid := asidOf c, loc := s.cur, num := c.chunk.num, count := 1 }
      drainRecords t a (arbAt t a).records.length) s
  else s

end Sys2Proof.Machine
end

