-- ==== Sys2Proof/Machine/Atomics.lean ====
section
/-! DEFINITION. Near and far atomics (spec/08 R148–R152). -/

namespace Sys2Proof.Machine

/-- R148: old OP x on 64 bits or on 32. -/
def amoBits {n : Nat} (op : AmoOp) (old x : BitVec n) : BitVec n :=
  match op with
  | .add => old + x
  | .and => old &&& x
  | .or => old ||| x
  | .xor => old ^^^ x
  | .min => if x.slt old then x else old
  | .max => if old.slt x then x else old
  | .minz => if x.ult old then x else old
  | .maxz => if old.ult x then x else old
  | .swap => x

/-- The new bytes of an atomic of `n` = 4 or 8 bytes. -/
def amoNew (w : Bool) (op : AmoOp) (old : Nat) (x : Word) : List Byte :=
  if w then natBytes 4 (amoBits op (BitVec.ofNat 32 old) (lo32 x)).toNat
  else natBytes 8 (amoBits op (BitVec.ofNat 64 old) x).toNat

/-- The old value as it is pushed. -/
def amoOld (w : Bool) (old : Nat) : Word := if w then sx32 (BitVec.ofNat 32 old) else BitVec.ofNat 64 old

def farAmo : FarOp → AmoOp
  | .add => .add | .and => .and | .or => .or | .xor => .xor | .min => .min | .max => .max

def opBytes (w : Bool) : Nat := if w then 4 else 8

/-- R150: the access of amo and cas. -/
def nearReq (ea : Word) (w : Bool) : AccReq :=
  { ea := ea, n := opBytes w, align := opBytes w, kind := 2, need := needRW, wins := [1, 2, 3, 8],
    pages := [.hc, .cp, .pinned], closes := false, sup := false }

/-- R151, R152: the access of amof and amor. -/
def farReq (ea : Word) (w : Bool) : AccReq := { nearReq ea w with wins := [1, 8], pages := [.hc, .pinned] }

/-- A read-modify-write that is a chunk of its own, at one point of package order (R152): `f` gives the bytes to write, if
any; then `k` with the old value. -/
def grantedRmw (s : State) (t : Target) (n : Nat) (ea : Word) (record : Bool) (f : Nat → Option (List Byte))
    (k : Nat → State → Res) : Res :=
  closing s (fun s => if viewPoisoned s t n then raiseClosing s cMcheck ea 1
  else
    let g := sigRange t.asid t.va n
    let arbs := targetArbs s t
    withGrant s arbs g g (fun s =>
      let s := gather s t.key n
      let old := leNat (viewBytes s t n)
      let s := if record then recordClosing s arbs else s
      match f old with
      | none => k old s
      | some bs => k old (storeNow s t bs)))

/-- R148. -/
def execAmo (a b : Src) (d : Dest) (w : Bool) (o : AmoOp) (s : State) : Res :=
  let ea := src s a
  let x := src s b
  let n := opBytes w
  withAccess s (nearReq ea w) (fun t s' =>
    if t.closes then
      grantedRmw s' t n ea false (fun old => some (amoNew w o old x))
        (fun old s => finishClosing s (push (me s).regs d (amoOld w old)))
    else withLoad s' t n .pred ea (fun bs s' =>
      withStores s s' .pred [(t, amoNew w o (leNat bs) x)] (fun s => finishPush s d (amoOld w (leNat bs)))))

/-- R149: the old value, then the flag. -/
def casPush (d : Dest) (w : Bool) (old : Nat) (ok : Bool) (r : Regs) : Regs :=
  push (push r .push (amoOld w old)) d (flag01 ok)

/-- R149. A cas that fails marks only the read signature. -/
def execCas (a b c : Src) (d : Dest) (w : Bool) (s : State) : Res :=
  let ea := src s a
  let x := (src s b).toNat
  let y := (src s c).toNat
  let n := opBytes w
  withAccess s (nearReq ea w) (fun t s' =>
    if t.closes then
      grantedRmw s' t n ea false (fun old => if old = x % 2 ^ (8 * n) then some (natBytes n y) else none)
        (fun old s => finishClosing s (casPush d w old (old == x % 2 ^ (8 * n)) (me s).regs))
    else withLoad s' t n .pred ea (fun bs s' =>
      let old := leNat bs
      if old = x % 2 ^ (8 * n) then
        withStores s s' .pred [(t, natBytes n y)] (fun s => finish s (casPush d w old true (me s).regs))
      else finish s' (casPush d w old false (me s').regs)))

/-- R151: the far operation leaves at the commit; faults arise now. -/
def execAmof (a b : Src) (w : Bool) (o : FarOp) (s : State) : Res :=
  let ea := src s a
  let x := src s b
  let n := opBytes w
  withAccess s (farReq ea w) (fun t s' =>
    if t.closes then
      grantedRmw s' t n ea false (fun old => some (amoNew w (farAmo o) old x)) (fun _ s => finishClosing s (me s).regs)
    else
      let s' := modMe s' (fun c => { c with chunk := markWrite c.chunk t n })
      withEffect s s' (.far { op := o, w := w, va := t.va, pa := t.key, x := x, after := (me s').chunk.stores.length }) (fun s => finish s (me s).regs))

/-- R152. -/
def execAmor (a b : Src) (d : Dest) (w : Bool) (o : AmoOp) (s : State) : Res :=
  let ea := src s a
  let x := src s b
  closing s (fun s => withClosing s (farReq ea w) (fun t s =>
    grantedRmw s t (opBytes w) ea true (fun old => some (amoNew w o old x))
      (fun old s => finishClosing s (push (me s).regs d (amoOld w old)))))

/-- R152. W holds the grain whether or not the comparison succeeds, and is forwarded: a failing amor.cas writes the old
value back. -/
def execAmorCas (a b c : Src) (d : Dest) (w : Bool) (s : State) : Res :=
  let ea := src s a
  let n := opBytes w
  let x := (src s b).toNat % 2 ^ (8 * n)
  let y := (src s c).toNat
  closing s (fun s => withClosing s (farReq ea w) (fun t s =>
    grantedRmw s t n ea true (fun old => some (natBytes n (if old = x then y else old)))
      (fun old s => finishClosing s (casPush d w old (old == x) (me s).regs))))

end Sys2Proof.Machine
end

