-- ==== Sys2Proof/Machine/EngineOps.lean ====
section
/-! DEFINITION. What threads, matrix units and copy engines share (spec/24): engine faults, transaction barriers, operand
FIFOs, tiles, and waking the matrix sequencer. -/

namespace Sys2Proof.Machine

/-! ## Faults of engines (R395, R266) -/

/-- An asynchronous trap of context `l`; a context that waits holding no chunk looks at it at once (R385). -/
def pend (s : State) (l : Nat) (p : Pending) : State :=
  modCtx s l (fun c => { c with
    pending := c.pending ++ [p],
    run := (match c.run with
      | .waiting k => if tsOn c.ctl then .waiting k else .ready
      | r => r) })

def faultWord (reason detail : Nat) : Word := BitVec.ofNat 64 (reason % 256 * 256 + detail % 256)

/-- R395: ENGINE_FAULT in a context. -/
def engineFault (s : State) (l : Nat) (badva : Word) (reason detail : Nat) : State :=
  pend s l { cause := cEngineFault, badva := badva, tval := faultWord reason detail }

/-- R395, R384: ENGINE_FAULT as an event. -/
def engineEvent (s : State) (asid : Nat) (w8 : Word) (reason detail : Nat) (msg : List Word) : State :=
  event s asid 0 cEngineFault w8 (faultWord reason detail) msg

/-- An engine-window pointer. -/
def enginePtr (off : Nat) : Word := 0x0040000000000000 ||| BitVec.ofNat 64 off

/-! ## The matrix sequencer -/

def opName : Nat → Instr
  | 1 => .mma | 2 => .mmaz | 3 => .mload | 4 => .mstore | 5 => .mzero | _ => .mfence

/-- The opcode of a command. -/
def cmdOp (c : Cmd) : Nat := fld (wordAt c.words 0) 63 56

/-- Commands at the heads of a cluster's queues are looked at again. -/
def kick (s : State) (cl : Nat) : State :=
  (List.range 8).foldl (fun t i =>
    let core := cl * 8 + i
    match (coreAt t core).cmds with
    | [] => t
    | c :: _ =>
      if (coreAt t core).stop != .running then t
      else if t.agenda.any (fun e => e.2.1 == core && e.2.2 == opName (cmdOp c)) then t
      else post t core (opName (cmdOp c))) s

/-- Contexts of a cluster that wait for tiles, FIFOs or barriers issue again. -/
def wakeCluster (s : State) (cl : Nat) : State := wakeWaiters s (fun l => clusterOf l == cl) [2, 3, 4]

/-- A tile's owner becomes T (R127). -/
def tileToT (s : State) (core tile : Nat) : State :=
  modCore s core (fun c => { c with tilesE := c.tilesE.filter (· != tile) })

def isTileE (s : State) (core tile : Nat) : Bool := (coreAt s core).tilesE.contains tile

/-! ## Bytes of SRAM that hardware writes without a chunk -/

/-- R163: barrier and descriptor words are not chunk commits and squash no one. -/
def putRaw (s : State) (key : Nat) (bs : List Byte) : State := { s with mem := memPutAll s.mem key bs }
def getRaw (s : State) (key : Nat) : Word := memWord s.mem key
def putRawWord (s : State) (key : Nat) (x : Word) : State := putRaw s key (wordBytes x)

/-! ## Transaction barriers (R163, R389) -/

/-- A barrier's counts. -/
structure Barrier where
  sectors : Nat
  arrivals : Nat
  phase : Nat
  banked : Nat
  reload : Nat
deriving DecidableEq, Repr

def barRead (s : State) (key : Nat) : Barrier :=
  let w0 := getRaw s key
  let w1 := getRaw s (key + 8)
  { sectors := fld w0 63 32, arrivals := fld w0 31 8, phase := fld w0 3 0, banked := fld w1 63 32, reload := fld w1 31 0 }

def barWrite (s : State) (key : Nat) (b : Barrier) : State :=
  let w0 : Word := BitVec.ofNat 64 (b.sectors * 2 ^ 32 + b.arrivals % 2 ^ 24 * 256 + b.phase % 16)
  let w1 : Word := BitVec.ofNat 64 (b.banked * 2 ^ 32 + b.reload % 2 ^ 32)
  putRawWord (putRawWord s key w0) (key + 8) w1

/-- The cluster in whose SRAM or scratchpads a barrier stands. -/
def barCluster (key : Nat) : Nat := if key < 2 * 2 ^ 56 then key % 2 ^ 56 / 2 ^ 18 / 8 else key % 2 ^ 56 / 2 ^ 21

/-- R389: the tiles of a core that are bound to a barrier flip to T, and their bindings end. -/
def flipBound (key : Nat) (s : State) (core : Nat) : State :=
  modCore s core (fun c =>
    let tiles := (c.bindings.filter (fun p => p.2 == key)).map (fun p => p.1)
    { c with tilesE := c.tilesE.filter (fun x => !tiles.contains x), bindings := c.bindings.filter (fun p => p.2 != key) })

/-- R163, R389: a phase that is complete: advance, reload, flip the bound tiles, wherever they are, and look at the waiters again. -/
def barSettle (s : State) (key : Nat) (b : Barrier) : State :=
  if b.arrivals = 0 && b.sectors = 0 && b.banked = 0 then
    let s := barWrite s key { b with phase := (b.phase + 1) % 16, arrivals := b.reload % 2 ^ 24 }
    let cores := (s.cores.filter (fun e => e.2.bindings.any (fun p => p.2 == key))).map (fun e => e.1)
    let s := cores.foldl (flipBound key) s
    (dedup (barCluster key :: cores.map clusterOfCore)).foldl (fun t cl => kick (wakeCluster t cl) cl) s
  else barWrite s key b

/-- R163: one arrival; false when the count was 0. -/
def barArrive (s : State) (key : Nat) : State × Bool :=
  let b := barRead s key
  if b.arrivals = 0 then (s, false) else (barSettle s key { b with arrivals := b.arrivals - 1 }, true)

/-- R163: an expectation of `e` sectors; false when it would pass 2^32 − 1. -/
def barExpect (s : State) (key e : Nat) : State × Bool :=
  let b := barRead s key
  let k := min e b.banked
  if b.sectors + (e - k) ≥ 2 ^ 32 then (s, false)
  else (barSettle s key { b with banked := b.banked - k, sectors := b.sectors + (e - k) }, true)

/-- R163: one sector has landed; false when banked sectors would pass 2^32 − 1. -/
def barLand (s : State) (key : Nat) : State × Bool :=
  let b := barRead s key
  if b.sectors > 0 then (barSettle s key { b with sectors := b.sectors - 1 }, true)
  else if b.banked + 1 ≥ 2 ^ 32 then (s, false)
  else (barWrite s key { b with banked := b.banked + 1 }, true)

/-- Several sectors. -/
def barLandN (s : State) (key : Nat) : Nat → State × Bool
  | 0 => (s, true)
  | n + 1 =>
    let p := barLand s key
    let q := barLandN p.1 key n
    (q.1, p.2 && q.2)

/-- R164: the phase `b` has passed. -/
def phasePassed (phase b : Nat) : Bool := (phase + 16 - b % 16) % 16 < 8

/-! ## Operand FIFOs (R387, R388) -/

structure Fifo where
  valid : Bool
  /-- true: threads are the party -/
  prodThreads : Bool
  consThreads : Bool
  count : Nat
  size : Nat
  base : Nat
  wpos : Word
  rpos : Word
deriving DecidableEq, Repr

def fifoKey (cl h : Nat) : Nat := keyFifo cl (32 * h)

/-- R387: the descriptor; not valid when its fields or its place are not those allowed. -/
def fifoRead (s : State) (cl h : Nat) : Fifo :=
  let k := fifoKey cl h
  let w0 := getRaw s k
  let count := fld w0 46 40
  let size := fld w0 35 21
  let base := fld w0 20 0
  { valid := bit w0 63 && 2 ≤ count && count ≤ 64 && fld w0 60 47 == 0 && fld w0 39 36 == 0 && size % 64 == 0
      && 1024 ≤ size && size ≤ 16384 && base % 64 == 0 && base + count * size ≤ Config.clusterSize (cl / 64)
      && getRaw s (k + 0x18) == 0,
    prodThreads := bit w0 62, consThreads := bit w0 61, count := count, size := size, base := base,
    wpos := getRaw s (k + 8), rpos := getRaw s (k + 0x10) }

def fifoFilled (f : Fifo) : Nat := (f.wpos - f.rpos).toNat

/-- R160, R388: advance a position; waiters and the matrix unit look again. -/
def fifoAdvance (s : State) (cl h n : Nat) (write : Bool) : State :=
  let k := fifoKey cl h + (if write then 8 else 0x10)
  kick (wakeCluster (putRawWord s k (getRaw s k + BitVec.ofNat 64 n)) cl) cl

/-! ## Barrier pointers (R162) -/

/-- Checks 2–6 of R137 with an access size of 16, and check 7 when `tiles`: the key of the barrier, or the trap. -/
def barPtr (s : State) (a : Word) (tiles : Bool) (kind : Nat) (k : Nat → Res) : Res :=
  let l := s.cur
  let cls := ptrClass l a
  let tv := kindWord kind
  if cls ≥ 16 then raise s cForeign a tv
  else if cls == 2 then
    let o := fld a 17 0
    if o + 16 > Config.scratchSize (dieOf l) then raise s cWindow a tv
    else if o % 16 != 0 then raise s cAlign a tv
    else if tiles && isTileE s (coreOf l) (o / 4096) then raise s cTileOwned a tv
    else k (keyScratch (coreOf l) o)
  else if cls == 3 then
    let o := fld a 20 0
    if o + 16 > Config.clusterSize (dieOf l) then raise s cWindow a tv
    else if o % 16 != 0 then raise s cAlign a tv
    else k (keyCluster (clusterOf l) o)
  else raise s cWindow a tv

end Sys2Proof.Machine
end

