-- ==== Sys2Proof/Machine/Sync.lean ====
section
/-! DEFINITION. Chunk ends, waiting, tiles, operand FIFOs and transaction barriers (spec/08 R155–R164). -/

namespace Sys2Proof.Machine

/-- The chunk ends after this instruction. -/
def finishEnd (s : State) (r : Regs) (pc : Word) : Res :=
  .next (endChunkOf (modMe s (fun c => stepped c { r with pc := pc })) s.cur .resume)

/-! ## Chunk ends and waiting (R155, R156) -/

/-- R155: end the chunk after this instruction. -/
def execCend (s : State) : Res := finishEnd s (me s).regs ((me s).regs.pc + 4)

/-- R156, R135: read the word and register the watch at one point of package order. -/
def execWaita (a b : Src) (s : State) : Res :=
  let ea := src s a
  let q : AccReq := { loadReq ea 8 with wins := [1, 8], pages := [.hc, .pinned], closes := false }
  closing s (fun s =>
    if (me s).woken then finishClosing (modMe s (fun c => { c with watch := none })) (me s).regs
    else withClosing s q (fun t s =>
      let arbs := targetArbs s t
      if viewPoisoned s t 8 then raiseClosing s cMcheck ea 1
      else withGrant s arbs (sigRange t.asid t.va 8) 0 (fun s =>
        let s := recordClosing s arbs
        if BitVec.ofNat 64 (leNat (viewBytes s t 8)) ≠ src s b then finishClosing s (me s).regs
        else waitHere (modMe s (fun c => { c with watch := some (t.key / 32) })) 1)))

/-! ## Tiles (R157, R158) -/

/-- R157: the tile that a pointer names, or its trap. -/
def tilePtr (s : State) (a : Word) (k : Nat → Res) : Res :=
  let l := s.cur
  let cls := ptrClass l a
  if cls == 0x12 then raise s cForeign a 0
  else if cls != 2 then (if cls == 0x13 then raise s cForeign a 0 else raise s cWindow a 0)
  else
    let o := fld a 17 0
    if o ≥ Config.scratchSize (dieOf l) then raise s cWindow a 0
    else if o % 4096 != 0 then raise s cAlign a 0
    else k (o / 4096)

/-- R158: the tile's owner becomes E, once the chunk before has committed. -/
def execGive (a : Src) (s : State) : Res :=
  closing s (fun s => tilePtr s (src s a) (fun tile =>
    if isTileE s (coreOf s.cur) tile then raise s cTileOwned (src s a) 0
    else
      let s := modCore s (coreOf s.cur) (fun c => { c with tilesE := tile :: c.tilesE })
      finishClosing (kick s (clusterOf s.cur)) (me s).regs))

/-- R158: continue when the tile is T; else wait, holding no chunk. -/
def execTake (a : Src) (s : State) : Res :=
  closing s (fun s => tilePtr s (src s a) (fun tile =>
    if isTileE s (coreOf s.cur) tile then waitHere s 2 else finishClosing s (me s).regs))

/-! ## Operand FIFOs (R159–R161) -/

/-- R161: FIFO with a reason and a handle. DESIGN CHOICE (log 90): of a handle above 255 c.tval holds the low eight bits. -/
def raiseFifo (s : State) (reason handle : Nat) : Res := raise s cFifo 0 (BitVec.ofNat 64 (reason * 256 + handle % 256))

/-- R159: the descriptor as the thread sees it: positions advanced by its own fadv and fpub in the live chunk. -/
def myFifo (s : State) (h : Nat) : Fifo :=
  (me s).chunk.effects.foldl (fun f e => match e with
    | .fadv h' n => if h' = h then { f with rpos := f.rpos + BitVec.ofNat 64 n } else f
    | .fpub h' n => if h' = h then { f with wpos := f.wpos + BitVec.ofNat 64 n } else f
    | _ => f) (fifoRead s (clusterOf s.cur) h)

/-- R161: the checks of the FIFO instructions, lowest reason first. `consumer`: the side; `adv`: reason 2 applies. -/
def withFifo (s : State) (a b : Src) (consumer adv : Bool) (k : Nat → Nat → Fifo → Res) : Res :=
  let h := (src s a).toNat
  let n := (src s b).toNat
  let f := myFifo s (h % 32)
  let room := if consumer then fifoFilled f else f.count - fifoFilled f
  if h > 31 then raiseFifo s 0 h
  else if !f.valid then raiseFifo s 0 h
  else if n = 0 || n > f.count then raiseFifo s 1 h
  else if adv && n > room then raiseFifo s 2 h
  else if !(if consumer then f.consThreads else f.prodThreads) then raiseFifo s 3 h
  else k h n f

/-- R160: push the slot pointer, or wait at the boundary. -/
def fifoWait (s : State) (a b : Src) (d : Dest) (consumer : Bool) : Res :=
  withFifo s a b consumer false (fun _ n f =>
    let room := if consumer then fifoFilled f else f.count - fifoFilled f
    if n ≤ room then
      let pos := (if consumer then f.rpos else f.wpos).toNat % f.count
      finishPush s d (0x0030FFF000000000 ||| BitVec.ofNat 64 (f.base + pos * f.size))
    else if chunkEmpty (me s) then waitHere s 3 else endChunk s .resume)

def execFwait (a b : Src) (d : Dest) (s : State) : Res := fifoWait s a b d true
def execFroom (a b : Src) (d : Dest) (s : State) : Res := fifoWait s a b d false

def execFadv (a b : Src) (s : State) : Res :=
  withFifo s a b true true (fun h n _ => withEffect s s (.fadv h n) (fun s => finish s (me s).regs))
def execFpub (a b : Src) (s : State) : Res :=
  withFifo s a b false true (fun h n _ => withEffect s s (.fpub h n) (fun s => finish s (me s).regs))

/-! ## Transaction barriers (R162–R164) -/

/-- The target of a barrier's 16 bytes. -/
def barTarget (s : State) (key : Nat) : Target :=
  let l := s.cur
  if key < 2 * 2 ^ 56 then
    { space := .scratch, closes := false, sys := false, io := false, key := key, va := (scratchPtr l (key % 2 ^ 18)).toNat,
      asid := asidOf (me s), home := 0, place := 0 }
  else
    { space := .cluster, closes := false, sys := false, io := false, key := key, va := (clusterPtr l (key % 2 ^ 21)).toNat,
      asid := asidOf (me s), home := 0, place := 0 }

/-- R163: a 16-byte store, not trailed. DEDUCED (log 76): the pointer and the tile are checked before the count. -/
def execTbinit (a b : Src) (s : State) : Res :=
  let n := (src s b).toNat
  barPtr s (src s a) true 1 (fun key =>
    if n = 0 || n > 16777215 then raiseFifo s 4 0xFF
    else withStores s s .pred [(barTarget s key, wordBytes (BitVec.ofNat 64 (n * 256)) ++ wordBytes (BitVec.ofNat 64 n))]
      (fun s => finish s (me s).regs))

/-- R163. DEDUCED (log 76): R162's pointer check of tbarr and tbexp reports an atomic access, that of tbwait a load. -/
def execTbarr (a : Src) (s : State) : Res :=
  barPtr s (src s a) false 2 (fun key => withEffect s s (.tbarr key (src s a)) (fun s => finish s (me s).regs))

def execTbexp (a b : Src) (s : State) : Res :=
  let n := (src s b).toNat
  barPtr s (src s a) false 2 (fun key =>
    if n > 0x7FFFFFFF then raiseFifo s 4 0xFF
    else withEffect s s (.tbexp key (src s a) n) (fun s => finish s (me s).regs))

/-- R164: go on when the phase has passed; else wait, holding no chunk. -/
def execTbwait (a b : Src) (s : State) : Res :=
  let n := (src s b).toNat
  barPtr s (src s a) false 0 (fun key =>
    if n > 15 then raiseFifo s 4 0xFF
    else
      let w0 := BitVec.ofNat 64 (leNat (viewBytes s (barTarget s key) 8))
      if phasePassed (fld w0 3 0) n then finish s (me s).regs
      else if chunkEmpty (me s) then waitHere s 4 else endChunk s .resume)

end Sys2Proof.Machine
end

