-- ==== Sys2Proof/Machine/Queue.lean ====
section
/-! DEFINITION. Queue table entries, queue descriptors, message headers and probes (spec/14 R219–R225, spec/15 R245–R246). -/

namespace Sys2Proof.Machine

/-! ## Queue descriptors (R223, R224) -/

def qdLog (ws : List Word) : Nat := fld (wordAt ws 1) 4 0
def qdCount (ws : List Word) : Nat := 2 ^ qdLog ws
def qdKind (ws : List Word) : Nat := fld (wordAt ws 1) 17 16
def qdBinding (ws : List Word) : Nat := fld (wordAt ws 1) 20 18
def qdPriority (ws : List Word) : Nat := fld (wordAt ws 1) 22 21
def qdOrdered (ws : List Word) : Bool := bit (wordAt ws 1) 23
def qdOwner (ws : List Word) : Nat := fld (wordAt ws 1) 41 32
def qdBase (ws : List Word) : Nat := fld (wordAt ws 0) 55 6 * 64
def qdPlace (ws : List Word) : Nat := fld (wordAt ws 4) 14 0

/-- R223: a persistent region word: length and offset. -/
def regionLen (w : Word) : Nat := fld w 49 32
def regionOff (w : Word) : Nat := fld w 17 0
def regionOk (w : Word) : Bool := fld w 63 50 == 0 && fld w 31 18 == 0 && regionLen w % 64 == 0 && regionOff w % 64 == 0

/-- R241: the persistent regions of a core-bound queue's descriptor. -/
def regionsOf (ws : List Word) : List (Nat × Nat) :=
  ([wordAt ws 5, wordAt ws 6].map (fun w => (regionOff w, regionLen w))).filter (fun p => p.2 != 0)

/-- R223, R224: the descriptor is well formed. -/
def descOk (ws : List Word) : Bool :=
  let w1 := wordAt ws 1
  let core := qdBinding ws == 4
  fld (wordAt ws 0) 63 56 == 0 && fld (wordAt ws 0) 5 0 == 0
    && fld w1 63 42 == 0 && fld w1 31 24 == 0 && fld w1 15 5 == 0 && 1 ≤ qdLog ws && qdLog ws ≤ 16
    && ((qdKind ws == 0 && (qdBinding ws ≤ 2 || core)) || (qdKind ws == 1 && (qdBinding ws == 0 || qdBinding ws == 3))
        || (qdKind ws == 2 && qdBinding ws == 0))
    && (!qdOrdered ws || qdKind ws == 0)
    && fld (wordAt ws 4) 63 15 == 0 && (core || wordAt ws 4 == 0)
    && regionOk (wordAt ws 5) && regionOk (wordAt ws 6) && (core || (wordAt ws 5 == 0 && wordAt ws 6 == 0))
    && wordAt ws 7 == 0

/-- A queue that a handle names, or the reason and badva of R246. -/
inductive Lookup where
  | ok (desc : Nat) (ws : List Word)
  | bad (reason : Nat) (va : Nat)
  | retry
  /-- no Fox holds the queue: a queue miss (R225) -/
  | miss
deriving DecidableEq, Repr

/-- R220: the entry of a table whose base is word `w` of the ASID's entry. -/
def tableVa (s : State) (asid w i : Nat) : Nat := fld (asidWord s asid w) 55 15 * 2 ^ 15 + 8 * i

/-- R223, R246: read the descriptor at a VA for an ASID. -/
def readDesc (s : State) (asid va : Nat) : Lookup :=
  match hwRead s asid va 64 true with
  | .retry => .retry
  | .fault _ _ => .bad 2 va
  | .ok bs _ =>
    let ws := wordsOf bs
    if va % 64 != 0 || !descOk ws then .bad 2 va else if qdOwner ws != asid then .bad 3 va else .ok va ws

/-- R225: the resident head of a handle. -/
def headOf (s : State) (asid h : Nat) : Option Head :=
  (s.dies.map (fun d => d.2.heads)).flatten.find? (fun x => x.asid == asid && x.handle == h)

/-- R243, R246: the checks of a queue reference at a queue miss, from the memory records. -/
def lookupMem (s : State) (asid h : Nat) : Lookup :=
  if h > 4095 || !bit (asidWord s asid 0) 63 then .bad 1 0
  else
    let ev := tableVa s asid 8 h
    match hwRead s asid ev 8 false with
    | .retry => .retry
    | .fault _ _ => .bad 1 ev
    | .ok bs _ =>
      let e := BitVec.ofNat 64 (leNat bs)
      if !bit e 63 || fld e 62 56 != 0 || fld e 5 0 != 0 then .bad 1 0
      else readDesc s asid (fld e 55 0)

/-- R225, R246: a reference is answered from the resident head. -/
def lookup (s : State) (asid h : Nat) : Lookup :=
  match headOf s asid h with
  | some x => .ok x.desc x.words
  | none => if h > 4095 then .bad 1 0 else .miss

/-! ## Message headers (R219, R245) -/

def hClass (w : Word) : Nat := fld w 39 38
def hIndex (w : Word) : Nat := fld w 11 0
def hOrdered (w : Word) : Bool := bit w 37
def hLaunch (w : Word) : Bool := bit w 36

/-- R219, R7: the reserved fields of a header are zero. -/
def headerForm (w : Word) : Bool := fld w 47 40 == 0 && fld w 35 32 == 0 && fld w 15 12 == 0

/-- R245: the checks of word 0 that do not depend on the queue's kind. -/
def headerOk (w : Word) (ordered user : Bool) : Bool :=
  headerForm w && !hLaunch w && (ordered || !hOrdered w) && !(hClass w == 0 && user)

/-- R219: the header as the hardware delivers it. -/
def headerSet (w : Word) (stamp place : Nat) : Word :=
  (w &&& 0x0000FFFF0000FFFF) ||| BitVec.ofNat 64 (stamp % 65536 * 2 ^ 48 + place % 65536 * 2 ^ 16)

/-- R245: the eight words of a message from the result queue. -/
def qMsg (s : State) (n : Nat) : List Word := takePad 0 8 ((qList (me s).regs).take n)

/-- R245: QUEUE_INVALID with reason 2, found in the core. -/
def raiseHeader (s : State) (h : Nat) : Res := raise s cQueueInvalid 0 (BitVec.ofNat 64 (2 * 4096 + h % 4096))

/-! ## Probes (R246) -/

/-- R246: QUEUE_INVALID with a reason and a handle, as a home-found fault. -/
def raiseQueue (s : State) (reason va h : Nat) : Res :=
  raiseHome s cQueueInvalid (BitVec.ofNat 64 va) (BitVec.ofNat 64 (reason * 4096 + h % 4096))

/-- Wait for the die Fox's answer, then go on with it. -/
def withProbe (s : State) (h : Nat) (k : ProbeAnswer → Res) : Res :=
  match (me s).probe with
  | some p =>
    if p.handle = h then
      match p.bad with
      | some b => raiseQueue s b.1 b.2.toNat h
      | none => k p
    else .next (post (stallCtx s s.cur (.probe h)) s.cur .queueProbe)
  | none => .next (post (stallCtx s s.cur (.probe h)) s.cur .queueProbe)

/-- The static words of an answer, as far as the forms need them. -/
def answerWords (p : ProbeAnswer) : List Word := [p.word0, p.word1]

end Sys2Proof.Machine
end

