-- ==== Sys2Proof/Machine/Task.lean ====
section
/-! DEFINITION. Task, message and gang instructions (spec/15). Their effects leave the core at the commit (R97). -/

namespace Sys2Proof.Machine

/-- R29, R97: take one deferred-effect entry and go on. -/
def effectDone (s : State) (e : Effect) : Res := withEffect s s e (fun s => finish s (me s).regs)

/-! ## Messages (R248–R253) -/

/-- R248: the core that a place pointer names. -/
def placeCore (loc : Nat) (p : Word) : Nat := if isHere (fld p 47 36) then coreOf loc else fld p 47 33

def execSend (a : Src) (s : State) : Res :=
  let p := src s a
  let cls := ptrClass s.cur p
  let msg := qMsg s 8
  if fld p 63 56 != 0 then raise s cNoncanon p 0
  else if !(cls == 2 || cls == 0x12) || fld p 17 0 != 0 then raise s cWindow p 0
  else if !headerOk (wordAt msg 0) false (isUser (me s)) || hIndex (wordAt msg 0) == 0 then raiseHeader s 0
  else effectDone s (.send (placeCore s.cur p) msg)

/-- R250: the queue must be a crew route, and the expert one of its slots. -/
def execSendr (a b : Src) (s : State) : Res :=
  let h := (src s a).toNat
  let e := (src s b).toNat
  let msg := qMsg s 8
  if !headerOk (wordAt msg 0) false (isUser (me s)) then raiseHeader s h
  else withProbe s h (fun p =>
    let ws := answerWords p
    if qdKind ws != 1 || qdBinding ws != 3 || e ≥ qdCount ws then raiseQueue s 4 p.desc h
    else effectDone s (.sendr h e msg))

/-- R249. -/
def execEnq (a : Src) (s : State) : Res :=
  let h := (src s a).toNat
  let msg := qMsg s 8
  withProbe s h (fun p =>
    let ws := answerWords p
    let w := wordAt msg 0
    if (qdKind ws == 0 && qdOrdered ws) || (qdKind ws == 1 && qdBinding ws == 3) then raiseQueue s 4 p.desc h
    else if qdKind ws != 2 && (!headerOk w false (isUser (me s)) || (qdKind ws == 0 && hIndex w == 0)) then raiseHeader s h
    else effectDone s (.enq h msg))

/-- R249: word 7 is the timestamp, and word 0 [37] is set. -/
def execEnqt (a b : Src) (s : State) : Res :=
  let h := (src s a).toNat
  let m := qMsg s 7
  let w := wordAt m 0
  let msg := setNth (setNth m 7 (src s b)) 0 (w ||| 0x2000000000)
  if !headerOk w true (isUser (me s)) then raiseHeader s h
  else withProbe s h (fun p =>
    let ws := answerWords p
    if qdKind ws != 0 || !qdOrdered ws then raiseQueue s 4 p.desc h
    else if hIndex w == 0 then raiseHeader s h
    else effectDone s (.enq h msg))

/-- The request of a hardware access on behalf of an instruction: supervisor rights, HC pages of the global window. -/
def supReq (ea : Nat) (n kind : Nat) (need : Need) : AccReq :=
  { ea := BitVec.ofNat 64 ea, n := n, align := 8, kind := kind, need := need, wins := [8], pages := [.hc, .pinned],
    closes := false, sup := true }

/-- R251: the pushes of deq, word 7 first; word 0 ends at q0 and the destination copies it. -/
def deqPush (r : Regs) (d : Dest) (ws : List Word) : Regs :=
  push (((List.range 7).map (fun i => wordAt ws (7 - i))).foldl (fun r x => push r .push x) r) d (wordAt ws 0)

/-- R226 step 5: the stamp that a consumer leaves. -/
def freedStamp (n count : Nat) : Nat := (n + count + 0x8000) % 65536

/-- R251: the entry is not there: the chunk before the deq commits, and the context waits for a commit that writes the slot's grain. -/
def deqWait (s t : State) (grain desc : Nat) : Res :=
  if chunkEmpty (me s) then
    let t := modMe t (fun c => { c with watch := some grain, waitDesc := desc })
    waitHere (if (me s).woken then t else postIn t Config.cycles64us s.cur .queueStall) 5
  else endChunk s .resume

/-- R251: the entry is taken: the slot's stamp and the read index are written, and its words pushed. -/
def deqTake (s t : State) (d : Dest) (ws : List Word) (n : Nat) (msg : List Word) (slot index : AccReq) : Res :=
  let w0 := wordAt msg 0
  let new : Word := (w0 &&& 0x0000FFFFFFFFFFFF) ||| BitVec.ofNat 64 (freedStamp n (qdCount ws) * 2 ^ 48)
  withAccesses t [slot, index] (fun ts t => putStores s t .pred (List.zip ts [wordBytes new, wordBytes (BitVec.ofNat 64 (n + 1))])
    (fun cl t =>
      let r := (me t).regs
      finishAny cl t (deqPush r d msg) (r.pc + 4)))

/-- R251. -/
def execDeq (a : Src) (d : Dest) (s : State) : Res :=
  let h := (src s a).toNat
  withProbe s h (fun p =>
    let ws := answerWords p
    if qdKind ws != 1 || qdBinding ws != 0 then raiseQueue s 4 p.desc h
    else
      let ri := supReq (p.desc + 0x18) 8 0 needR
      withAccess s ri (fun td s1 => loadAll s1 .pred [(td, 8, ri.ea)] (fun _ bs s1 =>
        let n := leNat bs
        let sv := qdBase ws + 64 * (n % qdCount ws)
        let sq := supReq sv 64 0 needR
        withAccess s1 sq (fun ts s2 => loadAll s2 .pred [(ts, 64, sq.ea)] (fun _ bs s2 =>
          let msg := wordsOf bs
          if fld (wordAt msg 0) 63 48 != n % 65536 then deqWait s s2 (ts.key / 32) p.desc
          else deqTake s s2 d ws n msg (supReq sv 8 1 needW) (supReq (p.desc + 0x18) 8 1 needW))))))

/-- R253: q0–q6 are words 0–6, and word 7 is zero. -/
def execSpawn (s : State) : Res :=
  let msg := qMsg s 7
  if !headerOk (wordAt msg 0) false (isUser (me s)) || hIndex (wordAt msg 0) == 0 then raiseHeader s 0
  else effectDone s (.spawn msg)

/-! ## Joins and retirement (R254–R256) -/

/-- R254. -/
def execJinit (a b : Src) (s : State) : Res :=
  let ea := src s a
  let c := (src s b).toNat
  if c = 0 || c ≥ 2 ^ 32 then raise s cQueueInvalid ea (BitVec.ofNat 64 (6 * 4096))
  else
    let q : AccReq := { ea := ea, n := 64, align := 64, kind := 1, need := needW, wins := [8], pages := [.hc, .pinned],
                        closes := false, sup := false }
    let words := BitVec.ofNat 64 c :: (qList (me s).regs).take 7
    withAccess s q (fun t s' => putStores s s' .pred [(t, words.foldr (fun x acc => wordBytes x ++ acc) [])] storeDone)

/-- R255: the chunk ends after the done, and the thread retires at its commit. `extra` is what the form adds to the chunk; with the
retirement's entry (R97) it is checked for room before anything of it is done. -/
def retireAfter (old s : State) (r : Retire) (extra : State → (State → Res) → Res) : Res :=
  withEffect old s (.retire r) (fun s => extra s (fun s =>
    .next (endChunkOf (modMe s (fun c => stepped c { c.regs with pc := c.regs.pc + 4 })) s.cur (.retire r))))

def execDoneP (s : State) : Res := retireAfter s s .plain (fun s k => k s)

/-- R255: the checks of done.j and done.t: 64 bytes, aligned, in an HC page of the global window. -/
def doneReq (ea : Word) (kind : Nat) (need : Need) : AccReq :=
  { ea := ea, n := 64, align := 64, kind := kind, need := need, wins := [8], pages := [.hc, .pinned], closes := false,
    sup := false }

def execDoneJ (a : Src) (s : State) : Res :=
  withAccess s (doneReq (src s a) 2 needRW) (fun _ s' => retireAfter s s' (.join (src s a)) (fun s k => k s))

/-- R255: done.t stores 2 into word 0x38 in the same commit. -/
def execDoneT (a : Src) (s : State) : Res :=
  withAccess s (doneReq (src s a) 1 needW) (fun t s' =>
    let st : Target := { t with key := t.key + 0x38, va := t.va + 0x38 }
    retireAfter s s' (.tcb (src s a)) (fun s1 k => putStores s s1 .pred [(st, wordBytes 2)] (fun _ s => k s)))

def execDoneF (a : Src) (s : State) : Res := retireAfter s s (.status (lo32 (src s a))) (fun s k => k s)

/-! ## Yield (R257) -/

/-- R257: the other contexts of the core that have an instruction ready. -/
def readyPeers (s : State) (l : Nat) : List Nat :=
  ((List.range 8).map (fun i => coreOf l * 8 + i)).filter (fun o => o != l && (ctxAt s o).run == .ready)

/-- R257: the issue pause begins. -/
def pauseIssue (s : State) (l : Nat) : State :=
  let peers := readyPeers s l
  let s := modCtx s l (fun c => { c with run := .yielded (s.now + Config.yieldCycles) peers })
  if peers.isEmpty then post s l .yieldResume else postIn s Config.yieldCycles l .yieldResume

def execYieldC (s : State) : Res :=
  let s' := modMe s (fun c => stepped c { c.regs with pc := c.regs.pc + 4 })
  if youngTask s s.cur then .next (pauseIssue s' s.cur) else .next (endChunkOf s' s.cur .yield)

/-! ## Reading a foreign scratchpad (R258) -/

def execRread (a : Src) (d : Dest) (z : Size) (s : State) : Res :=
  let p := src s a
  let n := sizeN z
  let cls := ptrClass s.cur p
  let core := placeCore s.cur p
  let o := fld p 17 0
  closing s (fun s =>
    if fld p 63 56 != 0 then raise s cNoncanon p 0
    else if !(cls == 2 || cls == 0x12) then raise s cWindow p 0
    else if !placeExists s (dieOfCore core) (clusterOfCore core % 64) (core % 8) || o + n > Config.scratchSize (dieOfCore core)
    then raise s cWindow p 0
    else if o % n != 0 then raise s cAlign p 0
    else if isTileE s core (o / 4096) then raise s cTileOwned p 0
    else
      let arb := 80 + 48 * dieOfCore core + clusterOfCore core % 64
      let key := 0x0020000000000000 + core * 2 ^ 33 + o
      withGrant s [arb] (sigRange (asidOf (me s)) key n) 0 (fun s =>
        let s := recordClosing s [arb]
        let x := leNat (memBytes s.mem (keyScratch core o) n)
        finishClosing s (push (me s).regs d (signExt (BitVec.ofNat 64 x) (8 * n)))))

/-! ## Launching (R235, R259) -/

def ldT (ws : List Word) : Nat := fld (wordAt ws 0) 47 36
def ldHandler (ws : List Word) : Nat := fld (wordAt ws 0) 35 24
def ldGang (ws : List Word) : Nat := fld (wordAt ws 0) 19 18
def ldClass (ws : List Word) : Nat := fld (wordAt ws 0) 17 16
def ldPriority (ws : List Word) : Nat := fld (wordAt ws 0) 15 14
def ldMobile (ws : List Word) : Bool := bit (wordAt ws 0) 10
def ldRetry (ws : List Word) : Bool := bit (wordAt ws 0) 9
def ldDup (ws : List Word) : Bool := bit (wordAt ws 0) 8
def ldX (ws : List Word) : Nat := fld (wordAt ws 1) 15 0
def ldY (ws : List Word) : Nat := fld (wordAt ws 1) 31 16
def ldZ (ws : List Word) : Nat := fld (wordAt ws 1) 47 32
def ldGroups (ws : List Word) : Nat := ldX ws * ldY ws * ldZ ws

/-- R235: the launch descriptor is well formed. -/
def launchOk (ws : List Word) : Bool :=
  let w0 := wordAt ws 0
  let g := ldGang ws
  fld w0 63 48 == 0 && fld w0 23 20 == 0 && fld w0 13 11 == 0 && fld w0 7 0 == 0
    && g ≤ 2 && ldClass ws ≤ 2 && ldT ws != 0 && (g != 0 || ldT ws == 1) && (g != 1 || ldT ws ≤ 64)
    && (g != 2 || (ldClass ws == 1 && ldT ws ≤ 3072) || (ldClass ws == 2 && ldT ws ≤ 2560))
    && (!ldDup ws || g == 0)
    && fld (wordAt ws 1) 63 48 == 0 && ldX ws != 0 && ldY ws != 0 && ldZ ws != 0 && ldGroups ws < 2 ^ 32
    && fld (wordAt ws 8) 2 0 == 0 && fld (wordAt ws 9) 2 0 == 0
    && fld (wordAt ws 10) 63 34 == 0
    && ((fld (wordAt ws 10) 33 32 == 0 && fld (wordAt ws 10) 31 0 == 0)
        || (fld (wordAt ws 10) 33 32 == 1 && fld (wordAt ws 10) 31 0 != 0))
    && fld (wordAt ws 12) 5 0 == 0
    && wordAt ws 13 == 0 && wordAt ws 14 == 0 && wordAt ws 15 == 0

def execLaunch (a : Src) (s : State) : Res :=
  let ea := src s a
  let q : AccReq := { ea := ea, n := 128, align := 128, kind := 0, need := needR, wins := [8], pages := [.hc, .pinned],
                      closes := false, sup := false }
  withAccess s q (fun t s' =>
    if poisoned s' t.key 128 then raiseHome s' cMcheck ea 1
    else if !launchOk (wordsOf (memBytes s'.mem t.key 128)) then raiseHome s' cQueueInvalid ea (BitVec.ofNat 64 (7 * 4096))
    else withEffect s s' (.launch ea) (fun s => finish s (me s).regs))

/-! ## Gang barriers (R260, R261) -/

/-- R260: the thread has arrived, and waits; or its release has been given. -/
def arriveBar (s : State) (band : Bool) : Res :=
  let u := (me s).unit
  if !chunkEmpty (me s) then endChunk s .resume
  else if (if band then u.barbOpen else u.barOpen) then
    let n := (me s).chunk.num + 1
    let s := modMe s (fun c => { c with unit := if band then { c.unit with barbs := n } else { c.unit with bars := n } })
    finish s (me s).regs
  else
    let s := modMe s (fun c => { c with
      unit := (if band then { c.unit with atBarb := true } else { c.unit with atBar := true }) })
    waitHere (post s 0 (.barrierRelease u.gang band)) (if band then 7 else 6)

def execBar (s : State) : Res := if (me s).unit.gangKind == 0 then raiseIllegal s else arriveBar s false
def execBarb (s : State) : Res := if (me s).unit.gangKind != 2 then raiseIllegal s else arriveBar s true

/-! ## Mapping queues (R262) -/

/-- R262: the probe of qmap: the entry can be written, and the descriptor is one of this ASID. -/
def execQmap (a b : Src) (s : State) : Res :=
  let h := (src s a).toNat
  let d := src s b
  let asid := asidOf (me s)
  if isUser (me s) then raisePriv s
  else if h > 4095 || !bit (asidWord s asid 0) 63 then raiseQueue s 1 0 h
  else
    let ev := tableVa s asid 8 h
    match hwAddr s asid ev true false with
    | .retry => stall s .arb
    | .fault _ s => raiseQueue s 1 ev h
    | .ok _ s' =>
      if d = 0 then withEffect s s' (.qmap h d) (fun s => finish s (me s).regs)
      else match readDesc s' asid d.toNat with
        | .ok _ _ => withEffect s s' (.qmap h d) (fun s => finish s (me s).regs)
        | .bad r va => raiseQueue s' r va h
        | _ => stall s' .arb

end Sys2Proof.Machine
end

