-- ==== Sys2Proof/Machine/Search.lean ====
section
/-! DEFINITION. Choice points, the spoor and their instructions (spec/20 R314–R324). -/

namespace Sys2Proof.Machine

/-! ## Choice records (R314, R315) -/

def recSize : Nat := 288

/-- R314: word 0x008. -/
def recRemaining (h : Word) : Nat := fld h 23 0
def recNext (h : Word) : Nat := fld h 47 24
def recStolen (h : Word) : Bool := bit h 62
def recStealable (h : Word) : Bool := bit h 63
def recWord (stealable stolen : Bool) (next remaining : Nat) : Word :=
  BitVec.ofNat 64 ((if stealable then 2 ^ 63 else 0) + (if stolen then 2 ^ 62 else 0) + next % 2 ^ 24 * 2 ^ 24 + remaining % 2 ^ 24)

/-- An 8-byte read of search state. -/
def searchRead (s : State) (va : Word) (k : Bool → Word → State → Res) : Res :=
  loadOne s (loadReq va 8) .pred (fun cl bs s => k cl (BitVec.ofNat 64 (leNat bs)) s)

/-- The targets of 8-byte writes at the given addresses, all checked before any has an effect. -/
def searchTargets (s : State) (items : List (Word × Word)) (k : List (Target × List Byte) → State → Res) : Res :=
  withAccesses s (items.map (fun i => storeReq i.1 8)) (fun ts s =>
    k (List.zipWith (fun t (i : Word × Word) => (t, wordBytes i.2)) ts items) s)

/-- 8-byte reads, each made before the next is checked. -/
def searchList (s : State) : List Word → List Word → (List Word → State → Res) → Res
  | [], acc, k => k acc s
  | va :: rest, acc, k => searchRead s va (fun _ x s1 => searchList s1 rest (acc ++ [x]) k)

def withSearch (c : Ctx) (choice spoor : Word) : Ctx := { c with ctl := { c.ctl with choice := choice, spoor := spoor } }

/-- c.choice and c.spoor set, then done at `pc`. -/
def searchDone (closing : Bool) (s : State) (r : Regs) (pc choice spoor : Word) : Res :=
  finishAny closing (modMe s (fun c => withSearch c choice spoor)) r pc

/-! ## fail (R321, R322) -/

/-- Part of a fail is done; the same fail goes on. -/
def failGoesOn (s : State) (r : Regs) (choice spoor : Word) : Res :=
  .next (modMe s (fun c => { withSearch c choice spoor with regs := r, walkFault := none, probe := none, woken := false }))

def kSetAll (r : Regs) (ws : List Word) : Regs := { r with k := Vector.ofFn (fun i => wordAt ws i.val) }

/-- R321: the stack is empty: the fail goes to c.failvec, or the thread retires. -/
def failEmpty (old s : State) (r : Regs) (choice : Word) : Res :=
  let s := modMe s (fun c => { withSearch c choice c.ctl.spoor with regs := r })
  if (me s).ctl.failvec ≠ 0 then finishAt s r ((me s).ctl.failvec &&& ~~~3)
  else retireAfter old s (.status 0xFFFFFFFE) (fun s k => k s)

/-- The addresses of a record's register words in the order of R321: k0, q0, k1, q1, … -/
def recRegs (rec' : Word) : List Word :=
  ((List.range 16).map (fun i => [rec' + BitVec.ofNat 64 (0x20 + 8 * i), rec' + BitVec.ofNat 64 (0xA0 + 8 * i)])).flatten

/-- R321: one restoration of an entry, one pop, or the resumption. DEDUCED (log 68): a try that executes fail in its place (`asTry`)
names a register, so k and q take the values of a record that it pops only when it ends there. -/
def failStep (s : State) (asTry : Bool) : Res :=
  let c := me s
  if c.ctl.choice = c.ctl.choicebase then failEmpty s s c.regs c.ctl.choice
  else
    let rec' := c.ctl.choice - BitVec.ofNat 64 recSize
    searchRead s (rec' + 0x10) (fun _ p s1 =>
      if p.ult c.ctl.spoor then
        let e := c.ctl.spoor - 16
        searchList s1 [e, e + 8] [] (fun ws s2 =>
          searchTargets s2 [(wordAt ws 0 &&& ~~~7, wordAt ws 1)] (fun items s3 =>
            putStores s s3 .pred items (fun _ s4 => failGoesOn s4 (me s4).regs c.ctl.choice e)))
      else
        searchList s1 (recRegs rec') [] (fun ws s2 =>
          let r := qLoad (kSetAll (me s2).regs ((List.range 16).map (fun i => wordAt ws (2 * i)))) (fun i => wordAt ws (2 * i.val + 1))
          searchRead s2 (rec' + 0x08) (fun _ h s3 =>
            if recRemaining h > 0 then
              let h' := recWord (recStealable h) (recStolen h) (recNext h + 1) (recRemaining h - 1)
              searchTargets s3 [(rec' + 0x08, h')] (fun items s4 =>
                searchRead s4 rec' (fun _ pc s5 =>
                  putStores s s5 .pred items (fun cl s6 =>
                    searchDone cl s6 (push r .push (BitVec.ofNat 64 (recNext h))) (pc &&& ~~~3) c.ctl.choice c.ctl.spoor)))
            else if rec' = c.ctl.choicebase then failEmpty s s3 r rec'
            else failGoesOn s3 (if asTry then (me s3).regs else r) rec' c.ctl.spoor)))

def execFailC (s : State) : Res := failStep s false

/-! ## try, cut, mark, trail (R320, R323, R324) -/

/-- R320: the words of a record, in the order in which they are written. -/
def recWords (rec' label spoor : Word) (stealable : Bool) (n : Nat) (g : Word) (r : Regs) : List (Word × Word) :=
  [(rec', label), (rec' + 0x08, recWord stealable false 1 (n - 1)), (rec' + 0x10, spoor), (rec' + 0x18, g)]
    ++ ((List.finRange 16).map (fun i =>
      [(rec' + BitVec.ofNat 64 (0x20 + 8 * i.val), r.k.get i), (rec' + BitVec.ofNat 64 (0xA0 + 8 * i.val), qGet r i)])).flatten

/-- R320, R318. -/
def tryStep (s : State) (a : Src) (o : BitVec 15) (stealable : Bool) : Res :=
  let c := me s
  let n := min (src s a).toNat (2 ^ 24)
  let rec' := c.ctl.choice
  if n = 0 then failStep s true
  else if rec'.toNat + recSize > c.ctl.choicelim.toNat then raise s cChoiceFull rec' 0
  else
    let label := pcPlus s o
    searchRead s (rec' + 0x18) (fun _ old s1 =>
      let g := (old + 1) &&& 0xFF
      searchTargets s1 (recWords rec' label c.ctl.spoor stealable n g c.regs) (fun items s2 =>
        putStores s s2 .pred items (fun cl s3 =>
          let s3 := if stealable then modMe s3 (fun c => { c with chunk := { c.chunk with tries := c.chunk.tries ++ [rec'.toNat] } }) else s3
          searchDone cl s3 (push (me s3).regs .push 0) label (rec' + BitVec.ofNat 64 recSize) c.ctl.spoor)))

def execTryC (a : Src) (o : BitVec 15) (s : State) : Res := tryStep s a o false
/-- R320: in a task of an ordered domain, try.s acts as try. -/
def execTryS (a : Src) (o : BitVec 15) (s : State) : Res := tryStep s a o (me s).unit.ordered.isNone

/-- R314: the depth of the stack. -/
def depthOf (c : Ctl) : Nat := (c.choice - c.choicebase).toNat / recSize

/-- R323: the records `d + n − 1` down to `d`: the tokens of those that were stolen from are to be pruned. Each write is checked before
the next record is read; they are made together, in order. -/
def cutScan (s : State) (base : Word) (d : Nat) : Nat → List (Target × List Byte) → (List (Target × List Byte) → State → Res) → Res
  | 0, acc, k => k acc s
  | n + 1, acc, k =>
    let rec' := base + BitVec.ofNat 64 (recSize * (d + n))
    searchRead s (rec' + 0x08) (fun _ h s1 =>
      if recStolen h then
        searchRead s1 (rec' + 0x18) (fun _ t s2 =>
          searchTargets s2 [(rec' + 0x18, t ||| 0x8000000000000000)] (fun items s3 => cutScan s3 base d n (acc ++ items) k))
      else cutScan s1 base d n acc k)

/-- R323: cut to depth `d`, then `k` with the state in which the stores stand and the registers are set. -/
def cutTo (s : State) (d : Nat) (k : Bool → State → Res) : Res :=
  let c := me s
  let t := depthOf c.ctl
  if d < t then
    cutScan s c.ctl.choicebase d (t - d) [] (fun items s1 =>
      putStores s s1 .pred items (fun cl s2 =>
        k cl (modMe s2 (fun c => withSearch c (c.ctl.choicebase + BitVec.ofNat 64 (recSize * d))
          (if d = 0 then c.ctl.spoorbase else c.ctl.spoor)))))
  else k false s

def execCut (a : Src) (s : State) : Res := cutTo s (src s a).toNat (fun cl s => finishAny cl s (me s).regs ((me s).regs.pc + 4))

def execMark (d : Dest) (s : State) : Res := finishPush s d (BitVec.ofNat 64 (depthOf (me s).ctl))

/-- R324: append an entry as a trailed store would, and write nothing at EA. -/
def execTrail (a : Src) (z : Size) (s : State) : Res :=
  let n := sizeN z
  let q := loadReq (src s a) n
  if !trailing (me s) then finish s (me s).regs
  else withAccess s q (fun t s1 => storeAll s s1 .pred [{ ea := q.ea, target := t, code := sizeCode n }] [] storeDone)

end Sys2Proof.Machine
end

