-- ==== Sys2Proof/Machine/MatrixContext.lean ====
section
/-! DEFINITION. The matrix-context instructions (spec/24 R396–R400, spec/03 R56). On an S-die they raise ILLEGAL. -/

namespace Sys2Proof.Machine

/-- R56: the matrix-context instructions exist on M-dies. -/
def onMDie (s : State) (k : Res) : Res := if Config.isM (dieOf s.cur) then k else raiseIllegal s

/-- R396: takes effect at the commit (R374). -/
def execMfmt (i : BitVec 15) (s : State) : Res := onMDie s (effectDone s (.mfmt i))

def execMscl (a : Src) (n : Fin 8) (s : State) : Res := onMDie s (effectDone s (.mscl n (lo32 (src s a))))

/-- R398: the last completed ticket of the context. -/
def execMtick (d : Dest) (s : State) : Res := onMDie s (finishPush s d ((me s).ticket.setWidth 64))

/-- R399: an engine pointer with offset 0. -/
def execMresume (a : Src) (s : State) : Res :=
  onMDie s (if src s a = 0x0040000000000000 then effectDone s .mresume else raise s cWindow (src s a) 0)

/-- R400. -/
def execAccspill (a b : Src) (s : State) : Res :=
  let t := src s a
  let va := src s b
  onMDie s (
    if isUser (me s) then raisePriv s
    else if t.toNat > 15 then raise s cWindow va 0
    else if va = 0 then effectDone s (.accspill t.toNat va)
    else withAccess s { storeReq va 16384 with wins := [8], pages := [.hc, .pinned], closes := false } (fun _ s' =>
      withEffect s s' (.accspill t.toNat va) (fun s => finish s (me s).regs)))

end Sys2Proof.Machine
end

