-- ==== Sys2Proof/Machine/Flags.lean ====
section
/-! DEFINITION. The floating-point flags and modes (R34, R83, R90, R345, R351), and rounding: what a magnitude becomes under
each mode, whether it is inexact, and whether it is tiny. -/

namespace Sys2Proof.Machine

/-- R34: c.fpflags [4] NX, [3] UF, [2] OF, [1] DZ, [0] NV. -/
abbrev Flags := BitVec 5

def fNV : Flags := 1
def fDZ : Flags := 2
def fOF : Flags := 4
def fUF : Flags := 8
def fNX : Flags := 16

def flagIf (c : Bool) (f : Flags) : Flags := if c then f else 0

/-- R62: SetFlag. -/
def orFlags (c : Ctl) (f : Flags) : Ctl := { c with fpflags := c.fpflags ||| f.setWidth 64 }

/-- R34: 0 RNE, 1 RTZ, 2 RDN, 3 RUP; 4 stands for stochastic rounding (R345). -/
def rneMode : Nat := 0
def rtzMode : Nat := 1
def rdnMode : Nat := 2
def rupMode : Nat := 3
def srMode : Nat := 4

def roundMode (fpmode : Word) : Nat := fld fpmode 1 0
def ftzBf (fpmode : Word) : Bool := bit fpmode 2
def ftzSf (fpmode : Word) : Bool := bit fpmode 3
def srOn (fpmode : Word) : Bool := bit fpmode 4

/-- R346: the generator's next state. -/
def xorshift (x : Word) : Word :=
  let x := x ^^^ (x <<< 13)
  let x := x ^^^ (x >>> 7)
  x ^^^ (x <<< 17)

/-- R346: r := x[63:48]. -/
def drawBits (x : Word) : Nat := fld x 63 48

/-- The magnitude m · 2^e is a multiple of 2^q. -/
def isMultiple (m : Nat) (e q : Int) : Bool := q ≤ e || m % 2 ^ (q - e).toNat == 0

/-- R345: m / 2^sh rounded to an integer; the remainder is not zero. -/
def roundShift (mode : Nat) (neg : Bool) (m sh : Nat) : Nat :=
  let n := m / 2 ^ sh
  let rem := m % 2 ^ sh
  let half := 2 ^ (sh - 1)
  if mode = rneMode then (if rem > half || (rem == half && n % 2 == 1) then n + 1 else n)
  else if mode = rdnMode then (if neg then n + 1 else n)
  else if mode = rupMode then (if neg then n else n + 1)
  else n

/-- R346: stochastic rounding of m / 2^sh with the draw r. -/
def roundStochastic (m sh r : Nat) : Nat :=
  ((if sh ≥ 16 then m / 2 ^ (sh - 16) else m * 2 ^ (16 - sh)) + r) / 2 ^ 16

/-- The magnitude m · 2^e as a multiple of 2^q. -/
def roundTo (mode r : Nat) (neg : Bool) (m : Nat) (e q : Int) : Nat :=
  if q ≤ e then m * 2 ^ (e - q).toNat
  else
    let sh := (q - e).toNat
    if m % 2 ^ sh = 0 then m / 2 ^ sh
    else if mode = srMode then roundStochastic m sh r
    else roundShift mode neg m sh

/-- The exponent of a non-zero magnitude. -/
def topBit (m : Nat) (e : Int) : Int := (Nat.log2 m : Int) + e

/-- R83, R340: the quantum of a result with `tb` trailing bits and the least normal exponent `emin`. -/
def quantum (tb : Nat) (emin : Int) (m : Nat) (e : Int) : Int := max (topBit m e) emin - tb

/-- The non-zero magnitude m · 2^e needs rounding (R346: such an element draws). -/
def needsRounding (tb : Nat) (emin : Int) (m : Nat) (e : Int) : Bool := m != 0 && !isMultiple m e (quantum tb emin m e)

/-- R83, R337, R341: the exponent and trailing fields of a magnitude rounded at its quantum; the exponent is unbounded. -/
def magCode (tb : Nat) (emin : Int) (mode r : Nat) (neg : Bool) (m : Nat) (e : Int) : Nat :=
  let q := quantum tb emin m e
  (q - (emin - tb)).toNat * 2 ^ tb + roundTo mode r neg m e q

/-- R83: the magnitude rounded with an unbounded exponent is below the smallest normal; under stochastic rounding the
delivered magnitude is (R346). -/
def isTiny (tb : Nat) (emin : Int) (mode r : Nat) (neg : Bool) (m : Nat) (e : Int) : Bool :=
  if topBit m e ≥ emin then false
  else if mode = srMode then roundTo mode r neg m e (emin - tb) < 2 ^ tb
  else
    let q := topBit m e - tb
    roundTo mode r neg m e q < 2 ^ (emin - q).toNat

end Sys2Proof.Machine
end

