-- ==== Sys2Proof/Machine/Numbers.lean ====
section
/-! DEFINITION. Number formats (spec/22): what a code means, how a value becomes a code, exact arithmetic on values,
MX blocks, the Hadamard rotation and the sums of the matrix and vector units. -/

namespace Sys2Proof.Machine

/-- A value: a NaN (signalling or quiet), an infinity, or (−1)^neg · m · 2^e. -/
inductive Val where
  | nan (sig : Bool)
  | inf (neg : Bool)
  | fin (neg : Bool) (m : Nat) (e : Int)
deriving DecidableEq, Repr

def vNan : Val → Bool
  | .nan _ => true
  | _ => false
def vSnan : Val → Bool
  | .nan s => s
  | _ => false
def vFin : Val → Bool
  | .fin _ _ _ => true
  | _ => false
def vZero : Val → Bool
  | .fin _ m _ => m == 0
  | _ => false
def vNeg : Val → Bool
  | .nan _ => false
  | .inf n => n
  | .fin n _ _ => n

/-- R336: a format with `eb` exponent bits, `tb` trailing bits and a bias. -/
structure FpFmt where
  eb : Nat
  tb : Nat
  bias : Int
deriving DecidableEq, Repr

def fmtDf : FpFmt := ⟨11, 52, 1023⟩
def fmtSf : FpFmt := ⟨8, 23, 127⟩
def fmtHf : FpFmt := ⟨5, 10, 15⟩
def fmtBf : FpFmt := ⟨8, 7, 127⟩

def FpFmt.width (f : FpFmt) : Nat := f.eb + f.tb + 1
def FpFmt.emin (f : FpFmt) : Int := 1 - f.bias
/-- R336: the code of +∞. -/
def FpFmt.infCode (f : FpFmt) : Nat := (2 ^ f.eb - 1) * 2 ^ f.tb
/-- R83: the canonical quiet NaN. -/
def FpFmt.canon (f : FpFmt) : Nat := f.infCode + 2 ^ (f.tb - 1)
def FpFmt.signBit (f : FpFmt) : Nat := 2 ^ (f.eb + f.tb)

/-- R90: the format flushes its subnormals under c.fpmode. -/
def flushes (fpmode : Word) (f : FpFmt) : Bool := (f == fmtSf && ftzSf fpmode) || (f == fmtBf && ftzBf fpmode)

/-- R336, R83: the value of a code; `flush` reads a subnormal as a zero (R90). -/
def ieeeVal (f : FpFmt) (flush : Bool) (x : Nat) : Val :=
  let neg := x / f.signBit % 2 == 1
  let e := x / 2 ^ f.tb % 2 ^ f.eb
  let t := x % 2 ^ f.tb
  if e = 2 ^ f.eb - 1 then (if t = 0 then .inf neg else .nan (t / 2 ^ (f.tb - 1) == 0))
  else if e = 0 then .fin neg (if flush then 0 else t) (f.emin - f.tb)
  else .fin neg (2 ^ f.tb + t) ((e : Int) - f.bias - f.tb)

/-- A code with the flags that making it sets. -/
structure Coded where
  bits : Nat
  flags : Flags
deriving DecidableEq, Repr

def signOf (f : FpFmt) (neg : Bool) : Nat := if neg then f.signBit else 0

/-- R83, R90, R346: a value rounded once to a format. -/
def ieeeCode (f : FpFmt) (flush : Bool) (mode r : Nat) (v : Val) : Coded :=
  match v with
  | .nan s => ⟨f.canon, flagIf s fNV⟩
  | .inf n => ⟨signOf f n + f.infCode, 0⟩
  | .fin n m e =>
    if m = 0 then ⟨signOf f n, 0⟩
    else
      let c := magCode f.tb f.emin mode r n m e
      let inexact := needsRounding f.tb f.emin m e
      if c ≥ f.infCode then
        let toInf := mode == rneMode || mode == srMode || (mode == rupMode && !n) || (mode == rdnMode && n)
        ⟨signOf f n + (if toInf then f.infCode else f.infCode - 1), fOF ||| fNX⟩
      else if flush && c < 2 ^ f.tb then ⟨signOf f n, fUF ||| fNX⟩
      else ⟨signOf f n + c,
            flagIf inexact fNX ||| flagIf (inexact && isTiny f.tb f.emin mode r n m e) fUF⟩

/-! ## The binary8 family, E2M1, E8M0 (R337–R342) -/

/-- R337: bias of precision `p`. -/
def b8Bias (p : Nat) (signed : Bool) : Int := if signed then 2 ^ (7 - p) else 2 ^ (8 - p)
def b8Max (signed inf : Bool) : Nat := if signed then (if inf then 0x7E else 0x7F) else (if inf then 0xFD else 0xFE)

/-- R337: the value of a binary8 code. -/
def b8Val (p : Nat) (signed inf : Bool) (x : Nat) : Val :=
  let mag := if signed then x % 128 else x % 256
  let neg := signed && x % 256 ≥ 128
  let tb := p - 1
  let e := mag / 2 ^ tb
  let t := mag % 2 ^ tb
  if (signed && x % 256 == 0x80) || (!signed && x % 256 == 0xFF) then .nan false
  else if inf && mag == (if signed then 0x7F else 0xFE) then .inf neg
  else if e = 0 then .fin neg t (1 - b8Bias p signed - tb)
  else .fin neg (2 ^ tb + t) ((e : Int) - b8Bias p signed - tb)

/-- R340: a value as a binary8 code. DEDUCED (log 10): a negative value that does not round to zero, and −∞, take the last
row of the table when the format is unsigned. -/
def b8Code (p : Nat) (signed sat inf : Bool) (mode r : Nat) (v : Val) : Coded :=
  let nan := if signed then 0x80 else 0xFF
  let sg : Bool → Nat := fun n => if n then 0x80 else 0
  let tb := p - 1
  let emin := 1 - b8Bias p signed
  let negOut : Coded := if sat then ⟨0, fNV⟩ else ⟨nan, fNV⟩
  match v with
  | .nan s => ⟨nan, flagIf s fNV⟩
  | .inf n =>
    if n && !signed then negOut
    else if inf then ⟨sg n + b8Max signed inf + 1, 0⟩
    else if sat then ⟨sg n + b8Max signed inf, fOF ||| fNX⟩
    else ⟨nan, fNV⟩
  | .fin n m e =>
    if m = 0 then ⟨0, 0⟩
    else
      let c := magCode tb emin mode r n m e
      let inexact := needsRounding tb emin m e
      if c = 0 then ⟨0, fUF ||| fNX⟩
      else if n && !signed then negOut
      else if c > b8Max signed inf then
        (if sat then ⟨sg n + b8Max signed inf, fOF ||| fNX⟩
         else if inf then ⟨sg n + b8Max signed inf + 1, fOF ||| fNX⟩
         else ⟨nan, fNV⟩)
      else ⟨sg n + c, flagIf inexact fNX ||| flagIf (inexact && isTiny tb emin mode r n m e) fUF⟩

/-- R341: the value of an E2M1 code; 0x8 is read as zero. -/
def e2m1Val (x : Nat) : Val :=
  let mag := x % 8
  let neg := x % 16 ≥ 8 && mag != 0
  if mag < 2 then .fin neg mag (-1) else .fin neg (2 + mag % 2) ((mag / 2 : Nat) - 2)

/-- R341: a finite value as an E2M1 code; saturates at ±6. -/
def e2m1Code (mode r : Nat) (n : Bool) (m : Nat) (e : Int) : Coded :=
  if m = 0 then ⟨0, 0⟩
  else
    let c := magCode 1 0 mode r n m e
    let sg := if n then 8 else 0
    if c = 0 then ⟨0, fUF ||| fNX⟩
    else if c > 7 then ⟨sg + 7, fOF ||| fNX⟩
    else ⟨sg + c, flagIf (needsRounding 1 0 m e) fNX ||| flagIf (needsRounding 1 0 m e && isTiny 1 0 mode r n m e) fUF⟩

/-- R342: the value of an E8M0 scale. -/
def e8m0Val (x : Nat) : Val := if x % 256 = 0xFF then .nan false else .fin false 1 ((x % 256 : Nat) - 127)

/-- Two's complement of `n` bits. -/
def intVal (n : Nat) (x : Nat) : Val :=
  let v := x % 2 ^ n
  if v ≥ 2 ^ (n - 1) then .fin true (2 ^ n - v) 0 else .fin false v 0
def natVal (n : Nat) (x : Nat) : Val := .fin false (x % 2 ^ n) 0

/-- R344: a finite value as an .mxi8 element: a multiple of 2^−6 clamped to −128 · 2^−6 … 127 · 2^−6. -/
def mxi8Code (mode r : Nat) (n : Bool) (m : Nat) (e : Int) : Coded :=
  let k := roundTo mode r n m e (-6)
  let lim := if n then 128 else 127
  let out : Nat → Nat := fun k => if n then (256 - k) % 256 else k
  if k > lim then ⟨out lim, fOF ||| fNX⟩ else ⟨out k, flagIf (m != 0 && !isMultiple m e (-6)) fNX⟩

/-- R89: a value as an integer of `n` bits; out of range it is the nearest end. -/
def intCode (n : Nat) (signed : Bool) (mode : Nat) (v : Val) : Coded :=
  let top := if signed then 2 ^ (n - 1) - 1 else 2 ^ n - 1
  let bot := if signed then 2 ^ (n - 1) else 0
  match v with
  | .nan _ => ⟨0, fNV⟩
  | .inf true => ⟨(2 ^ n - bot) % 2 ^ n, fNV⟩
  | .inf false => ⟨top, fNV⟩
  | .fin neg m e =>
    let k := roundTo mode 0 neg m e 0
    if neg && k > bot then ⟨(2 ^ n - bot) % 2 ^ n, fNV⟩
    else if !neg && k > top then ⟨top, fNV⟩
    else ⟨if neg then (2 ^ n - k) % 2 ^ n else k, flagIf (m != 0 && !isMultiple m e 0) fNX⟩

/-! ## Element types (R57) -/

def b8P (p : Fin 7) : Nat := p.val + 1

/-- R352: element width in bits. -/
def eBits : ETy → Nat
  | .b => 8 | .h => 16 | .w => 32 | .d => 64 | .i4 => 4 | .hf => 16 | .bf => 16 | .sf => 32 | .df => 64
  | .b8 _ => 8 | .mxi8 => 8 | .b8n _ => 8 | .mx4 => 4 | .mxp _ => 8

def eFmt : ETy → Option FpFmt
  | .hf => some fmtHf | .bf => some fmtBf | .sf => some fmtSf | .df => some fmtDf
  | .b => none | .h => none | .w => none | .d => none | .i4 => none | .b8 _ => none | .mxi8 => none | .b8n _ => none
  | .mx4 => none | .mxp _ => none

def eInt : ETy → Bool
  | .b => true | .h => true | .w => true | .d => true | .i4 => true
  | .hf => false | .bf => false | .sf => false | .df => false | .b8 _ => false | .mxi8 => false | .b8n _ => false
  | .mx4 => false | .mxp _ => false

def eMx : ETy → Bool
  | .mxi8 => true | .mx4 => true | .mxp _ => true
  | .b => false | .h => false | .w => false | .d => false | .i4 => false | .hf => false | .bf => false | .sf => false
  | .df => false | .b8 _ => false | .b8n _ => false

/-- The arithmetic types among the element types. -/
def aE : ATy → ETy
  | .b => .b | .h => .h | .w => .w | .d => .d | .hf => .hf | .bf => .bf | .sf => .sf | .df => .df

def pFmt : Prec → FpFmt
  | .sf => fmtSf | .df => fmtDf

/-- The value of an element's code. R343: MX elements without their scale; R339: `inf` for binary8. -/
def eVal (fpmode : Word) (inf : Bool) (t : ETy) (x : Nat) : Val :=
  match t with
  | .hf => ieeeVal fmtHf (flushes fpmode fmtHf) x
  | .bf => ieeeVal fmtBf (flushes fpmode fmtBf) x
  | .sf => ieeeVal fmtSf (flushes fpmode fmtSf) x
  | .df => ieeeVal fmtDf (flushes fpmode fmtDf) x
  | .b8 p => b8Val (b8P p) true inf x
  | .b8n p => b8Val (b8P p) false inf x
  | .mxp p => b8Val (b8P p) true false x
  | .mx4 => e2m1Val x
  | .mxi8 => match intVal 8 x with
    | .fin n m _ => .fin n m (-6)
    | v => v
  | .b => intVal 8 x | .h => intVal 16 x | .w => intVal 32 x | .d => intVal 64 x | .i4 => intVal 4 x

/-- Trailing bits and least normal exponent of a floating-point destination of 16 bits or fewer (R345). -/
def srShape : ETy → Option (Nat × Int)
  | .hf => some (10, fmtHf.emin)
  | .bf => some (7, fmtBf.emin)
  | .b8 p => some (p.val, 1 - b8Bias (b8P p) true)
  | .b8n p => some (p.val, 1 - b8Bias (b8P p) false)
  | .mxp p => some (p.val, 1 - b8Bias (b8P p) true)
  | .mx4 => some (1, 0)
  | .mxi8 => none | .sf => none | .df => none | .b => none | .h => none | .w => none | .d => none | .i4 => none

/-- The code of the largest finite magnitude of such a destination, and whether it has negative values. -/
def srLimit : ETy → Nat × Bool
  | .hf => (fmtHf.infCode - 1, true)
  | .bf => (fmtBf.infCode - 1, true)
  | .b8 _ => (b8Max true false, true)
  | .b8n _ => (b8Max false false, false)
  | .mxp _ => (b8Max true false, true)
  | .mx4 => (7, true)
  | .mxi8 | .sf | .df | .b | .h | .w | .d | .i4 => (0, true)

/-- R346: the value is finite and not exactly representable in a destination that may use stochastic rounding. -/
def drawsFor (t : ETy) (v : Val) : Bool :=
  match v with
  | .fin neg m e => m != 0 && (match t with
    | .mxi8 => !isMultiple m e (-6) || decide (roundTo rneMode 0 neg m e (-6) > if neg then 128 else 127)
    | t => match srShape t with
      | some (tb, emin) => needsRounding tb emin m e || decide (magCode tb emin rneMode 0 neg m e > (srLimit t).1) || (neg && !(srLimit t).2)
      | none => false)
  | _ => false

/-- R345: the destination uses stochastic rounding. -/
def srDest (fpmode : Word) (t : ETy) : Bool := srOn fpmode && ((srShape t).isSome || t == .mxi8)

/-- Encode a value in an element type under a rounding mode. Vector unit: binary8 with infinities off and saturation on
(R339); the matrix unit passes its own settings. A NaN or ∞ as a single MX element does not arise (R344). -/
def eCode (fpmode : Word) (sat inf : Bool) (t : ETy) (mode r : Nat) (v : Val) : Coded :=
  match t with
  | .hf => ieeeCode fmtHf false mode r v
  | .bf => ieeeCode fmtBf (flushes fpmode fmtBf) mode r v
  | .sf => ieeeCode fmtSf (flushes fpmode fmtSf) mode r v
  | .df => ieeeCode fmtDf false mode r v
  | .b8 p => b8Code (b8P p) true sat inf mode r v
  | .b8n p => b8Code (b8P p) false sat inf mode r v
  | .mxp p => b8Code (b8P p) true true false mode r v
  | .mx4 => match v with
    | .fin n m e => e2m1Code mode r n m e
    | _ => ⟨0, fNV⟩
  | .mxi8 => match v with
    | .fin n m e => mxi8Code mode r n m e
    | _ => ⟨0, fNV⟩
  | .b => intCode 8 true mode v | .h => intCode 16 true mode v | .w => intCode 32 true mode v
  | .d => intCode 64 true mode v | .i4 => intCode 4 true mode v

/-- R345, R346: encode a value in an element type under stochastic rounding, with a draw. -/
def convertDraw (fpmode rng : Word) (t : ETy) (v : Val) : Word × Coded :=
  (xorshift rng, eCode fpmode true false t srMode (drawBits (xorshift rng)) v)

/-- R345, R346: encode an element of a vector in an element type under c.fpmode, drawing when stochastic rounding must round. -/
def convert (fpmode rng : Word) (t : ETy) (v : Val) : Word × Coded :=
  if srDest fpmode t then
    if drawsFor t v then convertDraw fpmode rng t v
    else (rng, eCode fpmode true false t srMode 0 v)
  else (rng, eCode fpmode true false t (roundMode fpmode) 0 v)

/-! ## Exact arithmetic (R84–R86, R349) -/

/-- A signed magnitude as an integer at exponent `e`. -/
def atExp (neg : Bool) (m : Nat) (e0 e : Int) : Int :=
  let k : Int := m * 2 ^ (e0 - e).toNat
  if neg then -k else k

/-- The value of an integer times 2^e; zero takes the sign given. -/
def ofInt (k e : Int) (zeroNeg : Bool) : Val :=
  if k = 0 then .fin zeroNeg 0 e else .fin (decide (k < 0)) k.natAbs e

/-- A result that is exact, before its one rounding, with the flags of its operands. -/
abbrev Exact := Val × Flags

def anySnan (l : List Val) : Bool := l.any vSnan
def anyNan (l : List Val) : Bool := l.any vNan

/-- R84: a + b. -/
def exAdd (mode : Nat) (a b : Val) : Exact :=
  if anyNan [a, b] then (.nan false, flagIf (anySnan [a, b]) fNV)
  else match a, b with
    | .inf m, .inf n => if m = n then (.inf m, 0) else (.nan false, fNV)
    | .inf m, _ => (.inf m, 0)
    | _, .inf n => (.inf n, 0)
    | .fin na ma ea, .fin nb mb eb =>
      let e := min ea eb
      let z := if ma = 0 ∧ mb = 0 ∧ na = nb then na else mode == rdnMode
      (ofInt (atExp na ma ea e + atExp nb mb eb e) e z, 0)
    | _, _ => (.nan false, 0)

def negVal : Val → Val
  | .nan s => .nan s
  | .inf n => .inf (!n)
  | .fin n m e => .fin (!n) m e

/-- R84: a − b. -/
def exSub (mode : Nat) (a b : Val) : Exact := exAdd mode a (negVal b)

/-- R84: a × b. -/
def exMul (a b : Val) : Exact :=
  if anyNan [a, b] then (.nan false, flagIf (anySnan [a, b]) fNV)
  else match a, b with
    | .fin na ma ea, .fin nb mb eb => (.fin (na != nb) (ma * mb) (ea + eb), 0)
    | x, y => if vZero x || vZero y then (.nan false, fNV) else (.inf (vNeg x != vNeg y), 0)

/-- R84: a / b. The last bit of the quotient tells whether anything follows. -/
def exDiv (a b : Val) : Exact :=
  if anyNan [a, b] then (.nan false, flagIf (anySnan [a, b]) fNV)
  else match a, b with
    | .inf _, .inf _ => (.nan false, fNV)
    | .inf m, y => (.inf (m != vNeg y), 0)
    | x, .inf n => (.fin (vNeg x != n) 0 0, 0)
    | .fin na ma ea, .fin nb mb eb =>
      if mb = 0 then (if ma = 0 then (.nan false, fNV) else (.inf (na != nb), fDZ))
      else
        let k := 130 + Nat.log2 mb
        let q := ma * 2 ^ k / mb
        let sticky := if ma * 2 ^ k % mb = 0 then 0 else 1
        (.fin (na != nb) (2 * q + sticky) (ea - eb - k - 1), 0)
    | _, _ => (.nan false, 0)

/-- The integer square root, bit by bit from 2^(n−1). -/
def isqrt (x : Nat) : Nat → Nat → Nat
  | 0, r => r
  | n + 1, r => isqrt x n (if (r + 2 ^ n) * (r + 2 ^ n) ≤ x then r + 2 ^ n else r)

/-- R84: √a. -/
def exSqrt (a : Val) : Exact :=
  match a with
  | .nan s => (.nan false, flagIf s fNV)
  | .inf n => if n then (.nan false, fNV) else (.inf false, 0)
  | .fin n m e =>
    if m = 0 then (.fin n 0 e, 0)
    else if n then (.nan false, fNV)
    else
      let m1 := (if e % 2 = 0 then m else 2 * m) * 2 ^ 128
      let e1 := (if e % 2 = 0 then e else e - 1) - 128
      let s := isqrt m1 100 0
      (.fin false (2 * s + (if s * s = m1 then 0 else 1)) (e1 / 2 - 1), 0)

/-- R84: a × b + c, rounded once by the caller. -/
def exFma (mode : Nat) (a b c : Val) : Exact :=
  let zi := (vZero a && b matches .inf _) || (vZero b && a matches .inf _)
  if zi then (.nan false, fNV)
  else if anyNan [a, b, c] then (.nan false, flagIf (anySnan [a, b, c]) fNV)
  else exAdd mode (exMul a b).1 c

/-- −1, 0 or 1 as a < b, a = b or a > b; NaNs excluded. -/
def cmpVal (a b : Val) : Int :=
  match a, b with
  | .inf m, .inf n => if m = n then 0 else if m then -1 else 1
  | .inf m, _ => if m then -1 else 1
  | _, .inf n => if n then 1 else -1
  | .fin na ma ea, .fin nb mb eb =>
    let e := min ea eb
    let d := atExp na ma ea e - atExp nb mb eb e
    if d < 0 then -1 else if d = 0 then 0 else 1
  | _, _ => 0

/-! ## Operations on codes of one format -/

/-- Round an exact result to a format under c.fpmode[1:0]. -/
def pack (fpmode : Word) (f : FpFmt) (x : Exact) : Coded :=
  let c := ieeeCode f (flushes fpmode f) (roundMode fpmode) 0 x.1
  ⟨c.bits, c.flags ||| x.2⟩

def unpack (fpmode : Word) (f : FpFmt) (x : Nat) : Val := ieeeVal f (flushes fpmode f) x

/-- The floating-point operations of two operands. -/
inductive FOp where
  | add | sub | mul | div | min | max
deriving DecidableEq, Repr

/-- R90: the code as it is read: a flushed subnormal is a zero of its sign. -/
def flushCode (fpmode : Word) (f : FpFmt) (x : Nat) : Nat :=
  let x := x % 2 ^ f.width
  if flushes fpmode f && x / 2 ^ f.tb % 2 ^ f.eb == 0 then x / f.signBit * f.signBit else x

/-- R85: fmin and fmax. −0 is smaller than +0. -/
def fpMinMax (fpmode : Word) (f : FpFmt) (isMax : Bool) (x y : Nat) : Coded :=
  let a := unpack fpmode f x
  let b := unpack fpmode f y
  let fl := flagIf (anySnan [a, b]) fNV
  let xc := flushCode fpmode f x
  let yc := flushCode fpmode f y
  if vNan a && vNan b then ⟨f.canon, fl⟩
  else if vNan a then ⟨yc, fl⟩
  else if vNan b then ⟨xc, fl⟩
  else
    let c := cmpVal a b
    let less := c < 0 || (c == 0 && vNeg a && !vNeg b)
    ⟨if less != isMax then xc else yc, fl⟩

/-- R84, R85. -/
def fpBin (fpmode : Word) (f : FpFmt) (op : FOp) (x y : Nat) : Coded :=
  let a := unpack fpmode f x
  let b := unpack fpmode f y
  match op with
  | .add => pack fpmode f (exAdd (roundMode fpmode) a b)
  | .sub => pack fpmode f (exSub (roundMode fpmode) a b)
  | .mul => pack fpmode f (exMul a b)
  | .div => pack fpmode f (exDiv a b)
  | .min => fpMinMax fpmode f false x y
  | .max => fpMinMax fpmode f true x y

/-- R84. -/
def fpSqrt (fpmode : Word) (f : FpFmt) (x : Nat) : Coded := pack fpmode f (exSqrt (unpack fpmode f x))
def fpFma (fpmode : Word) (f : FpFmt) (x y z : Nat) : Coded :=
  pack fpmode f (exFma (roundMode fpmode) (unpack fpmode f x) (unpack fpmode f y) (unpack fpmode f z))

/-- R86, R359: equal; NV for a signalling NaN. -/
def fpEq (fpmode : Word) (f : FpFmt) (x y : Nat) : Bool × Flags :=
  let a := unpack fpmode f x
  let b := unpack fpmode f y
  (!anyNan [a, b] && cmpVal a b == 0, flagIf (anySnan [a, b]) fNV)

/-- R86: a < b, or a ≤ b; NV for any NaN. -/
def fpLess (fpmode : Word) (f : FpFmt) (orEq : Bool) (x y : Nat) : Bool × Flags :=
  let a := unpack fpmode f x
  let b := unpack fpmode f y
  (!anyNan [a, b] && (cmpVal a b < 0 || (orEq && cmpVal a b == 0)), flagIf (anyNan [a, b]) fNV)

/-- R87: the class bit of a code, read unflushed. -/
def fpClass (f : FpFmt) (x : Nat) : Nat :=
  let sub := x / 2 ^ f.tb % 2 ^ f.eb == 0
  match ieeeVal f false x with
  | .nan s => if s then 256 else 512
  | .inf n => if n then 1 else 128
  | .fin n m _ => if m = 0 then (if n then 8 else 16) else if sub then (if n then 4 else 32) else (if n then 2 else 64)

/-- R88: round to an integral value; NX is never set. -/
def fpRound (fpmode : Word) (f : FpFmt) (x : Nat) : Coded :=
  match unpack fpmode f x with
  | .nan s => ⟨f.canon, flagIf s fNV⟩
  | .inf n => ⟨signOf f n + f.infCode, 0⟩
  | .fin n m e =>
    let k := if e ≥ 0 then m * 2 ^ e.toNat else roundTo (roundMode fpmode) 0 n m e 0
    ⟨(ieeeCode f false rneMode 0 (.fin n k 0)).bits, 0⟩

/-- R88: a with the sign bit of b. -/
def fpSign (f : FpFmt) (x y : Nat) : Nat := x % f.signBit + y / f.signBit % 2 * f.signBit

/-! ## MX blocks and the Hadamard rotation (R344, R347) -/

/-- R344: exponent of the largest finite value of an MX element. -/
def mxEmax : ETy → Int
  | .mx4 => 2
  | .mxp p => 2 ^ (6 - p.val) - 1
  | _ => 0

/-- R347 step 1: y_i = Σ_j H[i][j] × x_j over a run of finite values at exponent e. -/
def hadSum (xs : List Int) (i : Nat) : Int :=
  (xs.foldl (fun (acc : Int × Nat) x =>
    (if popN (i &&& acc.2) 8 % 2 = 1 then acc.1 - x else acc.1 + x, acc.2 + 1)) (0, 0)).1

/-- R347: the unscaled sums of a run; none when it holds a NaN or an ∞. -/
def hadamard (xs : List Val) : Option (List Val) :=
  if xs.all vFin then
    let e := xs.foldl (fun (acc : Int) x => match x with
      | .fin _ m e => if m = 0 then acc else min acc e
      | _ => acc) 4096
    let ks := xs.map (fun x => match x with
      | .fin n m e0 => if m = 0 then 0 else atExp n m e0 e
      | _ => 0)
    some ((List.range xs.length).map (fun i => ofInt (hadSum ks i) e false))
  else none

def scaleBy (k : Int) : Val → Val
  | .fin n m e => .fin n m (e + k)
  | v => v

/-- R344: the scale byte of exponent `x`, at least −127. No rule bounds `x` above (log 83). -/
def mxScaleByte (x : Int) : Nat :=
  if x + 127 < 256 then (x + 127).toNat else (Config.mxScale (x + 127).toNat).toNat

/-- R344: element codes, the scale byte and the flags of a block; the generator's state goes through. -/
def mxBlock (fpmode rng : Word) (t : ETy) (h : Int) (vs : List Val) : Word × List Nat × Nat × Flags :=
  if !vs.all vFin then (rng, vs.map (fun _ => 0), 0xFF, fNV)
  else if vs.all vZero then (rng, vs.map (fun _ => 0), 0x7F, 0)
  else
    let top := vs.foldl (fun (acc : Int) v => match v with
      | .fin _ m e => if m = 0 then acc else max acc (topBit m e)
      | _ => acc) (-8192)
    let x := max (top - mxEmax t - h) (-127)
    let out := vs.foldl (fun (acc : Word × List Nat × Flags) v =>
      let p := convert fpmode acc.1 t (scaleBy (-(x + h)) v)
      (p.1, acc.2.1 ++ [p.2.bits], acc.2.2 ||| p.2.flags)) (rng, [], 0)
    (out.1, out.2.1, mxScaleByte x, out.2.2)

/-! ## Sums (R348, R349) -/

/-- R348, R349: the exact sum of the products of one K block. -/
def sumProducts (ps : List (Val × Val)) : Val :=
  let xs := ps.map (fun p => (exMul p.1 p.2).1)
  let posInf := xs.any (fun x => x == .inf false)
  let negInf := xs.any (fun x => x == .inf true)
  if anyNan xs || (posInf && negInf) then .nan false
  else if posInf then .inf false
  else if negInf then .inf true
  else
    let e := xs.foldl (fun (acc : Int) x => match x with
      | .fin _ m e => if m = 0 then acc else min acc e
      | _ => acc) 4096
    ofInt (xs.foldl (fun (acc : Int) x => match x with
      | .fin n m e0 => if m = 0 then acc else acc + atExp n m e0 e
      | _ => acc) 0) e false

/-- R348: T := Round(S × scaleA × scaleB, binary32 RNE). -/
def blockTerm (s sa sb : Val) : Nat := (ieeeCode fmtSf false rneMode 0 (exMul (exMul s sa).1 sb).1).bits

/-- The sum of integer products. -/
def sumInt (ps : List (Val × Val)) : Int :=
  ps.foldl (fun (acc : Int) p => match p.1, p.2 with
    | .fin na ma _, .fin nb mb _ => if na = nb then acc + (ma * mb : Nat) else acc - (ma * mb : Nat)
    | _, _ => acc) 0

end Sys2Proof.Machine
end

