-- ==== Sys2Proof/Machine/Float.lean ====
section
/-! DEFINITION. Scalar floating point (spec/04 R83–R91). -/

namespace Sys2Proof.Machine

/-- Push a result and set flags (R62, R91). -/
def finishFp (s : State) (d : Dest) (x : Nat) (f : Flags) : Res :=
  .next (modMe s (fun c =>
    let r := push c.regs d (BitVec.ofNat 64 x)
    stepped { c with ctl := orFlags c.ctl f } { r with pc := r.pc + 4 }))

/-- R83: the operand bits of a precision. -/
def fsrc (s : State) (p : Prec) (a : Src) : Nat := (src s a).toNat % 2 ^ (pFmt p).width

def fpmode (s : State) : Word := (me s).ctl.fpmode

def fpTwo (op : FOp) (a b : Src) (d : Dest) (p : Prec) (s : State) : Res :=
  let c := fpBin (fpmode s) (pFmt p) op (fsrc s p a) (fsrc s p b)
  finishFp s d c.bits c.flags

def execFadd (a b : Src) (d : Dest) (p : Prec) (s : State) : Res := fpTwo .add a b d p s
def execFsub (a b : Src) (d : Dest) (p : Prec) (s : State) : Res := fpTwo .sub a b d p s
def execFmul (a b : Src) (d : Dest) (p : Prec) (s : State) : Res := fpTwo .mul a b d p s
def execFdiv (a b : Src) (d : Dest) (p : Prec) (s : State) : Res := fpTwo .div a b d p s
def execFmin (a b : Src) (d : Dest) (p : Prec) (s : State) : Res := fpTwo .min a b d p s
def execFmax (a b : Src) (d : Dest) (p : Prec) (s : State) : Res := fpTwo .max a b d p s

def execFsqrt (a : Src) (d : Dest) (p : Prec) (s : State) : Res :=
  let c := fpSqrt (fpmode s) (pFmt p) (fsrc s p a)
  finishFp s d c.bits c.flags

def execFclass (a : Src) (d : Dest) (p : Prec) (s : State) : Res := finishFp s d (fpClass (pFmt p) (fsrc s p a)) 0

def execFround (a : Src) (d : Dest) (p : Prec) (s : State) : Res :=
  let c := fpRound (fpmode s) (pFmt p) (fsrc s p a)
  finishFp s d c.bits c.flags

def execFsgn (a b : Src) (d : Dest) (p : Prec) (s : State) : Res :=
  finishFp s d (fpSign (pFmt p) (fsrc s p a) (fsrc s p b)) 0

def execFfma (a b c : Src) (d : Dest) (p : Prec) (s : State) : Res :=
  let x := fpFma (fpmode s) (pFmt p) (fsrc s p a) (fsrc s p b) (fsrc s p c)
  finishFp s d x.bits x.flags

def execFeq (a b : Src) (d : Dest) (p : Prec) (s : State) : Res :=
  let c := fpEq (fpmode s) (pFmt p) (fsrc s p a) (fsrc s p b)
  finishFp s d (if c.1 then 1 else 0) c.2
def execFlt (a b : Src) (d : Dest) (p : Prec) (s : State) : Res :=
  let c := fpLess (fpmode s) (pFmt p) false (fsrc s p a) (fsrc s p b)
  finishFp s d (if c.1 then 1 else 0) c.2
def execFle (a b : Src) (d : Dest) (p : Prec) (s : State) : Res :=
  let c := fpLess (fpmode s) (pFmt p) true (fsrc s p a) (fsrc s p b)
  finishFp s d (if c.1 then 1 else 0) c.2

/-- R55: the floating-point types of fcvt; none for an integer type. -/
def sFlt : STy → Option ETy
  | .sf => some .sf | .df => some .df | .hf => some .hf | .bf => some .bf
  | .w => none | .d => none | .wz => none | .dz => none

/-- R89: the value that fcvt reads. -/
def cvtVal (fpmode : Word) (t : STy) (x : Word) : Val :=
  match t with
  | .sf => eVal fpmode false .sf (x.toNat % 2 ^ 32)
  | .df => eVal fpmode false .df x.toNat
  | .hf => eVal fpmode false .hf (x.toNat % 2 ^ 16)
  | .bf => eVal fpmode false .bf (x.toNat % 2 ^ 16)
  | .w => intVal 32 x.toNat
  | .d => intVal 64 x.toNat
  | .wz => natVal 32 x.toNat
  | .dz => natVal 64 x.toNat

/-- R89: the register value and the flags of a conversion, and the generator's next state: a conversion to .hf or .bf under stochastic
rounding advances it, whatever the value is (log 74). -/
def cvtOut (fpmode rng : Word) (t : STy) (v : Val) : Word × Coded :=
  match sFlt t with
  | some e => if srDest fpmode e then convertDraw fpmode rng e v else convert fpmode rng e v
  | none =>
    let m := roundMode fpmode
    (rng, match t with
      | .w => let c := intCode 32 true m v; ⟨(sx32 (BitVec.ofNat 32 c.bits)).toNat, c.flags⟩
      | .wz => intCode 32 false m v
      | .dz => intCode 64 false m v
      | _ => intCode 64 true m v)

/-- R34: c.rng of a core; a write of 0 stores 1. -/
def setRng (s : State) (core : Nat) (x : Word) : State := modCore s core (fun c => { c with rng := if x = 0 then 1 else x })

/-- R89: fcvt. -/
def execFcvt (a : Src) (d : Dest) (t s' : STy) (s : State) : Res :=
  let core := coreOf s.cur
  let rng := (coreAt s core).rng
  let p := cvtOut (fpmode s) rng t (cvtVal (fpmode s) s' (src s a))
  finishFp (if p.1 = rng then s else setRng s core p.1) d p.2.bits p.2.flags

end Sys2Proof.Machine
end

