-- ==== Sys2Proof/Machine/SaveArea.lean ====
section
/-! DEFINITION. Control registers by number (R34–R36) and the save area (R274). -/

namespace Sys2Proof.Machine

/-! ## Control registers (R34, R283) -/

/-- R34: the value of a control register. -/
def crGet (s : State) (l : Nat) (n : Nat) : Word :=
  let c := ctxAt s l
  let t := c.ctl
  match n with
  | 0x00 => t.status | 0x01 => selfWord l | 0x02 => t.asid | 0x03 => t.hdr | 0x04 => t.epc | 0x05 => t.cause
  | 0x06 => t.badva | 0x07 => t.tval | 0x08 => t.trapvec | 0x09 => t.tsave | 0x0A => t.chunklen | 0x0B => t.privbase
  | 0x0C => t.privlen | 0x0D => t.choice | 0x0E => t.choicebase | 0x0F => t.choicelim | 0x10 => t.spoor
  | 0x11 => t.spoorbase | 0x12 => t.spoorlim | 0x13 => t.frame | 0x14 => t.framelen | 0x15 => t.failvec
  | 0x16 => t.lineage | 0x17 => t.fpmode | 0x18 => t.fpflags | 0x19 => (coreAt s (coreOf l)).rng
  | 0x1A => BitVec.ofNat 64 s.now | 0x1B => t.icount | 0x1C => t.replay
  | _ => 0

/-- R34: writes to c.chunklen are clamped to 256–8,192. -/
def clampChunk (x : Word) : Word :=
  let n := fld x 13 0
  BitVec.ofNat 64 (if n < 256 then 256 else if n > 8192 then 8192 else n)

/-- R34: writes to c.framelen are clamped to 4,096. -/
def clampFrame (x : Word) : Word := BitVec.ofNat 64 (min (fld x 12 0) 4096)

/-- R35, R283: a write to c.status changes ts, step and ppl; the codes of ppl depend on the level. -/
def statusWrite (c : Ctl) (x : Word) : Word :=
  let p := fld x 3 2
  let ok := p < 2 || (p == 2 && plOf c == 2)
  statusWord (plOf c) (if ok then p else pplOf c) (bit x 4) (bit x 5) (heldOn c)

/-- R34: a per-context control register takes a value; fields marked zero ignore it. -/
def crPut (t : Ctl) (n : Nat) (x : Word) : Ctl :=
  match n with
  | 0x00 => { t with status := statusWrite t x }
  | 0x02 => { t with asid := x &&& 0x3FF }
  | 0x03 => { t with hdr := x }
  | 0x04 => { t with epc := x &&& ~~~3 }
  | 0x05 => { t with cause := x &&& 0x1FF }
  | 0x06 => { t with badva := x }
  | 0x07 => { t with tval := x }
  | 0x08 => { t with trapvec := x &&& ~~~3 }
  | 0x09 => { t with tsave := x &&& ~~~127 }
  | 0x0A => { t with chunklen := clampChunk x }
  | 0x0B => { t with privbase := x &&& ~~~0xFFFF }
  | 0x0C => { t with privlen := x }
  | 0x0D => { t with choice := x }
  | 0x0E => { t with choicebase := x &&& ~~~31 }
  | 0x0F => { t with choicelim := x &&& ~~~31 }
  | 0x10 => { t with spoor := x }
  | 0x11 => { t with spoorbase := x &&& ~~~15 }
  | 0x12 => { t with spoorlim := x &&& ~~~15 }
  | 0x13 => { t with frame := x }
  | 0x14 => { t with framelen := clampFrame x }
  | 0x15 => { t with failvec := x &&& ~~~3 }
  | 0x16 => { t with lineage := x }
  | 0x17 => { t with fpmode := x &&& 0x1F }
  | 0x18 => { t with fpflags := x &&& 0x1F }
  | 0x1B => { t with icount := x }
  | 0x1C => { t with replay := x &&& 1 }
  | _ => t

/-- R34: registers that user code may not read. -/
def userReads (n : Nat) : Bool := !(4 ≤ n && n ≤ 7)
/-- R34: registers that user code may write. -/
def userWrites (n : Nat) : Bool :=
  n == 0x0A || n == 0x0E || n == 0x0F || (0x11 ≤ n && n ≤ 0x15) || n == 0x17 || n == 0x18
/-- R34: registers that a supervisor's write leaves unchanged. -/
def supIgnored (n : Nat) : Bool := n == 0x01 || n == 0x02 || n == 0x03 || n == 0x1A

/-! ## The save area (R274) -/

/-- What a save area records beside the registers. -/
structure SaveInfo where
  by_ : Nat
  kind : Nat
  pc : Word
  num : Nat
  q : List Word
  status : Word
  mask : BitVec 16
  spill : Nat
deriving DecidableEq, Repr

def vecBytes (v : BitVec 512) : List Byte := natBytes 64 v.toNat

def wordsBytes (ws : List Word) : List Byte := ws.foldr (fun x acc => wordBytes x ++ acc) []

/-- R274: bytes 0x000–0xFEF of the area of context `l`. -/
def areaBytes (s : State) (l : Nat) (i : SaveInfo) : List Byte :=
  let c := ctxAt s l
  let u := c.unit
  let head : List Word :=
    [BitVec.ofNat 64 (2 ^ 63 + 2 ^ 48 + i.by_ * 2 ^ 40 + i.kind * 2 ^ 32), i.pc, BitVec.ofNat 64 (i.num % 2 ^ 32 * 2 ^ 32),
     BitVec.ofNat 64 (u.gangKind * 2 ^ 62 + u.thread % 4096 * 2 ^ 32 + u.gang % 2 ^ 32), u.launchVa,
     (match u.bound with
      | some b => BitVec.ofNat 64 (2 ^ 63 + b.handle)
      | none => 0),
     BitVec.ofNat 64 (i.mask.toNat * 2 ^ 48 + l % 2 ^ 18), BitVec.ofNat 64 (i.spill * 2 ^ 32)]
  let ctl := (List.range 29).map (fun n => if n = 0 then i.status else crGet s l n)
  let body := wordsBytes head ++ wordsBytes (takePad 0 16 i.q) ++ wordsBytes c.regs.k.toList
    ++ (c.regs.v.toList.map vecBytes).flatten ++ wordsBytes c.regs.m.toList ++ wordsBytes ctl
  takePad 0 0xFF0 body

def vecOf (ws : List Word) (o : Nat) : BitVec 512 := BitVec.ofNat 512 (leNat (wordsBytes ((ws.drop o).take 8)))

/-- R286: registers from an area: q, k, v, m and the PC. m0 keeps its ones (R31). -/
def areaRegs (r : Regs) (ws : List Word) : Regs :=
  let r := qLoad r (fun i => wordAt ws (8 + i.val))
  { r with
    pc := wordAt ws 1 &&& ~~~3,
    k := Vector.ofFn (fun i => wordAt ws (24 + i.val)),
    v := Vector.ofFn (fun i => vecOf ws (40 + 8 * i.val)),
    m := (Vector.ofFn (fun (i : Fin 8) => wordAt ws (296 + i.val))).set 0 (BitVec.allOnes 64) }

/-- The saved value of control register `n`. -/
def areaCr (ws : List Word) (n : Nat) : Word := wordAt ws (304 + n)

/-- R286: every control register but c.self, c.rng, c.cycle and c.asid; c.status whole. -/
def areaCtl (t : Ctl) (ws : List Word) : Ctl :=
  let t := ((List.range 29).filter (fun n => !(n == 0 || n == 1 || n == 2 || n == 0x19 || n == 0x1A))).foldl
    (fun t n => crPut t n (areaCr ws n)) t
  let x := areaCr ws 0
  { t with status := statusWord (fld x 1 0) (fld x 3 2) (bit x 4) (bit x 5) false }

/-- R384: the mask of tiles that the cluster's matrix unit keeps for a context. -/
def accMaskOf (s : State) (l : Nat) : BitVec 16 := (ctxAt s l).accMask

end Sys2Proof.Machine
end

