-- ==== Sys2Proof/Machine/System.lean ====
section
/-! DEFINITION. The system instructions (spec/16 R280–R287). -/

namespace Sys2Proof.Machine

/-- R281: SYS, with c.epc at the next instruction. -/
def execTrap (a : Src) (s : State) : Res := raiseOwn s cSys ((me s).regs.pc + 4) (me s).regs.pc (src s a)

/-- R292: the break-halts bit of a core. -/
def breakHalts (s : State) (core : Nat) : Bool :=
  bit (bar0Get s (dieOff (dieOfCore core) (0x100 + 8 * (core % 512 / 64)))) (core % 512 % 64)

/-- R281, R279: BRK, or a halt of the core when its break-halts bit is set. -/
def execBrk (s : State) : Res :=
  if breakHalts s (coreOf s.cur) then
    if !chunkEmpty (me s) then endChunk s .resume
    else .next (modCore s (coreOf s.cur) (fun c => { c with halted := true, stepping := .off }))
  else raiseOwn s cBrk (me s).regs.pc (me s).regs.pc 0

/-- R282, R267. -/
def execEret (s : State) : Res :=
  if isUser (me s) then raisePriv s
  else closing s (fun s =>
    let c := me s
    match (if plOf c.ctl == 2 then c.firmware else none) with
    | some f => .next (modMe (dropHeld s s.cur) (fun c => eretFirmware c f))
    | none =>
      if tsOn c.ctl then
        let va := (c.ctl.tsave &&& ~~~127)
        match hwRead s (asidOf c) va.toNat 128 false with
        | .retry => stall s .arb
        | .fault _ s => raiseMcheck s 4 0 va
        | .ok bs s => .next (modMe (dropHeld s s.cur) (fun c => eretCtx c (some (wordsOf bs))))
      else .next (modMe (dropHeld s s.cur) (fun c => eretCtx c none)))

/-- R283, R36. -/
def execCrd (r : BitVec 5) (d : Dest) (s : State) : Res :=
  let n := r.toNat
  if n ≥ 0x1D then raiseIllegal s
  else if isUser (me s) && !userReads n then raisePriv s
  else finishPush s d (crGet s s.cur n)

/-- R283, R34, R36. A write of c.self or c.cycle is ignored at every level. -/
def execCwr (a : Src) (r : BitVec 5) (s : State) : Res :=
  let n := r.toNat
  let x := src s a
  if n ≥ 0x1D then raiseIllegal s
  else if isUser (me s) && !(userWrites n || n == 0x01 || n == 0x1A) then raisePriv s
  else closing s (fun s =>
    if plOf (me s).ctl != 2 && supIgnored n then finishClosing s (me s).regs
    else if n = 0x19 then finishClosing (setRng s (coreOf s.cur) x) (me s).regs
    else finishClosing (modMe s (fun c => { c with ctl := crPut c.ctl n x })) (me s).regs)

/-! ## tinv and rmode (R284, R285) -/

/-- R284: the range of a tinv or rmode, or its WINDOW trap: every VA of the ASID, or first and last byte. -/
def opRange (s : State) (a b : Src) (k : Nat → Nat → Res) : Res :=
  let lo := (src s a).toNat
  let len := (src s b).toNat
  if lo = 0 ∧ len = 2 ^ 64 - 1 then k (2 ^ 55) (2 ^ 56 - 1)
  else
    let hi := lo + len - 1
    if isGlobal lo && isGlobal hi then k lo hi else raise s cWindow (src s a) (kindWord 3)

/-- The homes that a global range meets. -/
def rangeHomes (lo hi : Nat) : List Nat :=
  (List.range 16).filter (fun h => homeOf lo ≤ h && h ≤ homeOf hi)

/-- R284: each home drops its part; the instruction completes when all have. -/
def execTinv (a b : Src) (s : State) : Res :=
  if isUser (me s) then raisePriv s
  else closing s (fun s =>
    if (src s b) = 0 then finishClosing s (me s).regs
    else if (me s).woken then finishClosing s (me s).regs
    else opRange s a b (fun lo hi =>
      let tid := s.nextOp
      let homes := rangeHomes lo hi
      let t : TinvSt := { loc := some s.cur, asid := asidOf (me s), lo := lo / 65536 * 65536, hi := hi / 65536 * 65536 + 65535,
                          homes := homes }
      let s := { s with tinvs := tblSet s.tinvs tid t, nextOp := tid + 1 }
      stall (homes.foldl (fun u h => post u 0 (.tinvHome h tid)) s) (.homes tid)))

/-- R285: checks 9–11 of R137 on a page of `lo`–`hi`; pages without a valid leaf, never-cached pages and system frames are skipped. A
leaf whose accessed bit is 0 is walked by the home, which sets it (R179). -/
def rmodePage (s : State) (lo hi va : Nat) : PageCheck :=
  if (homeAt s (homeOf va)).paused then .held (homeOf va)
  else match walk s (asidOf (me s)) va with
  | .error c => if c = cNotPresent then .ok else .fault c va
  | .ok l =>
    if !pteAccessed l.pte then .walk va
    else if pteSystem l.pte || ptePlace l.pte == 3 then .ok
    else match leafFault s l va ⟨false, false, false⟩ false with
      | some c => .fault c va
      | none => if cpForeign s (coreOf s.cur) l va lo hi then .fault cCpForeign va else .ok

def execRmode (a b : Src) (m : CMode) (s : State) : Res :=
  if isUser (me s) then raisePriv s
  else closing s (fun s =>
    if (src s b) = 0 then finishClosing s (me s).regs
    else if (me s).woken then finishClosing s (me s).regs
    else opRange s a b (fun lo hi =>
      match checkPages (rmodePage s lo hi) lo (hi / 65536 - lo / 65536 + 1) with
      | .fault cause va => raiseClosing s cause (BitVec.ofNat 64 va) (kindWord 3)
      | .held h => stall s (.home h)
      | .walk va =>
        stall (postOnce s 0 (.pageWalk (homeOf va) (asidOf (me s)) (pageOf va) false)) (.walk (homeOf va) (asidOf (me s)) (pageOf va))
      | .ok =>
        let tid := s.nextOp
        let homes := rangeHomes lo hi
        let t : RmodeSt := { loc := s.cur, core := coreOf s.cur, asid := asidOf (me s), lo := lo / 512 * 512,
                             hi := hi / 512 * 512 + 511, mode := m, homes := homes }
        let s := { s with rmodes := tblSet s.rmodes tid t, nextOp := tid + 1 }
        stall (homes.foldl (fun u h => post u 0 (.rmodeDrain h tid)) s) (.homes tid)))

/-! ## ctxsave and ctxload (R286) -/

/-- R286: the area is 4 KiB-aligned, in an HC page of the global window. -/
def areaReq (va : Word) (kind : Nat) (need : Need) : AccReq :=
  { ea := va, n := 4096, align := 4096, kind := kind, need := need, wins := [8], pages := [.hc, .pinned], closes := false,
    sup := false }

/-- R286: write R274 for the executing context as eret would leave it. -/
def execCtxsave (a : Src) (s : State) : Res :=
  if isUser (me s) then raisePriv s
  else closing s (fun s => withClosing s (areaReq (src s a) 1 needW) (fun t s =>
    let c := me s
    let put : List Word → State → Res := fun q s =>
      let bs := areaBytes s s.cur { by_ := 2, kind := 0, pc := c.ctl.epc, num := c.chunk.num, q := q,
                                    status := statusWord (pplOf c.ctl) (pplOf c.ctl) (stepOn c.ctl) false false,
                                    mask := accMaskOf s s.cur, spill := 0 }
      if mayCommit s t 0 (targetSig t bs.length) then finishClosing (storeNow s t bs) (me s).regs else stall s .arb
    if tsOn c.ctl then
      let va := (c.ctl.tsave &&& ~~~127)
      match hwRead s (asidOf c) va.toNat 128 false with
      | .retry => stall s .arb
      | .fault _ s => raiseMcheck s 4 0 va
      | .ok bs s => put (wordsOf bs) s
    else put (qList c.regs) s))

/-- R7, R274: the area is well formed: valid, of version 1, its reserved fields zero, and no level 0b11. -/
def areaForm (ws : List Word) : Bool :=
  let w0 := wordAt ws 0
  let w5 := wordAt ws 5
  let st := areaCr ws 0
  bit w0 63 && fld w0 62 56 == 0 && fld w0 55 48 == 1 && fld w0 31 0 == 0 && fld (wordAt ws 2) 31 0 == 0 && fld (wordAt ws 3) 61 44 == 0
    && fld w5 62 12 == 0 && (bit w5 63 || fld w5 11 0 == 0) && fld (wordAt ws 6) 47 18 == 0 && fld (wordAt ws 7) 63 50 == 0
    && fld (wordAt ws 7) 31 0 == 0 && ((ws.drop 333).take 177).all (· == 0) && wordAt ws 511 == 0 && fld st 1 0 != 3 && fld st 3 2 != 3

/-- R286, R7: the area may be loaded at this level. -/
def areaOk (c : Ctl) (asid : Nat) (ws : List Word) : Bool :=
  areaForm ws && (plOf c == 2 || fld (areaCr ws 2) 9 0 == asid) && fld (wordAt ws 3) 63 62 == 0 && fld (areaCr ws 0) 1 0 ≤ plOf c

/-- R183: a committed store by the executing context through a target that the filter admitted for reading: it squashes the readers under
every name. -/
def storeNamed (s : State) (t : Target) (bs : List Byte) : State :=
  let s := crcClosing s t bs
  if takesEffect s then hwCommit s (targetSig t bs.length) t.key bs else s

/-- R286: load the saved thread into the executing context, and clear valid in the area. R325, R330: the records of the thread that the
context ran are withdrawn; those of the loaded one register again at its first commit. -/
def execCtxload (a : Src) (s : State) : Res :=
  let va := src s a
  if isUser (me s) then raisePriv s
  else closing s (fun s => withClosing s (areaReq va 0 needR) (fun t s =>
    if poisoned s t.key 4096 then raiseClosing s cMcheck va 1
    else
      let ws := wordsOf (memBytes s.mem t.key 4096)
      if !areaOk (me s).ctl (asidOf (me s)) ws then raiseClosing s cQueueInvalid va (BitVec.ofNat 64 (2 * 4096))
      else if mayCommit s t (targetSig t 4096) (targetSig t 8) then
        let s := storeNamed s t (wordBytes (wordAt ws 0 &&& 0x7FFFFFFFFFFFFFFF))
        let r := areaRegs (me s).regs ws
        let s := modFox s (fun f => { f with choices := f.choices.filter (fun x => x.loc != s.cur) })
        finishClosingAt (modMe s (fun c => { c with ctl := areaCtl c.ctl ws, unregistered := 2 })) r r.pc
      else stall s .arb))

/-! ## pre (R287) -/

def execPre (a : Src) (s : State) : Res :=
  let d := src s a
  let kind := fld d 63 62
  let lvl := plOf (me s).ctl
  if isUser (me s) then raisePriv s
  else if lvl != 2 && !(kind == 0 && fld d 9 0 == asidOf (me s)) then raisePriv s
  else closing s (fun s =>
    finishClosing (if kind = 3 then s else post s 0 (.preemptRequest d s.cur)) (me s).regs)

end Sys2Proof.Machine
end

