-- ==== Sys2Proof/Machine/Vector.lean ====
section
/-! DEFINITION. Vector and conversion instructions (spec/23). -/

namespace Sys2Proof.Machine

/-! ## Elements (R352, R62) -/

def elem (v : BitVec 512) (i w : Nat) : Nat := v.toNat / 2 ^ (w * i) % 2 ^ w
def nElems (w : Nat) : Nat := 512 / w

/-- A register from its elements, element 0 first. -/
def ofElems (w : Nat) (xs : List Nat) : BitVec 512 :=
  BitVec.ofNat 512 (xs.foldr (fun x acc => x % 2 ^ w + 2 ^ w * acc) 0)

def elems (v : BitVec 512) (w : Nat) : List Nat := (List.range (nElems w)).map (fun i => elem v i w)

def setElem (v : BitVec 512) (i w x : Nat) : BitVec 512 := ofElems w (setNth (elems v w) i x)

/-- R31: Active(m, i). -/
def active (r : Regs) (m : Fin 8) (i : Nat) : Bool := (maskGet r m).getLsbD i

/-- Write active elements below `n`; `f` gives a code and its flags. -/
def mapActive (r : Regs) (m : Fin 8) (w n : Nat) (old : BitVec 512) (f : Nat → Coded) : BitVec 512 × Flags :=
  let out := (List.range (nElems w)).map (fun i => if i < n && active r m i then f i else ⟨elem old i w, 0⟩)
  (ofElems w (out.map (fun c => c.bits)), out.foldl (fun acc c => acc ||| c.flags) 0)

/-- R351: one vector register and flags, then the next instruction. -/
def finishVec (s : State) (d : Fin 32) (v : BitVec 512) (f : Flags) : Res :=
  .next (modMe s (fun c =>
    let r := vSet c.regs d v
    stepped { c with ctl := orFlags c.ctl f } { r with pc := r.pc + 4 }))

/-- R31, R371: one mask register, then the next instruction. -/
def finishMask (s : State) (d : Fin 8) (x : Word) (f : Flags) : Res :=
  .next (modMe s (fun c =>
    let r := maskSet c.regs d x
    stepped { c with ctl := orFlags c.ctl f } { r with pc := r.pc + 4 }))

def regsOf (s : State) : Regs := (me s).regs

/-! ## Vector memory (R354–R357) -/

/-- R356: check 5 admits the global, private, scratchpad and cluster windows. -/
def vecReq (ea : Word) (n align kind : Nat) : AccReq :=
  { ea := ea, n := n, align := align, kind := kind, need := (if kind = 0 then needR else needW), wins := [1, 2, 3, 8],
    pages := anyPage, closes := true, sup := false }

/-- The active elements of an access, in ascending order, with their addresses. -/
def vecAddrs (r : Regs) (m : Fin 8) (w : Nat) (ea : Nat → Word) : List (Nat × Word) :=
  ((List.range (nElems w)).filter (active r m)).map (fun i => (i, ea i))

/-- R355: the alignment of check 6. A base of vld or vst that is not a multiple of 64 fails it. -/
def unitAlign (base : Word) : Nat := if base.toNat % 64 = 0 then 1 else 0

/-- R355: a vector load. -/
def vecLoad (s : State) (d : Fin 32) (m : Fin 8) (p : Span) (n align : Nat) (ea : Nat → Word) : Res :=
  let w := 8 * n
  let as := vecAddrs (regsOf s) m w ea
  withAccesses s (as.map (fun a => vecReq a.2 n align 0)) (fun ts s1 =>
    loadAll s1 p (List.zipWith (fun t (a : Nat × Word) => (t, n, a.2)) ts as) (fun cl bs s2 =>
      let got := (runs n as.length bs).map leNat
      let xs := (List.zipWith (fun (a : Nat × Word) x => (a.1, x)) as got).foldl (fun acc p => setNth acc p.1 p.2)
        (elems (vGet (regsOf s2) d) w)
      finishAny cl s2 (vSet (regsOf s2) d (ofElems w xs)) ((regsOf s2).pc + 4)))

/-- R357: the spoor entries of vst: one for each aligned word that holds an active byte. -/
def wordTrails : List (Target × Word) → List Nat → List Trail
  | [], _ => []
  | (t, ea) :: rest, seen =>
    if seen.contains (ea.toNat / 8) then wordTrails rest seen
    else { ea := ea, target := t, code := 3 } :: wordTrails rest (ea.toNat / 8 :: seen)

/-- R355, R357: a vector store. -/
def vecStore (s : State) (d : Fin 32) (m : Fin 8) (p : Span) (n align : Nat) (whole : Bool) (ea : Nat → Word) : Res :=
  let w := 8 * n
  let as := vecAddrs (regsOf s) m w ea
  withAccesses s (as.map (fun a => vecReq a.2 n align 1)) (fun ts s1 =>
    let pairs := List.zipWith (fun t (a : Nat × Word) => (t, a.2)) ts as
    let trails := if whole then wordTrails pairs []
      else pairs.map (fun p => { ea := p.2, target := p.1, code := sizeCode n })
    let items := List.zipWith (fun t (a : Nat × Word) => (t, natBytes n (elem (vGet (regsOf s1) d) a.1 w))) ts as
    storeAll s s1 p trails items storeDone)

def unitEa (s : State) (b : Src) (n : Nat) : Nat → Word := fun i => src s b + BitVec.ofNat 64 (n * i)
def strideEa (s : State) (b x : Src) : Nat → Word := fun i => src s b + src s x * BitVec.ofNat 64 i
def gatherEa (s : State) (b : Src) (x : Fin 32) (w : Nat) : Nat → Word :=
  fun i => src s b + signExt (BitVec.ofNat 64 (elem (vGet (regsOf s) x) i w)) w

def execVld (v : Fin 32) (b : Src) (m : Fin 8) (p : Span) (z : Size) (s : State) : Res :=
  vecLoad s v m p (sizeN z) (unitAlign (src s b)) (unitEa s b (sizeN z))
def execVst (v : Fin 32) (b : Src) (m : Fin 8) (p : Span) (z : Size) (s : State) : Res :=
  vecStore s v m p (sizeN z) (unitAlign (src s b)) true (unitEa s b (sizeN z))
def execVlds (v : Fin 32) (b x : Src) (m : Fin 8) (p : Span) (z : Size) (s : State) : Res :=
  vecLoad s v m p (sizeN z) (sizeN z) (strideEa s b x)
def execVsts (v : Fin 32) (b x : Src) (m : Fin 8) (p : Span) (z : Size) (s : State) : Res :=
  vecStore s v m p (sizeN z) (sizeN z) false (strideEa s b x)
def execVgather (v : Fin 32) (b : Src) (x : Fin 32) (m : Fin 8) (p : Span) (z : Size) (s : State) : Res :=
  vecLoad s v m p (sizeN z) (sizeN z) (gatherEa s b x (8 * sizeN z))
def execVscatter (v : Fin 32) (b : Src) (x : Fin 32) (m : Fin 8) (p : Span) (z : Size) (s : State) : Res :=
  vecStore s v m p (sizeN z) (sizeN z) false (gatherEa s b x (8 * sizeN z))

/-! ## Arithmetic and logic (R358) -/

/-- A two's-complement element as an integer. -/
def sInt (w x : Nat) : Int := if x % 2 ^ w ≥ 2 ^ (w - 1) then (x % 2 ^ w : Nat) - (2 ^ w : Nat) else (x % 2 ^ w : Nat)
def ofSInt (w : Nat) (k : Int) : Nat := (k % (2 ^ w : Nat)).toNat

inductive VOp where
  | add | sub | mul | min | max | and | or | xor | shl | shr | sra
deriving DecidableEq, Repr

def intOp (op : VOp) (w a b : Nat) : Nat :=
  match op with
  | .add => (a + b) % 2 ^ w
  | .sub => ofSInt w (sInt w a - sInt w b)
  | .mul => a * b % 2 ^ w
  | .min => if sInt w b < sInt w a then b else a
  | .max => if sInt w a < sInt w b then b else a
  | .and => a &&& b
  | .or => a ||| b
  | .xor => a ^^^ b
  | .shl => a * 2 ^ (b % w) % 2 ^ w
  | .shr => a / 2 ^ (b % w)
  | .sra => ofSInt w (sInt w a / (2 ^ (b % w) : Nat))

def vOpF : VOp → FOp
  | .add => .add | .sub => .sub | .mul => .mul | .min => .min | .max => .max
  | .and => .add | .or => .add | .xor => .add | .shl => .add | .shr => .add | .sra => .add

/-- One element of a two-source form. -/
def vOne (fpmode : Word) (op : VOp) (t : ATy) (a b : Nat) : Coded :=
  match eFmt (aE t) with
  | some f => fpBin fpmode f (vOpF op) a b
  | none => ⟨intOp op (eBits (aE t)) a b, 0⟩

/-- R58: bitwise and shift forms have integer types only. -/
def logicOp : VOp → Bool
  | .and => true | .or => true | .xor => true | .shl => true | .shr => true | .sra => true
  | .add => false | .sub => false | .mul => false | .min => false | .max => false

def vTwo (op : VOp) (d a b : Fin 32) (m : Fin 8) (t : ATy) (s : State) : Res :=
  let r := regsOf s
  let w := eBits (aE t)
  if logicOp op && (eFmt (aE t)).isSome then raiseIllegal s
  else
    let p := mapActive r m w (nElems w) (vGet r d) (fun i => vOne (fpmode s) op t (elem (vGet r a) i w) (elem (vGet r b) i w))
    finishVec s d p.1 p.2

def execVadd (d a b : Fin 32) (m : Fin 8) (t : ATy) (s : State) : Res := vTwo .add d a b m t s
def execVsub (d a b : Fin 32) (m : Fin 8) (t : ATy) (s : State) : Res := vTwo .sub d a b m t s
def execVmul (d a b : Fin 32) (m : Fin 8) (t : ATy) (s : State) : Res := vTwo .mul d a b m t s
def execVmin (d a b : Fin 32) (m : Fin 8) (t : ATy) (s : State) : Res := vTwo .min d a b m t s
def execVmax (d a b : Fin 32) (m : Fin 8) (t : ATy) (s : State) : Res := vTwo .max d a b m t s
def execVand (d a b : Fin 32) (m : Fin 8) (t : ATy) (s : State) : Res := vTwo .and d a b m t s
def execVor (d a b : Fin 32) (m : Fin 8) (t : ATy) (s : State) : Res := vTwo .or d a b m t s
def execVxor (d a b : Fin 32) (m : Fin 8) (t : ATy) (s : State) : Res := vTwo .xor d a b m t s
def execVshl (d a b : Fin 32) (m : Fin 8) (t : ATy) (s : State) : Res := vTwo .shl d a b m t s
def execVshr (d a b : Fin 32) (m : Fin 8) (t : ATy) (s : State) : Res := vTwo .shr d a b m t s
def execVsra (d a b : Fin 32) (m : Fin 8) (t : ATy) (s : State) : Res := vTwo .sra d a b m t s

/-- R358: a × b + c with c the old element of vd. -/
def execVfma (d a b : Fin 32) (m : Fin 8) (t : ATy) (s : State) : Res :=
  let r := regsOf s
  let w := eBits (aE t)
  let p := mapActive r m w (nElems w) (vGet r d) (fun i =>
    let x := elem (vGet r a) i w
    let y := elem (vGet r b) i w
    let z := elem (vGet r d) i w
    match eFmt (aE t) with
    | some f => fpFma (fpmode s) f x y z
    | none => ⟨(z + x * y) % 2 ^ w, 0⟩)
  finishVec s d p.1 p.2

/-- R358: vabs and vneg are bit operations on floating-point types. -/
def vOneSrc (s : State) (d a : Fin 32) (m : Fin 8) (t : ATy) (f g : Nat → Nat → Nat) : Res :=
  let r := regsOf s
  let w := eBits (aE t)
  let p := mapActive r m w (nElems w) (vGet r d) (fun i =>
    let x := elem (vGet r a) i w
    ⟨if (eFmt (aE t)).isSome then f w x else g w x, 0⟩)
  finishVec s d p.1 p.2

def execVabs (d a : Fin 32) (m : Fin 8) (t : ATy) (s : State) : Res :=
  vOneSrc s d a m t (fun w x => x % 2 ^ (w - 1)) (fun w x => (sInt w x).natAbs % 2 ^ w)
def execVneg (d a : Fin 32) (m : Fin 8) (t : ATy) (s : State) : Res :=
  vOneSrc s d a m t (fun w x => x ^^^ 2 ^ (w - 1)) (fun w x => (2 ^ w - x) % 2 ^ w)

/-! ## Compare and select (R359, R360) -/

def vCmpOne (fpmode : Word) (c : Cc) (t : ATy) (x y : Nat) : Bool × Flags :=
  match eFmt (aE t) with
  | some f => (match c with
    | .eq => fpEq fpmode f x y
    | .ne => (!(fpEq fpmode f x y).1, (fpEq fpmode f x y).2)
    | .lt => fpLess fpmode f false x y
    | .le => fpLess fpmode f true x y
    | .ltz => (false, 0)
    | .lez => (false, 0))
  | none =>
    let w := eBits (aE t)
    let a := sInt w x
    let b := sInt w y
    (match c with
      | .eq => decide (a = b) | .ne => decide (a ≠ b) | .lt => decide (a < b) | .le => decide (a ≤ b)
      | .ltz => decide (a < 0) | .lez => decide (a ≤ 0), 0)

def execVcmp (d : Fin 8) (a b : Fin 32) (m : Fin 8) (c : Cc) (t : ATy) (s : State) : Res :=
  let r := regsOf s
  let w := eBits (aE t)
  if (c == .ltz || c == .lez) && (eFmt (aE t)).isSome then raiseIllegal s
  else
    let out := (List.range (nElems w)).map (fun i =>
      if active r m i then vCmpOne (fpmode s) c t (elem (vGet r a) i w) (elem (vGet r b) i w)
      else ((maskGet r d).getLsbD i, 0))
    let bits := out.foldr (fun p acc => (if p.1 then 1 else 0) + 2 * acc) 0
    finishMask s d (BitVec.ofNat 64 bits) (out.foldl (fun acc p => acc ||| p.2) 0)

def execVsel (d a b : Fin 32) (m : Fin 8) (t : ATy) (s : State) : Res :=
  let r := regsOf s
  let w := eBits (aE t)
  finishVec s d (ofElems w ((List.range (nElems w)).map (fun i =>
    if active r m i then elem (vGet r a) i w else elem (vGet r b) i w))) 0

/-! ## Reductions and scans (R350, R361, R362) -/

/-- R350: the identity of a sum, minimum or maximum. -/
def redId (op : ScanOp) (t : ATy) : Nat :=
  let w := eBits (aE t)
  match eFmt (aE t) with
  | some f => (match op with
    | .sum => f.signBit
    | .min => f.infCode
    | .max => f.signBit + f.infCode)
  | none => (match op with
    | .sum => 0
    | .min => 2 ^ (w - 1) - 1
    | .max => 2 ^ (w - 1))

def redOp : ScanOp → VOp
  | .sum => .add | .min => .min | .max => .max

/-- R350: one level of the pairwise tree. -/
def pairUp (f : Nat → Nat → Coded) : List Nat → List Nat × Flags
  | a :: b :: rest =>
    let c := f a b
    let p := pairUp f rest
    (c.bits :: p.1, c.flags ||| p.2)
  | l => (l, 0)

/-- R350: the tree, `fuel` levels. -/
def treeOf (f : Nat → Nat → Coded) : Nat → List Nat → Flags → Nat × Flags
  | _, [x], fl => (x, fl)
  | 0, l, fl => (l.headD 0, fl)
  | n + 1, l, fl =>
    let p := pairUp f l
    treeOf f n p.1 (fl ||| p.2)

def vReduce (op : ScanOp) (d a : Fin 32) (m : Fin 8) (t : ATy) (s : State) : Res :=
  let r := regsOf s
  let w := eBits (aE t)
  let xs := (List.range (nElems w)).map (fun i => if active r m i then elem (vGet r a) i w else redId op t)
  let p := treeOf (vOne (fpmode s) (redOp op) t) 6 xs 0
  finishVec s d (setElem (vGet r d) 0 w p.1) p.2

def execVredSum (d a : Fin 32) (m : Fin 8) (t : ATy) (s : State) : Res := vReduce .sum d a m t s
def execVredMin (d a : Fin 32) (m : Fin 8) (t : ATy) (s : State) : Res := vReduce .min d a m t s
def execVredMax (d a : Fin 32) (m : Fin 8) (t : ATy) (s : State) : Res := vReduce .max d a m t s

def execVscan (d a : Fin 32) (o : ScanOp) (m : Fin 8) (t : ATy) (s : State) : Res :=
  let r := regsOf s
  let w := eBits (aE t)
  let out := (List.range (nElems w)).foldl (fun (acc : Nat × List Nat × Flags) i =>
    if active r m i then
      let c := vOne (fpmode s) (redOp o) t acc.1 (elem (vGet r a) i w)
      (c.bits, acc.2.1 ++ [c.bits], acc.2.2 ||| c.flags)
    else (acc.1, acc.2.1 ++ [elem (vGet r d) i w], acc.2.2)) (redId o t, [], 0)
  finishVec s d (ofElems w out.2.1) out.2.2

/-! ## Rearrangement (R363–R365) -/

def execVperm (d a b : Fin 32) (m : Fin 8) (t : ATy) (s : State) : Res :=
  let r := regsOf s
  let w := eBits (aE t)
  let n := nElems w
  let p := mapActive r m w n (vGet r d) (fun i =>
    let j := elem (vGet r b) i w
    ⟨if j < n then elem (vGet r a) j w else 0, 0⟩)
  finishVec s d p.1 0

def execVcompress (d a : Fin 32) (m : Fin 8) (t : ATy) (s : State) : Res :=
  let r := regsOf s
  let w := eBits (aE t)
  let xs := ((List.range (nElems w)).filter (active r m)).map (fun i => elem (vGet r a) i w)
  finishVec s d (ofElems w xs) 0

def execVbcast (d : Fin 32) (a : Src) (m : Fin 8) (t : ATy) (s : State) : Res :=
  let r := regsOf s
  let w := eBits (aE t)
  let p := mapActive r m w (nElems w) (vGet r d) (fun _ => ⟨(src s a).toNat % 2 ^ w, 0⟩)
  finishVec s d p.1 0

def execVext (d : Dest) (a : Fin 32) (i : BitVec 6) (t : ATy) (s : State) : Res :=
  let w := eBits (aE t)
  if i.toNat ≥ nElems w then raiseIllegal s
  else
    let x := BitVec.ofNat 64 (elem (vGet (regsOf s) a) i.toNat w)
    finishPush s d (if (eFmt (aE t)).isSome then x else signExt x w)

def execVins (d : Fin 32) (a : Src) (i : BitVec 6) (t : ATy) (s : State) : Res :=
  let w := eBits (aE t)
  if i.toNat ≥ nElems w then raiseIllegal s
  else finishVec s d (setElem (vGet (regsOf s) d) i.toNat w ((src s a).toNat % 2 ^ w)) 0

/-! ## Conversions (R366–R369) -/

/-- R366: one element converted; the generator's state goes through. -/
def cvtOne (fpmode rng : Word) (dst sr : ETy) (x : Nat) : Word × Coded :=
  if eInt dst && eInt sr then (rng, ⟨ofSInt (eBits dst) (sInt (eBits sr) x), 0⟩)
  else convert fpmode rng dst (eVal fpmode false sr x)

/-- Converted elements in ascending order: none keeps the old element. -/
def cvtList (fpmode : Word) (dst : ETy) : Word → List (Option Val × Nat) → Word × List Nat × Flags
  | rng, [] => (rng, [], 0)
  | rng, (none, old) :: rest =>
    let q := cvtList fpmode dst rng rest
    (q.1, old :: q.2.1, q.2.2)
  | rng, (some v, _) :: rest =>
    let p := convert fpmode rng dst v
    let q := cvtList fpmode dst p.1 rest
    (q.1, p.2.bits :: q.2.1, p.2.flags ||| q.2.2)

/-- Set c.rng of the executing core when draws were made, then finish. -/
def finishDraw (s : State) (rng : Word) (d : Fin 32) (v : BitVec 512) (f : Flags) : Res :=
  let core := coreOf s.cur
  finishVec (if rng = (coreAt s core).rng then s else setRng s core rng) d v f

def myRng (s : State) : Word := (coreAt s (coreOf s.cur)).rng

/-- R366: vcvt, the plain vcvtq, and vdq from other than MX types. -/
def vConvert (s : State) (d a : Fin 32) (m : Fin 8) (dst sr : ETy) : Res :=
  let r := regsOf s
  let wd := eBits dst
  let ws := eBits sr
  let n := 512 / max wd ws
  if eInt dst && eInt sr then
    let xs := (List.range n).map (fun i =>
      if active r m i then ofSInt wd (sInt ws (elem (vGet r a) i ws)) else elem (vGet r d) i wd)
    finishVec s d (ofElems wd xs) 0
  else
    let items := (List.range n).map (fun i =>
      (if active r m i then some (eVal (fpmode s) false sr (elem (vGet r a) i ws)) else none, elem (vGet r d) i wd))
    let p := cvtList (fpmode s) dst (myRng s) items
    finishDraw s p.1 d (ofElems wd p.2.1) p.2.2

def execVcvt (d a : Fin 32) (sr : ETy) (m : Fin 8) (t : ETy) (s : State) : Res :=
  if eMx t || eMx sr || t = sr then raiseIllegal s else vConvert s d a m t sr

/-- R353: a block in a register: element codes, the scale byte. -/
def mxReg (t : ETy) (codes : List Nat) (scale : Nat) : BitVec 512 :=
  if eBits t = 4 then BitVec.ofNat 512 ((ofElems 4 codes).toNat + scale % 256 * 2 ^ 128)
  else BitVec.ofNat 512 ((ofElems 8 codes).toNat + scale % 256 * 2 ^ 256)

/-- R353: the scale byte of a block. -/
def mxScale (t : ETy) (v : BitVec 512) : Nat := elem v (if eBits t = 4 then 16 else 32) 8

/-- R343: the value of element `i` of a block. -/
def mxElem (t : ETy) (v : BitVec 512) (i : Nat) : Val := (exMul (eVal 0 false t (elem v i (eBits t))) (e8m0Val (mxScale t v))).1

/-- R347: the runs of n elements rotated; a run with a NaN or an ∞ gives NaNs and NV. `h`: multiply by 2^−h. -/
def rotate (n : Nat) (h : Int) (vs : List Val) : List Val × Flags :=
  (runs n vs.length vs).foldl (fun (acc : List Val × Flags) run =>
    match hadamard run with
    | some ys => (acc.1 ++ ys.map (scaleBy (-h)), acc.2)
    | none => (acc.1 ++ run.map (fun _ => .nan false), acc.2 ||| fNV)) ([], 0)

/-- R367: the types that vcvtq allows. -/
def quantOk (dst sr : ETy) : Bool :=
  (sr == .hf || sr == .bf || (sr == .sf && !eMx dst))
    && !(dst == .hf || dst == .bf || dst == .sf || dst == .df || dst == .h || dst == .w || dst == .d)

def log2h (n : Nat) : Int := if n = 32 then 5 else if n = 16 then 4 else 0

/-- R367: quantise, after a rotation of runs of `n` (1: none). -/
def vQuant (s : State) (d a : Fin 32) (m : Fin 8) (dst sr : ETy) (n : Nat) : Res :=
  let r := regsOf s
  let ws := eBits sr
  let wd := eBits dst
  let xs := (elems (vGet r a) ws).map (eVal (fpmode s) false sr)
  if !quantOk dst sr || nElems ws % n != 0 then raiseIllegal s
  else if eMx dst then
    let p := if n = 1 then (xs, 0) else rotate n 0 xs
    let q := mxBlock (fpmode s) (myRng s) dst (log2h n) p.1
    finishDraw s q.1 d (mxReg dst q.2.1 q.2.2.1) (p.2 ||| q.2.2.2)
  else if n = 1 then vConvert s d a m dst sr
  else
    let p := rotate n (log2h n) xs
    let q := cvtList (fpmode s) dst (myRng s) (p.1.map (fun v => (some v, 0)))
    finishDraw s q.1 d (ofElems wd q.2.1) (p.2 ||| q.2.2)

def execVcvtq (d a : Fin 32) (sr : ETy) (m : Fin 8) (t : ETy) (s : State) : Res := vQuant s d a m t sr 1
def execVcvtqH16 (d a : Fin 32) (sr t : ETy) (s : State) : Res := vQuant s d a 0 t sr 16
def execVcvtqH32 (d a : Fin 32) (sr t : ETy) (s : State) : Res := vQuant s d a 0 t sr 32

/-- R368: dequantise. -/
def execVdq (d a : Fin 32) (sr : ETy) (m : Fin 8) (t : ETy) (s : State) : Res :=
  let r := regsOf s
  if !(t == .hf || t == .bf || t == .sf) || (eInt sr && !(sr == .b || sr == .i4)) || (eFmt sr).isSome then raiseIllegal s
  else if eMx sr then
    let wd := eBits t
    let items := (List.range (nElems wd)).map (fun i =>
      (if active r m i then some (mxElem sr (vGet r a) i) else none, elem (vGet r d) i wd))
    let p := cvtList (fpmode s) t (myRng s) items
    finishDraw s p.1 d (ofElems wd p.2.1) p.2.2
  else vConvert s d a m t sr

/-- R369: H_n × x / n, rounded once. -/
def vHad (s : State) (d a : Fin 32) (t : ETy) (n : Nat) : Res :=
  let r := regsOf s
  let w := eBits t
  if !(t == .hf || t == .bf || t == .sf) || nElems w % n != 0 then raiseIllegal s
  else
    let p := rotate n (log2h n) ((elems (vGet r a) w).map (eVal (fpmode s) false t))
    let q := cvtList (fpmode s) t (myRng s) (p.1.map (fun v => (some v, 0)))
    finishDraw s q.1 d (ofElems w q.2.1) (p.2 ||| q.2.2)

def execVhadH16 (d a : Fin 32) (t : ETy) (s : State) : Res := vHad s d a t 16
def execVhadH32 (d a : Fin 32) (t : ETy) (s : State) : Res := vHad s d a t 32

/-! ## vdot (R370) -/

/-- R370: elements of an operand, and the K block; none for a type that vdot does not take. -/
def dotShape : ETy → Option (Nat × Nat)
  | .hf => some (32, 16) | .bf => some (32, 16)
  | .b8 _ => some (64, 32) | .b8n _ => some (64, 32)
  | .mx4 => some (32, 32) | .mxp _ => some (32, 32) | .mxi8 => some (32, 32)
  | .b => some (64, 32) | .i4 => some (128, 32)
  | .h => none | .w => none | .d => none | .sf => none | .df => none

/-- R370: the mask bit that governs position `k`. -/
def dotActive (r : Regs) (m : Fin 8) (t : ETy) (k : Nat) : Bool := active r m (if t = .i4 then k / 2 else k)

def execVdot (d a b : Fin 32) (m : Fin 8) (t : ETy) (s : State) : Res :=
  let r := regsOf s
  match dotShape t with
  | none => raiseIllegal s
  | some (n, kb) =>
    let w := eBits t
    let va := vGet r a
    let vb := vGet r b
    let pairs : Nat → List (Val × Val) := fun blk =>
      ((List.range kb).filter (fun j => dotActive r m t (blk * kb + j))).map (fun j =>
        (eVal 0 false t (elem va (blk * kb + j) w), eVal 0 false t (elem vb (blk * kb + j) w)))
    let acc0 := elem (vGet r d) 0 32
    if eInt t then
      let acc := (List.range (n / kb)).foldl (fun (acc : Nat) blk => ofSInt 32 (sInt 32 acc + sumInt (pairs blk))) acc0
      finishVec s d (setElem (vGet r d) 0 32 acc) 0
    else
      let one : Val := .fin false 1 0
      let sa := if eMx t then e8m0Val (mxScale t va) else one
      let sb := if eMx t then e8m0Val (mxScale t vb) else one
      let p := (List.range (n / kb)).foldl (fun (acc : Coded) blk =>
        let c := fpBin (fpmode s) fmtSf .add acc.bits (blockTerm (sumProducts (pairs blk)) sa sb)
        ⟨c.bits, acc.flags ||| c.flags⟩) ⟨acc0, 0⟩
      finishVec s d (setElem (vGet r d) 0 32 p.bits) p.flags

/-! ## Masks (R371) -/

def execMand (d a b : Fin 8) (s : State) : Res := finishMask s d (maskGet (regsOf s) a &&& maskGet (regsOf s) b) 0
def execMor (d a b : Fin 8) (s : State) : Res := finishMask s d (maskGet (regsOf s) a ||| maskGet (regsOf s) b) 0
def execMnot (d a : Fin 8) (s : State) : Res := finishMask s d (~~~ maskGet (regsOf s) a) 0
def execMpop (d : Dest) (a : Fin 8) (s : State) : Res :=
  finishPush s d (BitVec.ofNat 64 (popN (maskGet (regsOf s) a).toNat 64))

end Sys2Proof.Machine
end

