-- ==== Sys2Proof/Machine/Matrix.lean ====
section
/-! DEFINITION. Matrix commands: their records and the checks at acceptance (spec/24 R376–R379), operands (R377), and the
arithmetic of one step (R348, R381, R383). -/

namespace Sys2Proof.Machine

/-! ## Fields (R376, R378, R396) -/

def cmdTile (ws : List Word) : Nat := fld (wordAt ws 0) 19 16
def cmdKeep (ws : List Word) : Bool := bit (wordAt ws 0) 21
def cmdRelease (ws : List Word) : Bool := bit (wordAt ws 0) 20
def cmdTicket (ws : List Word) : BitVec 16 := BitVec.ofNat 16 (fld (wordAt ws 0) 47 32)
def cmdKb (ws : List Word) : Nat := fld (wordAt ws 3) 15 0
def fmtA (f : BitVec 15) : ETy := etyOf (f.extractLsb' 10 5)
def fmtB (f : BitVec 15) : ETy := etyOf (f.extractLsb' 5 5)
def fmtI32 (f : BitVec 15) : Bool := f.getLsbD 4
def fmtHad (f : BitVec 15) : Nat := if fld (f.setWidth 64) 3 2 = 1 then 16 else if fld (f.setWidth 64) 3 2 = 2 then 32 else 1
def fmtSat (f : BitVec 15) : Bool := f.getLsbD 1
def fmtInf (f : BitVec 15) : Bool := f.getLsbD 0
/-- DEDUCED (log 12): the accumulator is a binary64 pair when the context's A type is .df. -/
def fmtF64 (f : BitVec 15) : Bool := fmtA f == .df

/-- R377: elements of a K block and bytes of a block row. -/
def kBlock : ETy → Option (Nat × Nat)
  | .hf => some (16, 32) | .bf => some (16, 32)
  | .b8 _ => some (32, 32) | .b8n _ => some (32, 32) | .b => some (32, 32)
  | .i4 => some (32, 16) | .mx4 => some (32, 16)
  | .mxp _ => some (32, 32) | .mxi8 => some (32, 32)
  | .df => some (4, 32)
  | .h => none | .w => none | .d => none | .sf => none

/-- R377: the size of an operand image of `kb` K blocks. -/
def imageSize (t : ETy) (kb : Nat) : Nat :=
  match kBlock t with
  | some (_, e) => 64 * kb * e + (if eMx t then 64 * kb else 0)
  | none => 0

/-- R348: the pairings of operands with an accumulator. -/
def pairing (f : BitVec 15) : Bool :=
  let half : ETy → Bool := fun t => t == .hf || t == .bf
  let small : ETy → Bool := fun t => eMx t || (match t with
    | .b8 _ => true
    | .b8n _ => true
    | _ => false)
  let int : ETy → Bool := fun t => t == .b || t == .i4
  let a := fmtA f
  let e := fmtB f
  (half a && half e && !fmtI32 f) || (small a && small e && !fmtI32 f) || (int a && int e && fmtI32 f)
    || (a == .df && e == .df && !fmtI32 f)

/-! ## Operand words (R377) -/

structure Operand where
  fifo : Bool
  n : Nat
  handle : Nat
  off : Nat
deriving DecidableEq, Repr

def operandOf (w : Word) : Operand := { fifo := bit w 63, n := fld w 39 32, handle := fld w 4 0, off := fld w 17 0 }

/-- R379: an operand word for an image of `z` bytes, on core `core`. -/
def operandOk (s : State) (core : Nat) (w : Word) (z : Nat) : Bool :=
  let o := operandOf w
  if o.fifo then
    let f := fifoRead s (clusterOfCore core) o.handle
    fld w 62 40 == 0 && fld w 31 5 == 0 && 1 ≤ o.n && o.n ≤ 64 && f.valid && !f.consThreads && o.n ≤ f.count && z ≤ o.n * f.size
  else
    fld w 62 18 == 0 && o.off % 4096 == 0 && o.off + z ≤ Config.scratchSize (dieOfCore core)

/-- Tiles that `z` bytes at a scratchpad offset meet. -/
def tilesMet (off z : Nat) : List Nat :=
  if z = 0 then [] else (List.range ((off + z - 1) / 4096 - off / 4096 + 1)).map (· + off / 4096)

def operandTiles (w : Word) (z : Nat) : List Nat := if (operandOf w).fifo then [] else tilesMet (operandOf w).off z

/-! ## Barrier words (R378) -/

/-- R378: words 4 and 6: reserved fields, and an offset inside the window that is named. -/
def barWordOk (core : Nat) (w : Word) (phase : Bool) : Bool :=
  let size := if bit w 62 then Config.scratchSize (dieOfCore core) else Config.clusterSize (dieOfCore core)
  fld w 61 60 == 0 && fld w 55 21 == 0 && (phase || fld w 59 56 == 0) && fld w 20 0 % 16 == 0 && fld w 20 0 + 16 ≤ size

def barWordKey (core : Nat) (w : Word) : Nat :=
  if bit w 62 then keyScratch core (fld w 20 0) else keyCluster (clusterOfCore core) (fld w 20 0)

/-! ## Sizes of MLOAD and MSTORE (R378, R383) -/

/-- Bytes of a packed row element. -/
def packedBytes (t : ETy) : Nat := eBits t / 8

def loadType (ws : List Word) : ETy := etyOf (BitVec.ofNat 5 (fld (wordAt ws 3) 52 48))
def loadSize (ws : List Word) : Nat := 4096 * packedBytes (loadType ws)
def storeType (ws : List Word) : ETy := etyOf (BitVec.ofNat 5 (fld (wordAt ws 1) 52 48))
def storeSize (t : ETy) : Nat := if eMx t then imageSize t 2 else 4096 * packedBytes t

/-- R383: the destinations of each accumulator. -/
def storeOk (f : BitVec 15) (t : ETy) (noScale : Bool) : Bool :=
  if fmtF64 f then t == .df || t == .sf
  else eMx t || (match t with
    | .sf => true | .hf => true | .bf => true | .b8 _ => true | .b8n _ => true | .b => true
    | .w => fmtI32 f && noScale
    | _ => false)

/-- Does the command name a binary64 pair? -/
def isPair (f : BitVec 15) (ws : List Word) : Bool :=
  if fld (wordAt ws 0) 63 56 = 3 then loadType ws == .df else fmtF64 f

/-- R380, R382: the scratchpad tiles that a command touches. -/
def touchedTiles (f : BitVec 15) (ws : List Word) : List Nat :=
  let op := fld (wordAt ws 0) 63 56
  let l :=
    if op = 1 ∨ op = 2 then
      operandTiles (wordAt ws 1) (imageSize (fmtA f) (cmdKb ws)) ++ operandTiles (wordAt ws 2) (imageSize (fmtB f) (cmdKb ws))
    else if op = 3 then operandTiles (wordAt ws 1) (loadSize ws)
    else if op = 4 then (if fld (wordAt ws 1) 63 62 = 0 then tilesMet (fld (wordAt ws 1) 17 0) (storeSize (storeType ws)) else [])
    else []
  dedup (l.filter (· < 64))

/-- FIFO operands: handle and slots consumed. -/
def fifoOperands (ws : List Word) : List (Nat × Nat) :=
  let op := fld (wordAt ws 0) 63 56
  let words := if op = 1 ∨ op = 2 then [wordAt ws 1, wordAt ws 2] else if op = 3 then [wordAt ws 1] else []
  (words.filter (fun w => (operandOf w).fifo)).map (fun w => ((operandOf w).handle, (operandOf w).n))

/-- R379: the first word that refuses a command; reason and detail. -/
def cmdFault (s : State) (core : Nat) (f : BitVec 15) (ws : List Word) : Option (Nat × Nat) :=
  let w := wordAt ws
  let op := fld (w 0) 63 56
  let t := cmdTile ws
  let m := op = 1 ∨ op = 2
  let za := imageSize (fmtA f) (cmdKb ws)
  let zb := imageSize (fmtB f) (cmdKb ws)
  let bad0 := fld (w 0) 55 48 != 0 || fld (w 0) 31 22 != 0 || fld (w 0) 15 0 != 0 || op = 0 || op > 6
    || (op = 6 && t != 0) || (op ≠ 6 && isPair f ws && t % 2 == 1)
  let bad1 :=
    if m then !operandOk s core (w 1) za
    else if op = 3 then !operandOk s core (w 1) (loadSize ws)
    else if op = 4 then
      let kind := fld (w 1) 63 62
      kind > 1 || fld (w 1) 61 60 != 0 || fld (w 1) 55 53 != 0 || fld (w 1) 47 18 != 0 || !storeOk f (storeType ws) (bit (w 1) 59)
        || (kind = 0 && (fld (w 1) 17 0 % 4096 != 0
              || fld (w 1) 17 0 + storeSize (storeType ws) > Config.scratchSize (dieOfCore core)))
        || (kind = 1 && fld (w 1) 17 0 != 0)
    else w 1 != 0
  let global := op = 4 && fld (w 1) 63 62 == 1
  let bad2 := if m then !operandOk s core (w 2) zb else if global then false else w 2 != 0
  let bad3 :=
    if m then
      fld (w 3) 63 24 != 0 || cmdKb ws == 0 || cmdKb ws > 1024 || (eMx (fmtA f) && fld (w 3) 23 20 != 0)
        || (eMx (fmtB f) && fld (w 3) 19 16 != 0)
    else if op = 3 then
      fld (w 3) 63 53 != 0 || fld (w 3) 47 0 != 0
        || !(loadType ws == .hf || loadType ws == .bf || loadType ws == .sf || loadType ws == .w || loadType ws == .df)
    else if global then fld (w 3) 63 32 != 0 else w 3 != 0
  let bad7 := if global && eMx (storeType ws) then false else w 7 != 0
  if bad0 then some (1, 0)
  else if m && !pairing f then some (2, 0)
  else if bad1 then some (1, 1)
  else if bad2 then some (1, 2)
  else if bad3 then some (1, 3)
  else if !barWordOk core (w 4) true then some (1, 4)
  else if w 5 != 0 then some (1, 5)
  else if !barWordOk core (w 6) false then some (1, 6)
  else if bad7 then some (1, 7)
  else none

/-! ## Operand bytes -/

/-- The memory key of byte `i` of an operand image. -/
def operandKey (s : State) (core : Nat) (w : Word) (i : Nat) : Nat :=
  let o := operandOf w
  if o.fifo then
    let cl := clusterOfCore core
    let f := fifoRead s cl o.handle
    keyCluster cl (f.base + (f.rpos.toNat + i / f.size) % f.count * f.size + i % f.size)
  else keyScratch core (o.off + i)

def operandBytes (s : State) (core : Nat) (w : Word) (i n : Nat) : List Byte :=
  (List.range n).map (fun j => memGet s.mem (operandKey s core w (i + j)))

/-- Codes of `bits` bits from bytes, lowest first. -/
def codesOf (bits : Nat) (bs : List Byte) : List Nat :=
  let x := leNat bs
  (List.range (bs.length * 8 / bits)).map (fun i => x / 2 ^ (bits * i) % 2 ^ bits)

/-- Block `b` of row `r` of an operand: its element values and its block scale (R377). -/
def blockOf (s : State) (core : Nat) (w : Word) (t : ETy) (inf : Bool) (kb b r : Nat) : List Val × Val :=
  match kBlock t with
  | none => ([], .fin false 1 0)
  | some (_, e) =>
    let vs := (codesOf (eBits t) (operandBytes s core w ((kb * r + b) * e) e)).map (eVal 0 inf t)
    let sc := if eMx t then e8m0Val (leNat (operandBytes s core w (64 * kb * e + kb * r + b) 1)) else .fin false 1 0
    (vs, sc)

/-- The tensor scale of an operand: the captured register, or 1.0 (R378). -/
def tensorScale (scales : Vector (BitVec 32) 8) (scaled : Bool) (n : Nat) : Val :=
  if scaled then ieeeVal fmtSf false ((scales.get (Fin.ofNat 8 n)).toNat) else .fin false 1 0

/-! ## One step of MMA (R348, R349) -/

/-- The new code of one accumulator element after one K block. -/
def mmaElem (f : BitVec 15) (acc : Nat) (a b : List Val) (sa sb : Val) : Nat :=
  if fmtI32 f then (BitVec.ofInt 32 ((acc : Int) + sumInt (a.zip b))).toNat
  else if fmtF64 f then
    (a.zip b).foldl (fun acc p => (ieeeCode fmtDf false rneMode 0
      (exFma rneMode p.1 p.2 (ieeeVal fmtDf false acc)).1).bits) acc
  else
    let t := blockTerm (sumProducts (a.zip b)) sa sb
    (ieeeCode fmtSf false rneMode 0 (exAdd rneMode (ieeeVal fmtSf false acc) (ieeeVal fmtSf false t)).1).bits

/-- Bytes of an accumulator element. -/
def accBytes (pair : Bool) : Nat := if pair then 8 else 4

/-- Accumulate K block `b`: the tile's new bytes. -/
def mmaBlock (s : State) (core : Nat) (c : Cmd) (b : Nat) : List Byte :=
  let ws := c.words
  let f := c.fmt
  let kb := cmdKb ws
  let w3 := wordAt ws 3
  let as := (List.range 64).map (blockOf s core (wordAt ws 1) (fmtA f) (fmtInf f) kb b)
  let bs := (List.range 64).map (blockOf s core (wordAt ws 2) (fmtB f) (fmtInf f) kb b)
  let ta := tensorScale c.scales (bit w3 23) (fld w3 22 20)
  let tb := tensorScale c.scales (bit w3 19) (fld w3 18 16)
  let n := accBytes (fmtF64 f)
  let base := keyAcc (clusterOfCore core) (cmdTile ws) 0
  ((List.range 64).map (fun r => ((List.range 64).map (fun j =>
    match nth as r, nth bs j with
    | some a, some b' =>
      natBytes n (mmaElem f (leNat (memBytes s.mem (base + n * (64 * r + j)) n)) a.1 b'.1
        (if eMx (fmtA f) then a.2 else ta) (if eMx (fmtB f) then b'.2 else tb))
    | _, _ => [])).flatten)).flatten

/-- Bytes of the tile, or tiles, that a command names. -/
def tileBytes (pair : Bool) : Nat := if pair then 32768 else 16384

def zeroTile (s : State) (core : Nat) (c : Cmd) : State :=
  putRaw s (keyAcc (clusterOfCore core) (cmdTile c.words) 0) (List.replicate (tileBytes (isPair c.fmt c.words)) 0)

def mmaStep (s : State) (core : Nat) (c : Cmd) (b : Nat) : State :=
  putRaw s (keyAcc (clusterOfCore core) (cmdTile c.words) 0) (mmaBlock s core c b)

/-! ## MLOAD and MSTORE by rows (R378, R383) -/

/-- A loaded element as the accumulator holds it. -/
def loadElem (t : ETy) (x : Nat) : Nat :=
  match t with
  | .hf => (ieeeCode fmtSf false rneMode 0 (ieeeVal fmtHf false x)).bits
  | .bf => (ieeeCode fmtSf false rneMode 0 (ieeeVal fmtBf false x)).bits
  | _ => x

def loadRow (s : State) (core : Nat) (c : Cmd) (r : Nat) : State :=
  let t := loadType c.words
  let w := packedBytes t
  let n := accBytes (t == .df)
  let xs := codesOf (8 * w) (operandBytes s core (wordAt c.words 1) (64 * w * r) (64 * w))
  putRaw s (keyAcc (clusterOfCore core) (cmdTile c.words) (64 * n * r)) ((xs.map (fun x => natBytes n (loadElem t x))).flatten)

/-- R383: the values of row `r`, scaled, and rotated when the captured context asks. `h` is what an MX block still divides by. -/
def storeVals (s : State) (core : Nat) (c : Cmd) (r : Nat) : List Val × Int :=
  let f := c.fmt
  let w1 := wordAt c.words 1
  let n := accBytes (fmtF64 f)
  let xs := codesOf (8 * n) (memBytes s.mem (keyAcc (clusterOfCore core) (cmdTile c.words) (64 * n * r)) (64 * n))
  let val : Nat → Val := fun x =>
    if fmtF64 f then ieeeVal fmtDf false x else if fmtI32 f then intVal 32 x else ieeeVal fmtSf false x
  let sc := tensorScale c.scales (!bit w1 59) (fld w1 58 56)
  let vs := xs.map (fun x => (exMul (val x) sc).1)
  let t := storeType c.words
  let rot := fmtHad f != 1 && (eMx t || t == .b || (match t with
    | .b8 _ => true
    | .b8n _ => true
    | _ => false))
  if rot then
    (if eMx t then ((rotate (fmtHad f) 0 vs).1, log2h (fmtHad f)) else ((rotate (fmtHad f) (log2h (fmtHad f)) vs).1, 0))
  else (vs, 0)

/-- R383: row `r` as bytes: its elements, and its two block scales for an MX type. -/
def storeRow (s : State) (core : Nat) (c : Cmd) (r : Nat) : List Byte × List Byte :=
  let t := storeType c.words
  let p := storeVals s core c r
  if eMx t then
    let bl := (runs 32 2 p.1).map (fun vs => mxBlock 0 0 t p.2 vs)
    let codes := (bl.map (fun q => q.2.1)).flatten
    (natBytes (64 * eBits t / 8) (codes.foldr (fun x acc => x % 2 ^ eBits t + 2 ^ eBits t * acc) 0),
     bl.map (fun q => BitVec.ofNat 8 q.2.2.1))
  else
    let raw := codesOf 32 (memBytes s.mem (keyAcc (clusterOfCore core) (cmdTile c.words) (256 * r)) 256)
    ((if t == .w then raw.map (natBytes 4)
      else p.1.map (fun v => natBytes (packedBytes t) (eCode 0 (fmtSat c.fmt) (fmtInf c.fmt) t rneMode 0 v).bits)).flatten, [])

end Sys2Proof.Machine
end

