-- ==== Sys2Proof/Machine/Engines.lean ====
section
/-! DEFINITION. What matrix units and copy engines share beyond EngineOps: reads and writes of global memory, engine
commits (R128), tags and images of accumulator tiles (R384–R386), and the queue of a core (R375, R382). -/

namespace Sys2Proof.Machine

/-! ## Global memory (R128, R390) -/

/-- Translate for an engine: a CP page belongs to its core (R126). -/
def engineAddr (s : State) (asid va : Nat) (write : Bool) : Hw Nat :=
  match hwAddr s asid va write false with
  | .ok pa t =>
    (match tlbFind t asid va with
     | some l => if pteMode l.pte == 2 then .fault cCpForeign t else .ok pa t
     | none => .ok pa t)
  | x => x

/-- R182: an engine's access to `n` bytes of one region, under its name. While names must be recalled it is tried again;
`askNames` sends those recalls. -/
def namedAddr (s : State) (asid va n : Nat) (write : Bool) : Hw Nat :=
  match engineAddr s asid va write with
  | .ok pa t =>
    (match throughFilter t (homeOf va) asid write (namedRegions pa va n) with
     | (some u, _) => .ok pa u
     | (none, _) => .retry)
  | x => x

/-- R182: the recalls that the first piece of an access which needs any asks for. -/
def askNames (s : State) (asid : Nat) (write : Bool) : List (Nat × Nat) → State
  | [] => s
  | (va, n) :: rest =>
    match engineAddr s asid va write with
    | .ok pa t =>
      (match throughFilter t (homeOf va) asid write (namedRegions pa va n) with
       | (some u, _) => askNames u asid write rest
       | (none, u) => u)
    | _ => s

/-- Cut `n` bytes at a VA into pieces that lie in one region each. -/
def regionPieces : Nat → Nat → Nat → List (Nat × Nat)
  | 0, _, _ => []
  | fuel + 1, va, n =>
    if n = 0 then []
    else
      let k := min n (512 - va % 512)
      (va, k) :: regionPieces fuel (va + k) (n - k)

def piecesOf (va n : Nat) : List (Nat × Nat) := regionPieces (n / 512 + 2) va n

/-- Read global memory; a poisoned word is told by cause MCHECK. An engine reads under a name that the filters record; the Fox reads
its records past them (log 61). -/
def readPieces (s : State) (named : Bool) (asid : Nat) : List (Nat × Nat) → List Byte → Hw (List Byte)
  | [], acc => .ok acc s
  | (va, n) :: rest, acc =>
    match (if named then namedAddr s asid va n false else engineAddr s asid va false) with
    | .retry => .retry
    | .fault c s => .fault c s
    | .ok pa s => if poisoned s pa n then .fault cMcheck s else readPieces s named asid rest (acc ++ memBytes s.mem pa n)

def engineRead (s : State) (asid va n : Nat) : Hw (List Byte) := readPieces s true asid (piecesOf va n) []
def recordRead (s : State) (asid va n : Nat) : Hw (List Byte) := readPieces s false asid (piecesOf va n) []

/-- An empty commit record of an engine or the I/O die. -/
def freshCommit (kind : CommitKind) (asid : Nat) : Commit :=
  { kind := kind, loc := 0, asid := asid, num := 0, count := 0, r := 0, w := 0, held := false, replay := false, ask := [],
    granted := [], stores := [], far := [], msgs := [], dropped := [], lost := [], bad := [], homes := [], fwd := [], lines := [], point := false, seq := 0, core := none, pid := none,
    barrier := none, sectors := 0, req := 0 }

/-- Put an engine commit on its way. -/
def askCommit (s : State) (c : Commit) (i : Instr) : State :=
  let cid := s.nextCommit
  post { s with commits := tblSet s.commits cid c, nextCommit := cid + 1 } cid i

/-- The grants that a device address needs (R104, R109). -/
def pageArbs (s : State) (pa : Nat) (pinned : Bool) : List Nat :=
  (if pinned then (match pinDieOf s (pa / 2 ^ 37) pa with
    | some d => [16 + d]
    | none => []) else []) ++ [pa / 2 ^ 37]

/-- 64-byte sectors that bytes touch. -/
def sectorCount (a n : Nat) : Nat := if n = 0 then 0 else (a + n - 1) / 64 - a / 64 + 1

/-- R109: the W of a write that is no chunk's: the 64-byte sectors of its bytes. -/
def sectorRange (asid va n : Nat) : BitVec 1024 := sigRange asid (va / 64 * 64) (sectorCount va n * 64)

/-- R128: one engine commit for the bytes that a step writes into one region. -/
def engineCommitFor (s : State) (asid : Nat) (va pa : Nat) (bs : List Byte) (core pid barrier : Option Nat) : State :=
  let (sw, pin) := match tlbFind s asid va with
    | some l => (pteMode l.pte == 1 || ptePlace l.pte == 3, ptePlace l.pte == 1)
    | none => (false, false)
  let w := if sw then 0 else sectorRange asid va bs.length
  let num := match core with
    | some k => match (coreAt s k).cmds with
      | c :: _ => c.num
      | [] => 0
    | none => 0
  askCommit s { freshCommit .engine asid with
    num := num, w := w, ask := pageArbs s pa pin,
    stores := [{ space := if sw then .sw else .hc, asid := asid, va := va, pa := pa, bytes := bs }],
    core := core, pid := pid, barrier := barrier, sectors := sectorCount va bs.length } .engineCommit

/-- Write global memory as engine commits: how many were put on their way, and where each piece stands. -/
def engineWrite (s : State) (asid : Nat) (core pid barrier : Option Nat) :
    List (Nat × Nat) → List Byte → Nat → Hw Nat
  | [], _, k => .ok k s
  | (va, n) :: rest, bs, k =>
    match namedAddr s asid va n true with
    | .retry => .retry
    | .fault c s => .fault c s
    | .ok pa s =>
      engineWrite (engineCommitFor s asid va pa (bs.take n) core pid barrier) asid core pid barrier rest (bs.drop n) (k + 1)

/-! ## The thread that issued a command (R384, R385, R395) -/

/-- The context still runs the thread that issued: a thread of the ASID. -/
def issuerHere (s : State) (t : AccTag) : Bool :=
  let c := ctxAt s (8 * t.core + t.ctx)
  c.run != .dormant && (match c.run with
    | .reserved _ => false
    | _ => true) && asidOf c == t.asid

/-- A saved thread whose origin is the issuing context. -/
def issuerSaved (t : AccTag) (x : Saved) : Bool := x.origin == 8 * t.core + t.ctx && x.asid == t.asid

/-- R386: a command of the thread is accepted and not complete. -/
def heldAtOrigin (s : State) (x : Saved) : Bool :=
  (coreAt s (coreOf x.origin)).cmds.any (fun c => issuerSaved c.tag x)

/-- Change the saved threads that satisfy `p`. -/
def modSaved (s : State) (p : Saved → Bool) (f : Saved → Saved) : State :=
  modFox s (fun x => { x with
    resume := x.resume.map (fun e => if p e then f e else e), heldItems := x.heldItems.map (fun e => if p e then f e else e) })

def isSaved (s : State) (p : Saved → Bool) : Bool := s.fox.resume.any p || s.fox.heldItems.any p

/-- The issuing thread has retired. -/
def issuerGone (s : State) (t : AccTag) : Bool := !issuerHere s t && !isSaved s (issuerSaved t)

/-- An asynchronous trap of the issuing thread: now, or when it resumes (R385). One that has retired receives none. -/
def pendIssuer (s : State) (t : AccTag) (p : Pending) : State :=
  if issuerHere s t then pend s (8 * t.core + t.ctx) p
  else modSaved s (issuerSaved t) (fun x => { x with pending := x.pending ++ [p] })

/-- R395: a command faults into its issuing context. -/
def cmdFaulted (s : State) (c : Cmd) (reason detail : Nat) : State :=
  pendIssuer s c.tag { cause := cEngineFault, badva := enginePtr (64 * (c.num % 16)), tval := faultWord reason detail }

/-- R384: the mask of the issuing context. -/
def issuerMask (s : State) (t : AccTag) : BitVec 16 :=
  if issuerHere s t then (ctxAt s (8 * t.core + t.ctx)).accMask
  else match (s.fox.resume ++ s.fox.heldItems).find? (issuerSaved t) with
    | some x => x.accMask
    | none => 0

def modIssuerMask (s : State) (t : AccTag) (f : BitVec 16 → BitVec 16) : State :=
  if issuerHere s t then modCtx s (8 * t.core + t.ctx) (fun c => { c with accMask := f c.accMask })
  else modSaved s (issuerSaved t) (fun x => { x with accMask := f x.accMask })

/-! ## Tags (R384) -/

def tagOf (s : State) (cl t : Nat) : Option AccTag := (clusterAt s cl).tags.get (Fin.ofNat 16 t)
def setTag (s : State) (cl t : Nat) (x : Option AccTag) : State :=
  modCluster s cl (fun c => { c with tags := c.tags.set (Fin.ofNat 16 t).val x (Fin.ofNat 16 t).isLt })

def sameTag (a b : AccTag) : Bool := a.asid == b.asid && a.core == b.core && a.ctx == b.ctx

/-- R375: the image area of a context. -/
def imageVa (c : Ctl) : Word := c.privbase + c.privlen - 0x100000

def tileBit (t : Nat) : BitVec 16 := (1 : BitVec 16) <<< t

/-- R385: the state word of a core's window. -/
def setStop (s : State) (core : Nat) (q : QueueStop) : State :=
  let slot := match (coreAt s core).cmds with
    | c :: _ => c.num % 16
    | [] => 0
  let w : Word := match q with
    | .running => 0
    | .preempted => BitVec.ofNat 64 (2 ^ 63 + slot * 2 ^ 32)
    | .owned => BitVec.ofNat 64 (2 ^ 63 + 2 ^ 62 + slot * 2 ^ 32)
  putRawWord (modCore s core (fun c => { c with stop := q })) (keyEngine core 0x410) w

/-- R399: the core's stopped queue restarts. -/
def restart (s : State) (core : Nat) : State :=
  if (coreAt s core).stop == .running then s else kick (setStop s core .running) (clusterOfCore core)

/-- The command at the head of a core's queue that the unit executes touches tile `t`. -/
def executingTouches (s : State) (cl t : Nat) : Bool :=
  match (clusterAt s cl).executing with
  | none => false
  | some core => match (coreAt s core).cmds with
    | c :: _ => c.begun && (cmdTile c.words == t || (isPair c.fmt c.words && cmdTile c.words + 1 == t)) && cmdOp c != 6
    | [] => false

/-- R384: write a tile's 16 KiB at an image VA, region by region, each at its own point of package order. None: an arbiter
or a home holds one of them, and nothing has been done. -/
def spillPieces (s : State) (asid : Nat) : List (Nat × Nat) → List Byte → Option (State × Option Nat)
  | [], _ => some (s, none)
  | (va, n) :: rest, bs =>
    match engineAddr s asid va true with
    | .retry => none
    | .fault c s => some (s, some c)
    | .ok pa s =>
      let w := sigRange asid va n
      if (pageArbs s pa (ptePlaceAt s asid va == 1)).any (fun a => refuses s a none 0 w) then none
      else spillPieces (hwCommit s w pa (bs.take n)) asid rest (bs.drop n)
where
  /-- The placement of the page at a VA. -/
  ptePlaceAt (s : State) (asid va : Nat) : Nat :=
    match tlbFind s asid va with
    | some l => ptePlace l.pte
    | none => 0

/-- R384, R385, R400: write tile `t` at a VA under an ASID, and free it. A write that faults discards the rest and posts ENGINE_FAULT to
the old tag's ASID. None: it must be tried again. -/
def spillTo (s : State) (cl t asid va : Nat) (g : AccTag) : Option State :=
  match spillPieces s asid (piecesOf va 16384) (memBytes s.mem (keyAcc cl t 0) 16384) with
  | none => none
  | some (s, none) => some (setTag s cl t none)
  | some (s, some cause) => some (setTag (engineEvent s g.asid (BitVec.ofNat 64 va) 0x08 cause []) cl t none)

/-- Where tile `t` lies in an image area. -/
def tileImage (image : Word) (t : Nat) : Nat := (image + BitVec.ofNat 64 (16384 * t)).toNat

/-- R385: write tile `t` to the image VA recorded with its tag, and free it. -/
def spillTile (s : State) (cl t : Nat) : Option State :=
  match tagOf s cl t with
  | none => some s
  | some g => spillTo s cl t g.asid (tileImage g.image t) g

/-- R386: before a thread resumes elsewhere, the tiles that still carry its tag go to its image area. None: it must be tried again. -/
def spillAll (s : State) (cl asid : Nat) (image : Word) (p : AccTag → Bool) : Option State :=
  (List.range 16).foldl (fun acc t => match acc with
    | none => none
    | some s => (match tagOf s cl t with
      | some g => if p g then spillTo s cl t asid (tileImage image t) g else some s
      | none => some s)) (some s)

/-! ## Accepting commands (R375, R379) -/

def headWord (s : State) (core : Nat) : Word := getRaw s (keyEngine core 0x408)
def tailWord (s : State) (core : Nat) : Word := getRaw s (keyEngine core 0x400)

/-- Accept command `n` of a core for context `l`. -/
def acceptOne (s : State) (core l n : Nat) : State :=
  let c := ctxAt s l
  let x := coreAt s core
  let ws := wordsOf (memBytes s.mem (keyEngine core (64 * (n % 16))) 64)
  let bad := cmdFault s core x.fmt ws
  let cmd : Cmd := { num := n, words := ws, fmt := x.fmt, scales := x.scales,
                     tag := { asid := asidOf c, core := core, ctx := l % 8, image := imageVa c.ctl },
                     refused := bad.isSome, done := 0, begun := false, opened := false, seq := s.nextOp, commits := 0 }
  let s := modCore { s with nextOp := s.nextOp + 1 } core (fun y => { y with cmds := y.cmds ++ [cmd] })
  match bad with
  | none => s
  | some (reason, detail) => cmdFaulted s cmd reason detail

/-- R375: a store of T to the tail. -/
def tailStore (s : State) (core l : Nat) (t : Word) : State :=
  let old := (tailWord s core).toNat
  let head := (headWord s core).toNat
  if old ≤ t.toNat ∧ t.toNat ≤ head + 16 then
    let s := (List.range (t.toNat - old)).foldl (fun u i => acceptOne u core l (old + i)) s
    kick (putRawWord s (keyEngine core 0x400) t) (clusterOfCore core)
  else engineFault s l (enginePtr 0x400) 0x05 0

/-- R375: the slot holds a command from head to tail − 1. -/
def slotLive (s : State) (core slot : Nat) : Bool :=
  let head := (headWord s core).toNat
  let tail := (tailWord s core).toNat
  (List.range (tail - head)).any (fun i => (head + i) % 16 == slot)

/-- R374, R375, R388: a committed store into the engine window. -/
def engineStore (s : State) (l off : Nat) (bs : List Byte) : State :=
  let core := coreOf l
  let cl := clusterOf l
  if off < 0x400 then
    if slotLive s core (off / 64) then engineFault s l (enginePtr off) 0x06 (off / 64)
    else putRaw s (keyEngine core off) bs
  else if off = 0x400 then tailStore s core l (BitVec.ofNat 64 (leNat bs))
  else
    let o := off - 0x800
    let h := o / 32
    let w := o % 32
    let valid := bit (getRaw s (fifoKey cl h)) 63
    if (w = 8 ∨ w = 16) ∧ valid then engineFault s l (enginePtr off) 0x06 h
    else if w = 0 ∧ valid ∧ getRaw s (fifoKey cl h + 8) ≠ getRaw s (fifoKey cl h + 16) then s
    else kick (wakeCluster (putRaw s (keyFifo cl o) bs) cl) cl

/-! ## Retiring commands (R379, R382) -/

/-- The head command leaves the queue: head + 1, and the unit is free. -/
def popCmd (s : State) (core : Nat) : State :=
  let s := putRawWord s (keyEngine core 0x408) (headWord s core + 1)
  let s := modCore s core (fun c => { c with cmds := c.cmds.drop 1 })
  modCluster s (clusterOfCore core) (fun c => { c with executing := if c.executing == some core then none else c.executing })

def flipTiles (s : State) (core : Nat) (tiles : List Nat) : State := tiles.foldl (fun t x => tileToT t core x) s

/-- R379: the head command retires without effect. -/
def retireRefused (s : State) (core : Nat) (c : Cmd) : State :=
  let cl := clusterOfCore core
  kick (wakeCluster (flipTiles (popCmd s core) core (touchedTiles c.fmt c.words)) cl) cl

/-- R395: the head command faults; it retires as R379 retires a refused one. -/
def faultCmd (s : State) (core : Nat) (c : Cmd) (reason detail : Nat) : State :=
  retireRefused (cmdFaulted s c reason detail) core c

end Sys2Proof.Machine
end

