-- ==== Sys2Proof/Machine/MatrixUnit.lean ====
section
/-! DEFINITION. The steps of the matrix unit (spec/24 R380–R385). The unit taking each of these steps is a core: the one
whose queue the command heads. -/

namespace Sys2Proof.Machine

/-- R381: the steps of a command. -/
def totalSteps (c : Cmd) : Nat :=
  match cmdOp c with
  | 1 => cmdKb c.words
  | 2 => cmdKb c.words + 1
  | 3 => 64
  | 4 => 64
  | _ => 1

/-- Replace the head command of a core. -/
def setHeadCmd (s : State) (core : Nat) (c : Cmd) : State := modCore s core (fun x => { x with cmds := c :: x.cmds.drop 1 })

/-- R380: the head command of a core is ready. -/
def cmdReady (s : State) (core : Nat) (c : Cmd) : Bool :=
  let ws := c.words
  let w4 := wordAt ws 4
  (fifoOperands ws).all (fun p => let f := fifoRead s (clusterOfCore core) p.1
                                  !f.valid || f.consThreads || p.2 ≤ fifoFilled f)
    && (!bit w4 63 || phasePassed (barRead s (barWordKey core w4)).phase (fld w4 59 56))
    && (touchedTiles c.fmt ws).all (fun t => isTileE s core t)

/-- R380: no ready head of the cluster was accepted earlier. -/
def isEarliest (s : State) (core : Nat) (c : Cmd) : Bool :=
  (List.range 8).all (fun i =>
    let o := clusterOfCore core * 8 + i
    match (coreAt s o).cmds with
    | d :: _ => o == core || (coreAt s o).stop != .running || !cmdReady s o d || c.seq ≤ d.seq
    | [] => true)

/-- R385: the queue stops by ownership. c.tval of ACC_OWNED (R276): the old tag's ASID, context and core, and the tile. -/
def ownedStop (s : State) (core : Nat) (c : Cmd) (t : Nat) (old : AccTag) : State :=
  let s := setStop s core .owned
  if issuerGone s c.tag then postOnce s 0 (.accWriteback (clusterOfCore core) t)
  else pendIssuer s c.tag
    { cause := cAccOwned, badva := enginePtr 0,
      tval := BitVec.ofNat 64 ((old.asid * 64 + old.core % 8 * 8 + old.ctx) * 65536 + t) }

/-- The tiles that a command names at issue. -/
def namedTiles (c : Cmd) : List Nat :=
  if cmdOp c = 6 then [] else cmdTile c.words :: (if isPair c.fmt c.words then [cmdTile c.words + 1] else [])

/-- R384: tag a free tile; load it from its image when the issuer's mask has it and the command reads it. -/
def takeTile (s : State) (core : Nat) (c : Cmd) (t : Nat) : Hw Unit :=
  let cl := clusterOfCore core
  match tagOf s cl t with
  | some _ => .ok () s
  | none =>
    let tagged : State → State := fun s =>
      modIssuerMask (setTag s cl t (some c.tag)) c.tag (fun m => m ||| tileBit t)
    if (issuerMask s c.tag &&& tileBit t) != 0 && (cmdOp c == 1 || cmdOp c == 4) then
      match engineRead s c.tag.asid (c.tag.image + BitVec.ofNat 64 (16384 * t)).toNat 16384 with
      | .retry => .retry
      | .fault cause s => .fault cause s
      | .ok bs s => .ok () (tagged (putRaw s (keyAcc cl t 0) bs))
    else .ok () (tagged s)

def takeTiles (s : State) (core : Nat) (c : Cmd) : List Nat → Hw Unit
  | [] => .ok () s
  | t :: ts =>
    match takeTile s core c t with
    | .ok _ s => takeTiles s core c ts
    | x => x

/-- R384: a load that fails leaves the named tiles, and the issuer's mask, as they were in `old`. -/
def untakeTiles (old s : State) (cl : Nat) (g : AccTag) (tiles : List Nat) : State :=
  modIssuerMask (tiles.foldl (fun u t => setTag (putRaw u (keyAcc cl t 0) (memBytes old.mem (keyAcc cl t 0) 16384)) cl t (tagOf old cl t)) s) g
    (fun _ => issuerMask old g)

/-- R182: the recalls that the images of the named tiles need before they are loaded. -/
def askImages (s : State) (c : Cmd) (tiles : List Nat) : State :=
  tiles.foldl (fun t i => askNames t c.tag.asid false (piecesOf (c.tag.image + BitVec.ofNat 64 (16384 * i)).toNat 16384)) s

/-- R400: an accspill from this core of a tile that the command names is not done; the command waits for it. -/
def spillBefore (s : State) (core : Nat) (c : Cmd) : Bool :=
  (clusterAt s (clusterOfCore core)).spills.any (fun x => x.core == core && (namedTiles c).contains x.tile)

/-- R384: issue the head command. -/
def issueCmd (s : State) (core : Nat) (c : Cmd) (again : Instr) : State :=
  let cl := clusterOfCore core
  match (fifoOperands c.words).find? (fun p => let f := fifoRead s cl p.1
                                              !f.valid || f.consThreads) with
  | some p => faultCmd s core c 0x04 p.1
  | none =>
    if spillBefore s core c then postIn s 16 core again
    else match (namedTiles c).find? (fun t => match tagOf s cl t with
        | some g => !sameTag g c.tag
        | none => false) with
    | some t => (match tagOf s cl t with
      | some g => ownedStop s core c t g
      | none => s)
    | none =>
      match takeTiles s core c (namedTiles c) with
      | .retry => postIn (askImages s c (namedTiles c)) 16 core again
      | .fault cause u => faultCmd (untakeTiles s u cl c.tag (namedTiles c)) core c 0x08 cause
      | .ok _ s =>
        let s := modCluster s cl (fun x => { x with executing := some core })
        post (setHeadCmd s core { c with begun := true, opened := true }) core again

/-- R127, R211: what stops a step: a T tile, or a poisoned word. -/
def stepFault (s : State) (core : Nat) (c : Cmd) : Option (Nat × Nat) :=
  match (touchedTiles c.fmt c.words).find? (fun t => !isTileE s core t) with
  | some t => some (0x0A, t)
  | none =>
    let imgs : List (Word × Nat) :=
      if cmdOp c = 1 ∨ cmdOp c = 2 then
        [(wordAt c.words 1, imageSize (fmtA c.fmt) (cmdKb c.words)), (wordAt c.words 2, imageSize (fmtB c.fmt) (cmdKb c.words))]
      else if cmdOp c = 3 then [(wordAt c.words 1, loadSize c.words)] else []
    if !s.poison.isEmpty && imgs.any (fun p => (List.range (p.2 / 8)).any (fun i =>
        s.poison.contains (operandKey s core p.1 (8 * i)))) then some (0x07, 0)
    else none

/-- After a step: the next one, or the completion once every engine commit is complete (R382). -/
def stepDone (s : State) (core : Nat) (c : Cmd) (again : Instr) : State :=
  let c := { c with done := c.done + 1 }
  let s := setHeadCmd s core c
  if c.done < totalSteps c then post s core again
  else if c.commits = 0 then post s core .commandComplete
  else s

/-- R380–R384: what a sequencer does with the command of opcode `op` at the head of the core's queue: retire it when it
was refused, issue it when it is ready, or run its next step. -/
def matrixStep (s : State) (op : Nat) (run : State → Nat → Cmd → State) : State :=
  let core := s.cur
  let cl := clusterOfCore core
  match (coreAt s core).cmds with
  | [] => s
  | c :: _ =>
    if (coreAt s core).stop != .running then s
    else if c.refused then retireRefused s core c
    else if cmdOp c != op then s
    else if !c.begun then
      (if (clusterAt s cl).executing.isSome || !cmdReady s core c || !isEarliest s core c then s
       else issueCmd s core c (opName op))
    else if c.done ≥ totalSteps c then s
    else match stepFault s core c with
      | some (reason, detail) => faultCmd s core c reason detail
      | none => run s core c

/-- R378: MMA. -/
def execMma (s : State) : Res :=
  .next (matrixStep s 1 (fun s core c => stepDone (mmaStep s core c c.done) core c .mma))

/-- R378, R381: MMAZ; step 0 zeroes. -/
def execMmaz (s : State) : Res :=
  .next (matrixStep s 2 (fun s core c =>
    stepDone (if c.done = 0 then zeroTile s core c else mmaStep s core c (c.done - 1)) core c .mmaz))

/-- R378: MLOAD, a row each step. -/
def execMload (s : State) : Res := .next (matrixStep s 3 (fun s core c => stepDone (loadRow s core c c.done) core c .mload))

/-- R383: one row of an MSTORE to global memory: its elements, and an MX type's two scales. -/
def storeGlobal (s : State) (core : Nat) (c : Cmd) (row : List Byte × List Byte) : State :=
  let ws := c.words
  let stride : Int := (BitVec.ofNat 32 (fld (wordAt ws 3) 31 0)).toInt
  let va := (wordAt ws 2 + BitVec.ofInt 64 (stride * c.done)).toNat
  let sc := (wordAt ws 7 + BitVec.ofNat 64 (2 * c.done)).toNat
  let w6 := wordAt ws 6
  let bar := if bit w6 63 then some (barWordKey core w6) else none
  let items := piecesOf va row.1.length ++ (if row.2.isEmpty then [] else piecesOf sc row.2.length)
  match engineWrite s c.tag.asid (some core) none bar items (row.1 ++ row.2) 0 with
  | .retry => postIn (askNames s c.tag.asid true items) 16 core .mstore
  | .fault cause s' => faultCmd s' core c 0x08 cause
  | .ok k s' => stepDone s' core { c with commits := c.commits + k } .mstore

/-- R383: MSTORE, a row each step. -/
def execMstore (s : State) : Res :=
  .next (matrixStep s 4 (fun s core c =>
    let row := storeRow s core c c.done
    let w1 := wordAt c.words 1
    if fld w1 63 62 = 1 then storeGlobal s core c row
    else
      let base := fld w1 17 0
      let t := storeType c.words
      let n := row.1.length
      let s := putRaw s (keyScratch core (base + n * c.done)) row.1
      let s := if eMx t then putRaw s (keyScratch core (base + 64 * n + 2 * c.done)) row.2 else s
      stepDone s core c .mstore))

/-- R378: MZERO. -/
def execMzero (s : State) : Res := .next (matrixStep s 5 (fun s core c => stepDone (zeroTile s core c) core c .mzero))

/-- R378: MFENCE. -/
def execMfence (s : State) : Res := .next (matrixStep s 6 (fun s core c => stepDone s core c .mfence))

/-- R382: everything that takes effect together at a completion. -/
def completeCmd (s : State) (core : Nat) (c : Cmd) : State :=
  let cl := clusterOfCore core
  let ws := c.words
  let s := popCmd s core
  let s := if issuerHere s c.tag then modCtx s (8 * core + c.tag.ctx) (fun x => { x with ticket := cmdTicket ws })
    else modSaved s (issuerSaved c.tag) (fun x => { x with ticket := cmdTicket ws })
  let s := if cmdKeep ws then s else flipTiles s core (touchedTiles c.fmt ws)
  let s := (fifoOperands ws).foldl (fun t p => fifoAdvance t cl p.1 p.2 false) s
  let s := if cmdRelease ws then
      (namedTiles c).foldl (fun t x => modIssuerMask (setTag t cl x none) c.tag (fun m => m &&& ~~~tileBit x)) s
    else s
  let w6 := wordAt ws 6
  let s := if bit w6 63 then
      let p := barArrive s (barWordKey core w6)
      if p.2 then p.1 else cmdFaulted p.1 c 0x11 0xFF
    else s
  kick (wakeCluster s cl) cl

def execCommandComplete (s : State) : Res :=
  match (coreAt s s.cur).cmds with
  | c :: _ =>
    if c.begun && totalSteps c ≤ c.done && c.commits = 0 then .next (completeCmd s s.cur c) else .next s
  | [] => .next s

/-- R385: queues of the cluster that ownership stopped go on when their issuer has retired. -/
def restartOwned (s : State) (cl : Nat) : State :=
  kick ((List.range 8).foldl (fun t i =>
    let core := cl * 8 + i
    match (coreAt t core).cmds with
    | c :: _ => if (coreAt t core).stop == .owned && issuerGone t c.tag then restart t core else t
    | [] => t) s) cl

/-- R400, steps 2 and 3: the tile is free or carries the tag of the context that executed accspill: nothing; else it goes to `va`, or
nowhere, and is free. None: it must be tried again. -/
def spillFor (s : State) (cl : Nat) (x : AccSpill) : Option State :=
  match tagOf s cl x.tile with
  | none => some s
  | some g =>
    if g.asid == x.asid && g.core == x.core && g.ctx == x.ctx then some s
    else if x.va = 0 then some (setTag s cl x.tile none)
    else spillTo s cl x.tile x.asid x.va.toNat g

/-- R385, R400: once no executing command touches the tile, the unit writes it away and frees it: for the accspill that came first, or
for a queue whose issuer has retired. -/
def execAccWriteback (cl tile : Nat) (s : State) : Res :=
  let again : Res := .next (postIn s 16 0 (.accWriteback cl tile))
  if executingTouches s cl tile then again
  else match (clusterAt s cl).spills.find? (fun x => x.tile == tile) with
    | some x => (match spillFor s cl x with
      | none => again
      | some t => .next (restartOwned (modCluster t cl (fun y => { y with spills := y.spills.erase x })) cl))
    | none => match spillTile s cl tile with
      | none => again
      | some t => .next (restartOwned t cl)

/-- R400: accspill at the commit of its chunk. -/
def accspillAt (s : State) (l tile : Nat) (va : Word) : State :=
  let cl := clusterOf l
  let x : AccSpill := { tile := tile, asid := asidOf (ctxAt s l), core := coreOf l, ctx := l % 8, va := va }
  post (modCluster s cl (fun y => { y with spills := y.spills ++ [x] })) 0 (.accWriteback cl tile)

/-- R385: the issuer of the head command of a core's queue has retired after ownership stopped the queue: the old tile is written away. -/
def issuerRetired (s : State) (core : Nat) : State :=
  let cl := clusterOfCore core
  match (coreAt s core).cmds with
  | [] => s
  | c :: _ =>
    if (coreAt s core).stop != .owned || !issuerGone s c.tag then s
    else match (namedTiles c).find? (fun t => (tagOf s cl t).any (fun g => !sameTag g c.tag)) with
      | some t => postOnce s 0 (.accWriteback cl t)
      | none => restart s core

/-- R402, TASK_HANG: the queue of the hung context's core stops at its next step boundary: every command that has not begun retires
without effect and without a fault, whoever issued it (DEDUCED, log 81), and the executing command ends there and completes. -/
def hangQueue (s : State) (l : Nat) : State :=
  let core := coreOf l
  let s := modCore s core (fun x => { x with cmds := x.cmds.map (fun c =>
    if c.opened then { c with begun := true, done := totalSteps c } else { c with refused := true }) })
  let s := match (coreAt s core).cmds with
    | c :: _ => if c.begun && c.commits = 0 then post s core .commandComplete else s
    | [] => s
  if (coreAt s core).stop == .running then kick s (clusterOf l) else restart s core

end Sys2Proof.Machine
end

