-- ==== Sys2Proof/Machine/Rings.lean ====
section
/-! DEFINITION. Rings (R226, R227), hardware deliveries, mailboxes (R222) and deques (R231), and the steps that move
messages: RING_DELIVERY, RING_RETRY, QUEUE_STALL, MAILBOX_DELIVERY, QUEUE_MISS, QUEUE_PROBE. -/

namespace Sys2Proof.Machine

/-- A step is put back at the head of the agenda, to be taken again. -/
def repost (s : State) (d u : Nat) (i : Instr) : State := { s with agenda := (s.now + d, u, i) :: s.agenda }

/-- How long a held step waits before it is examined again. -/
def pollCycles : Nat := 16

/-! ## Deferred-effect entries of committed chunks (R247) -/

/-- A delivery has been accepted: its context's entry is free. -/
def accepted (s : State) (loc : Option Nat) : State :=
  match loc with
  | some l => modCtx s l (fun c => { c with undelivered := c.undelivered - 1 })
  | none => s

/-- R247: a delivery holds an entry of its context. -/
def holdEntry (s : State) (l : Nat) : State := modCtx s l (fun c => { c with undelivered := c.undelivered + 1 })

/-! ## The overflow memory (R222, R231, R292) -/

/-- R292: the 128 KiB of a core: its mailbox overflow ring, then its deque overflow area. -/
def overflowBase (s : State) (core : Nat) : Nat :=
  (fld (bar0Get s (dieOff (dieOfCore core) 0)) 40 16 * 2 ^ 16 + core % 512 * 2 ^ 17) % 2 ^ 41

/-- The messages of a ring of 1,024 slots in overflow memory, from their slots and ASIDs. -/
def overflowMsgs (s : State) (base : Nat) (es : List (Nat × Nat)) : List Held :=
  es.map (fun e => { asid := e.2, msg := wordsOf (memBytes s.mem (base + 64 * e.1) 64) })

/-- A message is written to a slot of overflow memory. -/
def overflowWrite (s : State) (base slot : Nat) (h : Held) : State :=
  commitBytes s (nameSig s (base + 64 * slot) 64) (base + 64 * slot) ((takePad 0 8 h.msg).foldr (fun x acc => wordBytes x ++ acc) [])

/-! ## Mailboxes (R222) -/

/-- R222: room for 16 messages, then 1,024 in the overflow ring. None when both are full. -/
def mailboxPut (s : State) (core : Nat) (h : Held) : Option State :=
  let c := coreAt s core
  if c.overflow.isEmpty && c.mailbox.length < 16 then some (modCore s core (fun x => { x with mailbox := x.mailbox ++ [h] }))
  else if c.overflow.length < 1024 then
    let k := match c.overflow.getLast? with
      | none => 0
      | some e => (e.1 + 1) % 1024
    some (modCore (overflowWrite s (overflowBase s core) k h) core (fun x => { x with overflow := x.overflow ++ [(k, h.asid)] }))
  else none

/-- R222: take entry `i` of the mailbox; it refills from the overflow ring. -/
def mailboxTake (s : State) (core i : Nat) : State :=
  modCore s core (fun x => { x with
    mailbox := dropNth x.mailbox i ++ overflowMsgs s (overflowBase s core) (x.overflow.take 1), overflow := x.overflow.drop 1 })

/-! ## Deques (R231) -/

/-- R231: where a core's deque overflow area begins. -/
def dequeBase (s : State) (core : Nat) : Nat := overflowBase s core + 2 ^ 16

/-- R231: push at the top; a full deque first moves its 16 bottom entries to the overflow area. None when both are full, and,
DESIGN CHOICE (log 94), when the area has no 16 free slots. -/
def dequePut (s : State) (core : Nat) (h : Held) : Option State :=
  let c := coreAt s core
  if c.deque.length < 32 then some (modCore s core (fun x => { x with deque := h :: x.deque }))
  else if c.dequeOver.length + 16 ≤ 1024 then
    let free := (List.range 1024).filter (fun k => !(c.dequeOver.any (fun e => e.1 == k)))
    let moved := List.zip free (c.deque.drop 16)
    let s := moved.foldl (fun t m => overflowWrite t (dequeBase s core) m.1 m.2) s
    some (modCore s core (fun x =>
      { x with deque := h :: x.deque.take 16, dequeOver := moved.map (fun m => (m.1, m.2.asid)) ++ x.dequeOver }))
  else none

/-- R231: a push, which waits when there is no room. -/
def spawnPush (s : State) (core : Nat) (loc : Option Nat) (h : Held) : State :=
  match (if (coreAt s core).spawnWait.isEmpty then dequePut s core h else none) with
  | some s => accepted s loc
  | none => modCore s core (fun x => { x with spawnWait := x.spawnWait ++ [(loc, h)] })

/-- The pushes of a list enter in order, as far as there is room; what is left waits on. -/
def spawnEnter (core : Nat) : State → List (Option Nat × Held) → State
  | s, [] => modCore s core (fun x => { x with spawnWait := [] })
  | s, (loc, h) :: rest => match dequePut s core h with
    | some s => spawnEnter core (accepted s loc) rest
    | none => modCore s core (fun x => { x with spawnWait := (loc, h) :: rest })

/-- Pushes that wait enter once a take has freed room. -/
def spawnRefill (s : State) (core : Nat) : State := spawnEnter core s (coreAt s core).spawnWait

/-- R231: the entries of a deque, top first: those in SRAM, then those in the overflow area. -/
def dequeAll (s : State) (core : Nat) : List Held :=
  (coreAt s core).deque ++ overflowMsgs s (dequeBase s core) (coreAt s core).dequeOver

/-- R231: take entry `i` of `dequeAll`. An empty SRAM part refills from the overflow area,
DESIGN CHOICE (log 94), by up to 16 entries. -/
def dequeTake (s : State) (core i : Nat) : State :=
  modCore s core (fun c =>
    let deque := dropNth c.deque i
    let older := if i < c.deque.length then c.dequeOver else dropNth c.dequeOver (i - c.deque.length)
    if deque.isEmpty then { c with deque := overflowMsgs s (dequeBase s core) (older.take 16), dequeOver := older.drop 16 }
    else { c with deque := deque, dequeOver := older })

def ringSlotVa (ws : List Word) (n : Nat) : Nat := qdBase ws + 64 * (n % qdCount ws)

/-! ## What stands in a ring (R226 step 4) -/

/-- What stands at the read index of a ring. -/
inductive RingHead where
  | empty
  /-- claimed and not written yet -/
  | unwritten
  | entry (n : Nat) (msg : List Word)
deriving DecidableEq, Repr

def ringHead (s : State) (asid desc : Nat) (ws : List Word) : Hw RingHead :=
  match hwRead s asid (desc + 0x10) 16 true with
  | .retry => .retry
  | .fault c s => .fault c s
  | .ok bs s =>
    let wi := wordAt (wordsOf bs) 0
    let ri := wordAt (wordsOf bs) 1
    match hwRead s asid (ringSlotVa ws ri.toNat) 64 true with
    | .retry => .retry
    | .fault c s => .fault c s
    | .ok sb s =>
      let msg := wordsOf sb
      if fld (wordAt msg 0) 63 48 == ri.toNat % 65536 then .ok (.entry ri.toNat msg) s
      else .ok (if wi = ri then .empty else .unwritten) s

/-! ## Heads (R225) -/

/-- Keep a head on one die only. -/
def dropHead (s : State) (asid h : Nat) : State :=
  { s with dies := tblMap (fun _ d => { d with heads := d.heads.filter (fun x => !(x.asid == asid && x.handle == h)) }) s.dies }

/-- A queue holds entries that nothing has taken; one whose indices must wait to be read is taken to hold some. -/
def queueFilled (s : State) (asid desc : Nat) (ws : List Word) : Bool :=
  match ringHead s asid desc ws with
  | .ok .empty _ => false
  | .fault _ _ => false
  | _ => true

/-- R238: tasks of an ordered queue that have not been dispatched. -/
def domainWaits (s : State) (asid h : Nat) : Bool :=
  s.fox.domains.any (fun x => x.asid == asid && x.handle == h && x.tasks.any (fun t => !t.sent))

/-- The idle contexts of a die. -/
def idleOn (s : State) (die : Nat) : Nat :=
  8 * 8 * Config.clusters die - (s.ctxs.filter (fun e => dieOf e.1 == die && e.2.run != .dormant)).length

/-- The dies that execute work. -/
def liveDies (s : State) : List Nat := (List.range 64).filter (fun d => placeExists s d 0 0)

/-- R225: among the dies that satisfy `p`, the one with the most idle contexts; which of several is free. -/
def idlestDie (s : State) (p : Nat → Bool) : Option Nat :=
  let ds := (liveDies s).filter p
  let top := ds.foldl (fun m d => max m (idleOn s d)) 0
  let best := ds.filter (fun d => idleOn s d == top)
  nth best (Config.choose s.tick 2 % (max 1 best.length))

/-- R225, R235: a die class: 0 any, 1 M, 2 S. -/
def classAdmits (cls die : Nat) : Bool := cls == 0 || (cls == 1) == Config.isM die

/-- R223: the die class that a binding names. -/
def bindClass (ws : List Word) : Nat := if qdBinding ws = 1 ∨ qdBinding ws = 2 then qdBinding ws else 0

/-- R225, R232: a binding admits a die. -/
def bindAdmits (ws : List Word) (die : Nat) : Bool :=
  classAdmits (bindClass ws) die && (qdBinding ws != 4 || dieOfCore (qdPlace ws) == die)

/-- R225: the die that becomes the holder of a head which another one has evicted: one of the class of its binding with a free head, of
those with the most idle contexts when the queue is bound to a class, else any. -/
def nextHolder (s : State) (die : Nat) (x : Head) : Option Nat :=
  let free : Nat → Bool := fun d => d != die && classAdmits (bindClass x.words) d && decide ((dieAt s d).heads.length < 256)
  if bindClass x.words != 0 then idlestDie s free
  else
    let ds := (liveDies s).filter free
    nth ds (Config.choose s.tick 4 % max 1 ds.length)

/-- R225: a head is resident on a die. -/
def addHead (s : State) (die : Nat) (x : Head) : State := modDie s die (fun d => { d with heads := d.heads ++ [x] })

/-- R225: a head that a die gives up: it moves when its queue still holds entries. -/
def displace (s : State) (die : Nat) (x : Head) : State :=
  if queueFilled s x.asid x.desc x.words || domainWaits s x.asid x.handle then
    match nextHolder s die x with
    | some d => addHead s d x
    | none => s
  else s

/-- R225: make a head resident on a die; the least recently used one gives way. -/
def putHead (s : State) (die : Nat) (x : Head) : State :=
  let s := dropHead s x.asid x.handle
  let hs := (dieAt s die).heads
  if hs.length < 256 then addHead s die x
  else
    let old := hs.foldl (fun (m : Head) y => if y.used < m.used then y else m) (hs.headD x)
    addHead (displace (modDie s die (fun d => { d with heads := d.heads.filter (fun y => y != old) })) die old) die x

def touchHead (s : State) (asid h : Nat) : State :=
  { s with dies := tblMap (fun _ d => { d with heads := d.heads.map (fun x =>
      if x.asid == asid && x.handle == h then { x with used := s.tick } else x) }) s.dies }

def modHead (s : State) (asid h : Nat) (f : Head → Head) : State :=
  { s with dies := tblMap (fun _ d => { d with heads := d.heads.map (fun x =>
      if x.asid == asid && x.handle == h then f x else x) }) s.dies }

/-! ## Hardware producers (R226, R227) -/

/-- The delivery is done with. -/
def dropDelivery (s : State) (id : Nat) (d : Delivery) : State :=
  accepted (modFox s (fun f => { f with deliveries := tblDel f.deliveries id })) d.loc

/-- R221: one more lost event of an ASID. -/
def lostEvent (s : State) (asid : Nat) : State := bar0Set s (asidOff asid 0x18) (asidWord s asid 0x18 + 1)

/-- R221, R227, R250: a delivery fails: the message is dropped, with an event; a dropped event is only counted. -/
def failDelivery (s : State) (id : Nat) (d : Delivery) (reason va h : Nat) : State :=
  let s := dropDelivery s id d
  if d.event then lostEvent s d.asid
  else badEvent s d.asid reason (BitVec.ofNat 64 va) (BitVec.ofNat 64 h) d.msg

/-! ## Queue misses and probes (R225, R243, R246) -/

/-- The handle that a delivery refers to next. -/
def refersTo (d : Delivery) : Nat :=
  match d.route with
  | some (rh, _) => rh
  | none => d.handle

/-- R225: a reference to a queue that no Fox holds raises a queue miss, once. -/
def missOnce (s : State) (die asid h : Nat) : State :=
  if s.agenda.any (fun e => match e.2.2 with
    | .queueMiss _ a k => a == asid && k == h
    | _ => false) then s
  else post s 0 (.queueMiss die asid h)

/-- R225: the die from which a delivery refers. -/
def referDie (s : State) (d : Delivery) : Nat :=
  match d.die with
  | some x => x
  | none => (idlestDie s (fun _ => true)).getD 0

/-- R225, R246: a miss has failed: every reference that waits for it fails. -/
def missFailed (s : State) (asid h reason va : Nat) : State :=
  let answer : ProbeAnswer := { handle := h, bad := some (reason, BitVec.ofNat 64 va), desc := 0, word0 := 0, word1 := 0 }
  let s : State := { s with ctxs := tblMap (fun _ c =>
    if c.run == Run.stalled (.probe h) && asidOf c == asid then { c with run := .ready, probe := some answer } else c) s.ctxs }
  (s.fox.deliveries.filter (fun p => p.2.asid == asid && refersTo p.2 == h)).foldl
    (fun t p => failDelivery t p.1 p.2 reason va h) s

/-- R225: QUEUE_MISS: the Fox of the referring die reads the descriptor and makes the head resident; a dispatch queue bound
to a class goes to a die of that class, of those with the most idle contexts. A malformed one is not made resident. -/
def execQueueMiss (die asid h : Nat) (s : State) : Res :=
  if (headOf s asid h).isSome then .next s
  else match lookupMem s asid h with
    | .ok desc ws =>
      let cls := bindClass ws
      let place := if cls == 0 && placeExists s die 0 0 then some die else idlestDie s (classAdmits cls)
      match place with
      | none => .next (repost s pollCycles s.cur (.queueMiss die asid h))
      | some d =>
        .next (putHead s d { asid := asid, handle := h, desc := desc, words := ws, hint := true, used := s.tick, waiting := none })
    | .bad reason va => .next (missFailed s asid h reason va)
    | _ => .next (repost s pollCycles s.cur (.queueMiss die asid h))

/-- R246: QUEUE_PROBE: the die Fox checks the handle that the context's instruction names. -/
def execQueueProbe (s : State) : Res :=
  match (me s).run with
  | .stalled (.probe h) =>
    let asid := asidOf (me s)
    let answer : ProbeAnswer → State → State := fun p s => modMe s (fun c => { c with run := .ready, probe := some p })
    match lookup s asid h with
    | .ok desc ws =>
      .next (answer { handle := h, bad := none, desc := desc, word0 := wordAt ws 0, word1 := wordAt ws 1 } (touchHead s asid h))
    | .bad reason va =>
      .next (answer { handle := h, bad := some (reason, BitVec.ofNat 64 va), desc := 0, word0 := 0, word1 := 0 } s)
    | _ => .next (repost (missOnce s (dieOf s.cur) asid h) pollCycles s.cur .queueProbe)
  | _ => .next s

/-! ## A delivery to a ring (R226, R227, R249, R250) -/

/-- R249, R245, R7: the queue accepts the message; the reason when it does not. -/
def deliverable (d : Delivery) (ws : List Word) : Option Nat :=
  let w := wordAt d.msg 0
  if d.event then (if qdKind ws == 1 && qdBinding ws == 0 then none else some 4)
  else if qdKind ws == 1 && qdBinding ws == 3 then some 4
  else if qdKind ws != 2 && !headerForm w then some 2
  else if hOrdered w && (qdKind ws == 1 || (qdKind ws == 2 && d.port)) then some 4
  else if qdKind ws == 0 && qdOrdered ws != hOrdered w then some 4
  else if qdKind ws == 0 && hIndex w == 0 then some 2
  else none

/-- R293: the ASID has a record to announce. -/
def announce (s : State) (asid : Nat) : State :=
  if bit (asidWord s asid 0x10) 63 then
    post (modIo s (fun io => { io with pendingMsix := if io.pendingMsix.contains asid then io.pendingMsix
                                                      else io.pendingMsix ++ [asid] })) asid .msixSend
  else s

/-- R226 step 3: the slot with its stamp. -/
def stampedSlot (msg : List Word) (n : Nat) : List Byte :=
  let w0 := (wordAt msg 0 &&& 0x0000FFFFFFFFFFFF) ||| BitVec.ofNat 64 (n % 65536 * 2 ^ 48)
  (takePad 0 8 (setNth msg 0 w0)).foldr (fun x acc => wordBytes x ++ acc) []

/-- R226 step 2: the claimed slot is free. -/
def slotFree (s : State) (asid desc n count : Nat) : Hw Bool :=
  match hwRead s asid (desc + 0x18) 8 true with
  | .retry => .retry
  | .fault c s => .fault c s
  | .ok bs s => .ok (decide ((BitVec.ofNat 64 n - BitVec.ofNat 64 (leNat bs)).toNat < count)) s

/-- R227, R294: a delivery that keeps its order with another, earlier one, which has not claimed its slot, or, of a message port, has
not arrived in another queue. -/
def claimsLater (s : State) (id : Nat) (d : Delivery) : Bool :=
  s.fox.deliveries.any (fun p => p.1 < id && p.2.src.isSome && p.2.src == d.src
    && (p.2.slot.isNone || (d.port && !(p.2.asid == d.asid && p.2.handle == d.handle))))

/-- R226 steps 2 and 3: a delivery that has claimed slot `n` of the queue that it named then (R262) waits for room, and writes it. -/
def deliverSlot (s : State) (id n : Nat) (d : Delivery) : State :=
  let u := ringUnit id
  match slotFree s d.asid d.desc n (qdCount d.words) with
  | .retry => repost s pollCycles u .ringRetry
  | .fault _ s => failDelivery s id d 2 d.desc d.handle
  | .ok false s => postIn s Config.cycles256ns u .ringRetry
  | .ok true s =>
    match hwWrite s d.asid (ringSlotVa d.words n) (stampedSlot d.msg n) true with
    | .retry => repost s pollCycles u .ringRetry
    | .fault _ s => failDelivery s id d 2 d.desc d.handle
    | .ok _ s =>
      let s := dropDelivery s id d
      let s := modHead s d.asid d.handle (fun x => if x.desc = d.desc then { x with hint := true } else x)
      if d.event then announce s d.asid else s

/-- R227: what one examination of a delivery does: claim, wait for room, write. -/
def deliveryStep (s : State) (id : Nat) (d : Delivery) : State :=
  let u := ringUnit id
  let put : State → Delivery → State := fun s d => post (modFox s (fun f => { f with deliveries := tblSet f.deliveries id d })) u .ringDelivery
  match d.slot, d.route with
  | some n, _ => deliverSlot s id n d
  | none, some (rh, e) =>
    (match lookup s d.asid rh with
     | .bad reason va => failDelivery s id d reason va rh
     | .ok desc ws =>
       (match hwRead s d.asid (qdBase ws + 64 * (e % qdCount ws)) 8 true with
        | .retry => repost s pollCycles u .ringDelivery
        | .fault _ s => failDelivery s id d 2 desc rh
        | .ok bs s => put s { d with route := none, via := some (desc, rh), handle := leNat bs % 4096 })
     | _ => repost (missOnce s (referDie s d) d.asid rh) pollCycles u .ringDelivery)
  | none, none =>
    match lookup s d.asid d.handle with
    | .retry => repost s pollCycles u .ringDelivery
    | .miss => repost (missOnce s (referDie s d) d.asid d.handle) pollCycles u .ringDelivery
    | .bad reason va => failDelivery s id d reason va d.handle
    | .ok desc ws =>
      let s := touchHead s d.asid d.handle
      match deliverable d ws with
      | some reason =>
        let q := if reason = 2 then d.via.getD (desc, d.handle) else (desc, d.handle)
        failDelivery s id d reason q.1 q.2
      | none =>
        if claimsLater s id d then repost s pollCycles u .ringDelivery
        else if d.event && !queueRoom s d.asid desc (qdCount ws) then failDelivery s id d 0 desc d.handle
        else match hwUpdate s d.asid (desc + 0x10) (· + 1) with
          | .retry => repost s pollCycles u .ringDelivery
          | .fault _ s => failDelivery s id d 2 desc d.handle
          | .ok n s => put (postIn s Config.cycles64us u .queueStall) { d with slot := some n.toNat, desc := desc, words := ws, since := s.now }
where
  /-- The ring has a free slot. -/
  queueRoom (s : State) (asid desc count : Nat) : Bool :=
    match hwRead s asid (desc + 0x10) 16 true with
    | .ok bs _ => decide ((wordAt (wordsOf bs) 0 - wordAt (wordsOf bs) 1).toNat < count)
    | _ => true

/-- The delivery that a unit number of the agenda names. -/
def deliveryOf (s : State) (u : Nat) : Option (Nat × Delivery) :=
  if u < 2 ^ 32 then none else (tblFind s.fox.deliveries (u - 2 ^ 32)).map (fun d => (u - 2 ^ 32, d))

/-- R227: RING_DELIVERY. -/
def execRingDelivery (s : State) : Res :=
  match deliveryOf s s.cur with
  | some (id, d) => .next (deliveryStep s id d)
  | none => .next s

/-- The unit number of a resident head that waits as a consumer. -/
def headUnit (asid h : Nat) : Nat := 2 ^ 48 + asid * 4096 + h

/-- The head that a unit number names. -/
def headOfUnit (s : State) (u : Nat) : Option Head :=
  if u < 2 ^ 48 then none else headOf s ((u - 2 ^ 48) / 4096) ((u - 2 ^ 48) % 4096)

/-- R226 step 4: the consumer of a resident head reads its ring again after 256 ns. -/
def readAgain (s : State) (x : Head) : State :=
  let u := headUnit x.asid x.handle
  if s.agenda.any (fun e => e.2.1 == u && e.2.2 == .ringRetry) then s else postIn s Config.cycles256ns u .ringRetry

/-- R226 step 4: a Fox or engine waits at a slot that is claimed and not written. -/
def headWaits (s : State) (x : Head) : State :=
  let u := headUnit x.asid x.handle
  let begun := (headOf s x.asid x.handle).any (fun h => h.waiting.isSome)
  let s := modHead s x.asid x.handle (fun h => { h with hint := false, waiting := some (h.waiting.getD s.now) })
  readAgain (if begun then s else postIn s Config.cycles64us u .queueStall) x

/-- R226: a Fox or engine has found no entry at the read index, or cannot read it now. -/
def headEmpty (s : State) (x : Head) : State :=
  readAgain (modHead s x.asid x.handle (fun h => { h with hint := false, waiting := none })) x

/-- R226: the entry at the read index has been taken. -/
def headTook (s : State) (asid h : Nat) : State := modHead s asid h (fun x => { x with waiting := none })

/-! ## Consumers: what a taken slot becomes (R226 step 5) -/

/-- R226 step 5: the stamp, then the read index. -/
def freeSlot (s : State) (asid desc : Nat) (ws : List Word) (n : Nat) (w0 : Word) : Hw Unit :=
  let x := (w0 &&& 0x0000FFFFFFFFFFFF) ||| BitVec.ofNat 64 (freedStampOf n (qdCount ws) * 2 ^ 48)
  match hwWrite s asid (ringSlotVa ws n) (wordBytes x) true with
  | .retry => .retry
  | .fault c s => .fault c s
  | .ok _ s => hwWrite s asid (desc + 0x18) (wordBytes (BitVec.ofNat 64 (n + 1))) true
where
  freedStampOf (n count : Nat) : Nat := (n + count + 0x8000) % 65536

/-- R226, R117: RING_RETRY: a waiting producer or consumer, or an arbiter with records to append, looks again after 256 ns. -/
def execRingRetry (s : State) : Res :=
  match deliveryOf s s.cur with
  | some (id, d) => .next (deliveryStep s id d)
  | none =>
    match headOfUnit s s.cur with
    | none => if arbUnit 0 ≤ s.cur && s.cur < 2 ^ 53 then .next (drainRecords s (s.cur - arbUnit 0) (arbAt s (s.cur - arbUnit 0)).records.length) else .next s
    | some x =>
      match ringHead s x.asid x.desc x.words with
      | .ok .unwritten s => .next (headWaits s x)
      | .ok (.entry _ _) s => .next (modHead s x.asid x.handle (fun h => { h with hint := true, waiting := none }))
      | .ok .empty s => .next (headEmpty s x)
      | .fault _ s => .next (readAgain s x)
      | .retry => .next (repost s pollCycles s.cur .ringRetry)

/-- R226, R251: QUEUE_STALL: a producer, a Fox or a deq that has waited 64 µs posts the event once and goes on waiting. -/
def execQueueStall (s : State) : Res :=
  match deliveryOf s s.cur with
  | some (id, d) =>
    if d.slot.isSome && !d.stallPosted && d.since + Config.cycles64us ≤ s.now then
      let s := modFox s (fun f => { f with deliveries := tblSet f.deliveries id { d with stallPosted := true } })
      .next (if d.event then s else event s d.asid 0 cQueueStall (BitVec.ofNat 64 d.desc) (BitVec.ofNat 64 d.handle) d.msg)
    else .next s
  | none =>
    match headOfUnit s s.cur with
    | some x =>
      if x.waiting.any (fun t => t + Config.cycles64us ≤ s.now) then
        .next (event s x.asid 0 cQueueStall (BitVec.ofNat 64 x.desc) (BitVec.ofNat 64 x.handle) [])
      else .next s
    | none =>
      if (me s).run == .waiting 5 then
        if s.now < (me s).waitSince + Config.cycles64us || (me s).waitPosted then .next s
        else
          .next (event (modMe s (fun c => { c with waitPosted := true })) (asidOf (me s)) 0 cQueueStall (BitVec.ofNat 64 (me s).waitDesc) (BitVec.ofNat 64 (srcOfDeq (me s))) [])
      else if (me s).woken then .next (repost s pollCycles s.cur .queueStall)
      else .next s
where
  /-- The handle that a waiting deq names. -/
  srcOfDeq (c : Ctx) : Nat :=
    match decodeWord c.word with
    | .ok (.deq a _) => (srcGet c.regs a).toNat
    | _ => 0

/-! ## MAILBOX_DELIVERY (R222, R248) -/

/-- R222: the message enters the mailbox or the overflow ring, or waits; one for a place that does not exist is dropped. The
unit is the sending context, or 2^32 for none. -/
def execMailboxDelivery (core asid : Nat) (msg : List Word) (s : State) : Res :=
  let loc := if s.cur < 2 ^ 18 then some s.cur else none
  if !placeExists s (dieOfCore core) (clusterOfCore core % 64) (core % 8) then
    .next (accepted (badEvent s asid 1 0 (BitVec.ofNat 64 core) msg) loc)
  else match mailboxPut s core { asid := asid, msg := msg } with
    | some s => .next (accepted s loc)
    | none => .next (repost s pollCycles s.cur (.mailboxDelivery core asid msg))

end Sys2Proof.Machine
end

