-- ==== Sys2Proof/Machine/Effects.lean ====
section
/-! DEFINITION. What leaves a core when its chunk's commit is complete (R97, R105, R374): engine stores, FIFO positions,
barriers, messages, launches, queue table entries; and the retirement of a thread (R255, R328, R329). -/

namespace Sys2Proof.Machine

/-! ## FIFO positions and barriers (R160, R163) -/

/-- R160: fadv and fpub apply up to what is then filled or empty; an excess is dropped and faults. -/
def fifoMove (s : State) (l h n : Nat) (write : Bool) : State :=
  let cl := clusterOf l
  let f := fifoRead s cl h
  let room := if write then f.count - fifoFilled f else fifoFilled f
  let s := fifoAdvance s cl h (min n room) write
  if n ≤ room then s else engineFault s l (enginePtr (0x800 + 32 * h)) 0x10 h

/-- R163: a faulted barrier operation. -/
def barFault (s : State) (l : Nat) (va : Word) : State := engineFault s l va 0x11 0xFF

/-! ## Launches (R235, R236) -/

/-- R236: the descriptor is read once. None: the read must be tried again. -/
def launchAccept (s : State) (asid : Nat) (va : Word) : Option State :=
  match hwRead s asid va.toNat 128 true with
  | .retry => none
  | .fault _ s => some (badEvent s asid 7 va 0 [])
  | .ok bs s =>
    let ws := wordsOf bs
    if !launchOk ws then some (badEvent s asid 7 va 0 [])
    else
      let lid := s.fox.nextLaunch
      some (modFox s (fun f => { f with
        launches := f.launches ++ [{ lid := lid, asid := asid, va := va, words := ws, groups := [], complete := 0 }],
        nextLaunch := lid + 1 }))

/-! ## One deferred effect -/

/-- A message on its way to a queue (R247). -/
def sendToQueue (s : State) (l h : Nat) (route : Option (Nat × Nat)) (msg : List Word) : State :=
  let msg := setNth msg 0 (headerSet (wordAt msg 0) 0 (coreOf l))
  deliver (holdEntry s l) { loc := some l, src := some l, die := some (dieOf l), asid := asidOf (ctxAt s l), handle := h, desc := 0, words := [],
                            msg := msg, route := route, via := none, slot := none, since := s.now, stallPosted := false, port := false, event := false }

/-- R262: the entry is written and every resident head of the handle is evicted. -/
def qmapAt (s : State) (asid h : Nat) (desc : Word) : Option State :=
  let ev := tableVa s asid 8 h
  let x : Word := if desc = 0 then 0 else desc ||| 0x8000000000000000
  let s := dropHead s asid h
  match (if desc = 0 then hwChange s asid ev false (fun w => w &&& 0x7FFFFFFFFFFFFFFF) else match hwWrite s asid ev (wordBytes x) false with
    | .ok _ s => .ok 0 s
    | .fault c s => .fault c s
    | .retry => .retry) with
  | .retry => none
  | .fault _ s => some (badEvent s asid 1 (BitVec.ofNat 64 ev) (BitVec.ofNat 64 h) [])
  | .ok _ s => some s

/-- R97: one entry of the deferred-effect buffer of context `l` leaves. None: it must be tried again. -/
def applyEffect (s : State) (l : Nat) (e : Effect) : Option State :=
  let asid := asidOf (ctxAt s l)
  let core := coreOf l
  let mail : List Word → List Word := fun m => setNth m 0 (headerSet (wordAt m 0) 0 core)
  match e with
  | .far _ => some s
  | .engine off bs => some (engineStore s l off bs)
  | .mfmt i => some (modCore s core (fun c => { c with fmt := i }))
  | .mscl n x => some (modCore s core (fun c => { c with scales := c.scales.set n.val x n.isLt }))
  | .mresume => some (restart s core)
  | .accspill tile va => some (accspillAt s l tile va)
  | .writeBack _ _ _ => some s
  | .discard _ _ _ => some s
  | .fadv h n => some (fifoMove s l h n false)
  | .fpub h n => some (fifoMove s l h n true)
  | .tbarr key va =>
    let p := barArrive s key
    some (if p.2 then p.1 else barFault p.1 l va)
  | .tbexp key va n =>
    let p := barExpect s key n
    some (if p.2 then p.1 else barFault p.1 l va)
  | .qmap h desc => qmapAt s asid h desc
  | .send dest msg => some (post (holdEntry s l) l (.mailboxDelivery dest asid (mail msg)))
  | .enq h msg => some (sendToQueue s l h none msg)
  | .sendr h e msg => some (sendToQueue s l h (some (h, e)) msg)
  | .spawn msg => some (spawnPush (holdEntry s l) core (some l) { asid := asid, msg := mail msg })
  | .launch va => launchAccept s asid va
  | .retire _ => some s

def isExpect : Effect → Bool
  | .tbexp _ _ _ => true
  | _ => false

/-- R163: expectations apply before arrivals; the rest leave in issue order. -/
def applyEffects (s : State) (l : Nat) (es : List Effect) : Option State :=
  (es.filter isExpect ++ es.filter (fun e => !isExpect e)).foldl (fun acc e => match acc with
    | none => none
    | some s => applyEffect s l e) (some s)

/-! ## Retirement (R255) -/

/-- R328: a lineage that names a token in the given bytes, among live and saved threads. -/
def lineageIn (s : State) (asid lo hi : Nat) : Bool :=
  let hit : Word → Bool := fun w => w != 0 && lo ≤ fld w 55 0 && fld w 55 0 < hi
  s.ctxs.any (fun e => e.2.run != .dormant && asidOf e.2 == asid && hit e.2.ctl.lineage)
    || (s.fox.resume ++ s.fox.heldItems).any (fun x => x.asid == asid && hit x.lineage)

/-- R37, R328: private slots that no thread needs any more are free. -/
def sweepSlots (s : State) : State :=
  let free := s.fox.heldSlots.filter (fun h => !lineageIn s h.1 h.2.1 h.2.2)
  modFox s (fun f => { f with
    slots := f.slots.filter (fun p => !(free.any (fun h => h.1 == p.1 && h.2.1 == p.2.2))),
    heldSlots := f.heldSlots.filter (fun h => !(free.contains h)) })

/-- R37, R286, R328: a thread retires whose private area is `lo` to `hi`: the slot that begins there is freed. -/
def leaveSlot (s : State) (asid lo hi : Nat) : State :=
  sweepSlots (modFox s (fun f => { f with heldSlots := f.heldSlots ++ [(asid, lo, hi)] }))

/-- R236, R239: one thread of a group has retired. -/
def groupThreadDone (s : State) (l lid g dup : Nat) (crc : BitVec 64) : State :=
  let s := modFox s (fun f => { f with launches := f.launches.map (fun x =>
    if x.lid != lid then x
    else { x with groups := x.groups.map (fun y =>
      if y.g != g then y else { y with live := y.live - 1, lastLoc := l, crcs := if dup = 0 then y.crcs else y.crcs ++ [(dup, crc)] }) }) })
  match (s.fox.launches.find? (fun x => x.lid == lid)).bind (fun x => x.groups.find? (fun y => y.g == g)) with
  | some y => if y.live = 0 then post s 0 (if dup = 0 then .groupComplete lid g else .dupCompare lid g) else s
  | none => s

/-- R261: the thread leaves its crew or band, and what waited for it is examined. -/
def leaveGang (s : State) (u : UnitInfo) : State :=
  if u.gangKind = 0 then s
  else
    let s := modFox s (fun f => { f with gangs := f.gangs.map (fun g =>
      if g.id == u.gang then { g with retired := g.retired ++ [u.thread] } else g) })
    post (post s 0 (.barrierRelease u.gang false)) 0 (.barrierRelease u.gang true)

/-- R238: the tasks of the domain of `h` that are the one with this timestamp and slot change. -/
def modTask (s : State) (asid h stamp slot : Nat) (f : OTask → Option OTask) : State :=
  modFox s (fun x => { x with domains := x.domains.map (fun d =>
    if d.asid == asid && d.handle == h then
      { d with tasks := d.tasks.filterMap (fun t => if t.stamp == stamp && t.slot == slot then f t else some t) }
    else d) })

/-- R238: the task leaves its domain. -/
def leaveDomain (s : State) (asid : Nat) (o : Option (Nat × Nat × Nat)) : State :=
  match o with
  | none => s
  | some (h, stamp, slot) => modTask s asid h stamp slot (fun _ => none)

/-- R238: a chunk of the thread's task has committed. -/
def taskBegun (s : State) (l : Nat) : State :=
  let c := ctxAt s l
  match c.unit.ordered with
  | none => s
  | some (h, stamp, slot) => modTask s (asidOf c) h stamp slot (fun t => some { t with begun := true })

/-- R255, R384: the context is dormant again, and its mask is clear. -/
def dormantCtx (c : Ctx) : Ctx :=
  { c with run := .dormant, chunk := initChunk, unit := initUnit, pending := [], walkFault := none, probe := none, watch := none,
           woken := false, accMask := 0, after := none, tail := none, unregistered := 0, firmware := none, undelivered := c.undelivered }

/-- R255: what every form of done does, and what its own form adds. -/
def retireThread (s : State) (l : Nat) (r : Retire) : State :=
  let c := ctxAt s l
  let asid := asidOf c
  let u := c.unit
  let s := issuerRetired (setCtx s l (dormantCtx c)) (coreOf l)
  let s := modFox s (fun f => { f with choices := f.choices.filter (fun x => x.loc != l) })
  let s := leaveGang s u
  let s := leaveDomain s asid u.ordered
  let s := match u.launch with
    | some (lid, g) => groupThreadDone s l lid g u.dup u.crc
    | none => s
  let s := leaveSlot s asid c.ctl.privbase.toNat (c.ctl.privbase + c.ctl.privlen).toNat
  if u.dup ≥ 2 then s
  else match r with
    | .plain => s
    | .join va => post s 0 (.joinDecrement asid va l)
    | .tcb va => post s 0 (.successorWalk asid va l 0)
    | .status x => event s asid 1 0 c.ctl.lineage (x.setWidth 64) [c.ctl.hdr]

/-! ## Registration (R325) -/

/-- R325: at a commit of a thread at position `seq` of package order: records at or above c.choice are withdrawn, those that its chunk
wrote by try.s are registered, and all keep c.frame, c.framelen and c.spoor as of the commit. -/
def registerAt (s : State) (l seq : Nat) (tries : List Nat) : State :=
  let c := ctxAt s l
  let stands : Nat → Bool := fun r => decide (r < c.ctl.choice.toNat)
  let one : Nat → Nat → Choice := fun r n =>
    { loc := l, recVa := r, frame := c.ctl.frame, framelen := c.ctl.framelen, spoor := c.ctl.spoor, seq := n }
  let kept : Choice → Option Choice := fun x =>
    if x.loc != l then some x else if stands x.recVa && !tries.contains x.recVa then some (one x.recVa x.seq) else none
  modFox s (fun f => { f with choices := f.choices.filterMap kept ++ ((dedup tries).filter stands).map (fun r => one r seq) })

/-- R325: the stealable records of a thread's committed stack, oldest first. None: a word must be read again. -/
def stackRecords (s : State) (asid base : Nat) : Nat → Option (List Nat)
  | 0 => some []
  | n + 1 =>
    match stackRecords s asid base n with
    | none => none
    | some rs => match hwRead s asid (base + recSize * n + 8) 8 false with
      | .retry => none
      | .fault _ _ => some rs
      | .ok bs _ => some (if recStealable (BitVec.ofNat 64 (leNat bs)) then rs ++ [base + recSize * n] else rs)

/-! ## Pruning (R329) -/

/-- R329: the token at c.lineage says that the thread is pruned. None: it must be read again. -/
def pruned (s : State) (l : Nat) : Option Bool :=
  let c := ctxAt s l
  if c.ctl.lineage = 0 then some false
  else match hwRead s (asidOf c) (fld c.ctl.lineage 55 3 * 8) 8 false with
    | .retry => none
    | .fault _ _ => some false
    | .ok bs _ =>
      let w := BitVec.ofNat 64 (leNat bs)
      some (bit w 63 && fld w 7 0 == fld c.ctl.lineage 63 56)

/-- R329, R323: cut to depth 0 from outside the thread, the newest record first: the tokens of records that were stolen from are
pruned. DEDUCED (log 65): it ends at a word that it cannot read or write. None: something must be tried again. -/
def cutAll (s : State) (asid base : Nat) : Nat → Option State
  | 0 => some s
  | n + 1 =>
    match hwRead s asid (base + recSize * n + 8) 8 false with
    | .retry => none
    | .fault _ s => some s
    | .ok bs s =>
      if recStolen (BitVec.ofNat 64 (leNat bs)) then
        match hwChange s asid (base + recSize * n + 0x18) false (fun w => w ||| 0x8000000000000000) with
        | .retry => none
        | .fault _ s => some s
        | .ok _ s => cutAll s asid base n
      else cutAll s asid base n

/-- R329: a pruned thread cuts to depth 0 and retires as PRUNED. -/
def pruneThread (s : State) (l : Nat) : Option State :=
  let c := ctxAt s l
  match cutAll s (asidOf c) c.ctl.choicebase.toNat ((c.ctl.choice - c.ctl.choicebase).toNat / recSize) with
  | none => none
  | some s =>
    let s := modCtx s l (fun c => { c with ctl := { c.ctl with choice := c.ctl.choicebase, spoor := c.ctl.spoorbase } })
    some (retireThread s l (.status 0xFFFFFFFF))

/-- R325, R329: what a commit at position `seq` of package order leaves to be done before the thread's next chunk: the registrations of a
resumed thread, and the prune check. None: it must be tried again. -/
def commitTail (s : State) (l seq : Nat) : Option State :=
  let c := ctxAt s l
  match (if c.unregistered = 1 then (stackRecords s (asidOf c) c.ctl.choicebase.toNat ((c.ctl.choice - c.ctl.choicebase).toNat / recSize)) else some []) with
  | none => none
  | some rs =>
    let s := modCtx (if rs.isEmpty then s else registerAt s l seq rs) l (fun c => { c with tail := none, unregistered := c.unregistered - 1 })
    match pruned s l with
    | none => none
    | some false => some s
    | some true => pruneThread s l

/-- R238, R325, R329: a commit of a thread at position `seq`. What cannot be done yet is done before the next chunk. -/
def committed (s : State) (l seq : Nat) (tries : List Nat) : State :=
  let s := registerAt (taskBegun s l) l seq tries
  match commitTail s l seq with
  | some s => s
  | none => modCtx s l (fun c => { c with tail := some seq })

end Sys2Proof.Machine
end

