-- ==== Sys2Proof/Machine/Commit.lean ====
section
/-! DEFINITION. The pieces of a chunk's commit (R104–R109, R125, R142, R196, R204, R239): what is applied at the commit
point, at each home, and when the commit is complete. -/

namespace Sys2Proof.Machine

/-! ## Length (R95, R111, R114) -/

/-- R95, R111, R114, R238: the instructions after which the live chunk ends. -/
def lengthLimit (c : Ctx) : Nat :=
  let l := c.ctl.chunklen.toNat
  let base :=
    if c.unit.ordered.isSome && c.chunk.num == 0 then 8192
    else if c.chunk.conflicts ≤ 1 then l else if c.chunk.conflicts = 2 then l / 2 else l / 4
  let base := match c.chunk.stopAt with
    | some n => min n base
    | none => base
  if c.chunk.alone || stepOn c.ctl then 1 else base

/-- R111: the next execution of the chunk runs held. -/
def wantsHeld (c : Ctx) : Bool := c.chunk.conflicts ≥ 4 && !c.chunk.held

/-! ## CRC of a chunk (R239) -/

def farsOf (es : List Effect) : List FarEntry := es.filterMap (fun e => match e with
  | .far f => some f
  | _ => none)

/-- R239: the stores and far operations of a chunk in program order. -/
def crcChunk (c : Ctl) (crc : BitVec 64) (stores : List Store) (fars : List FarEntry) : BitVec 64 :=
  let far : BitVec 64 → FarEntry → BitVec 64 := fun x f => crcAccess x (crcVa c .hc f.va) (natBytes (opBytes f.w) f.x.toNat)
  let p := stores.foldl (fun (acc : BitVec 64 × Nat) t =>
    let x := (fars.filter (fun f => f.after == acc.2)).foldl far acc.1
    (crcAccess x (crcVa c t.space t.va) t.bytes, acc.2 + 1)) (crc, 0)
  (fars.filter (fun f => f.after ≥ p.2)).foldl far p.1

/-! ## At the commit point -/

/-- The words of a block in a range that must be written back: dirty SW and CP words, as a home will write them. -/
def wordStores (lo hi : Nat) (b : Block) : List Store :=
  ((dirtyWords b).filter (fun p => wordIn lo hi b p.1)).map (fun p =>
    { space := .sw, asid := b.asid, va := b.va * 512 + 8 * p.1, pa := b.region * 512 + 8 * p.1, bytes := wordBytes p.2 })

/-- R211: those of them whose parity has failed; the home poisons them. -/
def badWords (lo hi : Nat) (b : Block) : List Nat :=
  ((dirtyWords b).filter (fun p => wordIn lo hi b p.1 && b.bad.getLsbD p.1)).map (fun p => b.region * 512 + 8 * p.1)

/-- R125, R206: a write-back that the die has on its way reaches into the range: its words travel with the commit instead. -/
def flightIn (die asid lo hi : Nat) : Instr → Bool
  | .writeBack _ _ f ws =>
    dieOfCore f.who == die && f.asid == asid && ws.any (fun p => lo ≤ f.va * 512 + 8 * (p.1 % 64) && f.va * 512 + 8 * (p.1 % 64) ≤ hi)
  | _ => false

def flightStores : Instr → List Store
  | .writeBack _ region f ws => ws.map (fun p =>
      { space := .sw, asid := f.asid, va := f.va * 512 + 8 * (p.1 % 64), pa := region * 512 + 8 * (p.1 % 64), bytes := wordBytes p.2 })
  | _ => []

def flightBad : Instr → List Nat
  | .writeBack _ region _ ws => (ws.filter (fun p => 64 ≤ p.1)).map (fun p => region * 512 + 8 * (p.1 % 64))
  | _ => []

/-- R146, R203: the words of a range are clean in a block; an SW block without dirty words is S. DESIGN CHOICE (log 93): a block that
lies partly inside the range is kept whole (R146), and no word outside is dropped (R198). -/
def cleaned (asid lo hi : Nat) (b : Block) : Block :=
  if !inRangeOp asid lo hi b then b
  else
    let d := maskWords (fun w => !wordIn lo hi b w) b.dirty
    { b with dirty := d, bad := maskWords (fun w => !wordIn lo hi b w) b.bad, state := if b.mode == .sw && d = 0 then 1 else b.state }

/-- The words that a chunk's cache operations send to the homes as one unit for each, and those among them whose parity has failed. -/
structure CacheUnit where
  stores : List Store
  bad : List Nat

/-- More words: a later value of a word is the good one. -/
def CacheUnit.add (u : CacheUnit) (ts : List Store) (bad : List Nat) : CacheUnit :=
  { stores := u.stores ++ ts, bad := u.bad.filter (fun k => !(ts.any (fun t => t.pa == k))) ++ bad }

/-- R125, R146: a flush or a clean of a range: the words that go to the homes, those on their way first; then the local copies are
clean, and a flush drops them. -/
def writeBackRange (s : State) (core asid lo hi : Nat) (drop : Bool) (u : CacheUnit) : State × CacheUnit :=
  let die := dieOfCore core
  let flights := (s.agenda.filter (fun e => flightIn die asid lo hi e.2.2)).map (fun e => e.2.2)
  let s := { s with agenda := s.agenda.filter (fun e => !flightIn die asid lo hi e.2.2) }
  let copies := ((localCopies s core).map (fun p => p.2)).filter (inRangeOp asid lo hi)
  let u := flights.foldl (fun u i => u.add (flightStores i) (flightBad i)) u
  let u := copies.foldl (fun u b => u.add (wordStores lo hi b) (badWords lo hi b)) u
  if drop then (giveUp s core (inRangeOp asid lo hi) (fun b w => !wordIn lo hi b w), u)
  else
    let s := copies.foldl (fun t b => poisonBad t { b with bad := maskWords (wordIn lo hi b) b.bad }) s
    let s := modCore s core (fun c => l1Map c (fun b => some (cleaned asid lo hi b)))
    (modDie s die (fun d => l2Map d (fun b => some (cleaned asid lo hi b))), u)

/-- R147: the dirty words of an inval that nothing has made dirty again are dropped from the local copies. -/
def discardWords (s : State) (core asid : Nat) (ws : List (Nat × Bool)) : State :=
  let gone : Block → Nat → Bool := fun b w => ws.any (fun x => x.2 && x.1 == b.va * 512 + 8 * w)
  giveUp s core (fun b => b.writer.isNone && b.asid == asid && (List.range 64).any (fun w => b.start ≤ w && w ≤ b.stop && gone b w))
    (fun b w => !gone b w)

/-- R125, R147: one deferred cache operation of the committing chunk: the words that it sends to the homes are added. -/
def cacheEffect (core asid : Nat) (acc : State × CacheUnit) : Effect → State × CacheUnit
  | .writeBack lo hi drop => writeBackRange acc.1 core asid lo hi drop acc.2
  | .discard _ _ ws => (discardWords acc.1 core asid ws, acc.2)
  | _ => acc

def isRange : Effect → Bool
  | .writeBack _ _ _ => true
  | _ => false

/-- A store of the chunk wrote word `w` of the region of a block, under the block's name. -/
def wroteWord (stores : List Store) (b : Block) (w : Nat) : Bool :=
  stores.any (fun t => t.asid == b.asid && isHbm t.pa && t.va < b.va * 512 + 8 * w + 8 && b.va * 512 + 8 * w < t.va + t.bytes.length)

/-- R142: the word as the chunk leaves it: its stores (newest first) over what the core sees. -/
def writtenWord (s : State) (core : Nat) (stores : List Store) (b : Block) (w : Nat) : Word :=
  let old := wordFor s core b.asid b.va b.region w
  BitVec.ofNat 64 (leNat ((List.range 8).map (fun i => match ownByte stores (b.region * 512 + 8 * w + i) with
    | some x => x
    | none => BitVec.ofNat 8 (old.toNat / 2 ^ (8 * i)))))

/-- R196: the context's speculative-write blocks merge into the non-speculative blocks of their names, the written words dirty; its
speculative-read bits are cleared. -/
def l1Commit (s : State) (l : Nat) (stores : List Store) : State :=
  let core := coreOf l
  let mine := (l1Blocks (coreAt s core)).filter (fun b => b.writer.any (fun x => x.val == l % 8))
  let s := modCore s core (fun c => l1EndChunk c (l % 8))
  mine.foldl (fun t b => (wordRuns (wroteWord stores b) b.start b.stop).foldl (fun t r =>
    dirtyRun t core l { b with writer := none } r.1 r.2 (if b.mode == .hc then []
      else (List.range (r.2 + 1 - r.1)).map (fun i => (r.1 + i, writtenWord t core stores b (r.1 + i))))) t) s

/-! ## The commit message (R106) -/

def farCode : FarOp → Nat
  | .add => 0 | .and => 1 | .or => 2 | .xor => 3 | .min => 4 | .max => 5

/-- What a commit writes at a home. -/
def storesAt (c : Commit) (home : Nat) : List Store := c.stores.filter (fun t => isHbm t.pa && t.pa / 2 ^ 37 == home)
def farsAt (c : Commit) (home : Nat) : List FarEntry := c.far.filter (fun f => f.pa / 2 ^ 37 == home)

/-- The regions that stores write: VA[55:9] and physical region. -/
def storeRegions (ts : List Store) : List (Nat × Nat) :=
  dedup ((ts.map (fun t => (List.range ((t.va + t.bytes.length - 1) / 512 + 1 - t.va / 512)).map (fun i => (t.va / 512 + i, t.pa / 512 + i)))).flatten)

/-- The words of a region that stores write, and each as the message carries it. -/
def wordsAt (ts : List Store) (va : Nat) : List Nat :=
  (List.range 64).filter (fun w => ts.any (fun t => t.va < va * 512 + 8 * w + 8 && va * 512 + 8 * w < t.va + t.bytes.length))
def dataAt (s : State) (ts : List Store) (region w : Nat) : Word :=
  let key := region * 512 + 8 * w
  BitVec.ofNat 64 (leNat ((List.range 8).map (fun i => (ownByte ts.reverse (key + i)).getD (memGet s.mem (key + i)))))

/-- R106: one region entry: the region's key VA, the word mask, and a data word for each set bit. -/
def regionEntry (s : State) (ts : List Store) (r : Nat × Nat) : List Word :=
  let ws := wordsAt ts r.1
  [BitVec.ofNat 64 (r.1 * 512), ws.foldl (fun m w => m ||| ((1 : Word) <<< w)) 0] ++ ws.map (dataAt s ts r.2)

/-- R106: one far entry. -/
def farWords (f : FarEntry) : List Word :=
  [BitVec.ofNat 64 (farCode f.op * 2 ^ 60 + (if f.w then 2 else 3) * 2 ^ 56 + f.va % 2 ^ 56), f.x]

/-- R106: the commit message to one home. -/
def commitMessageOf (s : State) (c : Commit) (home : Nat) : List Word :=
  let ts := storesAt c home
  let rs := storeRegions ts
  let fs := farsAt c home
  [BitVec.ofNat 64 (c.num * 2 ^ 32 + c.asid * 2 ^ 18 + c.loc), BitVec.ofNat 64 (rs.length * 2 ^ 48 + fs.length * 2 ^ 32 + c.count % 2 ^ 14)]
    ++ (List.range 16).map (fun j => c.w.extractLsb' (64 * j) 64)
    ++ (rs.map (regionEntry s ts)).flatten ++ (fs.map farWords).flatten

/-- R105: from the commit point on the chunk cannot be squashed: its words go to their SRAM and to the core's L1, and its
messages to the homes. A copy that takes no effect (R239) has neither stores nor far operations, nor cache operations. DESIGN CHOICE
(log 89): a flush or a clean also takes the words that the same chunk stored after it. -/
def commitPointOf (s : State) (cid : Nat) (c : Commit) : State :=
  let l := c.loc
  let core := coreOf l
  let asid := c.asid
  let s := { s with cur := l, order := s.order + 1 }
  let es := if (ctxAt s l).unit.dup ≥ 2 then [] else (ctxAt s l).chunk.effects
  let first := es.foldl (cacheEffect core asid) (s, ⟨[], []⟩)
  let s := c.stores.foldl (fun t st =>
    if st.space == .scratch || st.space == .cluster then noteWrite (putBytes t st.pa st.bytes) st.pa st.bytes.length else t) first.1
  let s := l1Commit s l c.stores.reverse
  let last := (es.filter isRange).foldl (cacheEffect core asid) (s, first.2)
  let s := squashMeeting last.1 c.w (fun o => coreOf o == core && o != l)
  let stores := c.stores.filter (fun t => !(t.space == .sw || t.space == .cp)) ++ last.2.stores
  let homes := dedup ((stores.filter (fun t => isHbm t.pa)).map (fun t => t.pa / 2 ^ 37) ++ c.far.map (fun f => f.pa / 2 ^ 37))
  let sram := c.stores.any (fun t => t.space == .scratch || t.space == .cluster)
  let cores := if sram then ((List.range 8).map (fun i => clusterOf l * 8 + i)).filter (fun o =>
      o != core && (List.range 8).any (fun i => (ctxAt s (o * 8 + i)).chunk.live)) else []
  let s := modCtx s l (fun x => { x with chunk := { x.chunk with live := false } })
  let c := { c with point := true, seq := s.order, stores := stores, bad := last.2.bad, homes := homes, fwd := cores }
  let c := { c with msgs := homes.map (fun h => (h, commitMessageOf s c h)) }
  let s := { s with commits := tblSet s.commits cid c }
  let s := homes.foldl (fun t h => post t 0 (.commitMessage h cid)) s
  let s := cores.foldl (fun t k => post t 0 (.forwardedW k cid)) s
  if homes.isEmpty && cores.isEmpty then post s cid .commitComplete else s

/-! ## At a home (R106, R204) -/

/-- The cores that the filters record as current or sticky sharers of a region (R202). -/
def sharerCores (s : State) (home region : Nat) : List Nat :=
  let dies := (List.range 64).filter (fun d => (dirAt s home region).dies.getLsbD d)
  (dies.map (fun d =>
    let clusters := tblGet (dieAt s d).filter region 0
    ((List.range 48).filter (fun k => clusters.getLsbD k)).map (fun k =>
      let cl := d * 64 + k
      let f := (clusterAt s cl).filter
      ((List.range 8).filter (fun i => (List.range 8).any (fun sec => (tblGet f (region * 8 + sec) 0).getLsbD i))).map (fun i => cl * 8 + i)))).flatten.flatten

/-- R204, R205: what a commit from `core` does to a directory entry; true when data must arrive too. `gone`: the core has answered
that it holds no copy any more, so an upgrade becomes a read-exclusive. The committer is the core and its die's L2. -/
def dirCommit (d : DirEntry) (core : Nat) (gone : Bool) : DirEntry × Bool :=
  let own := d.state ≥ 2 && d.state ≤ 4 && (d.owner == core || d.owner == dieOfCore core * 512 + 511)
  let up := d.dies.getLsbD (dieOfCore core)
  let moving : Nat → Nat → DirEntry := fun st n =>
    { dies := d.dies, state := st, lost := d.lost, mode := d.mode, owner := d.owner, await := n, next := 4, nextOwner := core,
      gone := false, fill := none }
  if own && (d.state = 2 || d.state = 4) then ({ d with state := 4, owner := core }, false)
  else if own then (moving 12 1, false)
  else if d.state = 1 && up && !gone then (moving 11 1, false)
  else if d.state = 1 || (d.state = 3 && up) then (moving 10 2, true)
  else (moving 9 2, true)

/-- One awaited message of a transient entry has arrived; after the last, the stable state follows (R204). -/
def dirArrive (s : State) (home region : Nat) : State :=
  let d := dirAt s home region
  if !transient d.state then s
  else if d.await > 1 then modDir s home region (fun d => { d with await := d.await - 1 })
  else
    let owns := d.next ≥ 2 && d.next ≤ 4
    modDir s home region (fun d => { d with
      state := d.next, await := 0, owner := if owns then d.nextOwner else 0, next := 0, nextOwner := 0, fill := none,
      dies := if d.next = 0 then stickyDies s region d.dies
        else if owns then d.dies ||| ((1 : BitVec 64) <<< dieOfCore d.nextOwner) else d.dies })
where
  /-- R202: dies whose filter still records the region, for sticky sharers (R108). -/
  stickyDies (s : State) (region : Nat) (m : BitVec 64) : BitVec 64 :=
    (List.range 64).foldl (fun acc d => if m.getLsbD d && (tblFind (dieAt s d).filter region).isSome
      then acc ||| ((1 : BitVec 64) <<< d) else acc) 0

/-- The HC regions of one home that a commit writes. -/
def hcRegions (c : Commit) (home : Nat) : List Nat :=
  dedup ((c.stores.filter (fun t => (t.space == .hc || t.space == .pinned) && isHbm t.pa && t.pa / 2 ^ 37 == home)).map (fun t => t.pa / 512)
    ++ (c.far.filter (fun f => f.pa / 2 ^ 37 == home)).map (fun f => f.pa / 512))

/-- One data word of a commit message reaches memory: the bytes of a word that the stores do not cover whole keep its poison (R211). -/
def applyWord (cid : Nat) (ts : List Store) (region : Nat) (s : State) (p : Nat × Word) : State :=
  let key := region * 512 + 8 * p.1
  let whole := (List.range 8).all (fun i => (ownByte ts (key + i)).isSome)
  let held := s.poison.contains key && !whole
  let s := noteWrite (putBytesFor s (some cid) key (wordBytes p.2)) key 8
  if held then { s with poison := key :: s.poison } else s

/-- R106: the region entries of a message, in order. -/
def applyEntries (cid : Nat) (ts : List Store) (s : State) : List (Nat × Nat) → List Word → State
  | [], _ => s
  | (_, region) :: rest, ws =>
    let mask := wordAt ws 1
    let at' := (List.range 64).filter (fun w => mask.getLsbD w)
    let data := (ws.drop 2).take at'.length
    applyEntries cid ts ((at'.zip data).foldl (applyWord cid ts region) s) rest (ws.drop (2 + at'.length))

/-- R106, R151: the far entries of a message, in order: operation, size and operand from its words, each at its address. -/
def applyFars (cid : Nat) (s : State) : List Nat → List Word → State
  | [], _ => s
  | pa :: rest, ws =>
    let w := fld (wordAt ws 0) 59 56 == 2
    let old := leNat (memBytes s.mem pa (opBytes w))
    let new := amoNew w (farAmo (farOf (fld (wordAt ws 0) 63 60))) old (wordAt ws 1)
    applyFars cid (noteWrite (putBytesFor s (some cid) pa new) pa (opBytes w)) rest (ws.drop 2)
where
  /-- The operation of a code. -/
  farOf (n : Nat) : FarOp := if n = 0 then .add else if n = 1 then .and else if n = 2 then .or else if n = 3 then .xor else if n = 4 then .min else .max

/-- R202: the die holds no block of the region and records no reader: its answer clears its bit at the home. -/
def clearDie (s : State) (die region : Nat) : State :=
  let home := region / 2 ^ 28
  if !(dirAt s home region).dies.getLsbD die || (tblFind (dieAt s die).filter region).isSome
      || (l2Blocks (dieAt s die)).any (fun b => b.region == region) then s
  else modDir s home region (fun d => { d with dies := d.dies &&& ~~~((1 : BitVec 64) <<< die) })

/-- R204: the L2 copies of an HC region on every die but `keep` are dropped, and dies below which nothing is recorded answer so. -/
def dropL2 (s : State) (region : Nat) (keep : Option Nat) : State :=
  let mine : Block → Bool := fun b => b.mode == .hc && b.region == region
  let s := s.dies.foldl (fun t e =>
    if keep == some e.1 || !(l2Blocks e.2).any mine then t
    else modDie t e.1 (fun d => l2Map d (fun b => if mine b then none else some b))) s
  (List.range 64).foldl (fun t d => if keep == some d then t else clearDie t d region) s

/-- R106: the home applies the message: region words, then far entries, then W to the sharers. -/
def applyAtHome (s : State) (home cid : Nat) (c : Commit) : State :=
  let ts := storesAt c home
  let msg := (((c.msgs.find? (fun m => m.1 == home)).map (fun m => m.2)).getD []).drop 18
  let rs := storeRegions ts
  let len := (rs.map (fun r => 2 + (wordsAt ts r.1).length)).foldl (· + ·) 0
  let core := coreOf c.loc
  let regions := hcRegions c home
  let s := applyEntries cid ts (regions.foldl (settleBad (some core)) s) rs msg
  let s := applyFars cid s ((farsAt c home).map (fun f => f.pa)) (msg.drop len)
  let s := { s with poison := s.poison ++ c.bad.filter (fun k => k / 2 ^ 37 == home && !s.poison.contains k) }
  let cores := (dedup (regions.map (sharerCores s home)).flatten).filter (· != core)
  let s := regions.foldl (fun t r =>
    let d := dirAt t home r
    let own := 2 ≤ d.state && d.state ≤ 4 && dieOfCore d.owner == dieOfCore core
    let p := dirCommit d core (c.dropped.contains r)
    let t := dropL2 (modDir t home r (fun _ => p.1)) r (if own then some (dieOfCore core) else none)
    if !p.2 then t
    else if 2 ≤ (dirAt s home r).state && (dirAt s home r).state ≤ 4 then post t 0 (.snoop home r (dirAt s home r).owner true)
    else post t 0 (.homeDataArrival home r)) s
  let c := { c with homes := c.homes.filter (· != home), fwd := c.fwd ++ cores }
  let s := { s with commits := tblSet s.commits cid c }
  let s := cores.foldl (fun t k => post t 0 (.forwardedW k cid)) s
  if c.homes.isEmpty && c.fwd.isEmpty then post s cid .commitComplete else s

/-- R296: the host lines among what a commit writes at a home. -/
def commitLines (s : State) (c : Commit) (home : Nat) : List Nat :=
  dedup (((storesAt c home).map (fun t => hostTouched s t.pa t.bytes.length)).flatten
    ++ ((farsAt c home).map (fun f => hostTouched s f.pa 8)).flatten)

/-- R296: ask hosts for their lines once. -/
def askLines (s : State) (cid : Nat) (c : Commit) (lines : List Nat) : State :=
  let new := lines.filter (fun x => !c.lines.contains x)
  let s := { s with commits := tblSet s.commits cid { c with lines := c.lines ++ new } }
  new.foldl (fun t x => post t 0 (.backInvalidate x cid)) s

/-! ## At a core (R107, R202) -/

/-- R202, R108: a core holds a block of a sector, or one of its live chunks has read it, under any name. -/
def stillHolds (s : State) (core region sec : Nat) : Bool :=
  let meets : Nat → Nat → Bool := fun lo hi => lo ≤ 8 * sec + 7 && 8 * sec ≤ hi
  (l1Blocks (coreAt s core)).any (fun b => b.region == region && meets b.start b.stop)
    || (List.range 8).any (fun i =>
      let k := (ctxAt s (core * 8 + i)).chunk
      k.live && k.reads.any (fun x => x.2.2.1 == region && meets x.2.2.2.1 x.2.2.2.2))

/-- R202: a core's answer clears its bits for the sectors of which it holds and has read nothing; the level above follows when nothing
is recorded below it, and the home's when the die's L2 holds no block of the region either. -/
def clearSharer (s : State) (core region : Nat) : State :=
  let cl := clusterOfCore core
  let die := dieOfCore core
  let bitOff : BitVec 8 := ~~~((1 : BitVec 8) <<< (core % 8))
  let free := (List.range 8).filter (fun sec => !stillHolds s core region sec)
  let s := modCluster s cl (fun c => { c with filter := (free.map (· + region * 8)).foldl (fun f x =>
    let m := tblGet f x 0 &&& bitOff
    if m = 0 then tblDel f x else tblSet f x m) c.filter })
  if (List.range 8).any (fun i => (tblFind (clusterAt s cl).filter (region * 8 + i)).isSome) then s
  else
    clearDie (modDie s die (fun d =>
      let m := tblGet d.filter region 0 &&& ~~~((1 : BitVec 48) <<< (cl % 64))
      { d with filter := if m = 0 then tblDel d.filter region else tblSet d.filter region m })) die region

/-- The HC regions that a commit writes at any home. -/
def allRegions (c : Commit) : List Nat := ((List.range 16).map (hcRegions c)).flatten

/-- R205: commits of the core that write one of the regions learn that the core holds no copy. Those that follow `c` in grant order, the
losers, keep what was lost, to have it back; one that came before has lost it for good. -/
def loseCopies (s : State) (core cid : Nat) (c : Commit) (regions : List Nat) (blocks : List Block) : State :=
  let one : Nat → Commit → Commit := fun i x =>
    if i != cid && x.kind == .chunk && coreOf x.loc == core then
      { x with dropped := x.dropped ++ regions.filter (fun r => commitTouches x r r),
               lost := if !x.point || c.seq < x.seq then x.lost ++ blocks.filter (fun b => commitTouches x b.region b.region)
                 else x.lost.filter (fun b => !regions.contains b.region) }
    else x
  { s with commits := tblMap one s.commits }

/-- R205: a commit of the core that follows `c` has written word `w` of a block: its words are the newer ones. -/
def loserWrote (s : State) (core cid : Nat) (c : Commit) (b : Block) (w : Nat) : Bool :=
  s.commits.any (fun p => p.1 != cid && p.2.kind == .chunk && p.2.point && coreOf p.2.loc == core && c.seq < p.2.seq && wroteWord p.2.stores b w)

/-- The commit has written all 8 bytes of word `w` of a block. -/
def wroteWhole (c : Commit) (b : Block) (w : Nat) : Bool := (List.range 8).all (fun i => (ownByte c.stores (b.region * 512 + 8 * w + i)).isSome)

/-- R107, R205: the core squashes its live chunks whose R meets W, drops its copies of the written regions but for the words of later
commits of its own, and answers. -/
def forwardAt (s : State) (core cid : Nat) (c : Commit) : State :=
  let s := squashMeeting s c.w (fun o => coreOf o == core && o != c.loc)
  let regions := allRegions c
  let blocks := (l1Blocks (coreAt s core)).filter (fun b => b.writer.isNone && b.mode == .hc && regions.contains b.region)
  let s := blocks.foldl (fun t b => poisonBad t { b with bad := maskWords (fun w => !wroteWhole c b w && !loserWrote s core cid c b w) b.bad }) s
  let p := l1Cut (coreAt s core) (fun b => if blocks.contains b then some (loserWrote s core cid c b) else none)
  let s := leaveL1 (setCore s core p.1) core p.2
  let s := loseCopies s core cid c regions blocks
  let s := regions.foldl (fun t r => clearSharer t core r) s
  let c := { c with fwd := c.fwd.erase core }
  let s := { s with commits := tblSet s.commits cid c }
  if c.fwd.isEmpty && c.homes.isEmpty then post s cid .commitComplete else s

/-- R205: the words of a block that the loser of two commits had lost come back, under its dirty words. -/
def regain (s : State) (core : Nat) (b : Block) : State :=
  match l1Install (coreAt s core) { b with dirty := 0, bad := 0, specRead := 0, state := 4, pinned := false, off := 0, filled := s.now } with
  | none => s
  | some (c, out) => leaveL1 (recordFill (setCore s core c) core b.region b.start b.stop) core out

/-! ## When the commit is complete (R105) -/

/-- R105: an arbiter ends the commit in progress and examines the requests that wait, in arrival order. -/
def endAtArb (s : State) (cid loc arb : Nat) : State :=
  let s := modArb s arb (fun a => { a with
    inProg := a.inProg.filter (· != cid), priority := if a.priority == some loc then none else a.priority })
  reexamine s arb

/-- R257: context `l` has committed a chunk: yielded contexts of its core no longer wait for it. -/
def wakeYielded (s : State) (l : Nat) : State :=
  (s.ctxs.filter (fun e => coreOf e.1 == coreOf l && e.1 != l)).foldl (fun t e => match e.2.run with
    | .yielded till await =>
      let rest := await.filter (· != l)
      let t := modCtx t e.1 (fun c => { c with run := .yielded till rest })
      if rest.isEmpty && !await.isEmpty then post t e.1 .yieldResume else t
    | _ => t) s

/-- R94, R114: the context after its chunk has committed: the next chunk, alone when a stop-before run has reached its end. -/
def committedCtx (c : Ctx) : Ctx :=
  let alone := c.chunk.stopAt == some c.chunk.count
  let n := c.chunk.num + 1
  let u := { c.unit with barOpen := c.unit.barOpen && c.unit.bars != n, barbOpen := c.unit.barbOpen && c.unit.barbs != n }
  let c' := nextChunk { c with unit := u } c.chunk.count
  { c' with chunk := { c'.chunk with alone := alone } }

/-- R277: a core that a step command let run one chunk of context `l` is halted again. -/
def endStep (s : State) (l : Nat) : State :=
  if (coreAt s (coreOf l)).stepping == .only l then modCore s (coreOf l) (fun c => { c with stepping := .off, halted := true }) else s

/-- What follows the commit of the chunk of context `l`. -/
def followCommit (s : State) (l : Nat) (a : After) : State :=
  let go : Run → State := fun r => modCtx s l (fun c => { c with run := r })
  let halt : State → State := fun s => endStep s l
  match a with
  | .resume => halt (go .ready)
  | .trap t => halt (post (go (.committing (.trap t))) l .trapEntry)
  | .retire r => halt (retireThread s l r)
  | .yield => halt (pauseIssue s l)
  | .wait => halt (go .ready)

end Sys2Proof.Machine
end

