-- ==== Sys2Proof/Machine/Chunk.lean ====
section
/-! DEFINITION. The steps of chunks, grants and traps (spec/06 R94–R118, spec/16 R265–R267). The unit of a step about a
context is the context's location; of a step about a commit, the commit's number. -/

namespace Sys2Proof.Machine

/-! ## Traps (R39, R266, R267) -/

/-- R39, R115: the trap for which the chunk ended is taken once that chunk has committed. -/
def execTrapEntry (s : State) : Res :=
  match (me s).run with
  | .committing (.trap t) =>
    if (me s).chunk.live then .next s
    else match (me s).tail with
      | some n => .next (repost ((commitTail s s.cur n).getD s) pollCycles s.cur .trapEntry)
      | none => match takeTrap s s.cur t false with
        | some s => .next s
        | none => .next (repost s pollCycles s.cur .trapEntry)
  | _ => .next s

/-- R266: the pending trap that is taken first, if one may be taken. -/
def nextPending (c : Ctx) : Option Pending :=
  match c.pending.find? (fun p => p.cause == cMcheck) with
  | some p => some p
  | none =>
    if tsOn c.ctl then none
    else match c.pending.find? (fun p => p.cause == cEngineFault) with
      | some p => some p
      | none => c.pending.find? (fun p => p.cause == cAccOwned)

/-- R266: a chunk of one instruction is under way outside the core: a tinv or rmode at the homes, or a system-scope read. Its trap
boundary is its end. -/
def underWay (s : State) (l : Nat) : Bool :=
  (match (ctxAt s l).run with
    | .stalled (.homes _) => true
    | _ => false) || !(sysOpsOf s l false).isEmpty

/-- R266: the context, holding no chunk, takes its first pending trap at the instruction that would execute next. -/
def execAsyncTrap (s : State) : Res :=
  let c := me s
  if !chunkEmpty c || underWay s s.cur then .next s
  else match nextPending c with
    | none => .next s
    | some p =>
      let s' := modMe s (fun c => { c with pending := c.pending.erase p })
      if p.cause = cMcheck then
        .next (modMe (releasePriority s' s.cur) (fun c => mcheckCtx c (fld p.tval 15 8) (fld p.tval 7 0) p.badva c.regs.pc))
      else
        match takeTrap s' s.cur { cause := p.cause, epc := c.regs.pc, badva := p.badva, tval := p.tval } true with
        | some s => .next s
        | none => stall s .arb

/-- R266, R267: a machine check that no instruction raised: taken at once by a context that holds no chunk, else at the end
of its chunk's commit. -/
def execMcheck (loc reason detail : Nat) (badva : Word) (s : State) : Res :=
  let c := ctxAt s loc
  if c.run == .dormant then .next s
  else if chunkEmpty c && !underWay s loc && !(match c.run with
      | .committing _ => true
      | _ => false) then
    .next (modCtx (releasePriority s loc) loc (fun c => mcheckCtx c reason detail badva c.regs.pc))
  else .next (modCtx s loc (fun c => { c with pending := c.pending ++ [{ cause := cMcheck, badva := badva, tval := faultWord reason detail }] }))

/-! ## The end of a chunk (R95, R104, R111) -/

/-- R95: the chunk has executed its length limit. -/
def execChunkLengthLimit (s : State) : Res :=
  let c := me s
  if c.run == .ready && c.chunk.live && lengthLimit c ≤ c.chunk.count then .next (endChunkOf s s.cur .resume) else .next s

/-- R104, R117: the arbiters that an ended chunk asks. A copy that takes no effect asks none (R239). -/
def chunkArbs (l : Nat) (c : Ctx) : List Nat :=
  if c.unit.dup ≥ 2 then []
  else if c.chunk.w == 0 && !replayOn c then []
  else
    let a := arbSet l c.chunk
    if a.isEmpty && replayOn c then [16 + dieOf l] else a

/-- R104: an ended chunk asks its arbiters, or commits at the core. A task of an ordered domain waits until it is the oldest
(R238). -/
def execChunkEnd (s : State) : Res :=
  let l := s.cur
  let c := me s
  match c.run with
  | .committing _ =>
    if (openCommit s l).isSome || s.commits.any (fun p => p.2.kind == .chunk && p.2.loc == l) || !c.chunk.live then .next s
    else if youngTask s l then .next (repost s pollCycles l .chunkEnd)
    else
      let k := c.chunk
      let arbs := chunkArbs l c
      if heldBlocks s l k.w then .next (repost s pollCycles l .chunkEnd)
      else
        let cid := s.nextCommit
        let none2 := decide (c.unit.dup ≥ 2)
        let cm : Commit := { freshCommit .chunk (asidOf c) with
          loc := l, num := k.num, count := k.count, r := k.r, w := if none2 then 0 else k.w, held := k.held, replay := replayOn c,
          ask := arbs, stores := if none2 then [] else k.stores.reverse, far := if none2 then [] else farsOf k.effects }
        let s := { s with commits := tblSet s.commits cid cm, nextCommit := cid + 1 }
        .next (match arbs with
          | [] => post s cid .commitPoint
          | a :: _ => post s 0 (.grantRequest a cid))
  | _ => .next s

/-! ## Grants (R105, R118) -/

/-- R105: after a grant: the next arbiter, or the commit point. -/
def granted (s : State) (arb cid : Nat) (c : Commit) : State :=
  let s := modArb s arb (fun a => { a with inProg := a.inProg ++ [cid], waiting := a.waiting.filter (· != cid) })
  let s := if c.replay then oweRecord s arb { waitsFor := some cid, asid := c.asid, loc := c.loc, num := c.num, count := c.count } else s
  let c := { c with ask := c.ask.drop 1, granted := c.granted ++ [arb] }
  let s := { s with commits := tblSet s.commits cid c }
  match c.ask with
  | a :: _ => post s 0 (.grantRequest a cid)
  | [] => post s cid (match c.kind with
    | .engine => .engineCommit
    | .io => .ioCommit
    | _ => .commitPoint)

/-- R207, R209: a write of an engine or the I/O die that would touch a frozen or drained region is not granted. -/
def plainHeld (s : State) (c : Commit) : Bool :=
  c.kind != .chunk && c.stores.any (fun t => isHbm t.pa && (keyRegions t.pa t.bytes.length).any (regionHeld s))

/-- R105: the arbiter grants the request, or it waits there. -/
def execGrantRequest (arb cid : Nat) (s : State) : Res :=
  match tblFind s.commits cid with
  | none => .next s
  | some c =>
    if c.ask.head? ≠ some arb then .next s
    else if (arb < 16 && (homeAt s arb).paused) || plainHeld s c then .next (repost s pollCycles 0 (.grantRequest arb cid))
    else
      let s := ringStall s c.asid arb c.replay
      if ringRefuses s c.asid arb c.replay then .next (repost s Config.cycles256ns 0 (.grantRequest arb cid))
      else if refuses s arb (if c.kind == .chunk then some c.loc else none) c.r c.w then
        .next (modArb s arb (fun a => { a with waiting := if a.waiting.contains cid then a.waiting else a.waiting ++ [cid] }))
      else .next (granted s arb cid c)

/-- R105: the last grant has arrived. R111: against a held chunk of the core it gives its grants up and asks again later. -/
def execCommitPoint (s : State) : Res :=
  match tblFind s.commits s.cur with
  | none => .next s
  | some c =>
    if c.kind != .chunk || c.point || !c.ask.isEmpty then .next s
    else if heldBlocks s c.loc c.w then .next (repost (withdraw s c.loc) pollCycles c.loc .chunkEnd)
    else .next (commitPointOf s s.cur c)

/-- R204, R205, R209: the home does not take the entry now: one of its regions is frozen, lost, drained or in transition, or a commit
that reached its commit point before writes the same region and has not been applied. DEDUCED (log 67): the order of the grants is
that of the commit points (R109). -/
def entryWaits (s : State) (home : Nat) (c : Commit) : Bool :=
  let rs := dedup ((storeRegions (storesAt c home)).map (fun r => r.2) ++ (farsAt c home).map (fun f => f.pa / 512))
  rs.any (fun r => transient (dirAt s home r).state || (dirAt s home r).lost || (dirAt s home r).state == 17)
    || s.commits.any (fun p => p.2.point && p.2.seq < c.seq && p.2.homes.contains home && rs.any (fun r => commitTouches p.2 r r))

/-- R106: a home takes the commit's entry for it. One region is served by one request at a time (R204), and lines that hosts
hold are asked back first (R296). -/
def execCommitMessage (home cid : Nat) (s : State) : Res :=
  match tblFind s.commits cid with
  | none => .next s
  | some c =>
    if !c.point || !c.homes.contains home then .next s
    else
      let lines := commitLines s c home
      if !lines.isEmpty then .next (repost (askLines s cid c lines) pollCycles 0 (.commitMessage home cid))
      else if (homeAt s home).paused || entryWaits s home c then
        .next (repost s pollCycles 0 (.commitMessage home cid))
      else .next (applyAtHome s home cid c)

/-- R107. -/
def execForwardedW (core cid : Nat) (s : State) : Res :=
  match tblFind s.commits cid with
  | none => .next s
  | some c => if c.fwd.contains core then .next (forwardAt s core cid c) else .next s

/-! ## COMMIT_COMPLETE (R105) -/

/-- R239: the copy's CRC takes the chunk in. -/
def crcCtx (c : Ctx) : Ctx :=
  if c.unit.dup = 0 then c
  else { c with unit := { c.unit with crc := crcChunk c.ctl c.unit.crc c.chunk.stores.reverse (farsOf c.chunk.effects) } }

/-- R105: the arbiters end the commit, the deferred effects leave, and the context goes on. None: something must be tried
again. -/
def completeChunk (s : State) (cid : Nat) (c : Commit) : Option State :=
  let l := c.loc
  let s := { s with cur := l }
  let x := ctxAt s l
  let a := match x.run with
    | .committing a => a
    | _ => .resume
  let s := (List.range 16).foldl (fun t h => (hcRegions c h).foldl (fun t r => dirArrive t h r) t) s
  let s := { logComplete s cid with commits := tblDel s.commits cid }
  let s := c.granted.foldl (fun t arb => endAtArb t cid l arb) s
  let s := c.lost.foldl (fun t b => regain t (coreOf l) b) s
  let s := recordsDue (releasePriority s l) cid c.granted
  match (if x.unit.dup ≥ 2 then some s else applyEffects s l x.chunk.effects) with
  | none => none
  | some s =>
    let s := modCtx s l (fun y => committedCtx (crcCtx y))
    let s := wakeYielded s l
    match a with
    | .retire _ => some (followCommit s l a)
    | _ => some (committed (followCommit s l a) l c.seq x.chunk.tries)

def execCommitComplete (s : State) : Res :=
  match tblFind s.commits s.cur with
  | none => .next s
  | some c =>
    if c.kind != .chunk || !c.point || !c.homes.isEmpty || !c.fwd.isEmpty || !c.lines.isEmpty then .next s
    else match completeChunk s s.cur c with
      | some s => .next s
      | none => .next (repost s pollCycles s.cur .commitComplete)

/-! ## HELD_CHUNK_START (R111) -/

/-- R111, DEDUCED (log 62): ask an arbiter for its priority grant, in arrival order. It gives it when no commit is in progress
there. -/
def askPriority (s : State) (l arb : Nat) : State :=
  let a := arbAt s arb
  let mine := (a.asking.filter (· != l)).isEmpty || a.asking.head? == some l
  if a.priority == some l then s
  else if a.priority.isNone && a.inProg.isEmpty && mine then
    modArb s arb (fun a => { a with priority := some l, asking := a.asking.filter (· != l) })
  else if a.asking.contains l then s
  else modArb s arb (fun a => { a with asking := a.asking ++ [l] })

/-- R111: the grants are taken in the order of R104, each before the next is asked. -/
def takePriorities (s : State) (l : Nat) : List Nat → State × Bool
  | [] => (s, true)
  | arb :: rest =>
    let s := askPriority s l arb
    if (arbAt s arb).priority == some l then takePriorities s l rest else (s, false)

/-- R111: before its first instruction a held chunk takes its priority grants, and c.status.held is set. DEDUCED (log 62): one at a
time on a core, since no arbiter orders two that meet in CP or engine grains. -/
def execHeldChunkStart (s : State) : Res :=
  let c := me s
  if c.chunk.live || !wantsHeld c then .next s
  else if (List.range 8).any (fun i => coreOf s.cur * 8 + i != s.cur && (ctxAt s (coreOf s.cur * 8 + i)).chunk.held) then stall s .start
  else
    let p := takePriorities s s.cur c.chunk.prevArbs
    if p.2 then
      .next (modMe p.1 (fun c => { c with
        run := .ready, ctl := withHeld c.ctl true, chunk := { c.chunk with held := true, grants := c.chunk.prevArbs } }))
    else stall p.1 .start

/-! ## Squashes from other causes (R110, R114, R116) -/

/-- R114: the chunk is squashed; it runs again to before instruction `pos`, or, at the first, alone. -/
def execFaultResponse (loc pos : Nat) (s : State) : Res :=
  if (ctxAt s loc).run != .stalled .fault then .next s
  else
    let s := squash s loc false
    .next (modCtx s loc (fun c => { c with chunk :=
      if pos ≤ 1 then { c.chunk with stopAt := none, alone := true } else { c.chunk with stopAt := some (pos - 1) } }))

/-- R302: one more soft-error squash in the die's error record. -/
def countSoft (s : State) (die : Nat) : State :=
  let w := bar0Get s (0x100 + 8 * die)
  bar0Set s (0x100 + 8 * die) ((w &&& 0xFFFFFFFF00000000) ||| BitVec.ofNat 64 ((fld w 31 0 + 1) % 2 ^ 32))

/-- R302: one more corrected or filter error. -/
def countError (s : State) (die : Nat) : State :=
  let w := bar0Get s (0x100 + 8 * die)
  bar0Set s (0x100 + 8 * die) ((w &&& 0x00000000FFFFFFFF) ||| BitVec.ofNat 64 ((fld w 63 32 + 1) % 2 ^ 32 * 2 ^ 32))

/-- R211: what a soft error in committed data names: the word's memory key, and its die or core. -/
inductive DataError where
  /-- R116: speculative state of a context -/
  | context (l : Nat)
  /-- a single-bit error of a word of HBM, or of an L2 -/
  | corrected (die : Nat)
  /-- an uncorrectable one: the die whose L2 holds the word, or none for HBM -/
  | uncorrectable (die : Option Nat) (key : Nat)
  /-- a parity error of a word in a core's L1 -/
  | parity (core key : Nat)
deriving DecidableEq, Repr

/-- What a unit number of SOFT_ERROR stands for: a context's location, or 2^60 and above an error of committed data. -/
def dataError (u : Nat) : DataError :=
  let key := u % 2 ^ 41 / 8 * 8
  match u / 2 ^ 60 with
  | 1 => .corrected (u % 64)
  | 2 => .uncorrectable none key
  | 3 => .uncorrectable (some (u / 2 ^ 41 % 64)) key
  | 4 => .parity (u / 2 ^ 41 % 2 ^ 15) key
  | _ => .context (u % 2 ^ 18)

/-- R116: the live chunk is squashed and the error counted; the third in a row is a machine check. A chunk of one instruction that is
under way is never squashed (R96). -/
def softContext (s : State) (l : Nat) : State :=
  let c := ctxAt s l
  if !c.chunk.live || underWay s l then countSoft s (dieOf l)
  else
    let s := countSoft (squash s l false) (dieOf l)
    if c.chunk.softs + 1 ≥ 3 then modCtx (releasePriority s l) l (fun c => mcheckCtx c 2 0 0 c.regs.pc)
    else modCtx s l (fun x => { x with chunk := { x.chunk with softs := c.chunk.softs + 1 } })

/-- The word of a block whose data key is `key`. -/
def holdsKey (b : Block) (key : Nat) : Bool := b.region == key / 512 && b.start ≤ key % 512 / 8 && key % 512 / 8 ≤ b.stop

/-- R211: a dirty word of a block is marked, to be poisoned when it is written back. -/
def markBad (key : Nat) (b : Block) : Block :=
  if holdsKey b key && b.dirty.getLsbD (key % 512 / 8) then { b with bad := b.bad ||| ((1 : BitVec 64) <<< (key % 512 / 8)) } else b

/-- The fill that brings the words of a block again. -/
def refill (core : Nat) (b : Block) : FillReq :=
  { core := core, ctx := 8, l2 := false, asid := b.asid, va := b.va, region := b.region, fromL2 := false, l2ext := false, ext := false,
    first := b.start, last := b.stop, touch := b.lowest, touchEnd := b.highest, span := .words, pcIdx := b.pcIdx }

/-- R211: a parity error in a core's L1: a clean block is fetched again, a dirty word is marked. -/
def parityAt (s : State) (core key : Nat) : State :=
  let hit := (l1Blocks (coreAt s core)).filter (fun b => b.writer.isNone && holdsKey b key)
  let clean : Block → Bool := fun b => b.writer.isNone && holdsKey b key && !b.dirty.getLsbD (key % 512 / 8)
  let s := hit.foldl (fun t b =>
    if clean b then post t 0 (.getS (b.region / 2 ^ 28) (refill core b)) else t) s
  let p := l1Cut (coreAt s core) (fun b => if clean b then some (fun w => b.dirty.getLsbD w) else none)
  let s := leaveL1 (setCore s core p.1) core p.2
  modCore s core (fun c => l1Map c (fun b => some (if b.writer.isNone then markBad key b else b)))

/-- R211: an uncorrectable error of a word in a die's L2: a dirty SW or CP word is poisoned when it is written back, any other now. -/
def badInL2 (s : State) (die key : Nat) : State :=
  if (l2Blocks (dieAt s die)).any (fun b => b.mode != .hc && holdsKey b key && b.dirty.getLsbD (key % 512 / 8)) then
    modDie s die (fun d => l2Map d (fun b => some (markBad key b)))
  else { s with poison := key :: s.poison.filter (· != key) }

/-- R116, R211: SOFT_ERROR. -/
def execSoftError (s : State) : Res :=
  .next (match dataError s.cur with
    | .context l => softContext s l
    | .corrected die => countError s die
    | .uncorrectable none key => { s with poison := key :: s.poison.filter (· != key) }
    | .uncorrectable (some die) key => badInL2 s die key
    | .parity core key => parityAt s core key)

/-! ## Waking (R135, R257) -/

/-- R135: a write to the watched grain wakes the parked context. -/
def execWatchWake (s : State) : Res :=
  let c := me s
  if c.watch.isSome then
    match c.run with
    | .waiting _ => .next (modMe s (fun c => { c with run := .ready, woken := true, watch := none }))
    | _ => .next s
  else .next s

/-- R257. -/
def execYieldResume (s : State) : Res :=
  match (me s).run with
  | .yielded till await =>
    if till ≤ s.now || await.isEmpty then .next (modMe s (fun c => { c with run := .ready })) else .next s
  | _ => .next s

end Sys2Proof.Machine
end

