-- ==== Sys2Proof/Machine/Coherence.lean ====
section
/-! DEFINITION. Coherence beneath the chunks: fills, snoops, write-backs, recalls, walks, tinv and rmode at a home
(spec/10 R176–R184, spec/11 R187–R200, spec/12 R202–R210). HC blocks are tags only: the words they stand for are those of
committed memory (R120). -/

namespace Sys2Proof.Machine

/-! ## Who holds a region -/

/-- R203: an owner that is an L2 slice of die `d`. -/
def l2Owner (d : Nat) : Nat := d * 512 + 511

/-- Change or drop every block of a core's L1 that stands for a physical region and is not speculative. -/
def mapRegion (s : State) (core region : Nat) (f : Block → Option Block) : State :=
  if (l1Blocks (coreAt s core)).any (fun b => b.writer.isNone && b.region == region) then
    modCore s core (fun c => l1Map c (fun b => if b.writer.isNone && b.region == region then f b else some b))
  else s

/-- The same for the L2 slices of a die. -/
def mapL2 (s : State) (die region : Nat) (f : Block → Option Block) : State :=
  if (l2Blocks (dieAt s die)).any (fun b => b.region == region) then
    modDie s die (fun d => l2Map d (fun b => if b.region == region then f b else some b))
  else s

/-- R204: the blocks of a region that an owner answers for: its own, and those that its die's L2 or a core of it owns beside it (E, O or
M), since blocks of one owner may stand in both. -/
def answersFor (who : Nat) (holder : Nat) (b : Block) : Bool :=
  b.writer.isNone && (holder == who || (dieOfCore holder == dieOfCore who && b.mode == .hc && 2 ≤ b.state))

/-- The non-speculative blocks of a region that an owner answers for. -/
def ownerBlocks (s : State) (who region : Nat) : List Block :=
  let die := dieOfCore who
  ((s.cores.filter (fun e => dieOfCore e.1 == die)).map (fun e => (l1Blocks e.2).filter (fun b => b.region == region && answersFor who e.1 b))).flatten
    ++ (l2Blocks (dieAt s die)).filter (fun b => b.region == region && answersFor who (l2Owner die) b)

/-- Change or drop them. -/
def mapOwner (s : State) (who region : Nat) (f : Block → Option Block) : State :=
  let die := dieOfCore who
  let s := ((s.cores.filter (fun e => dieOfCore e.1 == die)).map (fun e => e.1)).foldl
    (fun t k => mapRegion t k region (fun b => if answersFor who k b then f b else some b)) s
  mapL2 s die region (fun b => if answersFor who (l2Owner die) b then f b else some b)

/-! ## The home's requests (R204, R209) -/

/-- R105, R204, R209, R306: the home does not take a request for the region now: a fill waits for every commit in progress that
writes the region. -/
def regionBusy (s : State) (home region asid va : Nat) : Bool :=
  homeHolds s home (region * 512) asid (va * 512) || transient (dirAt s home region).state || beingWritten s (region * 512) 512
    || inProgress s home region

/-- The mode of the page that a fill names, while its translation stands. -/
def fillMode (s : State) (f : FillReq) : Option Nat := (tlbFind s f.asid (f.va * 512)).map (fun l => pteMode l.pte)

def dieBit (d : Nat) : BitVec 64 := (1 : BitVec 64) <<< d

/-- R204, column GetS: what the home's entry becomes and which answer it awaits: data from memory, or a snoop of the owner. The
owner's own fill of further words leaves it the owner. -/
def getsEntry (d : DirEntry) (f : FillReq) : DirEntry × Option Nat :=
  let go : Nat → Nat → Nat → DirEntry := fun n next owner =>
    { d with state := 8, dies := d.dies ||| dieBit (dieOfCore f.core), await := n, next := next, nextOwner := owner, fill := some f }
  if d.state = 0 then (go 1 2 f.core, none)
  else if d.state = 1 then (go 1 1 0, none)
  else if d.owner = f.core then (go 1 d.state d.owner, none)
  else if d.state = 2 then (go 2 1 0, some d.owner)
  else (go 1 3 d.owner, some d.owner)

/-- R202, R203: the entry of a CP region once its owner core fills from it: E, or as it stands. -/
def cpEntry (core : Nat) (d : DirEntry) : DirEntry :=
  if d.state = 0 then { d with mode := 2, state := 2, owner := core, dies := d.dies ||| dieBit (dieOfCore core) }
  else if d.mode = 2 then { d with dies := d.dies ||| dieBit (dieOfCore core) } else d

/-- R204: GETS at a home. SW and CP regions have no sharers to ask. -/
def execGetS (home : Nat) (f : FillReq) (s : State) : Res :=
  match fillMode s f with
  | none => .next s
  | some m =>
    if regionBusy s home f.region f.asid f.va then .next (repost s pollCycles 0 (.getS home f))
    else if m = 1 then .next (sendFill s f)
    else if m = 2 then
      .next (sendFill (modDir s home f.region (cpEntry f.core)) f)
    else
      let p := getsEntry (dirAt s home f.region) f
      let s' := modDir s home f.region (fun _ => p.1)
      let mem := post s' 0 (.homeDataArrival home f.region)
      .next (match p.2 with
        | none => mem
        | some w => post (if p.1.await = 2 then mem else s') 0 (.snoop home f.region w false))

/-- R204: the data that a transient entry awaits arrives; the fill that it serves goes on to its cache. -/
def execHomeDataArrival (home region : Nat) (s : State) : Res :=
  let d := dirAt s home region
  let s' := dirArrive s home region
  .next (match d.fill with
    | some f => if transient d.state && !transient (dirAt s' home region).state then sendFill s' f else s'
    | none => s')

/-! ## Snoops and write-backs (R204, R206) -/

/-- A write-back of the region by this owner's die is in flight. -/
def wbInFlight (s : State) (region who : Nat) : Bool := s.agenda.any (fun e => match e.2.2 with
  | .writeBack _ r f _ => r == region && dieOfCore f.who == dieOfCore who
  | _ => false)

/-- R204: a downgrade: E becomes S, M becomes O. -/
def downgrade (b : Block) : Block := { b with state := if b.state = 2 then 1 else if b.state = 4 then 3 else b.state }

/-- The dirty HC words of blocks that an owner gives up: those whose parity has failed are poisoned (R211). -/
def poisonAll (s : State) (bs : List Block) : State := bs.foldl poisonBad s

/-- R204, R206: the owner answers from its blocks; with none held and its write-back in flight it answers gone, and the
write-back is the data response. Its answer clears the filter bits below which nothing is held or read (R202). -/
def execSnoop (home region who : Nat) (inval : Bool) (s : State) : Res :=
  let held := ownerBlocks s who region
  let s' := if inval then poisonAll s (held.filter (fun b => b.mode == .hc)) else s
  let s' := mapOwner s' who region (fun b => if b.mode != .hc then some b else if inval then none else some (downgrade b))
  let s' := if who % 512 = 511 then clearDie s' (dieOfCore who) region else clearSharer s' who region
  .next (if held.isEmpty && wbInFlight s region who then modDir s' home region (fun d => { d with gone := true })
    else post s' 0 (.homeDataArrival home region))

/-- R204: PutM and PutO of the region's stable owner. -/
def putEntry (s : State) (d : DirEntry) (who region : Nat) : DirEntry :=
  let others := (List.range 64).any (fun k => d.dies.getLsbD k && k != dieOfCore who && (tblFind (dieAt s k).filter region).isSome)
  if d.state = 3 then { d with state := 14, await := 1, next := if others then 1 else 0, nextOwner := 0, fill := none }
  else { d with state := 13, await := 1, next := 0, nextOwner := 0, fill := none }

/-- R125, R197, R204, R206: a write-back at its home. Its words go to memory; that of the stable owner ends its ownership; one
for which the owner has answered gone is the response to the snoop. One of an earlier ownership changes no entry. -/
def execWriteBack (home region : Nat) (who : WbFrom) (words : List (Nat × Word)) (s : State) : Res :=
  let d := dirAt s home region
  let owner := who.who
  if (homeAt s home).paused || d.lost then .next (repost s pollCycles 0 (.writeBack home region who words))
  else
    let s' := putWords s region words
    if d.mode != 0 then .next s'
    else if transient d.state then
      .next (if d.gone && dieOfCore d.owner == dieOfCore owner then
        post (modDir s' home region (fun d => { d with gone := false })) 0 (.homeDataArrival home region) else s')
    else if (d.state = 3 || d.state = 4) && d.owner == owner then
      .next (post (modDir s' home region (fun d => putEntry s d owner region)) 0 (.homeDataArrival home region))
    else .next s'

/-- R204: an owned block has moved between an L1 and its die's L2: the home changes the owner and nothing else, once the region is
stable; of a frozen region, the owner that follows (R207). -/
def execOwnerMoveReport (home region who : Nat) (s : State) : Res :=
  let d := dirAt s home region
  if transient d.state || d.lost then .next (repost s pollCycles 0 (.ownerMoveReport home region who))
  else if 2 ≤ d.state && d.state ≤ 4 && dieOfCore d.owner == dieOfCore who then
    .next (modDir s home region (fun d => { d with owner := who }))
  else if d.state = 17 && 2 ≤ d.next && d.next ≤ 4 && dieOfCore d.nextOwner == dieOfCore who then
    .next (modDir s home region (fun d => { d with nextOwner := who }))
  else .next s

/-! ## Blocks that leave and blocks that arrive (R190–R200) -/

/-- R196: the contexts of a core whose live chunk has read one of the words `a`..`b` under the name. -/
def readersOf (s : State) (core asid va a b : Nat) : BitVec 8 :=
  (List.range 8).foldl (fun m i =>
    let c := ctxAt s (core * 8 + i)
    if c.chunk.live && c.chunk.reads.any (fun x => x.1 == asid && x.2.1 == va && x.2.2.2.1 ≤ b && a ≤ x.2.2.2.2) then
      m ||| ((1 : BitVec 8) <<< i) else m) 0

/-- The block that a fill of words `a`..`b` makes. Under HC it has the state that the home granted (R202); SW and CP blocks
carry their words. -/
def filledBlock (s : State) (f : FillReq) (mode place a b : Nat) : Block :=
  let d := dirAt s (f.region / 2 ^ 28) f.region
  let st := if mode = 2 then 2 else if mode = 1 then 1 else if d.owner = f.core ∧ 2 ≤ d.state ∧ d.state ≤ 4 then d.state else 1
  let ws := if mode = 0 then []
    else (List.range (b + 1 - a)).map (fun i => (a + i, wordFor s f.core f.asid f.va f.region (a + i)))
  { asid := f.asid, va := f.va, region := f.region, start := a, stop := b, state := st,
    specRead := readersOf s f.core f.asid f.va a b, writer := none, pinned := false, off := 0,
    mode := if mode = 1 then .sw else if mode = 2 then .cp else .hc, place := place, dirty := 0, bad := 0, words := ws,
    filled := if f.fromL2 && mode = 1 then l2Filled s f a b else s.now, pcIdx := f.pcIdx, first := f.touch,
    lowest := min b (max a f.touch), highest := max a (min b f.touchEnd) }
where
  /-- R134, R208: words that the L2 serves have been leased since they came to it. -/
  l2Filled (s : State) (f : FillReq) (a b : Nat) : Nat :=
    ((l2Set (dieAt s (dieOfCore f.core)) f.asid f.va).filter (fun x => x.asid == f.asid && x.va == f.va && x.start ≤ b && a ≤ x.stop)).foldl
      (fun m x => min m x.filled) s.now

/-- Install a block in the L1 of a core; none when it cannot be placed. -/
def installL1 (s : State) (core : Nat) (b : Block) : Option State :=
  match l1Install (coreAt s core) b with
  | none => none
  | some (c, out) => some (leaveL1 (recordFill (setCore s core c) core b.region b.start b.stop) core out)

/-- R123, DEDUCED (log 84): the clean words of an SW region that a fill of the words `a`..`b` leaves without their 16-byte partner's time: the
partner of word `w` is missing from the set and comes with the fill. -/
def halfLeft (st : CacheSet) (asid va a b : Nat) (x : Block) (w : Nat) : Bool :=
  let p := w ^^^ 1
  holds x asid va w && !x.dirty.getLsbD w && a ≤ p && p ≤ b && !(st.any (fun y => y.writer.isNone && holds y asid va p))

/-- They are dropped before an SW fill arrives in the L1 of a core, or in the L2 of its die. -/
def dropHalves (s : State) (f : FillReq) (mode a b : Nat) : State :=
  if mode ≠ 1 then s
  else
    let cut : CacheSet → Block → Option (Nat → Bool) := fun st x =>
      if x.writer.isNone && (List.range 64).any (halfLeft st f.asid f.va a b x) then some (fun w => !halfLeft st f.asid f.va a b x w) else none
    if f.l2 then
      let die := dieOfCore f.core
      let p := l2Cut die (dieAt s die) (cut (l2Set (dieAt s die) f.asid f.va))
      p.2.foldl (fun t x => sendHome t die x) (modDie s die (fun _ => p.1))
    else
      let p := l1Cut (coreAt s f.core) (cut (l1Set (coreAt s f.core) f.va))
      leaveL1 (setCore s f.core p.1) f.core p.2

/-- R194, R195, R199, R200: the words of a fill that the L2 slices of its die lack are placed in them. -/
def installL2 (s : State) (f : FillReq) (mode place : Nat) : State :=
  let die := dieOfCore f.core
  let run : State → Option (Nat × Nat) := fun s => missingRun (l2Set (dieAt s die) f.asid f.va) 8 f.asid f.va f.first f.last (fun _ => true)
  match run s with
  | none => s
  | some (a, b) =>
    let s := dropHalves s f mode a b
    let x := { filledBlock s f mode place a b with specRead := 0, filled := s.now }
    match l2Install die (dieAt s die) x with
    | none => s
    | some (d, out) => out.foldl (fun t o => sendHome t die o) (leaseL2 (modDie s die (fun _ => d)) die x)

/-- R208: the lease of an SW block begins; that of words from the L2 began with theirs. -/
def startLease (s : State) (f : FillReq) (b : Block) : State :=
  if b.mode == .sw then postIn s (b.filled + Config.lease - s.now) 0 (.leaseExpiry f.core f.asid f.va) else s

/-- R203, R204: a block that this die's L2 owns moves back to the L1 that asks for its words; the home learns of it. None when no
such block holds them, or when the L1 cannot place it. -/
def moveBack (s : State) (f : FillReq) : Option State :=
  let die := dieOfCore f.core
  match l2Find (dieAt s die) f.asid f.va f.first with
  | none => none
  | some b =>
    if b.mode != .hc || b.state < 2 then none
    else match installL1 (modDie s die (fun d => l2Map d (fun x => if x == b then none else some x))) f.core
        { b with specRead := readersOf s f.core f.asid f.va b.start b.stop, pcIdx := f.pcIdx, first := f.touch,
                 lowest := min b.stop (max b.start f.touch), highest := max b.start (min b.stop f.touchEnd) } with
      | none => none
      | some s => some (if b.dirty = 0 then post s 0 (.ownerMoveReport (b.region / 2 ^ 28) b.region f.core)
          else ownerLeft s die (l2Owner die) b)

/-- R190–R195: the words `lo`..`hi` of a fill that the L1 lacks for the context that asked; none when they cannot be placed. -/
def fillL1 (s : State) (f : FillReq) (mode place lo hi : Nat) : Option State :=
  match missingRun (l1Set (coreAt s f.core) f.va) f.ctx f.asid f.va lo hi (fun _ => true) with
  | none => some s
  | some (a, b) =>
    let s := dropHalves s f mode a b
    let x := filledBlock s f mode place a b
    (installL1 s f.core x).map (fun s => startLease s f x)

/-- R191: a fill that cannot be placed is trimmed to the words of the access, and not kept when those cannot be placed either. -/
def arriveL1 (s : State) (f : FillReq) (mode place : Nat) : State :=
  match fillL1 s f mode place f.first f.last with
  | some s => s
  | none => (fillL1 s f mode place (max f.first f.touch) (min f.last f.touchEnd)).getD s

/-- R190–R195, R199: a fill reaches its cache. What comes from the home for a page pinned in L2 slices, or as an extension of the L2's words,
enters the L2 too. -/
def arrive (s : State) (f : FillReq) : State :=
  match tlbFind s f.asid (f.va * 512) with
  | none => s
  | some l =>
    let mode := pteMode l.pte
    let place := ptePlace l.pte
    if place = 3 then s
    else if f.l2 then installL2 s f mode place
    else if f.fromL2 then
      if (List.range (f.last + 1 - f.first)).all (fun i => (l2Find (dieAt s (dieOfCore f.core)) f.asid f.va (f.first + i)).isSome) then
        match moveBack s f with
        | some s => s
        | none => arriveL1 s f mode place
      else post s 0 (.getS (f.region / 2 ^ 28) { f with fromL2 := false })
    else arriveL1 (if place = 1 || f.l2ext then post s 0 (.fillArrival { f with l2 := true }) else s) f mode place

/-- R182: the home's filter still records the name under which a fill was asked. -/
def nameStands (s : State) (f : FillReq) : Bool :=
  (homeAt s (f.region / 2 ^ 28)).remap.any (fun r => r.region == f.region && r.names.contains (f.asid, f.va))

/-- The data of a fill are still current: its name stands, no commit is writing the region, and under HC the home still records
the die. -/
def fillCurrent (s : State) (f : FillReq) : Bool :=
  match fillMode s f with
  | none => false
  | some m => nameStands s f && !beingWritten s (f.region * 512) 512
    && (m != 0 || f.fromL2 || (dirAt s (f.region / 2 ^ 28) f.region).dies.getLsbD (dieOfCore f.core))

/-- FILL_ARRIVAL: data that are no longer current are dropped. -/
def execFillArrival (f : FillReq) (s : State) : Res := .next (if fillCurrent s f then arrive s f else s)

/-- R195: an extension that is no longer current is requested again, as an access: by a walk, and through the filter. A page that no load
may read asks nothing. -/
def askAgain (s : State) (f : FillReq) : State :=
  let va := f.va * 512
  let h := homeOf va
  match walk s f.asid va with
  | .error _ => s
  | .ok lf =>
    if (leafFault s lf va needR false).isSome || pteSystem lf.pte || ptePlace lf.pte == 3 then s
    else
      let region := leafAddr lf va / 512
      match throughFilter s h f.asid false [(region, f.va)] with
      | (none, s) => repost s pollCycles 0 (.extensionArrival f)
      | (some s, _) =>
        let s := if (tlbFind s f.asid va).isSome then s else postOnce s 0 (.pageWalk h f.asid (pageOf va) false)
        post s 0 (.getS h { f with region := region, fromL2 := false })

/-- R195: EXTENSION_ARRIVAL. -/
def execExtensionArrival (f : FillReq) (s : State) : Res := .next (if fillCurrent s f then arrive s f else askAgain s f)

/-! ## Leases (R125, R208) -/

/-- The SW block has reached the end of its lease. -/
def leaseOver (now asid va : Nat) (b : Block) : Bool :=
  b.mode == .sw && b.writer.isNone && b.asid == asid && b.va == va && b.filled + Config.lease ≤ now

/-- LEASE_EXPIRY at an L1, or at the L2 of a die (R203). -/
def execLeaseExpiry (core asid va : Nat) (s : State) : Res :=
  if core % 512 = 511 then
    let die := dieOfCore core
    let out := (l2Set (dieAt s die) asid va).filter (leaseOver s.now asid va)
    if out.isEmpty then .next s
    else .next (out.foldl (fun t b => sendHome t die b)
      (modDie s die (fun d => l2Map d (fun b => if leaseOver s.now asid va b then none else some b))))
  else
    let out := (l1Set (coreAt s core) va).filter (leaseOver s.now asid va)
    if out.isEmpty then .next s
    else
      let s := modCore s core (fun c => l1Map c (fun b => if leaseOver s.now asid va b then none else some b))
      .next (leaveL1 s core out)

/-! ## Recalls (R182) -/

/-- R182, DEDUCED (log 64): a live chunk that a recall of a name squashes: its R or W meets the name's signature, or it holds a store
to the region under the name, which SW pages keep out of W. -/
def namedBy (k : Chunk) (sig : BitVec 1024) (asid va : Nat) : Bool :=
  k.live && (sigMeets k.r sig || sigMeets k.w sig || k.stores.any (fun t => t.asid == asid && regionOf t.va == va))

/-- The cores that must answer a recall of a name: those that hold a block of it, or whose live chunk it squashes. -/
def recallCores (s : State) (region asid va : Nat) : List Nat :=
  let sig := sigRegion asid va
  let holders := (s.cores.filter (fun e => (l1Blocks e.2).any (fun b => b.writer.isNone && b.asid == asid && b.va == va && b.region == region))).map (fun e => e.1)
  let live := (s.ctxs.filter (fun e => namedBy e.2.chunk sig asid va)).map (fun e => coreOf e.1)
  dedup (holders ++ live)

/-- R182: the name no longer stands in the filter. -/
def dropName (s : State) (home region asid va : Nat) : State :=
  modHome s home (fun h => { h with
    remap := (h.remap.map (fun r => if r.region == region then { r with names := r.names.filter (· != (asid, va)) } else r)).filter
      (fun r => !r.names.isEmpty),
    recalls := h.recalls.filter (fun r => r.1 != region || r.2 > 0) })

/-- Some cache holds a block of the region. -/
def anyHolder (s : State) (region : Nat) : Bool :=
  s.cores.any (fun e => (l1Blocks e.2).any (fun b => b.writer.isNone && b.region == region))
    || s.dies.any (fun e => (l2Blocks e.2).any (fun b => b.region == region))

/-- R204, column Recall: the entry's stable state once every holder has answered. -/
def recalledEntry (s : State) (home region : Nat) : State :=
  let d := dirAt s home region
  if d.state = 15 || d.state = 16 then
    dirArrive (modDir s home region (fun d => { d with await := 1, next := if anyHolder s region then 1 else 0, nextOwner := 0 })) home region
  else s

/-- R182: the L2 slices of a die give up the blocks of a name: dirty words go to memory, those on their way too. -/
def recallL2 (s : State) (die region asid va : Nat) : State :=
  let mine : Block → Bool := fun b => b.asid == asid && b.va == va && b.region == region
  let s := absorbFlight s region (fun w => dieOfCore w == die)
  let out := (l2Blocks (dieAt s die)).filter mine
  if out.isEmpty then s
  else clearDie (mapL2 (out.foldl poisonBad (putWords s region (givenWords out))) die region (fun b => if mine b then none else some b)) die region

/-- RECALL: the home sends the recall of one name; one recall of a region at a time. -/
def execRecallName (home region asid va : Nat) (s : State) : Res :=
  if (homeAt s home).paused || (homeAt s home).recalls.any (fun r => r.1 == region) || transient (dirAt s home region).state || (dirAt s home region).lost || beingWritten s (region * 512) 512 then
    .next (repost s pollCycles 0 (.recallName home region asid va))
  else
    let cores := recallCores s region asid va
    let s := (s.dies.map (fun e => e.1)).foldl (fun t d => recallL2 t d region asid va) s
    let n := cores.length
    let s := modDir s home region (fun d =>
      if d.mode ≠ 0 then d
      else if d.state = 1 then { d with state := 15, await := n, fill := none }
      else if 2 ≤ d.state ∧ d.state ≤ 4 then { d with state := 16, await := n, fill := none } else d)
    if cores.isEmpty then .next (recalledEntry (dropName s home region asid va) home region)
    else
      let s := modHome s home (fun h => { h with recalls := (region, n) :: h.recalls })
      .next (cores.foldl (fun t c => post t 0 (.recallAnswer home region c asid va)) s)

/-- R182: at a core: dirty words are written back, blocks under the name dropped, and live chunks whose R or W meets the name's
signature squashed. -/
def recallAt (s : State) (region core asid va : Nat) : State :=
  let sig := sigRegion asid va
  let s := (List.range 8).foldl (fun t i =>
    if namedBy (ctxAt t (core * 8 + i)).chunk sig asid va then squash t (core * 8 + i) true else t) s
  let s := recallL2 s (dieOfCore core) region asid va
  let mine : Block → Bool := fun b => b.writer.isNone && b.asid == asid && b.va == va && b.region == region
  let out := (l1Blocks (coreAt s core)).filter mine
  let s := poisonAll (putWords s region (givenWords out)) (out.filter (fun b => b.mode == .hc))
  modCore s core (fun c => l1Map c (fun b => if mine b then none else some b))

/-- RECALL_ANSWER: the core acts, and its answer reaches the home. -/
def execRecallAnswer (home region core asid va : Nat) (s : State) : Res :=
  match (homeAt s home).recalls.find? (fun r => r.1 == region) with
  | none => .next s
  | some (_, n) =>
    let s := clearSharer (recallAt s region core asid va) core region
    let s := modHome s home (fun h => { h with recalls := (region, n - 1) :: h.recalls.erase (region, n) })
    .next (if n ≤ 1 then recalledEntry (dropName s home region asid va) home region else s)

/-! ## Walks (R176, R179, R180) -/

/-- Every access that waits for the walk of the page receives the fault. -/
def walkFailed (s : State) (home asid page cause : Nat) : State :=
  let one : Nat → Ctx → Ctx := fun _ c =>
    if c.run == .stalled (.walk home asid page) then { c with run := .ready, walkFault := some (asid, page, cause) } else c
  { s with ctxs := tblMap one s.ctxs }

/-- PAGE_WALK. -/
def execPageWalk (home asid page : Nat) (write : Bool) (s : State) : Res :=
  let va := page * 65536
  let again := repost s pollCycles 0 (.pageWalk home asid page write)
  if (homeAt s home).paused then .next again
  else match walkSet s asid va write with
    | .retry => .next again
    | .fault cause s => .next (walkFailed s home asid page cause)
    | .ok _ s => .next (wakeStall s (.walk home asid page))

/-! ## tinv (R184, R207) -/

/-- The ASID and the pages of a VA range. -/
def inRange (asid lo hi a va : Nat) : Bool := a == asid && lo ≤ va && va ≤ hi

/-- The VA range that a cached translation of home `h` maps. -/
def tlbLo (h : Nat) (t : Tlb) : Nat := 2 ^ 55 + h * 2 ^ 51 + t.vpn * 2 ^ t.bits
def tlbMeets (h asid lo hi : Nat) (t : Tlb) : Bool :=
  t.asid == asid && tlbLo h t ≤ hi && lo < tlbLo h t + 2 ^ t.bits

/-- R207: regions of the range leave FRZ and take the state that their transition gave; a directly mapped CP page and a pinned page
lose their owner and die (R126, R200). -/
def thaw (h : HomeSt) (asid lo hi : Nat) : HomeSt :=
  let one : Nat → DirEntry → DirEntry := fun _ d =>
    if d.state = 17 && d.fill.any (fun f => inRange asid lo hi f.asid (f.va * 512)) then
      { d with state := d.next, owner := d.nextOwner, next := 0, nextOwner := 0, fill := none }
    else d
  { h with
    dir := tblMap one h.dir,
    cpOwner := h.cpOwner.filter (fun p => !inRange asid lo hi p.2.2.1 (p.2.2.2 * 65536)),
    pinDie := h.pinDie.filter (fun p => !inRange asid lo hi p.2.2.1 (p.2.2.2 * 65536)) }

/-- The names of the range in a home's remap filter. -/
def namesIn (h : HomeSt) (asid lo hi : Nat) : List (Nat × Nat × Nat) :=
  (h.remap.map (fun r => (r.names.filter (fun n => inRange asid lo hi n.1 (n.2 * 512))).map (fun n => (r.region, n.1, n.2)))).flatten

/-- A home has done its part of a tinv; when every home has, the tinv is complete and its regions leave FRZ (R184, R207). -/
def tinvAck (s : State) (home tid : Nat) (t : TinvSt) : State :=
  let rest := t.homes.filter (· != home)
  if rest.isEmpty then
    let s := { s with tinvs := tblDel s.tinvs tid, homes := tblMap (fun _ h => thaw h t.asid t.lo t.hi) s.homes }
    let other := s.tinvs.any (fun e => e.2.loc.isNone && e.2.asid == t.asid)
    let s := if t.loc.isNone && !other then bar0Set s (asidOff t.asid 0x28) 0 else s
    wakeHomes s tid
  else { s with tinvs := tblSet s.tinvs tid { t with homes := rest } }
where
  /-- The context that waits for the operation goes on. -/
  wakeHomes (s : State) (tid : Nat) : State :=
    let one : Nat → Ctx → Ctx := fun _ c => if c.run == .stalled (.homes tid) then { c with woken := true } else c
    { s with ctxs := tblMap one s.ctxs }

/-- R209, DEDUCED (log 85): an engine's or I/O commit that a frozen region holds is not waited for: it goes on when the region leaves FRZ. -/
def frozenOut (s : State) (c : Commit) (region : Nat) : Bool := c.kind != .chunk && (dirAt s (region / 2 ^ 28) region).state == 17

/-- R184: an access of the range that was translated before the removal has not finished at the home: a system-scope access, a commit
that stores there, a fill on its way, or a write-back. -/
def earlierIn (s : State) (home asid lo hi : Nat) : Bool :=
  s.sysOps.any (fun p => homeOf p.2.va == home && inRange asid lo hi p.2.asid p.2.va)
    || s.commits.any (fun p => p.2.stores.any (fun t => isHbm t.pa && t.pa / 2 ^ 37 == home && inRange asid lo hi t.asid t.va
        && !frozenOut s p.2 (t.pa / 512))
      || p.2.far.any (fun f => f.pa / 2 ^ 37 == home && inRange asid lo hi p.2.asid f.va))
    || s.agenda.any (fun e => match e.2.2 with
      | .getS h f => h == home && inRange asid lo hi f.asid (f.va * 512)
      | .fillArrival f => f.region / 2 ^ 28 == home && inRange asid lo hi f.asid (f.va * 512)
      | .extensionArrival f => f.region / 2 ^ 28 == home && inRange asid lo hi f.asid (f.va * 512)
      | .writeBack h _ f _ => h == home && inRange asid lo hi f.asid (f.va * 512)
      | _ => false)
    || (homeAt s home).dir.any (fun e => transient e.2.state && e.2.fill.any (fun f => inRange asid lo hi f.asid (f.va * 512)))

/-- TINV_HOME: translations first, then the names of the range are recalled; the home acknowledges when their holders have
answered and the accesses that were translated earlier have finished. -/
def execTinvHome (home tid : Nat) (s : State) : Res :=
  match tblFind s.tinvs tid with
  | none => .next s
  | some t =>
    if !t.homes.contains home then .next s
    else if (homeAt s home).paused then .next (repost s pollCycles 0 (.tinvHome home tid))
    else
      let s := modHome s home (fun h => { h with tlb := h.tlb.filter (fun x => !tlbMeets home t.asid t.lo t.hi x) })
      let names := namesIn (homeAt s home) t.asid t.lo t.hi
      if !names.isEmpty then
        let s := names.foldl (fun u n =>
          if (homeAt u home).recalls.any (fun r => r.1 == n.1) then u else postOnce u 0 (.recallName home n.1 n.2.1 n.2.2)) s
        .next (repost s pollCycles 0 (.tinvHome home tid))
      else if earlierIn s home t.asid t.lo t.hi then .next (repost s pollCycles 0 (.tinvHome home tid))
      else .next (tinvAck s home tid t)

/-! ## rmode (R207) -/

/-- R207 step 3: the signature of a range; one of more than 2^20 bytes is taken to set every bit. -/
def rangeSig (asid lo hi : Nat) : BitVec 1024 :=
  if hi - lo ≥ 2 ^ 20 then BitVec.allOnes 1024 else sigRange asid lo (hi - lo + 1)

/-- Pages of home `home` in a range, as VAs. -/
def pagesOf (home lo hi : Nat) : List Nat :=
  let a := max lo (2 ^ 55 + home * 2 ^ 51)
  let b := min hi (2 ^ 55 + home * 2 ^ 51 + 2 ^ 51 - 1)
  if b < a then [] else (List.range (b / 65536 - a / 65536 + 1)).map (fun i => (a / 65536 + i) * 65536)

/-- The regions of a page that an rmode transforms: VA[55:9], physical region, and the mode they had. -/
def rmodeRegions (s : State) (r : RmodeSt) (va : Nat) : List (Nat × Nat × Nat) :=
  match walk s r.asid va with
  | .error _ => []
  | .ok l =>
    if pteSystem l.pte || ptePlace l.pte == 3 then []
    else ((List.range 128).map (fun i => va + 512 * i)).filterMap (fun v =>
      if r.lo ≤ v && v ≤ r.hi then
        let reg := leafAddr l v / 512
        some (v / 512, reg, pteMode l.pte)
      else none)

def modeCode : CMode → Nat
  | .hc => 0 | .sw => 1 | .cp => 2

/-- The dirty words of every SW or CP block of a region go to memory: what is on its way, what the L2 slices hold, and then what
the L1s hold. -/
def flushRegion (s : State) (region : Nat) : State :=
  let mine : Block → Bool := fun b => b.region == region && b.mode != .hc
  putWords (putWords (absorbFlight s region (fun _ => true)) region (givenWords ((l2All s).filter mine))) region
    (givenWords ((l1All s).filter mine))

/-- Every block of a region, in every L1 but those that `keep` names, and in every L2, is dropped. -/
def dropRegion (s : State) (region : Nat) (keep : Nat → Bool) : State :=
  let s := settleBad none s region
  let s := (s.cores.map (fun e => e.1)).foldl (fun t c => if keep c then t else mapRegion t c region (fun _ => none)) s
  (s.dies.map (fun e => e.1)).foldl (fun t d => mapL2 t d region (fun _ => none)) s

/-- What an owner core and its die's L2 hold: 4 dirty words, 2 clean blocks only, 0 nothing. -/
def heldState (s : State) (core region : Nat) : Nat :=
  let bs := ownerBlocks s core region ++ (l2Blocks (dieAt s (dieOfCore core))).filter (fun b => b.region == region)
  if bs.any (fun b => b.dirty != 0) then 4 else if bs.isEmpty then 0 else 2

/-- A block under a new mode, with the words of memory for those that it does not carry. -/
def remode (s : State) (m : CMode) (state : Block → Nat) (b : Block) : Block :=
  let have_ := b.words
  let all := (List.range (blockLen b)).map (fun i => b.start + i)
  { b with
    mode := m, state := state b, filled := s.now, pinned := false,
    words := if m == .hc then [] else all.map (fun w => match have_.find? (fun p => p.1 == w) with
      | some p => p
      | none => (w, memWord s.mem (b.region * 512 + 8 * w))) }

/-- Freeze a region with the state, owner and mode that follow (R207); `asid` and `va` are how a tinv will find it. The owner field is
zero while the region is frozen (R203). The core that owns a CP region is kept beside the directory. -/
def freeze (s : State) (home asid va region next owner mode : Nat) (cp : Option Nat) : State :=
  let s := modDir s home region (fun d => { d with
    state := 17, lost := false, await := 0, next := next, nextOwner := if 2 ≤ next ∧ next ≤ 4 then owner else 0, mode := mode, owner := 0,
    dies := if mode = 1 then 0 else if mode = d.mode then d.dies else if 2 ≤ next ∧ next ≤ 4 then dieBit (dieOfCore owner) else 0,
    gone := false,
    fill := some { core := 0, ctx := 8, l2 := false, asid := asid, va := va, region := region, fromL2 := false, l2ext := false, ext := false,
                   first := 0, last := 0, touch := 0, touchEnd := 0, span := .words, pcIdx := 0 } })
  modHome s home (fun h => { h with cpRegion := match cp with
    | some core => tblSet h.cpRegion region core
    | none => tblDel h.cpRegion region })

/-- Leases of the blocks of a region that has become SW start at the transition, under every name that holds it. -/
def leaseAll (s : State) (region : Nat) : State :=
  let of : Nat → List Block → List (Nat × Nat × Nat) := fun who bs =>
    (bs.filter (fun b => b.writer.isNone && b.region == region)).map (fun b => (who, b.asid, b.va))
  let all := dedup ((s.cores.map (fun e => of e.1 (l1Blocks e.2))).flatten ++ (s.dies.map (fun e => of (l2Owner e.1) (l2Blocks e.2))).flatten)
  all.foldl (fun t x => postIn t Config.lease 0 (.leaseExpiry x.1 x.2.1 x.2.2)) s

/-- R207: the transition of one region. -/
def transition (s : State) (home : Nat) (r : RmodeSt) (va region src : Nat) : State :=
  let d := dirAt s home region
  let own := (cpOwnerOf s home (region * 512)).getD r.core
  let every : (Block → Block) → State → State := fun f s =>
    let s := (s.cores.map (fun e => e.1)).foldl (fun t c => mapRegion t c region (fun b => some (f b))) s
    (s.dies.map (fun e => e.1)).foldl (fun t c => mapL2 t c region (fun b => some (f b))) s
  let swState : Block → Nat := fun b => if b.dirty = 0 then 1 else 4
  let ownState : Block → Nat := fun b => if b.dirty = 0 then 2 else 4
  if src = modeCode r.mode then freeze s home r.asid va region d.state d.owner d.mode (tblFind (homeAt s home).cpRegion region)
  else match src, r.mode with
    | 0, .sw => freeze (leaseAll (every (remode s .sw swState) s) region) home r.asid va region 0 0 1 none
    | 1, .hc => freeze (dropRegion (flushRegion s region) region (fun _ => false)) home r.asid va region 0 0 0 none
    | 2, .hc =>
      let st := heldState s own region
      freeze (every (remode s .hc ownState) (flushRegion s region)) home r.asid va region st own 0 none
    | 2, .sw => freeze (leaseAll (every (remode s .sw swState) s) region) home r.asid va region 0 0 1 none
    | _, .cp =>
      let s' := dropRegion (flushRegion s region) region (fun c => c == r.core)
      let st := heldState s' r.core region
      let s' := mapRegion s' r.core region (fun b => some (remode s' .cp ownState b))
      freeze s' home r.asid va region st r.core 2 (some r.core)
    | _, _ => freeze s home r.asid va region d.state d.owner d.mode (tblFind (homeAt s home).cpRegion region)

/-- A commit past its commit point, or a granted one of an engine or the I/O die, writes into the range (R207 step 2). -/
def committingIn (s : State) (asid lo hi : Nat) (regions : List Nat) : Bool :=
  s.commits.any (fun p =>
    (p.2.point && (p.2.stores.any (fun t => inRange asid lo hi t.asid t.va) || p.2.far.any (fun f => inRange asid lo hi p.2.asid f.va)))
      || (p.2.kind != .chunk && p.2.ask.isEmpty && regions.any (fun r => commitTouches p.2 r r)))

/-- The home has transformed its part. -/
def rmodeDone (s : State) (home tid : Nat) (r : RmodeSt) : State :=
  let s := modHome s home (fun h => { h with
    draining := h.draining.filter (· != tid),
    cpOwner := h.cpOwner.filter (fun p => !inRange r.asid r.lo r.hi p.2.2.1 (p.2.2.2 * 65536)),
    pinDie := h.pinDie.filter (fun p => !inRange r.asid r.lo r.hi p.2.2.1 (p.2.2.2 * 65536)) })
  let rest := r.homes.filter (· != home)
  if rest.isEmpty then tinvAck.wakeHomes { s with rmodes := tblDel s.rmodes tid } tid
  else { s with rmodes := tblSet s.rmodes tid { r with homes := rest } }

/-- RMODE_DRAIN: the drain of one home, and its transition. -/
def execRmodeDrain (home tid : Nat) (s : State) : Res :=
  match tblFind s.rmodes tid with
  | none => .next s
  | some r =>
    if !r.homes.contains home then .next s
    else
      let again : State → State := fun s => repost s pollCycles 0 (.rmodeDrain home tid)
      let regs := ((pagesOf home r.lo r.hi).map (rmodeRegions s r)).flatten
      if (homeAt s home).paused || regs.any (fun x => (dirAt s home x.2.1).state == 17) then .next (again s)
      else
        let s := if (homeAt s home).draining.contains tid then s
          else modHome s home (fun h => { h with draining := tid :: h.draining })
        if committingIn s r.asid r.lo r.hi (regs.map (fun x => x.2.1)) || regs.any (fun x => transient (dirAt s home x.2.1).state) then .next (again s)
        else
          let sig := rangeSig r.asid r.lo r.hi
          let s := s.ctxs.foldl (fun t e =>
            let k := (ctxAt t e.1).chunk
            if k.live && (sigMeets k.r sig || sigMeets k.w sig || k.stores.any (fun x => inRange r.asid r.lo r.hi x.asid x.va)) then
              squash t e.1 true else t) s
          let s := regs.foldl (fun t x => transition t home r x.1 x.2.1 x.2.2) s
          .next (rmodeDone s home tid r)

/-! ## Errors (R210) -/

/-- R2: the S-die beside a home. -/
def homeDie (h : Nat) : Nat := ([0, 1, 3, 5, 7, 15, 31, 47, 63, 62, 60, 58, 56, 48, 32, 16] : List Nat).getD h 0

/-- R210: the dies' reports for a region: each block, its holder and state, and whether it holds dirty words; the die of each live
reader, in state 0. -/
def reports (s : State) (region : Nat) : List (Nat × Nat × Bool) :=
  let of : Nat → List Block → List (Nat × Nat × Bool) := fun who bs =>
    (bs.filter (fun b => b.writer.isNone && b.region == region)).map (fun b => (who, b.state, b.dirty != 0))
  (s.cores.map (fun e => of e.1 (l1Blocks e.2))).flatten ++ (s.dies.map (fun e => of (l2Owner e.1) (l2Blocks e.2))).flatten
    ++ (s.ctxs.filter (fun e => e.2.chunk.live && e.2.chunk.reads.any (fun x => x.2.2.1 == region))).map (fun e => (coreOf e.1, 0, false))

/-- The holders that report one of the states that `p` picks. -/
def claimants (rs : List (Nat × Nat × Bool)) (p : Nat → Bool) : List Nat := dedup ((rs.filter (fun x => p x.2.1)).map (fun x => x.1))

/-- R210: the mode in a leaf that maps a region: under a name that the filter records, or in the translation cache. -/
def leafMode (s : State) (home region : Nat) : Option Nat :=
  let names := ((homeAt s home).remap.filter (fun x => x.region == region)).map (fun x => x.names)
  let walked := names.flatten.filterMap (fun n => match walk s n.1 (n.2 * 512) with
    | .ok l => if !pteSystem l.pte && leafAddr l (n.2 * 512) / 512 == region then some (pteMode l.pte) else none
    | .error _ => none)
  match walked.head? with
  | some m => some m
  | none => ((homeAt s home).tlb.find? (fun t =>
      !pteSystem t.pte && fld t.pte 40 9 / 2 ^ (t.bits - 9) == region / 2 ^ (t.bits - 9))).map (fun t => pteMode t.pte)

/-- R210: rebuild an entry from the reports: the mask, then the state and owner by the first rule that applies. The mode is rebuilt
from a leaf that maps the region. -/
def rebuild (s : State) (home region : Nat) : State :=
  let rs := reports s region
  let dies := rs.foldl (fun m x => m ||| dieBit (dieOfCore x.1)) (0 : BitVec 64)
  let dirty := claimants rs (fun x => 3 ≤ x)
  let all := claimants rs (fun x => 2 ≤ x)
  let mode := (leafMode s home region).getD (dirAt s home region).mode
  let state := match rs.find? (fun x => 3 ≤ x.2.1), all with
    | some x, _ => x.2.1
    | none, _ :: _ => 2
    | none, [] => if rs.any (fun x => x.2.1 == 1) then 1 else 0
  let owner := match dirty, all with
    | p :: _, _ => p
    | [], p :: _ => p
    | [], [] => 0
  let s := modDir s home region (fun d =>
    if d.state = 17 then { d with lost := false, dies := dies, mode := mode, next := state, nextOwner := owner }
    else { d with lost := false, dies := dies, mode := mode, state := state, owner := owner, await := 0, next := 0, nextOwner := 0, gone := false, fill := none })
  if all.length ≥ 2 then
    match s.ctxs.filter (fun e => e.2.run != .dormant) with
    | [] => s
    | e :: es => match nth (e :: es) (Config.choose s.tick 3 % (es.length + 1)) with
      | some x => post s 0 (.mcheck x.1 3 home 0)
      | none => s
  else s

/-- DIRECTORY_ERROR: the entry is lost and requests for the region wait; then it is rebuilt. -/
def execDirectoryError (home region : Nat) (s : State) : Res :=
  let d := dirAt s home region
  if d.lost then .next (if transient d.state then repost s pollCycles 0 (.directoryError home region) else rebuild s home region)
  else
    .next (repost (countError (modDir s home region (fun d => { d with lost := true })) (homeDie home)) pollCycles 0
      (.directoryError home region))

/-- R210, R202: the answers of the cores below a filter entry whose mask has been set to ones clear the bits of those that hold no
copy and have no live reader. -/
def askBelow (s : State) (region : Nat) (cores : List Nat) : State := cores.foldl (fun t c => clearSharer t c region) s

/-- FILTER_ERROR: units 0–63 are die filters, keyed by region; the others the cluster filters, 64 + c.self[17:6], keyed by sector. The
mask is set to ones, and snoops to everything below clear it again as the answers come. -/
def execFilterError (unit key : Nat) (s : State) : Res :=
  if unit < 64 then
    let s := countError (modDie s unit (fun d => { d with filter := tblSet d.filter key (BitVec.allOnes 48) })) unit
    .next (askBelow s key ((List.range 384).map (fun i => unit * 512 + i)))
  else
    let cl := unit - 64
    let s := countError (modCluster s cl (fun c => { c with filter := tblSet c.filter key (BitVec.allOnes 8) })) (cl / 64)
    .next (askBelow s (key / 8) ((List.range 8).map (fun i => cl * 8 + i)))

end Sys2Proof.Machine
end

