-- ==== Sys2Proof/Machine/Control.lean ====
section
/-! DEFINITION. Control transfer (spec/04 R80–R82). -/

namespace Sys2Proof.Machine

def execJmp (o : BitVec 25) (s : State) : Res := jumpTo s (me s).regs (pcPlus s o)
def execCall (o : BitVec 25) (s : State) : Res := jumpTo s (linkRegs (me s).regs) (pcPlus s o)

def execBeq (a b : Src) (o : BitVec 15) (s : State) : Res := branch s (src s a == src s b) o
def execBne (a b : Src) (o : BitVec 15) (s : State) : Res := branch s (src s a != src s b) o
def execBlt (a b : Src) (o : BitVec 15) (s : State) : Res := branch s ((src s a).slt (src s b)) o
def execBge (a b : Src) (o : BitVec 15) (s : State) : Res := branch s (!(src s a).slt (src s b)) o
def execBltz (a : Src) (o : BitVec 15) (s : State) : Res := branch s ((src s a).slt 0) o
def execBgez (a : Src) (o : BitVec 15) (s : State) : Res := branch s (!(src s a).slt 0) o
def execBz (a : Src) (o : BitVec 15) (s : State) : Res := branch s (src s a == 0) o
def execBnz (a : Src) (o : BitVec 15) (s : State) : Res := branch s (src s a != 0) o

/-- R82: the entry of a jump table, a speculative 4-byte load; a fault sets c.tval[0]. DEDUCED (log 75): a WATCH that the read meets
sets it too; a table in a never-cached or I/O page closes the chunk, as any load there does (R96); a target that is not canonical is
NONCANON at the jtab, as R80 has it for the other transfers. -/
def execJtab (a b : Src) (o : BitVec 15) (s : State) : Res :=
  let i := src s a
  if src s b ≤ i then finish s (me s).regs
  else
    let ea := pcPlus s o + 4 * i
    let q := { loadReq ea 4 with align := 4 }
    match access s q with
    | .core cause badva tval => raise s cause badva (tval ||| 1)
    | .home cause badva tval s => raiseHome s cause badva (tval ||| 1)
    | .wait w s => stall s w
    | .ok t s =>
      loadAll s .pred [(t, 4, ea)] (fun cl bs s =>
        let dest : Word := (me s).regs.pc + (signExt (BitVec.ofNat 64 (leNat bs)) 32 <<< 2)
        if fld dest 63 56 != 0 then raise s cNoncanon dest 0 else finishAny cl s (me s).regs dest)

def execJr (a : Src) (s : State) : Res := jumpReg s (me s).regs (src s a)
/-- R80: the target is read before k15 is written. -/
def execCallr (a : Src) (s : State) : Res := jumpReg s (linkRegs (me s).regs) (src s a)

end Sys2Proof.Machine
end

