-- ==== Sys2Proof/Machine/CopyEngine.lean ====
section
/-! DEFINITION. Copy engines (spec/24 R389–R395) and engine commits (R128). A packet that is in progress is the unit with its
number; the unit 2^40 + asid·4096 + handle takes the next packet of that copy queue. -/

namespace Sys2Proof.Machine

/-! ## Packets -/

def packetOf (s : State) (pid : Nat) : Option Packet :=
  ((s.homes.map (fun e => e.2.packets)).flatten).find? (fun p => p.pid == pid)

def setPacket (s : State) (p : Packet) : State :=
  modHome s p.home (fun h => { h with packets := h.packets.map (fun q => if q.pid == p.pid then p else q) })

def dropPacket (s : State) (p : Packet) : State :=
  modHome s p.home (fun h => { h with packets := h.packets.filter (fun q => q.pid != p.pid) })

/-- R395: the packet faults: an event to the ring's owner, and the engine drops it. -/
def packetFault (s : State) (p : Packet) (reason detail : Nat) : State :=
  engineEvent (dropPacket s p) p.asid p.slot reason detail (p.words.take 4)

/-- The packet is complete once its work and its engine commits are. -/
def settlePacket (s : State) (p : Packet) : State :=
  if p.finished && p.commits = 0 then dropPacket s p else setPacket s p

def pktName : Nat → Instr
  | 1 => .pktCopy | 2 => .pktTofifo | 3 => .pktGather | 4 => .pktScatter | 5 => .pktFill | _ => .pktChain

def pktOp (p : Packet) : Nat := fld (wordAt p.words 0) 7 0
def pktRows (p : Packet) : Nat := fld (wordAt p.words 3) 63 48 + 1
def pktLen (p : Packet) : Nat := fld (wordAt p.words 3) 31 0
def srcStride (p : Packet) : Int := (BitVec.ofNat 32 (fld (wordAt p.words 4) 31 0)).toInt
def dstStride (p : Packet) : Int := (BitVec.ofNat 32 (fld (wordAt p.words 4) 63 32)).toInt

/-- A pointer displaced by a signed amount, modulo 2^64. -/
def offsetPtr (p : Word) (d : Int) : Word := p + BitVec.ofInt 64 d

/-! ## SRAM operands (R173, R390) -/

/-- An explicit scratchpad or cluster pointer to a place that exists: `core` for a scratchpad, the cluster, the offset and the
size. -/
structure Sram where
  core : Option Nat
  cl : Nat
  off : Nat
  size : Nat
deriving DecidableEq, Repr

def sramOf (s : State) (p : Word) : Option Sram :=
  let tag := fld p 47 36
  if fld p 63 55 != 0 || fld p 51 48 != 0 || tag == 0xFFF || !placeExists s (tag / 64) (tag % 64) 0 then none
  else if fld p 54 52 == 2 && fld p 32 18 == 0 then
    some { core := some (fld p 47 33), cl := tag, off := fld p 17 0, size := Config.scratchSize (tag / 64) }
  else if fld p 54 52 == 3 && fld p 35 21 == 0 then
    some { core := none, cl := tag, off := fld p 20 0, size := Config.clusterSize (tag / 64) }
  else none

def sramKey (x : Sram) : Nat := match x.core with
  | some c => keyScratch c x.off
  | none => keyCluster x.cl x.off

/-- R127, R390: the first tile of `n` bytes that is T. -/
def firstT (s : State) (x : Sram) (n : Nat) : Option Nat := match x.core with
  | some c => (tilesMet x.off n).find? (fun t => !isTileE s c t)
  | none => none

/-- R391: the barrier word: an explicit pointer, 16-byte aligned, or 0. -/
def pktBarrier (s : State) (p : Packet) : Except Unit (Option Nat) :=
  let w := wordAt p.words 5
  if w = 0 then .ok none
  else match sramOf s w with
    | some x => if x.off % 16 = 0 ∧ x.off + 16 ≤ x.size then .ok (some (sramKey x)) else .error ()
    | none => .error ()

/-- How an engine's access ends. -/
inductive Eng (α : Type) where
  | ok (x : α) (s : State)
  | fault (reason detail : Nat) (s : State)
  | retry

/-- R300, R390: the system address of a VA whose leaf is a system frame (peer or host memory), and whether the page is an I/O page. A
paused home answers later (R306). -/
def systemTarget (s : State) (asid va : Nat) (write : Bool) : Hw (Option (Nat × Bool)) :=
  if isGlobal va && (homeAt s (homeOf va)).paused then .retry
  else match translate s asid va write with
    | .retry => .retry
    | .fault c s => .fault c s
    | .ok l s => match leafFault s l va ⟨!write, write, false⟩ false with
      | some c => .fault c s
      | none => .ok (if pteSystem l.pte then some (leafAddr l va, pteMode l.pte == 1) else none) s

/-- R163, R389: sectors that have landed; false when one could not be counted. -/
def landSectors (s : State) (bar : Option Nat) (n : Nat) : State × Bool :=
  match bar with
  | none => (s, true)
  | some k => barLandN s k n

/-- R300: bytes read from outside the package are free values; `k` counts those that the read has taken before. -/
def outsideBytes (s : State) (k n : Nat) : List Byte :=
  (List.range n).map (fun i => (Config.outside s.tick (64 + k + i)).setWidth 8)

/-! ## The I/O-die cache of host memory (R295) -/

/-- The cells of the cache that stand in one 64-byte line. -/
def cxlLine (s : State) (line : Nat) : List (Nat × Byte) := s.io.cxlCells.filter (fun c => c.1 / 64 == line)

/-- The bytes at a host address, when the cache holds all of them. -/
def cxlGet (s : State) (addr n : Nat) : Option (List Byte) :=
  (List.range n).foldr (fun i acc => match acc, s.io.cxlCells.find? (fun c => c.1 == addr + i) with
    | some bs, some c => some (c.2 :: bs)
    | _, _ => none) (some [])

/-- R295: 64 MiB in lines. -/
def cxlMax : Nat := 2 ^ 20

/-- Bytes enter the cache; their line is the one used last, and the least recently used line leaves a full cache. DESIGN CHOICE
(log 72): a write leaves for the host at once, so the cache holds no byte that the host lacks. -/
def cxlPut (s : State) (addr : Nat) (bs : List Byte) : State :=
  let line := addr / 64
  let mine := (cxlLine s line).filter (fun c => c.1 < addr || addr + bs.length ≤ c.1)
  let new := (List.zip (List.range bs.length) bs).map (fun e => (addr + e.1, e.2))
  let rest := s.io.cxlCells.filter (fun c => c.1 / 64 != line)
  let lines := dedup (rest.map (fun c => c.1 / 64))
  let rest := if lines.length < cxlMax then rest else rest.filter (fun c => some (c.1 / 64) != lines.getLast?)
  modIo s (fun io => { io with cxlCells := new ++ mine ++ rest })

/-- R295, R297: the access is to host memory, and not to an I/O page: the I/O-die cache serves it. -/
def cxlServed (io : Bool) (addr : Nat) : Bool := !io && addr / 2 ^ 47 < 4

/-- The pieces of `n` bytes at a system address by 64-byte line: offset and length. -/
def linePieces (addr n : Nat) : List (Nat × Nat) :=
  if n = 0 then []
  else (List.range ((addr + n - 1) / 64 + 1 - addr / 64)).map (fun i =>
    let a := max addr ((addr / 64 + i) * 64)
    (a - addr, min (addr + n) ((addr / 64 + i) * 64 + 64) - a))

/-- A copy engine reads `n` bytes from outside the package: those that the I/O-die cache holds from there, the rest from their host or peer,
and host memory enters the cache. -/
def systemRead (s : State) (io : Bool) (addr k n : Nat) : List Byte × State :=
  if !cxlServed io addr then (outsideBytes s k n, s)
  else (linePieces addr n).foldl (fun acc p =>
    let bs := (cxlGet acc.2 (addr + p.1) p.2).getD (outsideBytes s (k + p.1) p.2)
    (acc.1 ++ bs, cxlPut acc.2 (addr + p.1) bs)) ([], s)

/-- A copy engine writes bytes outside the package: they leave at once, and those for host memory enter the cache. -/
def systemWrite (s : State) (io : Bool) (addr : Nat) (bs : List Byte) : State :=
  let s := modIo s (fun x => { x with out := x.out ++ [.write addr bs] })
  if !cxlServed io addr then s
  else (linePieces addr bs.length).foldl (fun t p => cxlPut t (addr + p.1) ((bs.drop p.1).take p.2)) s

/-- Cut `n` bytes at a VA at the page boundaries. -/
def pagePieces : Nat → Nat → Nat → List (Nat × Nat)
  | 0, _, _ => []
  | fuel + 1, va, n =>
    if n = 0 then []
    else
      let k := min n (65536 - va % 65536)
      (va, k) :: pagePieces fuel (va + k) (n - k)

def pagesAt (va n : Nat) : List (Nat × Nat) := pagePieces (n / 65536 + 2) va n

/-- Read global memory for a packet, page by page. -/
def globalReadAll (s : State) (asid : Nat) : List (Nat × Nat) → List Byte → Hw (List Byte)
  | [], acc => .ok acc s
  | (va, n) :: rest, acc =>
    match systemTarget s asid va false with
    | .retry => .retry
    | .fault c s => .fault c s
    | .ok (some a) s =>
      let r := systemRead s a.2 a.1 acc.length n
      globalReadAll r.2 asid rest (acc ++ r.1)
    | .ok none s => match engineRead s asid va n with
      | .retry => .retry
      | .fault c s => .fault c s
      | .ok bs s => globalReadAll s asid rest (acc ++ bs)

def globalRead (s : State) (asid va n : Nat) : Hw (List Byte) := globalReadAll s asid (pagesAt va n) []

/-- Write bytes to global memory for a packet, page by page: how many engine commits. A write to a peer leaves the package at
once, and its sectors have then landed (R163; DEDUCED, log 82). -/
def globalWriteAll (s : State) (p : Packet) (bar : Option Nat) : List (Nat × Nat) → List Byte → Nat → Eng Nat
  | [], _, k => .ok k s
  | (va, n) :: rest, bs, k =>
    match systemTarget s p.asid va true with
    | .retry => .retry
    | .fault c s => .fault 0x08 c s
    | .ok (some a) s =>
      let q := landSectors (systemWrite s a.2 a.1 (bs.take n)) bar (sectorCount va n)
      if q.2 then globalWriteAll q.1 p bar rest (bs.drop n) k else .fault 0x11 0xFF q.1
    | .ok none s => match engineWrite s p.asid none (some p.pid) bar (piecesOf va n) (bs.take n) 0 with
      | .retry => .retry
      | .fault c s => .fault 0x08 c s
      | .ok j s => globalWriteAll s p bar rest (bs.drop n) (k + j)

def globalWrite (s : State) (p : Packet) (va : Nat) (bs : List Byte) (bar : Option Nat) : Eng Nat :=
  globalWriteAll s p bar (pagesAt va bs.length) bs 0

/-- R182: before an engine tries a global operand again, the recalls that its name needs are asked for. -/
def askOperand (s : State) (asid : Nat) (ptr : Word) (n : Nat) (write : Bool) : State :=
  if isGlobal ptr.toNat then askNames s asid write (piecesOf ptr.toNat n) else s

/-- Read `n` bytes of an operand; `idx` is the word that names it. -/
def pktRead (s : State) (p : Packet) (ptr : Word) (n idx : Nat) : Eng (List Byte) :=
  if n = 0 then .ok [] s
  else if isGlobal ptr.toNat then
    match globalRead s p.asid ptr.toNat n with
    | .ok bs s => .ok bs s
    | .retry => .retry
    | .fault c s => if c = cMcheck then .fault 0x07 0 s else .fault 0x08 c s
  else match sramOf s ptr with
    | none => .fault 0x0C idx s
    | some x =>
      if x.off + n > x.size then .fault 0x0C idx s
      else match firstT s x n with
        | some t => .fault 0x0A t s
        | none => .ok (memBytes s.mem (sramKey x) n) s

/-- R389: bind the tiles that a write meets to a barrier. -/
def bindTiles (s : State) (core : Nat) (tiles : List Nat) (bar : Option Nat) : State :=
  match bar with
  | none => s
  | some k => modCore s core (fun c => { c with bindings := c.bindings.filter (fun b => !(b.2 == k && tiles.contains b.1)) ++ tiles.map (fun t => (t, k)) })

/-- Write bytes into SRAM: tiles must be E, and are bound before the first byte lands. -/
def sramWrite (s : State) (x : Sram) (bs : List Byte) (bar : Option Nat) (land : Bool) : Eng Unit :=
  match firstT s x bs.length with
  | some t => .fault 0x0A t s
  | none =>
    let s := match x.core with
      | some c => bindTiles s c (tilesMet x.off bs.length) bar
      | none => s
    let s := putRaw s (sramKey x) bs
    if land then
      let q := landSectors s bar (sectorCount x.off bs.length)
      if q.2 then .ok () q.1 else .fault 0x11 0xFF q.1
    else .ok () s

/-- Write bytes to an operand: how many engine commits were put on their way. -/
def pktWrite (s : State) (p : Packet) (ptr : Word) (bs : List Byte) (bar : Option Nat) (idx : Nat) : Eng Nat :=
  if bs.isEmpty then .ok 0 s
  else if isGlobal ptr.toNat then
    globalWrite s p ptr.toNat bs bar
  else match sramOf s ptr with
    | none => .fault 0x0C idx s
    | some x =>
      if x.off + bs.length > x.size then .fault 0x0C idx s
      else match sramWrite s x bs bar true with
        | .ok _ s => .ok 0 s
        | .fault r d s => .fault r d s
        | .retry => .retry

/-! ## Malformed packets (R391, R392) -/

/-- The words that each opcode names. -/
def pktNames : Nat → List Nat
  | 1 => [1, 2, 3, 4, 5]
  | 2 => [1, 2, 3, 4, 5]
  | 3 => [2, 5, 6]
  | 4 => [1, 5, 6]
  | 5 => [1, 2, 3, 4, 5]
  | _ => [1, 3, 7]

/-- The first word that makes a packet malformed. -/
def pktBad (s : State) (p : Packet) : Option Nat :=
  let w := wordAt p.words
  let op := pktOp p
  if op = 0 ∨ op > 6 ∨ fld (w 0) 47 32 ≠ 0 ∨ fld (w 0) 15 8 ≠ 0 then some 0
  else match [1, 2, 3, 4, 5, 6, 7].find? (fun i => w i != 0 && !(pktNames op).contains i) with
    | some i => some i
    | none =>
      if op = 2 ∧ (fld (w 2) 39 0 ≠ 0 ∨ fld (w 2) 51 48 ≠ 0 ∨ !placeExists s (fld (w 2) 63 58) (fld (w 2) 57 52) 0) then some 2
      else if fld (w 3) 47 32 ≠ 0 ∨ (op = 6 ∧ fld (w 3) 63 48 ≠ 0) ∨ (op = 5 ∧ pktLen p % 8 ≠ 0) then some 3
      else if (op = 2 ∧ fld (w 4) 63 32 ≠ 0) ∨ (op = 5 ∧ fld (w 4) 31 0 ≠ 0) then some 4
      else if (match pktBarrier s p with
        | .error _ => true
        | .ok _ => false) then some 5
      else if (op = 3 ∨ op = 4) ∧ (fld (w 6) 5 0 ≠ 0) then some 6
      else if op = 6 ∧ fld (w 7) 5 0 ≠ 0 then some 7
      else none

def barrierKey (s : State) (p : Packet) : Option Nat := match pktBarrier s p with
  | .ok b => b
  | .error _ => none

/-! ## Taking a packet (R226, R390) -/

/-- The engine of a home that can take a slot now: the one whose turn it is, else the other. -/
def freeEngine (h : HomeSt) : Option Nat :=
  let n : Nat → Nat := fun e => (h.packets.filter (fun p => p.engine == e)).length
  let e := h.nextEngine % 2
  if n e < 16 then some e else if n (1 - e) < 16 then some (1 - e) else none

/-- The unit that takes from a copy queue. -/
def copyUnit (asid h : Nat) : Nat := 2 ^ 40 + asid * 4096 + h

/-- Copy queues that may hold a packet which an engine can take: ASID and handle. -/
def copyWork (s : State) : List (Nat × Nat) :=
  ((s.dies.map (fun e => e.2.heads)).flatten.filter (fun x =>
    x.hint && qdKind x.words == 2 && (freeEngine (homeAt s (homeOf x.desc))).isSome && !(homeAt s (homeOf x.desc)).paused)).map
    (fun x => (x.asid, x.handle))

/-- The step by which an engine takes the packet at the read index of a copy queue: that of the packet's opcode. -/
def copyPoll (s : State) (asid h : Nat) : State × Option Instr :=
  match headOf s asid h with
  | none => (s, none)
  | some x =>
    match ringHead s asid x.desc x.words with
    | .ok (.entry _ msg) s => (s, some (pktName (fld (wordAt msg 0) 7 0)))
    | .ok .unwritten s => (headWaits s x, none)
    | .ok .empty s => (headEmpty s x, none)
    | .fault _ s => (headEmpty s x, none)
    | .retry => (s, none)

/-- R226 step 5, R390: an engine takes the packet with opcode `op` at the read index. -/
def takePacket (s : State) (op : Nat) : State :=
  let asid := (s.cur - 2 ^ 40) / 4096
  let h := (s.cur - 2 ^ 40) % 4096
  match headOf s asid h with
  | none => s
  | some x =>
    let home := homeOf x.desc
    match ringHead s asid x.desc x.words, freeEngine (homeAt s home) with
    | .ok (.entry n msg) s, some e =>
      if pktName (fld (wordAt msg 0) 7 0) != pktName op then s
      else (match freeSlot s asid x.desc x.words n (wordAt msg 0) with
        | .retry => s
        | .fault _ s => headEmpty s x
        | .ok _ s =>
          let s := headTook (touchHead s asid h) asid h
          let pid := s.nextOp
          let p : Packet := { pid := pid, engine := e, home := home, asid := asid, slot := BitVec.ofNat 64 (ringSlotVa x.words n),
                              words := msg, table := [], data := [], row := 0, commits := 0, finished := false }
          let s := modHome { s with nextOp := pid + 1 } home (fun y => { y with packets := y.packets ++ [p], nextEngine := 1 - e })
          match pktBad s p with
          | some i => packetFault s p 0x0C i
          | none => post s pid (pktName op))
    | _, _ => s

/-- The unit that executes is a copy queue from which a packet is taken. -/
def takesPacket (s : State) : Bool := 2 ^ 40 ≤ s.cur

/-- A step of the packet that the unit names, or the taking of a packet. -/
def packetStep (s : State) (op : Nat) (run : State → Packet → State) : State :=
  if takesPacket s then takePacket s op
  else match packetOf s s.cur with
    | none => s
    | some p => if pktOp p != op || p.finished then s else if (homeAt s p.home).paused then repost s pollCycles s.cur (pktName op)
      else run s p

/-- After one row: the next, or the end of the packet's work. -/
def rowDone (s : State) (p : Packet) (k rows : Nat) : State :=
  let p := { p with row := p.row + 1, commits := p.commits + k, finished := decide (rows ≤ p.row + 1) }
  let s := settlePacket s p
  if p.finished then s else post s p.pid (pktName (pktOp p))

/-- Write one row's bytes, and go on. -/
def writeRow (s : State) (p : Packet) (ptr : Word) (bs : List Byte) (rows idx : Nat) : State :=
  match pktWrite s p ptr bs (barrierKey s p) idx with
  | .retry => repost (askOperand s p.asid ptr bs.length true) pollCycles p.pid (pktName (pktOp p))
  | .fault r d s => packetFault s p r d
  | .ok k s => rowDone s p k rows

/-- Read, then go on; a read that must wait is tried again. -/
def readThen (s : State) (p : Packet) (ptr : Word) (n idx : Nat) (k : List Byte → State → State) : State :=
  match pktRead s p ptr n idx with
  | .retry => repost (askOperand s p.asid ptr n false) pollCycles p.pid (pktName (pktOp p))
  | .fault r d s => packetFault s p r d
  | .ok bs s => k bs s

/-- R392: COPY, a row each step. -/
def execPktCopy (s : State) : Res :=
  .next (packetStep s 1 (fun s p =>
    let i : Int := p.row
    readThen s p (offsetPtr (wordAt p.words 1) (i * srcStride p)) (pktLen p) 1 (fun bs s =>
      writeRow s p (offsetPtr (wordAt p.words 2) (i * dstStride p)) bs (pktRows p) 2)))

/-- R392: FILL, a row each step. -/
def execPktFill (s : State) : Res :=
  .next (packetStep s 5 (fun s p =>
    let i : Int := p.row
    writeRow s p (offsetPtr (wordAt p.words 2) (i * dstStride p))
      ((List.replicate (pktLen p / 8) (wordBytes (wordAt p.words 1))).flatten) (pktRows p) 2))

/-! ## Parameter blocks (R393) -/

def blockOk (ws : List Word) : Bool :=
  fld (wordAt ws 0) 55 0 == 0 && fld (wordAt ws 2) 31 0 % 8 == 0 && fld (wordAt ws 2) 31 0 ≤ 4096
    && wordAt ws 5 == 0 && wordAt ws 6 == 0 && wordAt ws 7 == 0

/-- The block of a packet, from the engine's cache or read once; it is kept in the packet. -/
def withBlock (s : State) (p : Packet) (k : State → Packet → State) : State :=
  if !p.table.isEmpty then k s p
  else
    let w := wordAt p.words 6
    let put : State → List Word → State := fun s ws =>
      let p := { p with table := ws }
      let s := modHome (setPacket s p) p.home (fun h =>
        let mine := (h.params.filter (fun e => !(e.1 == p.engine && e.2.1 == w))).filter (fun e => e.1 == p.engine)
        { h with params := (p.engine, w, ws) :: mine.take 255 ++ h.params.filter (fun e => e.1 != p.engine) })
      if blockOk ws then k s p else packetFault s p 0x0C 6
    match (homeAt s p.home).params.find? (fun e => e.1 == p.engine && e.2.1 == w) with
    | some e => put s e.2.2
    | none => readThen s p (BitVec.ofNat 64 (fld w 55 6 * 64)) 64 6 (fun bs s =>
        let ws := wordsOf bs
        if fld (wordAt ws 0) 63 56 != fld w 63 56 then packetFault s p 0x09 0 else put s ws)

/-- The table row of element `i` of a gather or scatter; nothing when the count is reached. -/
def withIndex (s : State) (p : Packet) (k : State → Word → Nat → Nat → State) : State :=
  let count := fld (wordAt p.table 2) 63 32
  let size := fld (wordAt p.table 2) 31 0
  if p.row ≥ count then settlePacket s { p with finished := true }
  else readThen s p (wordAt p.table 1 + BitVec.ofNat 64 (4 * p.row)) 4 6 (fun bs s =>
    k s (wordAt p.table 3 + BitVec.ofNat 64 (leNat bs) * wordAt p.table 4) size count)

/-- R392: GATHER, an element each step. -/
def execPktGather (s : State) : Res :=
  .next (packetStep s 3 (fun s p => withBlock s p (fun s p => withIndex s p (fun s row size count =>
    readThen s p row size 6 (fun bs s => writeRow s p (wordAt p.words 2 + BitVec.ofNat 64 (p.row * size)) bs count 2)))))

/-- R392: SCATTER, an element each step. -/
def execPktScatter (s : State) : Res :=
  .next (packetStep s 4 (fun s p => withBlock s p (fun s p => withIndex s p (fun s row size count =>
    readThen s p (wordAt p.words 1 + BitVec.ofNat 64 (p.row * size)) size 1 (fun bs s => writeRow s p row bs count 6)))))

/-! ## FIFO slots (R388, R392, R394) -/

/-- Write bytes into the slot at a FIFO's write position and publish it: the sectors written. `retry`: the FIFO is full. -/
def fifoPut (s : State) (cl h : Nat) (bs : List Byte) : Eng Nat :=
  let f := fifoRead s cl h
  if h > 31 || !f.valid || f.prodThreads then .fault 0x04 h s
  else if bs.length > f.size then .fault 0x0C 3 s
  else if fifoFilled f ≥ f.count then .retry
  else
    let off := f.base + f.wpos.toNat % f.count * f.size
    .ok (sectorCount off bs.length) (fifoAdvance (putRaw s (keyCluster cl off) bs) cl h 1 true)

/-- The rows of a packet, back to back. -/
def readRows (s : State) (p : Packet) : Nat → Eng (List Byte)
  | 0 => .ok [] s
  | n + 1 => match readRows s p n with
    | .ok bs s => (match pktRead s p (offsetPtr (wordAt p.words 1) (n * srcStride p)) (pktLen p) 1 with
      | .ok more s => .ok (bs ++ more) s
      | x => x)
    | x => x

/-- R182: the recalls that the rows of a packet need. -/
def askRows (s : State) (p : Packet) (n : Nat) : State :=
  (List.range n).foldl (fun t (i : Nat) => askOperand t p.asid (offsetPtr (wordAt p.words 1) ((i : Int) * srcStride p)) (pktLen p) false) s

/-- R392: TOFIFO. The FIFO's party and the size of the slot are found before the source is read. -/
def execPktTofifo (s : State) : Res :=
  .next (packetStep s 2 (fun s p =>
    let cl := fld (wordAt p.words 2) 63 52
    let h := fld (wordAt p.words 2) 47 40
    let f := fifoRead s cl h
    if h > 31 || !f.valid || f.prodThreads then packetFault s p 0x04 h
    else if pktRows p * pktLen p > f.size then packetFault s p 0x0C 3
    else match readRows s p (pktRows p) with
      | .retry => repost (askRows s p (pktRows p)) pollCycles p.pid .pktTofifo
      | .fault r d s => packetFault s p r d
      | .ok bs s' => match fifoPut s' cl h bs with
        | .retry => repost s pollCycles p.pid .pktTofifo
        | .fault r d s => packetFault s p r d
        | .ok n s =>
          let q := landSectors s (barrierKey s' p) n
          if q.2 then settlePacket q.1 { p with finished := true } else packetFault q.1 p 0x11 0xFF))

/-! ## Chains (R394) -/

/-- The first word that makes a chain table malformed. -/
def chainBad (t : List Word) : Option Nat :=
  let n := (wordAt t 0).toNat
  if n = 0 ∨ n > 7 then some 0
  else ((List.range n).map (· + 1)).find? (fun i => fld (wordAt t i) 38 22 != 0)

/-- R392, R394: CHAIN: the table and the source are read once, and the first hop follows. -/
def execPktChain (s : State) : Res :=
  .next (packetStep s 6 (fun s p =>
    readThen s p (wordAt p.words 7) 64 7 (fun tb s =>
      let t := wordsOf tb
      match chainBad t with
      | some i => packetFault s p 0x0B i
      | none => readThen s p (wordAt p.words 1) (pktLen p) 1 (fun bs s =>
          post (setPacket s { p with table := t, data := bs }) p.pid (.chainHop p.pid 0)))))

/-- R394: the barrier that a hop word names; an error when it does not fit its window. -/
def hopBarrier (w : Word) : Except Unit (Option Nat) :=
  let cl := fld w 63 52
  let off := fld w 20 0
  if !bit w 39 then .ok none
  else
    let size := if bit w 21 then Config.scratchSize (cl / 64) else Config.clusterSize (cl / 64)
    if off % 16 ≠ 0 ∨ off + 16 > size then .error ()
    else .ok (some (if bit w 21 then keyScratch (cl * 8 + fld w 50 48) off else keyCluster cl off))

/-- R394: one hop receives the bytes: its barrier, and the sectors that it has still to count. -/
def hopPut (s : State) (w : Word) (bs : List Byte) (hop : Nat) : Eng (Option Nat × Nat) :=
  let cl := fld w 63 52
  let n := fld w 47 40
  if !placeExists s (cl / 64) (cl % 64) 0 then .fault 0x0B (hop + 1) s
  else match hopBarrier w with
    | .error _ => .fault 0x0B (hop + 1) s
    | .ok bar =>
      if !bit w 51 then (match fifoPut s cl n bs with
        | .ok k s => .ok (bar, k) s
        | .fault r d s => .fault r d s
        | .retry => .retry)
      else
        let x : Sram := { core := some (cl * 8 + fld w 50 48), cl := cl, off := 4096 * n, size := Config.scratchSize (cl / 64) }
        if x.off + bs.length > x.size then .fault 0x0C 3 s
        else match sramWrite s x bs bar false with
          | .ok _ s => .ok (bar, sectorCount x.off bs.length) s
          | .fault r d s => .fault r d s
          | .retry => .retry

/-- CHAIN_HOP: the hop has the bytes, forwards them, and then counts its sectors. A count that faults is reported, and drops no bytes that
have been forwarded. -/
def execChainHop (pid hop : Nat) (s : State) : Res :=
  match packetOf s pid with
  | none => .next s
  | some p =>
    if pktOp p != 6 || p.table.isEmpty || p.finished then .next s
    else
      let n := (wordAt p.table 0).toNat
      .next (match hopPut s (wordAt p.table (hop + 1)) p.data hop with
        | .retry => repost s pollCycles s.cur (.chainHop pid hop)
        | .fault r d s => packetFault s p r d
        | .ok b s =>
          let more := hop + 1 < n
          let q := landSectors (if more then post s s.cur (.chainHop pid (hop + 1)) else s) b.1 b.2
          if q.2 then (if more then q.1 else settlePacket q.1 { p with finished := true })
          else if more then engineEvent q.1 p.asid p.slot 0x11 0xFF (p.words.take 4)
          else packetFault q.1 p 0x11 0xFF)

/-! ## ENGINE_COMMIT (R128, R163, R296) -/

/-- An engine commit is complete: its sectors are counted, and its command or packet knows. -/
def engineCommitDone (s : State) (c : Commit) : State :=
  let q := landSectors s c.barrier c.sectors
  let s := q.1
  let s := match c.core with
    | some core => (match (coreAt s core).cmds with
      | d :: _ =>
        if d.num != c.num then s
        else
          let d := { d with commits := d.commits - 1 }
          let s := setHeadCmd s core d
          let s := if q.2 then s else cmdFaulted s d 0x11 0xFF
          if d.begun && totalSteps d ≤ d.done && d.commits = 0 then post s core .commandComplete else s
      | [] => s)
    | none => s
  match c.pid.bind (packetOf s) with
  | some p =>
    let p := { p with commits := p.commits - 1 }
    if q.2 then settlePacket s p else packetFault s p 0x11 0xFF
  | none => s

/-- Commits that an engine or the I/O die makes are applied whole, at one point of package order. -/
def applyStores (s : State) (c : Commit) : State := c.stores.foldl (fun t st => hwCommit t c.w st.pa st.bytes) s

/-- A commit record is done with: its arbiters end it (R105). -/
def closeCommit (s : State) (cid : Nat) (c : Commit) : State :=
  let s := { s with commits := tblDel s.commits cid }
  c.granted.foldl (fun t arb => endAtArb t cid (2 ^ 18) arb) s

/-- The lines of a commit that hosts hold. -/
def linesOf (s : State) (c : Commit) : List Nat := dedup ((c.stores.map (fun t => hostTouched s t.pa t.bytes.length)).flatten)

/-- R106, R204, R210, R306: a granted commit of an engine or the I/O die waits at its home: the home is paused, a commit that came before
is not applied yet, or the region is in transition or lost. -/
def plainWaits (s : State) (c : Commit) : Bool :=
  c.stores.any (fun t => unapplied s t.pa || (homeAt s (t.pa / 2 ^ 37)).paused || (isHbm t.pa && (keyRegions t.pa t.bytes.length).any (fun r =>
    transient (dirAt s (r / 2 ^ 28) r).state || (dirAt s (r / 2 ^ 28) r).lost)))

/-- ENGINE_COMMIT: the last grant has arrived. Lines that hosts hold are asked back first (R296). -/
def execEngineCommit (s : State) : Res :=
  match tblFind s.commits s.cur with
  | none => .next s
  | some c =>
    if c.kind != .engine then .next s
    else match c.ask with
      | a :: _ => .next (postOnce s 0 (.grantRequest a s.cur))
      | [] =>
        let lines := linesOf s c
        if !lines.isEmpty then .next (askLines s s.cur c lines)
        else if plainWaits s c then .next (repost s pollCycles s.cur .engineCommit)
        else .next (engineCommitDone (closeCommit (applyStores s c) s.cur c) c)

end Sys2Proof.Machine
end

