-- ==== Sys2Proof/Machine/Io.lean ====
section
/-! DEFINITION. The I/O die (spec/07 R130–R132, spec/17 R288–R298, R403): inbound requests of hosts and peers, lines that
hosts hold, MSI-X, message ports, and the completions of system-scope accesses. A requester is [14:11] port (0–3 host port,
8–15 link), [10:0] function (R294); 2^15 more marks a CXL.mem request. -/

namespace Sys2Proof.Machine

def reqPort (req : Nat) : Nat := req / 2 ^ 11 % 16
def reqFn (req : Nat) : Nat := req % 2 ^ 11
def reqCxl (req : Nat) : Bool := req / 2 ^ 15 % 2 == 1

/-- R298: whose order a request keeps: the host port with its function, or the link, whether it came through BAR2 or CXL.mem. -/
def reqOrder (req : Nat) : Nat := req % 2 ^ 15

/-- R289: the virtual function that makes a request. -/
def reqVf (req : Nat) : Option Nat :=
  if !reqCxl req && reqPort req < 8 && 1 ≤ reqFn req then some (reqFn req) else none

/-! ## Which device address a request names (R288, R289) -/

/-- R290: a virtual function's range. -/
def vfRange (s : State) (f : Nat) : Nat × Nat :=
  ((bar0Get s (0x1100 + 16 * (f - 1))).toNat, (bar0Get s (0x1108 + 16 * (f - 1))).toNat)

/-- R290: where BAR2 of a physical function begins. -/
def bar2Base (s : State) : Nat := (bar0Get s 0x1008).toNat

/-- R289: the size of BAR2 of a host port's physical function. -/
def bar2Size (s : State) (port : Nat) : Nat := 2 ^ (s.io.bar2.toList.getD port 30)

/-- R289: the package physical address that offset `a` of a requester's window names: BAR2 of a physical function begins at W,
that of a virtual function at its base; CXL.mem and links name package addresses. -/
def devAddr (s : State) (req a : Nat) : Nat :=
  if reqCxl req || 8 ≤ reqPort req then a
  else match reqVf req with
    | some f => (vfRange s f).1 + a
    | none => bar2Base s + a

/-- R295: one of the four HDM decoders gives the address to the host that asks. -/
def hdmOk (s : State) (req pa : Nat) : Bool :=
  (s.io.hdm.take 4).any (fun d => d.host == reqOrder req && d.base ≤ pa && pa < d.base + d.size)

/-- R178, R288, R289, R295, R303: the byte may be reached by the requester. -/
def devOk (s : State) (req pa : Nat) : Bool :=
  s.io.verified && pa < 2 ^ 41 && !beyondHome s pa
    && (if reqCxl req then hdmOk s req pa
        else if 8 ≤ reqPort req then true
        else match reqVf req with
          | some f => f ≤ 64 && s.io.vfs.contains f && decide (pa < (vfRange s f).2)
          | none => decide (pa < bar2Base s + bar2Size s (reqPort req)))

/-- R132: the write may ask for its commit: with Relaxed Ordering at once, else once every earlier write of its requester has
been acknowledged. -/
def mayAsk (s : State) (x : Inbound) : Bool :=
  !x.asked && (x.ro || !(s.io.inbound.any (fun y => reqOrder y.req == reqOrder x.req && y.id < x.id)))

/-- R109, R182: the W of a write of device memory by a unit that is no chunk: the sectors of its bytes under every name. -/
def sectorSig (s : State) (runs : List (Nat × List Byte)) : BitVec 1024 :=
  runs.foldl (fun acc r => acc ||| nameSig s (sectorsOf r.1 r.2.length).1 (sectorsOf r.1 r.2.length).2) 0

/-- Ask for the I/O commit of a write that lies in one region. -/
def askInbound (s : State) (x : Inbound) : State :=
  let region := (x.cells.head?.map (fun e => e.1)).getD 0 / 512
  let runs := runsOf x.cells
  let s := modIo s (fun io => { io with inbound := io.inbound.map (fun y => if y == x then { y with asked := true } else y) })
  let home := region / 2 ^ 28
  let c : Commit := { freshCommit .io 0 with
    num := x.id, req := x.req, w := sectorSig s runs, ask := [home],
    stores := runs.map (fun r => { space := .hc, asid := 0, va := 0, pa := r.1, bytes := r.2 }) }
  askCommit s c (.grantRequest home s.nextCommit)

/-- Every write that may ask now does. -/
def pumpInbound (s : State) : State :=
  (s.io.inbound.filter (mayAsk s)).foldl askInbound s

/-- The cells of one region. -/
def regionCells (cells : List (Nat × Byte)) : List (List (Nat × Byte)) :=
  (dedup (cells.map (fun e => e.1 / 512))).map (fun r => cells.filter (fun e => e.1 / 512 == r))

/-- R288: the longest payload of a write. -/
def maxPayload : Nat := 512

/-- R289, R298: an inbound write to device memory: a write that reaches outside its range, or that no port carries, is dropped. -/
def memWrite (s : State) (req : Nat) (ro : Bool) (cells : List (Nat × Byte)) : State :=
  let cells := cells.map (fun e => (devAddr s req e.1, e.2))
  if cells.length ≤ maxPayload && cells.all (fun e => devOk s req e.1) then
    let id := s.io.nextInbound
    let parts := (regionCells cells).map (fun cs => { id := id, req := req, ro := ro, cells := cs, asked := false : Inbound })
    pumpInbound (modIo s (fun io => { io with inbound := io.inbound ++ parts, nextInbound := id + 1 }))
  else s

/-- IO_COMMIT: the write appears at one point of package order, and is acknowledged. -/
def execIoCommit (s : State) : Res :=
  match tblFind s.commits s.cur with
  | none => .next s
  | some c =>
    if c.kind != .io then .next s
    else match c.ask with
      | a :: _ => .next (postOnce s 0 (.grantRequest a s.cur))
      | [] =>
        let lines := linesOf s c
        if !lines.isEmpty then .next (askLines s s.cur c lines)
        else if plainWaits s c then .next (repost s pollCycles s.cur .ioCommit)
        else
          let w := c.w ||| sectorSig s (c.stores.map (fun t => (t.pa, t.bytes)))
          let region := (c.stores.head?.map (fun t => t.pa)).getD 0 / 512
          let s := closeCommit (applyStores s { c with w := w }) s.cur c
          let s := modIo s (fun io => { io with inbound := io.inbound.filter (fun x =>
            !(x.id == c.num && x.asked && (x.cells.head?.map (fun e => e.1)).getD 0 / 512 == region)) })
          .next (pumpInbound s)

/-! ## Inbound reads and AtomicOps (R132, R288, R296) -/

/-- R132: writes of the requester that are not yet visible. -/
def reqWaits (s : State) (req : Nat) : Bool := s.io.inbound.any (fun x => reqOrder x.req == reqOrder req)

/-- R204, R209, R306: a request for `n` bytes at a device address waits at the home. -/
def deviceHeld (s : State) (a n : Nat) : Bool :=
  (homeAt s (a / 2 ^ 37)).paused || (wordsTouched a n).any (unapplied s) || (keyRegions a n).any (regionHeld s)

/-- R132, R289, R296: an inbound read of device memory. None: it waits. A CXL.mem read leaves its lines with the host. -/
def memRead (s : State) (req pa n : Nat) : Option State :=
  let a := devAddr s req pa
  if !(devOk s req a && devOk s req (a + n - 1) && n ≤ 4096) then some (answer s (.unsupported req))
  else if reqWaits s req || deviceHeld s a n then none
  else
    let s := (keyRegions a n).foldl cpHome s
    let held := ((List.range ((a + n - 1) / 64 - a / 64 + 1)).map (fun i => (a / 64 + i, req))).foldl
      (fun l x => if l.contains x then l else l ++ [x]) s.io.hostLines
    let s := if reqCxl req then modIo s (fun io => { io with hostLines := held }) else s
    some (answer s (.read req (memBytes s.mem a n)))

/-- R288, R152: one read-modify-write at the home, with a grant; the old value is returned. -/
def atomicOp (s : State) (req pa n : Nat) (again : Instr) (f : Nat → Option Nat) : State :=
  let a := devAddr s req pa
  if !(devOk s req a && (n = 4 || n = 8) && a % n = 0) then answer s (.unsupported req)
  else
    let w := nameSig s a n
    if reqWaits s req || refuses s (a / 2 ^ 37) none w w || deviceHeld s a n then repost s pollCycles s.cur again
    else
      let s := gather s a n
      let old := leNat (memBytes s.mem a n)
      let s := match f old with
        | some x => commitBytes s w a (natBytes n x)
        | none => s
      answer s (.atomic req (BitVec.ofNat 64 old))

def execAtomicopFetchadd (req pa n : Nat) (x : Word) (s : State) : Res :=
  .next (atomicOp s req pa n (.atomicopFetchadd req pa n x) (fun old => some ((old + x.toNat) % 2 ^ (8 * n))))

def execAtomicopSwap (req pa n : Nat) (x : Word) (s : State) : Res :=
  .next (atomicOp s req pa n (.atomicopSwap req pa n x) (fun _ => some (x.toNat % 2 ^ (8 * n))))

/-- CAS: `x` is compared, `y` stored. -/
def execAtomicopCas (req pa n : Nat) (x y : Word) (s : State) : Res :=
  .next (atomicOp s req pa n (.atomicopCas req pa n x y) (fun old =>
    if old = x.toNat % 2 ^ (8 * n) then some (y.toNat % 2 ^ (8 * n)) else none))

/-! ## Back-invalidates (R296) -/

/-- BACK_INVALIDATE: the request leaves the package; the host's answer will come, at a time that has no bound. -/
def execBackInvalidate (line cid : Nat) (s : State) : Res :=
  .next (postIn (answer s (.backInvalidate line)) (Config.choose s.tick 60) 0 (.backInvalidateAnswer line cid (returnedLine s line)))

/-- BACK_INVALIDATE_ANSWER: the returned line is applied before the commit's words, and the commit goes on once every line has
been answered. -/
def execBackInvalidateAnswer (line cid : Nat) (cells : List (Nat × Byte)) (s : State) : Res :=
  let s := lineBack s line cells
  match tblFind s.commits cid with
  | none => .next s
  | some c =>
    let c := { c with lines := c.lines.filter (· != line) }
    let s := { s with commits := tblSet s.commits cid c }
    if !c.lines.isEmpty then .next s
    else match c.kind with
      | .engine => .next (post s cid .engineCommit)
      | .io => .next (post s cid .ioCommit)
      | .chunk => .next (if c.point && c.homes.isEmpty && c.fwd.isEmpty then post s cid .commitComplete else s)

/-! ## The I/O-die cache of host memory (R295) -/

/-- CXL_CACHE_SNOOP: the unit is a 64-byte line of host memory; what the I/O-die cache holds of it is returned and dropped. -/
def execCxlCacheSnoop (s : State) : Res :=
  .next (answer (modIo s (fun io => { io with cxlCells := io.cxlCells.filter (fun c => c.1 / 64 != s.cur) }))
    (.snoopAnswer s.cur (cxlLine s s.cur)))

/-! ## MSI-X (R293, R403) -/

/-- R403: a share word: first package vector and count. -/
def share (s : State) (i : Nat) : Nat × Nat :=
  let w := bar0Get s (0x1500 + 8 * i)
  (fld w 42 32, fld w 11 0)

def inShare (s : State) (i pv : Nat) : Bool := (share s i).1 ≤ pv && pv < (share s i).1 + (share s i).2

/-- R291, R403: the share word of the function that an ASID is assigned to. -/
def shareOf (s : State) (asid : Nat) : Nat :=
  let f := fld (asidWord s asid 0x30) 6 0
  if f = 0 then 0 else 3 + f

/-- R403: the package vector that an ASID's vector names; none when it lies beyond the share. -/
def packageVector (s : State) (asid : Nat) : Option Nat :=
  let i := shareOf s asid
  let v := fld (asidWord s asid 0x10) 42 32
  let pv := (share s i).1 + v
  if v < (share s i).2 && pv < 2048 && (List.range i).all (fun j => !inShare s j pv) then some pv else none

/-- R403: where word `w` of entry `v` of a function's MSI-X table is kept; `i` is the function's share word. The mask bit,
[32] of word 1, is kept inverted: at reset an entry is masked (PRESUMED of PCI Express, log 20). -/
def msixOff (i v w : Nat) : Nat := 2 ^ 32 * (i + 1) + 16 * v + 8 * w

/-- R403: the ASID's vector is masked in its function's table. -/
def masked (s : State) (asid : Nat) : Bool :=
  !bit (bar0Get s (msixOff (shareOf s asid) (fld (asidWord s asid 0x10) 42 32) 1)) 32

/-- MSIX_SEND: the unit is an ASID with a record to announce. One vector sends at most once a microsecond, and its message covers every
record that waits for it. -/
def execMsixSend (s : State) : Res :=
  let asid := s.cur
  let drop : State → State := fun s => modIo s (fun io => { io with pendingMsix := io.pendingMsix.filter (· != asid) })
  let sent : State → Nat → State := fun t pv => modIo (answer t (.msix pv)) (fun io => { io with
    pendingMsix := io.pendingMsix.filter (fun a => packageVector s a != some pv), lastSent := tblSet io.lastSent pv s.now })
  if !(s.io.pendingMsix.contains asid) then .next s
  else if !bit (asidWord s asid 0x10) 63 then .next (drop s)
  else match packageVector s asid with
    | none => .next (drop s)
    | some pv =>
      if masked s asid then .next s
      else match tblFind s.io.lastSent pv with
        | some t =>
          if t + Config.cycles1us ≤ s.now then
            .next (sent s pv)
          else .next (repost s (t + Config.cycles1us - s.now) asid .msixSend)
        | none => .next (sent s pv)

/-! ## Ownership (R304, R305) -/

/-- R304: a requester that the flash configuration may make a master: a host port's physical function or a host behind a CXL switch. -/
def mayMaster (req : Nat) : Bool := reqPort req < 4 && (reqVf req).isNone

/-- R304: the requesters are one: a physical function's requests are its host's, whether they come as PCI Express or as CXL (log 40). -/
def sameHost (a b : Nat) : Bool := a == b || (reqFn a == 0 && reqOrder a == reqOrder b)

/-- R304: the master id of a writer. Virtual functions and peers are never masters. -/
def masterOf (s : State) (w : Nat) : Option Nat :=
  if w = 0 then some 0
  else
    let ids := s.io.flash.masters.filter (fun p => 1 ≤ p.1 && p.1 < 8 && mayMaster p.2)
    if w < 8 then (if ids.any (fun p => p.1 == w) then some w else none)
    else if !mayMaster (w - 8) then none
    else (ids.find? (fun p => sameHost p.2 (w - 8))).map (fun p => p.1)

/-- R304: the requester of a writer. -/
def reqOf (s : State) (w : Nat) : Option Nat :=
  if 8 ≤ w then some (w - 8) else (s.io.flash.masters.find? (fun p => p.1 == w && mayMaster p.2)).map (fun p => p.2)

/-- R305: a master owns the package from cycle `t`, for one second. -/
def owning (o : Ownership) (id : Nat) (nonce : BitVec 32) (t : Nat) : Ownership :=
  { o with held := true, stale := false, owner := id, nonce := nonce, staleAt := t + Config.cycles1s, window := none, claims := [] }

/-- R305: the winner of an election: the lowest id among the claimants. -/
def winner : List (Nat × BitVec 32) → Option (Nat × BitVec 32)
  | [] => none
  | c :: cs => some (cs.foldl (fun m x => if x.1 < m.1 then x else m) c)

/-- R305: the registers at a cycle: an election window that has run for 10 ms is closed, and an owner of whom 1 s has heard nothing is
stale; DEDUCED (log 21): the second of an owner that an election makes begins at the close of its window. -/
def ownershipAt (o : Ownership) (now : Nat) : Ownership :=
  let o := match o.window with
    | some t => if t + Config.cycles10ms ≤ now then (match winner o.claims with
        | some w => owning o w.1 w.2 (t + Config.cycles10ms)
        | none => { o with window := none }) else o
    | none => o
  { o with stale := o.stale || (o.held && decide (o.staleAt ≤ now)) }

/-- The ownership registers now. -/
def ownership (s : State) : Ownership := ownershipAt s.io.ownership s.now

def putOwnership (s : State) (o : Ownership) : State := modIo s (fun io => { io with ownership := o })

/-! ## Who may write (R290, R303–R305) -/

/-- R305: every write of a stale owner other than a claim is dropped. -/
def ownerOk (s : State) (w : Nat) : Bool :=
  let o := ownership s
  o.held && !o.stale && masterOf s w == some o.owner

/-- R305: the writer is an owner that has become stale. DEDUCED (log 21): what such a writer may do as the function of an ASID is
dropped as well. -/
def staleOwner (s : State) (w : Nat) : Bool :=
  let o := ownership s
  o.held && o.stale && masterOf s w == some o.owner

/-- R303: without a configuration the I/O die serves only the platform block: no other register has an owner. -/
def ownerMay (s : State) (w : Nat) : Bool := s.io.verified && ownerOk s w

/-- R291: the function that the ASID is assigned to makes the request. -/
def assignedReq (s : State) (asid req : Nat) : Bool :=
  let w := asidWord s asid 0x30
  bit w 63 && !reqCxl req && reqPort req < 4 && reqFn req == fld w 6 0

/-- R290: the owner, or the function that the ASID is assigned to. -/
def asidMay (s : State) (w asid : Nat) : Bool :=
  ownerMay s w || (s.io.verified && !staleOwner s w && (reqOf s w).any (assignedReq s asid))

/-! ## Message ports (R294) -/

/-- R290, R294: a peer, the owner, or the function that the ASID is assigned to. -/
def portOpen (s : State) (asid req : Nat) : Bool :=
  asidMay s (8 + req) asid || (s.io.verified && decide (8 ≤ reqPort req))

def stagingOf (s : State) (asid req : Nat) : List (Nat × Word) :=
  match s.io.staging.find? (fun b => b.asid == asid && b.req == req) with
  | some b => b.words
  | none => []

def setStaging (s : State) (asid req : Nat) (ws : List (Nat × Word)) : State :=
  let others := s.io.staging.filter (fun b => !(b.asid == asid && b.req == req))
  let mine := if ws.isEmpty then [] else [{ asid := asid, req := req, words := ws }]
  modIo s (fun io => { io with staging := others ++ mine })

/-- R294: staging word `j` is written. -/
def portWord (s : State) (asid req j : Nat) (x : Word) : State :=
  if !portOpen s asid req || j = 0 || j > 7 then s
  else setStaging s asid req ((stagingOf s asid req).filter (fun p => p.1 != j) ++ [(j, x)])

/-- MESSAGE_PORT_WORD. -/
def execMessagePortWord (asid req j : Nat) (x : Word) (s : State) : Res := .next (portWord s asid req j x)

/-- R294: word 0 completes the message. -/
def portSend (s : State) (asid req : Nat) (x : Word) : State :=
  if !portOpen s asid req then s
  else
    let st := stagingOf s asid req
    let hdr := headerSet x 0 (0x8000 + req % 2 ^ 15)
    let msg := hdr :: (List.range 7).map (fun i => match st.find? (fun p => p.1 == i + 1) with
      | some p => p.2
      | none => 0)
    let s := setStaging s asid req []
    let h := fld (asidWord s asid 0x38) 11 0
    if !headerOk hdr true false then badEvent s asid 2 0 (BitVec.ofNat 64 h) msg
    else deliver s { loc := none, src := some (2 ^ 18 + req), die := none, asid := asid, handle := h, desc := 0, msg := msg, route := none, via := none,
                     slot := none, words := [], since := s.now, stallPosted := false, port := true, event := false }

/-- MESSAGE_PORT_SEND. -/
def execMessagePortSend (asid req : Nat) (x : Word) (s : State) : Res := .next (portSend s asid req x)

/-! ## SYSTEM_SCOPE_COMPLETION (R130) -/

/-- R295, R297: the access is to host memory, and not to an I/O page: the I/O-die cache serves it. -/
def cxlServes (op : SysOp) : Bool := cxlServed op.io op.addr

/-- What the cache keeps of an access, and the value of a read, which is the cache's where it holds the bytes. -/
def cxlAccess (s : State) (op : SysOp) (x : Word) : State × Word :=
  if !cxlServes op then (s, x)
  else if op.write then (cxlPut s op.addr op.bytes, x)
  else match cxlGet s op.addr op.n with
    | some bs => (cxlPut s op.addr bs, BitVec.ofNat 64 (leNat bs))
    | none => (cxlPut s op.addr (natBytes op.n x.toNat), x)

/-- The access is answered: a read has its data, a write is acknowledged, and the thread goes on. -/
def execSystemScopeCompletion (id : Nat) (x : Word) (s : State) : Res :=
  match tblFind s.sysOps id with
  | none => .next s
  | some op =>
    let r := cxlAccess s op x
    let s := if op.write then
        modCtx { r.1 with sysOps := tblDel s.sysOps id } op.loc (fun c => { c with sysOut := c.sysOut.filter (· != id) })
      else { r.1 with sysOps := tblSet s.sysOps id { op with answer := some r.2 } }
    .next (wakeAll s (fun l c => l == op.loc && (match c.run with
      | .stalled (.sys _) => true
      | _ => false)))

end Sys2Proof.Machine
end

