-- ==== Sys2Proof/Machine/Module.lean ====
section
/-! DEFINITION. A Sprinny module's file (R63–R66): the header, the section table, and where the sections lie (R11). -/

namespace Sys2Proof.Machine

/-! ## The file -/

/-- The word at a byte offset of a file. -/
def fileWord (f : List Byte) (o : Nat) : Word := BitVec.ofNat 64 (leNat ((f.drop o).take 8))

/-- R63: magic, reserved fields, format version 1, and generation id 0x01 for native code. -/
def hdrOk (f : List Byte) : Bool :=
  let w := fileWord f 8
  decide (64 ≤ f.length) && fileWord f 0 == 0x4F4D5841 && fld w 63 32 == 0 && fld w 23 17 == 0 && fld w 15 0 == 1
    && fileWord f 48 == 0 && fileWord f 56 == 0 && (!bit w 16 || fld w 31 24 == 1)

/-- R63: the native bit. -/
def isNative (f : List Byte) : Bool := bit (fileWord f 8) 16

/-- R64: the section-table entry at a byte offset; none when a reserved field is not zero, or when the section does not lie in the
file. DESIGN CHOICE (log 28): an entry whose kind is not 1 to 7 is accepted, and its section is used for nothing. -/
def sectionAt (f : List Byte) (o : Nat) : Option Section :=
  let w := fileWord f (o + 8)
  let x : Section := { name := (fileWord f o).toNat, kind := fld w 7 0, start := (fileWord f (o + 16)).toNat, size := (fileWord f (o + 24)).toNat }
  if fld w 63 8 = 0 ∧ x.start + x.size ≤ f.length then some x else none

/-- `n` entries of the section table from an offset. -/
def sectionRows (f : List Byte) : Nat → Nat → Option (List Section)
  | 0, _ => some []
  | n + 1, o =>
    match sectionAt f o, sectionRows f n (o + 32) with
    | some x, some xs => some (x :: xs)
    | _, _ => none

/-- R63, R64: the section table; none when it does not lie in the file. -/
def sectionsOf (f : List Byte) : Option (List Section) :=
  let n := (fileWord f 16).toNat
  let o := (fileWord f 24).toNat
  if o + 32 * n ≤ f.length then sectionRows f n o else none

def sectionBytes (f : List Byte) (x : Section) : List Byte := (f.drop x.start).take x.size

/-- The bytes of all sections of a kind. -/
def kindBytes (f : List Byte) (xs : List Section) (kind : Nat) : List Byte :=
  ((xs.filter (fun x => x.kind == kind)).map (sectionBytes f)).flatten

/-- R65, R66: the 16-byte records of the sections of a kind. -/
def recordsOf (f : List Byte) (xs : List Section) (kind : Nat) : List (List Byte) :=
  let bs := kindBytes f xs kind
  runs 16 (bs.length / 16) bs

/-- R21: the bytes of a module's `.scratch` (kind 3) or `.cluster` (kind 4) image. -/
def imageBytes (m : Module) (kind : Nat) : List Byte :=
  match sectionsOf m.file with
  | some xs => kindBytes m.file xs kind
  | none => []

/-! ## Placement (R11) -/

/-- A section of a region at its VA. -/
structure Placed where
  num : Nat
  va : Nat
  region : Region
  sect : Section
deriving DecidableEq, Repr

/-- Each section starts on a fresh 64 KiB page. -/
def layFrom (r : Region) : Nat → List (Nat × Section) → List Placed
  | _, [] => []
  | va, (i, x) :: rest => { num := i, va := va, region := r, sect := x } :: layFrom r (va + (x.size + 65535) / 65536 * 65536) rest

/-- The sections of a kind that a region names. -/
def regionSects (xs : List Section) (r : Region) (kind : Nat) : List (Nat × Section) :=
  r.sects.filterMap (fun i => match nth xs i with
    | some x => if x.kind = kind then some (i, x) else none
    | none => none)

/-- R11: VA[55] = 1, VA[54:51] = home, VA[50:0] = at; `.text` before `.data`. -/
def layRegion (xs : List Section) (r : Region) : List Placed :=
  layFrom r (2 ^ 55 + r.home % 16 * 2 ^ 51 + r.base % 2 ^ 51) (regionSects xs r 1 ++ regionSects xs r 2)

/-- The placed sections of a module. -/
def layout (m : Module) : List Placed :=
  match sectionsOf m.file with
  | some xs => (m.regions.map (layRegion xs)).flatten
  | none => []

/-- R9: the value of a symbol; none for a label of a section that is not placed. -/
def symbolVa (lay : List Placed) : Symbol → Option Nat
  | .value x => some x.toNat
  | .label n o => (lay.find? (fun q => q.num == n)).map (fun q => q.va + o)

end Sys2Proof.Machine
end

