-- ==== Sys2Proof/Machine/Activation.lean ====
section
/-! DEFINITION. Starting a thread (R24, R37, R38, R234): the activation template, private slots, handler entries, module
images, the group record, and the state at activation. -/

namespace Sys2Proof.Machine

/-! ## The activation template (R37) -/

def tmSlots (t : List Word) : Nat := fld (wordAt t 3) 59 40
def tmSize (t : List Word) : Nat := fld (wordAt t 3) 39 0
/-- The low and the high offset of a template word. -/
def tmLo (t : List Word) (i : Nat) : Nat := fld (wordAt t i) 31 0
def tmHi (t : List Word) (i : Nat) : Nat := fld (wordAt t i) 63 32

/-- R37: the template is accepted. DEDUCED (log 16): a slot count of 0, or a slot size that is not a non-zero multiple of
64 KiB, is a reserved value and is refused. -/
def tmplOk (t : List Word) : Bool :=
  let w7 := wordAt t 7
  fld (wordAt t 2) 15 0 == 0 && fld (wordAt t 3) 63 60 == 0 && fld w7 63 41 == 0 && fld w7 39 37 == 0 && fld w7 31 29 == 0
    && fld w7 15 14 == 0 && 1 ≤ tmSlots t && tmSize t % 65536 == 0
    && [4, 5, 6].all (fun i => decide (tmLo t i < tmSize t) && decide (tmHi t i < tmSize t))
    && tmLo t 4 ≤ tmHi t 4 && tmLo t 5 ≤ tmHi t 5
    && tmLo t 6 % 128 == 0 && tmLo t 4 % 32 == 0 && tmHi t 4 % 32 == 0 && tmLo t 5 % 16 == 0 && tmHi t 5 % 16 == 0
    && tmHi t 6 % 8 == 0

/-- R220: the VA of a handler table entry, or none for one that is invalid, malformed or unreadable. -/
def handlerEntry (s : State) (asid h : Nat) : Hw (Option Nat) :=
  match hwRead s asid (tableVa s asid 0 h) 8 false with
  | .retry => .retry
  | .fault _ s => .ok none s
  | .ok bs s =>
    let e := BitVec.ofNat 64 (leNat bs)
    if bit e 63 && fld e 62 56 == 0 && fld e 1 0 == 0 then .ok (some (fld e 55 0)) s else .ok none s

/-- R37: the template of an ASID counts as refused: the event is posted once until a read is accepted. -/
def refuseTemplate (s : State) (asid va : Nat) : State :=
  if s.fox.refused.contains asid then s
  else badEvent (modFox s (fun f => { f with refused := asid :: f.refused })) asid 8 (BitVec.ofNat 64 va) 0 []

/-- R37: a read of the template is accepted. -/
def acceptTemplate (s : State) (asid : Nat) : State := modFox s (fun f => { f with refused := f.refused.filter (· != asid) })

/-- R37: read the template; none when it is refused. With `rec'` a group record must be written too before it is accepted. -/
def readTemplate (s : State) (asid : Nat) (rec' : Bool) : Hw (Option (Nat × List Word)) :=
  match handlerEntry s asid 0 with
  | .retry => .retry
  | .fault c s => .fault c s
  | .ok none s => .ok none (refuseTemplate s asid 0)
  | .ok (some va) s =>
    match recordRead s asid va 64 with
    | .retry => .retry
    | .fault _ s => .ok none (refuseTemplate s asid va)
    | .ok bs s =>
      let t := wordsOf bs
      if tmplOk t then .ok (some (va, t)) (if rec' then s else acceptTemplate s asid)
      else .ok none (refuseTemplate s asid va)

/-- R37: the `n` lowest-numbered free private slots of an ASID. -/
def freeSlots (s : State) (asid count n : Nat) : Option (List Nat) :=
  let taken := (s.fox.slots.filter (fun p => p.1 == asid)).map (fun p => p.2.1)
  let free := ((List.range (min count (taken.length + n))).filter (fun i => !taken.contains i)).take n
  if free.length = n then some free else none

/-- R37: `n` private slots and the accepted template; none when either is missing. -/
def takeSlots (s : State) (asid n : Nat) (rec' : Bool) : Hw (Option (Nat × List Word × List Nat)) :=
  if !bit (asidWord s asid 0) 63 then .ok none s
  else match readTemplate s asid rec' with
    | .retry => .retry
    | .fault c s => .fault c s
    | .ok none s => .ok none s
    | .ok (some (va, t)) s =>
      match freeSlots s asid (tmSlots t) n with
      | some slots => .ok (some (va, t, slots)) s
      | none => .ok none s

/-! ## Module images (R21, R24) -/

/-- The loaded module of whose `.handler` entries one has the entry VA. -/
def moduleOf (s : State) (asid entry : Nat) : Option Module :=
  s.modules.find? (fun m => m.loaded && m.asid == asid &&
    (let lay := layout m
     m.handlers.any (fun h => (symbolVa lay h.2).any (fun va => va % 2 ^ 56 == entry))))

/-- R24, R232: the images fit the core of context `l` and its cluster, and no tile that a copy would cover is E. -/
def imagesFit (s : State) (l : Nat) (m : Option Module) : Bool :=
  match m with
  | none => true
  | some m =>
    let sc := (imageBytes m 3).length
    let core := coreAt s (coreOf l)
    sc ≤ Config.scratchSize (dieOf l) && (imageBytes m 4).length ≤ Config.clusterSize (dieOf l)
      && (core.scratchOf == some m.mid || core.tilesE.all (fun t => sc ≤ t * 4096))

/-- R24: the module that the loader registered under a number. -/
def moduleById (s : State) (m : Option Nat) : Option Module := m.bind (fun i => s.modules.find? (fun x => x.mid == i))

/-- R241: the persistent regions on a core of the queues that it has run an activation of. -/
def keptOn (s : State) (core : Nat) : List (Nat × Nat) :=
  ((s.fox.bound.filter (fun b => b.2.core == core)).map (fun b => b.2.regions)).flatten

/-- R241: image bytes with those inside the kept ranges (offset, length) as they stand. -/
def keepBytes (s : State) (core : Nat) (keep : List (Nat × Nat)) : Nat → List Byte → List Byte
  | _, [] => []
  | o, b :: bs =>
    (if keep.any (fun k => k.1 ≤ o && o < k.1 + k.2) then memGet s.mem (keyScratch core o) else b) :: keepBytes s core keep (o + 1) bs

/-- R387: the descriptor that a `.fifo` directive writes. -/
def fifoWord (base size count : Nat) : Word := BitVec.ofNat 64 (2 ^ 63 + count * 2 ^ 40 + size * 2 ^ 21 + base)

/-- R24, R241: the images are copied to a core and a cluster that last received another module's; the persistent regions on the core
stand. DEDUCED (log 69): the `.fifo` descriptors are written with the `.cluster` image. -/
def copyImages (s : State) (l : Nat) (m : Option Module) : State :=
  match m with
  | none => s
  | some m =>
    let core := coreOf l
    let cl := clusterOf l
    let s := if (coreAt s core).scratchOf == some m.mid then s
      else
        let tiles := (m.tiles.map (fun t => (List.range t.2).map (fun i => t.1 + i))).flatten
        modCore (putRaw s (keyScratch core 0) (keepBytes s core (keptOn s core) 0 (imageBytes m 3))) core (fun c =>
          { c with scratchOf := some m.mid, tilesE := c.tilesE.filter (fun t => !tiles.contains t) })
    if (clusterAt s cl).clusterOf == some m.mid then s
    else
      let s := putRaw s (keyCluster cl 0) (imageBytes m 4)
      let s := m.fifos.foldl (fun t f =>
        putRaw t (fifoKey cl f.1) (wordBytes (fifoWord f.2.1 f.2.2.1 f.2.2.2) ++ List.replicate 24 0)) s
      modCluster s cl (fun c => { c with clusterOf := some m.mid })

/-! ## State at activation (R38) -/

/-- R38: k, v and m are zero, q(n − 1) is argument word n, and the PC is the handler's entry. -/
def activeRegs (msg : List Word) (pc : Nat) : Regs :=
  { qLoad initRegs (fun i => if i.val < 7 then wordAt msg (i.val + 1) else 0) with pc := BitVec.ofNat 64 pc }

/-- R34, R38: the control registers at activation in private slot `n`. -/
def activeCtl (asid n : Nat) (t : List Word) (hdr : Word) : Ctl :=
  let b := wordAt t 2 + BitVec.ofNat 64 (n * tmSize t)
  let at_ : Nat → Word := fun o => b + BitVec.ofNat 64 o
  let w7 := wordAt t 7
  { initCtl with
    status := 0, asid := BitVec.ofNat 64 asid, hdr := hdr, trapvec := wordAt t 0 &&& ~~~3, failvec := wordAt t 1 &&& ~~~3,
    tsave := at_ (tmLo t 6), chunklen := clampChunk w7, privbase := b, privlen := BitVec.ofNat 64 (tmSize t),
    choice := at_ (tmLo t 4), choicebase := at_ (tmLo t 4), choicelim := at_ (tmHi t 4),
    spoor := at_ (tmLo t 5), spoorbase := at_ (tmLo t 5), spoorlim := at_ (tmHi t 5),
    frame := at_ (tmHi t 6), framelen := clampFrame (BitVec.ofNat 64 (fld w7 28 16)),
    fpmode := BitVec.ofNat 64 (fld w7 36 32), replay := BitVec.ofNat 64 (fld w7 40 40) }

/-- R38, R382: the context as an activation starts it. It fetches words as they stand now (R144). -/
def activeCtx (c : Ctx) (r : Regs) (k : Ctl) (u : UnitInfo) (seq : Nat) : Ctx :=
  { initCtx with run := .ready, regs := r, ctl := k, unit := u, fenceSeq := seq, undelivered := c.undelivered, sysOut := c.sysOut }

/-- R240: the thread's budget runs from now. -/
def watchBudget (s : State) (l : Nat) : State :=
  match (ctxAt s l).unit.budget with
  | some b => postIn s (b + 1) l .taskHang
  | none => s

/-- The slot base of a template. -/
def slotBase (t : List Word) (n : Nat) : Nat := (wordAt t 2 + BitVec.ofNat 64 (n * tmSize t)).toNat

/-- R37: the Fox has given out private slot `n` of an ASID. -/
def giveSlot (s : State) (asid n : Nat) (t : List Word) : State :=
  modFox s (fun f => { f with slots := f.slots ++ [(asid, n, slotBase t n)] })

/-- The thread of `u` starts in context `l`, in private slot `n`. -/
def startThread (s : State) (l asid pc n : Nat) (t : List Word) (u : UnitInfo) : State :=
  let s := giveSlot { s with order := s.order + 1 } asid n t
  let u := { u with since := s.now }
  watchBudget (modCtx s l (fun c =>
    activeCtx c (activeRegs u.msg pc) (activeCtl asid n t (wordAt u.msg 0)) u s.order)) l

/-! ## One activation (R232, R234) -/

/-- How an attempt to start work in a context ends. -/
inductive Started where
  | ok (s : State)
  /-- R233: a gang that is eligible waits for clusters that other gangs are gathered on -/
  | held (s : State)
  /-- R220: the handler entry is invalid: the message is dropped, with its event -/
  | dropped (s : State)
  /-- the item stays where it was -/
  | no (s : State)

/-- R220: QUEUE_INVALID with reason 5 and the whole message. -/
def badHandler (s : State) (asid : Nat) (msg : List Word) : State :=
  let h := hIndex (wordAt msg 0)
  badEvent s asid 5 (BitVec.ofNat 64 (tableVa s asid 0 h)) (BitVec.ofNat 64 h) msg

/-- R37: a message that names handler index 0 is never dispatched: entry 0 is no handler entry (log 17). -/
def handlerOf (s : State) (asid : Nat) (msg : List Word) : Hw (Option Nat) :=
  if hIndex (wordAt msg 0) = 0 then .ok none s else handlerEntry s asid (hIndex (wordAt msg 0))

/-- R234: write a group record. None for an activation without one. -/
def writeRecord (s : State) (asid base : Nat) (rec' : Option (List Byte)) : Hw Unit :=
  match rec' with
  | none => .ok () s
  | some bs => hwWrite s asid base bs false

/-- R234: start one thread in context `l`. -/
def startMsg (s : State) (l asid : Nat) (u : UnitInfo) (rec' : Option (List Byte)) : Started :=
  match takeSlots s asid 1 rec'.isSome with
  | .retry => .no s
  | .fault _ s => .no s
  | .ok none s => .no s
  | .ok (some (va, t, slots)) s =>
    match handlerOf s asid u.msg with
    | .retry => .no s
    | .fault _ s => .no s
    | .ok none s => .dropped (badHandler s asid u.msg)
    | .ok (some pc) s =>
      let m := moduleOf s asid pc
      let n := slots.headD 0
      if !imagesFit s l m then .no s
      else match writeRecord s asid (slotBase t n) rec' with
        | .retry => .no s
        | .fault _ s => .no (refuseTemplate s asid va)
        | .ok _ s => .ok (startThread (copyImages (acceptTemplate s asid) l m) l asid pc n t { u with module := m.map (fun x => x.mid) })

/-! ## Idle contexts (R217, R232, R272) -/

/-- R307: the die is being retired and gets no new work. -/
def retiring (s : State) (die : Nat) : Bool := s.io.service == some (3, die)

/-- A context that asks for work: no thread, not reserved, on a core that exists and is not halted. -/
def idle (s : State) (l : Nat) : Bool :=
  (ctxAt s l).run == .dormant && placeExists s (dieOf l) (clusterOf l % 64) (coreOf l % 8) && !(coreAt s (coreOf l)).halted
    && !retiring s (dieOf l)

end Sys2Proof.Machine
end

