-- ==== Sys2Proof/Machine/Retire.lean ====
section
/-! DEFINITION. What follows retirement (R229, R230, R236, R239, R240, R260, R261): successor walks, decrements, group
completion, DUP comparison, hangs and barrier releases. -/

namespace Sys2Proof.Machine

/-! ## Successor walks (R229) -/

/-- The unit number of a walk. -/
def walkUnit (k : Nat) : Nat := 2 ^ 51 + k

/-- The detail of an event about the TCB itself. -/
def allOnes64 : Word := BitVec.allOnes 64

/-- Reason 9 about entry `i` of a TCB's list. -/
def badSuccessor (s : State) (asid : Nat) (tcb : Word) (i : Word) : State := badEvent s asid 9 tcb i []

/-- The walk begins: the list VA and the count are read once. DEDUCED (log 18): a reserved field of word 0x30 that is not zero (R7) is
reported as words that cannot be read are. -/
def walkBegin (s : State) (asid : Nat) (tcb : Word) (loc : Nat) : Hw Unit :=
  match hwRead s asid (tcb.toNat + 0x28) 16 true with
  | .retry => .retry
  | .fault _ s => .ok () (badSuccessor s asid tcb allOnes64)
  | .ok bs s =>
    let list := (wordAt (wordsOf bs) 0).toNat
    let count := fld (wordAt (wordsOf bs) 1) 15 0
    if list % 8 ≠ 0 || fld (wordAt (wordsOf bs) 1) 63 16 ≠ 0 then .ok () (badSuccessor s asid tcb allOnes64)
    else match hwAddr s asid list false true with
      | .retry => .retry
      | .fault _ s => .ok () (badSuccessor s asid tcb allOnes64)
      | .ok _ s =>
        let k := s.nextOp
        let s := modFox { s with nextOp := k + 1 } (fun f => { f with walks := tblSet f.walks k (list, count) })
        .ok () (post s (walkUnit k) (.successorWalk asid tcb loc 0))

/-- Entry `i` of the list is read as it stands now. -/
def walkEntry (s : State) (asid : Nat) (tcb : Word) (loc i list : Nat) : Hw Unit :=
  let u := s.cur
  let next : State → State := fun s => post s u (.successorWalk asid tcb loc (i + 1))
  match hwRead s asid (list + 8 * i) 8 true with
  | .retry => .retry
  | .fault _ s => .ok () (next (badSuccessor s asid tcb (BitVec.ofNat 64 i)))
  | .ok bs s =>
    let e := leNat bs
    if e % 64 ≠ 0 || !isGlobal e then .ok () (next (badSuccessor s asid tcb (BitVec.ofNat 64 i)))
    else .ok () (post s u (.tcbDecrement asid (BitVec.ofNat 64 e) tcb loc i))

/-- The step is done, or is taken again. -/
def orAgain (s : State) (i : Instr) (h : Hw Unit) : Res :=
  match h with
  | .retry => .next (repost s pollCycles s.cur i)
  | .fault _ t => .next t
  | .ok _ t => .next t

/-- SUCCESSOR_WALK. -/
def execSuccessorWalk (asid : Nat) (tcb : Word) (loc i : Nat) (s : State) : Res :=
  let again : Instr := .successorWalk asid tcb loc i
  if s.cur < walkUnit 0 then orAgain s again (walkBegin s asid tcb loc)
  else
    let k := s.cur - walkUnit 0
    match tblFind s.fox.walks k with
    | none => .next s
    | some (list, count) =>
      if count ≤ i then .next (modFox s (fun f => { f with walks := tblDel f.walks k }))
      else orAgain s again (walkEntry s asid tcb loc i list)

/-- R225, R227: the message of a TCB that the retirement of the thread at `loc` releases, towards its queue: in issue order with what
that thread has sent. -/
def release (s : State) (asid loc handle : Nat) (msg : List Word) : State :=
  deliver s { loc := none, src := some loc, die := some (dieOf loc), asid := asid, handle := handle, desc := 0, words := [], msg := msg, route := none,
              via := none, slot := none, since := s.now, stallPosted := false, port := false, event := false }

/-- R229: the decrement that finds the count at 1 releases the TCB: its status is 1, and its message goes to its queue. DEDUCED (log 86): a
message with a reserved header field that is not zero (R7) posts reason 2 and is not sent; `tcb` and `i` are what the walk's events carry. -/
def tcbRelease (s : State) (asid e loc : Nat) (w0 tcb i : Word) : Hw Unit :=
  match hwWrite s asid (e + 0x38) (wordBytes 1) true with
  | .retry => .retry
  | .fault c s => .fault c s
  | .ok _ s =>
    if bit w0 44 then .ok () s
    else match hwRead s asid (e + 8) 32 true with
      | .retry => .retry
      | .fault c s => .fault c s
      | .ok bs s =>
        let msg := takePad 0 8 (wordsOf bs)
        if !headerForm (wordAt msg 0) then .ok () (badEvent s asid 2 tcb i msg)
        else .ok () (release s asid loc (fld w0 43 32) (setNth msg 0 (headerSet (wordAt msg 0) 0 (coreOf loc))))

/-- R229, R230: the count in word 0 less one, unless it is 0, or a reserved field above bit `top` is not zero (R7). -/
def countDown (top : Nat) (w : Word) : Word := if fld w 31 0 = 0 || fld w 63 top ≠ 0 then w else w - 1

/-- TCB_DECREMENT: one read-modify-write of word 0, ordered like amor; then the next entry. DEDUCED (log 18): a reserved field of word 0
that is not zero makes the entry malformed, reason 9. -/
def execTcbDecrement (asid : Nat) (e tcb : Word) (loc i : Nat) (s : State) : Res :=
  let u := s.cur
  let next : State → State := fun s => post s u (.successorWalk asid tcb loc (i + 1))
  let again : Instr := .tcbDecrement asid e tcb loc i
  match hwUpdate s asid e.toNat (countDown 45) with
  | .retry => .next (repost s pollCycles u again)
  | .fault _ t => .next (next (badSuccessor t asid tcb (BitVec.ofNat 64 i)))
  | .ok old t =>
    if fld old 63 45 ≠ 0 then .next (next (badSuccessor t asid tcb (BitVec.ofNat 64 i)))
    else if fld old 31 0 = 0 then .next (next (badEvent t asid 6 tcb (BitVec.ofNat 64 i) []))
    else if fld old 31 0 = 1 then
      match tcbRelease t asid e.toNat loc old tcb (BitVec.ofNat 64 i) with
      | .retry => .next (repost s pollCycles u again)
      | .fault _ t => .next (next (badSuccessor t asid tcb (BitVec.ofNat 64 i)))
      | .ok _ t => .next (next t)
    else .next (next t)

/-! ## Join blocks (R230) -/

/-- JOIN_DECREMENT. DESIGN CHOICE (log 19): a block that can no longer be read or written, or with a reserved field that is not zero
(R7), posts reason 6, as a count of 0 does. DEDUCED (log 86): a continuation with a reserved header field that is not zero posts reason 2. -/
def execJoinDecrement (asid : Nat) (blk : Word) (loc : Nat) (s : State) : Res :=
  let again : Instr := .joinDecrement asid blk loc
  let bad : State → Res := fun t => .next (badEvent t asid 6 blk 0 [])
  match hwUpdate s asid blk.toNat (countDown 32) with
  | .retry => .next (repost s pollCycles s.cur again)
  | .fault _ t => bad t
  | .ok old t =>
    if fld old 31 0 = 0 || fld old 63 32 ≠ 0 then bad t
    else if fld old 31 0 = 1 then
      match hwRead t asid (blk.toNat + 8) 56 true with
      | .retry => .next (repost s pollCycles s.cur again)
      | .fault _ t => bad t
      | .ok bs t =>
        let msg := takePad 0 8 (wordsOf bs)
        if !headerForm (wordAt msg 0) then .next (badEvent t asid 2 blk 0 msg)
        else .next (spawnPush t (coreOf loc) none
          { asid := asid, msg := setNth msg 0 (headerSet (wordAt msg 0) 0 (coreOf loc)) })
    else .next t

/-! ## Groups (R236, R239) -/

def launchAt (s : State) (lid : Nat) : Option Launch := s.fox.launches.find? (fun x => x.lid == lid)
def groupIn (x : Launch) (g : Nat) : Option GroupSt := x.groups.find? (fun y => y.g == g)

def modGroup (s : State) (lid g : Nat) (f : GroupSt → GroupSt) : State :=
  modFox s (fun x => { x with launches := x.launches.map (fun l =>
    if l.lid != lid then l else { l with groups := l.groups.map (fun y => if y.g == g then f y else y) }) })

/-- A gang's record goes once no thread of it is left. -/
def dropGang (s : State) (lid g : Nat) : State :=
  modFox s (fun f => { f with gangs := f.gangs.filter (fun x => x.launch != (lid, g)) })

/-- R236: the Fox retires against the completion TCB as a done.t would. -/
def completionTcb (s : State) (x : Launch) (loc : Nat) : Hw Unit :=
  let tcb := wordAt x.words 12
  if tcb = 0 then .ok () s
  else match hwWrite s x.asid (tcb.toNat + 0x38) (wordBytes 2) true with
    | .retry => .retry
    | .ok _ s => .ok () (post s 0 (.successorWalk x.asid tcb loc 0))
    | .fault _ s =>
      let s := badSuccessor s x.asid tcb allOnes64
      match hwRead s x.asid (tcb.toNat + 0x28) 16 true with
      | .retry => .retry
      | .fault _ s => .ok () s
      | .ok _ s => .ok () (post s 0 (.successorWalk x.asid tcb loc 0))

/-- R236, R225: one more group has completed; after the last, the launch is done with, by the thread that retired last. -/
def closeGroup (s : State) (x : Launch) (y : GroupSt) : Hw Unit :=
  let s := dropGang (modGroup s x.lid y.g (fun y => { y with done := true })) x.lid y.g
  if x.complete + 1 = ldGroups x.words then
    completionTcb (modFox s (fun f => { f with launches := f.launches.filter (fun l => l.lid != x.lid) })) x
      y.lastLoc
  else .ok () (modFox s (fun f => { f with launches := f.launches.map (fun l =>
    if l.lid == x.lid then { l with complete := l.complete + 1 } else l) }))

/-- GROUP_COMPLETE: bit g of the completion bitmap, then what the last group's completion brings. -/
def execGroupComplete (lid g : Nat) (s : State) : Res :=
  match launchAt s lid with
  | none => .next s
  | some x =>
    match groupIn x g with
    | none => .next s
    | some y =>
      if y.done || y.want = 0 then .next s
      else
        match hwUpdate s x.asid (wordAt x.words 8 + BitVec.ofNat 64 (8 * (g / 64))).toNat
            (fun w => w ||| ((1 : Word) <<< (g % 64))) with
        | .retry => .next (repost s pollCycles s.cur (.groupComplete lid g))
        | .fault _ t => orAgain s (.groupComplete lid g) (closeGroup (badEvent t x.asid 7 x.va (BitVec.ofNat 64 g) []) x y)
        | .ok _ t => orAgain s (.groupComplete lid g) (closeGroup t x y)

/-- The CRC of a copy (R239). -/
def crcOf (y : GroupSt) (copy : Nat) : Option (BitVec 64) := (y.crcs.find? (fun p => p.1 == copy)).map (fun p => p.2)

/-- DUP_COMPARE: A against B; then, on a mismatch, A against C. -/
def execDupCompare (lid g : Nat) (s : State) : Res :=
  match launchAt s lid with
  | none => .next s
  | some x =>
    match groupIn x g with
    | none => .next s
    | some y =>
      if y.want < 2 || y.crcs.length < y.want then .next s
      else if crcOf y 1 == crcOf y y.want then .next (post s 0 (.groupComplete lid g))
      else if y.want = 2 then .next (modGroup s lid g (fun y => { y with want := 3 }))
      else .next (event (modGroup s lid g (fun y => { y with want := 0 })) x.asid 0 cDupMismatch x.va (BitVec.ofNat 64 g) [])

/-! ## Barriers (R260, R261) -/

/-- The members of a gang that run in contexts. -/
def gangLocs (s : State) (id : Nat) : List Nat :=
  (s.ctxs.filter (fun e => e.2.run != .dormant && e.2.unit.gangKind != 0 && e.2.unit.gang == id)).map (fun e => e.1)

def inGang (id : Nat) (x : Saved) : Bool := x.unit.gangKind != 0 && x.unit.gang == id

/-- The saved members of a gang. -/
def gangSaved (s : State) (id : Nat) : List Saved := (s.fox.resume ++ s.fox.heldItems).filter (inGang id)

/-- R260: a member's instance is complete. -/
def openBar (band : Bool) (c : Ctx) : Ctx :=
  { c with
    unit := if band then { c.unit with atBarb := false, barbOpen := true } else { c.unit with atBar := false, barOpen := true },
    run := (match c.run with
      | .waiting k => if k == (if band then 7 else 6) then .ready else .waiting k
      | r => r) }

/-- R260: the members among `p` have all arrived: none is saved, and all wait at the barrier. -/
def releaseBar (s : State) (id : Nat) (band : Bool) (p : Nat → Bool) : State :=
  let ls := (gangLocs s id).filter (fun l => p (ctxAt s l).unit.thread)
  let there : Ctx → Bool := fun c => if band then c.unit.atBarb else c.unit.atBar
  if ls.isEmpty || (gangSaved s id).any (fun x => p x.unit.thread) || !(ls.all (fun l => there (ctxAt s l))) then s
  else ls.foldl (fun t l => modCtx t l (openBar band)) s

/-- BARRIER_RELEASE: the band, or each crew of it. -/
def execBarrierRelease (gang : Nat) (band : Bool) (s : State) : Res :=
  if band then .next (releaseBar s gang true (fun _ => true))
  else .next ((List.range 48).foldl (fun t j => releaseBar t gang false (fun th => th / 64 == j)) s)

/-! ## Hangs (R240, R402) -/

/-- R240: the thread has run longer than its budget. -/
def overBudget (s : State) (c : Ctx) : Bool :=
  match c.unit.budget with
  | some b => c.run != .dormant && decide (c.unit.since + b < s.now)
  | none => false

/-- A chunk of the context has passed its commit point and is not complete. -/
def pastPoint (s : State) (l : Nat) : Bool := s.commits.any (fun p => p.2.kind == .chunk && p.2.loc == l && p.2.point)

/-- R110, R270: the live chunk is squashed; a context without one only stops what it was about. Priority grants go back
(R111). -/
def cancelRun (s0 : State) (l : Nat) : State :=
  let s := releasePriority s0 l
  if (ctxAt s l).chunk.live then squash s l false
  else modCtx s l (fun c => { c with run := .ready, watch := none, woken := false })

/-- R240: the thread is stopped, its context and its slot are free, and its commands end (R402). -/
def stopThread (s : State) (l : Nat) : State :=
  let s := hangQueue (cancelRun s l) l
  let c := ctxAt s l
  let s := issuerRetired (setCtx s l (dormantCtx c)) (coreOf l)
  let s := modFox s (fun f => { f with choices := f.choices.filter (fun x => x.loc != l) })
  leaveSlot s (asidOf c) c.ctl.privbase.toNat (c.ctl.privbase + c.ctl.privlen).toNat

/-- A saved thread of a hung group. -/
def stopSaved (s : State) (x : Saved) : State :=
  let s := if heldAtOrigin s x then hangQueue s x.origin else s
  let s := modFox s (fun f => { f with resume := f.resume.filter (· != x), heldItems := f.heldItems.filter (· != x) })
  let s := issuerRetired s (coreOf x.origin)
  leaveSlot s x.asid x.slotLo (x.area + 4096)

/-- R240: the group as a hang leaves it: offered again once when it is retryable. -/
def hungGroup (retry : Bool) (y : GroupSt) : GroupSt :=
  if retry && !y.retried then { y with live := 0, want := min y.want 2, retried := true, crcs := [], avoid := y.dies, dies := [] }
  else { y with live := 0, want := 0 }

/-- TASK_HANG of the thread in the unit's context. -/
def execTaskHang (s : State) : Res :=
  let c := me s
  if !overBudget s c then .next s
  else match c.unit.launch with
    | none => .next s
    | some (lid, g) =>
      let ofGroup : UnitInfo → Bool := fun u => u.launch == some (lid, g)
      let ls := (s.ctxs.filter (fun e => e.2.run != .dormant && ofGroup e.2.unit)).map (fun e => e.1)
      if ls.any (pastPoint s) then .next (repost s pollCycles s.cur .taskHang)
      else
        let asid := asidOf c
        let va := c.unit.launchVa
        let retry := match launchAt s lid with
          | some x => ldRetry x.words
          | none => false
        let t := ls.foldl stopThread s
        let t := ((t.fox.resume ++ t.fox.heldItems).filter (fun x => ofGroup x.unit)).foldl stopSaved t
        let t := modGroup (dropGang t lid g) lid g (hungGroup retry)
        .next (event t asid 0 cTaskHang va (BitVec.ofNat 64 g) [])

end Sys2Proof.Machine
end

