-- ==== Sys2Proof/Machine/Preempt.lean ====
section
/-! DEFINITION. Pre-emption (R269–R275): saving a thread, completing a request, and releasing held threads. -/

namespace Sys2Proof.Machine

/-! ## Targets (R269) -/

/-- The target descriptor names a thread of this ASID on this die. -/
def named (desc : Word) (asid die : Nat) : Bool :=
  match fld desc 63 62 with
  | 0 => asid == fld desc 9 0
  | 1 => die == fld desc 5 0
  | 2 => true
  | _ => false

/-- The context runs a thread. -/
def runsThread (c : Ctx) : Bool :=
  match c.run with
  | .dormant => false
  | .reserved _ => false
  | _ => true

/-- The context runs a thread of the target. -/
def isTarget (s : State) (desc : Word) (l : Nat) : Bool :=
  let c := ctxAt s l
  runsThread c && named desc (asidOf c) (dieOf l)

/-! ## What is saved (R270, R271, R274) -/

/-- R274: the kind of wait that the thread was in. -/
def waitKind (c : Ctx) : Nat :=
  match c.run with
  | .waiting k => k
  | .stalled (.homes _) => 8
  | _ => if c.after.isSome then 8 else 0

/-- R271: the tinv or rmode at the homes that the thread's next instruction must wait for. -/
def waitHomes (c : Ctx) : Option Nat :=
  match c.run with
  | .stalled (.homes t) => some t
  | _ => c.after

/-- R271: a tinv or rmode counts as executed: the thread's PC is after it, in the next chunk. -/
def pastHomes (c : Ctx) : Ctx := nextChunk { c with regs := { c.regs with pc := c.regs.pc + 4 } } 1

/-- R271: the context is in the middle of something that completes first: a commit past its commit point, or a system-scope access on
its way. -/
def mustWait (s : State) (l : Nat) : Bool := pastPoint s l || !(ctxAt s l).sysOut.isEmpty

/-! ## The spill area (R275, R241) -/

/-- R275: the declared scratchpad bytes of a crew or band thread: offset and length. -/
def declared (s : State) (l area : Nat) : Hw (List (Nat × Nat)) :=
  let c := ctxAt s l
  if c.unit.gangKind = 0 then .ok [] s
  else match hwRead s (asidOf c) (area + 0xFF0) 8 true with
    | .retry => .retry
    | .fault cause s => .fault cause s
    | .ok bs s =>
      let w := BitVec.ofNat 64 (leNat bs)
      let len := fld w 49 32
      let off := fld w 17 0
      .ok (if bit w 63 && fld w 62 50 == 0 && fld w 31 18 == 0 && len % 64 == 0 && off % 64 == 0 && 1 ≤ len && len ≤ 65536
        && off + len ≤ Config.scratchSize (dieOf l) then [(off, len)] else []) s

/-- R241: the persistent regions of the core-bound queue that a thread was taken from. -/
def boundRegions (c : Ctx) : List (Nat × Nat) :=
  match c.unit.bound with
  | none => []
  | some b => b.regions

/-- R275: where each range stands in the spill area, which ends at the save area: VA, offset and length. -/
def placeSpill (va : Nat) : List (Nat × Nat) → List (Nat × Nat × Nat)
  | [] => []
  | (off, len) :: rest => (va, off, len) :: placeSpill (va + len) rest

def spillLen (rs : List (Nat × Nat)) : Nat := rs.foldl (fun n r => n + r.2) 0

/-- Copy the ranges out. None: it must be tried again; the cause of a fault. -/
def spillOut (s : State) (asid core : Nat) : List (Nat × Nat × Nat) → Option (State × Option Nat)
  | [] => some (s, none)
  | (va, off, len) :: rest =>
    match spillPieces s asid (piecesOf va len) (memBytes s.mem (keyScratch core off) len) with
    | none => none
    | some (s, some c) => some (s, some c)
    | some (s, none) => spillOut s asid core rest

/-! ## Step 3: the matrix queue (R381) -/

/-- R381: the context's command that executes stops at its step boundary: the steps done go into word 5 of its slot. -/
def stopMatrix (s : State) (l : Nat) : State :=
  let core := coreOf l
  match (coreAt s core).cmds with
  | [] => s
  | c :: _ =>
    if 8 * c.tag.core + c.tag.ctx != l || !c.begun || (coreAt s core).stop != .running || totalSteps c ≤ c.done then s
    else
      let s := putRawWord s (keyEngine core (64 * (c.num % 16) + 40)) (BitVec.ofNat 64 c.done)
      let s := setHeadCmd s core { c with begun := false }
      let s := modCluster s (clusterOf l) (fun x => { x with executing := if x.executing == some core then none else x.executing })
      kick (setStop s core .preempted) (clusterOf l)

/-- R381: a queue that pre-emption stopped restarts when the sequence ends on its core. -/
def restartMatrix (s : State) (core : Nat) : State :=
  if (coreAt s core).stop == .preempted then restart s core else s

/-! ## Saving one thread (R270 steps 1 to 6) -/

/-- What becomes of one target context. -/
inductive SaveEnd where
  | done (s : State)
  /-- not yet -/
  | later (s : State)

/-- Step 6: the context is free, and the thread is a resume item or a held item (R325 withdraws its records). -/
def freeSaved (s : State) (l : Nat) (hold : Bool) (x : Saved) : State :=
  let s := modCtx s l dormantCtx
  let s := modFox s (fun f => { f with
    choices := f.choices.filter (fun y => y.loc != l),
    resume := if hold then f.resume else f.resume ++ [x],
    heldItems := if hold then f.heldItems ++ [x] else f.heldItems })
  s

/-- R271: a fault on the save area or the spill area. A tinv or rmode that is under way at the homes goes on, and the thread still waits
for it (R284). -/
def saveFault (s : State) (l area : Nat) (after : Option Nat) : State :=
  modCtx s l (fun c => { mcheckCtx c 4 0 (BitVec.ofNat 64 area) c.regs.pc with after := after })

/-- R274: an area is written but for its spill declaration at 0xFF0; word 0xFF8 is zero. -/
def saveArea (s : State) (asid area : Nat) (bs : List Byte) : Hw Unit :=
  match hwWrite s asid area bs true with
  | .ok _ s => hwWrite s asid (area + 0xFF8) (wordBytes 0) true
  | x => x

/-- Steps 4 to 6 for context `l`, which runs no chunk: `kind` is the wait kind and `after` the tinv or rmode that goes on. None: not yet. -/
def saveState (s0 : State) (l kind : Nat) (after : Option Nat) (hold : Bool) : Option State :=
  let c := ctxAt s0 l
  let asid := asidOf c
  let area := (c.ctl.privbase + c.ctl.privlen - 4096).toNat
  match declared s0 l area with
  | .retry => none
  | .fault _ s => some (saveFault s l area after)
  | .ok own s =>
    let rs := own ++ boundRegions c
    let items := placeSpill (area - spillLen rs) rs
    let bs := areaBytes s l { by_ := 1, kind := kind, pc := c.regs.pc, num := c.chunk.num, q := qList c.regs,
                              status := statusWord (plOf c.ctl) (pplOf c.ctl) (stepOn c.ctl) (tsOn c.ctl) false,
                              mask := c.accMask, spill := spillLen rs }
    match spillOut s asid (coreOf l) items with
    | none => none
    | some (s, some _) => some (saveFault s l area after)
    | some (s, none) =>
      match saveArea s asid area bs with
      | .retry => none
      | .fault _ s => some (saveFault s l area after)
      | .ok _ s =>
        let used := s.now - c.unit.since
        let u := { c.unit with atBar := false, atBarb := false, budget := c.unit.budget.map (fun b => b - used) }
        some (freeSaved s l hold
          { area := area, slotLo := c.ctl.privbase.toNat, asid := asid, cls := hClass c.ctl.hdr, origin := l, unit := u,
            accMask := c.accMask, ticket := c.ticket, pending := c.pending, after := after, tail := c.tail, firmware := c.firmware,
            lineage := c.ctl.lineage, spill := items })

/-- Steps 1 to 6 for context `l`. -/
def saveThread (s0 : State) (l : Nat) (hold : Bool) : SaveEnd :=
  if mustWait s0 l then .later s0
  else
    let c0 := ctxAt s0 l
    let s := match c0.run with
      | .stalled (.homes _) => modCtx s0 l pastHomes
      | _ => cancelRun s0 l
    match saveState (stopMatrix s l) l (waitKind c0) (waitHomes c0) hold with
    | none => .later s0
    | some s => .done s

/-! ## The request (R269, R270) -/

/-- The unit number of a pre-emption. -/
def preUnit (k : Nat) : Nat := 2 ^ 54 + k

/-- One pass over the contexts still to save; the queues of cores on which the sequence has ended restart. -/
def savePass (s : State) (desc : Word) : List Nat → State × List Nat
  | [] => (s, [])
  | l :: rest =>
    if !isTarget s desc l then savePass s desc rest
    else match saveThread s l (bit desc 61) with
      | .done s => savePass s desc rest
      | .later s =>
        let p := savePass s desc rest
        (p.1, l :: p.2)

/-- A pass; then the completion, or another pass later. -/
def preemptPass (s : State) (k : Nat) (p : PreemptSt) (excl : Nat) : State :=
  let r := savePass s p.desc p.left
  let ended := (dedup (p.left.map coreOf)).filter (fun c => !(r.2.any (fun l => coreOf l == c)))
  let s := ended.foldl restartMatrix r.1
  if r.2.isEmpty then
    post (modFox s (fun f => { f with preempts := tblDel f.preempts k })) 0 (.preemptComplete p.desc p.asids)
  else
    postIn (modFox s (fun f => { f with preempts := tblSet f.preempts k { p with left := r.2 } })) pollCycles (preUnit k)
      (.preemptRequest p.desc excl)

/-- PREEMPT_REQUEST: from pre (whose context is excluded) or from a host. -/
def execPreemptRequest (desc : Word) (excl : Nat) (s : State) : Res :=
  if fld desc 63 62 = 3 then .next s
  else if bit desc 60 then .next (post s 0 (.releaseHeld desc))
  else if s.cur < preUnit 0 then
    let ls := (s.ctxs.map (fun e => e.1)).filter (fun l => l != excl && isTarget s desc l)
    let k := s.nextOp
    .next (preemptPass { s with nextOp := k + 1 } k { desc := desc, left := ls, asids := dedup (ls.map (fun l => asidOf (ctxAt s l))) } excl)
  else
    let k := s.cur - preUnit 0
    match tblFind s.fox.preempts k with
    | none => .next s
    | some p => .next (preemptPass s k p excl)

/-- PREEMPT_COMPLETE: one PREEMPT event to each affected ASID, with the descriptor as its detail. -/
def execPreemptComplete (desc : Word) (asids : List Nat) (s : State) : Res :=
  .next (asids.foldl (fun t a => event t a 0 cPreempt 0 desc []) s)

/-- RELEASE_HELD: the held threads of the target may resume. -/
def execReleaseHeld (desc : Word) (s : State) : Res :=
  let hit : Saved → Bool := fun x => named desc x.asid (dieOf x.origin)
  .next (modFox s (fun f => { f with
    resume := f.resume ++ f.heldItems.filter hit, heldItems := f.heldItems.filter (fun x => !hit x) }))

end Sys2Proof.Machine
end

