-- ==== Sys2Proof/Machine/ControlSpace.lean ====
section
/-! DEFINITION. The control space (spec/17 R290–R292, R403; spec/16 R269, R277–R279; spec/18 R302, R304–R306): its reads and writes.
A writer is 0, the board controller; 1 to 7, the requester to which the flash configuration gives that master id; or 8 + the number of
a requester. Who may write stands in Io (R304, R305). -/

namespace Sys2Proof.Machine

/-! ## Registers with a behaviour of their own -/

/-- R269: the owner writes the pre-emption register. -/
def preemptAt (s : State) (master : Nat) (x : Word) : State :=
  if ownerMay s master then post s 0 (.preemptRequest x (2 ^ 18)) else s

/-- PRE_EMPTION_REGISTER. -/
def execPreEmptionRegister (master : Nat) (x : Word) (s : State) : Res := .next (preemptAt s master x)

/-- R291: a tinv of the whole ASID, whose word reads 1 while it runs. -/
def invalidateAt (s : State) (master asid : Nat) : State :=
  if !asidMay s master asid then s
  else
    let tid := s.nextOp
    let homes := List.range 16
    let t : TinvSt := { loc := none, asid := asid, lo := 2 ^ 55, hi := 2 ^ 56 - 1, homes := homes }
    let s := bar0Set { s with tinvs := tblSet s.tinvs tid t, nextOp := tid + 1 } (asidOff asid 0x28) 1
    homes.foldl (fun u h => post u 0 (.tinvHome h tid)) s

/-- ASID_INVALIDATE. -/
def execAsidInvalidate (master asid : Nat) (s : State) : Res := .next (invalidateAt s master asid)

/-- R291: any write of the lost-event counter clears it. -/
def lostClearAt (s : State) (master asid : Nat) : State :=
  if asidMay s master asid then bar0Set s (asidOff asid 0x18) 0 else s

/-- LOST_EVENT_CLEAR. -/
def execLostEventClear (master asid : Nat) (s : State) : Res := .next (lostClearAt s master asid)

/-! ## Halt, release and step (R277, R292) -/

/-- R292: the cores that a value of the halt register names. -/
def haltTargets (die : Nat) (x : Word) : List Nat :=
  match fld x 62 61 with
  | 0 => (List.range (8 * Config.clusters die)).map (fun i => die * 512 + i)
  | 1 => if fld x 11 6 < Config.clusters die then (List.range 8).map (fun i => die * 512 + fld x 11 6 * 8 + i) else []
  | 2 => if fld x 11 6 < Config.clusters die then [die * 512 + fld x 11 3] else []
  | _ => []

/-- R292: the halt register keeps its fields. -/
def haltWord (x : Word) : Word := x &&& 0xE000000000000FF8

/-- R277: the cores stop at an instruction boundary. -/
def haltAt (s : State) (master die : Nat) (x : Word) : State :=
  if !ownerMay s master then s
  else (haltTargets die x).foldl (fun t c => modCore t c (fun y => { y with halted := true, stepping := .off }))
    (bar0Set s (dieOff die 8) (haltWord x ||| 0x8000000000000000))

/-- HALT. -/
def execHaltCores (master die : Nat) (x : Word) (s : State) : Res := .next (haltAt s master die x)

/-- R277, R274: a word of the debug window takes effect in a context: PC, q, k, v, m or a control register. DESIGN CHOICE (log 70): a
level 0b11 leaves that field of c.status as it is (R35). -/
def windowPut (c : Ctx) (off : Nat) (x : Word) : Ctx :=
  let r := c.regs
  if off = 8 then { c with regs := { r with pc := x &&& ~~~3 } }
  else if 0x40 ≤ off ∧ off < 0xC0 then
    { c with regs := qLoad r (fun i => if i.val = (off - 0x40) / 8 then x else qGet r i) }
  else if 0xC0 ≤ off ∧ off < 0x140 then { c with regs := { r with k := r.k.setIfInBounds ((off - 0xC0) / 8) x } }
  else if 0x140 ≤ off ∧ off < 0x940 then
    let n := Fin.ofNat 32 ((off - 0x140) / 64)
    let lane := (off - 0x140) % 64 / 8
    let old := vGet r n
    let new := (old &&& ~~~((BitVec.allOnes 64).setWidth 512 <<< (64 * lane))) ||| (x.setWidth 512 <<< (64 * lane))
    { c with regs := vSet r n new }
  else if 0x940 ≤ off ∧ off < 0x980 then { c with regs := maskSet r (Fin.ofNat 8 ((off - 0x940) / 8)) x }
  else if off = 0x980 then
    let level : Nat → Nat → Nat := fun new old => if new = 3 then old else new
    { c with ctl := { c.ctl with
      status := statusWord (level (fld x 1 0) (plOf c.ctl)) (level (fld x 3 2) (pplOf c.ctl)) (bit x 4) (bit x 5) (heldOn c.ctl) } }
  else if 0x988 ≤ off ∧ off < 0xA68 then { c with ctl := crPut c.ctl ((off - 0x980) / 8) x }
  else c

/-- R277: one write that waited: the live chunk is squashed first; a context without a thread has nothing to change. -/
def windowApply (s : State) (w : Nat × Nat × Word) : State :=
  let c := ctxAt s w.1
  if !runsThread c then s
  else
    let s := if pastPoint s w.1 then s else cancelRun s w.1
    if w.2.1 = 0xA48 then setRng s (coreOf w.1) w.2.2 else modCtx s w.1 (fun c => windowPut c w.2.1 w.2.2)

/-- R277: cores are released, for good or for one chunk; what was written through the window takes effect. -/
def releaseCores (s : State) (cores : List Nat) (one : Bool) : State :=
  let mine := s.io.window.filter (fun w => cores.contains (coreOf w.1))
  let s := modIo s (fun io => { io with window := io.window.filter (fun w => !cores.contains (coreOf w.1)) })
  let s := mine.foldl windowApply s
  cores.foldl (fun t c => if (coreAt t c).halted then modCore t c (fun y => { y with halted := false, stepping := if one then .any else .off }) else t) s

/-- R277: the cores in the scope that the write names are released. -/
def releaseAt (s : State) (master die : Nat) (x : Word) : State :=
  if !ownerMay s master then s
  else releaseCores (bar0Set s (dieOff die 8) (haltWord x &&& 0x7FFFFFFFFFFFFFFF)) (haltTargets die x) false

/-- HALT_RELEASE. -/
def execHaltRelease (master die : Nat) (x : Word) (s : State) : Res := .next (releaseAt s master die x)

/-- R277: the halted core named in the halt register runs one chunk. -/
def stepAt (s : State) (master die : Nat) : State :=
  let core := die * 512 + fld (bar0Get s (dieOff die 8)) 11 3
  if !ownerMay s master || !(coreAt s core).halted then s else releaseCores s [core] true

/-- STEP. -/
def execStepCore (master die : Nat) (s : State) : Res := .next (stepAt s master die)

/-- R277: a write of the context that the debug select names, while its core is halted. -/
def windowAt (s : State) (master die off : Nat) (x : Word) : State :=
  let loc := die * 4096 + fld (bar0Get s (dieOff die 0x20)) 11 0
  if !ownerMay s master || !(coreAt s (coreOf loc)).halted then s
  else modIo s (fun io => { io with window := io.window ++ [(loc, off, x)] })

/-- DEBUG_WINDOW_WRITE. -/
def execDebugWindowWrite (master die off : Nat) (x : Word) (s : State) : Res := .next (windowAt s master die off x)

/-- R277: the context as of the first instruction of its live chunk. -/
def chunkStart (c : Ctx) : Ctx :=
  if !c.chunk.live then c
  else
    let k := c.chunk.cp
    { c with regs := k.regs, ctl := { c.ctl with
      choice := k.choice, spoor := k.spoor, fpflags := k.fpflags,
      status := statusWord (plOf c.ctl) (pplOf c.ctl) k.step (tsOn c.ctl) (heldOn c.ctl) } }

/-- R277, R272: what the debug window of a die shows: the selected context of a halted core. DESIGN CHOICE (log 73): it reads as zero
while the core runs, and for a dormant context, whose valid bit is therefore 0. -/
def windowWord (s : State) (die off : Nat) : Word :=
  let loc := die * 4096 + fld (bar0Get s (dieOff die 0x20)) 11 0
  if !(coreAt s (coreOf loc)).halted || !runsThread (ctxAt s loc) then 0
  else
    let t := modCtx s loc chunkStart
    let c := ctxAt t loc
    wordAt (wordsOf (areaBytes t loc { by_ := 0, kind := waitKind c, pc := c.regs.pc, num := c.chunk.num, q := qList c.regs,
                                       status := c.ctl.status, mask := c.accMask, spill := 0 })) (off / 8)

/-! ## The ownership registers (R305) -/

/-- A master owns the package from now. -/
def takeOwner (s : State) (id : Nat) (nonce : BitVec 32) : State :=
  postIn (putOwnership s (owning (ownership s) id nonce s.now)) Config.cycles1s 0 .ownerStale

/-- R304, R305: the writer's master id, and the registers as they stand now. -/
def byMaster (s : State) (w : Nat) (k : Nat → State → State) : State :=
  match masterOf s w with
  | none => s
  | some id => k id (putOwnership s (ownership s))

/-- R305: a claim while nobody owns the package, or the owner is stale. -/
def claimAt (s : State) (w : Nat) (nonce : BitVec 32) : State :=
  byMaster s w (fun id s =>
    let o := s.io.ownership
    if o.held && !o.stale then s
    else
      let claims := if o.claims.any (fun c => c.1 == id) then o.claims.map (fun c => if c.1 == id then (id, nonce) else c)
        else o.claims ++ [(id, nonce)]
      match o.window with
      | some _ => putOwnership s { o with claims := claims }
      | none => postIn (putOwnership s { o with window := some s.now, claims := [(id, nonce)] }) Config.cycles10ms 0 .electionClose)

/-- CLAIM. -/
def execClaim (id : Nat) (nonce : BitVec 32) (s : State) : Res := .next (claimAt s id nonce)

/-- ELECTION_CLOSE: a window that has run its time is closed. -/
def execElectionClose (s : State) : Res :=
  match s.io.ownership.window with
  | none => .next s
  | some t =>
    if s.now < t + Config.cycles10ms then .next s
    else .next (postIn (putOwnership s (ownership s)) (t + Config.cycles10ms + Config.cycles1s - s.now) 0 .ownerStale)

/-- R305: an accepted heartbeat. -/
def heartbeatAt (s : State) (w : Nat) (nonce : BitVec 32) : State :=
  if ownerOk s w && (ownership s).nonce == nonce then
    postIn (putOwnership s { ownership s with staleAt := s.now + Config.cycles1s }) Config.cycles1s 0 .ownerStale
  else s

/-- HEARTBEAT. -/
def execHeartbeat (id : Nat) (nonce : BitVec 32) (s : State) : Res := .next (heartbeatAt s id nonce)

/-- OWNER_STALE: one second has passed since the last accepted heartbeat. -/
def execOwnerStale (s : State) : Res := .next (putOwnership s (ownership s))

/-- R305: the owner hands over at once. DEDUCED (log 21): the writer proves itself with the owner nonce. -/
def successorAt (s : State) (w : Nat) (nonce : BitVec 32) (next : Nat) (nextNonce : BitVec 32) : State :=
  if ownerOk s w && (ownership s).nonce == nonce then takeOwner s (next % 8) nextNonce else s

/-- SUCCESSOR. -/
def execSuccessor (id : Nat) (nonce : BitVec 32) (next : Nat) (nextNonce : BitVec 32) (s : State) : Res :=
  .next (successorAt s id nonce next nextNonce)

/-! ## Plain registers (R290, R291, R403) -/

/-- R306: a value of the service register that names an operation. -/
def serviceOf (s : State) (x : Word) : Option (Nat × Nat × Instr) :=
  let op := fld x 63 56
  let v := fld x 7 0
  if fld x 55 8 != 0 then none
  else match op with
    | 1 => if v < 32 && v % 16 ≤ 4 then some (1, v, .switchImage (v % 16) (v / 16 == 1)) else none
    | 2 => if v < 16 then some (2, v, .recalibrateHome) else none
    | 3 => if placeExists s v 0 0 then some (3, v, .retireDie) else none
    | 4 => some (4, 0, .writeRetiredMask)
    | _ => none

/-- R302, R305, R306, R308: the platform block. DEDUCED (log 22): a write of word 0x910 requests the reset. -/
def platformWrite (s : State) (m off : Nat) (x : Word) : State :=
  let n : BitVec 32 := x.setWidth 32
  match off with
  | 0x808 => claimAt s m n
  | 0x810 => heartbeatAt s m n
  | 0x818 => successorAt s m n (fld x 34 32) n
  | 0x900 =>
    if !ownerOk s m || s.io.service.isSome then s
    else match serviceOf s x with
      | none => s
      | some (op, v, i) => post (modIo s (fun io => { io with service := some (op, v) })) v i
  | 0x910 => if ownerOk s m then post s 0 (.resetPackage (bit x 0)) else s
  | _ => s

/-- R291: the fields of an ASID entry's plain words. -/
def asidMask (w : Nat) : Word :=
  if w = 0 then 0x80FFFFFFFFFF8000 else if w = 8 then 0x00FFFFFFFFFF8000 else if w = 0x10 then 0x800007FF00000FFF
  else if w = 0x20 then 0xFFFFFFFFFFFFFFE0 else if w = 0x30 then 0x800000000000007F else if w = 0x38 then 0xFFF
  else if 0x40 ≤ w ∧ w < 0x80 then (if w % 16 = 0 then 0xF0FFFFFFFFFFFFFF else 0x1F) else 0

/-- R291, R37: an entry that becomes valid may have its template refused anew. -/
def asidWrite (s : State) (m asid w : Nat) (x : Word) : State :=
  if w = 0x18 then lostClearAt s m asid
  else if w = 0x28 then invalidateAt s m asid
  else if 0x80 ≤ w ∧ w < 0xC0 then
    match reqOf s m with
    | none => s
    | some r => if w = 0x80 then portSend s asid r x else portWord s asid r ((w - 0x80) / 8) x
  else if !asidMay s m asid then s
  else
    let s' := bar0Set s (asidOff asid w) (x &&& asidMask w)
    if w = 0 && bit x 63 && !bit (asidWord s asid 0) 63 then modFox s' (fun f => { f with refused := f.refused.filter (· != asid) })
    else s'

/-- R292: a word of a die's block. -/
def dieWrite (s : State) (m die w : Nat) (x : Word) : State :=
  if 0x1000 ≤ w ∧ w < 0x2000 then windowAt s m die (w - 0x1000) x
  else if w = 8 then (if bit x 63 then haltAt s m die x else releaseAt s m die x)
  else if w = 0x10 then (if x = 1 then stepAt s m die else s)
  else if !ownerMay s m then s
  else if w = 0 then bar0Set s (dieOff die 0) (x &&& 0x1FFFFFF0000)
  else if w = 0x20 then bar0Set s (dieOff die 0x20) (x &&& 0xFFF)
  else if 0x100 ≤ w ∧ w < 0x130 then bar0Set s (dieOff die w) x
  else s

/-- R290, R403: the fields of the other registers that the owner writes. -/
def ownerMask (off : Nat) : Word :=
  if off = 0x1008 then 0x1FFC0000000
  else if 0x1100 ≤ off ∧ off < 0x1500 then 0xFFFFFFFFC0000000
  else if 0x1500 ≤ off ∧ off < 0x1720 then 0x000007FF00000FFF
  else 0

/-- R403: a write of a function's MSI-X table; an ASID with records to announce is looked at again. -/
def msixWrite (s : State) (i o : Nat) (x : Word) : State :=
  let w := o % 16 / 8
  let s := bar0Set s (msixOff i (o / 16) w) (if w = 1 then x ^^^ 0x100000000 else x)
  s.io.pendingMsix.foldl (fun t a => postOnce' t a) s
where
  /-- MSIX_SEND of an ASID, unless it is on its way. -/
  postOnce' (t : State) (a : Nat) : State := if t.agenda.any (fun e => e.2.1 == a && e.2.2 == .msixSend) then t else post t a .msixSend

/-- ASIDs assigned to a function, ascending. -/
def assignedTo (s : State) (f : Nat) : List Nat :=
  (List.range 1024).filter (fun a => bit (asidWord s a 0x30) 63 && fld (asidWord s a 0x30) 6 0 == f)

/-- R289: the virtual function that a writer is. -/
def vfOf (w : Nat) : Option Nat := if w < 8 then none else reqVf (w - 8)

/-- R289, R403: a write of an aligned word at an offset of a virtual function's BAR0: its own entries and its own MSI-X table. -/
def vfWrite (s : State) (w f off : Nat) (x : Word) : State :=
  if !(s.io.verified && s.io.vfs.contains f) then s
  else if off < 0x1000 then
    match nth (assignedTo s f) (off / 256) with
    | some asid => asidWrite s w asid (off % 256) x
    | none => s
  else if 0x4000 ≤ off ∧ off < 0xC000 then msixWrite s (3 + f) (off - 0x4000) x
  else s

/-- R290: a write of an aligned word at an offset of a physical function's BAR0. Without a configuration only the platform block is
served (R303). -/
def pfWrite (s : State) (w off : Nat) (x : Word) : State :=
  if off < 0x1000 then platformWrite s w off x
  else if !s.io.verified then s
  else if off = 0x1000 then preemptAt s w x
  else if 0x20000 ≤ off ∧ off < 0x28000 then
    match reqOf s w with
    | some r => if reqPort r < 4 then msixWrite s (reqPort r) (off - 0x20000) x else s
    | none => s
  else if 0x100000 ≤ off ∧ off < 0x140000 then asidWrite s w ((off - 0x100000) / 256) (off % 256) x
  else if 0x400000 ≤ off ∧ off < 0x800000 then dieWrite s w ((off - 0x400000) / 0x10000) (off % 0x10000) x
  else if ownerMask off ≠ 0 && ownerOk s w then bar0Set s off (x &&& ownerMask off)
  else s

/-- A write of an aligned word at an offset of the writer's BAR0; of a stale owner's writes only a claim is taken (R305). -/
def controlWrite (s : State) (w off : Nat) (x : Word) : State :=
  if off % 8 ≠ 0 || (staleOwner s w && off != 0x808) then s
  else match vfOf w with
    | some f => vfWrite s w f off x
    | none => pfWrite s w off x

/-- CONTROL_SPACE_WRITE. -/
def execControlSpaceWrite (master off : Nat) (x : Word) (s : State) : Res := .next (controlWrite s master off x)

/-! ## Reads (R290–R292, R302, R305, R306, R403) -/

/-- R305: the owner register. -/
def ownerWord (s : State) : Word :=
  let o := ownership s
  BitVec.ofNat 64 ((if o.held then 2 ^ 63 else 0) + (if o.stale then 2 ^ 62 else 0) + o.owner % 8 * 2 ^ 32 + o.nonce.toNat)

/-- R302: the word of firmware image `c`. -/
def imageWord (s : State) (c : Nat) : Word :=
  BitVec.ofNat 64 ((if s.io.activeB.contains c then 2 ^ 32 else 0) + (Config.imageVersion c 1).toNat * 2 ^ 16 + (Config.imageVersion c 0).toNat)

/-- R302, R305, R306: a word of the platform block, which every master may read. -/
def platformWord (s : State) (off : Nat) : Word :=
  if off = 0x800 then ownerWord s
  else if 0x0A0 ≤ off ∧ off < 0x0C8 then imageWord s ((off - 0x0A0) / 8)
  else if off = 0x300 then Config.power s.tick
  else if off = 0x908 then (if s.io.service.isSome then 1 else 0)
  else bar0Get s off

/-- R403: a word of the MSI-X table of share word `i`: an entry at or beyond the count reads as masked. -/
def msixWord (s : State) (i o : Nat) : Word :=
  let v := o / 16
  let w := o % 16 / 8
  if v < (share s i).2 then (bar0Get s (msixOff i v w) ^^^ (if w = 1 then 0x100000000 else 0)) else if w = 1 then 0x100000000 else 0

/-- R403: word `j` of the pending-bit array: vectors with a record to announce whose entries are masked. -/
def pendingWord (s : State) (i j : Nat) : Word :=
  BitVec.ofNat 64 ((List.range 64).foldl (fun n b =>
    if s.io.pendingMsix.any (fun a => shareOf s a == i && fld (asidWord s a 0x10) 42 32 == 64 * j + b && masked s a) then n + 2 ^ b else n) 0)

/-- R291: a word of an ASID's entry; the message port reads as zero. -/
def asidRead (s : State) (asid w : Nat) : Word := if 0x80 ≤ w then 0 else asidWord s asid w

/-- R292: a word of a die's block. -/
def dieRead (s : State) (die w : Nat) : Word :=
  if 0x1000 ≤ w ∧ w < 0x2000 then windowWord s die (w - 0x1000) else bar0Get s (dieOff die w)

/-- R289, R403: a word of a virtual function's BAR0. -/
def vfRead (s : State) (f off : Nat) : Word :=
  if !s.io.verified then 0
  else if off < 0x1000 then
    match nth (assignedTo s f) (off / 256) with
    | some asid => asidRead s asid (off % 256)
    | none => 0
  else if 0x4000 ≤ off ∧ off < 0xC000 then msixWord s (3 + f) (off - 0x4000)
  else if 0xC000 ≤ off ∧ off < 0xC100 then pendingWord s (3 + f) ((off - 0xC000) / 8)
  else 0

/-- R290: a word of BAR0 of the physical function of a port; a link has no MSI-X table. Without a configuration only the platform block is served (R303). -/
def pfRead (s : State) (port off : Nat) : Word :=
  if off < 0x1000 then platformWord s off
  else if !s.io.verified then 0
  else if 0x20000 ≤ off ∧ off < 0x28000 then (if port < 4 then msixWord s port (off - 0x20000) else 0)
  else if 0x28000 ≤ off ∧ off < 0x28100 then (if port < 4 then pendingWord s port ((off - 0x28000) / 8) else 0)
  else if 0x100000 ≤ off ∧ off < 0x140000 then asidRead s ((off - 0x100000) / 256) (off % 256)
  else if 0x400000 ≤ off ∧ off < 0x800000 then dieRead s ((off - 0x400000) / 0x10000) (off % 0x10000)
  else bar0Get s off

end Sys2Proof.Machine
end

