-- ==== Sys2Proof/Machine/Resume.lean ====
section
/-! DEFINITION. Resuming saved threads (R273, R286, R386), gathering gangs (R233) and theft of alternatives (R325–R328). -/

namespace Sys2Proof.Machine

/-! ## One saved thread (R273) -/

/-- R386: before a thread with a non-zero mask resumes at another location its tiles go to its image area. -/
def leaveOrigin (s : State) (l : Nat) (x : Saved) : Option State :=
  if l = x.origin || x.accMask = 0 then some s
  else spillAll s (clusterOf x.origin) x.asid (BitVec.ofNat 64 x.area + 4096 - 0x100000) (fun g => issuerSaved g x)

/-- R273: the spill bytes go to the new core's scratchpad at their recorded offsets, as far as it reaches. -/
def spillIn (s : State) (asid l : Nat) : List (Nat × Nat × Nat) → Hw Unit
  | [] => .ok () s
  | (va, off, len) :: rest =>
    match recordRead s asid va len with
    | .retry => .retry
    | .fault c s => .fault c s
    | .ok bs s =>
      spillIn (putRaw s (keyScratch (coreOf l) off) (bs.take (Config.scratchSize (dieOf l) - off))) asid l rest

/-- R273, R286, R382: the context as the save area and the Fox's item give it; c.asid is the saved one. -/
def resumedCtx (c : Ctx) (x : Saved) (l : Nat) (ws : List Word) (seq now : Nat) : Ctx :=
  { initCtx with
    run := .ready, regs := areaRegs initRegs ws, ctl := { areaCtl initCtl ws with asid := areaCr ws 2 &&& 0x3FF },
    unit := { x.unit with since := now }, pending := x.pending, firmware := x.firmware, accMask := x.accMask, after := x.after,
    ticket := if coreOf l = coreOf x.origin then x.ticket else 0, fenceSeq := seq, tail := x.tail, unregistered := if x.tail.isSome then 2 else 1,
    chunk := { initChunk with num := fld (wordAt ws 2) 63 32 }, undelivered := c.undelivered, sysOut := c.sysOut }

/-- R273: reload the thread into context `l`, and start it. A fault on the areas is an MCHECK of the thread (R267). DESIGN CHOICE
(log 70): so is an area that is not well formed, level 0b11 among it. -/
def resumeThread (s : State) (l : Nat) (x : Saved) : Started :=
  let gone : State → State := fun s => modFox s (fun f => { f with resume := f.resume.filter (· != x) })
  let bad : State → Started := fun s =>
    .ok (gone (modCtx { s with order := s.order + 1 } l (fun c =>
      mcheckCtx { resumedCtx c x l [] s.order s.now with
                  ctl := { initCtl with asid := BitVec.ofNat 64 x.asid, privbase := BitVec.ofNat 64 x.slotLo,
                                        privlen := BitVec.ofNat 64 (x.area + 4096 - x.slotLo) } } 4 0 (BitVec.ofNat 64 x.area) 0)))
  match leaveOrigin s l x with
  | none => .no s
  | some s1 =>
    match hwRead s1 x.asid x.area 4096 true with
    | .retry => .no s
    | .fault _ s1 => bad s1
    | .ok bs s1 =>
      let ws := wordsOf bs
      if !areaForm ws then bad s1
      else match hwWrite s1 x.asid x.area (wordBytes (wordAt ws 0 &&& 0x7FFFFFFFFFFFFFFF)) true with
        | .retry => .no s
        | .fault _ s1 => bad s1
        | .ok _ s1 =>
          match spillIn s1 x.asid l x.spill with
          | .retry => .no s
          | .fault _ s1 => bad s1
          | .ok _ s1 =>
            .ok (watchBudget (gone (modCtx { s1 with order := s1.order + 1 } l (fun c => resumedCtx c x l ws s1.order s1.now))) l)

/-- R232: the die class or the core that a thread's launch or queue names admits context `l`. -/
def unitAdmits (u : UnitInfo) (l : Nat) : Bool := classAdmits u.cls (dieOf l) && u.bound.all (fun b => b.core == coreOf l)

/-- R24: the module of the handler that a message names, as its table entry stands. -/
def msgModule (s : State) (asid : Nat) (msg : List Word) : Option Module :=
  match handlerOf s asid msg with
  | .ok (some pc) _ => moduleOf s asid pc
  | _ => none

/-! ## Gangs (R218, R233) -/

/-- The gang that a GANG_GATHER step is about. -/
def gangAt (s : State) (lid g : Nat) : Option Gang := s.fox.gangs.find? (fun x => x.launch == (lid, g))

/-- Threads still to be placed: those saved, or all of a gang that has not started. -/
def gangThreads (s : State) (x : Gang) : List Nat :=
  let saved := (s.fox.resume.filter (inGang x.id)).map (fun y => y.unit.thread)
  if saved.isEmpty then List.range x.threads else saved

/-- R386: contexts that members of crew `j` must resume in. -/
def fixedPlaces (s : State) (x : Gang) (j : Nat) : List (Nat × Nat) :=
  ((s.fox.resume.filter (fun y => inGang x.id y && y.unit.thread / 64 == j && heldAtOrigin s y))).map (fun y =>
    (y.unit.thread, y.origin))

/-- Elements of a list in a freely chosen order, the first `n`. -/
def chooseSome (tick i : Nat) : Nat → List Nat → List Nat
  | 0, _ => []
  | n + 1, l =>
    match nth l (Config.choose tick i % max 1 l.length) with
    | none => []
    | some a => a :: chooseSome tick (i + 1) n (l.filter (· != a))

/-- The contexts of a cluster. -/
def clusterCtxs (cl : Nat) : List Nat := (List.range 64).map (fun i => cl * 64 + i)

/-- R233: reserve contexts of cluster `cl` for crew `j`, up to `n`. -/
def reserveCrew (s : State) (x : Gang) (m : Option Module) (j cl n : Nat) : State :=
  let mine := (clusterCtxs cl).filter (fun l => (ctxAt s l).run == .reserved x.id)
  let ready := (clusterCtxs cl).filter (fun l => idle s l && imagesFit s l m)
  let fixed := ((fixedPlaces s x j).map (fun p => p.2)).filter (fun l => ready.contains l)
  let free := n - mine.length - fixed.length
  let held := (fixedPlaces s x j).map (fun p => p.2)
  let pick := fixed ++ chooseSome s.tick (1000 + 64 * j) free (ready.filter (fun l => !held.contains l))
  pick.foldl (fun t l => modCtx t l (fun c => { c with run := .reserved x.id })) s

/-- The threads of crew `j`. -/
def crewOf (ts : List Nat) (j : Nat) : List Nat := ts.filter (fun t => t / 64 == j)

/-- The thread of each reserved context of crew `j`: fixed places first. None while contexts are missing. -/
def placeCrew (s : State) (x : Gang) (j cl : Nat) (ts : List Nat) : Option (List (Nat × Nat)) :=
  let mine := (clusterCtxs cl).filter (fun l => (ctxAt s l).run == .reserved x.id)
  let fixed := fixedPlaces s x j
  let others := ts.filter (fun t => !(fixed.any (fun p => p.1 == t)))
  let left := mine.filter (fun l => !(fixed.any (fun p => p.2 == l)))
  if fixed.all (fun p => mine.contains p.2) && others.length ≤ left.length then some (fixed ++ List.zip others left) else none

/-- The places of all crews. -/
def placeAll (s : State) (x : Gang) (ts : List Nat) : List (Nat × Nat) → Option (List (Nat × Nat))
  | [] => some []
  | (j, cl) :: rest =>
    match placeCrew s x j cl (crewOf ts j), placeAll s x ts rest with
    | some a, some b => some (a ++ b)
    | _, _ => none

/-- The gather is over: the gang has started, or its contexts are idle again. -/
def endGather (s : State) (x : Gang) : State :=
  let s := modFox s (fun f => { f with gangs := f.gangs.map (fun y => if y.id == x.id then { y with gather := none } else y) })
  { s with ctxs := tblMap (fun _ c => if c.run == .reserved x.id then { c with run := .dormant } else c) s.ctxs }

/-- R236: the activation message of a launched group. -/
def launchMsg (x : Launch) : List Word :=
  BitVec.ofNat 64 (ldPriority x.words * 2 ^ 38 + 2 ^ 36 + ldHandler x.words) :: x.va :: (x.words.drop 2).take 6

/-- R234: the group record of thread `t` of group `g`. -/
def groupRecord (x : Launch) (g t : Nat) : List Byte :=
  let gx := g % ldX x.words
  let gy := g / ldX x.words % ldY x.words
  let gz := g / (ldX x.words * ldY x.words)
  wordBytes (BitVec.ofNat 64 (gz * 2 ^ 32 + gy * 2 ^ 16 + gx)) ++ wordBytes (BitVec.ofNat 64 (g * 2 ^ 32 + t % 4096))

/-- The unit of thread `t` of group `g`. -/
def launchUnit (x : Launch) (g t kind gang dup : Nat) : UnitInfo :=
  let b := (wordAt x.words 11).toNat
  { initUnit with gangKind := kind, gang := gang, thread := t, launch := some (x.lid, g), launchVa := x.va, cls := ldClass x.words,
                  msg := launchMsg x, dup := dup, budget := if b = 0 then none else some b }

/-- Write the group records of a gang, one slot a thread. -/
def gangRecords (s : State) (x : Launch) (g : Nat) (t : List Word) : List (Nat × Nat) → Hw Unit
  | [] => .ok () s
  | (th, slot) :: rest =>
    match hwWrite s x.asid (slotBase t slot) (groupRecord x g th) false with
    | .ok _ s => gangRecords s x g t rest
    | h => h

/-- R24, R233, R234: all threads of a gang start, when the images may be copied now. -/
def startGang (s : State) (y : Gang) (x : Launch) (g : Nat) (places : List (Nat × Nat)) : Started :=
  match takeSlots s x.asid places.length true with
  | .retry => .no s
  | .fault _ s => .dropped s
  | .ok none s => .dropped s
  | .ok (some (va, t, slots)) s =>
    match handlerOf s x.asid (launchMsg x) with
    | .retry => .no s
    | .fault _ s => .dropped s
    | .ok none s => .dropped s
    | .ok (some pc) s1 =>
      let m := moduleOf s1 x.asid pc
      if !(places.all (fun p => imagesFit s1 p.2 m)) then .no s
      else match gangRecords s1 x g t (List.zip (places.map (fun p => p.1)) slots) with
        | .retry => .no s
        | .fault _ s => .dropped (refuseTemplate s x.asid va)
        | .ok _ s1 =>
          .ok ((List.zip places slots).foldl (fun u e =>
            startThread (copyImages u e.1.2 m) e.1.2 x.asid pc e.2 t
              { launchUnit x g e.1.1 y.kind y.id 0 with module := m.map (fun k => k.mid) }) (acceptTemplate s1 x.asid))

/-- R273: all saved threads of a gang resume. -/
def resumeGang (s0 : State) (x : Gang) : State → List (Nat × Nat) → Started
  | s, [] => .ok s
  | s, (t, l) :: rest =>
    match s.fox.resume.find? (fun y => inGang x.id y && y.unit.thread == t) with
    | none => resumeGang s0 x s rest
    | some y => match resumeThread s l y with
      | .ok s => resumeGang s0 x s rest
      | _ => .no s0

/-- A group goes back to those that are offered. -/
def ungroup (s : State) (lid g : Nat) : State :=
  let s := modGroup s lid g (fun y => { y with live := 0, dies := y.dies.dropLast })
  dropGang s lid g

/-- GANG_GATHER: reserve what is idle; when every thread has a context, all start together. -/
def execGangGather (lid g : Nat) (s : State) : Res :=
  match gangAt s lid g, launchAt s lid with
  | some x, some ln =>
    (match x.gather with
     | none => .next s
     | some cs =>
       let ts := gangThreads s x
       let saved := s.fox.resume.any (inGang x.id)
       let m := match s.fox.resume.find? (inGang x.id) with
         | some y => moduleById s y.unit.module
         | none => msgModule s ln.asid (launchMsg ln)
       let t := cs.foldl (fun u e => reserveCrew u x m e.1 e.2 (crewOf ts e.1).length) s
       match placeAll t x ts cs with
       | none => .next (postIn t pollCycles 0 (.gangGather lid g))
       | some places =>
         match (if saved then resumeGang t x t places else startGang t x ln g places) with
         | .ok u => .next (endGather u x)
         | .no u => .next (postIn u pollCycles 0 (.gangGather lid g))
         | .held u => .next (postIn u pollCycles 0 (.gangGather lid g))
         | .dropped u => .next (ungroup (endGather u x) lid g))
  | _, _ => .next s

/-- R233: the clusters on which contexts are being gathered. -/
def gatheredOn (s : State) : List Nat :=
  ((s.fox.gangs.filterMap (fun y => y.gather)).map (fun ds => ds.map (fun d => d.2))).flatten

/-- R233: a band is being gathered on the die. -/
def bandOn (s : State) (die : Nat) : Bool :=
  s.fox.gangs.any (fun y => y.kind == 2 && y.gather.any (fun ds => ds.any (fun d => dieOfCluster d.2 == die)))

/-- R233: the crews among `js` that have a fixed place, with its cluster. -/
def fixedCrews (s : State) (x : Gang) (js : List Nat) : List (Nat × Nat) :=
  js.filterMap (fun j => ((fixedPlaces s x j).head?).map (fun p => (j, clusterOf p.2)))

/-- R233: clusters of the die of context `l` for the crews `js`, from those that `p` admits: its own first. -/
def gatherClusters (s : State) (x : Gang) (l : Nat) (js : List Nat) (p : Nat → Bool) : List (Nat × Nat) :=
  let fixed := fixedCrews s x js
  let open' := js.filter (fun j => !(fixed.any (fun f => f.1 == j)))
  let taken := fixed.map (fun f => f.2)
  let all := ((List.range (Config.clusters (dieOf l))).map (fun c => dieOf l * 64 + c)).filter (fun c => p c && !taken.contains c)
  let first := if all.contains (clusterOf l) && !open'.isEmpty then [clusterOf l] else []
  let rest := chooseSome s.tick 80 (open'.length - first.length) (all.filter (fun c => !first.contains c))
  fixed ++ List.zip open' (first ++ rest)

/-- R233: the gather begins on the die of the asking context; `no` when the gang cannot be placed there, `held` while other gangs are
gathered on the clusters that it needs. -/
def beginGather (s : State) (l : Nat) (x : Gang) (js : List Nat) (lid g : Nat) : Started :=
  let die := dieOf l
  let busy := gatheredOn s
  let cs := gatherClusters s x l js (fun c => !busy.contains c)
  if js.length > Config.clusters die || !((fixedCrews s x js).all (fun c => dieOfCluster c.2 == die)) then .no s
  else if cs.length < js.length || (fixedCrews s x js).any (fun c => busy.contains c.2) || (x.kind == 2 && bandOn s die) then .held s
  else
    let s := modFox s (fun f => { f with gangs := f.gangs.filter (fun y => y.id != x.id) ++ [{ x with gather := some cs }] })
    let s := if cs.any (fun c => c.2 == clusterOf l) then modCtx s l (fun c => { c with run := .reserved x.id }) else s
    .ok (post s 0 (.gangGather lid g))

/-! ## Theft (R325–R328) -/

/-- The reservation of a context for a theft. -/
def theftMark : Nat := 2 ^ 64

/-- The record's word 0x008 as committed state, when it can be stolen from (R325). -/
def stealableWord (s : State) (asid rec' : Nat) : Option Word :=
  match hwRead s asid (rec' + 8) 8 false with
  | .ok bs _ =>
    let h := BitVec.ofNat 64 (leNat bs)
    if recStealable h && 2 ≤ recRemaining h then some h else none
  | _ => none

/-- R326: spoor entries from the top `e` down to `p`, newest first: address and old value. -/
def spoorEntries (s : State) (asid p : Nat) : Nat → Nat → Hw (List (Nat × Word))
  | 0, _ => .ok [] s
  | n + 1, e =>
    if e ≤ p then .ok [] s
    else match hwRead s asid (e - 16) 16 false with
      | .retry => .retry
      | .fault c s => .fault c s
      | .ok bs s =>
        match spoorEntries s asid p n (e - 16) with
        | .ok rest s =>
          let ws := wordsOf bs
          .ok (((wordAt ws 0 &&& ~~~7).toNat, wordAt ws 1) :: rest) s
        | h => h

/-- R326: one entry undone in the copy of the frame at `f`. -/
def undo (f : Nat) (buf : List Byte) (e : Nat × Word) : List Byte :=
  (List.range 8).foldl (fun b i =>
    if f ≤ e.1 + i && e.1 + i < f + buf.length then setNth b (e.1 + i - f) (BitVec.ofNat 8 (fld e.2 (8 * i + 7) (8 * i))) else b) buf

/-- Committed writes at pieces, all at one point. -/
def commitPieces (s : State) (asid : Nat) (w : BitVec 1024) : List (Nat × Nat) → List Byte → Hw Unit
  | [], _ => .ok () s
  | (va, n) :: rest, bs =>
    match hwAddr s asid va true false with
    | .retry => .retry
    | .fault c s => .fault c s
    | .ok pa s => commitPieces (hwCommit s w pa (bs.take n)) asid w rest (bs.drop n)

/-- What a theft reads: the record, the undone frame, and the top spoor entries' signature. -/
def theftRead (s : State) (asid : Nat) (x : Choice) : Hw (List Word × List Byte) :=
  let f := x.frame.toNat
  match recordRead s asid x.recVa recSize with
  | .retry => .retry
  | .fault c s => .fault c s
  | .ok rb s =>
    let ws := wordsOf rb
    let p := (wordAt ws 2).toNat
    match recordRead s asid f x.framelen.toNat with
    | .retry => .retry
    | .fault c s => .fault c s
    | .ok buf s =>
      match spoorEntries s asid p ((x.spoor.toNat - p) / 16 + 1) x.spoor.toNat with
      | .retry => .retry
      | .fault c s => .fault c s
      | .ok es s => .ok (ws, es.foldl (undo f) buf) s

/-- R326, R172: the homes that a theft asks, and its R and W. -/
def theftSigs (asid : Nat) (x : Choice) (p frame : Nat) : List Nat × BitVec 1024 × BitVec 1024 :=
  let n := x.framelen.toNat
  let sp := x.spoor.toNat
  let of : Nat → Nat → List Nat := fun lo len => if len = 0 then [] else rangeHomes lo (lo + len - 1)
  (dedup (of x.recVa recSize ++ of x.frame.toNat n ++ of frame n ++ of p (sp - p)),
   sigRange asid x.recVa recSize ||| sigRange asid x.frame.toNat n ||| sigRange asid p (sp - p),
   sigRange asid (x.recVa + 8) 8 ||| sigRange asid frame n)

/-- R327: the thief's registers: k and q of the record, then x. -/
def thiefRegs (ws : List Word) (x : Nat) : Regs :=
  let r := kSetAll initRegs ((ws.drop 4).take 16)
  { push (qLoad r (fun i => wordAt ws (20 + i.val))) .push (BitVec.ofNat 64 x) with pc := wordAt ws 0 &&& ~~~3 }

/-- R327: the thief starts. -/
def startThief (s : State) (l asid slot : Nat) (t ws : List Word) (x : Choice) (m : Option Nat) (hdr h : Word) : State :=
  let u := { initUnit with module := m, msg := [hdr], since := s.now }
  let s := giveSlot { s with order := s.order + 1 } asid slot t
  let gen := fld (wordAt ws 3) 7 0
  let k := { activeCtl asid slot t hdr with framelen := x.framelen, lineage := BitVec.ofNat 64 (gen * 2 ^ 56 + (x.recVa + 0x18) % 2 ^ 56) }
  modCtx s l (fun c => activeCtx c (thiefRegs ws (recNext h + recRemaining h - 1)) k u s.order)

/-- A theft whose reads or writes fault only clears the stealable bit. -/
def theftFaulted (s : State) (asid : Nat) (x : Choice) : Hw Unit :=
  match hwChange s asid (x.recVa + 8) false (fun w => w &&& 0x7FFFFFFFFFFFFFFF) with
  | .retry => .retry
  | .fault _ s => .ok () s
  | .ok _ s => .ok () s

/-- R326: the theft, once a slot and a template are there. It waits while the images may not be copied (R24). -/
def theftDo (s : State) (thief asid : Nat) (x : Choice) (m : Option Module) (hdr : Word) (t : List Word) (slot : Nat) : Hw Unit :=
  if !imagesFit s thief m then .retry
  else match theftRead s asid x with
  | .retry => .retry
  | .fault _ s => theftFaulted s asid x
  | .ok (ws, buf) s1 =>
    let h := wordAt ws 1
    let frame := slotBase t slot + tmHi t 6
    let sg := theftSigs asid x (wordAt ws 2).toNat frame
    if !(recStealable h && 2 ≤ recRemaining h) then .ok () s1
    else if sg.1.any (fun a => refuses s1 a none sg.2.1 sg.2.2) then .retry
    else
      let h' := recWord true true (recNext h) (recRemaining h - 1)
      match commitPieces s1 asid sg.2.2 [(x.recVa + 8, 8)] (wordBytes h') with
      | .retry => .retry
      | .fault _ _ => theftFaulted s1 asid x
      | .ok _ s2 =>
        match commitPieces s2 asid sg.2.2 (piecesOf frame buf.length) buf with
        | .retry => .retry
        | .fault _ _ => theftFaulted s1 asid x
        | .ok _ s3 =>
          .ok () (startThief (copyImages s3 thief m) thief asid slot t ws x (m.map (fun k => k.mid)) hdr h)

/-- A thief that found nothing is idle again. -/
def endTheft (s : State) (thief : Nat) : State :=
  modCtx s thief (fun c => if c.run == .reserved theftMark then { c with run := .dormant } else c)

/-- THEFT. -/
def execTheft (victim : Nat) (rec' : Word) (thief : Nat) (s : State) : Res :=
  let v := ctxAt s victim
  let asid := asidOf v
  let again : Instr := .theft victim rec' thief
  if (ctxAt s thief).run != .reserved theftMark then .next s
  else match s.fox.choices.find? (fun x => x.loc == victim && x.recVa == rec'.toNat) with
    | none => .next (endTheft s thief)
    | some x =>
      match takeSlots s asid 1 false with
      | .retry => .next (repost s pollCycles s.cur again)
      | .fault _ t => .next (endTheft t thief)
      | .ok none t => .next (endTheft t thief)
      | .ok (some (_, tm, slots)) t =>
        match theftDo t thief asid x (moduleById t v.unit.module) v.ctl.hdr tm (slots.headD 0) with
        | .retry => .next (repost s pollCycles s.cur again)
        | .fault _ t => .next (endTheft t thief)
        | .ok _ t => .next (endTheft t thief)

end Sys2Proof.Machine
end

