-- ==== Sys2Proof/Machine/Fox.lean ====
section
/-! DEFINITION. DISPATCH (R232–R238, R241, R273): what an idle context is offered, and in which order. -/

namespace Sys2Proof.Machine

/-- Where an item stands. -/
inductive Work where
  /-- own mailbox, entry -/
  | mail (i : Nat)
  /-- a core's deque, entry of `dequeAll` -/
  | deque (core i : Nat)
  | resume (x : Saved)
  | group (lid g : Nat)
  /-- a resident dispatch queue, its die and its place among the die's heads -/
  | queue (die pos : Nat) (x : Head)
  | choice (x : Choice)

/-! ## Offers (R232) -/

/-- Positions of the messages of class `p`. -/
def positions (p : Nat) : Nat → List Held → List Nat
  | _, [] => []
  | i, h :: rest => (if hClass (wordAt h.msg 0) == p then [i] else []) ++ positions p (i + 1) rest

/-- R237: bits `lo` to `hi − 1` of the producer bitmap, word by word. -/
def bitsSet (s : State) (asid va lo hi : Nat) : Bool :=
  (List.range ((hi - 1) / 64 - lo / 64 + 1)).all (fun i =>
    let w := lo / 64 + i
    match hwRead s asid (va + 8 * w) 8 true with
    | .ok bs _ => (List.range 64).all (fun b =>
        let n := 64 * w + b
        !(lo ≤ n && n < hi) || (BitVec.ofNat 64 (leNat bs)).getLsbD b)
    | _ => false)

/-- R237: the gating of group `g`. -/
def gateOpen (s : State) (x : Launch) (g : Nat) : Bool :=
  let va := (wordAt x.words 9).toNat
  let k := if fld (wordAt x.words 10) 33 32 = 0 then 1 else fld (wordAt x.words 10) 31 0
  va = 0 || bitsSet s x.asid va (k * g) (k * g + k)

/-- R236, R239, R240: the group wants an execution on this die. -/
def groupOpen (x : Launch) (g die : Nat) : Bool :=
  match groupIn x g with
  | none => true
  | some y => !y.done && y.dies.length < y.want && !y.dies.contains die && !y.avoid.contains die

/-- R236: the lowest-numbered eligible group from `g` on. -/
def findGroup (s : State) (x : Launch) (die : Nat) : Nat → Nat → Option Nat
  | 0, _ => none
  | n + 1, g => if groupOpen x g die && gateOpen s x g then some g else findGroup s x die n (g + 1)

/-- A resident dispatch queue of priority `p` that admits context `l` and may hold entries. -/
def offersQueue (s : State) (l p : Nat) (x : Head) : Bool :=
  qdKind x.words == 0 && qdPriority x.words == p && bindAdmits x.words (dieOf l)
    && (qdBinding x.words != 4 || qdPlace x.words == coreOf l) && (x.hint || domainWaits s x.asid x.handle)

/-- The queues of a die that are offered, from head `from'` on, and before head `below`. -/
def queuesOn (s : State) (l p die from' below : Nat) : List Work :=
  ((List.range (dieAt s die).heads.length).filter (fun i => from' ≤ i && i < below)).filterMap (fun i =>
    ((nth (dieAt s die).heads i).filter (offersQueue s l p)).map (.queue die i))

/-- R232 step 4: the queues resident on the context's die, round robin. -/
def queueOffers (s : State) (l p : Nat) : List Work :=
  let die := dieOf l
  queuesOn s l p die (dieAt s die).robin 256 ++ queuesOn s l p die 0 (min 256 (dieAt s die).robin)

/-- R232 step 7: the queues of the other dies, round robin among all of them through the package Fox, whose position is the head after
the one taken last. -/
def farOffers (s : State) (l p : Nat) : List Work :=
  let k := s.fox.robin % 16384
  let on : Nat → Nat → Nat → List Work := fun d a b => if d == dieOf l then [] else queuesOn s l p d a b
  let d0 := k / 256
  on d0 (k % 256) 256 ++ ((List.range 63).map (fun i => on ((d0 + 1 + i) % 64) 0 256)).flatten ++ on d0 0 (k % 256)

/-- A deque from the bottom. -/
def bottomOffers (s : State) (p core : Nat) : List Work := ((positions p 0 (dequeAll s core)).reverse).map (.deque core)

/-- R232 step 6: the other clusters of the die by distance, the lower number first. -/
def farClusters (l : Nat) : List Nat :=
  let c := clusterOf l % 64
  let n := Config.clusters (dieOf l)
  (((List.range n).map (fun i =>
    let d := i + 1
    (if d ≤ c then [c - d] else []) ++ (if c + d < n then [c + d] else []))).flatten).map (fun k => dieOf l * 64 + k)

/-- R325: registered records of the cluster, oldest first. -/
def choicesOf (s : State) (cl : Nat) : List Choice :=
  let xs := s.fox.choices.filter (fun x => clusterOf x.loc == cl)
  xs.foldl (fun acc x => insertBySeq x acc) []
where
  /-- Keep the list rising in `seq`. -/
  insertBySeq (x : Choice) : List Choice → List Choice
    | [] => [x]
    | y :: ys => if x.seq < y.seq then x :: y :: ys else y :: insertBySeq x ys

/-- What step `n` of R232 offers a context at priority `p`, in order. -/
def offers (s : State) (l p n : Nat) : List Work :=
  let core := coreOf l
  match n with
  | 1 => (positions p 0 (coreAt s core).mailbox).map .mail
  | 2 => (positions p 0 (coreAt s core).deque).map (.deque core)
  | 3 => ((List.range 7).map (fun k => bottomOffers s p (clusterOf l * 8 + (core % 8 + k + 1) % 8))).flatten
  | 4 => (s.fox.resume.filter (fun x => x.cls == p)).map .resume
      ++ (s.fox.launches.filter (fun x => ldPriority x.words == p && classAdmits (ldClass x.words) (dieOf l))).filterMap (fun x =>
        (findGroup s x (dieOf l) (ldGroups x.words) 0).map (.group x.lid))
      ++ queueOffers s l p
  | 5 => ((choicesOf s (clusterOf l)).filter (fun x => hClass (ctxAt s x.loc).ctl.hdr == p && x.loc != l)).map .choice
  | 6 => ((farClusters l).map (fun c => ((List.range 8).map (fun i => bottomOffers s p (c * 8 + i))).flatten)).flatten
  | _ => farOffers s l p

/-! ## Taking an item -/

/-- An activation from a message. -/
def msgUnit (msg : List Word) : UnitInfo := { initUnit with msg := msg }

/-- After the thread has started, the item leaves its place. -/
def leaving (r : Started) (f : State → State) : Started :=
  match r with
  | .ok s => .ok (f s)
  | .dropped s => .dropped (f s)
  | .held s => .held s
  | .no s => .no s

/-- R231: a taken deque entry makes room for a push that waits. -/
def dequeLeave (s : State) (core i : Nat) : State := spawnRefill (dequeTake s core i) core

/-- R236: a group has been dispatched: `n` more threads live. -/
def groupTaken (s : State) (x : Launch) (g die n : Nat) : State :=
  modFox s (fun f => { f with launches := f.launches.map (fun y =>
    if y.lid != x.lid then y
    else if (groupIn y g).isSome then { y with groups := y.groups.map (fun z =>
      if z.g == g then { z with live := z.live + n, dies := z.dies ++ [die] } else z) }
    else { y with groups := y.groups ++ [{ g := g, live := n, want := if ldDup y.words then 2 else 1, done := false, retried := false,
                                           crcs := [], dies := [die], avoid := [], lastLoc := 0 }] }) })

/-- R220: a group whose handler entry is invalid never completes. -/
def groupLost (s : State) (x : Launch) (g die : Nat) : State :=
  modGroup (groupTaken s x g die 0) x.lid g (fun y => { y with want := 0 })

/-- R239: which copy is dispatched next. -/
def nextCopy (x : Launch) (g : Nat) : Nat :=
  if !ldDup x.words then 0
  else match groupIn x g with
    | some y => y.dies.length + 1
    | none => 1

/-- A launch group: a task starts; a gang is gathered. -/
def takeGroup (s : State) (l lid g : Nat) : Started :=
  match launchAt s lid with
  | none => .no s
  | some x =>
    let die := dieOf l
    if ldGang x.words = 0 then
      match startMsg s l x.asid (launchUnit x g 0 0 0 (nextCopy x g)) (some (groupRecord x g 0)) with
      | .ok t => .ok (groupTaken t x g die 1)
      | .dropped t => .dropped (groupLost t x g die)
      | r => r
    else
      let n := ldT x.words
      match takeSlots s x.asid n true with
      | .retry => .no s
      | .fault _ t => .no t
      | .ok none t => .no t
      | .ok (some _) t =>
        match handlerOf t x.asid (launchMsg x) with
        | .retry => .no t
        | .fault _ t => .no t
        | .ok none t => .dropped (groupLost ((List.range n).foldl (fun u _ => badHandler u x.asid (launchMsg x)) t) x g die)
        | .ok (some pc) t =>
          if !imagesFit t l (moduleOf t x.asid pc) then .no t
          else
            let id := t.fox.nextGang
            let gang : Gang := { id := id, kind := ldGang x.words, threads := n, gather := none, retired := [], launch := (lid, g) }
            match beginGather (groupTaken t x g die n) l gang (List.range ((n + 63) / 64)) lid g with
            | .ok t => .ok (modFox t (fun f => { f with nextGang := id + 1 }))
            | .held _ => .held t
            | _ => .no t

/-- R273: a saved thread of its own, or the gang of one. -/
def takeSaved (s : State) (l : Nat) (x : Saved) : Started :=
  if !unitAdmits x.unit l || !imagesFit s l (moduleById s x.unit.module) then .no s
  else match readTemplate s x.asid false with
    | .retry => .no s
    | .fault _ s => .no s
    | .ok none s => .no s
    | .ok (some _) s =>
      if x.unit.gangKind = 0 then
        if heldAtOrigin s x && l != x.origin then .no s else resumeThread s l x
      else match s.fox.gangs.find? (fun y => y.id == x.unit.gang) with
        | none => .no s
        | some y =>
          let saving := s.fox.preempts.any (fun p => p.2.left.any (fun k => (ctxAt s k).unit.gang == y.id && (ctxAt s k).unit.gangKind != 0))
          if y.gather.isSome || saving || s.fox.heldItems.any (inGang y.id) then .no s
          else beginGather s l y (dedup ((gangThreads s y).map (fun t => t / 64))) y.launch.1 y.launch.2

/-- R241: what an activation from a core-bound queue keeps with its thread. -/
def boundOf (l : Nat) (x : Head) : Option Bound :=
  if qdBinding x.words = 4 then some { handle := x.handle, core := coreOf l, regions := regionsOf x.words } else none

/-- R241: the regions of the queue are kept on the core from now on. -/
def keepRegions (s : State) (asid : Nat) (b : Option Bound) : State :=
  match b with
  | none => s
  | some b => modFox s (fun f => { f with
      bound := f.bound.filter (fun y => !(y.1 == asid && y.2.handle == b.handle && y.2.core == b.core)) ++ [(asid, b)] })

/-- What a dispatch from a queue changes beside the ring: the round robin, the binding and the head's use. -/
def queueTaken (s : State) (l die pos : Nat) (x : Head) : State :=
  let s := if die = dieOf l then modDie s die (fun d => { d with robin := pos + 1 }) else modFox s (fun f => { f with robin := 256 * die + pos + 1 })
  headTook (touchHead (keepRegions s x.asid (boundOf l x)) x.asid x.handle) x.asid x.handle

/-- The unit of an activation from a queue. -/
def queueUnit (l : Nat) (x : Head) (msg : List Word) : UnitInfo :=
  { msgUnit msg with bound := boundOf l x, cls := bindClass x.words }

/-- DEDUCED (log 86): a ring entry with a reserved header field that is not zero (R7) is taken, and dropped with reason 2. -/
def badEntry (s : State) (x : Head) (msg : List Word) : State :=
  badEvent s x.asid 2 (BitVec.ofNat 64 x.desc) (BitVec.ofNat 64 x.handle) msg

/-- The entry at the read index of a queue. -/
def takeEntry (s : State) (l die pos : Nat) (x : Head) : Started :=
  match ringHead s x.asid x.desc x.words with
  | .retry => .no s
  | .fault _ s => .no (headEmpty s x)
  | .ok .empty s => .no (headEmpty s x)
  | .ok .unwritten s => .no (headWaits s x)
  | .ok (.entry n msg) s =>
    let free : State → Started → Started := fun t r =>
      match freeSlot t x.asid x.desc x.words n (wordAt msg 0) with
      | .ok _ u => leaving r (fun _ => queueTaken u l die pos x)
      | _ => .no s
    if !headerForm (wordAt msg 0) then (let t := badEntry s x msg; free t (.dropped t))
    else match startMsg s l x.asid (queueUnit l x msg) none with
    | .ok t => free t (.ok t)
    | .dropped t => free t (.dropped t)
    | r => r

/-! ## Ordered domains (R238) -/

def addTask (s : State) (x : Head) (t : OTask) : State :=
  modFox s (fun f =>
    if f.domains.any (fun d => d.asid == x.asid && d.handle == x.handle) then
      { f with domains := f.domains.map (fun d =>
        if d.asid == x.asid && d.handle == x.handle then { d with tasks := d.tasks ++ [t] } else d) }
    else { f with domains := f.domains ++ [{ asid := x.asid, handle := x.handle, tasks := [t] }] })

/-- The entries of an ordered queue are taken from its ring. -/
def pullTasks (x : Head) : Nat → State → State
  | 0, s => s
  | n + 1, s =>
    match ringHead s x.asid x.desc x.words with
    | .ok (.entry i msg) s =>
      (match freeSlot s x.asid x.desc x.words i (wordAt msg 0) with
       | .ok _ s =>
         let t : OTask := { stamp := (wordAt msg 7).toNat, slot := i, msg := msg, sent := false, begun := false }
         pullTasks x n (headTook (if headerForm (wordAt msg 0) then addTask s x t else badEntry s x msg) x.asid x.handle)
       | _ => s)
    | .ok .unwritten s => headWaits s x
    | .ok .empty s => headEmpty s x
    | .fault _ s => headEmpty s x
    | .retry => s

def domainTasks (s : State) (asid h : Nat) : List OTask :=
  match s.fox.domains.find? (fun d => d.asid == asid && d.handle == h) with
  | some d => d.tasks
  | none => []

/-- R238: `a` comes before `b`: by timestamp, then by slot. -/
def taskBefore (a b : OTask) : Bool := a.stamp < b.stamp || (a.stamp == b.stamp && a.slot < b.slot)

/-- R238: the oldest undispatched task, if fewer than 64 tasks are older. -/
def oldestTask (ts : List OTask) : Option OTask :=
  match ts.filter (fun t => !t.sent) with
  | [] => none
  | t :: rest =>
    let o := rest.foldl (fun m y => if taskBefore y m then y else m) t
    if (ts.filter (fun y => taskBefore y o)).length < 64 then some o else none

/-- The oldest task of an ordered queue. -/
def takeOrdered (s : State) (l die pos : Nat) (x : Head) : Started :=
  let s := pullTasks x (qdCount x.words) s
  match oldestTask (domainTasks s x.asid x.handle) with
  | none => .no s
  | some t =>
    let u := { queueUnit l x t.msg with ordered := some (x.handle, t.stamp, t.slot) }
    match startMsg s l x.asid u none with
    | .ok r => .ok (queueTaken (modTask r x.asid x.handle t.stamp t.slot (fun y => some { y with sent := true })) l die pos x)
    | .dropped r => .dropped (modTask r x.asid x.handle t.stamp t.slot (fun _ => none))
    | r => r

/-! ## Trying an item -/

/-- R325, R327: a theft begins when the record can be stolen from and a slot is there. -/
def takeChoice (s : State) (l : Nat) (x : Choice) : Started :=
  let v := ctxAt s x.loc
  match stealableWord s (asidOf v) x.recVa with
  | none => .no s
  | some _ =>
    if !imagesFit s l (moduleById s v.unit.module) then .no s
    else match takeSlots s (asidOf v) 1 false with
      | .retry => .no s
      | .fault _ s => .no s
      | .ok none s => .no s
      | .ok (some _) s =>
        .ok (post (modCtx s l (fun c => { c with run := .reserved theftMark })) 0 (.theft x.loc (BitVec.ofNat 64 x.recVa) l))

def takeWork (s : State) (l : Nat) : Work → Started
  | .mail i =>
    (match nth (coreAt s (coreOf l)).mailbox i with
     | none => .no s
     | some h => leaving (startMsg s l h.asid (msgUnit h.msg) none) (fun t => mailboxTake t (coreOf l) i))
  | .deque core i =>
    (match nth (dequeAll s core) i with
     | none => .no s
     | some h => leaving (startMsg s l h.asid (msgUnit h.msg) none) (fun t => dequeLeave t core i))
  | .resume x => takeSaved s l x
  | .group lid g => takeGroup s l lid g
  | .queue die pos x => if qdOrdered x.words then takeOrdered s l die pos x else takeEntry s l die pos x
  | .choice x => takeChoice s l x

/-- R232: dispatches on the die since the last of background class. -/
def countDispatch (s : State) (die p : Nat) : State :=
  modDie s die (fun d => { d with sinceB := if p = 3 then 0 else d.sinceB + 1 })

/-- The item is a gang, or a thread of one. -/
def isGang (s : State) : Work → Bool
  | .resume x => x.unit.gangKind != 0
  | .group lid _ => (launchAt s lid).any (fun x => ldGang x.words != 0)
  | _ => false

/-- How far a DISPATCH has come. -/
structure Search where
  s : State
  /-- the context has its answer -/
  found : Bool
  /-- an older gang waits for clusters of the die: no younger one begins there (R233) -/
  gangWaits : Bool

/-- The first item of a list that can be taken. -/
def tryItems (l p : Nat) : Search → List Work → Search
  | x, [] => x
  | x, w :: ws =>
    if x.gangWaits && isGang x.s w then tryItems l p x ws
    else match takeWork x.s l w with
      | .ok t => { x with s := countDispatch t (dieOf l) p, found := true }
      | .dropped t => { x with s := t, found := true }
      | .held t => tryItems l p { x with s := t, gangWaits := true } ws
      | .no t => tryItems l p { x with s := t } ws

def trySteps (l p : Nat) : Search → List Nat → Search
  | x, [] => x
  | x, n :: ns =>
    let r := tryItems l p x (offers x.s l p n)
    if r.found then r else trySteps l p r ns

def tryClasses (l : Nat) : Search → List Nat → Search
  | x, [] => x
  | x, p :: ps =>
    let r := trySteps l p x [1, 2, 3, 4, 5, 6, 7]
    if r.found then r else tryClasses l r ps

/-- DISPATCH: the unit is the asking context. -/
def execDispatch (s : State) : Res :=
  let l := s.cur
  if !idle s l then .next s
  else
    let order := if (dieAt s (dieOf l)).sinceB ≥ 15 then [3, 0, 1, 2] else [0, 1, 2, 3]
    .next (tryClasses l { s := s, found := false, gangWaits := false } order).s

/-- Something stands anywhere that an idle context might be offered. -/
def workWaits (s : State) : Bool :=
  s.cores.any (fun c => !c.2.mailbox.isEmpty || !c.2.deque.isEmpty || !c.2.dequeOver.isEmpty)
    || !s.fox.resume.isEmpty || !s.fox.launches.isEmpty || !s.fox.choices.isEmpty
    || s.dies.any (fun d => d.2.heads.any (fun x => qdKind x.words == 0 && (x.hint || domainWaits s x.asid x.handle)))

end Sys2Proof.Machine
end

