-- ==== Sys2Proof/Machine/Inbound.lean ====
section
/-! DEFINITION. The requests of hosts and peers that may name device memory or the control space (R288–R290, R294, R298): INBOUND_WRITE
and INBOUND_READ. A requester number (R294) with 2^16 added marks an access to BAR0. -/

namespace Sys2Proof.Machine

def reqBar0 (req : Nat) : Bool := req / 2 ^ 16 % 2 == 1

/-- The writer that a requester is. -/
def writerOf (req : Nat) : Nat := 8 + req % 2 ^ 16

/-- R289: BAR0 of a physical function is 64 MiB, that of a virtual function 64 KiB; a virtual function must be enabled. -/
def bar0Ok (s : State) (req off : Nat) : Bool :=
  match reqVf (req % 2 ^ 16) with
  | some f => s.io.vfs.contains f && decide (off < 2 ^ 16)
  | none => decide (off < 2 ^ 26)

/-- A word of the requester's BAR0. -/
def bar0Word (s : State) (req off : Nat) : Word :=
  match reqVf (req % 2 ^ 16) with
  | some f => vfRead s f off
  | none => pfRead s (reqPort req) off

/-- R294: the words that a write to BAR0 touches, ascending, but word 0 of a message port after its words 1 to 7. -/
def wordOrder (offs : List Nat) : List Nat :=
  let last : Nat → Bool := fun o => o % 256 == 0x80 && (o < 0x1000 || 0x100000 ≤ o)
  offs.filter (fun o => !last o) ++ offs.filter last

/-- A write of bytes to BAR0, word by word: bytes that the write does not name are those of the word as it reads. -/
def bar0Write (s : State) (req : Nat) (cells : List (Nat × Byte)) : State :=
  let offs := dedup (cells.map (fun e => e.1 / 8 * 8))
  (wordOrder offs).foldl (fun t o =>
    let old := wordBytes (bar0Word t req o)
    let bs := (List.range 8).map (fun i => match cells.find? (fun e => e.1 == o + i) with
      | some e => e.2
      | none => old.getD i 0)
    controlWrite t (writerOf req) o (BitVec.ofNat 64 (leNat bs))) s

/-- INBOUND_WRITE: bytes with their addresses. A write to the control space comes after the requester's earlier writes (R132). -/
def execInboundWrite (req : Nat) (ro : Bool) (cells : List (Nat × Byte)) (s : State) : Res :=
  if reqBar0 req then
    if !(cells.length ≤ maxPayload && cells.all (fun e => bar0Ok s req e.1)) then .next s
    else if !ro && reqWaits s req then .next (repost s pollCycles s.cur (.inboundWrite req ro cells))
    else .next (bar0Write s req cells)
  else .next (memWrite s req ro cells)

/-- INBOUND_READ. -/
def execInboundRead (req pa n : Nat) (s : State) : Res :=
  let again : Res := .next (repost s pollCycles s.cur (.inboundRead req pa n))
  if reqBar0 req then
    if !(bar0Ok s req pa && bar0Ok s req (pa + n - 1) && n ≤ 4096) then .next (answer s (.unsupported req))
    else if reqWaits s req then again
    else
      let bs := ((List.range ((pa + n - 1) / 8 - pa / 8 + 1)).map (fun i => wordBytes (bar0Word s req ((pa / 8 + i) * 8)))).flatten
      .next (answer s (.read req ((bs.drop (pa % 8)).take n)))
  else match memRead s req pa n with
    | some s => .next s
    | none => again

end Sys2Proof.Machine
end

