-- ==== Sys2Proof/Machine/Integer.lean ====
section
/-! DEFINITION. Integer register forms, three-source forms, immediates and constants (spec/04 R70–R77). Each reads its
sources, pushes one result and goes on; none ends a chunk or raises a trap. -/

namespace Sys2Proof.Machine

/-- R49: nop pushes nothing. -/
def execNop (s : State) : Res := finish s (me s).regs

/-- R72: a + b, wrapping. -/
def execAdd (a b : Src) (d : Dest) (w : Bool) (s : State) : Res :=
  finishPush s d (byW w (fun x y => x + y) (fun x y => x + y) (src s a) (src s b))

/-- R72: a − b, wrapping. -/
def execSub (a b : Src) (d : Dest) (w : Bool) (s : State) : Res :=
  finishPush s d (byW w (fun x y => x - y) (fun x y => x - y) (src s a) (src s b))

/-- R72: the low bits of the product. -/
def execMul (a b : Src) (d : Dest) (w : Bool) (s : State) : Res :=
  finishPush s d (byW w (fun x y => x * y) (fun x y => x * y) (src s a) (src s b))

/-- R73: signed quotient. -/
def execDiv (a b : Src) (d : Dest) (w : Bool) (s : State) : Res :=
  finishPush s d (byW w divS divS (src s a) (src s b))

/-- R73: unsigned quotient. -/
def execDivz (a b : Src) (d : Dest) (w : Bool) (s : State) : Res :=
  finishPush s d (byW w divU divU (src s a) (src s b))

/-- R73: signed remainder. -/
def execRem (a b : Src) (d : Dest) (w : Bool) (s : State) : Res :=
  finishPush s d (byW w remS remS (src s a) (src s b))

/-- R73: unsigned remainder. -/
def execRemz (a b : Src) (d : Dest) (w : Bool) (s : State) : Res :=
  finishPush s d (byW w remU remU (src s a) (src s b))

/-- R74. -/
def execShl (a b : Src) (d : Dest) (w : Bool) (s : State) : Res :=
  finishPush s d (byW w shlN shlN (src s a) (src s b))

/-- R74. -/
def execShr (a b : Src) (d : Dest) (w : Bool) (s : State) : Res :=
  finishPush s d (byW w shrN shrN (src s a) (src s b))

/-- R74. -/
def execSra (a b : Src) (d : Dest) (w : Bool) (s : State) : Res :=
  finishPush s d (byW w sraN sraN (src s a) (src s b))

/-- R74. -/
def execRol (a b : Src) (d : Dest) (w : Bool) (s : State) : Res :=
  finishPush s d (byW w rolN rolN (src s a) (src s b))

/-- R74. -/
def execRor (a b : Src) (d : Dest) (w : Bool) (s : State) : Res :=
  finishPush s d (byW w rorN rorN (src s a) (src s b))

/-- R72: high half, signed. -/
def execMulh (a b : Src) (d : Dest) (s : State) : Res :=
  finishPush s d (mulHigh (src s a) (src s b))

/-- R72: high half, unsigned. -/
def execMulhz (a b : Src) (d : Dest) (s : State) : Res :=
  finishPush s d (mulHighZ (src s a) (src s b))

/-- R72. -/
def execAndR (a b : Src) (d : Dest) (s : State) : Res :=
  finishPush s d (src s a &&& src s b)

/-- R72. -/
def execOrR (a b : Src) (d : Dest) (s : State) : Res :=
  finishPush s d (src s a ||| src s b)

/-- R72. -/
def execXorR (a b : Src) (d : Dest) (s : State) : Res :=
  finishPush s d (src s a ^^^ src s b)

/-- R72: a AND NOT b. -/
def execAndn (a b : Src) (d : Dest) (s : State) : Res :=
  finishPush s d (src s a &&& ~~~src s b)

/-- R72: a OR NOT b. -/
def execOrn (a b : Src) (d : Dest) (s : State) : Res :=
  finishPush s d (src s a ||| ~~~src s b)

/-- R72: signed minimum. -/
def execMinS (a b : Src) (d : Dest) (s : State) : Res :=
  finishPush s d (minSg (src s a) (src s b))

/-- R72: signed maximum. -/
def execMaxS (a b : Src) (d : Dest) (s : State) : Res :=
  finishPush s d (maxSg (src s a) (src s b))

/-- R72: unsigned minimum. -/
def execMinz (a b : Src) (d : Dest) (s : State) : Res :=
  finishPush s d (minUn (src s a) (src s b))

/-- R72: unsigned maximum. -/
def execMaxz (a b : Src) (d : Dest) (s : State) : Res :=
  finishPush s d (maxUn (src s a) (src s b))

/-- R72: a < b signed. -/
def execSlt (a b : Src) (d : Dest) (s : State) : Res :=
  finishPush s d (flag01 ((src s a).slt (src s b)))

/-- R72: a < b unsigned. -/
def execSltz (a b : Src) (d : Dest) (s : State) : Res :=
  finishPush s d (flag01 ((src s a).ult (src s b)))

/-- R72: a = b. -/
def execSeqR (a b : Src) (d : Dest) (s : State) : Res :=
  finishPush s d (flag01 (src s a == src s b))

/-- R72: a ≠ b. -/
def execSne (a b : Src) (d : Dest) (s : State) : Res :=
  finishPush s d (flag01 (src s a != src s b))

/-- R72: leading zeros. -/
def execClz (a : Src) (d : Dest) (w : Bool) (s : State) : Res :=
  finishPush s d (unW w clzN (src s a))

/-- R72: trailing zeros. -/
def execCtz (a : Src) (d : Dest) (w : Bool) (s : State) : Res :=
  finishPush s d (unW w (fun x n => ctzFrom x 0 n) (src s a))

/-- R72: one bits. -/
def execPopc (a : Src) (d : Dest) (w : Bool) (s : State) : Res :=
  finishPush s d (unW w popN (src s a))

/-- R72: bits reversed. -/
def execBrev (a : Src) (d : Dest) (w : Bool) (s : State) : Res :=
  finishPush s d (unW w revN (src s a))

/-- R72: bytes reversed. -/
def execBswap (a : Src) (d : Dest) (w : Bool) (s : State) : Res :=
  finishPush s d (unW w bswapN (src s a))

/-- R72. -/
def execSext (a : Src) (x : ExtW) (d : Dest) (s : State) : Res :=
  finishPush s d (signExt (src s a) (extBits x))

/-- R72. -/
def execZext (a : Src) (x : ExtW) (d : Dest) (s : State) : Res :=
  finishPush s d (zeroExt (src s a) (extBits x))

/-- R75. -/
def execSel (a b c : Src) (d : Dest) (s : State) : Res :=
  finishPush s d (if src s a ≠ 0 then src s b else src s c)

/-- R75. -/
def execIns (a b c : Src) (d : Dest) (s : State) : Res :=
  finishPush s d (insField (src s a) (src s b) (src s c))

/-- R75. -/
def execLea (a b c : Src) (d : Dest) (s : State) : Res :=
  finishPush s d (src s a + (src s b <<< ((src s c).toNat % 64)))

/-- R76. -/
def execAddi (a : Src) (d : Dest) (i : BitVec 15) (s : State) : Res :=
  finishPush s d (src s a + imm15 i)

/-- R76. -/
def execAndi (a : Src) (d : Dest) (i : BitVec 15) (s : State) : Res :=
  finishPush s d (src s a &&& imm15 i)

/-- R76. -/
def execOri (a : Src) (d : Dest) (i : BitVec 15) (s : State) : Res :=
  finishPush s d (src s a ||| imm15 i)

/-- R76. -/
def execXori (a : Src) (d : Dest) (i : BitVec 15) (s : State) : Res :=
  finishPush s d (src s a ^^^ imm15 i)

/-- R76. -/
def execSlti (a : Src) (d : Dest) (i : BitVec 15) (s : State) : Res :=
  finishPush s d (flag01 ((src s a).slt (imm15 i)))

/-- R76. -/
def execSltzi (a : Src) (d : Dest) (i : BitVec 15) (s : State) : Res :=
  finishPush s d (flag01 ((src s a).ult (imm15 i)))

/-- R76. -/
def execSeqi (a : Src) (d : Dest) (i : BitVec 15) (s : State) : Res :=
  finishPush s d (flag01 (src s a == imm15 i))

/-- R76. -/
def execLcat (a : Src) (d : Dest) (i : BitVec 15) (s : State) : Res :=
  finishPush s d ((src s a <<< 15) ||| i.setWidth 64)

/-- R76. -/
def execShli (a : Src) (d : Dest) (n : BitVec 6) (s : State) : Res :=
  finishPush s d (src s a <<< n.toNat)

/-- R76. -/
def execShri (a : Src) (d : Dest) (n : BitVec 6) (s : State) : Res :=
  finishPush s d (src s a >>> n.toNat)

/-- R76. -/
def execSrai (a : Src) (d : Dest) (n : BitVec 6) (s : State) : Res :=
  finishPush s d ((src s a).sshiftRight n.toNat)

/-- R76, R77. -/
def execLi (d : Dest) (i : BitVec 15) (s : State) : Res :=
  finishPush s d (imm15 i)

/-- R76. -/
def execExtI (a : Src) (d : Dest) (p l : BitVec 6) (s : State) : Res :=
  finishPush s d (extField (src s a) p l)

end Sys2Proof.Machine
end

