-- ==== Sys2Proof/Machine/Digest.lean ====
section
/-! DEFINITION. SHA-256, which R68 names: PRESUMED (log 8) of FIPS 180-4, from which its constants are. -/

namespace Sys2Proof.Machine

/-- The eight working variables. -/
structure Sha where
  a : BitVec 32
  b : BitVec 32
  c : BitVec 32
  d : BitVec 32
  e : BitVec 32
  f : BitVec 32
  g : BitVec 32
  h : BitVec 32
deriving DecidableEq, Repr

/-- The initial hash value. -/
def shaInit : Sha :=
  { a := 0x6A09E667, b := 0xBB67AE85, c := 0x3C6EF372, d := 0xA54FF53A,
    e := 0x510E527F, f := 0x9B05688C, g := 0x1F83D9AB, h := 0x5BE0CD19 }

/-- The round constants. -/
def shaK : List (BitVec 32) :=
  [0x428A2F98, 0x71374491, 0xB5C0FBCF, 0xE9B5DBA5, 0x3956C25B, 0x59F111F1, 0x923F82A4, 0xAB1C5ED5]
  ++ [0xD807AA98, 0x12835B01, 0x243185BE, 0x550C7DC3, 0x72BE5D74, 0x80DEB1FE, 0x9BDC06A7, 0xC19BF174]
  ++ [0xE49B69C1, 0xEFBE4786, 0x0FC19DC6, 0x240CA1CC, 0x2DE92C6F, 0x4A7484AA, 0x5CB0A9DC, 0x76F988DA]
  ++ [0x983E5152, 0xA831C66D, 0xB00327C8, 0xBF597FC7, 0xC6E00BF3, 0xD5A79147, 0x06CA6351, 0x14292967]
  ++ [0x27B70A85, 0x2E1B2138, 0x4D2C6DFC, 0x53380D13, 0x650A7354, 0x766A0ABB, 0x81C2C92E, 0x92722C85]
  ++ [0xA2BFE8A1, 0xA81A664B, 0xC24B8B70, 0xC76C51A3, 0xD192E819, 0xD6990624, 0xF40E3585, 0x106AA070]
  ++ [0x19A4C116, 0x1E376C08, 0x2748774C, 0x34B0BCB5, 0x391C0CB3, 0x4ED8AA4A, 0x5B9CCA4F, 0x682E6FF3]
  ++ [0x748F82EE, 0x78A5636F, 0x84C87814, 0x8CC70208, 0x90BEFFFA, 0xA4506CEB, 0xBEF9A3F7, 0xC67178F2]

/-- Three rotations, or two with a shift, joined. -/
def shaBig (x : BitVec 32) (i j k : Nat) : BitVec 32 := x.rotateRight i ^^^ x.rotateRight j ^^^ x.rotateRight k
def shaSmall (x : BitVec 32) (i j k : Nat) : BitVec 32 := x.rotateRight i ^^^ x.rotateRight j ^^^ (x >>> k)

/-- One round, with the constant and the schedule's word already added. -/
def shaRound (x : Sha) (kw : BitVec 32) : Sha :=
  let t1 := x.h + shaBig x.e 6 11 25 + ((x.e &&& x.f) ^^^ (~~~x.e &&& x.g)) + kw
  let t2 := shaBig x.a 2 13 22 + ((x.a &&& x.b) ^^^ (x.a &&& x.c) ^^^ (x.b &&& x.c))
  { a := t1 + t2, b := x.a, c := x.b, d := x.c, e := x.d + t1, f := x.e, g := x.f, h := x.g }

/-- `n` rounds more; `ws` holds the 16 schedule words from the present one on. -/
def shaRounds : List (BitVec 32) → List (BitVec 32) → Sha → Sha
  | [], _, x => x
  | k :: ks, ws, x =>
    let w : Nat → BitVec 32 := fun i => ws.getD i 0
    let next := shaSmall (w 14) 17 19 10 + w 9 + shaSmall (w 1) 7 18 3 + w 0
    shaRounds ks (ws.drop 1 ++ [next]) (shaRound x (k + w 0))

/-- A word of a block, its most significant byte first. -/
def shaWord (bs : List Byte) : BitVec 32 := BitVec.ofNat 32 (leNat bs.reverse)

/-- The hash value after a block of 64 bytes. -/
def shaBlock (x : Sha) (bs : List Byte) : Sha :=
  let y := shaRounds shaK ((List.range 16).map (fun i => shaWord ((bs.drop (4 * i)).take 4))) x
  { a := x.a + y.a, b := x.b + y.b, c := x.c + y.c, d := x.d + y.d, e := x.e + y.e, f := x.f + y.f, g := x.g + y.g, h := x.h + y.h }

/-- The message with its padding: a one bit, zeros, and the length in bits as 8 bytes, the most significant first. -/
def shaPad (bs : List Byte) : List Byte :=
  bs ++ [0x80] ++ List.replicate ((119 - bs.length % 64) % 64) 0 ++ (natBytes 8 (8 * bs.length)).reverse

/-- The digest as a number of 256 bits. -/
def sha256 (bs : List Byte) : Nat :=
  let p := shaPad bs
  let x := (List.range (p.length / 64)).foldl (fun x i => shaBlock x ((p.drop (64 * i)).take 64)) shaInit
  [x.a, x.b, x.c, x.d, x.e, x.f, x.g, x.h].foldl (fun n y => n * 2 ^ 32 + y.toNat) 0

end Sys2Proof.Machine
end

