-- ==== Sys2Proof/Machine/Loader.lean ====
section
/-! DEFINITION. Sprinny modules: the translator (R63, R66–R68) and the loader (R11, R21, R23–R25, R65). The unit of both steps is
the number of a module that a host has registered. -/

namespace Sys2Proof.Machine

def moduleAt (s : State) (mid : Nat) : Option Module := s.modules.find? (fun m => m.mid == mid)
def modModule (s : State) (mid : Nat) (f : Module → Module) : State :=
  { s with modules := s.modules.map (fun m => if m.mid == mid then f m else m) }
/-- R63, R67: nothing of a refused module is loaded. -/
def refuseModule (s : State) (mid : Nat) : State := modModule s mid (fun m => { m with refused := true })

/-! ## The translator (R66–R68) -/

/-- R66: the format context of a .sprinny.fmt record; none for values outside its table, for bytes 6–15 that are not zero, or for
types that the accumulator does not accept (R67). -/
def fmtOf (rec' : List Byte) : Option (BitVec 15) :=
  let g : Nat → Nat := fun i => ((nth rec' i).getD 0).toNat
  let had : Option Nat := if g 3 = 0 then some 0 else if g 3 = 16 then some 1 else if g 3 = 32 then some 2 else none
  match had with
  | none => none
  | some h =>
    if 32 ≤ g 0 || 32 ≤ g 1 || 2 ≤ g 2 || 2 ≤ g 4 || 2 ≤ g 5 || (rec'.drop 6).any (fun b => b != 0) then none
    else
      let f : BitVec 15 := BitVec.ofNat 15 (g 0 * 2 ^ 10 + g 1 * 2 ^ 5 + g 2 * 2 ^ 4 + h * 4 + g 4 * 2 + g 5)
      if pairing f then some f else none

/-- R376: size and scaled offset of a storage field: words of a record, but word 0 of a command is cut into three. -/
def storageField (kind field : Nat) : Option (Size × Nat) :=
  if kind = 0 then
    (if field = 0 then some (.h, 3) else if field = 1 then some (.h, 2) else if field = 2 then some (.w, 0)
     else if field ≤ 9 then some (.d, field - 2) else none)
  else if kind ≤ 3 ∧ field ≤ 7 then some (.d, field) else none

/-- R66, R67: the native instruction of a page-0x7E word; none when the module is refused. A payload outside its table counts as an
invalid hint or index (log 29). -/
def nativeOf (fmts : List (List Byte)) (w : BitVec 32) : Option Instr :=
  let p := (w.extractLsb' 0 22).toNat
  match (w.extractLsb' 22 3).toNat with
  | 0 => match (if p < 4096 then nth fmts p else none) with
    | some r => (fmtOf r).map .mfmt
    | none => none
  | 1 => if p = 0 then some .cend else if p = 1 then some .nop else none
  | 2 => match storageField (p % 4096 / 64) (p % 64) with
    | some (z, o) => some (.st (srcOf (w.extractLsb' 17 5)) (srcOf (w.extractLsb' 12 5)) z .pred (BitVec.ofNat 11 o))
    | none => none
  | _ => none

/-- R67: each page-0x7E word becomes one native word; every other word stays. -/
def translateText (fmts : List (List Byte)) : Nat → List Byte → Option (List Byte)
  | 0, bs => some bs
  | n + 1, bs =>
    if bs.length < 4 then some bs
    else
      let w : BitVec 32 := BitVec.ofNat 32 (leNat (bs.take 4))
      let new : Option (BitVec 32) := if w.extractLsb' 25 7 == 0x7E then (nativeOf fmts w).map encode else some w
      match new, translateText fmts n (bs.drop 4) with
      | some x, some rest => some (natBytes 4 x.toNat ++ rest)
      | _, _ => none

/-- Replace the bytes from offset `o` on. -/
def patch (bs : List Byte) (o : Nat) (new : List Byte) : List Byte := bs.take o ++ new ++ bs.drop (o + new.length)

/-- R67: the file with the words of its `.text` sections rewritten in place. -/
def translateSections (fmts : List (List Byte)) (f : List Byte) : List Section → Option (List Byte)
  | [] => some f
  | x :: xs =>
    if x.kind = 1 then
      match translateText fmts (x.size / 4) (sectionBytes f x) with
      | some bs => translateSections fmts (patch f x.start bs) xs
      | none => none
    else translateSections fmts f xs

/-- R63, R67: the native file of a portable one: its header says native, of the generation that this package loads. -/
def nativeFile (f : List Byte) (xs : List Section) : Option (List Byte) :=
  translateSections (recordsOf f xs 5) (patch f 8 (natBytes 8 (2 ^ 24 + 2 ^ 16 + fld (fileWord f 8) 15 0))) xs

/-- R68: what SHA-256 is computed over: the header and all sections. -/
def moduleBytes (f : List Byte) (xs : List Section) : List Byte := f.take 64 ++ (xs.map (sectionBytes f)).flatten

/-- R302, R68: the version of the translator image that is active. -/
def translatorVersion (s : State) : BitVec 16 := Config.imageVersion 0 (if s.io.activeB.contains 0 then 1 else 0)

/-- R68: the cache holds 256 MiB; the least recently loaded image leaves first. -/
def cacheTrim : Nat → List Image → List Image
  | _, [] => []
  | used, x :: xs => if used + x.file.length ≤ 2 ^ 28 then x :: cacheTrim (used + x.file.length) xs else []

/-- R68: an image is loaded: it is the most recent one of the cache. -/
def cacheImage (s : State) (x : Image) : State :=
  { s with images := cacheTrim 0 (x :: s.images.filter (fun y => !(y.digest == x.digest && y.version == x.version))) }

/-- R68: the cached image of a digest, under the version that the load names or else the active one. -/
def cachedImage (s : State) (m : Module) (digest : Nat) : Option Image :=
  s.images.find? (fun y => y.digest == digest && y.version == m.version.getD (translatorVersion s))

/-- R68: a module's native image is returned, and its load goes on. -/
def useImage (s : State) (mid : Nat) (x : Image) : State :=
  post (modModule (cacheImage s x) mid (fun y => { y with file := x.file })) mid .loaderStart

/-- SPRINNY_TRANSLATE of module `cur`. -/
def execSprinnyTranslate (s : State) : Res :=
  match moduleAt s s.cur with
  | none => .next s
  | some m =>
    if m.refused || m.loaded || isNative m.file then .next s
    else match (if hdrOk m.file then sectionsOf m.file else none) with
      | none => .next (refuseModule s m.mid)
      | some xs =>
        let digest := sha256 (moduleBytes m.file xs)
        match cachedImage s m digest with
        | some x => .next (useImage s m.mid x)
        | none => match nativeFile m.file xs with
          | some f => .next (useImage s m.mid { digest := digest, version := translatorVersion s, file := f })
          | none => .next (refuseModule s m.mid)

/-! ## Relocations (R23, R65) -/

/-- The low `n` bits of the `k` bytes at an offset take a value. -/
def patchBits (bs : List Byte) (o k n x : Nat) : List Byte :=
  let old := leNat ((bs.drop o).take k)
  patch bs o (natBytes k (old / 2 ^ n * 2 ^ n + x % 2 ^ n))

/-- R23: the value of a relocation's symbol: an address, or for HND12 and QHND12 the index or the handle that a directive gives
the label; none when there is none, or for a kind outside 1–5. -/
def relocValue (m : Module) (lay : List Placed) (kind : Nat) (y : Symbol) : Option Nat :=
  let named : List (Nat × Symbol) → Option Nat := fun l => match y with
    | .value x => some x.toNat
    | .label _ _ => (l.find? (fun h => h.2 == y)).map (fun h => h.1)
  match kind with
  | 1 | 2 | 3 => symbolVa lay y
  | 4 => named m.handlers
  | 5 => named m.queues
  | _ => none

/-- R65: one relocation record, applied to the file. Branch offsets count words from the word itself; a 12-bit field is the low 12
bits at its byte offset. DEDUCED (log 28): a record that names no section, symbol or field of the module refuses it; a value that
does not fit its field is cut to the field's low bits. -/
def relocate (m : Module) (xs : List Section) (lay : List Placed) (f : List Byte) (rec' : List Byte) : Option (List Byte) :=
  let w := fileWord rec' 0
  let kind := fld w 7 0
  let o := fld w 63 32
  match nth xs (fld w 15 8), (nth m.symbols (fld w 31 16)).bind (relocValue m lay kind) with
  | some x, some v =>
    let y : Word := BitVec.ofNat 64 v + fileWord rec' 8
    let put : Nat → Nat → Nat → Option (List Byte) := fun k n z =>
      if o + k ≤ x.size then some (patchBits f (x.start + o) k n z) else none
    let branch : Nat → Option (List Byte) := fun n =>
      (lay.find? (fun q => q.num == fld w 15 8)).bind (fun q =>
        put 4 n ((y - BitVec.ofNat 64 (q.va + o)).sshiftRight 2).toNat)
    match kind with
    | 1 => put 8 64 y.toNat
    | 2 => branch 15
    | 3 => branch 25
    | _ => put 2 12 y.toNat
  | _, _ => none

def relocateAll (m : Module) (xs : List Section) (lay : List Placed) : List (List Byte) → List Byte → Option (List Byte)
  | [], f => some f
  | r :: rs, f => (relocate m xs lay f r).bind (relocateAll m xs lay rs)

/-- Where `n` bytes of a placed `.data` section at a VA stand in the file. -/
def placeAt (lay : List Placed) (va n : Nat) : Option Nat :=
  (lay.find? (fun q => q.sect.kind == 2 && q.va ≤ va && va + n ≤ q.va + q.sect.size)).map (fun q => q.sect.start + (va - q.va))

/-- R223: the owner field of a queue's descriptor is the loading ASID (log 28). -/
def ownQueues (asid : Nat) (lay : List Placed) (f : List Byte) (queues : List (Nat × Nat)) : List Byte :=
  queues.foldl (fun f q => match placeAt lay q.2 64 with
    | some o =>
      let w := (fileWord f (o + 8)).toNat
      patch f (o + 8) (natBytes 8 (w / 2 ^ 42 * 2 ^ 42 + asid % 1024 * 2 ^ 32 + w % 2 ^ 32))
    | none => f) f

/-! ## Placing (R11) -/

/-- The valid entries of a table of `n` entries. -/
def validEntries (s : State) (base n : Nat) : List Word :=
  (s.mem.filter (fun e => base ≤ e.1 && e.1 < base + 8 * n && (e.1 - base) % 8 == 0 && e.2.getLsbD 0)).map (fun e => memWord s.mem e.1)

/-- What a table of a home and the levels below it take up: the tables and the pages that they map, each its start and length. -/
def takenBelow (s : State) (h : Nat) : List (Nat × Nat × Bool) → Nat → List (Nat × Nat)
  | [], _ => []
  | (lo, n, _) :: rest, base =>
    (base, 8 * n) :: ((validEntries s base n).map (fun e =>
      if bit e 1 then [(fld e 40 16 * 65536, 2 ^ lo)]
      else match nextTable h e with
        | .ok b => takenBelow s h rest b
        | .error _ => [])).flatten

/-- The root array of a home, and all that hangs below it. -/
def takenAt (s : State) (h : Nat) : List (Nat × Nat) :=
  let root := h * 2 ^ 37 + rootBase s h
  (root, 8192) :: ((validEntries s root 1024).map (fun e => match (if bit e 1 then .error 0 else nextTable h e) with
    | .ok b => takenBelow s h walkLevels b
    | .error _ => [])).flatten

/-- The first frame of a home, from `f` upwards, that holds no listed byte and is neither a table nor part of a mapped page (`fuel`
frames at most). Which the loader takes is free (log 27). -/
def emptyFrame (s : State) (taken : List (Nat × Nat)) (h n : Nat) : Nat → Nat → Nat
  | 0, f => f
  | fuel + 1, f =>
    let lo := h * 2 ^ 37 + f * 65536
    if s.mem.any (fun e => lo ≤ e.1 && e.1 < lo + 65536) || taken.any (fun r => r.1 < lo + 65536 && lo < r.1 + r.2) then
      emptyFrame s taken h n fuel ((f + 1) % n)
    else f

/-- The physical address of a frame for page number `k` of this load. -/
def chooseFrame (s : State) (h k : Nat) : Nat :=
  let n := max 1 ((homeBytes s h - (if h = 0 then Config.firmwareArea else 0)) / 65536)
  h * 2 ^ 37 + emptyFrame s (takenAt s h) h n n (Config.choose s.tick (1000 + k) % n) * 65536

/-- Write one page-table entry. -/
def putEntryWord (s : State) (h key : Nat) (x : Word) : State := commitBytes s (pteSig s h key) key (wordBytes x)

/-- Map a page below a table: missing tables are made, and an entry that is valid stays. -/
def mapFrom (va : Nat) (leaf : Nat → Word) (h k : Nat) : State → List (Nat × Nat × Bool) → Nat → State
  | s, [], _ => s
  | s, (lo, n, _) :: rest, base =>
    let key := base + 8 * (offsetOf va / 2 ^ lo % n)
    let e := memWord s.mem key
    if rest.isEmpty then (if bit e 0 then s else putEntryWord s h key (leaf (chooseFrame s h (8 * k))))
    else if !bit e 0 then
      let f := chooseFrame s h (8 * k + rest.length)
      mapFrom va leaf h k (putEntryWord s h key (BitVec.ofNat 64 (f + 1))) rest f
    else match (if bit e 1 then .error 0 else nextTable h e) with
      | .ok b => mapFrom va leaf h k s rest b
      | .error _ => s

/-- R11, R177: the leaf of a page of a section: `.text` R and X, `.data` R and W; user (log 27). -/
def pageLeaf (x : Placed) (frame : Nat) : Word :=
  BitVec.ofNat 64 (frame + x.region.mode % 4 * 2 ^ 8 + x.region.place % 4 * 2 ^ 6 + 2 ^ 5 + (if x.sect.kind = 1 then 2 ^ 4 else 2 ^ 3) + 2 ^ 2 + 3)

/-- Map page `k` of a load. -/
def mapPage (s : State) (asid : Nat) (x : Placed) (va k : Nat) : State :=
  let h := homeOf va
  let key := h * 2 ^ 37 + rootBase s h + 8 * asid
  let e := memWord s.mem key
  if !bit e 0 then
    let f := chooseFrame s h (8 * k + 7)
    mapFrom va (pageLeaf x) h k (putEntryWord s h key (BitVec.ofNat 64 (f + 1))) walkLevels f
  else match (if bit e 1 then .error 0 else nextTable h e) with
    | .ok b => mapFrom va (pageLeaf x) h k s walkLevels b
    | .error _ => s

/-- R11: the pages of a section are mapped. -/
def mapSection (s : State) (asid : Nat) (x : Placed) : State :=
  (List.range ((x.sect.size + 65535) / 65536)).foldl (fun t i => mapPage t asid x (x.va + i * 65536) i) s

/-- How a part of a load ends. -/
inductive Loaded where
  | ok (s : State)
  /-- the step is taken again -/
  | retry
  /-- an address cannot be reached: the module is refused -/
  | bad

/-- The bytes of a section at its addresses, as the loader writes them whatever the page's rights are. -/
def writePieces (s : State) (asid : Nat) : List (Nat × Nat) → List Byte → Loaded
  | [], _ => .ok s
  | (va, n) :: rest, bs =>
    if !isGlobal va then .bad
    else match walk s asid va with
      | .error _ => .bad
      | .ok l =>
        let pa := leafAddr l va
        let w := sigRange asid va n
        if pteSystem l.pte || beyondHome s pa then .bad
        else if homeHolds s (homeOf va) pa asid va || refuses s (homeOf va) none 0 w then .retry
        else writePieces (hwCommit s w pa (bs.take n)) asid rest (bs.drop n)

/-- R11, R25: every placed section is mapped and written. -/
def placeSections (s : State) (asid : Nat) (f : List Byte) : List Placed → Loaded
  | [] => .ok s
  | x :: xs =>
    match writePieces (mapSection s asid x) asid (piecesOf x.va x.sect.size) (sectionBytes f x.sect) with
    | .ok s => placeSections s asid f xs
    | e => e

/-! ## Tables and launches (R11, R21, R25) -/

/-- Entries of a table: index and VA. -/
def fillTable (s : State) (asid w : Nat) : List (Nat × Nat) → Loaded
  | [] => .ok s
  | (i, va) :: rest =>
    match hwWrite s asid (tableVa s asid w (i % 4096)) (wordBytes (BitVec.ofNat 64 (2 ^ 63 + va % 2 ^ 56))) false with
    | .retry => .retry
    | .fault _ _ => .bad
    | .ok _ s => fillTable s asid w rest

/-- R25: launches are submitted in listing order. -/
def submitAll (s : State) (asid : Nat) : List Nat → Loaded
  | [] => .ok s
  | va :: rest =>
    match launchAccept s asid (BitVec.ofNat 64 va) with
    | none => .retry
    | some s => submitAll s asid rest

/-- R9: directives with the values of their symbols; none when one has none. -/
def resolveAll (lay : List Placed) : List (Nat × Symbol) → Option (List (Nat × Nat))
  | [] => some []
  | (i, y) :: rest =>
    match symbolVa lay y, resolveAll lay rest with
    | some va, some xs => some ((i, va) :: xs)
    | _, _ => none

/-- The words of a launch descriptor in a module's file. -/
def launchWords (lay : List Placed) (f : List Byte) (va : Nat) : List Word :=
  match placeAt lay va 128 with
  | some o => wordsOf ((f.drop o).take 128)
  | none => []

/-- R21: a launch names class m for a handler of a module whose images fit an S-die only. -/
def launchMisfit (m : Module) (lay : List Placed) (f : List Byte) (launches : List (Nat × Nat)) : Bool :=
  (65536 < (imageBytes m 3).length || 1048576 < (imageBytes m 4).length)
    && launches.any (fun y => let ws := launchWords lay f y.2
                              ldClass ws == 1 && m.handlers.any (fun h => h.1 == ldHandler ws))

/-- A load step after another. -/
def Loaded.andThen (r : Loaded) (f : State → Loaded) : Loaded :=
  match r with
  | .ok s => f s
  | e => e

/-- R25: what a load of a native module does: the regions, then the handler table, the queue table and the launches. -/
def loadModule (s : State) (m : Module) : Loaded :=
  match (if hdrOk m.file then sectionsOf m.file else none) with
  | none => .bad
  | some xs =>
    let lay := layout m
    match resolveAll lay m.handlers, resolveAll lay m.queues, resolveAll lay (m.launches.map (fun y => (0, y))),
        relocateAll m xs lay (recordsOf m.file xs 6) m.file with
    | some handlers, some queues, some launches, some f =>
      let f := ownQueues m.asid lay f queues
      if launchMisfit m lay f launches then .bad
      else
        let s := modModule s m.mid (fun y => { y with file := f, loaded := true })
        (placeSections s m.asid f lay).andThen (fun s =>
          (fillTable s m.asid 0 handlers).andThen (fun s =>
            (fillTable s m.asid 8 queues).andThen (fun s => submitAll s m.asid (launches.map (fun y => y.2)))))
    | _, _, _, _ => .bad

/-- LOADER_START of module `cur`: a portable one goes to the translator first. -/
def execLoaderStart (s : State) : Res :=
  match moduleAt s s.cur with
  | none => .next s
  | some m =>
    if m.refused || m.loaded then .next s
    else if !isNative m.file then .next (post s m.mid .sprinnyTranslate)
    else match loadModule s m with
      | .ok t => .next t
      | .retry => .next (postIn s pollCycles m.mid .loaderStart)
      | .bad => .next (refuseModule s m.mid)

end Sys2Proof.Machine
end

