-- ==== Sys2Proof/Machine/Pointer.lean ====
section
/-! DEFINITION. Pointer class and casts (spec/04 R78, R79). -/

namespace Sys2Proof.Machine

/-- R79: WINDOW with c.badva = Src(a) and c.tval = the func value. -/
def castFault (s : State) (a : Src) (func : Nat) : Res := raise s cWindow (src s a) (BitVec.ofNat 64 func)

/-- R79: push the pointer that a cast forms, or raise WINDOW. -/
def castPush (s : State) (a : Src) (d : Dest) (func : Nat) (x : Option Word) : Res :=
  match x with
  | some p => finishPush s d p
  | none => castFault s a func

/-- R78: push the class; never faults. -/
def execSpace (a : Src) (d : Dest) (s : State) : Res := finishPush s d (BitVec.ofNat 64 (ptrClass s.cur (src s a)))

/-- R79: the global alias of a private pointer. -/
def execCastPg (a : Src) (d : Dest) (s : State) : Res :=
  let p := src s a
  castPush s a d 1 (if ptrClass s.cur p = 1 ∧ fld p 47 0 < (me s).ctl.privlen.toNat
    then some ((me s).ctl.privbase + BitVec.ofNat 64 (fld p 47 0)) else none)

/-- R79: a "here" scratchpad pointer. -/
def execCastSl (a : Src) (d : Dest) (s : State) : Res :=
  castPush s a d 2 ((scratchOff s.cur (src s a)).map (fun o => 0x0020FFFE00000000 ||| BitVec.ofNat 64 o))

/-- R79: an explicit scratchpad pointer. -/
def execCastSx (a : Src) (d : Dest) (s : State) : Res :=
  castPush s a d 3 ((scratchOff s.cur (src s a)).map (scratchPtr s.cur))

/-- R79: a "here" cluster pointer. -/
def execCastCl (a : Src) (d : Dest) (s : State) : Res :=
  castPush s a d 4 ((clusterOff s.cur (src s a)).map (fun o => 0x0030FFF000000000 ||| BitVec.ofNat 64 o))

/-- R79: the offset of any pointer of class 0–4 or 8, foreign or not. -/
def execCastOff (a : Src) (d : Dest) (s : State) : Res :=
  let p := src s a
  let c := ptrClass s.cur p % 16
  castPush s a d 5 (if c = 15 then none
    else some (BitVec.ofNat 64 (if c = 0 then 0 else if c = 1 || c = 4 then fld p 47 0 else if c = 2 then fld p 17 0
      else if c = 3 then fld p 20 0 else fld p 50 0)))

end Sys2Proof.Machine
end

