-- ==== Sys2Proof/Machine/Service.lean ====
section
/-! DEFINITION. Servicing (R306), the retirement of a die (R307), reset (R303), the fatal-error dump (R308), and the clock steps of
a die (R309). -/

namespace Sys2Proof.Machine

/-! ## Image switch, recalibration, the end of an operation (R306) -/

/-- SERVICE_COMPLETE: word 0x908 reads 0 again. -/
def execServiceComplete (s : State) : Res := .next (modIo s (fun io => { io with service := none }))

/-- SWITCH_IMAGE of code `img` (0 translator, 1 Fox, 2 Badgers, 3 homes, 4 I/O die) to A or B. A unit serves each grant, commit,
walk and dispatch under one image: here each is a step. -/
def execSwitchImage (img : Nat) (target : Bool) (s : State) : Res :=
  if 4 < img then .next s
  else
    let others := s.io.activeB.filter (· != img)
    .next (post (modIo s (fun io => { io with activeB := if target then img :: others else others })) 0 .serviceComplete)

/-- The longest pause of a recalibration: 50 µs in cycles. -/
def pauseCycles : Nat := 90000

/-- RECALIBRATE_HOME: the unit is a home. It pauses, and for at most 50 µs; the second time it goes on. -/
def execRecalibrateHome (s : State) : Res :=
  if 16 ≤ s.cur then .next s
  else if (homeAt s s.cur).paused then .next (post (modHome s s.cur (fun h => { h with paused := false })) 0 .serviceComplete)
  else
    .next (postIn (modHome s s.cur (fun h => { h with paused := true })) (Config.choose s.tick 61 % (pauseCycles + 1)) s.cur
      .recalibrateHome)

/-- WRITE_RETIRED_MASK: both copies of the flash configuration take the mask of word 0x018. -/
def execWriteRetiredMask (s : State) : Res :=
  let put : Flash → Flash := fun f => { f with retired := s.io.flash.retired ||| s.io.retired }
  .next (post (modIo s (fun io => { io with
    flash := put io.flash, copyA := { io.copyA with data := put io.copyA.data }, copyB := { io.copyB with data := put io.copyB.data } })) 0
    .serviceComplete)

/-! ## Retiring a die (R307) -/

/-- The cores of a die. -/
def dieCores (die : Nat) : List Nat := (List.range (8 * Config.clusters die)).map (fun i => die * 512 + i)

/-- The contexts of a die that are not dormant. -/
def busyOn (s : State) (die : Nat) : List Nat :=
  (s.ctxs.filter (fun e => dieOf e.1 == die && e.2.run != .dormant)).map (fun e => e.1)

/-- Step 1: what was being gathered on the die goes back to what is offered. -/
def cancelGather (s : State) (x : Gang) : State :=
  let t := endGather s x
  if s.fox.resume.any (inGang x.id) then t else ungroup t x.launch.1 x.launch.2

def cancelGathers (s : State) (die : Nat) : State :=
  (s.fox.gangs.filter (fun x => match x.gather with
    | some cs => cs.any (fun c => dieOfCluster c.2 == die)
    | none => false)).foldl cancelGather s

/-- R272, step 2: every halt of the die is released, and a pre-emption of kind 1 runs. -/
def preemptDie (s : State) (die : Nat) : State :=
  let desc : Word := BitVec.ofNat 64 (2 ^ 62 + die)
  let s := releaseCores (cancelGathers s die) ((dieCores die).filter (fun c => (coreAt s c).halted)) false
  if s.fox.preempts.any (fun p => p.2.desc == desc) || s.agenda.any (fun e => e.2.2 == .preemptRequest desc (2 ^ 18)) then s
  else post s 0 (.preemptRequest desc (2 ^ 18))

/-- Commands of the die's queues that are not complete (R402: they run to completion). -/
def commandsOn (s : State) (die : Nat) : Bool := s.cores.any (fun e => dieOfCore e.1 == die && !e.2.cmds.isEmpty)

/-- The tiles of a die: cluster and tile. -/
def dieTiles (die : Nat) : List (Nat × Nat) :=
  ((List.range (Config.clusters die)).map (fun c => (List.range 16).map (fun t => (die * 64 + c, t)))).flatten

/-- Step 3: every tagged tile is written to its owner's image area, as accspill does. None: it must be tried again. -/
def spillDie (s : State) (die : Nat) : Option State :=
  (dieTiles die).foldl (fun acc x => match acc with
    | none => none
    | some s => spillTile s x.1 x.2) (some s)

/-- A queue that a tile's owner had stopped goes on once the tiles are free. -/
def restartDie (s : State) (die : Nat) : State := ((s.cores.map (fun e => e.1)).filter (fun c => dieOfCore c == die)).foldl restart s

/-- A fill of a core of the die is on its way, or a write-back of the die's caches. -/
def trafficOn (s : State) (die : Nat) : Bool :=
  s.agenda.any (fun e => match e.2.2 with
    | .getS _ f => dieOfCore f.core == die
    | .fillArrival f => dieOfCore f.core == die
    | .extensionArrival f => dieOfCore f.core == die
    | .writeBack _ _ f _ => dieOfCore f.who == die
    | _ => false)
  || s.homes.any (fun h => h.2.dir.any (fun d =>
      transient d.2.state && (dieOfCore d.2.owner == die || (2 ≤ d.2.next && dieOfCore d.2.nextOwner == die) || (match d.2.fill with
        | some f => dieOfCore f.core == die
        | none => false))))

/-- What a block gives back when its die retires: dirty SW and CP words; dirty HC words are the home's already, but for those whose
parity has failed (R211). -/
def giveBack (s : State) (b : Block) : State := if b.mode == .hc then poisonBad s b else putWords s b.region (givenWords [b])

/-- Step 4: the dirty words of every block of the die go to memory: the L2's, then the L1s', which are newer. -/
def flushDie (s : State) (die : Nat) : State :=
  let l1 := ((s.cores.filter (fun e => dieOfCore e.1 == die)).map (fun e => (l1Blocks e.2).filter (fun b => b.writer.isNone))).flatten
  (l2Blocks (dieAt s die) ++ l1).foldl giveBack s

/-- Step 4: the caches are empty and the filters report no copies. -/
def dropDie (s : State) (die : Nat) : State :=
  { s with
    cores := tblMap (fun c x => if dieOfCore c == die then { x with sets := [] } else x) s.cores,
    clusters := tblMap (fun c x => if dieOfCluster c == die then { x with filter := [] } else x) s.clusters,
    dies := tblMap (fun d x => if d == die then { x with l2 := [], filter := [] } else x) s.dies }

/-- R203: a directory entry without the die's copies; of a frozen region, what it thaws to (R207). -/
def dirWithout (die : Nat) (e : DirEntry) : DirEntry :=
  let dies := e.dies &&& ~~~((1 : BitVec 64) <<< die)
  if e.state = 17 then
    if 2 ≤ e.next ∧ e.next ≤ 4 ∧ dieOfCore e.nextOwner = die then
      { e with dies := dies, nextOwner := 0, next := if e.next = 3 ∧ dies ≠ 0 then 1 else 0 }
    else if e.next = 1 ∧ dies = 0 then { e with dies := dies, next := 0 }
    else { e with dies := dies }
  else if 2 ≤ e.state ∧ e.state ≤ 4 ∧ dieOfCore e.owner = die then
    { e with dies := dies, owner := 0, state := if e.state = 3 ∧ dies ≠ 0 then 1 else 0 }
  else if e.state = 1 ∧ dies = 0 then { e with dies := dies, state := 0 }
  else { e with dies := dies }

def undirDie (s : State) (die : Nat) : State :=
  { s with homes := tblMap (fun _ h => { h with dir := tblMap (fun _ e => dirWithout die e) h.dir }) s.homes }

/-- Heads of queues that still hold entries go to other dies (R225). -/
def moveHeads (s : State) (die : Nat) : State :=
  let hs := (dieAt s die).heads
  let s := modDie s die (fun d => { d with heads := [] })
  (hs.filter (fun x => queueFilled s x.asid x.desc x.words || domainWaits s x.asid x.handle)).foldl
    (fun t x => displace t die x) s

/-- R302: words 0x000, 0x010 and 0x018 of the census. -/
def writeCensus (s : State) : State :=
  let ws := censusWords s.io.verified s.io.flash s.io.retired
  [0x000, 0x010, 0x018].foldl (fun t o => bar0Set t o (tblGet ws o 0)) s

/-- Step 5: repeater mode. -/
def markRetired (s : State) (die : Nat) : State :=
  writeCensus (modIo s (fun io => { io with retired := io.retired ||| ((1 : BitVec 64) <<< die) }))

/-- RETIRE_DIE: the unit is a position that the service register named. Each step waits until the one before it has ended. -/
def execRetireDie (s : State) : Res :=
  let die := s.cur
  let later : State → Res := fun s => .next (postIn s pollCycles die .retireDie)
  if s.io.service != some (3, die) then .next s
  else if !(busyOn s die).isEmpty then later (preemptDie s die)
  else match spillDie s die with
    | none => later s
    | some s =>
      if commandsOn s die then later (restartDie s die)
      else if trafficOn s die then later s
      else .next (post (markRetired (moveHeads (undirDie (dropDie (flushDie s die) die) die) die) die) 0 .serviceComplete)

/-! ## Reset (R303, R308) -/

/-- R308: where the dump area begins: the last 1 GiB of H0. -/
def dumpBase (s : State) : Nat := homeBytes s 0 - 2 ^ 30

/-- The bytes of device memory that a reset keeps: all but the dump area, and that too when it is kept (log 30). -/
def keptCells (s : State) (keep : Bool) : List Host.Cell :=
  s.mem.filter (fun e => isHbm e.1 && (keep || !(dumpBase s ≤ e.1 && e.1 < homeBytes s 0)))

/-- RESET: every unit is as right after reset; the first flash copy that verifies is loaded anew, and a die that is retired only until
reset comes back (R307). DESIGN CHOICE (log 88): the translator's cache of images is empty then too, though the bytes of H0 are kept
(log 30). -/
def execResetPackage (keep : Bool) (s : State) : Res :=
  .next { State.reset with
    tick := s.tick, mem := keptCells s keep, io := { initIo s.io.copyA s.io.copyB with out := s.io.out },
    poison := s.poison.filter (fun w => isHbm w && (keep || !(dumpBase s ≤ w && w < homeBytes s 0))) }

/-! ## The fatal-error dump (R308) -/

/-- R188, R199: a tag, 96 bits. The age is the block's position in its set. -/
def tagNat (l1 : Bool) (age : Nat) (b : Block) : Nat :=
  2 ^ 95 + b.asid * 2 ^ 85 + b.va * 2 ^ 38 + b.start * 2 ^ 32 + b.stop * 2 ^ 26 + b.state * 2 ^ 23 + (if b.pinned then 2 ^ 10 else 0)
    + b.off * 8
    + (if l1 then b.specRead.toNat * 2 ^ 15 + (match b.writer with
        | some w => 2 ^ 14 + w.val * 2 ^ 11
        | none => 0) + age
      else age * 2 ^ 11)

/-- The tags of one L1 set: eight of 12 bytes, invalid ones zero. DESIGN CHOICE (log 91): a set's blocks stand in its tags by age. -/
def setTags (st : CacheSet) : List Byte :=
  ((List.range 8).map (fun i => match nth st i with
    | some b => natBytes 12 (tagNat true i b)
    | none => List.replicate 12 0)).flatten

/-- One core of the per-core table: each context's area, then the L1 tags. What saved it (R274) is neither of the two codes that
the spec names, and is 0 (log 31). -/
def coreDump (s : State) (core : Nat) : List Byte :=
  ((List.range 8).map (fun i =>
      let l := 8 * core + i
      let c := ctxAt s l
      takePad 0 4096 (areaBytes s l { by_ := 0, kind := waitKind c, pc := c.regs.pc, num := c.chunk.num, q := qList c.regs,
                                      status := c.ctl.status, mask := c.accMask, spill := 0 }))).flatten
    ++ ((List.range 128).map (fun i => setTags (tblGet (coreAt s core).sets i []))).flatten

/-- R203: a directory entry, 16 bytes. -/
def dirDump (e : DirEntry) : List Byte :=
  wordBytes (BitVec.ofNat 64 e.dies.toNat)
    ++ wordBytes (BitVec.ofNat 64 (e.state * 2 ^ 59 + (if e.lost then 2 ^ 58 else 0) + e.mode * 2 ^ 56 + e.owner * 2 ^ 41))

/-- R199: the tags of the blocks that the L2 slices of a die hold, set by set; the age is the block's position in its set. -/
def l2Tags (s : State) (die : Nat) : List Byte :=
  ((dieAt s die).l2.map (fun e => ((List.range e.2.length).map (fun i => match nth e.2 i with
    | some b => natBytes 12 (tagNat false i b)
    | none => [])).flatten)).flatten

/-- Bytes whose contents the spec does not give: free. -/
def freeBytes (s : State) (base n : Nat) : List Byte := (List.range n).map (fun i => (Config.outside s.tick (base + i)).setWidth 8)

/-- R308: the dump: the parts in order after the 64-byte header, each on a multiple of 64 (log 31). -/
def dumpParts (s : State) : List (List Byte) :=
  let census := ((List.range 0x61).map (fun i => wordBytes (platformWord s (8 * i)))).flatten
  let errors := freeBytes s 100 (32 * (Config.choose s.tick 50 % 65))
  let cores := (((liveDies s).map dieCores).flatten.map (coreDump s)).flatten
  let units := ((liveDies s).map (l2Tags s)).flatten ++ freeBytes s 100000 (64 * (Config.choose s.tick 51 % 65536))
  let dirs := ((s.homes.map (fun h => (h.2.dir.map (fun d => dirDump d.2)).flatten)).flatten)
  [census, errors, cores, units, dirs]

def pad64 (n : Nat) : Nat := (n + 63) / 64 * 64

/-- Where each part begins. -/
def partOffsets : Nat → List (List Byte) → List Nat
  | _, [] => []
  | o, p :: ps => o :: partOffsets (pad64 (o + p.length)) ps

/-- FATAL_ERROR_DUMP: every compute die stops; the parts are written, and the header last. -/
def execFatalErrorDump (s : State) : Res :=
  let base := dumpBase s
  let ps := dumpParts s
  let os := partOffsets 64 ps
  let o : Nat → Nat := fun i => os.getD i 0
  let nErr := (ps.getD 1 []).length / 32
  let total := o 4 + (ps.getD 4 []).length
  let hdr : List Word :=
    [BitVec.ofNat 64 (0x444D5058 * 2 ^ 32 + 1), BitVec.ofNat 64 s.now, BitVec.ofNat 64 (o 0), BitVec.ofNat 64 (o 1 * 2 ^ 32 + nErr),
     BitVec.ofNat 64 (o 2), BitVec.ofNat 64 (o 3), BitVec.ofNat 64 (o 4), BitVec.ofNat 64 total]
  let put : State → Nat → List Byte → State := fun t off bs => putBytes t (base + off) (bs.take (2 ^ 30 - off))
  let t := (List.zip os ps).foldl (fun t p => put t p.1 p.2) (put s 0 (List.replicate 64 0))
  .next (modIo (put t 0 (wordsBytes hdr)) (fun io => { io with stopped := true }))

/-! ## Power (R309) -/

/-- POWER_THROTTLE: the arithmetic clock of a die goes one step of 100 MHz down, or up again; this changes time only. -/
def execPowerThrottle (die : Nat) (down : Bool) (s : State) : Res :=
  .next (modDie s die (fun d => { d with throttle := if down then min 18 (d.throttle + 1) else d.throttle - 1 }))

end Sys2Proof.Machine
end

