-- ==== Sys2Proof/Machine/SystemScope.lean ====
section
/-! DEFINITION. System-scope instructions: acquire loads, release stores and fences (spec/08 R153, R154). -/

namespace Sys2Proof.Machine

/-- R153: an acquire load, a chunk of its own. -/
def execLdacqSys (b : Src) (d : Dest) (z : Size) (o : BitVec 11) (s : State) : Res :=
  let ea := eaOf s b o (sizeN z)
  let n := sizeN z
  let done : List Byte → State → Res := fun bs s =>
    finishClosing s (push (me s).regs d (signExt (BitVec.ofNat 64 (leNat bs)) (8 * n)))
  closing s (fun s => withClosing s (loadReq ea n) (fun t s =>
    if t.sys then sysRead s [(t, n)] done
    else if viewPoisoned s t n then raiseClosing s cMcheck ea 1
    else done (viewBytes s t n) (if cached t then
      askFill s t.asid (regionOf t.va) (t.key / 512) (wordLo t.va) (wordHi t.va n) (fun _ => true) .pred else s)))

/-- R153: a release store: every earlier access of the thread is complete first. -/
def execStrelSys (b r : Src) (z : Size) (o : BitVec 11) (s : State) : Res :=
  let n := sizeN z
  let bs := natBytes n (src s r).toNat
  closing s (fun s =>
    if !(me s).sysOut.isEmpty then stall s (.sys 0)
    else withClosing s (storeReq (eaOf s b o n) n) (fun t s' =>
      if t.sys then sysWrite s' [(t, bs)] (fun s => finishClosing s (me s).regs)
      else if !mayCommit s' t 0 (targetSig t n) then stall s .arb
      else if t.space == .engine then
        let u := crcClosing s' t bs
        let u := if !takesEffect u then u
          else squashMeeting (engineStore { u with order := u.order + 1 } u.cur (t.va % 2 ^ 48) bs) (targetSig t n)
            (fun l => coreOf l == coreOf u.cur && l != u.cur)
        finishClosing u (me u).regs
      else
        let u := storeNow s' t bs
        finishClosing u (me u).regs))

/-- R154, R144: every earlier access is complete; stores committed so far may be fetched. -/
def execFenceSys (s : State) : Res :=
  closing s (fun s =>
    if !(me s).sysOut.isEmpty then stall s (.sys 0)
    else
      let s := { s with order := s.order + 1 }
      finishClosing (modMe s (fun c => { c with fenceSeq := s.order })) (me s).regs)

/-- R154: every earlier access to I/O pages is complete. -/
def execFenceIo (s : State) : Res :=
  closing s (fun s =>
    if s.sysOps.any (fun p => p.2.loc == s.cur && p.2.io) then stall s (.sys 0) else finishClosing s (me s).regs)

end Sys2Proof.Machine
end

