-- ==== Sys2Proof/Machine/Dispatch.lean ====
section
/-! DEFINITION. The meaning of every instruction: one call per constructor of `Instr`. -/

namespace Sys2Proof.Machine

def exec (i : Instr) (s : State) : Host.Outcome State Fault Refusal :=
  match i with
  | .add a b d w => Sys2Proof.Machine.execAdd a b d w s
  | .sub a b d w => Sys2Proof.Machine.execSub a b d w s
  | .mul a b d w => Sys2Proof.Machine.execMul a b d w s
  | .mulh a b d => Sys2Proof.Machine.execMulh a b d s
  | .mulhz a b d => Sys2Proof.Machine.execMulhz a b d s
  | .div a b d w => Sys2Proof.Machine.execDiv a b d w s
  | .divz a b d w => Sys2Proof.Machine.execDivz a b d w s
  | .rem a b d w => Sys2Proof.Machine.execRem a b d w s
  | .remz a b d w => Sys2Proof.Machine.execRemz a b d w s
  | .andR a b d => Sys2Proof.Machine.execAndR a b d s
  | .orR a b d => Sys2Proof.Machine.execOrR a b d s
  | .xorR a b d => Sys2Proof.Machine.execXorR a b d s
  | .andn a b d => Sys2Proof.Machine.execAndn a b d s
  | .orn a b d => Sys2Proof.Machine.execOrn a b d s
  | .shl a b d w => Sys2Proof.Machine.execShl a b d w s
  | .shr a b d w => Sys2Proof.Machine.execShr a b d w s
  | .sra a b d w => Sys2Proof.Machine.execSra a b d w s
  | .rol a b d w => Sys2Proof.Machine.execRol a b d w s
  | .ror a b d w => Sys2Proof.Machine.execRor a b d w s
  | .minS a b d => Sys2Proof.Machine.execMinS a b d s
  | .maxS a b d => Sys2Proof.Machine.execMaxS a b d s
  | .minz a b d => Sys2Proof.Machine.execMinz a b d s
  | .maxz a b d => Sys2Proof.Machine.execMaxz a b d s
  | .slt a b d => Sys2Proof.Machine.execSlt a b d s
  | .sltz a b d => Sys2Proof.Machine.execSltz a b d s
  | .seqR a b d => Sys2Proof.Machine.execSeqR a b d s
  | .sne a b d => Sys2Proof.Machine.execSne a b d s
  | .clz a d w => Sys2Proof.Machine.execClz a d w s
  | .ctz a d w => Sys2Proof.Machine.execCtz a d w s
  | .popc a d w => Sys2Proof.Machine.execPopc a d w s
  | .brev a d w => Sys2Proof.Machine.execBrev a d w s
  | .bswap a d w => Sys2Proof.Machine.execBswap a d w s
  | .sext a x d => Sys2Proof.Machine.execSext a x d s
  | .zext a x d => Sys2Proof.Machine.execZext a x d s
  | .sel a b c d => Sys2Proof.Machine.execSel a b c d s
  | .ins a b c d => Sys2Proof.Machine.execIns a b c d s
  | .lea a b c d => Sys2Proof.Machine.execLea a b c d s
  | .addi a d im => Sys2Proof.Machine.execAddi a d im s
  | .andi a d im => Sys2Proof.Machine.execAndi a d im s
  | .ori a d im => Sys2Proof.Machine.execOri a d im s
  | .xori a d im => Sys2Proof.Machine.execXori a d im s
  | .shli a d n => Sys2Proof.Machine.execShli a d n s
  | .shri a d n => Sys2Proof.Machine.execShri a d n s
  | .srai a d n => Sys2Proof.Machine.execSrai a d n s
  | .slti a d im => Sys2Proof.Machine.execSlti a d im s
  | .sltzi a d im => Sys2Proof.Machine.execSltzi a d im s
  | .seqi a d im => Sys2Proof.Machine.execSeqi a d im s
  | .li d im => Sys2Proof.Machine.execLi d im s
  | .lcat a d im => Sys2Proof.Machine.execLcat a d im s
  | .extI a d p l => Sys2Proof.Machine.execExtI a d p l s
  | .space a d => Sys2Proof.Machine.execSpace a d s
  | .castPg a d => Sys2Proof.Machine.execCastPg a d s
  | .castSl a d => Sys2Proof.Machine.execCastSl a d s
  | .castSx a d => Sys2Proof.Machine.execCastSx a d s
  | .castCl a d => Sys2Proof.Machine.execCastCl a d s
  | .castOff a d => Sys2Proof.Machine.execCastOff a d s
  | .jmp o => Sys2Proof.Machine.execJmp o s
  | .call o => Sys2Proof.Machine.execCall o s
  | .beq a b o => Sys2Proof.Machine.execBeq a b o s
  | .bne a b o => Sys2Proof.Machine.execBne a b o s
  | .blt a b o => Sys2Proof.Machine.execBlt a b o s
  | .bge a b o => Sys2Proof.Machine.execBge a b o s
  | .bltz a o => Sys2Proof.Machine.execBltz a o s
  | .bgez a o => Sys2Proof.Machine.execBgez a o s
  | .bz a o => Sys2Proof.Machine.execBz a o s
  | .bnz a o => Sys2Proof.Machine.execBnz a o s
  | .jtab a b o => Sys2Proof.Machine.execJtab a b o s
  | .jr a => Sys2Proof.Machine.execJr a s
  | .callr a => Sys2Proof.Machine.execCallr a s
  | .ld b d z p o => Sys2Proof.Machine.execLd b d z p o s
  | .lz b d z p o => Sys2Proof.Machine.execLz b d z p o s
  | .st b r z p o => Sys2Proof.Machine.execSt b r z p o s
  | .stNt b r z o => Sys2Proof.Machine.execStNt b r z o s
  | .ldp b d p o => Sys2Proof.Machine.execLdp b d p o s
  | .stp a b c o => Sys2Proof.Machine.execStp a b c o s
  | .pref b l p => Sys2Proof.Machine.execPref b l p s
  | .flush b l => Sys2Proof.Machine.execFlush b l s
  | .clean b l => Sys2Proof.Machine.execClean b l s
  | .inval b l => Sys2Proof.Machine.execInval b l s
  | .amo a b d w o => Sys2Proof.Machine.execAmo a b d w o s
  | .cas a b c d w => Sys2Proof.Machine.execCas a b c d w s
  | .amof a b w o => Sys2Proof.Machine.execAmof a b w o s
  | .amor a b d w o => Sys2Proof.Machine.execAmor a b d w o s
  | .amorCas a b c d w => Sys2Proof.Machine.execAmorCas a b c d w s
  | .ldacqSys b d z o => Sys2Proof.Machine.execLdacqSys b d z o s
  | .strelSys b r z o => Sys2Proof.Machine.execStrelSys b r z o s
  | .waita a b => Sys2Proof.Machine.execWaita a b s
  | .give a => Sys2Proof.Machine.execGive a s
  | .take a => Sys2Proof.Machine.execTake a s
  | .fwait a b d => Sys2Proof.Machine.execFwait a b d s
  | .froom a b d => Sys2Proof.Machine.execFroom a b d s
  | .fadv a b => Sys2Proof.Machine.execFadv a b s
  | .fpub a b => Sys2Proof.Machine.execFpub a b s
  | .tbinit a b => Sys2Proof.Machine.execTbinit a b s
  | .tbarr a => Sys2Proof.Machine.execTbarr a s
  | .tbexp a b => Sys2Proof.Machine.execTbexp a b s
  | .tbwait a b => Sys2Proof.Machine.execTbwait a b s
  | .send a => Sys2Proof.Machine.execSend a s
  | .sendr a b => Sys2Proof.Machine.execSendr a b s
  | .enq a => Sys2Proof.Machine.execEnq a s
  | .enqt a b => Sys2Proof.Machine.execEnqt a b s
  | .deq a d => Sys2Proof.Machine.execDeq a d s
  | .jinit a b => Sys2Proof.Machine.execJinit a b s
  | .doneJ a => Sys2Proof.Machine.execDoneJ a s
  | .doneT a => Sys2Proof.Machine.execDoneT a s
  | .doneF a => Sys2Proof.Machine.execDoneF a s
  | .rread a d z => Sys2Proof.Machine.execRread a d z s
  | .launch a => Sys2Proof.Machine.execLaunch a s
  | .qmap a b => Sys2Proof.Machine.execQmap a b s
  | .tryC a o => Sys2Proof.Machine.execTryC a o s
  | .tryS a o => Sys2Proof.Machine.execTryS a o s
  | .cut a => Sys2Proof.Machine.execCut a s
  | .mark d => Sys2Proof.Machine.execMark d s
  | .trail a z => Sys2Proof.Machine.execTrail a z s
  | .fadd a b d p => Sys2Proof.Machine.execFadd a b d p s
  | .fsub a b d p => Sys2Proof.Machine.execFsub a b d p s
  | .fmul a b d p => Sys2Proof.Machine.execFmul a b d p s
  | .fdiv a b d p => Sys2Proof.Machine.execFdiv a b d p s
  | .fmin a b d p => Sys2Proof.Machine.execFmin a b d p s
  | .fmax a b d p => Sys2Proof.Machine.execFmax a b d p s
  | .fsqrt a d p => Sys2Proof.Machine.execFsqrt a d p s
  | .fclass a d p => Sys2Proof.Machine.execFclass a d p s
  | .fround a d p => Sys2Proof.Machine.execFround a d p s
  | .fsgn a b d p => Sys2Proof.Machine.execFsgn a b d p s
  | .ffma a b c d p => Sys2Proof.Machine.execFfma a b c d p s
  | .feq a b d p => Sys2Proof.Machine.execFeq a b d p s
  | .flt a b d p => Sys2Proof.Machine.execFlt a b d p s
  | .fle a b d p => Sys2Proof.Machine.execFle a b d p s
  | .fcvt a d t y => Sys2Proof.Machine.execFcvt a d t y s
  | .mfmt im => Sys2Proof.Machine.execMfmt im s
  | .mscl a n => Sys2Proof.Machine.execMscl a n s
  | .mtick d => Sys2Proof.Machine.execMtick d s
  | .mresume a => Sys2Proof.Machine.execMresume a s
  | .accspill a b => Sys2Proof.Machine.execAccspill a b s
  | .vld v b m p z => Sys2Proof.Machine.execVld v b m p z s
  | .vst v b m p z => Sys2Proof.Machine.execVst v b m p z s
  | .vlds v b x m p z => Sys2Proof.Machine.execVlds v b x m p z s
  | .vsts v b x m p z => Sys2Proof.Machine.execVsts v b x m p z s
  | .vgather v b x m p z => Sys2Proof.Machine.execVgather v b x m p z s
  | .vscatter v b x m p z => Sys2Proof.Machine.execVscatter v b x m p z s
  | .vadd d a b m t => Sys2Proof.Machine.execVadd d a b m t s
  | .vsub d a b m t => Sys2Proof.Machine.execVsub d a b m t s
  | .vmul d a b m t => Sys2Proof.Machine.execVmul d a b m t s
  | .vfma d a b m t => Sys2Proof.Machine.execVfma d a b m t s
  | .vmin d a b m t => Sys2Proof.Machine.execVmin d a b m t s
  | .vmax d a b m t => Sys2Proof.Machine.execVmax d a b m t s
  | .vabs d a m t => Sys2Proof.Machine.execVabs d a m t s
  | .vneg d a m t => Sys2Proof.Machine.execVneg d a m t s
  | .vand d a b m t => Sys2Proof.Machine.execVand d a b m t s
  | .vor d a b m t => Sys2Proof.Machine.execVor d a b m t s
  | .vxor d a b m t => Sys2Proof.Machine.execVxor d a b m t s
  | .vshl d a b m t => Sys2Proof.Machine.execVshl d a b m t s
  | .vshr d a b m t => Sys2Proof.Machine.execVshr d a b m t s
  | .vsra d a b m t => Sys2Proof.Machine.execVsra d a b m t s
  | .vcmp d a b m c t => Sys2Proof.Machine.execVcmp d a b m c t s
  | .vsel d a b m t => Sys2Proof.Machine.execVsel d a b m t s
  | .vredSum d a m t => Sys2Proof.Machine.execVredSum d a m t s
  | .vredMin d a m t => Sys2Proof.Machine.execVredMin d a m t s
  | .vredMax d a m t => Sys2Proof.Machine.execVredMax d a m t s
  | .vscan d a o m t => Sys2Proof.Machine.execVscan d a o m t s
  | .vperm d a b m t => Sys2Proof.Machine.execVperm d a b m t s
  | .vcompress d a m t => Sys2Proof.Machine.execVcompress d a m t s
  | .vbcast d a m t => Sys2Proof.Machine.execVbcast d a m t s
  | .vext d a im t => Sys2Proof.Machine.execVext d a im t s
  | .vins d a im t => Sys2Proof.Machine.execVins d a im t s
  | .vcvt d a y m t => Sys2Proof.Machine.execVcvt d a y m t s
  | .vdq d a y m t => Sys2Proof.Machine.execVdq d a y m t s
  | .vdot d a b m t => Sys2Proof.Machine.execVdot d a b m t s
  | .vcvtq d a y m t => Sys2Proof.Machine.execVcvtq d a y m t s
  | .vcvtqH16 d a y t => Sys2Proof.Machine.execVcvtqH16 d a y t s
  | .vcvtqH32 d a y t => Sys2Proof.Machine.execVcvtqH32 d a y t s
  | .vhadH16 d a t => Sys2Proof.Machine.execVhadH16 d a t s
  | .vhadH32 d a t => Sys2Proof.Machine.execVhadH32 d a t s
  | .mand d a b => Sys2Proof.Machine.execMand d a b s
  | .mor d a b => Sys2Proof.Machine.execMor d a b s
  | .mnot d a => Sys2Proof.Machine.execMnot d a s
  | .mpop d a => Sys2Proof.Machine.execMpop d a s
  | .trap a => Sys2Proof.Machine.execTrap a s
  | .crd r d => Sys2Proof.Machine.execCrd r d s
  | .cwr a r => Sys2Proof.Machine.execCwr a r s
  | .tinv a b => Sys2Proof.Machine.execTinv a b s
  | .rmode a b m => Sys2Proof.Machine.execRmode a b m s
  | .ctxsave a => Sys2Proof.Machine.execCtxsave a s
  | .ctxload a => Sys2Proof.Machine.execCtxload a s
  | .pre a => Sys2Proof.Machine.execPre a s
  | .mcheck loc reason detail badva => Sys2Proof.Machine.execMcheck loc reason detail badva s
  | .grantRequest arb cid => Sys2Proof.Machine.execGrantRequest arb cid s
  | .commitMessage home cid => Sys2Proof.Machine.execCommitMessage home cid s
  | .forwardedW core cid => Sys2Proof.Machine.execForwardedW core cid s
  | .faultResponse loc pos => Sys2Proof.Machine.execFaultResponse loc pos s
  | .getS home f => Sys2Proof.Machine.execGetS home f s
  | .homeDataArrival home region => Sys2Proof.Machine.execHomeDataArrival home region s
  | .writeBack home region who words => Sys2Proof.Machine.execWriteBack home region who words s
  | .snoop home region who inval => Sys2Proof.Machine.execSnoop home region who inval s
  | .ownerMoveReport home region who => Sys2Proof.Machine.execOwnerMoveReport home region who s
  | .fillArrival f => Sys2Proof.Machine.execFillArrival f s
  | .extensionArrival f => Sys2Proof.Machine.execExtensionArrival f s
  | .leaseExpiry core asid va => Sys2Proof.Machine.execLeaseExpiry core asid va s
  | .recallName home region asid va => Sys2Proof.Machine.execRecallName home region asid va s
  | .recallAnswer home region core asid va => Sys2Proof.Machine.execRecallAnswer home region core asid va s
  | .pageWalk home asid page write => Sys2Proof.Machine.execPageWalk home asid page write s
  | .tinvHome home tid => Sys2Proof.Machine.execTinvHome home tid s
  | .rmodeDrain home tid => Sys2Proof.Machine.execRmodeDrain home tid s
  | .directoryError home region => Sys2Proof.Machine.execDirectoryError home region s
  | .filterError unit key => Sys2Proof.Machine.execFilterError unit key s
  | .inboundWrite req ro cells => Sys2Proof.Machine.execInboundWrite req ro cells s
  | .inboundRead req pa n => Sys2Proof.Machine.execInboundRead req pa n s
  | .atomicopFetchadd req pa n x => Sys2Proof.Machine.execAtomicopFetchadd req pa n x s
  | .atomicopSwap req pa n x => Sys2Proof.Machine.execAtomicopSwap req pa n x s
  | .atomicopCas req pa n x y => Sys2Proof.Machine.execAtomicopCas req pa n x y s
  | .backInvalidate line cid => Sys2Proof.Machine.execBackInvalidate line cid s
  | .backInvalidateAnswer line cid cells => Sys2Proof.Machine.execBackInvalidateAnswer line cid cells s
  | .messagePortWord asid req j x => Sys2Proof.Machine.execMessagePortWord asid req j x s
  | .messagePortSend asid req x => Sys2Proof.Machine.execMessagePortSend asid req x s
  | .gangGather lid g => Sys2Proof.Machine.execGangGather lid g s
  | .theft victim rec thief => Sys2Proof.Machine.execTheft victim rec thief s
  | .queueMiss die asid h => Sys2Proof.Machine.execQueueMiss die asid h s
  | .mailboxDelivery core asid msg => Sys2Proof.Machine.execMailboxDelivery core asid msg s
  | .successorWalk asid tcb loc im => Sys2Proof.Machine.execSuccessorWalk asid tcb loc im s
  | .tcbDecrement asid y tcb loc im => Sys2Proof.Machine.execTcbDecrement asid y tcb loc im s
  | .joinDecrement asid blk loc => Sys2Proof.Machine.execJoinDecrement asid blk loc s
  | .groupComplete lid g => Sys2Proof.Machine.execGroupComplete lid g s
  | .dupCompare lid g => Sys2Proof.Machine.execDupCompare lid g s
  | .barrierRelease gang band => Sys2Proof.Machine.execBarrierRelease gang band s
  | .preemptRequest desc excl => Sys2Proof.Machine.execPreemptRequest desc excl s
  | .preemptComplete desc asids => Sys2Proof.Machine.execPreemptComplete desc asids s
  | .releaseHeld desc => Sys2Proof.Machine.execReleaseHeld desc s
  | .accWriteback cl tile => Sys2Proof.Machine.execAccWriteback cl tile s
  | .chainHop pid hop => Sys2Proof.Machine.execChainHop pid hop s
  | .preEmptionRegister master x => Sys2Proof.Machine.execPreEmptionRegister master x s
  | .asidInvalidate master asid => Sys2Proof.Machine.execAsidInvalidate master asid s
  | .lostEventClear master asid => Sys2Proof.Machine.execLostEventClear master asid s
  | .haltCores master die x => Sys2Proof.Machine.execHaltCores master die x s
  | .haltRelease master die x => Sys2Proof.Machine.execHaltRelease master die x s
  | .stepCore master die => Sys2Proof.Machine.execStepCore master die s
  | .debugWindowWrite master die off x => Sys2Proof.Machine.execDebugWindowWrite master die off x s
  | .controlSpaceWrite master off x => Sys2Proof.Machine.execControlSpaceWrite master off x s
  | .claim id nonce => Sys2Proof.Machine.execClaim id nonce s
  | .heartbeat id nonce => Sys2Proof.Machine.execHeartbeat id nonce s
  | .successor id nonce next nextNonce => Sys2Proof.Machine.execSuccessor id nonce next nextNonce s
  | .switchImage img target => Sys2Proof.Machine.execSwitchImage img target s
  | .resetPackage keep => Sys2Proof.Machine.execResetPackage keep s
  | .powerThrottle die down => Sys2Proof.Machine.execPowerThrottle die down s
  | .systemScopeCompletion id x => Sys2Proof.Machine.execSystemScopeCompletion id x s
  | .nop => Sys2Proof.Machine.execNop s
  | .fenceSys => Sys2Proof.Machine.execFenceSys s
  | .fenceIo => Sys2Proof.Machine.execFenceIo s
  | .cend => Sys2Proof.Machine.execCend s
  | .spawn => Sys2Proof.Machine.execSpawn s
  | .doneP => Sys2Proof.Machine.execDoneP s
  | .yieldC => Sys2Proof.Machine.execYieldC s
  | .bar => Sys2Proof.Machine.execBar s
  | .barb => Sys2Proof.Machine.execBarb s
  | .failC => Sys2Proof.Machine.execFailC s
  | .eret => Sys2Proof.Machine.execEret s
  | .brk => Sys2Proof.Machine.execBrk s
  | .trapEntry => Sys2Proof.Machine.execTrapEntry s
  | .asyncTrap => Sys2Proof.Machine.execAsyncTrap s
  | .chunkLengthLimit => Sys2Proof.Machine.execChunkLengthLimit s
  | .chunkEnd => Sys2Proof.Machine.execChunkEnd s
  | .commitPoint => Sys2Proof.Machine.execCommitPoint s
  | .commitComplete => Sys2Proof.Machine.execCommitComplete s
  | .heldChunkStart => Sys2Proof.Machine.execHeldChunkStart s
  | .softError => Sys2Proof.Machine.execSoftError s
  | .watchWake => Sys2Proof.Machine.execWatchWake s
  | .yieldResume => Sys2Proof.Machine.execYieldResume s
  | .engineCommit => Sys2Proof.Machine.execEngineCommit s
  | .ioCommit => Sys2Proof.Machine.execIoCommit s
  | .cxlCacheSnoop => Sys2Proof.Machine.execCxlCacheSnoop s
  | .msixSend => Sys2Proof.Machine.execMsixSend s
  | .dispatch => Sys2Proof.Machine.execDispatch s
  | .queueProbe => Sys2Proof.Machine.execQueueProbe s
  | .ringDelivery => Sys2Proof.Machine.execRingDelivery s
  | .ringRetry => Sys2Proof.Machine.execRingRetry s
  | .queueStall => Sys2Proof.Machine.execQueueStall s
  | .taskHang => Sys2Proof.Machine.execTaskHang s
  | .mma => Sys2Proof.Machine.execMma s
  | .mmaz => Sys2Proof.Machine.execMmaz s
  | .mload => Sys2Proof.Machine.execMload s
  | .mstore => Sys2Proof.Machine.execMstore s
  | .mzero => Sys2Proof.Machine.execMzero s
  | .mfence => Sys2Proof.Machine.execMfence s
  | .commandComplete => Sys2Proof.Machine.execCommandComplete s
  | .pktCopy => Sys2Proof.Machine.execPktCopy s
  | .pktTofifo => Sys2Proof.Machine.execPktTofifo s
  | .pktGather => Sys2Proof.Machine.execPktGather s
  | .pktScatter => Sys2Proof.Machine.execPktScatter s
  | .pktFill => Sys2Proof.Machine.execPktFill s
  | .pktChain => Sys2Proof.Machine.execPktChain s
  | .electionClose => Sys2Proof.Machine.execElectionClose s
  | .ownerStale => Sys2Proof.Machine.execOwnerStale s
  | .recalibrateHome => Sys2Proof.Machine.execRecalibrateHome s
  | .retireDie => Sys2Proof.Machine.execRetireDie s
  | .writeRetiredMask => Sys2Proof.Machine.execWriteRetiredMask s
  | .serviceComplete => Sys2Proof.Machine.execServiceComplete s
  | .fatalErrorDump => Sys2Proof.Machine.execFatalErrorDump s
  | .sprinnyTranslate => Sys2Proof.Machine.execSprinnyTranslate s
  | .loaderStart => Sys2Proof.Machine.execLoaderStart s

end Sys2Proof.Machine
end

