-- ==== Sys2Proof/Machine/Fetch.lean ====
section
/-! DEFINITION. Fetching a word (R61, R137, R144, R279) and beginning a chunk (R94, R99). -/

namespace Sys2Proof.Machine

/-- How a fetch ends. -/
inductive Fetched where
  | word (w : BitVec 32) (s : State)
  /-- a fault of the fetch: `home` when it was found at a home (R265) -/
  | trap (home : Bool) (cause : Nat) (tval : Word)
  | wait (w : Stall) (s : State)

/-- R144: the word at an aligned key as it stood when the thread last executed fence.sys: the oldest version that a later
store replaced, else what memory holds. -/
def wordSeen (s : State) (key seq : Nat) : Word :=
  match s.codeLog.find? (fun e => e.1 == key && (e.2.2.2.isSome || seq ≤ e.2.2.1)) with
  | some e => e.2.1
  | none => memWord s.mem key

/-- The half of a word that the PC names (R5). -/
def halfAt (w : Word) (pc : Nat) : BitVec 32 := if pc % 8 = 0 then w.setWidth 32 else (w >>> 32).setWidth 32

/-- R137 checks 9–11 on the leaf of a fetched word, which needs X; then the word. A word fetched from a host or a peer is a
free value (R297). -/
def fetchLeaf (s : State) (pc : Nat) (l : Leaf) : Fetched :=
  let c := me s
  match leafFault s l pc ⟨false, false, true⟩ (isUser c) with
  | some cause => .trap true cause 0
  | none =>
    let a := leafAddr l pc
    if pteSystem l.pte then .word ((Config.outside s.tick 4).setWidth 32) s
    else if homeHolds s (homeOf pc) a (asidOf c) pc then .wait (.home (homeOf pc)) s
    else
      let s := if pteMode l.pte == 2 then claimCp s (homeOf pc) a (asidOf c) pc (coreOf s.cur) else s
      if pteMode l.pte == 2 && (cpOwnerOf s (homeOf pc) a).any (· != coreOf s.cur) then .trap true cCpForeign 0
      else match throughFilter s (homeOf pc) (asidOf c) false (namedRegions a pc 4) with
        | (none, s) => .wait (.home (homeOf pc)) s
        | (some s, _) =>
          if s.poison.contains (a / 8 * 8) then .trap true cMcheck 0
          else .word (halfAt (wordSeen s (a / 8 * 8) c.fenceSeq) pc) s

/-- R61 step 1: fetch the word at the PC of the executing context. -/
def fetch (s : State) : Fetched :=
  let c := me s
  let pc := c.regs.pc.toNat
  let asid := asidOf c
  if pc / 2 ^ 56 != 0 then .trap true cNoncanon 0
  else if !isGlobal pc then .trap false cWindow 0
  else match watchHit s asid pc 4 [62] with
    | some i => .trap false cWatch (BitVec.ofNat 64 (16 * i + 1))
    | none =>
      match tlbFind s asid pc with
      | some l => fetchLeaf s pc l
      | none =>
        if c.walkFault.any (fun f => f.1 == asid && f.2.1 == pageOf pc) then
          .trap true ((c.walkFault.map (fun f => f.2.2)).getD 0) 0
        else .wait (.walk (homeOf pc) asid (pageOf pc)) (postOnce s 0 (.pageWalk (homeOf pc) asid (pageOf pc) false))

/-- R99: at the first instruction of a chunk the checkpoint is taken. -/
def beginCtx (c : Ctx) : Ctx :=
  if c.chunk.live then { c with run := .ready }
  else { c with
    run := .ready,
    chunk := { c.chunk with
      live := true,
      cp := { regs := c.regs, choice := c.ctl.choice, spoor := c.ctl.spoor, fpflags := c.ctl.fpflags, step := stepOn c.ctl } } }

/-- R111: the held chunk of context `l` in `s'` has reached an arbiter outside its grants: one that it would ask, or a home that it
waits for. -/
def cutNeeded (s' : State) (l num : Nat) : Bool :=
  let c := ctxAt s' l
  c.chunk.live && c.chunk.held && c.chunk.num == num
    && (!((arbSet l c.chunk).all (fun a => c.chunk.grants.contains a)) || (match c.run with
      | .stalled (.home h) => !c.chunk.grants.contains h
      | .stalled (.walk h _ _) => !c.chunk.grants.contains h
      | _ => false))

/-- R111: the held chunk ends before the instruction; with nothing before it, it ends being held. -/
def cutHeld (s : State) (l : Nat) : State :=
  if chunkEmpty (ctxAt s l) then
    modCtx (releasePriority s l) l (fun c => { c with
      ctl := withHeld c.ctl false, chunk := { c.chunk with held := false, grants := [], conflicts := 0 } })
  else endChunkOf s l .resume

/-- What follows an instruction of context `l` that began in `s`: a held chunk may have to be cut before it; a closing operation has
been a chunk, whose commit registers (R325), prunes (R329), wakes yielded contexts (R257), and halts a core that was to run one chunk
(R277). -/
def settle (s : State) (l : Nat) (s' : State) : State :=
  let num := (ctxAt s l).chunk.num
  if cutNeeded s' l num then cutHeld s l
  else if (ctxAt s' l).chunk.num == num then s'
  else
    let s' := wakeYielded (committed s' l s'.order (ctxAt s' l).chunk.tries) l
    endStep (modCtx s' l (fun c => { c with chunk := { c.chunk with tries := [] } })) l

end Sys2Proof.Machine
end

