-- ==== Sys2Proof/Machine/Sched.lean ====
section
/-! DEFINITION. Which steps may happen next, the free choice among them, and the clock. -/

namespace Sys2Proof.Machine

/-- A step that may happen next. -/
inductive Turn where
  /-- the agenda's entry at a position -/
  | pending (i : Nat)
  /-- a context issues -/
  | issue (l : Nat)
  /-- an idle context asks the Fox for work (R232) -/
  | ask
  /-- a copy engine looks at a copy queue (R390): ASID and handle -/
  | intake (asid h : Nat)
deriving DecidableEq, Repr

/-- The cycle from which an agenda entry may happen has come. -/
def due (s : State) (d : Nat) : Bool := d == 0 || d ≤ s.now

/-- A step that a compute die takes: its cores, clusters and Fox. -/
def onComputeDie : Instr → Bool
  | .mcheck _ _ _ _ | .forwardedW _ _ | .faultResponse _ _ | .snoop _ _ _ _ | .fillArrival _ | .extensionArrival _
  | .leaseExpiry _ _ _ | .gangGather _ _ | .theft _ _ _ | .queueMiss _ _ _ | .mailboxDelivery _ _ _ | .successorWalk _ _ _ _
  | .tcbDecrement _ _ _ _ _ | .joinDecrement _ _ _ | .groupComplete _ _ | .dupCompare _ _ | .barrierRelease _ _
  | .preemptRequest _ _ | .preemptComplete _ _ | .releaseHeld _ | .accWriteback _ _ | .stepCore _ _ | .powerThrottle _ _
  | .recallAnswer _ _ _ _ _ | .retireDie | .asyncTrap | .trapEntry | .chunkLengthLimit | .chunkEnd | .commitPoint | .commitComplete | .heldChunkStart | .softError | .watchWake
  | .yieldResume | .dispatch | .queueProbe | .ringDelivery | .ringRetry | .queueStall | .taskHang | .mma | .mmaz | .mload
  | .mstore | .mzero | .mfence | .commandComplete | .chainHop _ _ | .filterError _ _ => true
  | _ => false

/-- A grant request at a cluster or die Badger is a step of its compute die. -/
def atDie : Instr → Bool
  | .grantRequest arb _ => 16 ≤ arb
  | _ => false

/-- R308: after a fatal-error stop no compute die takes a step. -/
def stoppedStep (s : State) (x : Instr) : Bool := s.io.stopped && (onComputeDie x || atDie x)
def mayRun (s : State) (d : Nat) (x : Instr) : Bool := due s d && !stoppedStep s x

/-- R132, R294, R300: the requester of a request from outside the package, by whose order it is taken. -/
def inboundOf : Instr → Option Nat
  | .inboundWrite req _ _ | .inboundRead req _ _ | .atomicopFetchadd req _ _ _ | .atomicopSwap req _ _ _ | .atomicopCas req _ _ _ _
  | .messagePortWord _ req _ _ | .messagePortSend _ req _ => some (reqOrder req)
  | .controlSpaceWrite w _ _ => if 8 ≤ w then some (reqOrder (w - 8)) else none
  | _ => none

/-- What is served in arrival order, by a number and a pair of units: messages of one context to one core (R248), requests at one
arbiter (R105), the requests for one region at its home (R204, R209), and the requests of one requester (R132, R294, R300). The
write-backs that a transient region may await, the recalls that a frozen region's tinv awaits (R184), and fills whose translation is gone
stand apart. -/
def orderKey (s : State) (u : Nat) (i : Instr) : Option (Nat × Nat × Nat) :=
  let held : Nat → Nat → Bool := fun home region => (dirAt s home region).state == 17 || drainHolds s home region
  match i with
  | .mailboxDelivery core _ _ => some (0, u, core)
  | .grantRequest arb _ => some (1, arb, 0)
  | .getS home f => if (fillMode s f).isSome then some (2, home, f.region) else none
  | .ownerMoveReport home region _ => some (2, home, region)
  | .recallName home region _ _ => if held home region then none else some (2, home, region)
  | .writeBack home region _ _ =>
    if held home region || transient (dirAt s home region).state then some (3, home, region) else some (2, home, region)
  | i => (inboundOf i).map (fun r => (4, r, 0))

/-- A step that waits for its time holds back those of its key that came after it, but at an arbiter: there a request that is examined
again later is one that waits for something else. A read of a requester holds back nothing. -/
def holdsBack (s : State) (d : Nat) (k : Nat × Nat × Nat) : Instr → Bool
  | .inboundRead _ _ _ => false
  | _ => k.1 != 1 || due s d

/-- R132: a write with Relaxed Ordering may come before earlier ones of its requester. -/
def overtakes : Instr → Bool
  | .inboundWrite _ ro _ => ro
  | _ => false

/-- Agenda entries that may happen; of those with one key only the first. -/
def pendingTurns (s : State) : Nat → List (Nat × Nat × Instr) → List (Nat × Nat × Nat) → List Turn
  | _, [], _ => []
  | i, (d, u, x) :: rest, seen =>
    match orderKey s u x with
    | none => (if mayRun s d x then [.pending i] else []) ++ pendingTurns s (i + 1) rest seen
    | some k =>
      (if mayRun s d x && (overtakes x || !seen.contains k) then [.pending i] else [])
        ++ pendingTurns s (i + 1) rest (if holdsBack s d k x then k :: seen else seen)

/-- A context that has an instruction to issue, or that waits for a condition which it examines again by executing the
instruction again. A halted core issues none, but a chunk of one instruction that is under way ends (R271, R277); one that runs one
chunk issues for its context only. -/
def mayIssue (s : State) (l : Nat) (c : Ctx) : Bool :=
  (match c.run with
    | .ready => true
    | .stalled .arb => true
    | .stalled (.home _) => true
    | .stalled .room => true
    | .stalled .start => true
    | .stalled (.homes _) => c.woken
    | _ => false)
  && (coreRuns s l || ((coreAt s (coreOf l)).halted && underWay s l))
  && c.after.all (fun t => (tblFind s.tinvs t).isNone && (tblFind s.rmodes t).isNone)

/-- R277: the chunk that a step command lets run is that of the first context that issues. -/
def stepBegun (s : State) (l : Nat) : State :=
  if (coreAt s (coreOf l)).stepping == .any then modCore s (coreOf l) (fun c => { c with stepping := .only l }) else s

def issueTurns (s : State) : List Turn := (s.ctxs.filter (fun e => mayIssue s e.1 e.2)).map (fun e => .issue e.1)

/-- Every step that may happen next. -/
def turns (s : State) : List Turn :=
  pendingTurns s 0 s.agenda [] ++ (if s.io.stopped then [] else issueTurns s ++ (if workWaits s then [.ask] else []))
    ++ (copyWork s).map (fun q => .intake q.1 q.2)

/-- Which context asks is not architectural (R232): a free choice. -/
def asker (s : State) : Nat := Config.choose s.tick 3 % 2 ^ 18

/-- The earliest cycle at which something on the agenda may happen. -/
def nextDue (s : State) : Option Nat :=
  (s.agenda.filter (fun e => !stoppedStep s e.2.2)).foldl (fun m e => match m with
    | none => some e.1
    | some x => some (min x e.1)) none

/-- Which of `n` turns is taken is a free choice. -/
def pick (s : State) : List Turn → Option Turn
  | [] => none
  | [t] => some t
  | ts => nth ts (Config.choose s.tick 0 % ts.length)

/-- After a step: time has passed. -/
def tickOver (s : State) : State := { s with now := s.now + Config.elapse s.tick, tick := s.tick + 1 }

/-- Take an entry off the agenda. -/
def takeOff (s : State) (i : Nat) (u : Nat) : State := { s with agenda := dropNth s.agenda i, cur := u }

end Sys2Proof.Machine
end

