-- ==== Sys2Proof/WellFormed.lean ====
section
/-! DEFINITION. Which terms of `Instr` are instructions: for the words, what the fields of R42–R59 and the type rules of
R365–R372 admit; for the steps without words, that every unit they name exists (R41, R118, R176). -/

namespace Sys2Proof

/-- R41: a context location is c.self, 18 bits. -/
def inLoc (l : Nat) : Bool := l < 2 ^ 18
/-- R41: a core location is c.self[17:3]. -/
def inCore (c : Nat) : Bool := c < 2 ^ 15
/-- R41: a cluster location is c.self[17:6]. -/
def inCluster (c : Nat) : Bool := c < 2 ^ 12
def inDie (d : Nat) : Bool := d < 64
/-- R176: H0–H15. -/
def inHome (h : Nat) : Bool := h < 16
/-- R34: ten bits. -/
def inAsid (a : Nat) : Bool := a < 1024
/-- R118: 16 home slices, 64 die Badgers, 48 cluster Badgers a die. -/
def inArb (a : Nat) : Bool := a < 80 + 48 * 64

/-- The instruction is one that the encoding (or, for a step, the package) admits. -/
def wellFormed : Instr → Bool
  | .nop => true
  | .add _ _ _ _ => true
  | .sub _ _ _ _ => true
  | .mul _ _ _ _ => true
  | .mulh _ _ _ => true
  | .mulhz _ _ _ => true
  | .div _ _ _ _ => true
  | .divz _ _ _ _ => true
  | .rem _ _ _ _ => true
  | .remz _ _ _ _ => true
  | .andR _ _ _ => true
  | .orR _ _ _ => true
  | .xorR _ _ _ => true
  | .andn _ _ _ => true
  | .orn _ _ _ => true
  | .shl _ _ _ _ => true
  | .shr _ _ _ _ => true
  | .sra _ _ _ _ => true
  | .rol _ _ _ _ => true
  | .ror _ _ _ _ => true
  | .minS _ _ _ => true
  | .maxS _ _ _ => true
  | .minz _ _ _ => true
  | .maxz _ _ _ => true
  | .slt _ _ _ => true
  | .sltz _ _ _ => true
  | .seqR _ _ _ => true
  | .sne _ _ _ => true
  | .clz _ _ _ => true
  | .ctz _ _ _ => true
  | .popc _ _ _ => true
  | .brev _ _ _ => true
  | .bswap _ _ _ => true
  | .sext _ _ _ => true
  | .zext _ _ _ => true
  | .sel _ _ _ _ => true
  | .ins _ _ _ _ => true
  | .lea _ _ _ _ => true
  | .addi _ _ _ => true
  | .andi _ _ _ => true
  | .ori _ _ _ => true
  | .xori _ _ _ => true
  | .shli _ _ _ => true
  | .shri _ _ _ => true
  | .srai _ _ _ => true
  | .slti _ _ _ => true
  | .sltzi _ _ _ => true
  | .seqi _ _ _ => true
  | .li _ _ => true
  | .lcat _ _ _ => true
  | .extI _ _ _ _ => true
  | .space _ _ => true
  | .castPg _ _ => true
  | .castSl _ _ => true
  | .castSx _ _ => true
  | .castCl _ _ => true
  | .castOff _ _ => true
  | .jmp _ => true
  | .call _ => true
  | .beq _ _ _ => true
  | .bne _ _ _ => true
  | .blt _ _ _ => true
  | .bge _ _ _ => true
  | .bltz _ _ => true
  | .bgez _ _ => true
  | .bz _ _ => true
  | .bnz _ _ => true
  | .jtab _ _ _ => true
  | .jr _ => true
  | .callr _ => true
  | .ld _ _ _ _ _ => true
  | .lz _ _ z _ _ => z != .d
  | .st _ _ _ p _ => p != .region
  | .stNt _ _ _ _ => true
  | .ldp _ _ _ _ => true
  | .stp _ _ _ _ => true
  | .pref _ _ _ => true
  | .flush _ _ => true
  | .clean _ _ => true
  | .inval _ _ => true
  | .amo _ _ _ _ _ => true
  | .cas _ _ _ _ _ => true
  | .amof _ _ _ _ => true
  | .amor _ _ _ _ _ => true
  | .amorCas _ _ _ _ _ => true
  | .ldacqSys _ _ _ _ => true
  | .strelSys _ _ _ _ => true
  | .fenceSys => true
  | .fenceIo => true
  | .waita _ _ => true
  | .cend => true
  | .give _ => true
  | .take _ => true
  | .fwait _ _ _ => true
  | .froom _ _ _ => true
  | .fadv _ _ => true
  | .fpub _ _ => true
  | .tbinit _ _ => true
  | .tbarr _ => true
  | .tbexp _ _ => true
  | .tbwait _ _ => true
  | .send _ => true
  | .sendr _ _ => true
  | .enq _ => true
  | .enqt _ _ => true
  | .deq _ _ => true
  | .spawn => true
  | .jinit _ _ => true
  | .doneP => true
  | .doneJ _ => true
  | .doneT _ => true
  | .doneF _ => true
  | .yieldC => true
  | .rread _ _ _ => true
  | .launch _ => true
  | .bar => true
  | .barb => true
  | .qmap _ _ => true
  | .tryC _ _ => true
  | .tryS _ _ => true
  | .failC => true
  | .cut _ => true
  | .mark _ => true
  | .trail _ _ => true
  | .fadd _ _ _ _ => true
  | .fsub _ _ _ _ => true
  | .fmul _ _ _ _ => true
  | .fdiv _ _ _ _ => true
  | .fmin _ _ _ _ => true
  | .fmax _ _ _ _ => true
  | .fsqrt _ _ _ => true
  | .fclass _ _ _ => true
  | .fround _ _ _ => true
  | .fsgn _ _ _ _ => true
  | .ffma _ _ _ _ _ => true
  | .feq _ _ _ _ => true
  | .flt _ _ _ _ => true
  | .fle _ _ _ _ => true
  | .fcvt _ _ t s => fcvtOk t s
  | .mfmt i => fmtOk i
  | .mscl _ _ => true
  | .mtick _ => true
  | .mresume _ => true
  | .accspill _ _ => true
  | .vld _ _ _ _ _ => true
  | .vst _ _ _ _ _ => true
  | .vlds _ _ _ _ _ _ => true
  | .vsts _ _ _ _ _ _ => true
  | .vgather _ _ _ _ _ _ => true
  | .vscatter _ _ _ _ _ _ => true
  | .vadd _ _ _ _ _ => true
  | .vsub _ _ _ _ _ => true
  | .vmul _ _ _ _ _ => true
  | .vfma _ _ _ _ _ => true
  | .vmin _ _ _ _ _ => true
  | .vmax _ _ _ _ _ => true
  | .vabs _ _ _ _ => true
  | .vneg _ _ _ _ => true
  | .vand _ _ _ _ t => isInt t
  | .vor _ _ _ _ t => isInt t
  | .vxor _ _ _ _ t => isInt t
  | .vshl _ _ _ _ t => isInt t
  | .vshr _ _ _ _ t => isInt t
  | .vsra _ _ _ _ t => isInt t
  | .vcmp _ _ b _ c t => vcmpOk c b t
  | .vsel _ _ _ _ _ => true
  | .vredSum _ _ _ _ => true
  | .vredMin _ _ _ _ => true
  | .vredMax _ _ _ _ => true
  | .vscan _ _ _ _ _ => true
  | .vperm _ _ _ _ _ => true
  | .vcompress _ _ _ _ => true
  | .vbcast _ _ _ _ => true
  | .vext _ _ i t => idxOk i t
  | .vins _ _ i t => idxOk i t
  | .vcvt _ _ s _ t => vcvtOk t s
  | .vdq _ _ s _ t => vdqOk t s
  | .vdot _ _ _ _ t => vdotOk t
  | .vcvtq _ _ s m t => vcvtqOk t s m
  | .vcvtqH16 _ _ s t => vcvtqHOk t s 16
  | .vcvtqH32 _ _ s t => vcvtqHOk t s 32
  | .vhadH16 _ _ t => vhadOk t 16
  | .vhadH32 _ _ t => vhadOk t 32
  | .mand _ _ _ => true
  | .mor _ _ _ => true
  | .mnot _ _ => true
  | .mpop _ _ => true
  | .trap _ => true
  | .eret => true
  | .crd r _ => crOk r
  | .cwr _ r => crOk r
  | .brk => true
  | .tinv _ _ => true
  | .rmode _ _ _ => true
  | .ctxsave _ => true
  | .ctxload _ => true
  | .pre _ => true
  | .trapEntry => true
  | .asyncTrap => true
  | .mcheck loc _ _ _ => inLoc loc
  | .chunkLengthLimit => true
  | .chunkEnd => true
  | .grantRequest arb _ => inArb arb
  | .commitPoint => true
  | .commitMessage home _ => inHome home
  | .forwardedW core _ => inCore core
  | .commitComplete => true
  | .heldChunkStart => true
  | .faultResponse loc _ => inLoc loc
  | .softError => true
  | .watchWake => true
  | .yieldResume => true
  | .getS home _ => inHome home
  | .homeDataArrival home _ => inHome home
  | .writeBack home _ _ _ => inHome home
  | .snoop home _ _ _ => inHome home
  | .ownerMoveReport home _ _ => inHome home
  | .fillArrival _ => true
  | .extensionArrival _ => true
  | .leaseExpiry core asid _ => inCore core && inAsid asid
  | .recallName home _ asid _ => inHome home && inAsid asid
  | .recallAnswer home _ core asid _ => inHome home && inCore core && inAsid asid
  | .pageWalk home asid _ _ => inHome home && inAsid asid
  | .tinvHome home _ => inHome home
  | .rmodeDrain home _ => inHome home
  | .directoryError home _ => inHome home
  | .filterError _ _ => true
  | .engineCommit => true
  | .inboundWrite _ _ _ => true
  | .ioCommit => true
  | .inboundRead _ _ _ => true
  | .atomicopFetchadd _ _ _ _ => true
  | .atomicopSwap _ _ _ _ => true
  | .atomicopCas _ _ _ _ _ => true
  | .backInvalidate _ _ => true
  | .backInvalidateAnswer _ _ _ => true
  | .cxlCacheSnoop => true
  | .msixSend => true
  | .messagePortWord asid _ _ _ => inAsid asid
  | .messagePortSend asid _ _ => inAsid asid
  | .dispatch => true
  | .gangGather _ _ => true
  | .theft victim _ thief => inLoc victim && inLoc thief
  | .queueMiss die asid _ => inDie die && inAsid asid
  | .queueProbe => true
  | .ringDelivery => true
  | .ringRetry => true
  | .queueStall => true
  | .mailboxDelivery core asid _ => inCore core && inAsid asid
  | .successorWalk asid _ loc _ => inAsid asid && inLoc loc
  | .tcbDecrement asid _ _ loc _ => inAsid asid && inLoc loc
  | .joinDecrement asid _ loc => inAsid asid && inLoc loc
  | .groupComplete _ _ => true
  | .dupCompare _ _ => true
  | .taskHang => true
  | .barrierRelease _ _ => true
  | .preemptRequest _ _ => true
  | .preemptComplete _ _ => true
  | .releaseHeld _ => true
  | .mma => true
  | .mmaz => true
  | .mload => true
  | .mstore => true
  | .mzero => true
  | .mfence => true
  | .commandComplete => true
  | .accWriteback cl _ => inCluster cl
  | .pktCopy => true
  | .pktTofifo => true
  | .pktGather => true
  | .pktScatter => true
  | .pktFill => true
  | .pktChain => true
  | .chainHop _ _ => true
  | .preEmptionRegister _ _ => true
  | .asidInvalidate _ asid => inAsid asid
  | .lostEventClear _ asid => inAsid asid
  | .haltCores _ die _ => inDie die
  | .haltRelease _ die _ => inDie die
  | .stepCore _ die => inDie die
  | .debugWindowWrite _ die _ _ => inDie die
  | .controlSpaceWrite _ _ _ => true
  | .claim _ _ => true
  | .electionClose => true
  | .heartbeat _ _ => true
  | .ownerStale => true
  | .successor _ _ _ _ => true
  | .switchImage _ _ => true
  | .recalibrateHome => true
  | .retireDie => true
  | .writeRetiredMask => true
  | .serviceComplete => true
  | .resetPackage _ => true
  | .fatalErrorDump => true
  | .powerThrottle die _ => inDie die
  | .sprinnyTranslate => true
  | .loaderStart => true
  | .systemScopeCompletion _ _ => true

end Sys2Proof
end

