-- ==== Sys2Proof/Machine/Step.lean ====
section
/-! DEFINITION. One step of the package. -/

namespace Sys2Proof.Machine

/-- A context issues: the trap that waits for the boundary, the priority grants of a held chunk, the end of a chunk that has
reached its length, or the next instruction. -/
def issue (s : State) (l : Nat) : Res :=
  let s := stepBegun { s with cur := l } l
  let c := me s
  if chunkEmpty c && c.tail.isSome then (match commitTail s l (c.tail.getD 0) with
    | some s => .next s
    | none => stall s .start)
  else if chunkEmpty c && !underWay s l && (nextPending c).isSome then exec .asyncTrap s
  else if !c.chunk.live && wantsHeld c then exec .heldChunkStart s
  else if c.chunk.live && lengthLimit c ≤ c.chunk.count then exec .chunkLengthLimit (modMe s beginCtx)
  else
    let s := modMe s beginCtx
    match fetch s with
    | .wait w t => stall t w
    | .trap true cause tval => raiseHome s cause (me s).regs.pc tval
    | .trap false cause tval => raise s cause (me s).regs.pc tval
    | .word w t =>
      let t := modMe t (fun c => { c with word := w })
      match decodeWord w with
      | .error _ => raiseIllegal t
      | .ok i => match exec i t with
        | .next t' => .next (settle t l t')
        | x => x

/-- A step of the agenda, by the unit that takes it. -/
def runPending (s : State) (i : Nat) : Res :=
  match nth s.agenda i with
  | none => .next s
  | some (_, u, x) => if wellFormed x then exec x (takeOff s i u) else .fault .noSuchUnit

/-- A copy engine takes the packet at the read index of a copy queue, if one stands there. -/
def runIntake (s : State) (asid h : Nat) : Res :=
  match copyPoll s asid h with
  | (t, some i) => exec i { t with cur := copyUnit asid h }
  | (t, none) => .next t

/-- One step: of a free choice among those that may happen; when none may, the clock moves on to the next that will. -/
def step (s : State) : Res :=
  let r : Res :=
    match pick s (turns s) with
      | some (.pending i) => runPending s i
      | some (.issue l) => issue s l
      | some .ask => exec .dispatch { s with cur := asker s }
      | some (.intake asid h) => runIntake s asid h
      | none => match nextDue s with
        | some d => .next { s with now := max s.now d }
        | none => .next s
  match r with
  | .next t => .next (tickOver t)
  | x => x

/-! ## Placing one instruction -/

/-- The page that `withFetchWord` maps: 64 KiB at the bottom of home H0, R, W and X, for every level. -/
def fetchVa : Nat := 2 ^ 55

/-- The machine with one instruction where its next step fetches: one context, at firmware level (R33), ready at the first word
of a page whose translation its home holds, and nothing else that may happen. -/
def State.withFetchWord (s : State) (nbits w : Nat) : State :=
  let v := w % 2 ^ nbits
  let c := ctxAt s 0
  let asid := asidOf c
  let t : Tlb := { asid := asid, bits := 16, vpn := 0, pte := 0xC3D, entry := 2 ^ 20 }
  let s := modHome s 0 (fun h => { h with tlb := t :: h.tlb, paused := false, draining := [] })
  let s := modCore s 0 (fun x => { x with halted := false, stepping := .off })
  { s with
    mem := memPutAll s.mem 0 (natBytes 4 v), codeLog := [], poison := s.poison.filter (fun k => k != 0),
    fox := { s.fox with resume := [], launches := [], choices := [] },
    dies := tblMap (fun _ d => { d with heads := [] }) s.dies,
    cores := tblMap (fun _ x => { x with mailbox := [], deque := [], dequeOver := [] }) s.cores,
    ctxs := [(0, { c with run := .ready, pending := [], walkFault := none,
                          regs := { c.regs with pc := BitVec.ofNat 64 fetchVa },
                          chunk := { initChunk with num := c.chunk.num } })],
    agenda := [], io := { s.io with stopped := false } }

end Sys2Proof.Machine
end

