-- ==== Sys2Proof/Safety.lean ====
section
/-! DEFINITION. What counts as a safe run, and the terms that statements about instructions use: what an instruction leaves
alone (frames), what a push does to the registers, what a trap and a chunk-closing operation leave. The spec turns every
condition of a program into a trap or an event (R265), so a run is safe when no step of it ends in a fault or a refusal. -/

namespace Sys2Proof

/-- The run of `k` steps from `s` meets no fault and no refusal. -/
def SafeRun (k : Nat) (s : Machine.State) : Prop := ∃ t, Host.Core.run core k s = .next t

/-- The agenda names only units that the package has. -/
def AgendaOk (s : Machine.State) : Prop := ∀ e ∈ s.agenda, wellFormed e.2.2 = true

/-- Committed memory is in its canonical form. -/
def MemOk (s : Machine.State) : Prop := Machine.Memory.wf s.mem = true

namespace Machine

/-! ## Frames -/

/-- Nothing outside the executing context is changed: no byte of committed memory, no other context, no cache, unit, queue or
agenda entry. -/
structure OnlyMe (s t : State) : Prop where
  memory : ∀ a, memGet t.mem a = memGet s.mem a
  contexts : ∀ l, l ≠ s.cur → ctxAt t l = ctxAt s l
  rest : t = { s with ctxs := t.ctxs }

/-- The executing context has executed one more instruction of its live chunk: its registers are `r` and its control registers
`k`, the chunk has the same footprint, stores and effects, and nothing else is changed. -/
structure Ran (s t : State) (r : Regs) (k : Ctl) : Prop where
  outside : OnlyMe s t
  regs : (me t).regs = r
  ctl : (me t).ctl = k
  chunk : (me t).chunk = { (me s).chunk with count := (me s).chunk.count + 1 }
  rest : me t = { me s with regs := r, ctl := k, chunk := (me t).chunk, walkFault := none, probe := none, woken := false }

/-- R28: `r'` is `r` after one result `x` with destination `d`: q0 is `x`, every older entry is one older, a keep destination
holds `x`, and no other keep register, vector or mask register is changed. -/
structure Pushed (r r' : Regs) (d : Dest) (x : Word) : Prop where
  q0 : qGet r' 0 = x
  older : ∀ n : Fin 16, n ≠ 15 → qGet r' (n + 1) = qGet r n
  keep : ∀ n : Fin 16, r'.k.get n = if d = .keep n then x else r.k.get n
  vectors : r'.v = r.v
  masks : r'.m = r.m

/-- The instruction `i` completes: it pushes one result with the property `p`, goes on at the next word, and changes nothing
else. -/
def Gives (i : Instr) (s : State) (d : Dest) (p : Word → Prop) : Prop :=
  ∃ t x, exec i s = .next t ∧ Pushed (me s).regs (me t).regs d x ∧ (me t).regs.pc = (me s).regs.pc + 4
    ∧ Ran s t (me t).regs (me s).ctl ∧ p x

/-- The instruction `i` completes, pushes nothing, and goes on at `pc`; nothing else is changed. -/
def GoesTo (i : Instr) (s : State) (pc : Word) : Prop :=
  ∃ t, exec i s = .next t ∧ Ran s t { (me s).regs with pc := pc } (me s).ctl

/-- As `Gives`, for a floating-point result: the flags `f` are set in c.fpflags as well, and no other control register is
changed. -/
def GivesFp (i : Instr) (s : State) (d : Dest) (x : Word) (f : BitVec 5) : Prop :=
  ∃ t, exec i s = .next t ∧ Pushed (me s).regs (me t).regs d x ∧ (me t).regs.pc = (me s).regs.pc + 4
    ∧ Ran s t (me t).regs { (me s).ctl with fpflags := (me s).ctl.fpflags ||| f.setWidth 64 }

/-- The instruction `i` completes: it writes vector register `d`, sets the flags `f`, goes on at the next word, and changes
nothing else. -/
def WritesV (i : Instr) (s : State) (d : Fin 32) (p : BitVec 512 → BitVec 5 → Prop) : Prop :=
  ∃ t v f, exec i s = .next t
    ∧ Ran s t { (me s).regs with v := (me s).regs.v.set d.val v, pc := (me s).regs.pc + 4 }
        { (me s).ctl with fpflags := (me s).ctl.fpflags ||| f.setWidth 64 } ∧ p v f

/-- R31: the instruction `i` completes: it writes mask register `d`, but for m0, whose writes are discarded, sets the flags `f`,
goes on at the next word, and changes nothing else. -/
def WritesM (i : Instr) (s : State) (d : Fin 8) (p : Word → BitVec 5 → Prop) : Prop :=
  ∃ t x f, exec i s = .next t
    ∧ Ran s t { (me s).regs with m := if d = 0 then (me s).regs.m else (me s).regs.m.set d.val x, pc := (me s).regs.pc + 4 }
        { (me s).ctl with fpflags := (me s).ctl.fpflags ||| f.setWidth 64 } ∧ p x f

/-! ## Operand values (R71) -/

/-- The signed value of an operand: of all 64 bits, or of the low 32 for a .w form. -/
def sval (w : Bool) (x : Word) : Int := if w then (x.toNat : Int).bmod (2 ^ 32) else x.toInt
/-- The unsigned value of an operand. -/
def uval (w : Bool) (x : Word) : Nat := if w then x.toNat % 2 ^ 32 else x.toNat
/-- The width of a form. -/
def wid (w : Bool) : Nat := if w then 32 else 64

/-! ## Traps (R39, R115) -/

/-- R39: what trap entry with the cause `cause` writes into the context `c`: c.epc, c.cause, c.badva, c.tval and c.status (pl
supervisor, ppl the level it came from, ts set), and the PC from c.trapvec; q, k, v, m and every other control register stand. -/
structure TookTrap (c c' : Ctx) (cause : Nat) (epc badva tval : Word) : Prop where
  epc : c'.ctl.epc = epc &&& ~~~3
  cause : c'.ctl.cause = BitVec.ofNat 64 cause
  badva : c'.ctl.badva = badva
  tval : c'.ctl.tval = tval
  level : plOf c'.ctl = 1
  from_ : pplOf c'.ctl = plOf c.ctl
  ts : tsOn c'.ctl = true
  stepBit : stepOn c'.ctl = stepOn c.ctl
  others : c'.ctl = { c.ctl with epc := c'.ctl.epc, cause := c'.ctl.cause, badva := c'.ctl.badva, tval := c'.ctl.tval,
                                 status := c'.ctl.status }
  regs : c'.regs = { c.regs with pc := c.ctl.trapvec &&& ~~~3 }
  empty : chunkEmpty c' = true

/-- A trap can be taken at once: the context holds nothing of a chunk before the instruction (R115), no trap is being handled
(R267), and the save of q at c.tsave answers with the state `t` (R39), once a held chunk has given up its grants (R111). -/
def CanTrap (s t : State) : Prop :=
  let d := dropHeld s s.cur
  chunkEmpty (me s) = true ∧ tsOn (me s).ctl = false
    ∧ (∃ pa u, hwAddr d (asidOf (me s)) ((me s).ctl.tsave &&& ~~~127).toNat true false = .ok pa u ∧ poisoned d pa 128 = false)
    ∧ saveQ d s.cur = .ok () t

/-- The instruction takes the trap `cause`; `t` is the state with q saved. -/
def Traps (i : Instr) (s t : State) (cause : Nat) (badva tval : Word) : Prop :=
  ∃ u, exec i s = .next u ∧ TookTrap (me s) (ctxAt u s.cur) cause (me s).regs.pc badva tval
    ∧ (∀ l, l ≠ s.cur → ctxAt u l = ctxAt t l) ∧ u = { t with ctxs := u.ctxs }

/-- R115: with earlier instructions in its chunk, the chunk ends before the instruction, to commit before the trap is taken. -/
def EndsForTrap (i : Instr) (s : State) (cause : Nat) (badva tval : Word) : Prop :=
  exec i s = .next (endChunkOf s s.cur (.trap { cause := cause, epc := (me s).regs.pc, badva := badva, tval := tval }))

/-- A trap that the core finds at the instruction `i` (R115): at once when nothing of the chunk is before it, else after the
chunk has committed. -/
def RaisesTrap (i : Instr) (s : State) (cause : Nat) (badva tval : Word) : Prop :=
  (∀ t, CanTrap s t → Traps i s t cause badva tval) ∧ (chunkEmpty (me s) = false → EndsForTrap i s cause badva tval)

/-! ## Control transfer (R80, R81) -/

/-- A displacement of `o` words from the PC. -/
def target {n : Nat} (s : State) (o : BitVec n) : Word := (me s).regs.pc + BitVec.ofInt 64 (4 * o.toInt)

/-- R17: bits [63:56] are zero. -/
def Canonical (t : Word) : Prop := t.toNat < 2 ^ 56

/-- R81: `i` branches by `o` words when `c` holds, and goes on at the next word when it does not. -/
def Branches (i : Instr) (s : State) (c : Prop) (o : BitVec 15) : Prop :=
  (¬ c → GoesTo i s ((me s).regs.pc + 4)) ∧ (c → Canonical (target s o) → GoesTo i s (target s o))
    ∧ (c → ¬ Canonical (target s o) → RaisesTrap i s cNoncanon (target s o) 0)

/-- R80: `i` writes PC + 4 into k15 and goes to `pc`; nothing else is changed. -/
def Links (i : Instr) (s : State) (pc : Word) : Prop :=
  ∃ t, exec i s = .next t
    ∧ Ran s t { (me s).regs with k := (me s).regs.k.set 15 ((me s).regs.pc + 4), pc := pc } (me s).ctl

/-! ## Chunk-closing operations (R96) -/

/-- A closing operation has been a chunk of one instruction and has committed: c.icount has counted it, the next chunk begins
empty, and the PC is `pc`. -/
structure Closed (c c' : Ctx) (pc : Word) : Prop where
  pc : c'.regs.pc = pc
  count : c'.ctl.icount = c.ctl.icount + 1
  empty : chunkEmpty c' = true
  next : c'.chunk.num = c.chunk.num + 1
  ready : c'.run = .ready

end Machine

end Sys2Proof
end

