-- ==== Sys2Proof/Certificates/Slice0/Obligations.lean ====
section
/-! DEFINITION. The statements for the provers. The parts in `Sys2Proof.Machine` say what one group of instructions or steps does;
an obligation is one of them, or several of one subject. -/

namespace Sys2Proof.Machine

/-! ## Floating-point values (R83) -/

/-- The number that a finite value stands for. -/
def valQ : Val → Rat
  | .fin n m e => (if n then -1 else 1) * m * 2 ^ e
  | _ => 0

/-- R86: a < b; false when an operand is a NaN. -/
def valLt : Val → Val → Prop
  | .inf m, .inf n => m = true ∧ n = false
  | .inf m, .fin _ _ _ => m = true
  | .fin _ _ _, .inf n => n = false
  | .fin na ma ea, .fin nb mb eb => valQ (.fin na ma ea) < valQ (.fin nb mb eb)
  | _, _ => False

/-! ## Memory operations -/

/-- No byte of committed memory and no other context is changed. -/
structure Keeps (s u : State) : Prop where
  memory : ∀ a, memGet u.mem a = memGet s.mem a
  contexts : ∀ l, l ≠ s.cur → ctxAt u l = ctxAt s l
  cur : u.cur = s.cur

/-- R147: another context as a store leaves it: all of it, but words that a discard of its chunk was to drop may be kept. -/
def DiscardsKept (c d : Ctx) : Prop :=
  d = { c with chunk := { c.chunk with effects := d.chunk.effects } }
    ∧ List.Forall₂ (fun e f => f = e ∨ ∃ lo hi xs ys, e = .discard lo hi xs ∧ f = .discard lo hi ys
        ∧ xs.map (fun x => x.1) = ys.map (fun y => y.1)) c.chunk.effects d.chunk.effects

/-- As `Keeps`, for an instruction that stores: what leaves the L1 for a speculative block may keep words from a discard. -/
structure KeepsStored (s u : State) : Prop where
  memory : ∀ a, memGet u.mem a = memGet s.mem a
  contexts : ∀ l, l ≠ s.cur → DiscardsKept (ctxAt s l) (ctxAt u l)
  cur : u.cur = s.cur

/-- The chunk holds nothing: no instruction has executed in it, and it has read and written nothing. -/
def Fresh (c : Ctx) : Prop := chunkEmpty c = true ∧ c.chunk.r = 0 ∧ c.chunk.w = 0

/-- R96: a closing operation first ends the chunk before it; R238: then a task of an ordered domain waits until it is the oldest.
`v` is the state from which it does so. -/
def ClosesFrom (i : Instr) (s v : State) : Prop :=
  (chunkEmpty (me s) = false → exec i s = .next (endChunkOf v s.cur .resume))
    ∧ (chunkEmpty (me s) = true → youngTask s s.cur = true → exec i s = .next (stallCtx v s.cur .start))

/-- R139: `i` is a load whose access is `q`. Inside the chunk it changes the registers as `p` says of the bytes read, puts their
grains into R (SW pages enter no signature), and changes no control register and no store of the chunk. A closing access (R96)
first ends the chunk before it, and is then a chunk of its own; one of host or peer memory takes the bytes of the answers. The
words of an ldp of an SW page come from one place (log 84). -/
def Loads (i : Instr) (s : State) (q : AccReq) (p : List Byte → Regs → Regs → Prop) : Prop :=
  ∀ t v, access s q = .ok t v → viewPoisoned v t q.n = false →
    (t.closes = false → ∃ u, exec i s = .next u ∧ KeepsStored s u
      ∧ p (viewBytes (unsplit v t q.n) t q.n) (me s).regs (me u).regs
      ∧ (me u).regs.pc = (me s).regs.pc + 4 ∧ (me u).ctl = (me s).ctl
      ∧ (me u).chunk.stores = (me s).chunk.stores ∧ (me u).chunk.effects = (me s).chunk.effects
      ∧ (me u).chunk.w = (me s).chunk.w
      ∧ (me u).chunk.r = (me s).chunk.r ||| (if t.space = .sw then 0 else sigRange t.asid t.va q.n))
    ∧ (t.closes = true → ClosesFrom i s v)
    ∧ (t.closes = true → chunkEmpty (me s) = true → youngTask s s.cur = false →
        (t.sys = false → sysOpsOf s s.cur false = [] → ∃ u, exec i s = .next u ∧ Keeps s u
          ∧ p (viewBytes v t q.n) (me s).regs (me u).regs ∧ Closed (me s) (me u) ((me s).regs.pc + 4))
        ∧ (t.sys = true → let ops := sysOpsOf s s.cur false
          ops ≠ [] → (∀ o ∈ ops, o.2.answer.isSome = true) → ∃ u, exec i s = .next u ∧ Keeps s u
          ∧ p (((ops.map (fun o => natBytes o.2.n (o.2.answer.getD 0).toNat)).flatten).take q.n) (me s).regs (me u).regs
          ∧ Closed (me s) (me u) ((me s).regs.pc + 4)))

/-- R148: old OP x on `n` bits. -/
def amoResult (op : AmoOp) (n old x : Nat) : Nat :=
  let sg : Nat → Int := fun y => (y : Int).bmod (2 ^ n)
  match op with
  | .add => (old + x) % 2 ^ n
  | .and => old &&& x
  | .or => old ||| x
  | .xor => old ^^^ x
  | .min => if sg x < sg old then x else old
  | .max => if sg old < sg x then x else old
  | .minz => min old x
  | .maxz => max old x
  | .swap => x

/-- Bytes `bs` stand in committed memory at `key`, and every other byte is as before. -/
def Stored (s u : State) (key : Nat) (bs : List Byte) : Prop :=
  ∀ k, memGet u.mem k = if key ≤ k ∧ k < key + bs.length then (nth bs (k - key)).getD 0 else memGet s.mem k

/-- R105: among the other contexts, only those whose chunk has read a grain of `g` may be changed (squashed). -/
def SquashesOnly (s u : State) (g : BitVec 1024) : Prop :=
  ∀ l, l ≠ s.cur → sigMeets (ctxAt s l).chunk.r g = false → ctxAt u l = ctxAt s l

/-- R99, R107, R110: the live chunk has been squashed: its checkpoint stands again, and the chunk runs again from its start. -/
structure Squashed (c c' : Ctx) : Prop where
  regs : c'.regs = c.chunk.cp.regs
  choice : c'.ctl.choice = c.chunk.cp.choice
  spoor : c'.ctl.spoor = c.chunk.cp.spoor
  flags : c'.ctl.fpflags = c.chunk.cp.fpflags
  run : c'.run = .ready
  empty : chunkEmpty c' = true
  num : c'.chunk.num = c.chunk.num
  sigs : c'.chunk.r = 0 ∧ c'.chunk.w = 0

/-- R105, R107: every other live chunk that has read a grain of `g` is squashed. -/
def SquashesReaders (s u : State) (g : BitVec 1024) : Prop :=
  ∀ l, l ≠ s.cur → (ctxAt s l).chunk.live = true → sigMeets (ctxAt s l).chunk.r g = true → Squashed (ctxAt s l) (ctxAt u l)

/-- No arbiter of the target refuses the request of the executing context (R105, R111, R118). -/
def Granted (s : State) (t : Target) (r w : BitVec 1024) : Prop :=
  ∀ a ∈ targetArbs s t, refuses s a (some s.cur) r w = false ∧ ringRefuses s (asidOf (me s)) a (replayOn (me s)) = false

/-- R96, R139: the store `i` of the bytes `bs` at the target `t` is a chunk of its own; `v` is the state after its access. The bytes
stand in memory, and while nothing of them is held elsewhere (R120, R296) no other byte is changed, and the chunks that have read
them are squashed, and no others. A copy B or C of a DUP group has no effect (R239). To host or peer memory the pieces leave (R130). -/
def StoresAlone (i : Instr) (s v : State) (t : Target) (bs : List Byte) : Prop :=
  let n := bs.length
  let g := targetSig t n
  let r := { (me s).regs with pc := (me s).regs.pc + 4 }
  ClosesFrom i s s
    ∧ (Fresh (me s) → youngTask s s.cur = false →
      (t.sys = false → mayCommit v t 0 g = true →
        (MemOk s → (me s).unit.dup < 2 → ∃ u, exec i s = .next u ∧ Closed (me s) (me u) r.pc ∧ (me u).regs = r
          ∧ memBytes u.mem t.key n = bs
          ∧ (heldElsewhere v t.key n = false → servedBy v t = none →
              Stored s u t.key bs ∧ SquashesOnly s u g ∧ SquashesReaders s u g))
        ∧ (2 ≤ (me s).unit.dup → ∃ u, exec i s = .next u ∧ Keeps s u ∧ Closed (me s) (me u) r.pc ∧ (me u).regs = r))
      ∧ (t.sys = true → (∀ p ∈ sysPieces n, sysBusy s (t.key + p.1) = false) →
        ∃ u, exec i s = .next u ∧ Keeps s u ∧ Closed (me s) (me u) r.pc ∧ (me u).regs = r
          ∧ u.io.out = s.io.out ++ if (me s).unit.dup < 2 then
              (sysPieces n).map (fun p => .write (t.key + p.1) ((bs.drop p.1).take p.2)) else []))

/-- R139, R99: `i` is a store of the bytes `bs` with the access `q`, whose fill has the span `sp`. Inside the chunk, which has room for
it, and not trailed: committed memory stands, and the thread sees `bs` at the address that `access` gives for `q` and every other
byte as before; W gets the grains, and no register is changed but the PC. A closing store is a chunk of its own (R96). -/
def Stores (i : Instr) (s : State) (q : AccReq) (bs : List Byte) (sp : Span) (mayTrail : Bool) : Prop :=
  ∀ t v, access s q = .ok t v →
    (t.closes = false → (mayTrail = false ∨ trailing (me s) = false ∨ t.space = .engine) →
      (t.space = .engine → effectsFull (me s) 1 = false) → ∀ w, storeOne (storeFills v [(t, bs.length)] sp) t bs = some w →
      ∃ u, exec i s = .next u ∧ KeepsStored s u
        ∧ (me u).regs = { (me s).regs with pc := (me s).regs.pc + 4 } ∧ (me u).ctl = (me s).ctl
        ∧ (∀ k, ownByte (me u).chunk.stores k = if t.key ≤ k ∧ k < t.key + bs.length then nth bs (k - t.key)
            else ownByte (me s).chunk.stores k)
        ∧ (me u).chunk.r = (me s).chunk.r
        ∧ (me u).chunk.w = (me s).chunk.w ||| (if t.space = .sw then 0 else sigRange t.asid t.va bs.length))
    ∧ (t.closes = true → StoresAlone i s v t bs)

/-- R152: `i` is a read-modify-write of `n` bytes that is a chunk of its own: it reads `old`, once a CP owner and the hosts have given
back what they hold of the bytes (R120, R296), and changes the registers as `p` says. But for a copy B or C of a DUP group (R239),
the bytes of `new old` then stand at the address that `access` gives for `q`. While c.replay is 0 and nothing of the bytes is held
elsewhere, no other byte is changed, and when it writes (`wr`) the chunks that have read the grain are squashed, and no others. -/
def ClosingRmw (i : Instr) (s : State) (q : AccReq) (t : Target) (v : State) (n : Nat) (new : Nat → Nat) (wr : Nat → Prop)
    (p : Nat → Regs → Regs → Prop) : Prop :=
  MemOk s → Fresh (me s) → youngTask s s.cur = false → access s q = .ok t v → viewPoisoned v t n = false →
    Granted v t (sigRange t.asid t.va n) (sigRange t.asid t.va n) →
    let old := leNat (viewBytes (gather v t.key n) t n)
    ∃ u, exec i s = .next u ∧ Closed (me s) (me u) ((me s).regs.pc + 4) ∧ p old (me s).regs (me u).regs
      ∧ ((me s).unit.dup < 2 → memBytes u.mem t.key n = natBytes n (new old))
      ∧ ((me s).unit.dup < 2 → replayOn (me s) = false → heldElsewhere v t.key n = false →
          Stored s u t.key (natBytes n (new old)) ∧ SquashesOnly s u (targetSig t n)
            ∧ (wr old → SquashesReaders s u (targetSig t n)))

/-- The context waits at its instruction, holding no chunk, with the wait kind `kind` (R95, R274). -/
def WaitsHere (s u : State) (kind : Nat) : Prop :=
  Keeps s u ∧ (me u).run = .waiting kind ∧ (me u).regs = (me s).regs ∧ (me u).ctl = withHeld (me s).ctl false ∧ chunkEmpty (me u) = true

/-- `i` takes one deferred-effect entry (R97) when the buffer has room, and goes on. -/
def TakesEffect (i : Instr) (s : State) (e : Effect) : Prop :=
  effectsFull (me s) 1 = false → ∃ u, exec i s = .next u ∧ Keeps s u
    ∧ (me u).regs = { (me s).regs with pc := (me s).regs.pc + 4 } ∧ (me u).ctl = (me s).ctl
    ∧ (me u).chunk = { (me s).chunk with count := (me s).chunk.count + 1, effects := (me s).chunk.effects ++ [e] }

/-- R114: a fault that the home finds at `i`; `v` is the state after the access. An instruction that executes alone as the first of
its chunk takes the trap at once; any other waits for the fault response, which squashes the chunk to run again to before it. -/
def RaisesAtHome (i : Instr) (s v : State) (cause : Nat) (badva tval : Word) : Prop :=
  (∀ t, chunkEmpty (me s) = true → (me s).chunk.alone = true → CanTrap v t → cause ≠ cMcheck → Traps i s t cause badva tval)
    ∧ ((me s).chunk.alone = false → ∃ u, exec i s = .next u ∧ Keeps s u ∧ (me u).run = .stalled .fault
      ∧ (me u).regs = (me s).regs ∧ (me u).ctl = (me s).ctl ∧ (me u).chunk = (me s).chunk
      ∧ (0, s.cur, Instr.faultResponse s.cur ((me s).chunk.count + 1)) ∈ u.agenda)

/-- R245: word 0 of a message passes the checks that do not depend on the queue's kind. -/
def HeaderFine (w : Word) (enqt user : Bool) : Prop :=
  let f : Nat → Nat → Nat := fun hi lo => w.toNat / 2 ^ lo % 2 ^ (hi - lo + 1)
  f 47 40 = 0 ∧ f 36 32 = 0 ∧ f 15 12 = 0 ∧ (enqt = true ∨ f 37 37 = 0) ∧ (user = true → f 39 38 ≠ 0)

/-- The first `n` words of the result queue, q0 first, and zeros up to eight. -/
def qWords (s : State) (n : Nat) : List Word :=
  (List.range 8).map (fun i => if h : i < 16 then (if i < n then qGet (me s).regs ⟨i, h⟩ else 0) else 0)

/-- R97, R255: the instruction takes a deferred-effect entry and ends the chunk after itself, to retire as `r` when it has committed; with
no entry free the chunk ends before it. -/
def Retires (i : Instr) (s : State) (r : Retire) : Prop :=
  (effectsFull (me s) 1 = false → ∃ u, exec i s = .next u ∧ Keeps s u ∧ (me u).regs = { (me s).regs with pc := (me s).regs.pc + 4 }
      ∧ (me u).chunk.effects = (me s).chunk.effects ++ [.retire r]
      ∧ (me u).run = .committing (.retire r) ∧ (0, s.cur, Instr.chunkEnd) ∈ u.agenda)
    ∧ (effectsFull (me s) 1 = true → chunkEmpty (me s) = false → exec i s = .next (endChunkOf s s.cur .resume))

/-- The accesses `qs`, checked in order from `s`, go to the targets `ts`, all inside the chunk; `v` is the state after them. -/
def AllReach : State → List AccReq → List Target → State → Prop
  | s, [], ts, v => ts = [] ∧ v = s
  | s, q :: qs, ts, v => ∃ t s1 rest, access s q = .ok t s1 ∧ t.closes = false ∧ ts = t :: rest ∧ AllReach s1 qs rest v

/-- The 8-byte words at `vas`, each loaded before the next is checked, are `xs`; `v` is the state that has them in R. -/
def ReadsWords : State → List Word → List Word → State → Prop
  | s, [], xs, v => xs = [] ∧ v = s
  | s, va :: vas, xs, v => ∃ t w rest, access s (loadReq va 8) = .ok t w ∧ t.closes = false ∧ viewPoisoned w t 8 = false
      ∧ xs = BitVec.ofNat 64 (leNat (viewBytes w t 8)) :: rest ∧ ReadsWords (loadEffects w [(t, 8)] .pred) vas rest v

/-- Stores of the words of `ws` at their addresses pass their checks; `items` are their targets and bytes. -/
def ReachesWords (s : State) (ws : List (Word × Word)) (items : List (Target × List Byte)) (v : State) : Prop :=
  ∃ ts, AllReach s (ws.map (fun p => storeReq p.1 8)) ts v ∧ (∀ t ∈ ts, t.space ≠ .engine)
    ∧ items = List.zipWith (fun t (p : Word × Word) => (t, natBytes 8 p.2.toNat)) ts ws

/-- The stores `items` of one instruction, whose fills have the span `sp`, have room in the chunk; `v` is the state that holds them. -/
def Room (s : State) (sp : Span) (items : List (Target × List Byte)) (v : State) : Prop :=
  storeMany (storeFills s (items.map (fun i => (i.1, i.2.length))) sp) items = some v

/-- The words of `ws`, stored at their addresses as one instruction's stores are, have room; `v` is the state that holds them in
the chunk. -/
def WritesWords (s : State) (ws : List (Word × Word)) (items : List (Target × List Byte)) (v : State) : Prop :=
  ∃ w, ReachesWords s ws items w ∧ Room w .pred items v

/-- The stores of a chunk after the stores `items`, newest first. -/
def storesAfter (items : List (Target × List Byte)) (old : List Store) : List Store :=
  items.foldl (fun acc p => { space := p.1.space, asid := p.1.asid, va := p.1.va, pa := p.1.key, bytes := p.2 } :: acc) old

/-- R141, R316, R318: the spoor entries that the trails `es` append, checked and read in order from `s`: each has room below c.spoorlim,
goes to c.spoor, and holds its EA with bits [2:0] cleared and the size code, and the aligned word before the store, whose grain
enters R; c.spoor advances by 16. `v` is the state after them. -/
def Trails : State → List Trail → List (Target × List Byte) → State → Prop
  | s, [], items, v => items = [] ∧ v = s
  | s, e :: es, items, v => ∃ t w rest,
      let old : Target := { e.target with key := e.target.key - e.target.va % 8, va := e.target.va - e.target.va % 8 }
      (me s).ctl.spoor.toNat + 16 ≤ (me s).ctl.spoorlim.toNat ∧ access s (storeReq (me s).ctl.spoor 16) = .ok t w ∧ t.closes = false
        ∧ t.space ≠ .engine ∧ viewPoisoned w old 8 = false
        ∧ items = (t, natBytes 8 (e.ea.toNat % 2 ^ 56 / 8 * 8 + e.code) ++ viewBytes w old 8) :: rest
        ∧ Trails (loadEffects (modMe w (fun k => { k with ctl := { k.ctl with spoor := k.ctl.spoor + 16 } })) [(old, 8)] .pred) es rest v

/-- R101: the grains that accesses of the given lengths enter into a signature. -/
def grainsOf (sig : BitVec 1024) (items : List (Target × Nat)) : BitVec 1024 :=
  items.foldl (fun acc p => acc ||| (if p.1.space = .sw then 0 else sigRange p.1.asid p.1.va p.2)) sig

/-- R141, R316: the instruction `i`, which stores `items` with the trails `es` while stores are trailed, has passed its own checks, with
the state `v` after them. It raises SPOOR_FULL when the first entry has no room, before it writes anything; else it stores the
entries and then `items`, c.spoor advances past the entries, the words before the stores enter R, and all that is stored enters W. -/
def Trailed (i : Instr) (s v : State) (sp : Span) (es : List Trail) (items : List (Target × List Byte)) : Prop :=
  let c := (me s).ctl
  (∀ p ∈ items, p.1.closes = false ∧ p.1.space ≠ .engine) → (∀ e ∈ es, e.target.closes = false ∧ e.target.space ≠ .engine) → es ≠ [] →
  (c.spoorlim.toNat < c.spoor.toNat + 16 → RaisesTrap i s cSpoorFull c.spoor 0)
  ∧ ∀ extra v2 w, Trails v es extra v2 → Room v2 sp (extra ++ items) w →
    ∃ u, exec i s = .next u ∧ KeepsStored s u ∧ (me u).regs = { (me s).regs with pc := (me s).regs.pc + 4 }
      ∧ (me u).ctl = { c with spoor := c.spoor + BitVec.ofNat 64 (16 * es.length) }
      ∧ (me u).chunk.stores = storesAfter (extra ++ items) (me s).chunk.stores
      ∧ (me u).chunk.r = grainsOf (me s).chunk.r (es.map (fun e => ({ e.target with va := e.target.va - e.target.va % 8 }, 8)))
      ∧ (me u).chunk.w = grainsOf (me s).chunk.w ((extra ++ items).map (fun p => (p.1, p.2.length)))

/-- R323: the records `d + n − 1` down to `d`, read in that order from `s`; `items` mark the tokens of those that were stolen from. -/
def CutReads (base : Word) (d : Nat) : Nat → State → List (Target × List Byte) → State → Prop
  | 0, s, items, v => items = [] ∧ v = s
  | n + 1, s, items, v =>
    let rec' := base + BitVec.ofNat 64 (288 * (d + n))
    ∃ h v1, ReadsWords s [rec' + 0x08] [h] v1 ∧
      ((h.toNat / 2 ^ 62 % 2 = 0 ∧ CutReads base d n v1 items v)
        ∨ (h.toNat / 2 ^ 62 % 2 = 1 ∧ ∃ tok v2 one v3 rest, ReadsWords v1 [rec' + 0x18] [tok] v2
          ∧ ReachesWords v2 [(rec' + 0x18, tok ||| 0x8000000000000000)] one v3 ∧ items = one ++ rest ∧ CutReads base d n v3 rest v))

/-! ## Vectors -/

/-- R352: element `i` of width `w`. -/
def lane (v : BitVec 512) (w i : Nat) : Nat := v.toNat / 2 ^ (w * i) % 2 ^ w

/-- R31, R352: element `i` is active under mask `m`; m0 makes every element active. -/
def Active (r : Regs) (m : Fin 8) (i : Nat) : Prop := m = 0 ∨ (r.m.get m).getLsbD i = true

/-- R352: every active element of `v` below `n` has the value `f` gives it, and every other element is that of `old`. -/
def Lanes (r : Regs) (m : Fin 8) (w n : Nat) (old v : BitVec 512) (f : Nat → Nat) : Prop :=
  ∀ i < 512 / w, (Active r m i → i < n → lane v w i = f i) ∧ (¬ (Active r m i ∧ i < n) → lane v w i = lane old w i)

/-- R351: the flags set are those that an active element sets. -/
def LaneFlags (r : Regs) (m : Fin 8) (n : Nat) (fl : BitVec 5) (f : Nat → BitVec 5) : Prop :=
  ∀ j < 5, (fl.getLsbD j = true ↔ ∃ i < n, Active r m i ∧ (f i).getLsbD j = true)

/-- A signed element. -/
def sLane (w x : Nat) : Int := (x : Int).bmod (2 ^ w)
/-- An integer as an element of width `w`. -/
def toLane (w : Nat) (k : Int) : Nat := (k % 2 ^ w).toNat

/-- The instruction is illegal as it stands (R61). -/
def Illegal (i : Instr) (s : State) : Prop := RaisesTrap i s cIllegal (me s).regs.pc (BitVec.ofNat 64 (me s).word.toNat)

/-- R346: as `WritesV`, for a form that may draw: the core's generator goes from `g` to another value, and no byte of memory and
no other context is changed. -/
def WritesVDraw (i : Instr) (s : State) (d : Fin 32) (p : BitVec 512 → BitVec 5 → Prop) : Prop :=
  ∃ u v f, exec i s = .next u ∧ Keeps s u
    ∧ (me u).regs = { (me s).regs with v := (me s).regs.v.set d.val v, pc := (me s).regs.pc + 4 }
    ∧ (me u).ctl = { (me s).ctl with fpflags := (me s).ctl.fpflags ||| f.setWidth 64 }
    ∧ (srOn (fpmode s) = false → ∀ c, coreAt u c = coreAt s c) ∧ p v f

/-- R350: the pairwise tree over 2^k values from `x 0` on, with every result rounded by `f` and the flags of all. -/
def pairTree (f : Nat → Nat → Coded) : Nat → (Nat → Nat) → Coded
  | 0, x => ⟨x 0, 0⟩
  | k + 1, x =>
    let a := pairTree f k x
    let b := pairTree f k (fun i => x (i + 2 ^ k))
    let c := f a.bits b.bits
    ⟨c.bits, a.flags ||| b.flags ||| c.flags⟩

/-- R350, R362: values taken in order, with every result rounded by `f` and the flags of all. -/
def inOrder (f : Nat → Nat → Coded) (z : Nat) (l : List Nat) : Coded :=
  l.foldl (fun acc x => let c := f acc.bits x; ⟨c.bits, acc.flags ||| c.flags⟩) ⟨z, 0⟩

/-- R344: the exponent of the largest finite value of an MX element. -/
def elementEmax : ETy → Int
  | .mx4 => 2
  | .mxp p => 2 ^ (6 - p.val) - 1
  | _ => 0

/-- R344, R353: without stochastic rounding, `v` holds the block of type `t` that the 32 values `vs` form, with the exponent `h` of the
rotation, and `g` the flags of a block without numbers and of one of zeros. No rule bounds the scale above (log 83). -/
def MxBlock (s : State) (t : ETy) (h : Int) (vs : Nat → Val) (v : BitVec 512) (g : BitVec 5) : Prop :=
  let wd := eBits t
  let scale := lane v 8 (if wd = 4 then 16 else 32)
  ((∃ i < 32, vFin (vs i) = false) → scale = 0xFF ∧ (∀ i < 32, lane v wd i = 0) ∧ g = 1)
  ∧ ((∀ i < 32, vFin (vs i) = true ∧ valQ (vs i) = 0) → scale = 0x7F ∧ (∀ i < 32, lane v wd i = 0) ∧ g = 0)
  ∧ (∀ top x : Int, (∀ i < 32, vFin (vs i) = true ∧ |valQ (vs i)| < 2 ^ (top + 1)) → (∃ i < 32, 2 ^ top ≤ |valQ (vs i)|) →
      x = max (top - elementEmax t - h) (-127) → x ≤ 128 → srOn (fpmode s) = false →
      scale = (x + 127).toNat ∧ ∀ i < 32,
        lane v wd i = (eCode (fpmode s) true false t (roundMode (fpmode s)) 0 (scaleBy (-(x + h)) (vs i))).bits % 2 ^ wd)
  ∧ (if wd = 4 then v.toNat < 2 ^ 136 else v.toNat < 2 ^ 264)

/-- R347: `ys` are the unscaled sums of the runs of `n` of the first `len` values `xs`; a run with a NaN or an ∞ becomes NaNs. -/
def Rotated (n len : Nat) (xs ys : Nat → Val) : Prop :=
  ∀ i < len, let b := i / n * n
    let sign : Nat → Rat := fun j => if ((List.range 8).filter (fun k => (i % n &&& j).testBit k)).length % 2 = 1 then -1 else 1
    ((∀ j < n, vFin (xs (b + j)) = true) → vFin (ys i) = true ∧ (valQ (ys i) = 0 → vNeg (ys i) = false)
      ∧ valQ (ys i) = ((List.range n).map (fun j => sign j * valQ (xs (b + j)))).sum)
    ∧ ((∃ j < n, vFin (xs (b + j)) = false) → ys i = .nan false)

/-! ## Traps and switching -/

/-- R96: the instruction is a chunk of its own, which the trap `cause` ends: the chunk before it commits first, and the trap finds the
chunk number and c.icount one higher. R238: a task of an ordered domain waits before it until it is the oldest. -/
def RaisesOwn (i : Instr) (s : State) (cause : Nat) (epc badva tval : Word) : Prop :=
  (∀ t, chunkEmpty (me s) = true → youngTask s s.cur = false → CanTrap (modMe (dropHeld s s.cur) (fun c => nextChunk c 1)) t →
    ∃ u, exec i s = .next u
      ∧ TookTrap (nextChunk (me s) 1) (ctxAt u s.cur) cause epc badva tval
      ∧ (ctxAt u s.cur).ctl.icount = (me s).ctl.icount + 1 ∧ (ctxAt u s.cur).chunk.num = (me s).chunk.num + 1
      ∧ (∀ l, l ≠ s.cur → ctxAt u l = ctxAt t l) ∧ u = { t with ctxs := u.ctxs })
    ∧ ClosesFrom i s s

/-- R267: what a machine check writes: the firmware record, c.cause, c.epc, c.badva, c.tval, pl = 0b10, and the PC from the
firmware vector; q, k, v, m and every other control register stand. -/
structure TookMcheck (c c' : Ctx) (reason detail : Nat) (badva epc : Word) : Prop where
  record : c'.firmware = some { pc := c.regs.pc, status := c.ctl.status, epc := c.ctl.epc, cause := c.ctl.cause,
                                badva := c.ctl.badva, tval := c.ctl.tval, q := Vector.ofFn (qGet c.regs) }
  epc : c'.ctl.epc = epc &&& ~~~3
  cause : c'.ctl.cause = 0x19
  badva : c'.ctl.badva = badva
  tval : c'.ctl.tval.toNat = reason * 256 + detail
  level : plOf c'.ctl = 2
  from_ : pplOf c'.ctl = pplOf c.ctl
  ts : tsOn c'.ctl = tsOn c.ctl
  others : c'.ctl = { c.ctl with epc := c'.ctl.epc, cause := c'.ctl.cause, badva := c'.ctl.badva, tval := c'.ctl.tval,
                                 status := c'.ctl.status }
  regs : c'.regs = { c.regs with pc := Config.firmwareVector }
  empty : chunkEmpty c' = true

/-- R36: at user level the privileged instruction raises PRIV. -/
def Privileged (i : Instr) (s : State) : Prop :=
  isUser (me s) = true → RaisesTrap i s cPriv (me s).regs.pc (BitVec.ofNat 64 (me s).word.toNat)

/-- The operation is a chunk of its own, goes on at the next word, and changes nothing outside its context but that a held chunk
gives up its priority grants (R111). -/
def Completes (i : Instr) (s : State) : Prop :=
  ∃ u, exec i s = .next u ∧ OnlyMe (dropHeld s s.cur) u ∧ Closed (me s) (me u) ((me s).regs.pc + 4)
    ∧ (me u).regs = { (me s).regs with pc := (me s).regs.pc + 4 }

/-- R34: the control registers that software reads by number, in order. -/
def crValues (s : State) : List Word :=
  let c := (me s).ctl
  [c.status, BitVec.ofNat 64 s.cur, c.asid, c.hdr, c.epc, c.cause, c.badva, c.tval, c.trapvec, c.tsave, c.chunklen, c.privbase,
   c.privlen, c.choice, c.choicebase, c.choicelim, c.spoor, c.spoorbase, c.spoorlim, c.frame, c.framelen, c.failvec, c.lineage,
   c.fpmode, c.fpflags, (coreAt s (coreOf s.cur)).rng, BitVec.ofNat 64 s.now, c.icount, c.replay]

/-- R34: the bits that a write to control register `n` changes whole; the others that it names read as zero. -/
def crMask (n : Nat) : Option Word :=
  match n with
  | 0x02 => some 0x3FF | 0x03 => some (~~~0) | 0x04 => some (~~~3) | 0x05 => some 0x1FF | 0x06 => some (~~~0) | 0x07 => some (~~~0)
  | 0x08 => some (~~~3) | 0x09 => some (~~~127) | 0x0B => some (~~~0xFFFF) | 0x0C => some (~~~0) | 0x0D => some (~~~0)
  | 0x0E => some (~~~31) | 0x0F => some (~~~31) | 0x10 => some (~~~0) | 0x11 => some (~~~15) | 0x12 => some (~~~15)
  | 0x13 => some (~~~0) | 0x15 => some (~~~3) | 0x16 => some (~~~0) | 0x17 => some 0x1F | 0x18 => some 0x1F | 0x1C => some 1
  | _ => none

/-! ## Steps of the units -/

/-- No byte of committed memory and no context is changed. -/
def Quiet (s u : State) : Prop := u.mem = s.mem ∧ ∀ l, ctxAt u l = ctxAt s l

/-- No byte of committed memory and no context but `l` is changed. -/
def QuietBut (l : Nat) (s u : State) : Prop := u.mem = s.mem ∧ ∀ k, k ≠ l → ctxAt u k = ctxAt s k

/-- The step `i` completes as `p` says. -/
def Does (i : Instr) (s : State) (p : State → Prop) : Prop := ∃ u, exec i s = .next u ∧ p u

/-- R266: the pending trap that is taken first: MCHECK, then, while ts is 0, the oldest ENGINE_FAULT, then the oldest ACC_OWNED. -/
def firstPending (c : Ctx) : Option Pending :=
  (c.pending.filter (fun p => p.cause == 0x19) ++ (if tsOn c.ctl then [] else
    c.pending.filter (fun p => p.cause == 0x14) ++ c.pending.filter (fun p => p.cause == 0x13))).head?

/-- R95, R111, R114: how many instructions the live chunk may hold. -/
def chunkLimit (c : Ctx) : Nat :=
  let l := c.ctl.chunklen.toNat
  let base := if c.unit.ordered ≠ none ∧ c.chunk.num = 0 then 8192
    else if c.chunk.conflicts ≤ 1 then l else if c.chunk.conflicts = 2 then l / 2 else l / 4
  if c.chunk.alone = true ∨ stepOn c.ctl = true then 1 else match c.chunk.stopAt with
    | none => base
    | some n => min n base

/-- R221: an event of an ASID whose entry is valid is on its way to the ASID's supervisor event ring. -/
def Posts (s u : State) (asid reason cause : Nat) (w8 w10 : Word) : Prop :=
  (asidWord s asid 0).getLsbD 63 = true → ∃ id e, s.fox.nextDelivery ≤ id ∧ tblFind u.fox.deliveries id = some e
    ∧ (0, 2 ^ 32 + id, Instr.ringDelivery) ∈ u.agenda ∧ e.event = true ∧ e.asid = asid ∧ e.handle = (asidWord s asid 0x10).toNat % 2 ^ 12
    ∧ wordAt e.msg 0 = BitVec.ofNat 64 (asid * 2 ^ 16 + reason * 2 ^ 8 + cause) ∧ wordAt e.msg 1 = w8 ∧ wordAt e.msg 2 = w10

/-- R38: the registers and the control registers of a thread that starts with the message `msg`, at the entry `pc`. -/
structure Activated (c : Ctx) (asid : Nat) (msg : List Word) (pc : Nat) : Prop where
  pc : c.regs.pc = BitVec.ofNat 64 pc
  q : ∀ n : Fin 16, qGet c.regs n = if n.val < 7 then wordAt msg (n.val + 1) else 0
  k : ∀ n : Fin 16, c.regs.k.get n = 0
  v : ∀ n : Fin 32, c.regs.v.get n = 0
  m : ∀ n : Fin 8, c.regs.m.get n = 0
  status : c.ctl.status = 0
  asidIs : c.ctl.asid = BitVec.ofNat 64 asid
  hdr : c.ctl.hdr = wordAt msg 0
  run : c.run = .ready
  empty : chunkEmpty c = true

/-- R72: the bitwise forms, bit by bit; minimum and maximum, signed and unsigned; comparisons push 1 for true and 0 for false. -/
def LogicMinMaxCompare : Prop := ∀ (s : State) (a b : Src) (d : Dest),
  let x := src s a
  let y := src s b
  Gives (.andR a b d) s d (fun r => ∀ i, r.getLsbD i = (x.getLsbD i && y.getLsbD i))
  ∧ Gives (.orR a b d) s d (fun r => ∀ i, r.getLsbD i = (x.getLsbD i || y.getLsbD i))
  ∧ Gives (.xorR a b d) s d (fun r => ∀ i, r.getLsbD i = (x.getLsbD i ^^ y.getLsbD i))
  ∧ Gives (.andn a b d) s d (fun r => ∀ i, i < 64 → r.getLsbD i = (x.getLsbD i && !y.getLsbD i))
  ∧ Gives (.orn a b d) s d (fun r => ∀ i, i < 64 → r.getLsbD i = (x.getLsbD i || !y.getLsbD i))
  ∧ Gives (.minS a b d) s d (fun r => r.toInt = min x.toInt y.toInt)
  ∧ Gives (.maxS a b d) s d (fun r => r.toInt = max x.toInt y.toInt)
  ∧ Gives (.minz a b d) s d (fun r => r.toNat = min x.toNat y.toNat)
  ∧ Gives (.maxz a b d) s d (fun r => r.toNat = max x.toNat y.toNat)
  ∧ Gives (.slt a b d) s d (fun r => r.toNat = if x.toInt < y.toInt then 1 else 0)
  ∧ Gives (.sltz a b d) s d (fun r => r.toNat = if x.toNat < y.toNat then 1 else 0)
  ∧ Gives (.seqR a b d) s d (fun r => r.toNat = if x = y then 1 else 0)
  ∧ Gives (.sne a b d) s d (fun r => r.toNat = if x = y then 0 else 1)

/-- R72: clz and ctz count to the first one bit, and give the width for zero; popc counts the one bits; brev and bswap reverse
bits and bytes; sext and zext extend. A .w form works on the low 32 bits and sign-extends its 32-bit result. -/
def BitFunctions : Prop := ∀ (s : State) (a : Src) (d : Dest) (w : Bool) (z : ExtW),
  let x := src s a
  let n := wid w
  Gives (.clz a d w) s d (fun r => r.toNat ≤ n ∧ (∀ j < r.toNat, x.getLsbD (n - 1 - j) = false)
    ∧ (r.toNat < n → x.getLsbD (n - 1 - r.toNat) = true))
  ∧ Gives (.ctz a d w) s d (fun r => r.toNat ≤ n ∧ (∀ j < r.toNat, x.getLsbD j = false)
    ∧ (r.toNat < n → x.getLsbD r.toNat = true))
  ∧ Gives (.popc a d w) s d (fun r => r.toNat = ((List.range n).filter (fun i => x.getLsbD i)).length)
  ∧ Gives (.brev a d w) s d (fun r => ∀ i < 64, r.getLsbD i = x.getLsbD (n - 1 - min i (n - 1)))
  ∧ Gives (.bswap a d w) s d (fun r => ∀ i < 64,
      r.getLsbD i = x.getLsbD (n - 8 - min i (n - 1) / 8 * 8 + min i (n - 1) % 8))
  ∧ Gives (.sext a z d) s d (fun r => r.toInt = (x.toNat : Int).bmod (2 ^ extBits z))
  ∧ Gives (.zext a z d) s d (fun r => r.toNat = x.toNat % 2 ^ extBits z)

/-- R75: sel, ins and lea; R49: nop pushes nothing. -/
def ThreeSourceForms : Prop := ∀ (s : State) (a b c : Src) (d : Dest),
  let pos := (src s c).toNat / 2 ^ 6 % 2 ^ 6
  let len := (src s c).toNat % 2 ^ 6 + 1
  Gives (.sel a b c d) s d (fun r => r = if src s a = 0 then src s c else src s b)
  ∧ Gives (.ins a b c d) s d (fun r => ∀ i < 64,
      r.getLsbD i = if pos ≤ i ∧ i < pos + len then (src s b).getLsbD (i - pos) else (src s a).getLsbD i)
  ∧ Gives (.lea a b c d) s d (fun r => r.toNat = ((src s a).toNat + (src s b).toNat * 2 ^ ((src s c).toNat % 64)) % 2 ^ 64)
  ∧ GoesTo .nop s ((me s).regs.pc + 4)

/-- R76: the immediate forms, with the 15-bit immediate sign-extended, li, lcat, and ext, which reads bits at and above 64 as
zero. -/
def ImmediateForms : Prop := ∀ (s : State) (a : Src) (d : Dest) (i : BitVec 15) (n p l : BitVec 6),
  let x := src s a
  let m : Word := i.signExtend 64
  Gives (.addi a d i) s d (fun r => r.toInt = (x.toInt + i.toInt).bmod (2 ^ 64))
  ∧ Gives (.andi a d i) s d (fun r => ∀ j, r.getLsbD j = (x.getLsbD j && m.getLsbD j))
  ∧ Gives (.ori a d i) s d (fun r => ∀ j, r.getLsbD j = (x.getLsbD j || m.getLsbD j))
  ∧ Gives (.xori a d i) s d (fun r => ∀ j, r.getLsbD j = (x.getLsbD j ^^ m.getLsbD j))
  ∧ Gives (.shli a d n) s d (fun r => r.toNat = x.toNat * 2 ^ n.toNat % 2 ^ 64)
  ∧ Gives (.shri a d n) s d (fun r => r.toNat = x.toNat / 2 ^ n.toNat)
  ∧ Gives (.srai a d n) s d (fun r => r.toInt = x.toInt / 2 ^ n.toNat)
  ∧ Gives (.slti a d i) s d (fun r => r.toNat = if x.toInt < i.toInt then 1 else 0)
  ∧ Gives (.sltzi a d i) s d (fun r => r.toNat = if x.toNat < m.toNat then 1 else 0)
  ∧ Gives (.seqi a d i) s d (fun r => r.toNat = if x.toInt = i.toInt then 1 else 0)
  ∧ Gives (.li d i) s d (fun r => r.toInt = i.toInt)
  ∧ Gives (.lcat a d i) s d (fun r => r.toNat = (x.toNat * 2 ^ 15 + i.toNat) % 2 ^ 64)
  ∧ Gives (.extI a d p l) s d (fun r => r.toNat = x.toNat / 2 ^ p.toNat % 2 ^ (l.toNat + 1))

/-- R78: space pushes the class of a pointer, by the first row of the table that matches; it never faults. -/
def PointerClass : Prop := ∀ (s : State) (a : Src) (d : Dest),
  let x := (src s a).toNat
  let f : Nat → Nat → Nat := fun hi lo => x / 2 ^ lo % 2 ^ (hi - lo + 1)
  Gives (.space a d) s d (fun r => r.toNat =
    if f 63 56 ≠ 0 then 15
    else if f 55 55 = 1 then 8
    else if f 51 48 ≠ 0 ∨ 5 ≤ f 54 52 then 15
    else if f 54 52 = 0 then 0
    else if f 54 52 = 1 then 1
    else if f 54 52 = 2 then
      (if f 32 18 ≠ 0 then 15
       else if f 47 36 = 0xFFF ∧ f 35 33 ≠ 7 then 15
       else if f 47 36 = 0xFFF then 2
       else if f 47 33 ≠ s.cur / 2 ^ 3 then 0x12 else 2)
    else if f 54 52 = 3 then
      (if f 35 21 ≠ 0 then 15
       else if f 47 36 = 0xFFF then 3
       else if f 47 36 ≠ s.cur / 2 ^ 6 then 0x13 else 3)
    else 4)

/-- R79: each cast pushes the pointer of the table, or raises WINDOW with the pointer and the function's number. The offset that
cast.sl and cast.sx accept is a plain one or that of an own scratchpad pointer, below the core's size; cast.cl likewise. -/
def CastForms : Prop := ∀ (s : State) (a : Src) (d : Dest),
  let x := src s a
  let c := ptrClass s.cur x
  let off : Nat → Nat → Nat → Option Nat := fun bits win size =>
    if x.toNat < 2 ^ bits ∨ c = win then (if x.toNat % 2 ^ bits < size then some (x.toNat % 2 ^ bits) else none) else none
  let sl := off 18 2 (Config.scratchSize (dieOf s.cur))
  let cl := off 21 3 (Config.clusterSize (dieOf s.cur))
  let window : Instr → Word → Prop := fun i func => RaisesTrap i s cWindow x func
  (c = 1 ∧ x.toNat % 2 ^ 48 < (me s).ctl.privlen.toNat →
      Gives (.castPg a d) s d (fun r => r = (me s).ctl.privbase + BitVec.ofNat 64 (x.toNat % 2 ^ 48)))
  ∧ (¬ (c = 1 ∧ x.toNat % 2 ^ 48 < (me s).ctl.privlen.toNat) → window (.castPg a d) 1)
  ∧ (∀ o, sl = some o → Gives (.castSl a d) s d (fun r => r.toNat = 0x0020FFFE00000000 + o)
      ∧ Gives (.castSx a d) s d (fun r => r = 0x0020000000000000 ||| BitVec.ofNat 64 (s.cur / 8 * 2 ^ 33) ||| BitVec.ofNat 64 o))
  ∧ (sl = none → window (.castSl a d) 2 ∧ window (.castSx a d) 3)
  ∧ (∀ o, cl = some o → Gives (.castCl a d) s d (fun r => r.toNat = 0x0030FFF000000000 + o))
  ∧ (cl = none → window (.castCl a d) 4)
  ∧ (c ≠ 15 → Gives (.castOff a d) s d (fun r => r.toNat =
      if c = 0 then 0 else if c = 1 ∨ c = 4 then x.toNat % 2 ^ 48 else if c % 16 = 2 then x.toNat % 2 ^ 18
      else if c % 16 = 3 then x.toNat % 2 ^ 21 else x.toNat % 2 ^ 51))
  ∧ (c = 15 → window (.castOff a d) 5)

/-- R81: the conditional branches; R80: j and call, whose target is canonical, or which raise NONCANON with it. None pushes. -/
def JumpsAndBranches : Prop := ∀ (s : State) (a b : Src) (o : BitVec 15) (p : BitVec 25),
  let x := src s a
  let y := src s b
  Branches (.beq a b o) s (x = y) o
  ∧ Branches (.bne a b o) s (x ≠ y) o
  ∧ Branches (.blt a b o) s (x.toInt < y.toInt) o
  ∧ Branches (.bge a b o) s (y.toInt ≤ x.toInt) o
  ∧ Branches (.bltz a o) s (x.toInt < 0) o
  ∧ Branches (.bgez a o) s (0 ≤ x.toInt) o
  ∧ Branches (.bz a o) s (x = 0) o
  ∧ Branches (.bnz a o) s (x ≠ 0) o
  ∧ (Canonical (target s p) → GoesTo (.jmp p) s (target s p) ∧ Links (.call p) s (target s p))
  ∧ (¬ Canonical (target s p) → RaisesTrap (.jmp p) s cNoncanon (target s p) 0 ∧ RaisesTrap (.call p) s cNoncanon (target s p) 0)

/-- R80: jr and callr read the target before k15 is written, and check it: NONCANON before ALIGN, with c.badva the target and
c.tval 0; k15 and the PC stand. -/
def RegisterJumps : Prop := ∀ (s : State) (a : Src),
  let t := src s a
  (Canonical t → t.toNat % 4 = 0 → GoesTo (.jr a) s t ∧ Links (.callr a) s t)
  ∧ (¬ Canonical t → RaisesTrap (.jr a) s cNoncanon t 0 ∧ RaisesTrap (.callr a) s cNoncanon t 0)
  ∧ (Canonical t → t.toNat % 4 ≠ 0 → RaisesTrap (.jr a) s cAlign t 0 ∧ RaisesTrap (.callr a) s cAlign t 0)

/-- R82: jtab falls through for an index at or above the length, unsigned. Else it reads the entry, a speculative 4-byte load at
T + 4 × index, and goes to PC + 4 × the entry, pushing nothing. A fault of the read has c.tval[0] set. A table in a never-cached or
I/O page closes the chunk, as any load there does, and a target that is not canonical is NONCANON (log 75, the model's choice). -/
def JumpTable : Prop := ∀ (s v : State) (a b : Src) (o : BitVec 15) (t : Target) (cause : Nat) (badva tval : Word),
  let i : Instr := .jtab a b o
  let n := src s a
  let q := loadReq (target s o + 4 * n) 4
  let dest := (me s).regs.pc + BitVec.ofInt 64 (4 * (leNat (viewBytes v t 4) : Int).bmod (2 ^ 32))
  ((src s b).toNat ≤ n.toNat → GoesTo i s ((me s).regs.pc + 4))
  ∧ (n.toNat < (src s b).toNat →
    (access s q = .ok t v → t.closes = false → viewPoisoned v t 4 = false → Canonical dest →
      ∃ u, exec i s = .next u ∧ KeepsStored s u ∧ (me u).regs = { (me s).regs with pc := dest } ∧ (me u).ctl = (me s).ctl
        ∧ (me u).chunk.stores = (me s).chunk.stores ∧ (me u).chunk.w = (me s).chunk.w
        ∧ (me u).chunk.r = (me s).chunk.r ||| (if t.space = .sw then 0 else sigRange t.asid t.va 4))
    ∧ (access s q = .ok t v → t.closes = true → ClosesFrom i s v
      ∧ (chunkEmpty (me s) = true → youngTask s s.cur = false → t.sys = false → sysOpsOf s s.cur false = [] →
          viewPoisoned v t 4 = false → Canonical dest →
          ∃ u, exec i s = .next u ∧ Keeps s u ∧ Closed (me s) (me u) dest ∧ (me u).regs = { (me s).regs with pc := dest }))
    ∧ (access s q = .core cause badva tval → RaisesTrap i s cause badva (tval ||| 1))
    ∧ (access s q = .home cause badva tval v → RaisesAtHome i s v cause badva (tval ||| 1)))

/-- R83, R84: fadd, fsub, fmul, fdiv, fsqrt and ffma complete in every state, push the exact result (`exAdd` and the like) rounded
once under c.fpmode[1:0], with the bits above the format zero, and set the flags of the rounding and of the operands and no
other; nothing else is changed. An operand that is a NaN gives the canonical NaN of the format, with NV for a signalling one; in ffma
an infinity times a zero sets NV too, whatever is added. -/
def FpArithmeticRoundsOnce : Prop := ∀ (s : State) (a b c : Src) (d : Dest) (p : Prec),
  let f := pFmt p
  let mode := roundMode (fpmode s)
  let v : Src → Val := fun x => unpack (fpmode s) f (fsrc s p x)
  let done : Instr → Exact → Prop := fun i e =>
    let r := ieeeCode f (flushes (fpmode s) f) mode 0 e.1
    GivesFp i s d (BitVec.ofNat 64 r.bits) (r.flags ||| e.2) ∧ r.bits < 2 ^ f.width
      ∧ (vNan e.1 = true → r.bits = f.canon)
  done (.fadd a b d p) (exAdd mode (v a) (v b))
  ∧ done (.fsub a b d p) (exAdd mode (v a) (negVal (v b)))
  ∧ done (.fmul a b d p) (exMul (v a) (v b))
  ∧ done (.fdiv a b d p) (exDiv (v a) (v b))
  ∧ done (.fsqrt a d p) (exSqrt (v a))
  ∧ done (.ffma a b c d p) (exFma mode (v a) (v b) (v c))
  ∧ (vNan (v a) = true ∨ vNan (v b) = true →
      let nv : BitVec 5 := if vSnan (v a) = true ∨ vSnan (v b) = true then 1 else 0
      let nan := BitVec.ofNat 64 f.canon
      GivesFp (.fadd a b d p) s d nan nv ∧ GivesFp (.fsub a b d p) s d nan nv ∧ GivesFp (.fmul a b d p) s d nan nv
        ∧ GivesFp (.fdiv a b d p) s d nan nv)
  ∧ (vNan (v a) = true → GivesFp (.fsqrt a d p) s d (BitVec.ofNat 64 f.canon) (if vSnan (v a) = true then 1 else 0))
  ∧ (vNan (v a) = true ∨ vNan (v b) = true ∨ vNan (v c) = true →
      let infinite : Src → Prop := fun x => v x = .inf false ∨ v x = .inf true
      let invalid := vSnan (v a) = true ∨ vSnan (v b) = true ∨ vSnan (v c) = true ∨ (vZero (v a) = true ∧ infinite b)
        ∨ (vZero (v b) = true ∧ infinite a)
      (invalid → GivesFp (.ffma a b c d p) s d (BitVec.ofNat 64 f.canon) 1)
      ∧ (¬ invalid → GivesFp (.ffma a b c d p) s d (BitVec.ofNat 64 f.canon) 0))

/-- The exact results of R84 on finite operands: a sum, a difference, a product and a product with an addend have the value of the
operands' sum, difference and so on; a zero sum of terms that are not all zeros of one sign is −0 under RDN only. A quotient and a
square root are carried far beyond the precision of any format: an even last digit stands for the exact value, and an odd one for a
value strictly between its two neighbours, so that they round as the exact value does. What has no value sets NV (an infinity less an
infinity or times or over another or a zero, a zero over a zero, the root of a negative number), and a number over zero is an infinity
with DZ. -/
def FpExactResults : Prop := ∀ (mode : Nat) (na nb nc : Bool) (ma mb mc : Nat) (ea eb ec : Int),
  let a := Val.fin na ma ea
  let b := Val.fin nb mb eb
  let c := Val.fin nc mc ec
  let invalid : Exact → Prop := fun x => x = (.nan false, 1)
  valQ (exAdd mode a b).1 = valQ a + valQ b ∧ (exAdd mode a b).2 = 0 ∧ vFin (exAdd mode a b).1 = true
  ∧ valQ (exAdd mode a (negVal b)).1 = valQ a - valQ b
  ∧ valQ (exMul a b).1 = valQ a * valQ b ∧ (exMul a b).2 = 0 ∧ vFin (exMul a b).1 = true
  ∧ valQ (exFma mode a b c).1 = valQ a * valQ b + valQ c ∧ (exFma mode a b c).2 = 0 ∧ vFin (exFma mode a b c).1 = true
  ∧ (valQ a + valQ b = 0 → ¬ (ma = 0 ∧ mb = 0 ∧ na = nb) → vNeg (exAdd mode a b).1 = decide (mode = 2))
  ∧ (valQ a * valQ b + valQ c = 0 → ¬ ((ma = 0 ∨ mb = 0) ∧ mc = 0 ∧ (na != nb) = nc) → vNeg (exFma mode a b c).1 = decide (mode = 2))
  ∧ (mb ≠ 0 → ∃ m e, exDiv a b = (.fin (na != nb) m e, 0) ∧ (ma ≠ 0 → 2 ^ 129 ≤ m)
      ∧ (m % 2 = 0 → valQ (exDiv a b).1 = valQ a / valQ b)
      ∧ (m % 2 = 1 → |valQ (exDiv a b).1 - valQ a / valQ b| < 2 ^ e))
  ∧ (mb = 0 → ma ≠ 0 → exDiv a b = (.inf (na != nb), 2)) ∧ (mb = 0 → ma = 0 → invalid (exDiv a b))
  ∧ (na = false → 0 < ma → ma < 2 ^ 64 → ∃ m e, exSqrt a = (.fin false m e, 0) ∧ 2 ^ 64 ≤ m
      ∧ (m % 2 = 0 → (m * 2 ^ e : ℚ) ^ 2 = valQ a)
      ∧ (m % 2 = 1 → ((m - 1 : ℚ) * 2 ^ e) ^ 2 < valQ a ∧ valQ a < ((m + 1 : ℚ) * 2 ^ e) ^ 2))
  ∧ (ma = 0 → valQ (exSqrt a).1 = 0 ∧ vNeg (exSqrt a).1 = na ∧ (exSqrt a).2 = 0) ∧ (na = true → ma ≠ 0 → invalid (exSqrt a))
  ∧ invalid (exAdd mode (.inf na) (.inf (!na))) ∧ exAdd mode (.inf na) b = (.inf na, 0)
  ∧ (mb = 0 → invalid (exMul (.inf na) b) ∧ invalid (exMul b (.inf na)) ∧ invalid (exFma mode (.inf na) b c))
  ∧ (mb ≠ 0 → exMul (.inf na) b = (.inf (na != nb), 0))
  ∧ invalid (exDiv (.inf na) (.inf nb)) ∧ valQ (exDiv a (.inf nb)).1 = 0 ∧ vNeg (exDiv a (.inf nb)).1 = (na != nb)
  ∧ exSqrt (.inf false) = (.inf false, 0) ∧ invalid (exSqrt (.inf true))

/-- R83, R345: rounding. A finite value that is not zero becomes the multiple of the format's quantum that the mode names (RNE:
nearest, ties to even; RTZ toward zero; RDN down; RUP up), and a code in range stands for exactly that multiple; NX is set when,
and only when, the value is not such a multiple. R346: under stochastic rounding a draw of 16 bits is added to the magnitude,
cut to 2^−16 of a quantum, and the whole quanta of the sum are taken. -/
def RoundingModes : Prop := ∀ (f : FpFmt) (mode m : Nat) (neg : Bool) (e : Int),
  (f = fmtDf ∨ f = fmtSf ∨ f = fmtHf ∨ f = fmtBf) → mode < 4 → m ≠ 0 →
  let q := quantum f.tb f.emin m e
  let k := roundTo mode 0 neg m e q
  let x : ℚ := m * 2 ^ (e - q)
  let r := ieeeCode f false mode 0 (.fin neg m e)
  (∀ draw < 2 ^ 16, (roundTo srMode draw neg m e q : ℤ) = (⌊x * 2 ^ 16⌋ + draw) / 2 ^ 16)
  ∧ ((mode = 0 → |x - k| ≤ 1 / 2 ∧ (|x - k| = 1 / 2 → k % 2 = 0))
    ∧ (mode = 1 → (k : ℚ) ≤ x ∧ x < k + 1)
    ∧ (mode = 2 → if neg then x ≤ k ∧ (k : ℚ) < x + 1 else (k : ℚ) ≤ x ∧ x < k + 1)
    ∧ (mode = 3 → if neg then (k : ℚ) ≤ x ∧ x < k + 1 else x ≤ k ∧ (k : ℚ) < x + 1))
  ∧ (magCode f.tb f.emin mode 0 neg m e < f.infCode →
      valQ (ieeeVal f false r.bits) = (if neg then -1 else 1) * k * 2 ^ q
      ∧ (r.flags.getLsbD 4 = true ↔ x ≠ k) ∧ r.flags.getLsbD 2 = false)
  ∧ (f.infCode ≤ magCode f.tb f.emin mode 0 neg m e → r.flags = 20
      ∧ r.bits = signOf f neg + (if mode = 0 ∨ mode = 3 ∧ neg = false ∨ mode = 2 ∧ neg = true then f.infCode else f.infCode - 1))

/-- R88: fround pushes ±0 and ±∞ unchanged, the canonical NaN for a NaN (NV for a signalling one), and else the integer that the
mode names, in the same format; NX is never set. -/
def FpRoundToIntegral : Prop := ∀ (s : State) (a : Src) (d : Dest) (p : Prec),
  let f := pFmt p
  let mode := roundMode (fpmode s)
  ∃ (r : Nat) (fl : BitVec 5), GivesFp (.fround a d p) s d (BitVec.ofNat 64 r) fl ∧ r < 2 ^ f.width
    ∧ match unpack (fpmode s) f (fsrc s p a) with
      | .nan sig => r = f.canon ∧ fl = if sig then 1 else 0
      | .inf n => r = signOf f n + f.infCode ∧ fl = 0
      | .fin n m e => fl = 0 ∧ (m = 0 → r = signOf f n)
          ∧ (m ≠ 0 → valQ (ieeeVal f false r) = (if n then -1 else 1) * (roundTo mode 0 n m e 0 : ℚ))

/-- R136, R139, R143: ld sign-extends, lz zero-extends, ldp pushes the word at +0 and then the word at +8, from the effective
address Src(base) + SignExt(off, 11) × n. -/
def ScalarLoads : Prop := ∀ (s : State) (b : Src) (d : Dest) (z : Size) (p : Span) (o : BitVec 11),
  let n := sizeN z
  let ea : Nat → Word := fun k => BitVec.ofInt 64 ((src s b).toInt + o.toInt * k)
  Loads (.ld b d z p o) s (loadReq (ea n) n) (fun bs r r' => ∃ x : Word, Pushed r r' d x
      ∧ x.toInt = (leNat bs : Int).bmod (2 ^ (8 * n)))
  ∧ Loads (.lz b d z p o) s (loadReq (ea n) n) (fun bs r r' => ∃ x : Word, Pushed r r' d x ∧ x.toNat = leNat bs)
  ∧ Loads (.ldp b d p o) s (loadReq (ea 16) 16) (fun bs r r' => ∃ (m : Regs) (lo hi : Word), Pushed r m .push lo ∧ Pushed m r' d hi
      ∧ lo.toNat = leNat (bs.take 8) ∧ hi.toNat = leNat (bs.drop 8))

/-- R139, R143: st and st.nt store the low n bytes of their data source, little-endian; stp stores two words at a 16-byte
boundary. In a never-cached page, a page pinned in another die, and host or peer memory each is a chunk of its own (R96). -/
def ScalarStores : Prop := ∀ (s : State) (a b c : Src) (z : Size) (p : Span) (o : BitVec 11) (o5 : BitVec 5),
  let n := sizeN z
  let ea : Int → Nat → Word := fun off k => BitVec.ofInt 64 ((src s a).toInt + off * k)
  Stores (.st a b z p o) s (storeReq (ea o.toInt n) n) (natBytes n ((src s b).toNat % 2 ^ (8 * n))) p true
  ∧ Stores (.stNt a b z o) s (storeReq (ea o.toInt n) n) (natBytes n ((src s b).toNat % 2 ^ (8 * n))) .pred false
  ∧ Stores (.stp a b c o5) s (storeReq (ea o5.toInt 16) 16) (natBytes 16 ((src s b).toNat + 2 ^ 64 * (src s c).toNat)) .pred true

/-- R245, R247, R248, R253: send and spawn take their message from the result queue, check its word 0, and take one deferred-effect
entry. send checks its place pointer first: NONCANON, then WINDOW unless it is a scratchpad pointer with offset 0. A failed
header check raises QUEUE_INVALID with reason 2, c.badva 0, in the core. -/
def SendAndSpawn : Prop := ∀ (s : State) (a : Src),
  let p := src s a
  let c := ptrClass s.cur p
  let w := qGet (me s).regs 0
  let fine := HeaderFine w false (isUser (me s)) ∧ w.toNat % 2 ^ 12 ≠ 0
  let place := c = 2 ∨ c = 0x12
  let core := if p.toNat / 2 ^ 36 % 2 ^ 12 = 0xFFF then s.cur / 8 else p.toNat / 2 ^ 33 % 2 ^ 15
  let bad : Instr → Prop := fun i => RaisesTrap i s cQueueInvalid 0 (BitVec.ofNat 64 (2 * 4096))
  (¬ Canonical p → RaisesTrap (.send a) s cNoncanon p 0)
  ∧ (Canonical p → ¬ (place ∧ p.toNat % 2 ^ 18 = 0) → RaisesTrap (.send a) s cWindow p 0)
  ∧ (place → p.toNat % 2 ^ 18 = 0 → ¬ fine → bad (.send a))
  ∧ (place → p.toNat % 2 ^ 18 = 0 → fine → TakesEffect (.send a) s (.send core (qWords s 8)))
  ∧ (¬ fine → bad .spawn)
  ∧ (fine → TakesEffect .spawn s (.spawn (qWords s 7)))

/-- R245, R246, R249, R250: a form that names a queue waits for the die Fox's probe. With its answer, enq accepts a dispatch queue
that is not ordered, a plain queue that is not a crew route, and a copy queue, whose packet is not checked; enqt an ordered
dispatch queue, with word 7 the timestamp and word 0 [37] set; sendr a crew route with a slot for the expert. Each then takes
one deferred-effect entry. Another queue fails with reason 4 at the home, and the probe's own failure with its reason. -/
def QueueForms : Prop := ∀ (s : State) (a b : Src),
  let h := (src s a).toNat
  let e := (src s b).toNat
  let w := qGet (me s).regs 0
  let user := isUser (me s)
  let handler := w.toNat % 2 ^ 12 ≠ 0
  let stamped := setNth (setNth (qWords s 7) 7 (src s b)) 0 (w ||| 0x2000000000)
  let header : Instr → Prop := fun i => RaisesTrap i s cQueueInvalid 0 (BitVec.ofNat 64 (2 * 4096 + h % 4096))
  let asks : Instr → Prop := fun i => exec i s = .next (post (stallCtx s s.cur (.probe h)) s.cur .queueProbe)
  ((me s).probe = none → asks (.enq a) ∧ (HeaderFine w true user → asks (.enqt a b)) ∧ (HeaderFine w false user → asks (.sendr a b)))
  ∧ (¬ HeaderFine w true user → header (.enqt a b)) ∧ (¬ HeaderFine w false user → header (.sendr a b))
  ∧ (∀ p, (me s).probe = some p → p.handle = h →
      let kind := p.word1.toNat / 2 ^ 16 % 4
      let binding := p.word1.toNat / 2 ^ 18 % 8
      let ordered := p.word1.toNat / 2 ^ 23 % 2 = 1
      let count := 2 ^ (p.word1.toNat % 2 ^ 5)
      let reason4 : Instr → Prop := fun i => RaisesAtHome i s s cQueueInvalid (BitVec.ofNat 64 p.desc) (BitVec.ofNat 64 (4 * 4096 + h % 4096))
      (∀ r va, p.bad = some (r, va) → ∀ i, (i = .enq a ∨ (i = .enqt a b ∧ HeaderFine w true user)
          ∨ (i = .sendr a b ∧ HeaderFine w false user)) →
          RaisesAtHome i s s cQueueInvalid va (BitVec.ofNat 64 (r * 4096 + h % 4096)))
      ∧ (p.bad = none →
        ((kind = 0 ∧ ordered) ∨ (kind = 1 ∧ binding = 3) → reason4 (.enq a))
        ∧ (¬ ((kind = 0 ∧ ordered) ∨ (kind = 1 ∧ binding = 3)) →
            (kind = 2 ∨ (HeaderFine w false user ∧ (kind = 0 → handler)) → TakesEffect (.enq a) s (.enq h (qWords s 8)))
            ∧ (kind ≠ 2 → ¬ (HeaderFine w false user ∧ (kind = 0 → handler)) → header (.enq a)))
        ∧ (HeaderFine w true user → ¬ (kind = 0 ∧ ordered) → reason4 (.enqt a b))
        ∧ (HeaderFine w true user → kind = 0 → ordered → handler → TakesEffect (.enqt a b) s (.enq h stamped))
        ∧ (HeaderFine w true user → kind = 0 → ordered → ¬ handler → header (.enqt a b))
        ∧ (HeaderFine w false user → ¬ (kind = 1 ∧ binding = 3 ∧ e < count) → reason4 (.sendr a b))
        ∧ (HeaderFine w false user → kind = 1 → binding = 3 → e < count → TakesEffect (.sendr a b) s (.sendr h e (qWords s 8)))))

/-- R251: deq reads the read index and the slot it names with supervisor rights. With the stamp of that index it pushes the eight
words, word 0 last, so that q0 to q7 are words 0 to 7, and stores the freed stamp and the next index in the chunk, for which it needs
the right to write; with another stamp it writes nothing, and waits at the chunk boundary. -/
def TakeFromQueue : Prop := ∀ (s : State) (a : Src) (d : Dest) (p : ProbeAnswer) (td ts tw iw : Target)
    (v1 v2 v3 v4 : State),
  let h := (src s a).toNat
  let count := 2 ^ (p.word1.toNat % 2 ^ 5)
  let sup : Nat → Nat → Nat → Need → AccReq := fun va n kind need =>
    { ea := BitVec.ofNat 64 va, n := n, align := 8, kind := kind, need := need, wins := [8], pages := [.hc, .pinned],
      closes := false, sup := true }
  let index := p.desc + 0x18
  let w1 := loadEffects v1 [(td, 8)] .pred
  let n := leNat (viewBytes v1 td 8)
  let slot := p.word0.toNat / 64 % 2 ^ 50 * 64 + 64 * (n % count)
  let w2 := loadEffects v2 [(ts, 64)] .pred
  let words := wordsOf (viewBytes v2 ts 64)
  let stamp := (wordAt words 0).toNat / 2 ^ 48
  let freed := (wordAt words 0).toNat % 2 ^ 48 + (n + count + 0x8000) % 2 ^ 16 * 2 ^ 48
  let items := [(tw, natBytes 8 freed), (iw, natBytes 8 (n + 1))]
  (me s).probe = some p → p.handle = h → p.bad = none → p.word1.toNat / 2 ^ 16 % 4 = 1 → p.word1.toNat / 2 ^ 18 % 8 = 0 →
  access s (sup index 8 0 needR) = .ok td v1 → td.closes = false → viewPoisoned v1 td 8 = false →
  access w1 (sup slot 64 0 needR) = .ok ts v2 → ts.closes = false → viewPoisoned v2 ts 64 = false →
  (stamp = n % 2 ^ 16 → AllReach w2 [sup slot 8 1 needW, sup index 8 1 needW] [tw, iw] v3 →
      storeMany (storeFills v3 [(tw, 8), (iw, 8)] .pred) items = some v4 →
    ∃ u, exec (.deq a d) s = .next u ∧ KeepsStored s u ∧ (me u).ctl = (me s).ctl ∧ (me u).regs.pc = (me s).regs.pc + 4
      ∧ (∀ i : Fin 8, qGet (me u).regs ⟨i.val, by omega⟩ = wordAt words i.val)
      ∧ (∀ i : Fin 8, qGet (me u).regs ⟨i.val + 8, by omega⟩ = qGet (me s).regs ⟨i.val, by omega⟩)
      ∧ (∀ k : Fin 16, (me u).regs.k.get k = if d = .keep k then wordAt words 0 else (me s).regs.k.get k)
      ∧ (me u).chunk.stores = storesAfter items (me s).chunk.stores)
  ∧ (stamp ≠ n % 2 ^ 16 → chunkEmpty (me s) = true → ∃ u, exec (.deq a d) s = .next u ∧ WaitsHere s u 5
      ∧ (me u).watch = some (ts.key / 32))
  ∧ (stamp ≠ n % 2 ^ 16 → chunkEmpty (me s) = false → exec (.deq a d) s = .next (endChunkOf s s.cur .resume))

/-- R254, R255, R256, R259: jinit stores a join block, and raises QUEUE_INVALID with reason 6 for a count of 0 or above 32 bits; the
four forms of done end the chunk after themselves and retire, done.t with its store of 2 at 0x38; launch takes one deferred
effect for a well-formed descriptor, and raises reason 7 at the home for a malformed one. -/
def JoinRetireLaunch : Prop := ∀ (s v w : State) (a b : Src) (t : Target),
  let ea := src s a
  let c := (src s b).toNat
  let req : Nat → Nat → Need → AccReq := fun n kind need =>
    { ea := ea, n := n, align := n, kind := kind, need := need, wins := [8], pages := [.hc, .pinned], closes := false,
      sup := false }
  let block := BitVec.ofNat 64 c :: (List.finRange 7).map (fun i => qGet (me s).regs ⟨i.val, by omega⟩)
  let bytes := block.foldr (fun x acc => natBytes 8 x.toNat ++ acc) []
  let at38 : Target := { t with key := t.key + 0x38, va := t.va + 0x38 }
  ((c = 0 ∨ 2 ^ 32 ≤ c) → RaisesTrap (.jinit a b) s cQueueInvalid ea (BitVec.ofNat 64 (6 * 4096)))
  ∧ (0 < c → c < 2 ^ 32 → access s (req 64 1 needW) = .ok t v → t.closes = false → storeOne (storeFills v [(t, 64)] .pred) t bytes = some w →
      ∃ u, exec (.jinit a b) s = .next u ∧ KeepsStored s u ∧ (me u).regs = { (me s).regs with pc := (me s).regs.pc + 4 }
        ∧ (me u).ctl = (me s).ctl ∧ (me u).chunk.stores = storesAfter [(t, bytes)] (me s).chunk.stores)
  ∧ Retires .doneP s .plain
  ∧ Retires (.doneF a) s (.status (ea.setWidth 32))
  ∧ (access s (req 64 2 needRW) = .ok t v → Retires (.doneJ a) s (.join ea))
  ∧ (access s (req 64 1 needW) = .ok t v → t.closes = false → effectsFull (me s) 1 = false →
      storeOne (storeFills v [(at38, 8)] .pred) at38 (natBytes 8 2) = some w →
      ∃ u, exec (.doneT a) s = .next u ∧ KeepsStored s u ∧ (me u).run = .committing (.retire (.tcb ea))
        ∧ (me u).regs = { (me s).regs with pc := (me s).regs.pc + 4 } ∧ (me u).chunk.effects = (me s).chunk.effects ++ [.retire (.tcb ea)]
        ∧ (me u).chunk.stores = storesAfter [(at38, natBytes 8 2)] (me s).chunk.stores)
  ∧ (access s (req 128 0 needR) = .ok t v → poisoned v t.key 128 = false →
      (launchOk (wordsOf (memBytes s.mem t.key 128)) = true → TakesEffect (.launch a) s (.launch ea))
      ∧ (launchOk (wordsOf (memBytes s.mem t.key 128)) = false →
          RaisesAtHome (.launch a) s v cQueueInvalid ea (BitVec.ofNat 64 (7 * 4096))))

/-- R323, R324: mark pushes the depth of the choice stack. cut to the depth or above does nothing; cut to a depth below reads the
records from the top down, marks the tokens of those that were stolen from as pruned, sets c.choice, and trims the spoor when the
stack becomes empty. trail does nothing with an empty stack. -/
def MarkCutTrail : Prop := ∀ (s v w : State) (a : Src) (d : Dest) (z : Size) (items : List (Target × List Byte)),
  let c := (me s).ctl
  let depth := (c.choice - c.choicebase).toNat / 288
  let n := (src s a).toNat
  Gives (.mark d) s d (fun r => r.toNat = depth)
  ∧ (depth ≤ n → GoesTo (.cut a) s ((me s).regs.pc + 4))
  ∧ (n < depth → CutReads c.choicebase n (depth - n) s items v → Room v .pred items w →
      ∃ u, exec (.cut a) s = .next u ∧ KeepsStored s u ∧ (me u).regs = { (me s).regs with pc := (me s).regs.pc + 4 }
        ∧ (me u).ctl = { c with choice := c.choicebase + BitVec.ofNat 64 (288 * n), spoor := if n = 0 then c.spoorbase else c.spoor }
        ∧ (me u).chunk.stores = storesAfter items (me s).chunk.stores)
  ∧ ((c.choice = c.choicebase ∨ tsOn c = true) → GoesTo (.trail a z) s ((me s).regs.pc + 4))

/-- R141, R316, R318, R324: while the choice stack is not empty and no trap is being handled, st first appends an entry at c.spoor, stp
one for each of its words, and trail one, with nothing else written. -/
def TrailedStore : Prop := ∀ (s v : State) (a b r : Src) (z : Size) (p : Span) (o : BitVec 11) (o5 : BitVec 5) (t : Target),
  let n := sizeN z
  let ea : Int → Nat → Word := fun off k => BitVec.ofInt 64 ((src s a).toInt + off * k)
  let code := match z with | .b => 0 | .h => 1 | .w => 2 | .d => 3
  let hi : Target := { t with key := t.key + 8, va := t.va + 8 }
  trailing (me s) = true → t.closes = false → t.space ≠ .engine →
  (access s (storeReq (ea o.toInt n) n) = .ok t v →
    Trailed (.st a b z p o) s v p [⟨ea o.toInt n, t, code⟩] [(t, natBytes n ((src s b).toNat % 2 ^ (8 * n)))])
  ∧ (access s (storeReq (ea o5.toInt 16) 16) = .ok t v →
    Trailed (.stp a b r o5) s v .pred [⟨ea o5.toInt 16, t, 3⟩, ⟨ea o5.toInt 16 + 8, hi, 3⟩]
      [(t, natBytes 16 ((src s b).toNat + 2 ^ 64 * (src s r).toNat))])
  ∧ (access s (loadReq (src s a) n) = .ok t v → Trailed (.trail a z) s v .pred [⟨src s a, t, code⟩] [])

/-- R39: on trap entry the hardware stores q0–q15 at c.tsave, with qN at offset 8 × N. -/
def TrapEntryStoresQ : Prop := ∀ (s t v : State) (pa : Nat) (i : Fin 16), MemOk s →
  hwAddr s (asidOf (me s)) ((me s).ctl.tsave &&& ~~~127).toNat true false = .ok pa v → saveQ s s.cur = .ok () t →
  leNat (memBytes t.mem (pa + 8 * i.val) 8) = (qGet (me s).regs i).toNat

/-- R39, R96, R267: a trap while ts = 1 is an MCHECK with reason 1, and a fault of the save at c.tsave one with reason 4; the detail is
the cause of the trap being entered, and c.epc is the instruction. The trap has been a chunk of its own, and a held chunk has given up
its grants (R111). That the firmware record is a field of the context (log 78), and c.badva, the trap's own for reason 1 and c.tsave for
reason 4 (log 87), are the model's choice. -/
def NestedTraps : Prop := ∀ (s v : State) (a : Src) (cause : Nat),
  let tsave := (me s).ctl.tsave &&& ~~~127
  let pc := (me s).regs.pc
  let c := nextChunk (me s) 1
  let d := modMe (dropHeld s s.cur) (fun c => nextChunk c 1)
  chunkEmpty (me s) = true → youngTask s s.cur = false →
  (tsOn (me s).ctl = true → ∃ u, exec (.trap a) s = .next u ∧ OnlyMe (dropHeld s s.cur) u ∧ TookMcheck c (me u) 1 cSys pc pc)
  ∧ (tsOn (me s).ctl = false → hwAddr d (asidOf (me s)) tsave.toNat true false = .fault cause v →
      ∃ u, exec (.trap a) s = .next u ∧ TookMcheck c (ctxAt u s.cur) 4 cSys tsave pc)

/-- R282, R267: eret reloads q from c.tsave when ts is 1, sets pl to ppl and ts to 0, and goes on at c.epc. At firmware level it
restores the firmware record, which is a field of the context (log 78, the model's choice). A fault on c.tsave is an MCHECK with
reason 4. Before it a chunk ends (R96), and a task of an ordered domain waits until it is the oldest (R238). -/
def ReturnFromTrap : Prop := ∀ (s v : State) (f : FirmwareRecord) (bs : List Byte) (cause : Nat),
  let c := me s
  let tsave := c.ctl.tsave &&& ~~~127
  let first := chunkEmpty c = true ∧ youngTask s s.cur = false
  let top := isUser c = false ∧ first ∧ ¬ (plOf c.ctl = 2 ∧ c.firmware ≠ none)
  let level : State → Prop := fun u => plOf (me u).ctl = pplOf c.ctl ∧ pplOf (me u).ctl = pplOf c.ctl ∧ tsOn (me u).ctl = false
  Privileged .eret s ∧ (isUser c = false → ClosesFrom .eret s s)
  ∧ (top → tsOn c.ctl = false → ∃ u, exec .eret s = .next u ∧ OnlyMe (dropHeld s s.cur) u ∧ Closed c (me u) (c.ctl.epc &&& ~~~3)
      ∧ level u ∧ (me u).regs = { c.regs with pc := c.ctl.epc &&& ~~~3 })
  ∧ (top → tsOn c.ctl = true → hwRead s (asidOf c) tsave.toNat 128 false = .ok bs v → me v = c → v.cur = s.cur →
      ∃ u, exec .eret s = .next u ∧ Closed c (me u) (c.ctl.epc &&& ~~~3) ∧ level u
        ∧ (∀ i : Fin 16, qGet (me u).regs i = wordAt (wordsOf bs) i.val)
        ∧ (me u).regs = { c.regs with ring := (me u).regs.ring, pc := c.ctl.epc &&& ~~~3 })
  ∧ (top → tsOn c.ctl = true → hwRead s (asidOf c) tsave.toNat 128 false = .fault cause v → me v = c → v.cur = s.cur →
      ∃ u, exec .eret s = .next u ∧ TookMcheck c (me u) 4 0 tsave c.regs.pc)
  ∧ (first → plOf c.ctl = 2 → c.firmware = some f → ∃ u, exec .eret s = .next u ∧ OnlyMe (dropHeld s s.cur) u
      ∧ Closed c (me u) f.pc
      ∧ (∀ i : Fin 16, qGet (me u).regs i = f.q.get i) ∧ (me u).regs = { c.regs with ring := (me u).regs.ring, pc := f.pc }
      ∧ (me u).ctl.epc = f.epc ∧ (me u).ctl.cause = f.cause ∧ (me u).ctl.badva = f.badva ∧ (me u).ctl.tval = f.tval
      ∧ plOf (me u).ctl = plOf { c.ctl with status := f.status } ∧ tsOn (me u).ctl = tsOn { c.ctl with status := f.status })

/-- R34, R36, R283: crd pushes the control register whose number it names. Numbers 0x1D–0x1F raise ILLEGAL, and a register that user
code may not read raises PRIV at user level. -/
def ControlRegisterReads : Prop := ∀ (s : State) (r : BitVec 5) (d : Dest),
  let n := r.toNat
  let hidden := isUser (me s) = true ∧ 4 ≤ n ∧ n ≤ 7
  (0x1D ≤ n → Illegal (.crd r d) s)
  ∧ (hidden → RaisesTrap (.crd r d) s cPriv (me s).regs.pc (BitVec.ofNat 64 (me s).word.toNat))
  ∧ (∀ x, (crValues s)[n]? = some x → ¬ hidden → Gives (.crd r d) s d (fun y => y = x))

/-- R34, R35, R36, R283: cwr is a chunk of its own. It changes the register whose number it names, but for the fields that R34
marks, its clamps, and the registers that the level may not change, and no other but c.icount, which counts it. A write that
user code may not make raises PRIV. A write of 0 to c.rng stores 1. That a write of c.self or c.cycle is ignored at user level too
(log 51), and that a length is cut to its field before it is clamped (log 52), are the model's choice. R238: a task of an ordered
domain waits before it until it is the oldest. -/
def ControlRegisterWrites : Prop := ∀ (s : State) (a : Src) (r : BitVec 5),
  let n := r.toNat
  let x := src s a
  let lvl := plOf (me s).ctl
  let i : Instr := .cwr a r
  let userMay := n = 0x0A ∨ n = 0x0E ∨ n = 0x0F ∨ (0x11 ≤ n ∧ n ≤ 0x15) ∨ n = 0x17 ∨ n = 0x18 ∨ n = 0x01 ∨ n = 0x1A
  let ignored := n = 0x01 ∨ n = 0x1A ∨ (lvl ≠ 2 ∧ (n = 0x02 ∨ n = 0x03))
  let writes : (State → Prop) → Prop := fun p => ∃ u, exec i s = .next u ∧ Keeps s u
    ∧ Closed { me s with ctl := { (me s).ctl with icount := (me u).ctl.icount - 1 } } (me u) ((me s).regs.pc + 4)
    ∧ (me u).regs = { (me s).regs with pc := (me s).regs.pc + 4 }
    ∧ (∀ m, m ≠ n → m ≠ 0x1B → m ≠ 0 → (crValues u)[m]? = (crValues s)[m]?) ∧ plOf (me u).ctl = lvl
    ∧ (n ≠ 0x1B → (me u).ctl.icount = (me s).ctl.icount + 1)
    ∧ (n ≠ 0 → pplOf (me u).ctl = pplOf (me s).ctl ∧ stepOn (me u).ctl = stepOn (me s).ctl ∧ tsOn (me u).ctl = tsOn (me s).ctl)
    ∧ p u
  (0x1D ≤ n → Illegal i s)
  ∧ (n < 0x1D → isUser (me s) = true → ¬ userMay →
      RaisesTrap i s cPriv (me s).regs.pc (BitVec.ofNat 64 (me s).word.toNat))
  ∧ (n < 0x1D → (isUser (me s) = true → userMay) → ClosesFrom i s s)
  ∧ (n < 0x1D → (isUser (me s) = true → userMay) → chunkEmpty (me s) = true → youngTask s s.cur = false →
      (ignored → Completes i s)
      ∧ (¬ ignored → ∀ m, crMask n = some m → writes (fun u => (crValues u)[n]? = some (x &&& m)))
      ∧ (n = 0x0A → writes (fun u => (me u).ctl.chunklen.toNat = max 256 (min 8192 (x.toNat % 2 ^ 14))))
      ∧ (n = 0x14 → writes (fun u => (me u).ctl.framelen.toNat = min 4096 (x.toNat % 2 ^ 13)))
      ∧ (n = 0x1B → writes (fun u => (me u).ctl.icount = x + 1))
      ∧ (n = 0x19 → writes (fun u => (coreAt u (coreOf s.cur)).rng = if x = 0 then 1 else x))
      ∧ (n = 0x00 → writes (fun u => stepOn (me u).ctl = x.getLsbD 4 ∧ tsOn (me u).ctl = x.getLsbD 5
          ∧ pplOf (me u).ctl = (let p := x.toNat / 4 % 4; if p < 2 ∨ (p = 2 ∧ lvl = 2) then p else pplOf (me s).ctl))))

/-- R104, R105: an ended chunk that wrote asks its arbiters in order, from the lowest; one that wrote nothing commits at the core. An
arbiter grants, or keeps the request waiting in arrival order. A chunk that would commit against a held chunk of its core asks again
later (R111), a young task of an ordered domain too (R238), and a write of an engine or of the I/O die into a frozen region (R207). -/
def GrantSteps : Prop := ∀ (s : State) (after : After) (arb cid : Nat) (c : Commit),
  let x := me s
  let asks := arbSet s.cur x.chunk
  (x.run = .committing after → x.chunk.live = true → (∀ p ∈ s.commits, ¬ (p.2.kind = .chunk ∧ p.2.loc = s.cur)) →
    youngTask s s.cur = false → x.unit.dup < 2 →
    heldBlocks s s.cur x.chunk.w = false → (x.chunk.w ≠ 0 → ∀ a rest, asks = a :: rest → Does .chunkEnd s (fun u => Quiet s u
        ∧ u.agenda = s.agenda ++ [(0, 0, .grantRequest a s.nextCommit)]
        ∧ ∃ k, tblFind u.commits s.nextCommit = some k ∧ k.kind = .chunk ∧ k.loc = s.cur ∧ k.asid = asidOf x ∧ k.r = x.chunk.r
          ∧ k.w = x.chunk.w ∧ k.stores = x.chunk.stores.reverse ∧ k.ask = asks ∧ k.point = false))
    ∧ (x.chunk.w = 0 → replayOn x = false → Does .chunkEnd s (fun u => Quiet s u
        ∧ u.agenda = s.agenda ++ [(0, s.nextCommit, .commitPoint)] ∧ ∃ k, tblFind u.commits s.nextCommit = some k ∧ k.ask = [])))
  ∧ (tblFind s.commits cid = some c → c.ask.head? = some arb → (arb < 16 → (homeAt s arb).paused = false) → plainHeld s c = false →
      c.replay = false →
    (refuses s arb (if c.kind = .chunk then some c.loc else none) c.r c.w = true → Does (.grantRequest arb cid) s (fun u => Quiet s u
        ∧ u.agenda = s.agenda ∧ u.commits = s.commits ∧ cid ∈ (arbAt u arb).waiting
        ∧ (cid ∉ (arbAt s arb).waiting → (arbAt u arb).waiting = (arbAt s arb).waiting ++ [cid])))
    ∧ (refuses s arb (if c.kind = .chunk then some c.loc else none) c.r c.w = false → Does (.grantRequest arb cid) s (fun u => Quiet s u
        ∧ (arbAt u arb).inProg = (arbAt s arb).inProg ++ [cid] ∧ cid ∉ (arbAt u arb).waiting
        ∧ tblFind u.commits cid = some { c with ask := c.ask.drop 1, granted := c.granted ++ [arb] }
        ∧ (∀ a, c.ask[1]? = some a → u.agenda = s.agenda ++ [(0, 0, .grantRequest a cid)])
        ∧ (c.ask.length = 1 → c.kind = .chunk → u.agenda = s.agenda ++ [(0, cid, .commitPoint)]))))

/-- R105, R106, R107: from its commit point a chunk is no longer live, its messages go to the homes it wrote, and the chunks of its
core that have read what it wrote are squashed. A home applies the words and then the far operations; a core squashes the
chunks that have read a written grain; when every answer is in, the arbiters end the commit and the context goes on. -/
def CommitSteps : Prop := ∀ (s : State) (home core cid : Nat) (c : Commit) (st : Store) (f : FarEntry) (after : After),
  let l := c.loc
  let x := ctxAt s l
  let meets : Nat → Prop := fun o => (ctxAt s o).chunk.live = true ∧ sigMeets (ctxAt s o).chunk.r c.w = true
  let here := c.stores.filter (fun t => isHbm t.pa && t.pa / 2 ^ 37 == home)
  let fars := c.far.filter (fun f => f.pa / 2 ^ 37 == home)
  let n := if f.w then 4 else 8
  let calm := (homeAt s home).paused = false ∧ commitLines s c home = [] ∧ entryWaits s home c = false
    ∧ c.msgs.find? (fun m => m.1 == home) = some (home, commitMessageOf s c home)
  (tblFind s.commits s.cur = some c → c.kind = .chunk → c.point = false → c.ask = [] → heldBlocks s l c.w = false →
      Does .commitPoint s (fun u =>
      (ctxAt u l).chunk.live = false ∧ u.order = s.order + 1
      ∧ (∀ k, tblFind u.commits s.cur = some k → k.point = true) ∧ tblFind u.commits s.cur ≠ none
      ∧ (∀ t ∈ c.stores, t.space = .hc → isHbm t.pa = true → (0, 0, .commitMessage (t.pa / 2 ^ 37) s.cur) ∈ u.agenda)
      ∧ (∀ o, o ≠ l → coreOf o = coreOf l → meets o → Squashed (ctxAt s o) (ctxAt u o))
      ∧ (∀ o, o ≠ l → ¬ (coreOf o = coreOf l ∧ meets o) → DiscardsKept (ctxAt s o) (ctxAt u o))))
  ∧ (tblFind s.commits cid = some c → c.point = true → home ∈ c.homes → calm → MemOk s → Does (.commitMessage home cid) s (fun u =>
      (∀ o, ctxAt u o = ctxAt s o) ∧ (∀ k, tblFind u.commits cid = some k → k.homes = c.homes.filter (· != home))
      ∧ (here = [st] → fars = [] → st.va % 512 = st.pa % 512 → Stored s u st.pa st.bytes)
      ∧ (here = [] → fars = [f] → Stored s u f.pa (natBytes n (amoResult (farAmo f.op) (8 * n) (leNat (memBytes s.mem f.pa n))
          (f.x.toNat % 2 ^ (8 * n)))))))
  ∧ (tblFind s.commits cid = some c → core ∈ c.fwd → Does (.forwardedW core cid) s (fun u => u.mem = s.mem
      ∧ (∀ k, tblFind u.commits cid = some k → k.fwd = c.fwd.erase core)
      ∧ (∀ o, o ≠ l → coreOf o = core → meets o → Squashed (ctxAt s o) (ctxAt u o)
          ∧ (ctxAt u o).chunk.conflicts = (ctxAt s o).chunk.conflicts + 1)
      ∧ (∀ o, ¬ (o ≠ l ∧ coreOf o = core ∧ meets o) → ctxAt u o = ctxAt s o)))
  ∧ (tblFind s.commits s.cur = some c → c.kind = .chunk → c.point = true → c.homes = [] → c.fwd = [] → c.lines = [] → c.replay = false →
      x.run = .committing after → (∀ e ∈ x.chunk.effects, ∃ r, e = .retire r) → x.unit.dup = 0 → x.ctl.lineage = 0 → Does .commitComplete s (fun u =>
        u.mem = s.mem ∧ tblFind u.commits s.cur = none ∧ (∀ a ∈ c.granted, s.cur ∉ (arbAt u a).inProg)
        ∧ (ctxAt u l).regs = x.regs ∧ (ctxAt u l).ctl.icount = x.ctl.icount + BitVec.ofNat 64 x.chunk.count
        ∧ chunkEmpty (ctxAt u l) = true
        ∧ (after = .resume ∨ after = .wait → (ctxAt u l).run = .ready ∧ (ctxAt u l).chunk.num = x.chunk.num + 1)
        ∧ (∀ t, after = .trap t → (ctxAt u l).run = .committing (.trap t) ∧ (0, l, .trapEntry) ∈ u.agenda)
        ∧ (∀ r, after = .retire r → (ctxAt u l).run = .dormant)
        ∧ (after = .yield → ∃ peers, (ctxAt u l).run = .yielded (s.now + 256) peers)))

/-- R225, R226, R227, R246: QUEUE_MISS makes a head resident; a probe answers the reference with the descriptor or the trap's reason; a
delivery takes a slot at the write index and, once the slot is free, writes the message and is done; a delivery that has waited
64 µs posts QUEUE_STALL once. A delivery writes the ring whose slot it claimed, whatever the handle names since (R262). -/
def RingSteps : Prop := ∀ (s v w : State) (die asid h desc reason va k : Nat) (ws : List Word) (d : Delivery) (n : Word),
  let id := s.cur - 2 ^ 32
  let s1 := touchHead s d.asid d.handle
  let fresh : Head := { asid := asid, handle := h, desc := desc, words := ws, hint := true, used := s.tick, waiting := none }
  let mineIs : State → Option Delivery → Prop := fun u x => tblFind u.fox.deliveries id = x
  let probed : ProbeAnswer → Prop := fun p => Does .queueProbe s (fun u => QuietBut s.cur s u
    ∧ me u = { me s with run := .ready, probe := some p })
  (headOf s asid h = none → lookupMem s asid h = .ok desc ws →
      (bindClass ws = 0 → placeExists s die 0 0 = true → Does (.queueMiss die asid h) s (fun u => Quiet s u ∧ fresh ∈ (dieAt u die).heads))
      ∧ (bindClass ws ≠ 0 → (∃ e ∈ liveDies s, classAdmits (bindClass ws) e = true) → Does (.queueMiss die asid h) s (fun u => Quiet s u
          ∧ ∃ e ∈ liveDies s, classAdmits (bindClass ws) e = true ∧ fresh ∈ (dieAt u e).heads
            ∧ ∀ o ∈ liveDies s, classAdmits (bindClass ws) o = true → idleOn s o ≤ idleOn s e)))
  ∧ (headOf s asid h ≠ none → exec (.queueMiss die asid h) s = .next s)
  ∧ (headOf s asid h = none → lookupMem s asid h = .bad reason va → (∀ p ∈ s.fox.deliveries, ¬ (p.2.asid = asid ∧ refersTo p.2 = h)) →
      (ctxAt s k).run = .stalled (.probe h) → asidOf (ctxAt s k) = asid → Does (.queueMiss die asid h) s (fun u => u.mem = s.mem
        ∧ ctxAt u k = { ctxAt s k with run := .ready, probe := some { handle := h, bad := some (reason, BitVec.ofNat 64 va), desc := 0,
                                                                      word0 := 0, word1 := 0 } }))
  ∧ ((me s).run = .stalled (.probe h) →
      (lookup s (asidOf (me s)) h = .ok desc ws →
          probed { handle := h, bad := none, desc := desc, word0 := wordAt ws 0, word1 := wordAt ws 1 })
      ∧ (lookup s (asidOf (me s)) h = .bad reason va →
          probed { handle := h, bad := some (reason, BitVec.ofNat 64 va), desc := 0, word0 := 0, word1 := 0 }))
  ∧ (2 ^ 32 ≤ s.cur → tblFind s.fox.deliveries id = some d →
      (d.route = none → lookup s d.asid d.handle = .ok desc ws → ∀ i, i = Instr.ringDelivery ∨ i = Instr.ringRetry →
        (d.slot = none → d.event = false → deliverable d ws = none →
          claimsLater s id d = false →
          hwUpdate s1 d.asid (desc + 0x10) (· + 1) = .ok n v → Does i s (fun u => Quiet v u
            ∧ mineIs u (some { d with slot := some n.toNat, desc := desc, words := ws, since := v.now }) ∧ (0, s.cur, Instr.ringDelivery) ∈ u.agenda)))
      ∧ (d.slot = some k → ∀ i, i = Instr.ringDelivery ∨ i = Instr.ringRetry →
        (slotFree s d.asid d.desc k (qdCount d.words) = .ok true v →
          hwWrite v d.asid (ringSlotVa d.words k) (stampedSlot d.msg k) true = .ok () w → Does i s (fun u => u.mem = w.mem ∧ mineIs u none
            ∧ ∀ l, (d.loc ≠ some l → ctxAt u l = ctxAt w l)
              ∧ (d.loc = some l → ctxAt u l = { ctxAt w l with undelivered := (ctxAt w l).undelivered - 1 })))
        ∧ (slotFree s d.asid d.desc k (qdCount d.words) = .ok false v → exec i s = .next (postIn v Config.cycles256ns s.cur .ringRetry)))
      ∧ (d.slot ≠ none → d.stallPosted = false → d.since + Config.cycles64us ≤ s.now → id < s.fox.nextDelivery → Does .queueStall s (fun u => Quiet s u ∧ mineIs u (some { d with stallPosted := true })
            ∧ (d.event = false → Posts s u d.asid 0 cQueueStall (BitVec.ofNat 64 d.desc) (BitVec.ofNat 64 d.handle)))))

/-- R222, R232, R233, R234, R325, R326, R327: a message enters its mailbox, then the overflow ring; an idle context takes the first
message of its own mailbox; a gang waits until every thread has a context, and then all start together; a thief takes the last
alternative that is left, or is idle again. The slot of the overflow ring that a message takes, the one after that of the message before
it, is the model's choice (log 26). -/
def WorkSteps : Prop := ∀ (s t v w z s2 s3 : State) (core asid lid g pc victim thief va : Nat) (msg ws tm : List Word) (h : Held)
    (rest : List Held) (slots : List Nat) (x : Gang) (ln : Launch) (cs places : List (Nat × Nat)) (rec' : Word) (c : Choice) (buf : List Byte),
  let box := coreAt s core
  let mine := coreAt s (coreOf s.cur)
  let k := ((box.overflow.getLast?).map (fun e => (e.1 + 1) % 1024)).getD 0
  let key := overflowBase s core + 64 * k
  let bytes := ((takePad 0 8 msg).map (fun x => natBytes 8 x.toNat)).flatten
  let sender : State → (Nat → Prop) → Prop := fun u p => ∀ l, p l → (s.cur = l ∧ l < 2 ^ 18 → ctxAt u l = { ctxAt s l with undelivered := (ctxAt s l).undelivered - 1 })
    ∧ (¬ (s.cur = l ∧ l < 2 ^ 18) → ctxAt u l = ctxAt s l)
  let gathered := cs.foldl (fun u e => reserveCrew u x (msgModule s ln.asid (launchMsg ln)) e.1 e.2 (crewOf (List.range x.threads) e.1).length) s
  let a := asidOf (ctxAt s victim)
  let h8 := wordAt ws 1
  let frame := slotBase tm (slots.headD 0) + tmHi tm 6
  let sg := theftSigs a c (wordAt ws 2).toNat frame
  (placeExists s (dieOfCore core) (clusterOfCore core % 64) (core % 8) = true →
    (box.overflow = [] → box.mailbox.length < 16 → Does (.mailboxDelivery core asid msg) s (fun u => u.mem = s.mem ∧ sender u (fun _ => True)
        ∧ (coreAt u core).mailbox = box.mailbox ++ [{ asid := asid, msg := msg }] ∧ (coreAt u core).overflow = []))
    ∧ (box.overflow ≠ [] ∨ 16 ≤ box.mailbox.length → box.overflow.length < 1024 → MemOk s → heldElsewhere s key 64 = false →
        Does (.mailboxDelivery core asid msg) s (fun u => Stored s u key bytes
          ∧ sender u (fun l => sigMeets (ctxAt s l).chunk.r (nameSig s key 64) = false) ∧ (coreAt u core).mailbox = box.mailbox
          ∧ (coreAt u core).overflow = box.overflow ++ [(k, asid)])))
  ∧ (idle s s.cur = true → (dieAt s (dieOf s.cur)).sinceB < 15 → mine.mailbox = h :: rest → (wordAt h.msg 0).toNat / 2 ^ 38 % 4 = 0 →
      takeSlots s h.asid 1 false = .ok (some (va, tm, slots)) v → handlerOf v h.asid h.msg = .ok (some pc) w →
      imagesFit w s.cur (moduleOf w h.asid pc) = true → Does .dispatch s (fun u => Activated (ctxAt u s.cur) h.asid h.msg pc
        ∧ (∀ l, l ≠ s.cur → ctxAt u l = ctxAt w l)
        ∧ (coreAt u (coreOf s.cur)).mailbox = rest ++ overflowMsgs u (overflowBase u (coreOf s.cur)) (mine.overflow.take 1)
        ∧ (coreAt u (coreOf s.cur)).overflow = mine.overflow.drop 1))
  ∧ (gangAt s lid g = some x → launchAt s lid = some ln → x.gather = some cs → s.fox.resume = [] →
      (placeAll gathered x (List.range x.threads) cs = none → exec (.gangGather lid g) s = .next (postIn gathered 16 0 (.gangGather lid g)))
      ∧ (placeAll gathered x (List.range x.threads) cs = some places → startGang gathered x ln g places = .ok v →
          Does (.gangGather lid g) s (fun u => u.mem = v.mem ∧ (∀ p ∈ places, (ctxAt u p.2).run = .ready ∧ (ctxAt u p.2).unit.launch = some (ln.lid, g))
            ∧ (∀ l, (ctxAt u l).run ≠ .reserved x.id) ∧ ∀ y ∈ u.fox.gangs, y.id = x.id → y.gather = none)))
  ∧ ((ctxAt s thief).run = .reserved theftMark →
      let found := s.fox.choices.find? (fun y => y.loc == victim && y.recVa == rec'.toNat)
      (found = none → Does (.theft victim rec' thief) s (fun u => QuietBut thief s u
          ∧ ctxAt u thief = { ctxAt s thief with run := .dormant }))
      ∧ (found = some c → takeSlots s a 1 false = .ok (some (va, tm, slots)) t →
          imagesFit t thief (moduleById t (ctxAt s victim).unit.module) = true → theftRead t a c = .ok (ws, buf) z →
          recStealable h8 = true → 2 ≤ recRemaining h8 → (∀ b ∈ sg.1, refuses z b none sg.2.1 sg.2.2 = false) →
          commitPieces z a sg.2.2 [(c.recVa + 8, 8)] (wordBytes (recWord true true (recNext h8) (recRemaining h8 - 1))) = .ok () s2 →
          commitPieces s2 a sg.2.2 (piecesOf frame buf.length) buf = .ok () s3 → Does (.theft victim rec' thief) s (fun u =>
            (∀ l, l ≠ thief → ctxAt u l = ctxAt s3 l) ∧ (ctxAt u thief).run = .ready
            ∧ qGet (ctxAt u thief).regs 0 = BitVec.ofNat 64 (recNext h8 + recRemaining h8 - 1)
            ∧ (ctxAt u thief).regs.pc = wordAt ws 0 &&& ~~~3 ∧ (ctxAt u thief).ctl.framelen = c.framelen
            ∧ (∀ n : Fin 15, qGet (ctxAt u thief).regs (n.castSucc + 1) = wordAt ws (20 + n.val))
            ∧ ∀ n : Fin 16, (ctxAt u thief).regs.k.get n = wordAt ws (4 + n.val))))

end Sys2Proof.Machine

open Sys2Proof Sys2Proof.Machine

/-- R71, R72: add, sub and mul at 64 bits, and their .w forms on the low 32 bits with the result sign-extended, wrap and set no
flag; mulh and mulhz push the high half of the exact product. Each completes in every state, and changes nothing but the
queue, the keep register it names and the PC. -/
def Obligations.IntegerArithmetic : Prop := ∀ (s : State) (a b : Src) (d : Dest) (w : Bool),
  Gives (.add a b d w) s d (fun r => r.toInt = (sval w (src s a) + sval w (src s b)).bmod (2 ^ wid w))
  ∧ Gives (.sub a b d w) s d (fun r => r.toInt = (sval w (src s a) - sval w (src s b)).bmod (2 ^ wid w))
  ∧ Gives (.mul a b d w) s d (fun r => r.toInt = (sval w (src s a) * sval w (src s b)).bmod (2 ^ wid w))
  ∧ Gives (.mulh a b d) s d (fun r => r.toInt = (src s a).toInt * (src s b).toInt / 2 ^ 64)
  ∧ Gives (.mulhz a b d) s d (fun r => r.toNat = (src s a).toNat * (src s b).toNat / 2 ^ 64)

/-- R73: division truncates toward zero, the remainder takes the sign of the dividend, a divisor of zero gives −1 and the
dividend, the most negative value by −1 gives itself and 0; no division traps or sets a flag. -/
def Obligations.DivisionTruncates : Prop := ∀ (s : State) (a b : Src) (d : Dest) (w : Bool),
  Gives (.div a b d w) s d (fun r => r.toInt = if sval w (src s b) = 0 then -1
      else ((sval w (src s a)).tdiv (sval w (src s b))).bmod (2 ^ wid w))
  ∧ Gives (.rem a b d w) s d (fun r => r.toInt = if sval w (src s b) = 0 then sval w (src s a)
      else (sval w (src s a)).tmod (sval w (src s b)))
  ∧ Gives (.divz a b d w) s d (fun r => r.toInt = if uval w (src s b) = 0 then -1
      else ((uval w (src s a) / uval w (src s b) : Nat) : Int).bmod (2 ^ wid w))
  ∧ Gives (.remz a b d w) s d (fun r => r.toInt = ((if uval w (src s b) = 0 then uval w (src s a)
      else uval w (src s a) % uval w (src s b) : Nat) : Int).bmod (2 ^ wid w))

/-- R74: counts are taken modulo the width; shl and shr fill with zeros, sra with copies of the sign, rol and ror rotate. -/
def Obligations.ShiftAndRotate : Prop := ∀ (s : State) (a b : Src) (d : Dest) (w : Bool),
  let c := (src s b).toNat % wid w
  let x := uval w (src s a)
  Gives (.shl a b d w) s d (fun r => r.toInt = ((x * 2 ^ c : Nat) : Int).bmod (2 ^ wid w))
  ∧ Gives (.shr a b d w) s d (fun r => r.toInt = ((x / 2 ^ c : Nat) : Int).bmod (2 ^ wid w))
  ∧ Gives (.sra a b d w) s d (fun r => r.toInt = sval w (src s a) / 2 ^ c)
  ∧ Gives (.rol a b d w) s d (fun r => r.toInt = ((x * 2 ^ c + x / 2 ^ (wid w - c) : Nat) : Int).bmod (2 ^ wid w))
  ∧ Gives (.ror a b d w) s d (fun r => r.toInt = ((x / 2 ^ c + x * 2 ^ (wid w - c) : Nat) : Int).bmod (2 ^ wid w))

/-- Bitwise forms, minimum and maximum, comparisons, and bit functions. -/
def Obligations.LogicAndBitFunctions : Prop := LogicMinMaxCompare ∧ BitFunctions

/-- Three-source forms, immediate forms, and nop. -/
def Obligations.ThreeSourceAndImmediateForms : Prop := ThreeSourceForms ∧ ImmediateForms

/-- space and the cast forms. -/
def Obligations.PointerClassAndCasts : Prop := PointerClass ∧ CastForms

/-- Branches, jumps, calls, and jtab. Where the spec leaves a point open it holds the choices of the model that log entry 75 names. -/
def Obligations.ControlTransfer : Prop := JumpsAndBranches ∧ RegisterJumps ∧ JumpTable

/-- Floating-point arithmetic rounds the exact result once. -/
def Obligations.FpArithmetic : Prop := FpArithmeticRoundsOnce ∧ FpExactResults

/-- Rounding to a format and to an integer. -/
def Obligations.RoundingToFormats : Prop := RoundingModes ∧ FpRoundToIntegral

/-- R85, R86, R87, R88: comparisons push 1 or 0, an unordered one 0; feq sets NV for a signalling NaN, flt and fle for any; fmin and
fmax take −0 as smaller than +0, and the other operand of one NaN; fclass sets the one bit of the table and no flag; fsgn
replaces the sign bit and sets no flag. -/
def Obligations.FpCompareAndClass : Prop := ∀ (s : State) (a b : Src) (d : Dest) (p : Prec),
  let f := pFmt p
  let x := fsrc s p a
  let y := fsrc s p b
  let u := unpack (fpmode s) f x
  let v := unpack (fpmode s) f y
  let nan := vNan u = true ∨ vNan v = true
  let quiet : BitVec 5 := if vSnan u = true ∨ vSnan v = true then 1 else 0
  let any : BitVec 5 := if vNan u = true ∨ vNan v = true then 1 else 0
  let e := x / 2 ^ f.tb % 2 ^ f.eb
  let t := x % 2 ^ f.tb
  let neg := x / f.signBit = 1
  (∃ r : Word, GivesFp (.feq a b d p) s d r quiet ∧ r.toNat ≤ 1 ∧ (r.toNat = 1 ↔ ¬ nan ∧ ¬ valLt u v ∧ ¬ valLt v u))
  ∧ (∃ r : Word, GivesFp (.flt a b d p) s d r any ∧ r.toNat ≤ 1 ∧ (r.toNat = 1 ↔ valLt u v))
  ∧ (∃ r : Word, GivesFp (.fle a b d p) s d r any ∧ r.toNat ≤ 1 ∧ (r.toNat = 1 ↔ ¬ nan ∧ ¬ valLt v u))
  ∧ (∃ r q : Nat, GivesFp (.fmin a b d p) s d (BitVec.ofNat 64 r) quiet ∧ GivesFp (.fmax a b d p) s d (BitVec.ofNat 64 q) quiet
      ∧ (vNan u = true → vNan v = true → r = f.canon ∧ q = f.canon)
      ∧ (vNan u = true → vNan v = false → r = flushCode (fpmode s) f y ∧ q = flushCode (fpmode s) f y)
      ∧ (vNan u = false → vNan v = true → r = flushCode (fpmode s) f x ∧ q = flushCode (fpmode s) f x)
      ∧ (¬ nan → (valLt u v ∨ (vZero u = true ∧ vZero v = true ∧ vNeg u = true ∧ vNeg v = false)) →
          r = flushCode (fpmode s) f x ∧ q = flushCode (fpmode s) f y)
      ∧ (¬ nan → (valLt v u ∨ (vZero u = true ∧ vZero v = true ∧ vNeg u = false ∧ vNeg v = true)) →
          r = flushCode (fpmode s) f y ∧ q = flushCode (fpmode s) f x))
  ∧ GivesFp (.fclass a d p) s d (BitVec.ofNat 64 (2 ^ (
      if e = 2 ^ f.eb - 1 then (if t = 0 then (if neg then 0 else 7) else if t < 2 ^ (f.tb - 1) then 8 else 9)
      else if e = 0 then (if t = 0 then (if neg then 3 else 4) else if neg then 2 else 5)
      else if neg then 1 else 6))) 0
  ∧ (∃ r : Word, GivesFp (.fsgn a b d p) s d r 0
      ∧ ∀ i < 64, r.getLsbD i = if i < f.width - 1 then (src s a).getLsbD i
          else if i = f.width - 1 then (src s b).getLsbD i else false)

/-- R89, R90, R345, R346: fcvt to an integer type: a NaN gives 0, a value out of range the nearest end, each with NV alone; else the value
rounded under c.fpmode[1:0], with NX when it is inexact; a .w result is sign-extended. To a floating-point type: the value rounded
once to the format, under c.fpmode[1:0], with the core's generator left alone; to .hf and .bf while c.fpmode.sr = 1 it is rounded with
a draw, and the generator advances. That it then advances for a value that needs no rounding too, which R346 exempts among the
elements of a vector, is the model's reading of R89 (log 74). -/
def Obligations.ConvertScalar : Prop := ∀ (s : State) (a : Src) (d : Dest) (t y : STy),
  let v := cvtVal (fpmode s) y (src s a)
  let mode := roundMode (fpmode s)
  let core := coreOf s.cur
  match sFlt t with
  | none =>
    let top : Int := match t with | .w => 2 ^ 31 - 1 | .wz => 2 ^ 32 - 1 | .dz => 2 ^ 64 - 1 | _ => 2 ^ 63 - 1
    let bot : Int := match t with | .w => - 2 ^ 31 | .wz => 0 | .dz => 0 | _ => - 2 ^ 63
    let res : Int → Word := fun k => BitVec.ofInt 64 k
    (match v with
      | .nan _ => GivesFp (.fcvt a d t y) s d 0 1
      | .inf n => GivesFp (.fcvt a d t y) s d (res (if n then bot else top)) 1
      | .fin n m e =>
        let k : Int := (if n then -1 else 1) * (roundTo mode 0 n m e 0 : Int)
        if k < bot then GivesFp (.fcvt a d t y) s d (res bot) 1
        else if top < k then GivesFp (.fcvt a d t y) s d (res top) 1
        else GivesFp (.fcvt a d t y) s d (res k) (if valQ v = k then 0 else 16))
  | some e =>
    let f := match e with | .hf => fmtHf | .bf => fmtBf | .sf => fmtSf | _ => fmtDf
    let rng := xorshift (coreAt s core).rng
    let stochastic := srOn (fpmode s) = true ∧ (e = .hf ∨ e = .bf)
    let plain := ieeeCode f (flushes (fpmode s) f) mode 0 v
    let drawn := ieeeCode f (flushes (fpmode s) f) srMode (rng.toNat / 2 ^ 48) v
    (¬ stochastic → GivesFp (.fcvt a d t y) s d (BitVec.ofNat 64 plain.bits) plain.flags)
    ∧ (stochastic → ∃ u, exec (.fcvt a d t y) s = .next u
        ∧ Pushed (me s).regs (me u).regs d (BitVec.ofNat 64 drawn.bits) ∧ (me u).regs.pc = (me s).regs.pc + 4
        ∧ (me u).ctl = { (me s).ctl with fpflags := (me s).ctl.fpflags ||| drawn.flags.setWidth 64 }
        ∧ (me u).chunk = { (me s).chunk with count := (me s).chunk.count + 1 }
        ∧ (coreAt u core).rng = rng ∧ (∀ k, k ≠ core → coreAt u k = coreAt s k)
        ∧ (∀ k, memGet u.mem k = memGet s.mem k) ∧ (∀ l, l ≠ s.cur → ctxAt u l = ctxAt s l))

/-- Scalar loads and stores. -/
def Obligations.ScalarLoadsAndStores : Prop := ScalarLoads ∧ ScalarStores

/-- R137, R138, R279: the checks of an access, in their order: NONCANON (found at the home); WINDOW for a null or malformed pointer;
SPACE_FOREIGN; WINDOW beyond the window; WINDOW for a window the instruction does not admit; ALIGN; TILE_OWNED; then, on the global
window and on the private window through its alias: a watch register; NONCANON and PAGE_NOTPRESENT for an alias that is no global
address; the fault of the walk, which is asked for when no translation stands; PAGE_PROT for a leaf whose mode and placement R178
forbids, that lacks a right, or that a user may not use; MAP_HOME for a frame of another home; CP_FOREIGN for a region that another
core owns; PAGE_PROT for a page that the instruction does not admit. c.badva is the effective address and c.tval[2:1] the access
kind; a trap found in the core is raised at the instruction (ld and st shown). -/
def Obligations.AccessCheckOrder : Prop := ∀ (s : State) (q : AccReq), q.n ≠ 0 → q.kind < 4 →
  let x := q.ea
  let c := ptrClass s.cur x
  let tv := BitVec.ofNat 64 (2 * q.kind)
  let last := q.n - 1
  let beyond := (c = 1 ∧ (me s).ctl.privlen.toNat ≤ x.toNat % 2 ^ 48 + last)
    ∨ (c = 2 ∧ Config.scratchSize (dieOf s.cur) ≤ x.toNat % 2 ^ 18 + last)
    ∨ (c = 3 ∧ Config.clusterSize (dieOf s.cur) ≤ x.toNat % 2 ^ 21 + last)
    ∨ (c = 4 ∧ (if q.kind = 3 then engineWords s.cur (x.toNat % 2 ^ 48) q.n
        else engineOk s.cur (x.toNat % 2 ^ 48) q.n (q.kind == 1 || q.kind == 2)) = false)
  let admitted := c ∈ q.wins
  let aligned := x.toNat % q.align = 0
  let va := if c = 1 then privAlias (me s).ctl (x.toNat % 2 ^ 48) else x.toNat
  let asid := asidOf (me s)
  let h := homeOf va
  let write := q.kind != 0 && q.need.w
  let passed := Canonical x ∧ (c = 1 ∨ c = 8) ∧ ¬ beyond ∧ admitted ∧ aligned
  let unwatched := passed ∧ watchHit s asid va q.n (watchKinds q.kind) = none
  let atHome := unwatched ∧ va < 2 ^ 56 ∧ isGlobal va = true ∧ (homeAt s h).paused = false
  (¬ Canonical x → access s q = .home cNoncanon x tv s)
  ∧ (Canonical x → (c = 0 ∨ c = 15) → access s q = .core cWindow x tv)
  ∧ (Canonical x → 16 ≤ c → access s q = .core cForeign x tv)
  ∧ (Canonical x → c ∉ [0, 15] → c < 16 → (beyond ∨ ¬ admitted) → access s q = .core cWindow x tv)
  ∧ (Canonical x → c ∉ [0, 15] → c < 16 → ¬ beyond → admitted → ¬ aligned → access s q = .core cAlign x tv)
  ∧ (c = 2 → ¬ beyond → admitted → aligned → isTileE s (coreOf s.cur) (x.toNat % 2 ^ 18 / 4096) = true →
      access s q = .core cTileOwned x tv)
  ∧ (passed → ∀ i, watchHit s asid va q.n (watchKinds q.kind) = some i → access s q = .core cWatch x (BitVec.ofNat 64 (16 * i) ||| tv))
  ∧ (unwatched → 2 ^ 56 ≤ va → access s q = .home cNoncanon x tv s)
  ∧ (unwatched → va < 2 ^ 56 → isGlobal va = false → access s q = .home cNotPresent x tv s)
  ∧ (atHome → tlbFind s asid va = none →
      (∀ cause, (me s).walkFault = some (asid, pageOf va, cause) → access s q = .home cause x tv s)
      ∧ ((me s).walkFault = none →
          access s q = .wait (.walk h asid (pageOf va)) (postOnce s 0 (.pageWalk h asid (pageOf va) write))))
  ∧ (∀ lf, atHome → tlbFind s asid va = some lf → (write = true → pteDirty lf.pte = true) →
      let e := lf.pte
      let a := leafAddr lf va
      let barred := comboBad e a = true ∨ (q.need.r = true ∧ pteR e = false) ∨ (q.need.w = true ∧ pteW e = false)
        ∨ (q.need.x = true ∧ pteX e = false) ∨ (isUser (me s) = true ∧ q.sup = false ∧ pteUser e = false)
      let away := e.toNat / 2 ^ 41 % 2 ^ 10 ≠ 0 ∨ e.toNat / 2 ^ 37 % 2 ^ 4 ≠ h ∨ beyondHome s a = true
      let served := homeHolds s h a asid va = false ∧ queuedBefore s h (a / 512) s.cur = false
      let foreign := pteMode e = 2 ∧ ∃ k, cpOwnerOf s h a = some k ∧ k ≠ coreOf s.cur
      let space : Space := if pteMode e = 1 then .sw else if pteMode e = 2 then .cp else if ptePlace e = 1 then .pinned else .hc
      (barred → access s q = .home cProt x tv s)
      ∧ (¬ barred → pteSystem e = false → away → access s q = .home cMapHome x tv s)
      ∧ (¬ barred → pteSystem e = true → q.closes = false → access s q = .home cProt x tv s)
      ∧ (¬ barred → pteSystem e = false → ¬ away → served → foreign → access s q = .home cCpForeign x tv s)
      ∧ (¬ barred → pteSystem e = false → ¬ away → served → ¬ foreign → (ptePlace e = 3 ∧ q.closes = false ∨ space ∉ q.pages) →
          ∃ v, access s q = .home cProt x tv v))
  ∧ (∀ (b r : Src) (d : Dest) (z : Size) (p : Span) (o : BitVec 11) (cause : Nat) (badva tval : Word),
      (access s (loadReq (eaOf s b o (sizeN z)) (sizeN z)) = .core cause badva tval →
        RaisesTrap (.ld b d z p o) s cause badva tval ∧ RaisesTrap (.lz b d z p o) s cause badva tval)
      ∧ (access s (storeReq (eaOf s b o (sizeN z)) (sizeN z)) = .core cause badva tval →
        RaisesTrap (.st b r z p o) s cause badva tval ∧ RaisesTrap (.stNt b r z o) s cause badva tval))

/-- R145, R147, R165: pref completes in every state, and changes no register but the PC, no signature and no byte. A length of 0
does nothing. flush, clean and inval over a global range whose pages pass their checks take one deferred-effect entry: the bytes
rounded outward to whole words. -/
def Obligations.RangeOperations : Prop := ∀ (s : State) (b l : Src) (p : Span),
  let len := (src s l).toNat
  let lo := (src s b).toNat / 8 * 8
  let hi := ((src s b).toNat + len - 1) / 8 * 8 + 7
  let pages := hi / 65536 - lo / 65536 + 1
  let stands : State → Prop := fun u => Keeps s u ∧ (me u).regs = { (me s).regs with pc := (me s).regs.pc + 4 }
    ∧ (me u).ctl = (me s).ctl ∧ (me u).chunk.r = (me s).chunk.r ∧ (me u).chunk.w = (me s).chunk.w
  let global := ptrClass s.cur (src s b) = 8 ∧ 0 < len ∧ (src s b).toNat + len ≤ 2 ^ 56 ∧ effectsFull (me s) 1 = false
  (∃ u, exec (.pref b l p) s = .next u ∧ stands u ∧ (me u).chunk.stores = (me s).chunk.stores
    ∧ (me u).chunk.effects = (me s).chunk.effects)
  ∧ (len = 0 → GoesTo (.flush b l) s ((me s).regs.pc + 4) ∧ GoesTo (.clean b l) s ((me s).regs.pc + 4)
      ∧ GoesTo (.inval b l) s ((me s).regs.pc + 4))
  ∧ (global → watchHit s (asidOf (me s)) (src s b).toNat len [60, 61] = none →
      (checkPages (checkPage s needR lo hi) lo pages = .ok →
        (∃ u, exec (.flush b l) s = .next u ∧ stands u ∧ (me u).chunk.stores = (me s).chunk.stores
          ∧ (me u).chunk.effects = (me s).chunk.effects ++ [.writeBack lo hi true])
        ∧ (∃ u, exec (.clean b l) s = .next u ∧ stands u ∧ (me u).chunk.stores = (me s).chunk.stores
          ∧ (me u).chunk.effects = (me s).chunk.effects ++ [.writeBack lo hi false]))
      ∧ (checkPages (checkPage s needW lo hi) lo pages = .ok →
        ∃ u, exec (.inval b l) s = .next u ∧ KeepsStored s u ∧ (me u).regs = { (me s).regs with pc := (me s).regs.pc + 4 }
          ∧ (me u).ctl = (me s).ctl ∧ (me u).chunk.r = (me s).chunk.r ∧ (me u).chunk.w = (me s).chunk.w
          ∧ (me u).chunk.effects = (me s).chunk.effects
              ++ [.discard lo hi ((dirtyIn s (coreOf s.cur) (asidOf (me s)) lo hi).map (fun w => (w, true)))]
          ∧ (me u).chunk.stores = ((me s).chunk.stores.map (cutStore (asidOf (me s)) lo hi)).flatten))

/-- R148, R149, R150: amo and cas act inside the chunk as a load followed by a store: the old value is pushed (sign-extended for
.w), and the thread then sees the new value, at the address that `access` gives. cas pushes the old value and then 1 or 0, and
a cas that fails stores nothing and marks only R. Neither is trailed. -/
def Obligations.NearAtomics : Prop := ∀ (s : State) (a b c : Src) (d : Dest) (w : Bool) (op : AmoOp) (t : Target) (v u0 : State),
  let n := if w then 4 else 8
  let q : AccReq := { ea := src s a, n := n, align := n, kind := 2, need := needRW, wins := [1, 2, 3, 8],
                      pages := [.hc, .cp, .pinned], closes := false, sup := false }
  let old := leNat (viewBytes v t n)
  let x := (src s b).toNat % 2 ^ (8 * n)
  let pushedOld : Word → Prop := fun r => if w then r.toInt = (old : Int).bmod (2 ^ 32) else r.toNat = old
  let sees : State → Nat → Prop := fun u y => ∀ k, ownByte (me u).chunk.stores k =
    if t.key ≤ k ∧ k < t.key + n then nth (natBytes n y) (k - t.key) else ownByte (me s).chunk.stores k
  let room : Nat → Prop := fun y => storeOne (storeFills (loadEffects v [(t, n)] .pred) [(t, n)] .pred) t (natBytes n y) = some u0
  access s q = .ok t v → t.closes = false → viewPoisoned v t n = false →
  (room (amoResult op (8 * n) old x) → ∃ u, exec (.amo a b d w op) s = .next u ∧ KeepsStored s u ∧ (me u).ctl = (me s).ctl
      ∧ (∃ r, Pushed (me s).regs (me u).regs d r ∧ pushedOld r) ∧ (me u).regs.pc = (me s).regs.pc + 4
      ∧ sees u (amoResult op (8 * n) old x)
      ∧ (me u).chunk.r = (me s).chunk.r ||| sigRange t.asid t.va n ∧ (me u).chunk.w = (me s).chunk.w ||| sigRange t.asid t.va n)
  ∧ (old = x → room ((src s c).toNat % 2 ^ (8 * n)) → ∃ u, exec (.cas a b c d w) s = .next u ∧ KeepsStored s u
      ∧ (me u).ctl = (me s).ctl
      ∧ (∃ m r, Pushed (me s).regs m .push r ∧ pushedOld r ∧ Pushed m (me u).regs d 1) ∧ (me u).regs.pc = (me s).regs.pc + 4
      ∧ sees u ((src s c).toNat % 2 ^ (8 * n))
      ∧ (me u).chunk.r = (me s).chunk.r ||| sigRange t.asid t.va n ∧ (me u).chunk.w = (me s).chunk.w ||| sigRange t.asid t.va n)
  ∧ (old ≠ x → ∃ u, exec (.cas a b c d w) s = .next u ∧ Keeps s u ∧ (me u).ctl = (me s).ctl
      ∧ (∃ m r, Pushed (me s).regs m .push r ∧ pushedOld r ∧ Pushed m (me u).regs d 0) ∧ (me u).regs.pc = (me s).regs.pc + 4
      ∧ (me u).chunk.stores = (me s).chunk.stores
      ∧ (me u).chunk.r = (me s).chunk.r ||| sigRange t.asid t.va n ∧ (me u).chunk.w = (me s).chunk.w)

/-- R151, R152: amof enters W, takes one deferred-effect entry with the operation, and pushes nothing. amor and amor.cas are
chunk-closing: with a grant, the operation is performed on the committed word, the old value (and for amor.cas the flag) is
pushed, and the chunks that have read the grain are squashed, and no others. On a page pinned in another die, amo, cas and amof are
closing in the same way (R200); a cas that fails writes nothing. A copy B or C of a DUP group writes nothing either (R239). -/
def Obligations.FarAtomics : Prop := ∀ (s : State) (a b c : Src) (d : Dest) (w : Bool) (op : AmoOp) (fop : FarOp) (t : Target)
    (v : State),
  let n := if w then 4 else 8
  let q : AccReq := { ea := src s a, n := n, align := n, kind := 2, need := needRW, wins := [1, 8], pages := [.hc, .pinned],
                      closes := false, sup := false }
  let near : AccReq := { q with wins := [1, 2, 3, 8], pages := [.hc, .cp, .pinned] }
  let x := (src s b).toNat % 2 ^ (8 * n)
  let y := (src s c).toNat % 2 ^ (8 * n)
  let oldWord : Nat → Word → Prop := fun old r => if w then r.toInt = (old : Int).bmod (2 ^ 32) else r.toNat = old
  let one : Nat → Regs → Regs → Prop := fun old r r' => ∃ z, Pushed r r' d z ∧ oldWord old z
  let two : Nat → Regs → Regs → Prop := fun old r r' => ∃ m z, Pushed r m .push z ∧ oldWord old z
    ∧ Pushed m r' d (if old = x then 1 else 0)
  (access s q = .ok t v → t.closes = false → effectsFull (me s) 1 = false →
    ∃ u, exec (.amof a b w fop) s = .next u ∧ Keeps s u ∧ (me u).regs = { (me s).regs with pc := (me s).regs.pc + 4 }
      ∧ (me u).ctl = (me s).ctl ∧ (me u).chunk.stores = (me s).chunk.stores ∧ (me u).chunk.r = (me s).chunk.r
      ∧ (me u).chunk.w = (me s).chunk.w ||| sigRange t.asid t.va n
      ∧ (me u).chunk.writtenHomes = (me s).chunk.writtenHomes ||| homeBit t.home
      ∧ (me u).chunk.effects = (me s).chunk.effects
          ++ [.far { op := fop, w := w, va := t.va, pa := t.key, x := src s b, after := (me s).chunk.stores.length }])
  ∧ ClosesFrom (.amor a b d w op) s s ∧ ClosesFrom (.amorCas a b c d w) s s
  ∧ ClosingRmw (.amor a b d w op) s q t v n (fun old => amoResult op (8 * n) old x) (fun _ => True) one
  ∧ ClosingRmw (.amorCas a b c d w) s q t v n (fun old => if old = x then y else old) (fun _ => True) two
  ∧ (t.closes = true → t.space = .pinned →
      ClosingRmw (.amo a b d w op) s near t v n (fun old => amoResult op (8 * n) old x) (fun _ => True) one
      ∧ ClosingRmw (.cas a b c d w) s near t v n (fun old => if old = x then y else old) (fun old => old = x) two
      ∧ ClosingRmw (.amof a b w fop) s q t v n (fun old => amoResult (farAmo fop) (8 * n) old x) (fun _ => True)
          (fun _ r r' => r' = { r with pc := r.pc + 4 })
      ∧ (access s near = .ok t v → ClosesFrom (.amo a b d w op) s v ∧ ClosesFrom (.cas a b c d w) s v)
      ∧ (access s q = .ok t v → ClosesFrom (.amof a b w fop) s v))

/-- R153, R154, R155: ldacq.sys acts as a closing ld; strel.sys as a closing st once every earlier system-scope access of the
thread is complete, and waits for them; fence.sys waits for all of them and takes a place in package order, fence.io for those to
I/O pages. Each first ends the chunk before it, and in a task that is not yet the oldest waits (R238). cend ends the chunk after
itself, whatever it holds, for the next to begin once it has committed. -/
def Obligations.SystemScopeAndFences : Prop := ∀ (s v : State) (b r : Src) (d : Dest) (z : Size) (o : BitVec 11) (t : Target),
  let n := sizeN z
  let ea : Word := BitVec.ofInt 64 ((src s b).toInt + o.toInt * n)
  let bs := natBytes n ((src s r).toNat % 2 ^ (8 * n))
  let next := (me s).regs.pc + 4
  let g := targetSig t n
  let waits : Instr → Prop := fun i => ∃ u, exec i s = .next u ∧ (me u).run = .stalled (.sys 0) ∧ (me u).regs = (me s).regs
    ∧ (me u).ctl = (me s).ctl ∧ (me u).chunk = (me s).chunk ∧ Keeps s u
  let done : State → Prop := fun u => Closed (me s) (me u) next ∧ (me u).regs = { (me s).regs with pc := next }
  (∃ u, exec .cend s = .next u ∧ Keeps s u ∧ (me u).regs = { (me s).regs with pc := next } ∧ (me u).ctl = (me s).ctl
      ∧ (me u).run = .committing .resume ∧ (me u).chunk = { (me s).chunk with count := (me s).chunk.count + 1 }
      ∧ u.agenda = s.agenda ++ [(0, s.cur, .chunkEnd)])
  ∧ (∀ i ∈ [Instr.ldacqSys b d z o, .strelSys b r z o, .fenceSys, .fenceIo], ClosesFrom i s s)
  ∧ (MemOk s → Fresh (me s) → youngTask s s.cur = false →
    (access s (loadReq ea n) = .ok t v → t.sys = false → viewPoisoned v t n = false →
        ∃ u x, exec (.ldacqSys b d z o) s = .next u ∧ Keeps s u ∧ Closed (me s) (me u) next
          ∧ Pushed (me s).regs (me u).regs d x ∧ x.toInt = (leNat (viewBytes v t n) : Int).bmod (2 ^ (8 * n)))
    ∧ (access s (loadReq ea n) = .ok t v → t.sys = true →
        (sysOpsOf s s.cur false = [] → waits (.ldacqSys b d z o))
        ∧ (∀ id op a, sysOpsOf s s.cur false = [(id, op)] → op.answer = some a → op.n = n →
          ∃ u x, exec (.ldacqSys b d z o) s = .next u ∧ Keeps s u ∧ Closed (me s) (me u) next
          ∧ Pushed (me s).regs (me u).regs d x ∧ x.toInt = (a.toNat : Int).bmod (2 ^ (8 * n))))
    ∧ ((me s).sysOut ≠ [] → waits (.strelSys b r z o) ∧ waits .fenceSys)
    ∧ ((me s).sysOut = [] → access s (storeReq ea n) = .ok t v →
        (t.sys = false → t.space ≠ .engine → mayCommit v t 0 g = true → (me s).unit.dup < 2 →
          ∃ u, exec (.strelSys b r z o) s = .next u ∧ done u
          ∧ (t.closes = true ∨ (t.space ≠ .sw ∧ t.space ≠ .cp) → memBytes u.mem t.key n = bs
              ∧ (heldElsewhere v t.key n = false → servedBy v t = none →
                  Stored s u t.key bs ∧ SquashesOnly s u g ∧ SquashesReaders s u g))
          ∧ (t.closes = false → (t.space = .sw ∨ t.space = .cp) → ∀ k, memGet u.mem k = memGet s.mem k))
        ∧ (t.sys = true → sysBusy s t.key = false → ∃ u, exec (.strelSys b r z o) s = .next u ∧ Keeps s u ∧ done u
          ∧ u.io.out = s.io.out ++ if (me s).unit.dup < 2 then [.write t.key bs] else [])
        ∧ (t.sys = false → t.space = .engine → mayCommit v t 0 g = true → (me s).unit.dup = 0 →
          ∃ u, exec (.strelSys b r z o) s = .next u ∧ done u
          ∧ u.mem = (engineStore { v with order := v.order + 1 } v.cur (t.va % 2 ^ 48) bs).mem)
        ∧ (t.sys = false → mayCommit v t 0 g = true → 2 ≤ (me s).unit.dup →
          ∃ u, exec (.strelSys b r z o) s = .next u ∧ done u ∧ Keeps s u))
    ∧ ((me s).sysOut = [] → ∃ u, exec .fenceSys s = .next u ∧ Keeps s u ∧ done u ∧ u.order = s.order + 1
        ∧ (me u).fenceSeq = s.order + 1)
    ∧ (s.sysOps.any (fun p => p.2.loc == s.cur && p.2.io) = false → ∃ u, exec .fenceIo s = .next u ∧ Keeps s u ∧ done u)
    ∧ (s.sysOps.any (fun p => p.2.loc == s.cur && p.2.io) = true → waits .fenceIo))

/-- R156, R157, R158: waita goes on when the word differs or once woken, and else parks with its watch, holding no chunk, its PC
at itself; give flips a tile that is T to E; take goes on at a tile that is T and waits at one that is E. A pointer of another
class raises WINDOW, a foreign one SPACE_FOREIGN, one beyond the scratchpad WINDOW, an unaligned one ALIGN, and a give of a
tile that is E raises TILE_OWNED; that c.tval is 0 there, and that WINDOW is raised for a pointer that is not canonical too, is the
model's choice (log 38). Each first ends the chunk before it (R96). -/
def Obligations.WaitsAndTiles : Prop := ∀ (s v : State) (a b : Src) (t : Target),
  let x := src s a
  let c := ptrClass s.cur x
  let next := (me s).regs.pc + 4
  let q : AccReq := { loadReq x 8 with wins := [1, 8], pages := [.hc, .pinned], closes := false }
  let off := x.toNat % 2 ^ 18
  let tile := off / 4096
  let here := c = 2 ∧ off < Config.scratchSize (dieOf s.cur)
  let owned := isTileE s (coreOf s.cur) tile
  let goesOn : Instr → Prop := fun i => ∃ u, exec i s = .next u ∧ Keeps s u ∧ Closed (me s) (me u) next
    ∧ (me u).regs = { (me s).regs with pc := next }
  (∀ i, i = .waita a b ∨ i = .give a ∨ i = .take a → ClosesFrom i s s)
  ∧ (Fresh (me s) → youngTask s s.cur = false →
  ((me s).woken = true → goesOn (.waita a b))
  ∧ ((me s).woken = false → access s q = .ok t v → viewPoisoned v t 8 = false → Granted v t (sigRange t.asid t.va 8) 0 →
      replayOn (me s) = false →
      (leNat (viewBytes v t 8) ≠ (src s b).toNat → goesOn (.waita a b))
      ∧ (leNat (viewBytes v t 8) = (src s b).toNat → ∃ u, exec (.waita a b) s = .next u ∧ WaitsHere s u 1
          ∧ (me u).watch = some (t.key / 32)))
  ∧ (here → off % 4096 = 0 → owned = false → ∃ u, exec (.give a) s = .next u ∧ Keeps s u ∧ Closed (me s) (me u) next
      ∧ (me u).regs = { (me s).regs with pc := next } ∧ isTileE u (coreOf s.cur) tile = true
      ∧ (∀ k, k ≠ tile → isTileE u (coreOf s.cur) k = isTileE s (coreOf s.cur) k))
  ∧ (here → off % 4096 = 0 → owned = true → RaisesTrap (.give a) s cTileOwned x 0
      ∧ ∃ u, exec (.take a) s = .next u ∧ WaitsHere s u 2)
  ∧ (here → off % 4096 = 0 → owned = false → goesOn (.take a))
  ∧ (∀ i, i = .give a ∨ i = .take a → (c = 0x12 ∨ c = 0x13 → RaisesTrap i s cForeign x 0)
      ∧ (c < 16 → ¬ here → RaisesTrap i s cWindow x 0) ∧ (here → off % 4096 ≠ 0 → RaisesTrap i s cAlign x 0)))

/-- R159, R160, R161: fwait and froom push the slot pointer when enough slots are filled or empty, as the thread sees the FIFO, and
else wait at the chunk boundary; fadv and fpub take a deferred-effect entry. FIFO carries the lowest reason that applies. -/
def Obligations.OperandFifos : Prop := ∀ (s : State) (a b : Src) (d : Dest),
  let h := (src s a).toNat
  let n := (src s b).toNat
  let f := myFifo s h
  let filled := (f.wpos - f.rpos).toNat
  let valid := h ≤ 31 ∧ f.valid = true
  let counted := 0 < n ∧ n ≤ f.count
  let slot : Word → Word := fun pos => 0x0030FFF000000000 ||| BitVec.ofNat 64 (f.base + pos.toNat % f.count * f.size)
  let fifo : Instr → Nat → Prop := fun i reason => RaisesTrap i s cFifo 0 (BitVec.ofNat 64 (reason * 256 + h % 256))
  let waits : Instr → Prop := fun i => (chunkEmpty (me s) = true → ∃ u, exec i s = .next u ∧ WaitsHere s u 3)
    ∧ (chunkEmpty (me s) = false → exec i s = .next (endChunkOf s s.cur .resume))
  (valid → counted → f.consThreads = true →
      (n ≤ filled → Gives (.fwait a b d) s d (fun r => r = slot f.rpos) ∧ TakesEffect (.fadv a b) s (.fadv h n))
      ∧ (filled < n → waits (.fwait a b d) ∧ fifo (.fadv a b) 2))
  ∧ (valid → counted → f.prodThreads = true →
      (n ≤ f.count - filled → Gives (.froom a b d) s d (fun r => r = slot f.wpos) ∧ TakesEffect (.fpub a b) s (.fpub h n))
      ∧ (f.count - filled < n → waits (.froom a b d) ∧ fifo (.fpub a b) 2))
  ∧ (∀ i ∈ [Instr.fwait a b d, .froom a b d, .fadv a b, .fpub a b],
      ((31 < h ∨ (myFifo s (h % 32)).valid = false) → fifo i 0) ∧ (valid → ¬ counted → fifo i 1))
  ∧ (valid → counted → f.consThreads = false → fifo (.fwait a b d) 3 ∧ (n ≤ filled → fifo (.fadv a b) 3))
  ∧ (valid → counted → f.prodThreads = false → fifo (.froom a b d) 3 ∧ (n ≤ f.count - filled → fifo (.fpub a b) 3))

/-- R162, R163, R164: tbinit stores the two words of a barrier in the chunk; tbarr and tbexp take a deferred-effect entry; tbwait
goes on when its phase has passed, and else waits at the chunk boundary. A count out of range raises FIFO with reason 4; that the
pointer and the tile are checked before the count, and the kind that c.tval carries, are the model's choice (log 76). -/
def Obligations.TransactionBarriers : Prop := ∀ (s : State) (a b : Src),
  let x := src s a
  let n := (src s b).toNat
  let c := ptrClass s.cur x
  let off := if c = 2 then x.toNat % 2 ^ 18 else x.toNat % 2 ^ 21
  let size := if c = 2 then Config.scratchSize (dieOf s.cur) else Config.clusterSize (dieOf s.cur)
  let key := if c = 2 then keyScratch (coreOf s.cur) off else keyCluster (clusterOf s.cur) off
  let tiled := c = 2 ∧ isTileE s (coreOf s.cur) (off / 4096) = true
  let phase := leNat (viewBytes s (barTarget s key) 8) % 16
  let fifo4 : Instr → Prop := fun i => RaisesTrap i s cFifo 0 (BitVec.ofNat 64 (4 * 256 + 0xFF))
  (c = 2 ∨ c = 3) → off + 16 ≤ size → off % 16 = 0 →
  (¬ tiled → 1 ≤ n → n ≤ 16777215 → ∃ u, exec (.tbinit a b) s = .next u ∧ Keeps s u
      ∧ (me u).regs = { (me s).regs with pc := (me s).regs.pc + 4 } ∧ (me u).ctl = (me s).ctl
      ∧ (∀ k, ownByte (me u).chunk.stores k = if key ≤ k ∧ k < key + 16 then nth (natBytes 16 (n * 2 ^ 8 + n * 2 ^ 64)) (k - key)
          else ownByte (me s).chunk.stores k))
  ∧ (¬ tiled → (n = 0 ∨ 16777215 < n) → fifo4 (.tbinit a b))
  ∧ (tiled → RaisesTrap (.tbinit a b) s cTileOwned x 2)
  ∧ TakesEffect (.tbarr a) s (.tbarr key x)
  ∧ (n ≤ 0x7FFFFFFF → TakesEffect (.tbexp a b) s (.tbexp key x n)) ∧ (0x7FFFFFFF < n → fifo4 (.tbexp a b))
  ∧ (15 < n → fifo4 (.tbwait a b))
  ∧ (n ≤ 15 → (phase + 16 - n) % 16 < 8 → GoesTo (.tbwait a b) s ((me s).regs.pc + 4))
  ∧ (n ≤ 15 → ¬ (phase + 16 - n) % 16 < 8 →
      (chunkEmpty (me s) = true → ∃ u, exec (.tbwait a b) s = .next u ∧ WaitsHere s u 4)
      ∧ (chunkEmpty (me s) = false → exec (.tbwait a b) s = .next (endChunkOf s s.cur .resume)))

/-- send, spawn, and the forms that name a queue. -/
def Obligations.MessagesAndQueues : Prop := SendAndSpawn ∧ QueueForms

/-- deq, join blocks, retirement and launch. -/
def Obligations.TakeJoinRetireLaunch : Prop := TakeFromQueue ∧ JoinRetireLaunch

/-- R257, R258, R260, R262: yield ends the chunk after itself, or in a task that is not the oldest of its ordered domain only pauses;
rread is a closing read of another scratchpad (R96); bar and barb raise ILLEGAL outside a gang, go on once their release has been
given, and else wait, having arrived; qmap is privileged, and takes one deferred-effect entry when the queue table entry can be
written and the descriptor is one of this ASID. -/
def Obligations.YieldReadBarQmap : Prop := ∀ (s v : State) (a b : Src) (d : Dest) (z : Size),
  let p := src s a
  let n := sizeN z
  let c := ptrClass s.cur p
  let core := if p.toNat / 2 ^ 36 % 2 ^ 12 = 0xFFF then s.cur / 8 else p.toNat / 2 ^ 33 % 2 ^ 15
  let off := p.toNat % 2 ^ 18
  let exists_ := placeExists s (core / 512) (core / 8 % 64) (core % 8) = true ∧ off + n ≤ Config.scratchSize (core / 512)
  let key := 0x0020000000000000 + core * 2 ^ 33 + off
  let arb := 80 + 48 * (core / 512) + core / 8 % 64
  let next := (me s).regs.pc + 4
  let word := BitVec.ofNat 64 (me s).word.toNat
  let h := p.toNat
  let entry := tableVa s (asidOf (me s)) 8 h
  (youngTask s s.cur = false → ∃ u, exec .yieldC s = .next u ∧ Keeps s u ∧ (me u).regs = { (me s).regs with pc := next }
      ∧ (me u).run = .committing .yield ∧ u.agenda = s.agenda ++ [(0, s.cur, .chunkEnd)])
  ∧ (youngTask s s.cur = true → ∃ u, exec .yieldC s = .next u ∧ Keeps s u ∧ (me u).regs = { (me s).regs with pc := next }
      ∧ ∃ peers, (me u).run = .yielded (s.now + 256) peers)
  ∧ ClosesFrom (.rread a d z) s s
  ∧ (Fresh (me s) → youngTask s s.cur = false → (¬ Canonical p → RaisesTrap (.rread a d z) s cNoncanon p 0)
      ∧ (Canonical p → ¬ ((c = 2 ∨ c = 0x12) ∧ exists_) → RaisesTrap (.rread a d z) s cWindow p 0)
      ∧ ((c = 2 ∨ c = 0x12) → exists_ → off % n ≠ 0 → RaisesTrap (.rread a d z) s cAlign p 0)
      ∧ ((c = 2 ∨ c = 0x12) → exists_ → off % n = 0 → isTileE s core (off / 4096) = true → RaisesTrap (.rread a d z) s cTileOwned p 0)
      ∧ ((c = 2 ∨ c = 0x12) → exists_ → off % n = 0 → isTileE s core (off / 4096) = false → replayOn (me s) = false →
          refuses s arb (some s.cur) (sigRange (asidOf (me s)) key n) 0 = false →
          ∃ u x, exec (.rread a d z) s = .next u ∧ Keeps s u ∧ Closed (me s) (me u) next ∧ Pushed (me s).regs (me u).regs d x
            ∧ x.toInt = (leNat (memBytes s.mem (keyScratch core off) n) : Int).bmod (2 ^ (8 * n))))
  ∧ (∀ band : Bool, let i : Instr := if band then .barb else .bar
      let inGang := if band then (me s).unit.gangKind = 2 else (me s).unit.gangKind ≠ 0
      let given := if band then (me s).unit.barbOpen else (me s).unit.barOpen
      (¬ inGang → RaisesTrap i s cIllegal (me s).regs.pc word)
      ∧ (inGang → chunkEmpty (me s) = false → exec i s = .next (endChunkOf s s.cur .resume))
      ∧ (inGang → chunkEmpty (me s) = true → given = true → ∃ u, exec i s = .next u ∧ Keeps s u
          ∧ (me u).regs = { (me s).regs with pc := next } ∧ (me u).ctl = (me s).ctl
          ∧ (if band then (me u).unit.barbs else (me u).unit.bars) = (me s).chunk.num + 1)
      ∧ (inGang → chunkEmpty (me s) = true → given = false → ∃ u, exec i s = .next u ∧ WaitsHere s u (if band then 7 else 6)
          ∧ (if band then (me u).unit.atBarb else (me u).unit.atBar) = true
          ∧ (0, 0, .barrierRelease (me s).unit.gang band) ∈ u.agenda))
  ∧ (isUser (me s) = true → RaisesTrap (.qmap a b) s cPriv (me s).regs.pc word)
  ∧ (isUser (me s) = false → (4095 < h ∨ bit (asidWord s (asidOf (me s)) 0) 63 = false) →
      RaisesAtHome (.qmap a b) s s cQueueInvalid 0 (BitVec.ofNat 64 (4096 + h % 4096)))
  ∧ (isUser (me s) = false → h ≤ 4095 → bit (asidWord s (asidOf (me s)) 0) 63 = true →
      ∀ pa, hwAddr s (asidOf (me s)) entry true false = .ok pa v →
      (src s b = 0 ∨ ∃ va ws, readDesc v (asidOf (me s)) (src s b).toNat = .ok va ws) →
      effectsFull (me s) 1 = false → (me v) = me s → v.cur = s.cur →
      ∃ u, exec (.qmap a b) s = .next u ∧ (me u).regs = { (me s).regs with pc := next }
        ∧ (me u).chunk.effects = (me s).chunk.effects ++ [.qmap h (src s b)])

/-- mark, cut, trail, and trailed stores. -/
def Obligations.MarkCutAndTrailedStores : Prop := MarkCutTrail ∧ TrailedStore

/-- R320: try and try.s write a choice record of 36 words at c.choice, advance c.choice by 288, push 0 and go to the label; a count of
0 acts as fail, but that k and q stand at a pop after which the fail goes on (the model's reading, log 68); a record that would end past c.choicelim raises CHOICE_FULL. try.s makes the record stealable, but for a task of
an ordered domain. R321: fail with an empty stack goes to c.failvec, or retires with status 0xFFFF_FFFE when it is 0; a fail
that finds spoor entries restores the newest, and goes on at the same instruction; else it reloads k and q, and resumes the
record with the next index, or pops it. -/
def Obligations.ChoicePoints : Prop := ∀ (s v1 v2 v3 v4 v5 w : State) (a : Src) (o : BitVec 15) (stealable : Bool)
    (items : List (Target × List Byte)) (tok p e0 e1 h pc : Word) (kq : List Word),
  let c := (me s).ctl
  let i : Instr := if stealable then .tryS a o else .tryC a o
  let n := min (src s a).toNat (2 ^ 24)
  let top := c.choice
  let rec' := c.choice - 288
  let e := c.spoor - 16
  let w08 := (if stealable = true ∧ (me s).unit.ordered = none then 2 ^ 63 else 0) + 2 ^ 24 + (n - 1)
  let words : List (Word × Word) :=
    [(top, target s o), (top + 0x08, BitVec.ofNat 64 w08), (top + 0x10, c.spoor), (top + 0x18, BitVec.ofNat 64 ((tok.toNat + 1) % 256))]
      ++ ((List.finRange 16).map (fun j => [(top + BitVec.ofNat 64 (0x20 + 8 * j.val), (me s).regs.k.get j),
          (top + BitVec.ofNat 64 (0xA0 + 8 * j.val), qGet (me s).regs j)])).flatten
  let recAddrs := ((List.range 16).map (fun j => [rec' + BitVec.ofNat 64 (0x20 + 8 * j), rec' + BitVec.ofNat 64 (0xA0 + 8 * j)])).flatten
  let loaded : Regs → Prop := fun r => ∀ j : Fin 16, r.k.get j = wordAt kq (2 * j.val) ∧ qGet r j = wordAt kq (2 * j.val + 1)
  let sameAsFail := n = 0 → exec i s = exec .failC s
  (c.choice = c.choicebase → sameAsFail)
  ∧ (0 < n → c.choicelim.toNat < top.toNat + 288 → RaisesTrap i s cChoiceFull top 0)
  ∧ (0 < n → top.toNat + 288 ≤ c.choicelim.toNat → ReadsWords s [top + 0x18] [tok] v1 → WritesWords v1 words items v2 →
      ∃ u, exec i s = .next u ∧ KeepsStored s u ∧ (∃ r, Pushed (me s).regs r .push 0 ∧ (me u).regs = { r with pc := target s o })
        ∧ (me u).ctl = { c with choice := top + 288 } ∧ (me u).chunk.stores = storesAfter items (me s).chunk.stores)
  ∧ (c.choice = c.choicebase → c.failvec ≠ 0 → GoesTo .failC s (c.failvec &&& ~~~3))
  ∧ (c.choice = c.choicebase → c.failvec = 0 → Retires .failC s (.status 0xFFFFFFFE))
  ∧ (c.choice ≠ c.choicebase → ReadsWords s [rec' + 0x10] [p] v1 →
      (p.toNat < c.spoor.toNat → ReadsWords v1 [e, e + 8] [e0, e1] v2 → WritesWords v2 [(e0 &&& ~~~7, e1)] items v3 →
        sameAsFail ∧ ∃ u, exec .failC s = .next u ∧ KeepsStored s u ∧ (me u).regs = (me s).regs ∧ (me u).ctl = { c with spoor := e }
          ∧ (me u).chunk.stores = storesAfter items (me s).chunk.stores)
      ∧ (c.spoor.toNat ≤ p.toNat → ReadsWords v1 recAddrs kq v2 → ReadsWords v2 [rec' + 0x08] [h] v3 →
          let remaining := h.toNat % 2 ^ 24
          let index := h.toNat / 2 ^ 24 % 2 ^ 24
          let h' := h.toNat / 2 ^ 62 * 2 ^ 62 + (index + 1) % 2 ^ 24 * 2 ^ 24 + (remaining - 1)
          (0 < remaining → ReachesWords v3 [(rec' + 0x08, BitVec.ofNat 64 h')] items w → ReadsWords w [rec'] [pc] v4 →
            Room v4 .pred items v5 →
            sameAsFail ∧ ∃ u r, exec .failC s = .next u ∧ KeepsStored s u ∧ loaded r
              ∧ (∃ r', Pushed r r' .push (BitVec.ofNat 64 index) ∧ (me u).regs = { r' with pc := pc &&& ~~~3 })
              ∧ (me u).ctl = c ∧ (me u).chunk.stores = storesAfter items (me s).chunk.stores)
          ∧ (remaining = 0 → rec' ≠ c.choicebase →
              (∃ u, exec .failC s = .next u ∧ Keeps s u ∧ loaded (me u).regs
                ∧ (me u).regs.pc = (me s).regs.pc ∧ (me u).ctl = { c with choice := rec' })
              ∧ (n = 0 → ∃ u, exec i s = .next u ∧ Keeps s u ∧ (me u).regs = (me s).regs ∧ (me u).ctl = { c with choice := rec' }))
          ∧ (remaining = 0 → rec' = c.choicebase → sameAsFail
              ∧ (c.failvec ≠ 0 → ∃ u, exec .failC s = .next u ∧ Keeps s u ∧ loaded (me u).regs
                ∧ (me u).regs.pc = c.failvec &&& ~~~3 ∧ (me u).ctl = { c with choice := rec' })
              ∧ (c.failvec = 0 → effectsFull (me s) 1 = false → ∃ u, exec .failC s = .next u ∧ Keeps s u
                ∧ (me u).run = .committing (.retire (.status 0xFFFFFFFE)) ∧ (me u).ctl = { c with choice := rec' }))))

/-- R354, R355, R356, R357: the active elements of a vector access are checked and performed in ascending order, at base + n·i,
base + stride·i, or base + the signed offset element; a load writes the active elements and marks their grains in R, a store stores
them and marks W, and no inactive element is touched. The first element that fails raises its trap, with its own address. vld and vst
need a base that is a multiple of 64, or raise ALIGN. Trailed, vst appends one spoor entry for each aligned word that holds an active
byte, the other stores one for each active element (R141). (The accesses shown are inside the chunk.) -/
def Obligations.VectorMemory : Prop := ∀ (s v w : State) (d x : Fin 32) (b y : Src) (m : Fin 8) (p : Span) (z : Size)
    (ts : List Target),
  let n := sizeN z
  let r := (me s).regs
  let base := src s b
  let on := (List.range (64 / n)).filter (fun i => active r m i)
  let unit : Nat → Word := fun i => BitVec.ofNat 64 (base.toNat + n * i)
  let stride : Nat → Word := fun i => BitVec.ofNat 64 (base.toNat + (src s y).toNat * i)
  let offs : Nat → Word := fun i => BitVec.ofInt 64 (base.toInt + sLane (8 * n) (lane (r.v.get x) (8 * n) i))
  let code := match z with | .b => 0 | .h => 1 | .w => 2 | .d => 3
  let req : Nat → Nat → Word → AccReq := fun kind al ea =>
    { ea := ea, n := n, align := al, kind := kind, need := if kind = 0 then needR else needW, wins := [1, 2, 3, 8],
      pages := anyPage, closes := true, sup := false }
  let reqs : (Nat → Word) → Nat → Nat → List AccReq := fun ea kind al => on.map (fun i => req kind al (ea i))
  let whole := if base.toNat % 64 = 0 then 1 else 0
  let faults : Instr → (Nat → Word) → Nat → Nat → Prop := fun i ea kind al =>
    ∀ before j after, on = before ++ j :: after → AllReach s (before.map (fun k => req kind al (ea k))) ts v →
      (∀ cause badva tval, access v (req kind al (ea j)) = .core cause badva tval →
        (∀ t, CanTrap v t → Traps i s t cause badva tval)
        ∧ (chunkEmpty (me s) = false → exec i s = .next (endChunkOf v s.cur
            (.trap { cause := cause, epc := (me s).regs.pc, badva := badva, tval := tval }))))
      ∧ (∀ cause badva tval u, access v (req kind al (ea j)) = .home cause badva tval u → RaisesAtHome i s u cause badva tval)
  let loads : Instr → (Nat → Word) → Nat → Prop := fun i ea al =>
    (AllReach s (reqs ea 0 al) ts v → (∀ t ∈ ts, viewPoisoned v t n = false) →
      ∃ u v', exec i s = .next u ∧ Keeps s u ∧ (me u).ctl = (me s).ctl
        ∧ (me u).regs = { r with v := r.v.set d.val v', pc := r.pc + 4 }
        ∧ (me u).chunk.stores = (me s).chunk.stores ∧ (me u).chunk.w = (me s).chunk.w
        ∧ (me u).chunk.r = grainsOf (me s).chunk.r (ts.map (fun t => (t, n)))
        ∧ (∀ e ∈ List.zip on ts, lane v' (8 * n) e.1 = leNat (viewBytes v e.2 n))
        ∧ (∀ i < 64 / n, i ∉ on → lane v' (8 * n) i = lane (r.v.get d) (8 * n) i))
    ∧ faults i ea 0 al
  let stores : Instr → (Nat → Word) → Nat → Bool → Prop := fun i ea al words =>
    let items := List.zipWith (fun t k => (t, natBytes n (lane (r.v.get d) (8 * n) k))) ts on
    let pairs := List.zipWith (fun t k => (t, ea k)) ts on
    let first : (Target × Word) × Nat → Bool := fun e => !((pairs.take e.2).any (fun q => q.2.toNat / 8 == e.1.2.toNat / 8))
    let es : List Trail := if words then (pairs.zipIdx.filter first).map (fun e => ⟨e.1.2, e.1.1, 3⟩)
      else pairs.map (fun q => ⟨q.2, q.1, code⟩)
    (AllReach s (reqs ea 1 al) ts v →
      (trailing (me s) = false → Room v p items w →
        ∃ u, exec i s = .next u ∧ KeepsStored s u ∧ (me u).ctl = (me s).ctl ∧ (me u).regs = { r with pc := r.pc + 4 }
          ∧ (me u).chunk.stores = storesAfter items (me s).chunk.stores ∧ (me u).chunk.r = (me s).chunk.r
          ∧ (me u).chunk.w = grainsOf (me s).chunk.w (items.map (fun e => (e.1, n))))
      ∧ (trailing (me s) = true → Trailed i s v p es items))
    ∧ faults i ea 1 al
  loads (.vld d b m p z) unit whole ∧ stores (.vst d b m p z) unit whole true
  ∧ loads (.vlds d b y m p z) stride n ∧ stores (.vsts d b y m p z) stride n false
  ∧ loads (.vgather d b x m p z) offs n ∧ stores (.vscatter d b x m p z) offs n false
  ∧ (∀ j after, on = j :: after → base.toNat % 64 ≠ 0 → Canonical (unit j) → ptrClass s.cur (unit j) = 8 →
      RaisesTrap (.vld d b m p z) s cAlign (unit j) 0 ∧ RaisesTrap (.vst d b m p z) s cAlign (unit j) 2)

/-- R358: the element-wise forms, on integer types wrapping and without flags, on floating-point types as the scalar forms with the
flags of the active elements; bitwise and shift forms on a floating-point type raise ILLEGAL. -/
def Obligations.VectorArithmetic : Prop := ∀ (s : State) (d a b : Fin 32) (m : Fin 8) (t : ATy),
  let r := (me s).regs
  let w := eBits (aE t)
  let n := 512 / w
  let x : Nat → Nat := fun i => lane (r.v.get a) w i
  let y : Nat → Nat := fun i => lane (r.v.get b) w i
  let z : Nat → Nat := fun i => lane (r.v.get d) w i
  let old := r.v.get d
  let writes : Instr → (Nat → Nat) → (Nat → BitVec 5) → Prop := fun i f fl =>
    WritesV i s d (fun v g => Lanes r m w n old v f ∧ LaneFlags r m n g fl)
  let two : Instr → (Nat → Nat) → FOp → Prop := fun i f op => match eFmt (aE t) with
    | none => writes i f (fun _ => 0)
    | some q => writes i (fun k => (fpBin (fpmode s) q op (x k) (y k)).bits) (fun k => (fpBin (fpmode s) q op (x k) (y k)).flags)
  let only : Instr → (Nat → Nat) → Prop := fun i f =>
    if (eFmt (aE t)).isSome then Illegal i s else writes i f (fun _ => 0)
  let c : Nat → Nat := fun k => y k % w
  two (.vadd d a b m t) (fun k => (x k + y k) % 2 ^ w) .add
  ∧ two (.vsub d a b m t) (fun k => toLane w ((x k : Int) - y k)) .sub
  ∧ two (.vmul d a b m t) (fun k => x k * y k % 2 ^ w) .mul
  ∧ two (.vmin d a b m t) (fun k => toLane w (min (sLane w (x k)) (sLane w (y k)))) .min
  ∧ two (.vmax d a b m t) (fun k => toLane w (max (sLane w (x k)) (sLane w (y k)))) .max
  ∧ (match eFmt (aE t) with
    | none => writes (.vfma d a b m t) (fun k => (z k + x k * y k) % 2 ^ w) (fun _ => 0)
    | some q => writes (.vfma d a b m t) (fun k => (fpFma (fpmode s) q (x k) (y k) (z k)).bits)
        (fun k => (fpFma (fpmode s) q (x k) (y k) (z k)).flags))
  ∧ writes (.vabs d a m t) (fun k => if (eFmt (aE t)).isSome then x k % 2 ^ (w - 1) else (sLane w (x k)).natAbs) (fun _ => 0)
  ∧ writes (.vneg d a m t) (fun k => if (eFmt (aE t)).isSome then (x k + 2 ^ (w - 1)) % 2 ^ w else (2 ^ w - x k) % 2 ^ w)
      (fun _ => 0)
  ∧ only (.vand d a b m t) (fun k => x k &&& y k) ∧ only (.vor d a b m t) (fun k => x k ||| y k)
  ∧ only (.vxor d a b m t) (fun k => x k ^^^ y k)
  ∧ only (.vshl d a b m t) (fun k => x k * 2 ^ c k % 2 ^ w) ∧ only (.vshr d a b m t) (fun k => x k / 2 ^ c k)
  ∧ only (.vsra d a b m t) (fun k => toLane w (sLane w (x k) / 2 ^ c k))

/-- R350, R359, R360, R361, R362, R370: vcmp writes the bits of active elements, keeps those of inactive ones and clears those above;
vsel selects by the mask; a reduction writes element 0 only: on an integer type the wrapping sum, minimum or maximum of the active
elements, on a floating-point type the pairwise tree over all elements, with the identity in the place of the inactive ones; a scan
writes the running result into every active element; vdot adds the products of its blocks into element 0, on a floating-point type
one term for each block in order (R348). -/
def Obligations.VectorCompareReduce : Prop := ∀ (s : State) (d a b : Fin 32) (k m : Fin 8) (t : ATy) (cc : Cc) (op : ScanOp) (u : ETy),
  let r := (me s).regs
  let w := eBits (aE t)
  let n := 512 / w
  let x : Nat → Nat := fun i => lane (r.v.get a) w i
  let y : Nat → Nat := fun i => lane (r.v.get b) w i
  let sx : Nat → Int := fun i => sLane w (x i)
  let sy : Nat → Int := fun i => sLane w (y i)
  let old := r.v.get d
  let above : BitVec 512 → Nat → Prop := fun v w => ∀ i, 0 < i → i < 512 / w → lane v w i = lane old w i
  let on := (List.range n).filter (fun i => active r m i)
  let unordered := cc = .ltz ∨ cc = .lez
  let test : Nat → Bool := fun i => match cc with
    | .eq => decide (sx i = sy i) | .ne => decide (sx i ≠ sy i) | .lt => decide (sx i < sy i) | .le => decide (sx i ≤ sy i)
    | .ltz => decide (sx i < 0) | .lez => decide (sx i ≤ 0)
  let fold : ScanOp → Int → List Int → Int := fun o z l => match o with
    | .sum => l.foldl (· + ·) z | .min => l.foldl min z | .max => l.foldl max z
  let unitOf : ScanOp → Int := fun o => match o with | .sum => 0 | .min => 2 ^ (w - 1) - 1 | .max => - 2 ^ (w - 1)
  let round : ScanOp → FpFmt → Nat → Nat → Coded := fun o q => fpBin (fpmode s) q (match o with | .sum => .add | .min => .min | .max => .max)
  let idOf : ScanOp → FpFmt → Nat := fun o q => match o with | .sum => q.signBit | .min => q.infCode | .max => q.signBit + q.infCode
  (unordered → (eFmt (aE t)).isSome → Illegal (.vcmp k a b m cc t) s)
  ∧ (¬ (unordered ∧ (eFmt (aE t)).isSome) → WritesM (.vcmp k a b m cc t) s k (fun v g =>
      (∀ i < 64, n ≤ i → v.getLsbD i = false)
      ∧ (∀ i < n, ¬ Active r m i → v.getLsbD i = (if k = 0 then true else (r.m.get k).getLsbD i))
      ∧ (eFmt (aE t) = none → g = 0 ∧ ∀ i < n, Active r m i → v.getLsbD i = test i)
      ∧ (∀ q, eFmt (aE t) = some q → ∀ i < n, Active r m i → v.getLsbD i = match cc with
          | .eq => (fpEq (fpmode s) q (x i) (y i)).1 | .ne => !(fpEq (fpmode s) q (x i) (y i)).1
          | .lt => (fpLess (fpmode s) q false (x i) (y i)).1 | _ => (fpLess (fpmode s) q true (x i) (y i)).1)))
  ∧ WritesV (.vsel d a b m t) s d (fun v g => g = 0 ∧ ∀ i < n, (Active r m i → lane v w i = x i) ∧ (¬ Active r m i → lane v w i = y i))
  ∧ (∀ o i, (i = Instr.vredSum d a m t ∧ o = .sum ∨ i = .vredMin d a m t ∧ o = .min ∨ i = .vredMax d a m t ∧ o = .max) →
      WritesV i s d (fun v g => above v w
        ∧ (eFmt (aE t) = none → g = 0 ∧ lane v w 0 = toLane w (fold o (unitOf o) (on.map sx)))
        ∧ (∀ q, eFmt (aE t) = some q →
            let c := pairTree (round o q) (Nat.log2 n) (fun i => if active r m i then x i else idOf o q)
            g = c.flags ∧ lane v w 0 = c.bits % 2 ^ w)))
  ∧ WritesV (.vscan d a op m t) s d (fun v g => (∀ i < n, ¬ Active r m i → lane v w i = lane old w i)
      ∧ (eFmt (aE t) = none → g = 0 ∧ ∀ i < n, Active r m i →
          lane v w i = toLane w (fold op (unitOf op) ((on.filter (· ≤ i)).map sx)))
      ∧ (∀ q, eFmt (aE t) = some q → g = (inOrder (round op q) (idOf op q) (on.map x)).flags
          ∧ ∀ i < n, Active r m i → lane v w i = (inOrder (round op q) (idOf op q) ((on.filter (· ≤ i)).map x)).bits % 2 ^ w))
  ∧ (dotShape u = none → Illegal (.vdot d a b m u) s)
  ∧ (dotShape u ≠ none → WritesV (.vdot d a b m u) s d (fun v g => above v 32
      ∧ (u = .b → g = 0 ∧ lane v 32 0 = toLane 32 (sLane 32 (lane old 32 0)
          + (((List.range 64).filter (fun i => active r m i)).map (fun i =>
              sLane 8 (lane (r.v.get a) 8 i) * sLane 8 (lane (r.v.get b) 8 i))).sum))
      ∧ (u = .i4 → g = 0 ∧ lane v 32 0 = toLane 32 (sLane 32 (lane old 32 0)
          + (((List.range 128).filter (fun i => active r m (i / 2))).map (fun i =>
              sLane 4 (lane (r.v.get a) 4 i) * sLane 4 (lane (r.v.get b) 4 i))).sum))
      ∧ (∀ len kb, dotShape u = some (len, kb) → eInt u = false →
          let val : BitVec 512 → Nat → Val := fun v i => eVal 0 false u (lane v (eBits u) i)
          let scale : BitVec 512 → Val := fun v => if eMx u then e8m0Val (lane v 8 (if eBits u = 4 then 16 else 32)) else .fin false 1 0
          let block : Nat → List (Val × Val) := fun k => ((List.range kb).filter (fun j => active r m (k * kb + j))).map (fun j =>
            (val (r.v.get a) (k * kb + j), val (r.v.get b) (k * kb + j)))
          let term : Nat → Nat := fun k => blockTerm (sumProducts (block k)) (scale (r.v.get a)) (scale (r.v.get b))
          let c := inOrder (fpBin (fpmode s) fmtSf .add) (lane old 32 0) ((List.range (len / kb)).map term)
          g = c.flags ∧ lane v 32 0 = c.bits % 2 ^ 32)))

/-- R363, R364, R365, R371: vperm, vcompress, vbcast, vext, vins and the mask instructions. An index of vext or vins at or above N
raises ILLEGAL; m0 reads as all ones, and a write to it is discarded. -/
def Obligations.VectorRearrangeMasks : Prop := ∀ (s : State) (d a b : Fin 32) (k j m : Fin 8) (t : ATy) (e : Src) (q : Dest) (i : BitVec 6),
  let r := (me s).regs
  let w := eBits (aE t)
  let n := 512 / w
  let old := r.v.get d
  let x : Nat → Nat := fun i => lane (r.v.get a) w i
  let mask : Fin 8 → Word := fun k => if k = 0 then BitVec.allOnes 64 else r.m.get k
  WritesV (.vperm d a b m t) s d (fun v g => g = 0 ∧ Lanes r m w n old v (fun i =>
      if lane (r.v.get b) w i < n then x (lane (r.v.get b) w i) else 0))
  ∧ WritesV (.vcompress d a m t) s d (fun v g => g = 0 ∧ ∀ i < n,
      lane v w i = (((List.range n).filter (fun i => active r m i)).map x).getD i 0)
  ∧ WritesV (.vbcast d e m t) s d (fun v g => g = 0 ∧ Lanes r m w n old v (fun _ => (src s e).toNat % 2 ^ w))
  ∧ (n ≤ i.toNat → Illegal (.vext q a i t) s ∧ Illegal (.vins d e i t) s)
  ∧ (i.toNat < n → Gives (.vext q a i t) s q (fun y => if (eFmt (aE t)).isSome then y.toNat = x i.toNat
      else y.toInt = sLane w (x i.toNat)))
  ∧ (i.toNat < n → WritesV (.vins d e i t) s d (fun v g => g = 0 ∧ lane v w i.toNat = (src s e).toNat % 2 ^ w
      ∧ ∀ l < n, l ≠ i.toNat → lane v w l = lane old w l))
  ∧ WritesM (.mand k j m) s k (fun v g => g = 0 ∧ v = mask j &&& mask m)
  ∧ WritesM (.mor k j m) s k (fun v g => g = 0 ∧ v = mask j ||| mask m)
  ∧ WritesM (.mnot k j) s k (fun v g => g = 0 ∧ v = ~~~ mask j)
  ∧ Gives (.mpop q j) s q (fun y => y.toNat = ((List.range 64).filter (fun i => (mask j).getLsbD i)).length)

/-- R344, R347, R366, R367, R368, R369: the conversions complete for every pair of types that each allows, and raise ILLEGAL for any
other. vcvt converts the active elements below 512 / the wider width (an integer pair keeps low bits and sign-extends, without flags),
and clears the positions above. vcvtq with an MX destination writes the block of R344 in the layout of R353. The Hadamard forms and
vhad take the exact sums of R347. The values of elements are stated without stochastic rounding, which alone moves the core's
generator. -/
def Obligations.VectorConversions : Prop := ∀ (s : State) (d a : Fin 32) (m : Fin 8) (t y : ETy),
  let r := (me s).regs
  let wd := eBits t
  let ws := eBits y
  let n := 512 / max wd ws
  let old := r.v.get d
  let narrow : BitVec 512 → Prop := fun v => ∀ i, n ≤ i → i < 512 / wd → lane v wd i = 0
  let code : Val → Coded := fun v => eCode (fpmode s) true false t (roundMode (fpmode s)) 0 v
  let lanes : BitVec 512 → Prop := fun v =>
    (∀ i < n, ¬ Active r m i → lane v wd i = lane old wd i)
    ∧ (∀ i < n, Active r m i → eInt t = true → eInt y = true → lane v wd i = toLane wd (sLane ws (lane (r.v.get a) ws i)))
    ∧ (∀ i < n, Active r m i → ¬ (eInt t = true ∧ eInt y = true) → srOn (fpmode s) = false →
        lane v wd i = (code (eVal (fpmode s) false y (lane (r.v.get a) ws i))).bits % 2 ^ wd)
  let val : Nat → Val := fun i => eVal (fpmode s) false y (lane (r.v.get a) ws i)
  let quiet : BitVec 5 → Prop := fun g => (eInt t = true → eInt y = true → g = 0)
    ∧ (¬ (eInt t = true ∧ eInt y = true) → srOn (fpmode s) = false → LaneFlags r m n g (fun i => (code (val i)).flags))
  let turned : Nat → Int → BitVec 512 → BitVec 5 → Prop := fun k h v g => ∃ ys, Rotated k (512 / ws) val ys
    ∧ (srOn (fpmode s) = false → ∀ i < 512 / ws, lane v wd i = (code (scaleBy (-h) (ys i))).bits % 2 ^ wd)
    ∧ ((∃ i < 512 / ws, vFin (val i) = false) → g.getLsbD 0 = true)
  let spun : Nat → Int → BitVec 512 → Prop := fun k h v => ∃ ys, Rotated k (512 / ws) val ys
    ∧ (srOn (fpmode s) = false → ∀ i < 512 / ws,
        lane v ws i = (eCode (fpmode s) true false y (roundMode (fpmode s)) 0 (scaleBy (-h) (ys i))).bits % 2 ^ ws)
  let blockOf : Nat → Int → BitVec 512 → BitVec 5 → Prop := fun k h v g => ∃ ys, Rotated k 32 val ys ∧ MxBlock s t h ys v g
  (eMx t = true ∨ eMx y = true ∨ t = y → Illegal (.vcvt d a y m t) s)
  ∧ (eMx t = false → eMx y = false → t ≠ y → WritesVDraw (.vcvt d a y m t) s d (fun v g => narrow v ∧ lanes v ∧ quiet g))
  ∧ (quantOk t y = false → Illegal (.vcvtq d a y m t) s ∧ Illegal (.vcvtqH16 d a y t) s ∧ Illegal (.vcvtqH32 d a y t) s)
  ∧ (quantOk t y = true → eMx t = false → WritesVDraw (.vcvtq d a y m t) s d (fun v g => narrow v ∧ lanes v ∧ quiet g)
      ∧ WritesVDraw (.vcvtqH16 d a y t) s d (fun v g => narrow v ∧ turned 16 4 v g))
  ∧ (quantOk t y = true → eMx t = true → WritesVDraw (.vcvtq d a y m t) s d (fun v g => MxBlock s t 0 val v g)
      ∧ WritesVDraw (.vcvtqH16 d a y t) s d (fun v g => blockOf 16 4 v g)
      ∧ WritesVDraw (.vcvtqH32 d a y t) s d (fun v g => blockOf 32 5 v g))
  ∧ (quantOk t y = true → eMx t = false → ws = 16 → WritesVDraw (.vcvtqH32 d a y t) s d (fun v g => narrow v ∧ turned 32 5 v g))
  ∧ (ws = 32 → Illegal (.vcvtqH32 d a y t) s ∧ Illegal (.vhadH32 d a y) s)
  ∧ (y ≠ .hf → y ≠ .bf → y ≠ .sf → Illegal (.vhadH16 d a y) s ∧ Illegal (.vhadH32 d a y) s)
  ∧ (y = .hf ∨ y = .bf ∨ y = .sf → WritesVDraw (.vhadH16 d a y) s d (fun v _ => spun 16 4 v)
      ∧ (ws = 16 → WritesVDraw (.vhadH32 d a y) s d (fun v _ => spun 32 5 v)))
  ∧ ((t ≠ .hf ∧ t ≠ .bf ∧ t ≠ .sf) ∨ eFmt y ≠ none ∨ (eInt y = true ∧ y ≠ .b ∧ y ≠ .i4) → Illegal (.vdq d a y m t) s)
  ∧ (t = .hf ∨ t = .bf ∨ t = .sf → eFmt y = none → (eInt y = true → y = .b ∨ y = .i4) →
      WritesVDraw (.vdq d a y m t) s d (fun v g => (∀ i < 512 / wd, ¬ Active r m i → lane v wd i = lane old wd i)
        ∧ (∀ i < 512 / wd, Active r m i → eMx y = true → srOn (fpmode s) = false →
            lane v wd i = (code (exMul (eVal 0 false y (lane (r.v.get a) ws i))
              (e8m0Val (lane (r.v.get a) 8 (if ws = 4 then 16 else 32)))).1).bits % 2 ^ wd)
        ∧ (eMx y = false → lanes v ∧ quiet g)))

/-- R281: `trap a` raises SYS with c.tval = Src(a) and c.epc = the next instruction. `brk` raises BRK with c.epc at the brk, or
halts the core when its break-halts bit is set (R279). -/
def Obligations.TrapAndBreak : Prop := ∀ (s : State) (a : Src),
  let halts := (bar0Get s (0x400100 + 0x10000 * (s.cur / 4096) + 8 * (s.cur / 512 % 8))).getLsbD (s.cur / 8 % 64)
  RaisesOwn (.trap a) s cSys ((me s).regs.pc + 4) (me s).regs.pc (src s a)
  ∧ (halts = false → RaisesOwn .brk s cBrk (me s).regs.pc (me s).regs.pc 0)
  ∧ (halts = true → chunkEmpty (me s) = false → exec .brk s = .next (endChunkOf s s.cur .resume))
  ∧ (halts = true → chunkEmpty (me s) = true → ∃ u, exec .brk s = .next u ∧ (coreAt u (s.cur / 8)).halted = true
      ∧ (coreAt u (s.cur / 8)).stepping = .off ∧ u = { s with cores := u.cores } ∧ ∀ k, k ≠ s.cur / 8 → coreAt u k = coreAt s k)

/-- Trap entry, nested traps, and eret. Where the spec leaves a point open it holds the choices of the model that log entries 78, 87 name. -/
def Obligations.TrapEntryAndReturn : Prop := TrapEntryStoresQ ∧ NestedTraps ∧ ReturnFromTrap

/-- crd and cwr. Where the spec leaves a point open it holds the choices of the model that log entries 51, 52 name. -/
def Obligations.ControlRegisters : Prop := ControlRegisterReads ∧ ControlRegisterWrites

/-- R284, R285, R287: tinv and rmode do nothing for a length of 0; a range that is neither the whole ASID nor inside the global
window raises WINDOW; else each home of the range is asked, and the instruction goes on once they have answered. pre issues its
request for a supervisor with kind 0 and its own ASID, and for firmware with kinds 0 to 2, whose kind 3 does nothing; any other use
raises PRIV, also kind 3 below firmware level (log 50, the model's choice). While a home of a page is paused rmode waits (R306). R238:
a task of an ordered domain waits before each until it is the oldest. -/
def Obligations.SupervisorOperations : Prop := ∀ (s : State) (a b : Src) (m : CMode),
  let base := (src s a).toNat
  let len := (src s b).toNat
  let last := base + len - 1
  let whole := base = 0 ∧ len = 2 ^ 64 - 1
  let inside := 2 ^ 55 ≤ base ∧ base < 2 ^ 56 ∧ 2 ^ 55 ≤ last ∧ last < 2 ^ 56
  let lo := if whole then 2 ^ 55 else base
  let hi := if whole then 2 ^ 56 - 1 else last
  let homes := (List.range 16).filter (fun h => decide (lo / 2 ^ 51 % 16 ≤ h ∧ h ≤ hi / 2 ^ 51 % 16))
  let pages := checkPages (rmodePage s lo hi) lo (hi / 65536 - lo / 65536 + 1)
  let d := src s a
  let kind := d.toNat / 2 ^ 62
  let mayPre := plOf (me s).ctl = 2 ∨ (kind = 0 ∧ d.toNat % 2 ^ 10 = asidOf (me s))
  let asks : Instr → (Nat → Instr) → Prop := fun i ask => ∃ u, exec i s = .next u ∧ Keeps s u
    ∧ (me u).run = .stalled (.homes s.nextOp) ∧ (me u).regs = (me s).regs ∧ (me u).ctl = (me s).ctl
    ∧ u.agenda = s.agenda ++ homes.map (fun h => (0, 0, ask h))
  (∀ i, i = .tinv a b ∨ i = .rmode a b m → Privileged i s ∧ (isUser (me s) = false → ClosesFrom i s s
      ∧ (chunkEmpty (me s) = true → youngTask s s.cur = false → (len = 0 → Completes i s) ∧ ((me s).woken = true → Completes i s)
        ∧ (len ≠ 0 → (me s).woken = false → ¬ whole → ¬ inside → RaisesTrap i s cWindow d 6))))
  ∧ (isUser (me s) = false → chunkEmpty (me s) = true → youngTask s s.cur = false → len ≠ 0 → (me s).woken = false → whole ∨ inside →
      asks (.tinv a b) (fun h => .tinvHome h s.nextOp)
      ∧ (∀ h, pages = .held h → exec (.rmode a b m) s = .next (stallCtx s s.cur (.home h)))
      ∧ (pages = .ok → asks (.rmode a b m) (fun h => .rmodeDrain h s.nextOp))
      ∧ (∀ cause va, pages = .fault cause va → cause ≠ cMcheck → RaisesTrap (.rmode a b m) s cause (BitVec.ofNat 64 va) 6))
  ∧ Privileged (.pre a) s
  ∧ (isUser (me s) = false → ¬ mayPre → RaisesTrap (.pre a) s cPriv (me s).regs.pc (BitVec.ofNat 64 (me s).word.toNat))
  ∧ (isUser (me s) = false → mayPre → ClosesFrom (.pre a) s s
      ∧ (chunkEmpty (me s) = true → youngTask s s.cur = false → ∃ u, exec (.pre a) s = .next u ∧ Keeps s u
      ∧ Closed (me s) (me u) ((me s).regs.pc + 4) ∧ (me u).regs = { (me s).regs with pc := (me s).regs.pc + 4 }
      ∧ u.agenda = s.agenda ++ (if kind = 3 then [] else [(0, 0, .preemptRequest d s.cur)])))

/-- R7, R274, R286: ctxsave writes the area of the executing context, bytes 0x000–0xFEF and no others: saved by 2, no wait, the PC
c.epc, q from c.tsave while ts is 1, c.status with pl := ppl and ts := 0, the unit's words, and the rest as it stands. ctxload loads one:
q, k, v, m, the PC and the control registers, with valid cleared in the area. An area that may not be loaded, a reserved field that is
not zero among the causes (R7), raises QUEUE_INVALID with reason 2. R325, R330: ctxload withdraws the records of the thread that the
context ran, and has those of the loaded one register again. A copy B or C of a DUP group writes nothing (R239). -/
def Obligations.ContextSaveAndLoad : Prop := ∀ (s v z : State) (a : Src) (t : Target) (qs : List Byte) (j : Fin 16) (x : Fin 32) (y : Fin 8),
  let ea := src s a
  let c := me s
  let g := sigRange t.asid t.va
  let req : Nat → Need → AccReq := fun kind need =>
    { ea := ea, n := 4096, align := 4096, kind := kind, need := need, wins := [8], pages := [.hc, .pinned], closes := false,
      sup := false }
  let start := isUser c = false ∧ Fresh c ∧ youngTask s s.cur = false ∧ c.unit.dup < 2
  let saves : State → (Nat → Word) → Prop := fun w q => mayCommit w t 0 (g 0xFF0) = true →
    ∃ u, exec (.ctxsave a) s = .next u ∧ Closed c (me u) (c.regs.pc + 4) ∧ (me u).regs = { c.regs with pc := c.regs.pc + 4 }
      ∧ (let ws := wordsOf (memBytes u.mem t.key 0xFF0)
         wordAt ws 0 = 0x8001020000000000 ∧ wordAt ws 1 = c.ctl.epc ∧ (wordAt ws 2).toNat = c.chunk.num % 2 ^ 32 * 2 ^ 32
         ∧ wordAt ws 3 = BitVec.ofNat 64 (c.unit.gangKind * 2 ^ 62 + c.unit.thread % 2 ^ 12 * 2 ^ 32 + c.unit.gang % 2 ^ 32)
         ∧ wordAt ws 4 = c.unit.launchVa
         ∧ wordAt ws 5 = (match c.unit.bound with | some b => BitVec.ofNat 64 (2 ^ 63 + b.handle) | none => 0)
         ∧ (wordAt ws 6).toNat = c.accMask.toNat * 2 ^ 48 + s.cur % 2 ^ 18 ∧ wordAt ws 7 = 0
         ∧ wordAt ws (8 + j.val) = q j.val ∧ wordAt ws (24 + j.val) = c.regs.k.get j ∧ vecOf ws (40 + 8 * x.val) = c.regs.v.get x
         ∧ wordAt ws (296 + y.val) = c.regs.m.get y
         ∧ (wordAt ws 304).toNat = 5 * pplOf c.ctl + (if stepOn c.ctl then 16 else 0)
         ∧ (∀ n, 0 < n → (crValues s)[n]? = if n < 29 then some (wordAt ws (304 + n)) else none)
         ∧ ∀ n, 333 ≤ n → n < 510 → wordAt ws n = 0)
      ∧ (heldElsewhere w t.key 0xFF0 = false → (∀ k, k < t.key ∨ t.key + 0xFF0 ≤ k → memGet u.mem k = memGet w.mem k)
          ∧ SquashesOnly w u (g 0xFF0) ∧ SquashesReaders w u (g 0xFF0))
  let area := wordsOf (memBytes s.mem t.key 4096)
  let zero : Nat → Nat → Nat → Prop := fun w hi lo => (wordAt area w).toNat / 2 ^ lo % 2 ^ (hi - lo + 1) = 0
  let formed := (wordAt area 0).getLsbD 63 = true ∧ (wordAt area 0).toNat / 2 ^ 48 % 2 ^ 8 = 1 ∧ zero 0 62 56 ∧ zero 0 31 0 ∧ zero 2 31 0
    ∧ zero 3 61 44 ∧ zero 5 62 12 ∧ ((wordAt area 5).getLsbD 63 = true ∨ zero 5 11 0) ∧ zero 6 47 18 ∧ zero 7 63 50 ∧ zero 7 31 0
    ∧ ∀ n, 333 ≤ n → n < 512 → n ≠ 510 → wordAt area n = 0
  let st := wordAt area 304
  let fits := formed ∧ (plOf c.ctl = 2 ∨ (wordAt area 306).toNat % 2 ^ 10 = asidOf c) ∧ (wordAt area 3).toNat / 2 ^ 62 = 0
    ∧ st.toNat % 4 ≤ plOf c.ctl ∧ st.toNat % 4 ≠ 3 ∧ st.toNat / 4 % 4 ≠ 3
  Privileged (.ctxsave a) s ∧ Privileged (.ctxload a) s
  ∧ (isUser c = false → ClosesFrom (.ctxsave a) s s ∧ ClosesFrom (.ctxload a) s s)
  ∧ (start → MemOk s → access s (req 1 needW) = .ok t v →
      (tsOn c.ctl = false → saves v (fun n => qGet c.regs (Fin.ofNat 16 n)))
      ∧ (tsOn c.ctl = true → hwRead v (asidOf c) (c.ctl.tsave &&& ~~~127).toNat 128 false = .ok qs z → me z = me v → z.cur = s.cur →
          MemOk z → saves z (wordAt (wordsOf qs))))
  ∧ (start → access s (req 0 needR) = .ok t v → poisoned v t.key 4096 = false →
      (¬ fits → ∀ w, CanTrap v w → Traps (.ctxload a) s w cQueueInvalid ea (BitVec.ofNat 64 (2 * 4096)))
      ∧ (fits → MemOk s → mayCommit v t (g 4096) (g 8) = true →
          ∃ u, exec (.ctxload a) s = .next u ∧ (me u).regs.pc = wordAt area 1 &&& ~~~3 ∧ chunkEmpty (me u) = true
            ∧ qGet (me u).regs j = wordAt area (8 + j.val) ∧ (me u).regs.k.get j = wordAt area (24 + j.val)
            ∧ (me u).regs.v.get x = vecOf area (40 + 8 * x.val)
            ∧ (me u).regs.m.get y = (if y = 0 then BitVec.allOnes 64 else wordAt area (296 + y.val))
            ∧ plOf (me u).ctl = st.toNat % 4 ∧ pplOf (me u).ctl = st.toNat / 4 % 4
            ∧ (me u).ctl.asid = c.ctl.asid ∧ (me u).ctl.epc = wordAt area 308 &&& ~~~3
            ∧ (me u).unregistered = 2 ∧ (∀ r, r ∈ u.fox.choices ↔ r ∈ v.fox.choices ∧ r.loc ≠ s.cur)
            ∧ memWord u.mem t.key = wordAt area 0 &&& 0x7FFFFFFFFFFFFFFF))

/-- R56, R396–R400: on an M-die mfmt, mscl, mresume and accspill take one deferred-effect entry, and mtick pushes the last
completed ticket; on an S-die all five raise ILLEGAL. mresume takes only the engine pointer with offset 0, and accspill is
privileged, takes a tile up to 15, and an image that the access checks admit, or 0. -/
def Obligations.MatrixContext : Prop := ∀ (s v : State) (a b : Src) (d : Dest) (i : BitVec 15) (n : Fin 8) (t : Target),
  let m := Config.isM (dieOf s.cur)
  let tile := (src s a).toNat
  let va := src s b
  (∀ j ∈ [Instr.mfmt i, .mscl a n, .mtick d, .mresume a, .accspill a b], m = false → Illegal j s)
  ∧ (m = true →
    TakesEffect (.mfmt i) s (.mfmt i)
    ∧ TakesEffect (.mscl a n) s (.mscl n ((src s a).setWidth 32))
    ∧ Gives (.mtick d) s d (fun x => x.toNat = (me s).ticket.toNat)
    ∧ (src s a = 0x0040000000000000 → TakesEffect (.mresume a) s .mresume)
    ∧ (src s a ≠ 0x0040000000000000 → RaisesTrap (.mresume a) s cWindow (src s a) 0)
    ∧ Privileged (.accspill a b) s
    ∧ (isUser (me s) = false →
        (15 < tile → RaisesTrap (.accspill a b) s cWindow va 0)
        ∧ (tile ≤ 15 → va = 0 → TakesEffect (.accspill a b) s (.accspill tile va))
        ∧ (tile ≤ 15 → va ≠ 0 → access s { storeReq va 16384 with wins := [8], pages := [.hc, .pinned], closes := false } = .ok t v →
            TakesEffect (.accspill a b) s (.accspill tile va))))

/-- R39, R115, R266, R267: TRAP_ENTRY takes the trap for which the chunk ended, once it has committed; ASYNC_TRAP the first pending
trap, with bit 8 of c.cause set; MCHECK enters firmware level at once in a context that holds no chunk, and else waits. That memory is
left alone and the firmware record is a field of the context is the model's choice (log 78). -/
def Obligations.TrapSteps : Prop := ∀ (s t : State) (x : TrapInfo) (p : Pending) (loc reason detail : Nat) (badva : Word),
  let c := me s
  let d := ctxAt s loc
  let cut := modMe s (fun k => { k with pending := k.pending.erase p })
  let others : State → State → Prop := fun u t => (∀ l, l ≠ s.cur → ctxAt u l = ctxAt t l) ∧ u = { t with ctxs := u.ctxs }
  (c.run = .committing (.trap x) → c.chunk.live = false → c.tail = none → CanTrap s t →
      Does .trapEntry s (fun u => TookTrap c (ctxAt u s.cur) x.cause x.epc x.badva x.tval ∧ others u t))
  ∧ (chunkEmpty c = true → underWay s s.cur = false → firstPending c = some p → p.cause = 0x19 →
      Does .asyncTrap s (fun u => QuietBut s.cur s u ∧ (ctxAt u s.cur).pending = c.pending.erase p
        ∧ TookMcheck c (ctxAt u s.cur) (p.tval.toNat / 256 % 256) (p.tval.toNat % 256) p.badva c.regs.pc))
  ∧ (underWay s s.cur = false → firstPending c = some p → p.cause ≠ 0x19 → CanTrap cut t →
      Does .asyncTrap s (fun u => TookTrap c (ctxAt u s.cur) (p.cause + 256) c.regs.pc p.badva p.tval ∧ others u t))
  ∧ (reason < 256 → detail < 256 → d.run ≠ .dormant →
      (chunkEmpty d = true → underWay s loc = false → (∀ a, d.run ≠ .committing a) → Does (.mcheck loc reason detail badva) s (fun u =>
          QuietBut loc s u ∧ TookMcheck d (ctxAt u loc) reason detail badva d.regs.pc))
      ∧ (chunkEmpty d = false ∨ underWay s loc = true ∨ (∃ a, d.run = .committing a) → Does (.mcheck loc reason detail badva) s (fun u => QuietBut loc s u
          ∧ ctxAt u loc = { d with pending := d.pending ++ [{ cause := 0x19, badva := badva, tval := BitVec.ofNat 64 (reason * 256 + detail) }] })))

/-- R95, R111, R114, R116, R135, R257: a chunk that has reached its limit ends; a held chunk takes its grants before it begins, and
waits while another context holds one or another held chunk stands on its core (log 62, the model's choice); a fault response squashes
the chunk, to run again to before the instruction, or alone; a soft error squashes it and is counted, and the third in a row is a
machine check; one that is under way at the homes or outside (R96) is only counted; an uncorrectable error of a word of committed memory
poisons it (R211); a watch wakes; a yield resumes. Which error a SOFT_ERROR stands for is told by its unit number (log 79), and the
firmware record is a field of the context (log 78): the model's choices. -/
def Obligations.ChunkSteps : Prop := ∀ (s : State) (loc pos till k : Nat) (await : List Nat),
  let c := me s
  let d := ctxAt s loc
  let sole := ∀ i, i < 8 → s.cur / 8 * 8 + i ≠ s.cur → (ctxAt s (s.cur / 8 * 8 + i)).chunk.held = false
  let errors : State → Nat := fun u => (bar0Get u (0x100 + 8 * (s.cur / 4096))).toNat % 2 ^ 32
  (c.run = .ready → c.chunk.live = true → chunkLimit c ≤ c.chunk.count → exec .chunkLengthLimit s = .next (endChunkOf s s.cur .resume))
  ∧ (c.chunk.live = false → 4 ≤ c.chunk.conflicts → c.chunk.held = false →
      (sole → (∀ a ∈ c.chunk.prevArbs, (arbAt s a).priority = some s.cur ∨ ((arbAt s a).priority = none ∧ (arbAt s a).asking = []
          ∧ (arbAt s a).inProg = [])) →
        Does .heldChunkStart s (fun u => QuietBut s.cur s u ∧ (me u).run = .ready ∧ heldOn (me u).ctl = true
          ∧ (me u).chunk = { c.chunk with held := true, grants := c.chunk.prevArbs } ∧ (me u).regs = c.regs
          ∧ ∀ a ∈ c.chunk.prevArbs, (arbAt u a).priority = some s.cur))
      ∧ (¬ sole → exec .heldChunkStart s = .next (stallCtx s s.cur .start))
      ∧ (sole → (∃ a ∈ c.chunk.prevArbs, ∃ l, l ≠ s.cur ∧ (arbAt s a).priority = some l) →
        Does .heldChunkStart s (fun u => QuietBut s.cur s u ∧ (me u).run = .stalled .start ∧ (me u).regs = c.regs)))
  ∧ (d.run = .stalled .fault → Does (.faultResponse loc pos) s (fun u => QuietBut loc s u ∧ Squashed d (ctxAt u loc)
      ∧ (pos ≤ 1 → (ctxAt u loc).chunk.alone = true) ∧ (1 < pos → (ctxAt u loc).chunk.stopAt = some (pos - 1))))
  ∧ (s.cur < 2 ^ 18 → c.chunk.live = false ∨ underWay s s.cur = true → Does .softError s (fun u => Quiet s u ∧ errors u = (errors s + 1) % 2 ^ 32))
  ∧ (s.cur < 2 ^ 18 → c.chunk.live = true → underWay s s.cur = false → Does .softError s (fun u => QuietBut s.cur s u ∧ errors u = (errors s + 1) % 2 ^ 32
      ∧ (c.chunk.softs < 2 → Squashed c (me u) ∧ (me u).chunk.softs = c.chunk.softs + 1)
      ∧ (2 ≤ c.chunk.softs → plOf (me u).ctl = 2 ∧ (me u).ctl.cause = 0x19 ∧ (me u).ctl.tval = 0x200
          ∧ (me u).regs = { c.chunk.cp.regs with pc := Config.firmwareVector })))
  ∧ (s.cur / 2 ^ 60 = 2 → s.cur % 2 ^ 60 < 2 ^ 41 → s.cur % 8 = 0 → Does .softError s (fun u => Quiet s u ∧ poisoned u (s.cur % 2 ^ 60) 8 = true))
  ∧ (c.watch ≠ none → c.run = .waiting k → Does .watchWake s (fun u => OnlyMe s u
      ∧ me u = { c with run := .ready, woken := true, watch := none }))
  ∧ (c.run = .yielded till await → till ≤ s.now ∨ await = [] →
      Does .yieldResume s (fun u => OnlyMe s u ∧ me u = { c with run := .ready }))

/-- Grants and commits of chunks. -/
def Obligations.GrantAndCommitSteps : Prop := GrantSteps ∧ CommitSteps

/-- R195, R203, R204, R206, R208: a home answers a fill from memory, or snoops the owner; the data bring the entry to its stable state
and go to the cache, which installs them if they are still current; an extension that is not is asked again. A write-back puts its words into memory and ends
its owner's ownership; a snoop leaves no block that its column forbids, and an owner that has none left while its write-back is on its
way answers gone; a lease that has ended leaves no block, in an L1 or in the L2 of a die (unit 511 of the die, the model's numbering). -/
def Obligations.FillSteps : Prop := ∀ (s v x' : State) (f : FillReq) (wb : WbFrom) (home region who core asid va w : Nat) (x : Word) (inval : Bool)
    (l : Leaf),
  let d := dirAt s home f.region
  let e := dirAt s home region
  let fill : Nat × Nat × Instr := (0, 0, if f.ext then .extensionArrival f else .fillArrival f)
  let data : Nat × Nat × Instr := (0, 0, .homeDataArrival home f.region)
  let asks : Nat → Nat → Nat → List (Nat × Nat × Instr) → Prop := fun n next owner more => Does (.getS home f) s (fun u => Quiet s u
    ∧ u.agenda = s.agenda ++ more ∧ dirAt u home f.region = { d with
      state := 8, dies := d.dies ||| ((1 : BitVec 64) <<< (f.core / 512)), await := n, next := next, nextOwner := owner, fill := some f })
  let again := homeOf (f.va * 512)
  let at' : Leaf → Nat := fun l => leafAddr l (f.va * 512) / 512
  let snoop : Nat × Nat × Instr := (0, 0, .snoop home f.region d.owner false)
  (regionBusy s home f.region f.asid f.va = false →
    (fillMode s f = some 0 →
      (d.state = 0 → asks 1 2 f.core [data]) ∧ (d.state = 1 → asks 1 1 0 [data])
      ∧ (2 ≤ d.state → d.owner = f.core → asks 1 d.state d.owner [data])
      ∧ (d.state = 2 → d.owner ≠ f.core → asks 2 1 0 [data, snoop]) ∧ (3 ≤ d.state → d.owner ≠ f.core → asks 1 3 d.owner [snoop]))
    ∧ (fillMode s f = some 1 ∨ fillMode s f = some 2 → Does (.getS home f) s (fun u => Quiet s u ∧ u.agenda = s.agenda ++ [fill])))
  ∧ (8 ≤ e.state → e.state ≤ 16 →
    (1 < e.await → Does (.homeDataArrival home region) s (fun u => Quiet s u ∧ u.agenda = s.agenda
        ∧ dirAt u home region = { e with await := e.await - 1 }))
    ∧ (e.await = 1 → e.next ≤ 4 → e.fill = some f → Does (.homeDataArrival home region) s (fun u => Quiet s u ∧ u.agenda = s.agenda ++ [fill]
        ∧ (dirAt u home region).state = e.next ∧ (dirAt u home region).owner = (if 2 ≤ e.next then e.nextOwner else 0))))
  ∧ (MemOk s → (homeAt s home).paused = false → e.lost = false → w < 64 → Does (.writeBack home region wb [(w, x)]) s (fun u =>
      (∀ o, ctxAt u o = ctxAt s o) ∧ Stored s u (region * 512 + 8 * w) (natBytes 8 x.toNat)
      ∧ (e.mode = 0 → e.state = 4 → e.owner = wb.who → (dirAt u home region).state = 13 ∧ (dirAt u home region).next = 0
          ∧ (0, 0, .homeDataArrival home region) ∈ u.agenda)))
  ∧ Does (.snoop home region who inval) s (fun u => Quiet s u
      ∧ (∀ b ∈ ownerBlocks u who region, b.mode = .hc → inval = false ∧ b.state ≠ 2 ∧ b.state ≠ 4)
      ∧ (ownerBlocks s who region ≠ [] ∨ wbInFlight s region who = false →
          u.agenda = s.agenda ++ [(0, 0, .homeDataArrival home region)])
      ∧ (ownerBlocks s who region = [] → wbInFlight s region who = true → u.agenda = s.agenda ∧ (dirAt u home region).gone = true))
  ∧ (2 ≤ e.state → e.state ≤ 4 → e.lost = false → e.owner / 512 = who / 512 → Does (.ownerMoveReport home region who) s (fun u => Quiet s u
      ∧ dirAt u home region = { e with owner := who }))
  ∧ (fillCurrent s f = false → exec (.fillArrival f) s = .next s
      ∧ (∀ cause, walk s f.asid (f.va * 512) = .error cause → exec (.extensionArrival f) s = .next s)
      ∧ (walk s f.asid (f.va * 512) = .ok l → leafFault s l (f.va * 512) needR false = none → pteSystem l.pte = false → ptePlace l.pte ≠ 3 →
          throughFilter s again f.asid false [(at' l, f.va)] = (some v, x') → (tlbFind v f.asid (f.va * 512)).isSome = true →
          Does (.extensionArrival f) s (fun u => u.mem = v.mem ∧ (∀ o, ctxAt u o = ctxAt v o)
            ∧ u.agenda = v.agenda ++ [(0, 0, .getS again { f with region := at' l, fromL2 := false })])))
  ∧ (fillCurrent s f = true → f.l2 = false → f.fromL2 = false → tlbFind s f.asid (f.va * 512) = some l → ptePlace l.pte = 0 → f.first ≤ f.last → f.last ≤ 63 →
      l1Set (coreAt s f.core) f.va = [] → ∀ i, i = .fillArrival f ∨ i = .extensionArrival f → Does i s (fun u => Quiet s u
        ∧ ∃ b ∈ l1Set (coreAt u f.core) f.va, b.asid = f.asid ∧ b.va = f.va ∧ b.region = f.region ∧ b.writer = none
          ∧ b.start ≤ f.first ∧ f.last ≤ b.stop))
  ∧ Does (.leaseExpiry core asid va) s (fun u => u.mem = s.mem ∧ (∀ o, DiscardsKept (ctxAt s o) (ctxAt u o))
      ∧ (core % 512 ≠ 511 → ∀ b ∈ l1Set (coreAt u core) va, leaseOver s.now asid va b = false)
      ∧ (core % 512 = 511 → ∀ b ∈ l2Set (dieAt u (core / 512)) asid va, leaseOver s.now asid va b = false))

/-- R176, R180, R182, R184, R207, R210: a recall asks the cores that hold the name or whose live chunk meets it, squashes those chunks,
drops their blocks, and then drops the name; a walk wakes the accesses that wait for it, with its fault; tinv leaves no
translation of its range; rmode squashes the live chunks that meet its range and freezes its regions; an entry that is lost is
rebuilt, and of a filter entry that is lost only the bits stay below which a copy is held or has been read. That the signature of a range
above 2^20 bytes sets every bit (log 53), and that a recall or rmode squashes a chunk that holds a store under the name, which SW pages
keep out of W (log 64), are the model's choice. -/
def Obligations.TranslationSteps : Prop := ∀ (s v : State) (home region core asid va n page tid unit key cause : Nat) (write : Bool)
    (lf : Leaf) (t : TinvSt) (r : RmodeSt),
  let sig := sigRegion asid va
  let meets : Ctx → Prop := fun c => c.chunk.live = true ∧ (sigMeets c.chunk.r sig = true ∨ sigMeets c.chunk.w sig = true
    ∨ ∃ x ∈ c.chunk.stores, x.asid = asid ∧ regionOf x.va = va)
  let beneath := (∃ e ∈ s.dies, ∃ b ∈ l2Blocks e.2, b.region = region) ∨ ∃ e ∈ s.agenda, ∃ h f ws, e.2.2 = .writeBack h region f ws
  let cores := recallCores s region asid va
  let gone : State → Prop := fun u => ∀ e ∈ (homeAt u home).remap, e.region = region → (asid, va) ∉ e.names
  let waits : State → Nat → Prop := fun u o => (ctxAt u o).run = .stalled (.walk home asid page)
  let regs := ((pagesOf home r.lo r.hi).map (rmodeRegions s r)).flatten
  let range := rangeSig r.asid r.lo r.hi
  let errors : State → Nat → Nat := fun u die => (bar0Get u (0x100 + 8 * die)).toNat / 2 ^ 32
  let counted : State → Nat → Prop := fun u die => errors u die = (errors s die + 1) % 2 ^ 32
  ((homeAt s home).paused = false →
    ((homeAt s home).recalls.all (fun x => x.1 != region) = true → transient (dirAt s home region).state = false →
      (dirAt s home region).lost = false → beingWritten s (region * 512) 512 = false →
      (cores = [] → Does (.recallName home region asid va) s (fun u => (∀ o, ctxAt u o = ctxAt s o) ∧ (¬ beneath → u.mem = s.mem) ∧ gone u))
      ∧ (cores ≠ [] → Does (.recallName home region asid va) s (fun u => (∀ o, ctxAt u o = ctxAt s o) ∧ (¬ beneath → u.mem = s.mem
            ∧ u.agenda = s.agenda ++ cores.map (fun c => (0, 0, .recallAnswer home region c asid va)))
          ∧ (∀ c ∈ cores, (0, 0, .recallAnswer home region c asid va) ∈ u.agenda)
          ∧ (homeAt u home).recalls = (region, cores.length) :: (homeAt s home).recalls)))
    ∧ (walkSet s asid (page * 65536) write = .ok lf v → Does (.pageWalk home asid page write) s (fun u => u.mem = v.mem
        ∧ ∀ o, waits v o → ctxAt u o = { ctxAt v o with run := .ready }))
    ∧ (walkSet s asid (page * 65536) write = .fault cause v → Does (.pageWalk home asid page write) s (fun u => u.mem = v.mem
        ∧ ∀ o, waits v o → ctxAt u o = { ctxAt v o with run := .ready, walkFault := some (asid, page, cause) }))
    ∧ (tblFind s.tinvs tid = some t → home ∈ t.homes → Does (.tinvHome home tid) s (fun u => u.mem = s.mem
        ∧ (∀ x ∈ (homeAt u home).tlb, tlbMeets home t.asid t.lo t.hi x = false)
        ∧ (namesIn (homeAt s home) t.asid t.lo t.hi = [] → earlierIn s home t.asid t.lo t.hi = false → t.homes = [home] →
            tblFind u.tinvs tid = none ∧ ∀ o, (ctxAt s o).run = .stalled (.homes tid) → ctxAt u o = { ctxAt s o with woken := true })))
    ∧ (tblFind s.rmodes tid = some r → home ∈ r.homes → committingIn s r.asid r.lo r.hi (regs.map (fun x => x.2.1)) = false →
        (∀ x ∈ regs, (dirAt s home x.2.1).state ≤ 4) → Does (.rmodeDrain home tid) s (fun u =>
          (∀ o, (ctxAt s o).chunk.live = true → sigMeets (ctxAt s o).chunk.r range = true ∨ sigMeets (ctxAt s o).chunk.w range = true
              ∨ (∃ x ∈ (ctxAt s o).chunk.stores, x.asid = r.asid ∧ r.lo ≤ x.va ∧ x.va ≤ r.hi) →
            Squashed (ctxAt s o) (ctxAt u o))
          ∧ (∀ x ∈ regs, (dirAt u home x.2.1).state = 17)
          ∧ (r.homes = [home] → tblFind u.rmodes tid = none))))
  ∧ ((homeAt s home).recalls.find? (fun x => x.1 == region) = some (region, n) → Does (.recallAnswer home region core asid va) s (fun u =>
      (∀ o, coreOf o = core → meets (ctxAt s o) → Squashed (ctxAt s o) (ctxAt u o))
      ∧ (∀ o, ¬ (coreOf o = core ∧ meets (ctxAt s o)) → ctxAt u o = ctxAt s o)
      ∧ (∀ b ∈ l1Blocks (coreAt u core), ¬ (b.writer = none ∧ b.asid = asid ∧ b.va = va ∧ b.region = region))
      ∧ (n ≤ 1 → gone u)))
  ∧ ((dirAt s home region).state ≤ 4 →
      ((dirAt s home region).lost = false → Does (.directoryError home region) s (fun u => Quiet s u
          ∧ (dirAt u home region).lost = true ∧ counted u (homeDie home)))
      ∧ ((dirAt s home region).lost = true → Does (.directoryError home region) s (fun u => Quiet s u
          ∧ (dirAt u home region).lost = false ∧ (dirAt u home region).await = 0 ∧ (dirAt u home region).fill = none)))
  ∧ (unit < 64 → Does (.filterError unit key) s (fun u => Quiet s u ∧ counted u unit
      ∧ ∀ cl, cl < 48 → let bit' := (tblGet (dieAt u unit).filter key 0).getLsbD cl
        let core := fun i => (unit * 64 + cl) * 8 + i
        ((∃ i sec, i < 8 ∧ sec < 8 ∧ stillHolds s (core i) key sec = true
            ∧ (tblGet (clusterAt s (unit * 64 + cl)).filter (key * 8 + sec) 0).getLsbD i = true) → bit' = true)
        ∧ ((∀ i sec, i < 8 → sec < 8 → stillHolds s (core i) key sec = false) → bit' = false)))
  ∧ (64 ≤ unit → Does (.filterError unit key) s (fun u => Quiet s u ∧ counted u ((unit - 64) / 64)
      ∧ ∀ i, i < 8 → (tblGet (clusterAt u (unit - 64)).filter key 0).getLsbD i = stillHolds s ((unit - 64) * 8 + i) (key / 8) (key % 8)))

/-- R128, R132, R288, R289: an inbound write inside its range waits for its I/O commit, asked at once with Relaxed Ordering or when no
earlier write of its requester waits; an I/O or engine commit appears at one point of package order and squashes the chunks that
have read its bytes; an inbound read answers with memory; an AtomicOp is one read-modify-write that returns the old value. A
request outside its range, or a write of more than 512 bytes, is dropped, or answered as unsupported; one that names BAR0 reads or
writes the control space. An access waits while a home that it needs is paused, a commit that came before is not applied, or the region is
frozen or in transition (R306, R204, R209). That a write carries at most 512 bytes and a read asks at most 4,096 (log 77), and the number
of a requester with the mark of an access to BAR0 (log 40), are the model's choice. -/
def Obligations.InboundSteps : Prop := ∀ (s : State) (req pa n : Nat) (ro : Bool) (cells : List (Nat × Byte)) (c : Commit) (st : Store)
    (x y : Word),
  let mem := reqBar0 req = false
  let bar := reqBar0 req = true
  let mine := cells.map (fun e => (devAddr s req e.1, e.2))
  let fits := cells.length ≤ 512 ∧ ∀ e ∈ mine, devOk s req e.1 = true
  let word := (List.range 8).map (fun i => (pa + i, (BitVec.ofNat 8 (x.toNat / 2 ^ (8 * i)) : Byte)))
  let a := devAddr s req pa
  let free := reqWaits s req = false ∧ deviceHeld s a n = false
  let sector := sectorsOf st.pa st.bytes.length
  let sig := nameSig s sector.1 sector.2
  let bits := 2 ^ (8 * n)
  let v := gather s a n
  let old := leNat (memBytes v.mem a n)
  let rmw : Instr → (Nat → Nat) → Prop := fun i new =>
    (devOk s req a = true → (n = 4 ∨ n = 8) → a % n = 0 → free → refuses s (a / 2 ^ 37) none (nameSig s a n) (nameSig s a n) = false →
      MemOk s → Does i s (fun u => u.io.out = v.io.out ++ [.atomic req (BitVec.ofNat 64 old)] ∧ Stored v u a (natBytes n (new old))))
    ∧ ((devOk s req a = false ∨ (n ≠ 4 ∧ n ≠ 8) ∨ a % n ≠ 0) → Does i s (fun u => Quiet s u ∧ u.io.out = s.io.out ++ [.unsupported req]))
  (mem → fits → Does (.inboundWrite req ro cells) s (fun u => Quiet s u
      ∧ (∀ cs ∈ regionCells mine, ∃ z ∈ u.io.inbound, z.id = s.io.nextInbound ∧ z.req = req ∧ z.ro = ro ∧ z.cells = cs
          ∧ (ro = true ∨ (∀ k ∈ s.io.inbound, k.req % 2 ^ 15 ≠ req % 2 ^ 15) → z.asked = true))))
  ∧ (mem → ¬ fits → exec (.inboundWrite req ro cells) s = .next s)
  ∧ (bar → pa % 8 = 0 → (∀ i, i < 8 → bar0Ok s req (pa + i) = true) → ro = true ∨ reqWaits s req = false →
      exec (.inboundWrite req ro word) s = exec (.controlSpaceWrite (8 + req % 2 ^ 16) pa x) s)
  ∧ (bar → pa % 8 = 0 → bar0Ok s req pa = true → bar0Ok s req (pa + 7) = true → reqWaits s req = false →
      Does (.inboundRead req pa 8) s (fun u => Quiet s u ∧ u.io.out = s.io.out ++ [.read req (natBytes 8 (bar0Word s req pa).toNat)]))
  ∧ (bar → bar0Ok s req pa = false → Does (.inboundRead req pa n) s (fun u => Quiet s u ∧ u.io.out = s.io.out ++ [.unsupported req]))
  ∧ (tblFind s.commits s.cur = some c → c.ask = [] → linesOf s c = [] → c.stores = [st] → plainWaits s c = false →
      heldElsewhere s st.pa st.bytes.length = false → MemOk s →
      (c.kind = .io → Does .ioCommit s (fun u => Stored s u st.pa st.bytes ∧ (s.cur < s.nextCommit → tblFind u.commits s.cur = none)
          ∧ (∀ l, (ctxAt s l).chunk.live = true → sigMeets (ctxAt s l).chunk.r (c.w ||| sig) = true → Squashed (ctxAt s l) (ctxAt u l))))
      ∧ (c.kind = .engine → c.barrier = none → Does .engineCommit s (fun u => Stored s u st.pa st.bytes
          ∧ (∀ l, (ctxAt s l).chunk.live = true → sigMeets (ctxAt s l).chunk.r c.w = true → Squashed (ctxAt s l) (ctxAt u l)))))
  ∧ (mem → devOk s req a = true → devOk s req (a + n - 1) = true → n ≤ 4096 → free → Does (.inboundRead req pa n) s (fun u =>
      (∀ l, ctxAt u l = ctxAt s l) ∧ u.io.out = s.io.out ++ [.read req (memBytes u.mem a n)]
      ∧ ((∀ r ∈ keyRegions a n, cpHeld s r = false) → u.mem = s.mem)))
  ∧ (mem → devOk s req a = false ∨ 4096 < n → Does (.inboundRead req pa n) s (fun u => Quiet s u ∧ u.io.out = s.io.out ++ [.unsupported req]))
  ∧ rmw (.atomicopFetchadd req pa n x) (fun old => (old + x.toNat) % bits)
  ∧ rmw (.atomicopSwap req pa n x) (fun _ => x.toNat % bits)
  ∧ rmw (.atomicopCas req pa n x y) (fun old => if old = x.toNat % bits then y.toNat % bits else old)

/-- R130, R293, R294, R296, R298, R403: a back-invalidate leaves the package, and its answer lets the commit go on once every line has
come; a snoop of host memory drops what the I/O-die cache holds of the line; an MSI-X message of an ASID that has one to
announce is sent unless masked, and at most once a microsecond for a vector; a message port stages words 1 to 7 and is delivered
by word 0; a completion answers a system-scope access. The I/O-die cache of host memory (R295) is a list of cells of which a snoop drops a
whole line and which answers a read that it holds (log 72, the model's choice). -/
def Obligations.HostSteps : Prop := ∀ (s : State) (line cid asid req j pv id : Nat) (c : Commit) (x : Word) (op : SysOp),
  let told : State → Out → Prop := fun u o => u.io.out = s.io.out ++ [o]
  let sending := s.io.pendingMsix.contains s.cur = true ∧ (asidWord s s.cur 0x10).getLsbD 63 = true ∧ packageVector s s.cur = some pv
  let hdr := headerSet x 0 (0x8000 + req % 2 ^ 15)
  Does (.backInvalidate line cid) s (fun u => Quiet s u ∧ told u (.backInvalidate line)
      ∧ ∃ d cells, u.agenda = s.agenda ++ [(d, 0, .backInvalidateAnswer line cid cells)])
  ∧ Does (.backInvalidateAnswer line cid []) s (fun u => (∀ l, ctxAt u l = ctxAt s l) ∧ (∀ p ∈ u.io.hostLines, p.1 ≠ line)
      ∧ (tblFind s.commits cid = some c → u.mem = s.mem
          ∧ tblFind u.commits cid = some { c with lines := c.lines.filter (· != line) }
          ∧ (c.lines = [line] → c.kind = .engine → u.agenda = s.agenda ++ [(0, cid, .engineCommit)])
          ∧ (c.lines = [line] → c.kind = .io → u.agenda = s.agenda ++ [(0, cid, .ioCommit)])))
  ∧ Does .cxlCacheSnoop s (fun u => Quiet s u ∧ u.io.cxlCells = s.io.cxlCells.filter (fun e => e.1 / 64 != s.cur)
      ∧ told u (.snoopAnswer s.cur (s.io.cxlCells.filter (fun e => e.1 / 64 == s.cur))))
  ∧ (sending → masked s s.cur = true → exec .msixSend s = .next s)
  ∧ (sending → masked s s.cur = false → (∀ t, tblFind s.io.lastSent pv = some t → t + 1800 ≤ s.now) → Does .msixSend s (fun u => Quiet s u
      ∧ told u (.msix pv) ∧ (∀ a, a ∈ u.io.pendingMsix ↔ a ∈ s.io.pendingMsix ∧ packageVector s a ≠ some pv) ∧ tblFind u.io.lastSent pv = some s.now))
  ∧ (sending → masked s s.cur = false → (∃ t, tblFind s.io.lastSent pv = some t ∧ s.now < t + 1800) → Does .msixSend s (fun u => Quiet s u
      ∧ u.io = s.io))
  ∧ (portOpen s asid req = true → 1 ≤ j → j ≤ 7 → Does (.messagePortWord asid req j x) s (fun u => Quiet s u
      ∧ (stagingOf u asid req).find? (fun p => p.1 == j) = some (j, x)
      ∧ ∀ k, k ≠ j → (stagingOf u asid req).find? (fun p => p.1 == k) = (stagingOf s asid req).find? (fun p => p.1 == k)))
  ∧ (portOpen s asid req = false ∨ j = 0 ∨ 7 < j → exec (.messagePortWord asid req j x) s = .next s)
  ∧ (portOpen s asid req = true → headerOk hdr true false = true → Does (.messagePortSend asid req x) s (fun u => Quiet s u
      ∧ stagingOf u asid req = [] ∧ u.agenda = s.agenda ++ [(0, 2 ^ 32 + s.fox.nextDelivery, .ringDelivery)]
      ∧ ∃ d, tblFind u.fox.deliveries s.fox.nextDelivery = some d ∧ d.asid = asid ∧ d.handle = (asidWord s asid 0x38).toNat % 2 ^ 12
        ∧ wordAt d.msg 0 = hdr ∧ ∀ k w, 1 ≤ k → k ≤ 7 → (stagingOf s asid req).find? (fun p => p.1 == k) = some (k, w) → wordAt d.msg k = w))
  ∧ (tblFind s.sysOps id = some op → Does (.systemScopeCompletion id x) s (fun u => u.mem = s.mem
      ∧ (∀ l, l ≠ op.loc → ctxAt u l = ctxAt s l) ∧ (ctxAt u op.loc).regs = (ctxAt s op.loc).regs
      ∧ (∀ k, (ctxAt s op.loc).run = .stalled (.sys k) → (ctxAt u op.loc).run = .ready)
      ∧ (op.write = true → tblFind u.sysOps id = none ∧ (ctxAt u op.loc).sysOut = (ctxAt s op.loc).sysOut.filter (· != id))
      ∧ (op.write = false → (cxlServes op = false ∨ cxlGet s op.addr op.n = none → tblFind u.sysOps id = some { op with answer := some x })
          ∧ (∀ bs, cxlServes op = true → cxlGet s op.addr op.n = some bs →
              tblFind u.sysOps id = some { op with answer := some (BitVec.ofNat 64 (leNat bs)) }))))

/-- Queues, deliveries, mailboxes, dispatch, gangs and theft. Where the spec leaves a point open it holds the choices of the model that log entry 26 names. -/
def Obligations.FoxSteps : Prop := RingSteps ∧ WorkSteps

/-- R229, R230: a successor walk takes each entry of the list in turn; a decrement counts word 0 down at one point of package order, and
the one that finds 1 releases the task: its status is 1 and its message goes to its queue; the last decrement of a join block puts
its message into the deque. A count of 0, or a reserved field that is not zero (R7), is an event, and nothing is counted; a message with
a reserved header field that is not zero is an event, and is not sent. The reasons of the events for reserved fields (logs 18 and 86) and
for a block that cannot be read (log 19), and the sender place of a released message (log 56), are the model's choice. -/
def Obligations.SuccessorSteps : Prop := ∀ (s v t w z : State) (asid loc i k count list top : Nat) (tcb e blk old : Word) (bs : List Byte) (pa : Nat),
  let n := old.toNat % 2 ^ 32
  let going : State → Prop := fun u => (0, s.cur, Instr.successorWalk asid tcb loc (i + 1)) ∈ u.agenda
  let entry := leNat bs
  let list' := leNat (bs.take 8)
  let count' := leNat (bs.drop 8) % 2 ^ 16
  let formed := list' % 8 = 0 ∧ leNat (bs.drop 8) / 2 ^ 16 = 0
  let box := coreAt w (coreOf loc)
  let headed := let h := (wordAt (wordsOf bs) 0).toNat; h / 2 ^ 40 % 2 ^ 8 = 0 ∧ h / 2 ^ 32 % 2 ^ 4 = 0 ∧ h / 2 ^ 12 % 2 ^ 4 = 0
  (hwAddr s asid blk.toNat true true = .ok pa v → poisoned v pa 8 = false → refuses v (homeOf blk.toNat) none
      (sigRange asid blk.toNat 8) (sigRange asid blk.toNat 8) = false → MemOk v → top = 32 ∨ top = 45 → heldElsewhere v pa 8 = false →
      ∃ u, hwUpdate s asid blk.toNat (countDown top) = .ok (memWord v.mem pa) u
        ∧ let x := (memWord v.mem pa).toNat; Stored v u pa (natBytes 8 (if x % 2 ^ 32 = 0 ∨ x / 2 ^ top ≠ 0 then x else x - 1)))
  ∧ (s.cur < walkUnit 0 → hwRead s asid (tcb.toNat + 0x28) 16 true = .ok bs v → bs.length = 16 →
      (¬ formed → Does (.successorWalk asid tcb loc i) s (fun u => Quiet v u ∧ Posts v u asid 9 cQueueInvalid tcb (BitVec.allOnes 64)))
      ∧ (formed → hwAddr v asid list' false true = .ok pa w → Does (.successorWalk asid tcb loc i) s (fun u => Quiet w u
          ∧ tblFind u.fox.walks w.nextOp = some (list', count') ∧ (0, walkUnit w.nextOp, Instr.successorWalk asid tcb loc 0) ∈ u.agenda)))
  ∧ (s.cur = walkUnit k → tblFind s.fox.walks k = some (list, count) →
      (count ≤ i → Does (.successorWalk asid tcb loc i) s (fun u => Quiet s u ∧ tblFind u.fox.walks k = none))
      ∧ (i < count → hwRead s asid (list + 8 * i) 8 true = .ok bs v →
        (entry % 64 = 0 → isGlobal entry = true → Does (.successorWalk asid tcb loc i) s (fun u => Quiet v u
            ∧ (0, s.cur, Instr.tcbDecrement asid (BitVec.ofNat 64 entry) tcb loc i) ∈ u.agenda))
        ∧ (entry % 64 ≠ 0 ∨ isGlobal entry = false → Does (.successorWalk asid tcb loc i) s (fun u => Quiet v u ∧ going u
            ∧ Posts v u asid 9 cQueueInvalid tcb (BitVec.ofNat 64 i)))))
  ∧ (hwUpdate s asid e.toNat (countDown 45) = .ok old t →
      (old.toNat / 2 ^ 45 ≠ 0 → Does (.tcbDecrement asid e tcb loc i) s (fun u => Quiet t u ∧ going u
          ∧ Posts t u asid 9 cQueueInvalid tcb (BitVec.ofNat 64 i)))
      ∧ (old.toNat / 2 ^ 45 = 0 → n = 0 → Does (.tcbDecrement asid e tcb loc i) s (fun u => Quiet t u ∧ going u ∧ Posts t u asid 6 cQueueInvalid tcb (BitVec.ofNat 64 i)))
      ∧ (old.toNat / 2 ^ 45 = 0 → 1 < n → Does (.tcbDecrement asid e tcb loc i) s (fun u => Quiet t u ∧ going u))
      ∧ (old.toNat / 2 ^ 45 = 0 → n = 1 → hwWrite t asid (e.toNat + 0x38) (natBytes 8 1) true = .ok () w →
        (old.getLsbD 44 = true → Does (.tcbDecrement asid e tcb loc i) s (fun u => Quiet w u ∧ going u))
        ∧ (old.getLsbD 44 = false → hwRead w asid (e.toNat + 8) 32 true = .ok bs z →
          (¬ headed → Does (.tcbDecrement asid e tcb loc i) s (fun u => Quiet z u ∧ going u ∧ Posts z u asid 2 cQueueInvalid tcb (BitVec.ofNat 64 i)))
          ∧ (headed → Does (.tcbDecrement asid e tcb loc i) s (fun u => Quiet z u ∧ going u ∧ ∃ d, tblFind u.fox.deliveries z.fox.nextDelivery = some d ∧ d.asid = asid ∧ d.handle = old.toNat / 2 ^ 32 % 2 ^ 12
              ∧ wordAt d.msg 0 = headerSet (wordAt (wordsOf bs) 0) 0 (coreOf loc)
              ∧ ∀ j, 1 ≤ j → j < 4 → wordAt d.msg j = wordAt (wordsOf bs) j)))))
  ∧ (hwUpdate s asid blk.toNat (countDown 32) = .ok old t →
      (n = 0 ∨ old.toNat / 2 ^ 32 ≠ 0 → Does (.joinDecrement asid blk loc) s (fun u => Quiet t u ∧ Posts t u asid 6 cQueueInvalid blk 0))
      ∧ (old.toNat / 2 ^ 32 = 0 → 1 < n → exec (.joinDecrement asid blk loc) s = .next t)
      ∧ (old.toNat / 2 ^ 32 = 0 → n = 1 → hwRead t asid (blk.toNat + 8) 56 true = .ok bs w → ¬ headed →
          Does (.joinDecrement asid blk loc) s (fun u => Quiet w u ∧ Posts w u asid 2 cQueueInvalid blk 0))
      ∧ (old.toNat / 2 ^ 32 = 0 → n = 1 → hwRead t asid (blk.toNat + 8) 56 true = .ok bs w → headed → box.spawnWait = [] → box.deque.length < 32 →
          Does (.joinDecrement asid blk loc) s (fun u => Quiet w u ∧ ∃ m, (coreAt u (coreOf loc)).deque = m :: box.deque ∧ m.asid = asid
            ∧ wordAt m.msg 0 = headerSet (wordAt (wordsOf bs) 0) 0 (coreOf loc)
            ∧ ∀ j, 1 ≤ j → j < 7 → wordAt m.msg j = wordAt (wordsOf bs) j)))

/-- R236, R239, R240, R260, R261: a group's completion sets its bit of the bitmap, and the last one retires the launch against its
completion TCB; DUP copies that agree complete the group, a first mismatch asks for a third copy, a second is an event; a group
whose thread has run past its budget is stopped; a barrier opens when every member has come. -/
def Obligations.GroupSteps : Prop := ∀ (s t w : State) (lid g gang j : Nat) (x : Launch) (y : GroupSt) (old : Word) (band : Bool),
  let tcb := wordAt x.words 12
  let gone := modFox (dropGang (modGroup t x.lid y.g (fun z => { z with done := true })) x.lid y.g) (fun f =>
    { f with launches := f.launches.filter (fun l => l.lid != x.lid) })
  let groupNow : State → GroupSt → Prop := fun u z => ∃ l, launchAt u lid = some l ∧ groupIn l g = some z
  let ofGroup : State → Nat → Prop := fun u l => (ctxAt u l).run ≠ .dormant ∧ (ctxAt u l).unit.launch = some (lid, g)
  let ls := gangLocs s gang
  let there : Ctx → Bool := fun c => if band then c.unit.atBarb else c.unit.atBar
  let crew : Nat → Bool := fun th => band || th / 64 == j
  let opened : Ctx → Ctx → Prop := fun c c' => c'.unit = (if band then { c.unit with atBarb := false, barbOpen := true }
      else { c.unit with atBar := false, barOpen := true })
    ∧ (c.run = .waiting (if band then 7 else 6) → c'.run = .ready) ∧ c'.regs = c.regs ∧ c'.ctl = c.ctl ∧ c'.chunk = c.chunk
  (launchAt s lid = some x → groupIn x g = some y →
    (y.done = false → y.want ≠ 0 → hwUpdate s x.asid (wordAt x.words 8 + BitVec.ofNat 64 (8 * (g / 64))).toNat
        (fun m => m ||| ((1 : Word) <<< (g % 64))) = .ok old t →
      (x.complete + 1 ≠ ldGroups x.words → Does (.groupComplete lid g) s (fun u => Quiet t u ∧ groupNow u { y with done := true }
          ∧ ∀ l, launchAt u lid = some l → l.complete = x.complete + 1))
      ∧ (x.complete + 1 = ldGroups x.words →
        (tcb = 0 → Does (.groupComplete lid g) s (fun u => Quiet t u ∧ launchAt u lid = none))
        ∧ (tcb ≠ 0 → hwWrite gone x.asid (tcb.toNat + 0x38) (natBytes 8 2) true = .ok () w → Does (.groupComplete lid g) s (fun u =>
            Quiet w u ∧ launchAt u lid = none ∧ u.agenda = w.agenda ++ [(0, 0, .successorWalk x.asid tcb y.lastLoc 0)]))))
    ∧ (y.want ≤ y.crcs.length → (y.want = 2 ∨ y.want = 3) →
      (crcOf y 1 = crcOf y y.want → Does (.dupCompare lid g) s (fun u => Quiet s u ∧ u.agenda = s.agenda ++ [(0, 0, .groupComplete lid g)]))
      ∧ (crcOf y 1 ≠ crcOf y y.want → Does (.dupCompare lid g) s (fun u => Quiet s u
          ∧ (y.want = 2 → groupNow u { y with want := 3 })
          ∧ (y.want = 3 → groupNow u { y with want := 0 } ∧ Posts s u x.asid 0 cDupMismatch x.va (BitVec.ofNat 64 g))))))
  ∧ (overBudget s (me s) = true → (me s).unit.launch = some (lid, g) → (∀ p ∈ s.commits, ¬ (p.2.kind = .chunk ∧ p.2.point = true)) →
      Does .taskHang s (fun u => (∀ l, ofGroup s l → (ctxAt u l).run = .dormant)
        ∧ Posts s u (asidOf (me s)) 0 cTaskHang (me s).unit.launchVa (BitVec.ofNat 64 g)))
  ∧ ((band = false → j < 48) → (∃ l ∈ ls, crew (ctxAt s l).unit.thread = true) → (∀ p ∈ gangSaved s gang, crew p.unit.thread = false) →
      ((∀ l ∈ ls, crew (ctxAt s l).unit.thread = true → there (ctxAt s l) = true) → Does (.barrierRelease gang band) s (fun u => u.mem = s.mem
          ∧ ∀ l ∈ ls, crew (ctxAt s l).unit.thread = true → opened (ctxAt s l) (ctxAt u l)))
      ∧ ((∃ l ∈ ls, crew (ctxAt s l).unit.thread = true ∧ there (ctxAt s l) = false) → Does (.barrierRelease gang band) s (fun u => u.mem = s.mem
          ∧ ∀ l, crew (ctxAt s l).unit.thread = true → ctxAt u l = ctxAt s l)))

/-- R269, R270, R271, R272, R274: a pre-emption takes each thread of its target in turn. It saves the thread into its save area, but for
the spill declaration: the thread is a resume item, or a held one with the hold bit, and the context is free; one whose area faults is at a
machine check; one that cannot be saved yet is tried again. When none is left the pre-emption completes, and posts PREEMPT to each ASID. A
release lets the held threads of its target resume. That a machine check leaves memory alone is the model's choice (log 78). -/
def Obligations.PreemptionSteps : Prop := ∀ (s v z z1 z2 : State) (desc : Word) (excl l pa : Nat) (ls asids : List Nat) (hold : Bool)
    (j : Fin 16) (x : Fin 32) (y : Fin 8),
  let targets := (s.ctxs.map (fun e => e.1)).filter (fun k => k != excl && isTarget s desc k)
  let kind := desc.toNat / 2 ^ 62
  let hit : Saved → Bool := fun x => (kind == 0 && x.asid == desc.toNat % 2 ^ 10) || (kind == 1 && x.origin / 4096 == desc.toNat % 2 ^ 6) || kind == 2
  let r := savePass { s with nextOp := s.nextOp + 1 } desc targets
  let c := ctxAt s l
  let cut := stopMatrix (match c.run with
    | .stalled (.homes _) => modCtx s l pastHomes
    | _ => cancelRun s l) l
  let d := ctxAt cut l
  let area := (d.ctl.privbase + d.ctl.privlen - 4096).toNat
  let status := statusWord (plOf d.ctl) (pplOf d.ctl) (stepOn d.ctl) (tsOn d.ctl) false
  let bytes := areaBytes cut l ⟨1, waitKind c, d.regs.pc, d.chunk.num, qList d.regs, status, d.accMask, 0⟩
  (kind = 3 → exec (.preemptRequest desc excl) s = .next s)
  ∧ (kind ≠ 3 → desc.getLsbD 60 = true → Does (.preemptRequest desc excl) s (fun u => Quiet s u
      ∧ u.agenda = s.agenda ++ [(0, 0, .releaseHeld desc)]))
  ∧ (kind ≠ 3 → desc.getLsbD 60 = false → s.cur < preUnit 0 →
      (targets = [] → Does (.preemptRequest desc excl) s (fun u => Quiet s u ∧ u.agenda = s.agenda ++ [(0, 0, .preemptComplete desc [])]))
      ∧ (r.2 = [] → Does (.preemptRequest desc excl) s (fun u => (∀ k, ctxAt u k = ctxAt r.1 k) ∧ u.mem = r.1.mem
          ∧ (0, 0, Instr.preemptComplete desc (dedup (targets.map (fun k => asidOf (ctxAt s k))))) ∈ u.agenda))
      ∧ (r.2 ≠ [] → Does (.preemptRequest desc excl) s (fun u => (∀ k, ctxAt u k = ctxAt r.1 k) ∧ u.mem = r.1.mem
          ∧ (∀ p, tblFind u.fox.preempts s.nextOp = some p → p.left = r.2 ∧ p.desc = desc)
          ∧ (s.now + 16, preUnit s.nextOp, Instr.preemptRequest desc excl) ∈ u.agenda)))
  ∧ savePass s desc [] = (s, [])
  ∧ (isTarget s desc l = false → savePass s desc (l :: ls) = savePass s desc ls)
  ∧ (isTarget s desc l = true →
      (saveThread s l (desc.getLsbD 61) = .done v → savePass s desc (l :: ls) = savePass v desc ls)
      ∧ (saveThread s l (desc.getLsbD 61) = .later v → savePass s desc (l :: ls) = ((savePass s desc ls).1, l :: (savePass s desc ls).2)))
  ∧ (saveThread s l hold = .done v →
      ((ctxAt v l).run = .dormant ∧ ∃ x ∈ (if hold then v.fox.heldItems else v.fox.resume), x.origin = l)
      ∨ (plOf (ctxAt v l).ctl = 2 ∧ (ctxAt v l).ctl.cause = 0x19 ∧ (ctxAt v l).ctl.tval = 0x400))
  ∧ (c.unit.gangKind = 0 → c.unit.bound = none → mustWait s l = false → MemOk cut → hwAddr cut (asidOf d) area true true = .ok pa z →
      hwWrite cut (asidOf d) area bytes true = .ok () z1 → hwAddr z1 (asidOf d) (area + 0xFF8) true true = .ok (pa + 0xFF8) z2 →
      saveThread s l hold = .done v → (ctxAt v l).run = .dormant →
      let ws := wordsOf (memBytes v.mem pa 4096)
      (wordAt ws 0).toNat = 2 ^ 63 + 2 ^ 48 + 2 ^ 40 + waitKind c % 2 ^ 8 * 2 ^ 32 ∧ wordAt ws 1 = d.regs.pc
      ∧ (wordAt ws 2).toNat = d.chunk.num % 2 ^ 32 * 2 ^ 32 ∧ wordAt ws 7 = 0
      ∧ wordAt ws (8 + j.val) = qGet d.regs j ∧ wordAt ws (24 + j.val) = d.regs.k.get j ∧ vecOf ws (40 + 8 * x.val) = d.regs.v.get x
      ∧ wordAt ws (296 + y.val) = d.regs.m.get y ∧ wordAt ws 306 = d.ctl.asid ∧ wordAt ws 308 = d.ctl.epc
      ∧ (∀ n, 333 ≤ n → n < 510 → wordAt ws n = 0) ∧ wordAt ws 511 = 0)
  ∧ Does (.preemptComplete desc asids) s (fun u => Quiet s u ∧ ∀ a ∈ asids, Posts s u a 0 cPreempt 0 desc)
  ∧ Does (.releaseHeld desc) s (fun u => Quiet s u ∧ u.fox.resume = s.fox.resume ++ s.fox.heldItems.filter hit
      ∧ u.fox.heldItems = s.fox.heldItems.filter (fun x => !hit x))

/-- R348, R377, R378, R381, R383: a step of a matrix command changes only what its opcode says: MMA adds the products of one K block to each
element of its tile (below binary64 and integers, their exact sum is rounded with the scales, and then the addition; in binary64 each product
is added with one rounding); MMAZ first zeroes it; MLOAD and MSTORE move one row; MZERO zeroes; MFENCE does nothing. Then the next
step, or the completion, follows. That the type of A alone says whether the accumulator is a pair of tiles is the model's choice (log 12). -/
def Obligations.MatrixSteps : Prop := ∀ (s v : State) (op k : Nat) (c : Cmd) (rest : List Cmd),
  let core := s.cur
  let cl := core / 8
  let i := opName op
  let w := wordAt c.words
  let tile := keyAcc cl ((w 0).toNat / 2 ^ 16 % 16) 0
  let c' := { c with done := c.done + 1 }
  let stepped : State → Cmd → Prop := fun u d => (∀ l, ctxAt u l = ctxAt s l) ∧ (coreAt u core).cmds = d :: rest
    ∧ (d.done < totalSteps c → (0, core, i) ∈ u.agenda)
    ∧ (totalSteps c ≤ d.done → d.commits = 0 → (0, core, Instr.commandComplete) ∈ u.agenda)
  let kb := (w 3).toNat % 2 ^ 16
  let n := if fmtF64 c.fmt then 8 else 4
  let a : Nat → Nat → List Val × Val := blockOf s core (w 1) (fmtA c.fmt) (fmtInf c.fmt) kb
  let b : Nat → Nat → List Val × Val := blockOf s core (w 2) (fmtB c.fmt) (fmtInf c.fmt) kb
  let ta := tensorScale c.scales ((w 3).getLsbD 23) ((w 3).toNat / 2 ^ 20 % 8)
  let tb := tensorScale c.scales ((w 3).getLsbD 19) ((w 3).toNat / 2 ^ 16 % 8)
  let adds : Nat → State → Prop := fun q u => ∃ bs, bs.length = 4096 * n ∧ Stored s u tile bs ∧ ∀ r j, r < 64 → j < 64 →
    let at_ := n * (64 * r + j)
    leNat ((bs.drop at_).take n) = mmaElem c.fmt (leNat (memBytes s.mem (tile + at_) n)) (a q r).1 (b q j).1
      (if eMx (fmtA c.fmt) then (a q r).2 else ta) (if eMx (fmtB c.fmt) then (b q j).2 else tb) % 2 ^ (8 * n)
  let zeros : State → Prop := fun u => Stored s u tile (List.replicate (if isPair c.fmt c.words then 32768 else 16384) 0)
  let lt := loadType c.words
  let ln := if lt = .df then 8 else 4
  let row := storeRow s core c c.done
  let base := keyScratch core ((w 1).toNat % 2 ^ 18)
  let len := row.1.length
  let items := piecesOf (w 2 + BitVec.ofInt 64 (((w 3).toNat : Int).bmod (2 ^ 32) * c.done)).toNat len
    ++ (if row.2 = [] then [] else piecesOf (w 7 + BitVec.ofNat 64 (2 * c.done)).toNat row.2.length)
  core < 2 ^ 15 → MemOk s → (coreAt s core).cmds = c :: rest → (coreAt s core).stop = .running → c.refused = false → c.begun = true →
    c.done < totalSteps c → stepFault s core c = none → cmdOp c = op →
    (op = 1 → Does .mma s (fun u => stepped u c' ∧ adds c.done u))
    ∧ (op = 2 → Does .mmaz s (fun u => stepped u c' ∧ (c.done = 0 → zeros u) ∧ (c.done ≠ 0 → adds (c.done - 1) u)))
    ∧ (op = 3 → Does .mload s (fun u => stepped u c' ∧ ∃ bs, Stored s u (tile + 64 * ln * c.done) bs
        ∧ (lt = .sf ∨ lt = .w ∨ lt = .df → bs = operandBytes s core (w 1) (64 * ln * c.done) (64 * ln))
        ∧ (lt = .hf ∨ lt = .bf → bs = ((codesOf 16 (operandBytes s core (w 1) (128 * c.done) 128)).map (fun x => natBytes 4 (loadElem lt x))).flatten)))
    ∧ (op = 4 → (w 1).toNat / 2 ^ 62 ≠ 1 → Does .mstore s (fun u => stepped u c' ∧ ∃ m, Stored s m (base + len * c.done) row.1
        ∧ (eMx (storeType c.words) = true → Stored m u (base + 64 * len + 2 * c.done) row.2)
        ∧ (eMx (storeType c.words) = false → u.mem = m.mem)))
    ∧ (op = 4 → (w 1).toNat / 2 ^ 62 = 1 → engineWrite s c.tag.asid (some core) none
          (if (w 6).getLsbD 63 then some (barWordKey core (w 6)) else none) items (row.1 ++ row.2) 0 = .ok k v →
        Does .mstore s (fun u => u.mem = v.mem ∧ (coreAt u core).cmds = { c' with commits := c.commits + k } :: rest))
    ∧ (op = 5 → Does .mzero s (fun u => stepped u c' ∧ zeros u))
    ∧ (op = 6 → Does .mfence s (fun u => stepped u c' ∧ u.mem = s.mem))

/-- R376, R379, R380, R382, R384, R385: the head of a queue issues when it is ready and no ready head of its cluster was accepted earlier,
and tags the tiles it names; a refused one retires without effect; a tile that another context holds stops the queue. A completion
leaves the queue, makes the tiles that it touched T, writes its ticket, and releases its accumulators when it asks; a tile is
written away and freed, for an accspill (R400) unless it is free or the context's own by then, or for a queue whose issuer has retired. A
command waits for an accspill that came before it from its core. -/
def Obligations.MatrixQueue : Prop := ∀ (s v : State) (op cl tile : Nat) (c : Cmd) (rest : List Cmd) (g : AccTag),
  let core := s.cur
  let mine := core / 8
  let named := namedTiles c
  let head : State → Word := fun u => memWord u.mem (keyEngine core 0x408)
  let left : State → Prop := fun u => (coreAt u core).cmds = rest ∧ head u = head s + 1 ∧ (clusterAt u mine).executing ≠ some core
  let touched : State → Prop := fun u => ∀ t ∈ touchedTiles c.fmt c.words, isTileE u core t = false
  let issuer := 8 * c.tag.core + c.tag.ctx
  (core < 2 ^ 15 → MemOk s → (coreAt s core).cmds = c :: rest →
    ((coreAt s core).stop = .running → 1 ≤ op → op ≤ 6 → cmdOp c = op →
      (c.refused = true → Does (opName op) s (fun u => left u ∧ touched u))
      ∧ (c.refused = false → c.begun = false → (clusterAt s mine).executing = none → cmdReady s core c = true → isEarliest s core c = true →
          (∀ p ∈ fifoOperands c.words, (fifoRead s mine p.1).valid = true ∧ (fifoRead s mine p.1).consThreads = false) →
        (spillBefore s core c = true → exec (opName op) s = .next (postIn s 16 core (opName op)))
        ∧ (spillBefore s core c = false → (∀ t ∈ named, ∀ x, tagOf s mine t = some x → sameTag x c.tag = true) → takeTiles s core c named = .ok () v →
          Does (opName op) s (fun u => Quiet v u ∧ (coreAt u core).cmds = { c with begun := true, opened := true } :: rest
            ∧ (clusterAt u mine).executing = some core ∧ (0, core, opName op) ∈ u.agenda
            ∧ ∀ t ∈ named, ∃ x, tagOf u mine t = some x ∧ sameTag x c.tag = true))
        ∧ (spillBefore s core c = false → (∃ t ∈ named, ∃ x, tagOf s mine t = some x ∧ sameTag x c.tag = false) →
          Does (opName op) s (fun u => (coreAt u core).stop = .owned ∧ (coreAt u core).cmds = c :: rest
            ∧ (issuerHere s c.tag = true → ∃ p ∈ (ctxAt u issuer).pending, p.cause = 0x13)))))
    ∧ (c.begun = true → totalSteps c ≤ c.done → c.commits = 0 → Does .commandComplete s (fun u => left u
        ∧ ((wordAt c.words 0).getLsbD 21 = false → touched u) ∧ (issuerHere s c.tag = true → c.tag.core = core → (ctxAt u issuer).ticket = BitVec.ofNat 16 ((wordAt c.words 0).toNat / 2 ^ 32))
        ∧ ((wordAt c.words 0).getLsbD 20 = true → ∀ t ∈ named, tagOf u mine t = none))))
  ∧ (executingTouches s cl tile = true → exec (.accWriteback cl tile) s = .next (postIn s 16 0 (.accWriteback cl tile)))
  ∧ (executingTouches s cl tile = false → (∀ i, i < 8 → (coreAt s (cl * 8 + i)).stop ≠ .owned) →
      let away : Nat → Nat → State → State → Prop := fun asid va v u =>
        spillPieces s asid (piecesOf va 16384) (memBytes s.mem (keyAcc cl tile 0) 16384) = some (v, none) ∧ Quiet v u ∧ tagOf u cl tile = none
      let req := (clusterAt s cl).spills.find? (fun x => x.tile == tile)
      (tagOf s cl tile = some g → req = none → (spillPieces s g.asid (piecesOf (g.image + BitVec.ofNat 64 (16384 * tile)).toNat 16384)
          (memBytes s.mem (keyAcc cl tile 0) 16384) = some (v, none)) →
        Does (.accWriteback cl tile) s (away g.asid (g.image + BitVec.ofNat 64 (16384 * tile)).toNat v))
      ∧ (∀ x, req = some x →
        (tagOf s cl tile = none → Does (.accWriteback cl tile) s (fun u => Quiet s u ∧ tagOf u cl tile = none))
        ∧ (tagOf s cl tile = some g → g.asid = x.asid ∧ g.core = x.core ∧ g.ctx = x.ctx →
            Does (.accWriteback cl tile) s (fun u => Quiet s u ∧ tagOf u cl tile = some g))
        ∧ (tagOf s cl tile = some g → ¬ (g.asid = x.asid ∧ g.core = x.core ∧ g.ctx = x.ctx) →
            (x.va = 0 → Does (.accWriteback cl tile) s (fun u => Quiet s u ∧ tagOf u cl tile = none))
            ∧ (x.va ≠ 0 → spillPieces s x.asid (piecesOf x.va.toNat 16384) (memBytes s.mem (keyAcc cl tile 0) 16384) = some (v, none) →
                Does (.accWriteback cl tile) s (away x.asid x.va.toNat v)))))

/-- R226, R388–R395: an engine takes the packet at the read index of a copy queue; a malformed one is an event. COPY moves a row, FILL
fills one, GATHER and SCATTER move the element that the index table names, TOFIFO puts its rows into one slot of a FIFO, CHAIN reads its
table and its source, and each hop receives the bytes, forwards them and then counts their sectors; a
count that faults is reported, and what was forwarded goes on. The packet is done when its work and its commits are. -/
def Obligations.CopySteps : Prop := ∀ (s v v2 w : State) (op k n e asid h : Nat) (p : Packet) (x : Head) (bs ib : List Byte) (msg : List Word)
    (m : Sram) (ptr : Word) (idx : Nat) (sectors : Option Nat × Nat) (counted : Bool),
  let i := pktName op
  let word := wordAt p.words
  let here : State → List Packet := fun u => (homeAt u p.home).packets
  let same : State → State → Prop := fun w u => Quiet w u
  let rows := (word 3).toNat / 2 ^ 48 + 1
  let len := (word 3).toNat % 2 ^ 32
  let r : Int := p.row
  let src := word 1 + BitVec.ofInt 64 (r * ((word 4).toNat : Int).bmod (2 ^ 32))
  let dst := word 2 + BitVec.ofInt 64 (r * ((word 4).toNat / 2 ^ 32 : Int).bmod (2 ^ 32))
  let rowed : Nat → State → State → Prop := fun rows w u => same w u
    ∧ (p.row + 1 < rows → { p with row := p.row + 1, commits := p.commits + k, finished := false } ∈ here u ∧ (0, p.pid, i) ∈ u.agenda)
    ∧ (rows ≤ p.row + 1 → p.commits + k ≠ 0 → { p with row := p.row + 1, commits := p.commits + k, finished := true } ∈ here u)
    ∧ (rows ≤ p.row + 1 → p.commits + k = 0 → ∀ q ∈ here u, q.pid ≠ p.pid)
  let closedOff : State → State → Prop := fun w u => same w u ∧ (p.commits = 0 → ∀ q ∈ here u, q.pid ≠ p.pid)
    ∧ (p.commits ≠ 0 → { p with finished := true } ∈ here u)
  let failed : State → State → Nat → Nat → Prop := fun w u reason detail => same w u ∧ (∀ q ∈ here u, q.pid ≠ p.pid)
    ∧ Posts w u p.asid 0 cEngineFault p.slot (BitVec.ofNat 64 (reason * 256 + detail % 256))
  let count := (wordAt p.table 2).toNat / 2 ^ 32
  let size := (wordAt p.table 2).toNat % 2 ^ 32
  let tableRow := wordAt p.table 3 + BitVec.ofNat 64 (leNat ib) * wordAt p.table 4
  let cl := (word 2).toNat / 2 ^ 52
  let f := (word 2).toNat / 2 ^ 40 % 2 ^ 8
  let fifo := fifoRead s cl f
  let taken : Packet := { pid := w.nextOp, engine := e, home := homeOf x.desc, asid := asid, slot := BitVec.ofNat 64 (ringSlotVa x.words n),
                          words := msg, table := [], data := [], row := 0, commits := 0, finished := false }
  let takenAt := modHome { headTook (touchHead w asid h) asid h with nextOp := w.nextOp + 1 } (homeOf x.desc) (fun y =>
    { y with packets := y.packets ++ [taken], nextEngine := 1 - e })
  (isGlobal ptr.toNat = false → sramOf s ptr = some m → bs ≠ [] → m.off + bs.length ≤ m.size → firstT s m bs.length = none → MemOk s →
      pktRead s p ptr bs.length idx = .ok (memBytes s.mem (sramKey m) bs.length) s
      ∧ ∃ u, pktWrite s p ptr bs none idx = .ok 0 u ∧ Stored s u (sramKey m) bs)
  ∧ (s.cur = copyUnit asid h → h < 4096 → headOf s asid h = some x → ringHead s asid x.desc x.words = .ok (.entry n msg) v →
      freeEngine (homeAt s (homeOf x.desc)) = some e → pktName ((wordAt msg 0).toNat % 2 ^ 8) = i →
      freeSlot v asid x.desc x.words n (wordAt msg 0) = .ok () w →
      (pktBad takenAt taken = none → Does i s (fun u => same w u ∧ taken ∈ (homeAt u (homeOf x.desc)).packets ∧ (0, w.nextOp, i) ∈ u.agenda))
      ∧ (∀ bad, pktBad takenAt taken = some bad → bad < 256 → Does i s (fun u => same w u
          ∧ Posts w u asid 0 cEngineFault taken.slot (BitVec.ofNat 64 (0x0C00 + bad)))))
  ∧ (s.cur < 2 ^ 40 → packetOf s s.cur = some p → p ∈ here s → pktOp p = op → p.finished = false → (homeAt s p.home).paused = false →
      (op = 1 → pktRead s p src len 1 = .ok bs v → pktWrite v p dst bs (barrierKey v p) 2 = .ok k w → Does .pktCopy s (fun u => rowed rows w u))
      ∧ (op = 5 → pktWrite s p dst ((List.replicate (len / 8) (natBytes 8 (word 1).toNat)).flatten) (barrierKey s p) 2 = .ok k w →
          Does .pktFill s (fun u => rowed rows w u))
      ∧ (op = 3 → p.table ≠ [] → p.row < count → pktRead s p (wordAt p.table 1 + BitVec.ofNat 64 (4 * p.row)) 4 6 = .ok ib v →
          pktRead v p tableRow size 6 = .ok bs v2 → pktWrite v2 p (word 2 + BitVec.ofNat 64 (p.row * size)) bs (barrierKey v2 p) 2 = .ok k w →
          Does .pktGather s (fun u => rowed count w u))
      ∧ (op = 4 → p.table ≠ [] → p.row < count → pktRead s p (wordAt p.table 1 + BitVec.ofNat 64 (4 * p.row)) 4 6 = .ok ib v →
          pktRead v p (word 1 + BitVec.ofNat 64 (p.row * size)) size 1 = .ok bs v2 → pktWrite v2 p tableRow bs (barrierKey v2 p) 6 = .ok k w →
          Does .pktScatter s (fun u => rowed count w u))
      ∧ (op = 3 ∨ op = 4 → p.table ≠ [] → count ≤ p.row → Does i s (fun u => closedOff s u))
      ∧ (op = 2 →
        (32 ≤ f ∨ fifo.valid = false ∨ fifo.prodThreads = true → Does .pktTofifo s (fun u => failed s u 0x04 f))
        ∧ (f < 32 → fifo.valid = true → fifo.prodThreads = false →
          (fifo.size < rows * len → Does .pktTofifo s (fun u => failed s u 0x0C 3))
          ∧ (rows * len ≤ fifo.size → readRows s p rows = .ok bs v → fifoPut v cl f bs = .ok n w →
              (landSectors w (barrierKey v p) n = (v2, true) → Does .pktTofifo s (fun u => closedOff v2 u))
              ∧ (landSectors w (barrierKey v p) n = (v2, false) → Does .pktTofifo s (fun u => failed v2 u 0x11 0xFF)))))
      ∧ (op = 6 → pktRead s p (word 7) 64 7 = .ok ib v → chainBad (wordsOf ib) = none → pktRead v p (word 1) len 1 = .ok bs w →
          Does .pktChain s (fun u => same w u ∧ { p with table := wordsOf ib, data := bs } ∈ here u ∧ (0, p.pid, Instr.chainHop p.pid 0) ∈ u.agenda))
      ∧ (op = 6 → pktRead s p (word 7) 64 7 = .ok ib v → ∀ bad, chainBad (wordsOf ib) = some bad →
          Does .pktChain s (fun u => failed v u 0x0B bad)))
  ∧ (packetOf s k = some p → p ∈ here s → pktOp p = 6 → p.finished = false → p.table ≠ [] →
      hopPut s (wordAt p.table (n + 1)) p.data n = .ok sectors w →
      (n + 1 < (wordAt p.table 0).toNat → landSectors (post w s.cur (.chainHop k (n + 1))) sectors.1 sectors.2 = (v, counted) →
          Does (.chainHop k n) s (fun u => same v u ∧ (0, s.cur, Instr.chainHop k (n + 1)) ∈ u.agenda
            ∧ (counted = false → Posts v u p.asid 0 cEngineFault p.slot (0x1100 + 0xFF))))
      ∧ ((wordAt p.table 0).toNat ≤ n + 1 →
          (landSectors w sectors.1 sectors.2 = (v, true) → Does (.chainHop k n) s (fun u => closedOff v u))
          ∧ (landSectors w sectors.1 sectors.2 = (v, false) → Does (.chainHop k n) s (fun u => failed v u 0x11 0xFF))))

/-- R269, R277, R290, R291, R292, R403: the control space obeys the owner, and for an ASID's words the function that the ASID is assigned
to: pre-emption, the invalidation of an ASID, the lost-event counter, halt, release and one-chunk step of the cores in scope, the
debug window, and the plain words with their fields. Any other writer changes nothing, and without a configuration only the
platform block is served (R303). A release names its scope in the value written, which is the model's choice (log 46). -/
def Obligations.ControlSpaceSteps : Prop := ∀ (s : State) (m asid die off l : Nat) (x y : Word) (n : Fin 16),
  let o := ownership s
  let owns := s.io.verified = true ∧ o.held = true ∧ o.stale = false ∧ masterOf s m = some o.owner
  let kind := x.toNat / 2 ^ 61 % 4
  let scope : Nat → Prop := fun c => c / 512 = die ∧ c % 512 < 8 * Config.clusters die
    ∧ (kind = 0 ∨ (kind = 1 ∧ c % 512 / 8 = x.toNat / 2 ^ 6 % 2 ^ 6) ∨ (kind = 2 ∧ c % 512 = x.toNat / 2 ^ 3 % 2 ^ 9))
  let reg := bar0Get s (dieOff die 8)
  let stepped := die * 512 + reg.toNat / 2 ^ 3 % 2 ^ 9
  let loc := die * 4096 + (bar0Get s (dieOff die 0x20)).toNat % 2 ^ 12
  let cell : Nat → Nat → Nat := fun a w => 0x100000 + 256 * a + w
  let write : Nat → Word → Instr := fun off x => .controlSpaceWrite m off x
  let put : Nat → Word → Prop := fun off x' => Does (write off x) s (fun u => Quiet s u ∧ bar0Get u off = x'
    ∧ ∀ o, o ≠ off → bar0Get u o = bar0Get s o)
  (¬ owns → exec (.preEmptionRegister m x) s = .next s ∧ exec (.haltCores m die x) s = .next s ∧ exec (.haltRelease m die x) s = .next s
      ∧ exec (.stepCore m die) s = .next s ∧ exec (.debugWindowWrite m die off x) s = .next s)
  ∧ (asidMay s m asid = false → exec (.asidInvalidate m asid) s = .next s ∧ exec (.lostEventClear m asid) s = .next s)
  ∧ (owns → asidMay s m asid = true ∧ Does (.preEmptionRegister m x) s (fun u => Quiet s u
      ∧ u.agenda = s.agenda ++ [(0, 0, .preemptRequest x (2 ^ 18))]))
  ∧ (asidMay s m asid = true →
      Does (.asidInvalidate m asid) s (fun u => Quiet s u ∧ bar0Get u (cell asid 0x28) = 1
        ∧ tblFind u.tinvs s.nextOp = some { loc := none, asid := asid, lo := 2 ^ 55, hi := 2 ^ 56 - 1, homes := List.range 16 }
        ∧ ∀ h, h < 16 → (0, 0, Instr.tinvHome h s.nextOp) ∈ u.agenda)
      ∧ Does (.lostEventClear m asid) s (fun u => Quiet s u ∧ bar0Get u (cell asid 0x18) = 0
        ∧ ∀ o, o ≠ cell asid 0x18 → bar0Get u o = bar0Get s o))
  ∧ (owns → Does (.haltCores m die x) s (fun u => Quiet s u ∧ (bar0Get u (dieOff die 8)).getLsbD 63 = true
        ∧ ∀ c, (scope c → coreAt u c = { coreAt s c with halted := true, stepping := .off }) ∧ (¬ scope c → coreAt u c = coreAt s c)))
  ∧ (owns → s.io.window = [] → Does (.haltRelease m die x) s (fun u => Quiet s u ∧ (bar0Get u (dieOff die 8)).getLsbD 63 = false
        ∧ ∀ c, (scope c → (coreAt s c).halted = true → coreAt u c = { coreAt s c with halted := false, stepping := .off })
          ∧ (¬ scope c ∨ (coreAt s c).halted = false → coreAt u c = coreAt s c)))
  ∧ (owns → scope (l / 8) → runsThread (ctxAt s l) = true →
      (s.io.window = [(l, 8, y)] → Does (.haltRelease m die x) s (fun u => (ctxAt u l).regs.pc = y &&& ~~~3 ∧ u.io.window = []))
      ∧ (s.io.window = [(l, 0x40 + 8 * n.val, y)] → Does (.haltRelease m die x) s (fun u => qGet (ctxAt u l).regs n = y ∧ u.io.window = []))
      ∧ (s.io.window = [(l, 0xC0 + 8 * n.val, y)] → Does (.haltRelease m die x) s (fun u => (ctxAt u l).regs.k.get n = y ∧ u.io.window = [])))
  ∧ (owns → (coreAt s stepped).halted = true → s.io.window = [] → Does (.stepCore m die) s (fun u => Quiet s u
      ∧ coreAt u stepped = { coreAt s stepped with halted := false, stepping := .any } ∧ ∀ c, c ≠ stepped → coreAt u c = coreAt s c))
  ∧ (owns → (coreAt s (loc / 8)).halted = true → Does (.debugWindowWrite m die off x) s (fun u => Quiet s u
      ∧ u.io.window = s.io.window ++ [(loc, off, x)]))
  ∧ (vfOf m = none → s.io.verified = true →
      exec (write 0x1000 x) s = exec (.preEmptionRegister m x) s
      ∧ (asid < 1024 → exec (write (cell asid 0x18) x) s = exec (.lostEventClear m asid) s
          ∧ exec (write (cell asid 0x28) x) s = exec (.asidInvalidate m asid) s)
      ∧ (die < 64 → exec (write (dieOff die 8) x) s = (if x.getLsbD 63 then exec (.haltCores m die x) s else exec (.haltRelease m die x) s)
          ∧ exec (write (dieOff die 0x10) 1) s = exec (.stepCore m die) s
          ∧ (off < 0x1000 → off % 8 = 0 → exec (write (dieOff die (0x1000 + off)) x) s = exec (.debugWindowWrite m die off x) s))
      ∧ (asid < 1024 → asidMay s m asid = true → put (cell asid 8) (x &&& 0x00FFFFFFFFFF8000) ∧ put (cell asid 0x10) (x &&& 0x800007FF00000FFF)
          ∧ put (cell asid 0x20) (x &&& ~~~31) ∧ put (cell asid 0x30) (x &&& 0x800000000000007F) ∧ put (cell asid 0x38) (x &&& 0xFFF))
      ∧ (owns → put 0x1008 (x &&& 0x1FFC0000000) ∧ (die < 64 → put (dieOff die 0x20) (x &&& 0xFFF))))
  ∧ (vfOf m = none → s.io.verified = false → 0x1000 ≤ off → exec (write off x) s = .next s)
  ∧ (off % 8 ≠ 0 → exec (write off x) s = .next s)

/-- R304, R305: nobody owns the package, or a stale owner does, until an election of 10 ms closes: the lowest id that claimed wins. The
owner is stale once it has sent nothing for one second, and may hand over at once. A master that claims again while the window is open
replaces its nonce. A writer that is no master changes nothing. The second of an elected owner begins at the close of the window, and
a hand-over names the owner's nonce: the model's choices (log 21). -/
def Obligations.OwnershipSteps : Prop := ∀ (s : State) (m id next t : Nat) (nonce nextNonce : BitVec 32),
  let was := s.io.ownership
  let o := ownership s
  let fresh := o.held = true ∧ o.stale = false
  let mine := fresh ∧ masterOf s m = some o.owner ∧ o.nonce = nonce
  let closes := t + Config.cycles10ms
  let becomes : Ownership → List (Nat × Nat × Instr) → State → Prop := fun x later u => Quiet s u ∧ u.io = { s.io with ownership := x }
    ∧ u.agenda = s.agenda ++ later
  (was.window = some t → closes ≤ s.now → was.claims ≠ [] → ∃ c ∈ was.claims, (∀ d ∈ was.claims, c.1 ≤ d.1)
      ∧ o = { held := true, stale := decide (closes + Config.cycles1s ≤ s.now), owner := c.1, nonce := c.2, staleAt := closes + Config.cycles1s,
              window := none, claims := [] })
  ∧ (was.window = none ∨ (was.window = some t ∧ s.now < closes) →
      o = { was with stale := was.stale || (was.held && decide (was.staleAt ≤ s.now)) })
  ∧ (masterOf s m = none → exec (.claim m nonce) s = .next s)
  ∧ (masterOf s m = some id → fresh → Does (.claim m nonce) s (becomes o []))
  ∧ (masterOf s m = some id → ¬ fresh →
      (o.window = none → Does (.claim m nonce) s (becomes { o with window := some s.now, claims := [(id, nonce)] }
          [(s.now + Config.cycles10ms, 0, .electionClose)]))
      ∧ (o.window ≠ none → (∀ c ∈ o.claims, c.1 ≠ id) → Does (.claim m nonce) s (becomes { o with claims := o.claims ++ [(id, nonce)] } []))
      ∧ (o.window ≠ none → (∃ c ∈ o.claims, c.1 = id) → Does (.claim m nonce) s (becomes
          { o with claims := o.claims.map (fun c => if c.1 = id then (id, nonce) else c) } [])))
  ∧ (was.window = some t → closes ≤ s.now → Does .electionClose s (becomes o [(max s.now (closes + Config.cycles1s), 0, .ownerStale)]))
  ∧ (was.window = none ∨ (was.window = some t ∧ s.now < closes) → exec .electionClose s = .next s)
  ∧ (mine → Does (.heartbeat m nonce) s (becomes { o with staleAt := s.now + Config.cycles1s } [(s.now + Config.cycles1s, 0, .ownerStale)]))
  ∧ (¬ mine → exec (.heartbeat m nonce) s = .next s ∧ exec (.successor m nonce next nextNonce) s = .next s)
  ∧ (mine → next < 8 → Does (.successor m nonce next nextNonce) s (becomes {
      held := true, stale := false, owner := next, nonce := nextNonce, staleAt := s.now + Config.cycles1s, window := none, claims := [] } [(s.now + Config.cycles1s, 0, .ownerStale)]))
  ∧ Does .ownerStale s (becomes o [])

/-- R303, R306, R307, R308, R309: an image switch, the pause and return of a home, the retirement of a die and the retired mask each end
with SERVICE_COMPLETE; a reset brings every unit to its reset state, keeps device memory, and loses the dump area unless it is kept;
a dump stops the dies and leaves its header at the dump area; a clock step changes time only. Memory kept over a reset (log 30), the
values after reset that the spec gives nowhere (logs 5, 47) and the dump's layout where it is open (log 31) are the model's choices. -/
def Obligations.ServiceSteps : Prop := ∀ (s v : State) (img die core : Nat) (target keep down : Bool),
  let done : Nat × Nat × Instr := (0, 0, .serviceComplete)
  let base := homeBytes s 0 - 2 ^ 30
  (img ≤ 4 → Does (.switchImage img target) s (fun u => Quiet s u ∧ u.agenda = s.agenda ++ [done] ∧ u.io.activeB.contains img = target
      ∧ ∀ j, j ≠ img → u.io.activeB.contains j = s.io.activeB.contains j))
  ∧ (s.cur < 16 →
      ((homeAt s s.cur).paused = true → Does .recalibrateHome s (fun u => Quiet s u ∧ (homeAt u s.cur).paused = false
          ∧ u.agenda = s.agenda ++ [done]))
      ∧ ((homeAt s s.cur).paused = false → Does .recalibrateHome s (fun u => Quiet s u ∧ (homeAt u s.cur).paused = true
          ∧ ∃ d, d ≤ 90000 ∧ u.agenda = s.agenda ++ [(s.now + d, s.cur, .recalibrateHome)])))
  ∧ (s.io.service ≠ some (3, s.cur) → exec .retireDie s = .next s)
  ∧ (s.io.service = some (3, s.cur) → busyOn s s.cur ≠ [] → Does .retireDie s (fun u => (s.now + 16, s.cur, Instr.retireDie) ∈ u.agenda
      ∧ ∃ e ∈ u.fox.preempts.map (fun p => p.2.desc) ++ u.agenda.filterMap (fun e => match e.2.2 with
          | .preemptRequest d _ => some d
          | _ => none), e = BitVec.ofNat 64 (2 ^ 62 + s.cur)))
  ∧ (s.io.service = some (3, s.cur) → s.cur < 64 → busyOn s s.cur = [] → spillDie s s.cur = some v → commandsOn v s.cur = false →
      trafficOn v s.cur = false → Does .retireDie s (fun u => u.io.retired = s.io.retired ||| ((1 : BitVec 64) <<< s.cur) ∧ done ∈ u.agenda
        ∧ (dieAt u s.cur).heads = [] ∧ (dieAt u s.cur).l2 = [] ∧ (core / 512 = s.cur → (coreAt u core).sets = [])))
  ∧ Does .writeRetiredMask s (fun u => Quiet s u ∧ u.agenda = s.agenda ++ [done]
      ∧ u.io.flash = { s.io.flash with retired := s.io.flash.retired ||| s.io.retired }
      ∧ u.io.copyA.data = { s.io.copyA.data with retired := s.io.flash.retired ||| s.io.retired }
      ∧ u.io.copyB.data = { s.io.copyB.data with retired := s.io.flash.retired ||| s.io.retired })
  ∧ Does .serviceComplete s (fun u => Quiet s u ∧ u.io = { s.io with service := none })
  ∧ (MemOk s → Does (.resetPackage keep) s (fun u => (∀ l, ctxAt u l = ctxAt State.reset l) ∧ (∀ c, coreAt u c = coreAt State.reset c)
      ∧ (∀ h, homeAt u h = homeAt State.reset h) ∧ u.agenda = [] ∧ u.commits = [] ∧ u.io.copyA = s.io.copyA ∧ u.io.copyB = s.io.copyB
      ∧ u.io.verified = (s.io.copyA.verifies || s.io.copyB.verifies) ∧ (s.io.copyA.verifies = true → u.io.flash = s.io.copyA.data)
      ∧ (s.io.copyA.verifies = false → s.io.copyB.verifies = true → u.io.flash = s.io.copyB.data) ∧ u.io.ownership.held = false
      ∧ (∀ a, a < 2 ^ 41 → keep = true ∨ ¬ (base ≤ a ∧ a < base + 2 ^ 30) → memGet u.mem a = memGet s.mem a)))
  ∧ (MemOk s → Does .fatalErrorDump s (fun u => u.io = { s.io with stopped := true } ∧ (∀ l, ctxAt u l = ctxAt s l)
      ∧ memWord u.mem base = 0x444D505800000001 ∧ memWord u.mem (base + 8) = BitVec.ofNat 64 s.now
      ∧ ∀ a, a < base ∨ base + 2 ^ 30 ≤ a → memGet u.mem a = memGet s.mem a))
  ∧ Does (.powerThrottle die down) s (fun u => Quiet s u ∧ (dieAt u die).throttle = (if down then min 18 ((dieAt s die).throttle + 1)
      else (dieAt s die).throttle - 1) ∧ ∀ d, d ≠ die → dieAt u d = dieAt s d)

/-- R11, R23, R25, R63–R68: a portable module is translated before it is loaded, or its cached image is returned: each word of page
0x7E becomes its native word and every other word stays; a module whose header, section table or records are malformed is refused,
and nothing of it is loaded. `.text` lies before `.data`, each from a fresh page on; relocations take their symbols' values; a load
fills the handler table. SHA-256 is taken from its own standard (log 8); the native format records (log 27), the frames (log 28) and
what a module brings beside its file (log 39) are the model's choices. -/
def Obligations.LoaderSteps : Prop := ∀ (s t : State) (m : Module) (x y : Section) (xs : List Section) (g bs rec' : List Byte) (img : Image)
    (fmts : List (List Byte)) (w : BitVec 32) (v : Word) (h i j k o : Nat) (r : Region) (lay : List Placed) (p : Placed),
  let f := m.file
  let field : Nat → Nat → Nat → Nat := fun a hi lo => (fileWord f a).toNat / 2 ^ lo % 2 ^ (hi - lo + 1)
  let headed := 64 ≤ f.length ∧ fileWord f 0 = 0x4F4D5841 ∧ field 8 63 32 = 0 ∧ field 8 23 17 = 0 ∧ field 8 15 0 = 1
    ∧ fileWord f 48 = 0 ∧ fileWord f 56 = 0 ∧ (field 8 16 16 = 1 → field 8 31 24 = 1)
  let sound := headed ∧ sectionsOf f = some xs
  let fresh := moduleAt s s.cur = some m ∧ m.refused = false ∧ m.loaded = false
  let digest := sha256 (f.take 64 ++ (xs.map (sectionBytes f)).flatten)
  let refusedNow : State → Prop := fun u => Quiet s u ∧ moduleAt u s.cur = some { m with refused := true }
  let used : Image → State → Prop := fun z u => Quiet s u ∧ u.agenda = s.agenda ++ [(0, s.cur, .loaderStart)]
    ∧ moduleAt u s.cur = some { m with file := z.file } ∧ (z.file.length ≤ 2 ^ 28 → u.images.head? = some z)
  let once := translateText fmts 1 (natBytes 4 w.toNat)
  let s1 := modModule s s.cur (fun z => { z with loaded := true })
  let va := 2 ^ 55 + r.home * 2 ^ 51 + r.base
  let relocated : Nat → Nat → (Nat → Nat) → Prop := fun kind n new => kind < 6 → i < 256 → k < 2 ^ 16 → o < 2 ^ 32 →
    fileWord rec' 0 = BitVec.ofNat 64 (o * 2 ^ 32 + k * 2 ^ 16 + i * 2 ^ 8 + kind) → nth xs i = some x → nth m.symbols k = some (.value v) →
    o + n ≤ x.size → x.start + x.size ≤ f.length →
    ∃ z, relocate m xs lay f rec' = some z ∧ leNat ((z.drop (x.start + o)).take n) = new (leNat ((f.drop (x.start + o)).take n))
  (w.toNat / 2 ^ 25 ≠ 0x7E → once = some (natBytes 4 w.toNat))
  ∧ (∀ i, nativeOf fmts w = some i → w.toNat / 2 ^ 25 = 0x7E → once = some (natBytes 4 (encode i).toNat))
  ∧ nativeOf fmts 0xFC400000 = some .cend ∧ nativeOf fmts 0xFC400001 = some .nop
  ∧ (headed → xs = [x, y] → x.kind = 1 → y.kind = 5 → 64 ≤ x.start → x.start + x.size ≤ f.length →
      translateText (runs 16 ((sectionBytes f y).length / 16) (sectionBytes f y)) (x.size / 4) (sectionBytes f x) = some bs →
      ∃ z, nativeFile f xs = some z ∧ sectionBytes z x = bs ∧ fileWord z 8 = 0x1010001
        ∧ ∀ a, a < 8 ∨ (16 ≤ a ∧ a < x.start) ∨ x.start + x.size ≤ a → nth z a = nth f a)
  ∧ (fresh → field 8 16 16 = 0 →
      Does .loaderStart s (fun u => Quiet s u ∧ u.agenda = s.agenda ++ [(0, s.cur, .sprinnyTranslate)])
      ∧ (¬ headed ∨ sectionsOf f = none → Does .sprinnyTranslate s refusedNow)
      ∧ (sound → cachedImage s m digest = some img → Does .sprinnyTranslate s (used img))
      ∧ (sound → cachedImage s m digest = none → nativeFile f xs = none → Does .sprinnyTranslate s refusedNow)
      ∧ (sound → cachedImage s m digest = none → nativeFile f xs = some g →
          Does .sprinnyTranslate s (used { digest := digest, version := translatorVersion s, file := g })))
  ∧ (fresh → field 8 16 16 = 1 →
      (¬ headed ∨ sectionsOf f = none → Does .loaderStart s refusedNow)
      ∧ (sound → m.regions = [] → recordsOf f xs 6 = [] → m.queues = [] → m.launches = [] → m.handlers = [(h, .value v)] → h < 4096 →
          v.toNat < 2 ^ 56 → hwWrite s1 m.asid (tableVa s m.asid 0 h) (natBytes 8 (2 ^ 63 + v.toNat)) false = .ok () t →
          exec .loaderStart s = .next t))
  ∧ (r.home < 16 → r.base < 2 ^ 51 → r.sects = [j, i] → nth xs i = some x → nth xs j = some y → x.kind = 1 → y.kind = 2 →
      layRegion xs r = [{ num := i, va := va, region := r, sect := x },
                        { num := j, va := va + (x.size + 65535) / 65536 * 65536, region := r, sect := y }])
  ∧ relocated 1 8 (fun _ => (v + fileWord rec' 8).toNat)
  ∧ (lay.find? (fun q => q.num == i) = some p → relocated 2 4 (fun old => old / 2 ^ 15 * 2 ^ 15
      + ((v + fileWord rec' 8 - BitVec.ofNat 64 (p.va + o)).sshiftRight 2).toNat % 2 ^ 15))
  ∧ (moduleAt s s.cur = none ∨ (∃ z, moduleAt s s.cur = some z ∧ (z.refused = true ∨ z.loaded = true)) →
      exec .loaderStart s = .next s ∧ exec .sprinnyTranslate s = .next s)

/-- R42–R59: every word of the opcode table's instructions decodes to the instruction it encodes, with every operand at every value
that the encoding admits, and the bytes that follow are left. -/
def Obligations.EncodeDecodeRoundTrip : Prop := ∀ (i : Instr) (rest : List Byte), wellFormed i = true → hasWord i = true →
  decode (encodeBytes i ++ rest) = .ok (i, rest)

/-- R48, R49, R61: a word that decodes is the one word of its instruction, and that instruction is well-formed: no bit of a word is
ignored, and a word with a reserved field that is not zero is refused. -/
def Obligations.OneWordPerInstruction : Prop := ∀ (w : BitVec 32) (i : Instr), decodeWord w = .ok i →
  encode i = w ∧ wellFormed i = true ∧ hasWord i = true

/-- Words that the spec writes out decode to the instructions they stand for (R5: the byte at the lowest address is the least
significant). -/
def Obligations.SpecWordsDecode : Prop :=
  decode [0x0C, 0x80, 0x89, 0x4B] = .ok (.bge (.k 8) (.k 3) 12, [])
  ∧ decodeWord 0x0400DAC0 = .ok (.sel (.q 0) (.q 1) (.k 6) (.keep 6))
  ∧ decodeWord 0x03114E06 = .ok (.div (.k 1) (.q 2) (.keep 3) true)
  ∧ decodeWord 0xC8004840 = .ok (.fcvt (.q 0) (.keep 2) .w .sf)
  ∧ decodeWord 0x6709E002 = .ok (.ldp (.k 0) (.keep 3) .pred 2)
  ∧ decodeWord 0x87195669 = .ok (.amorCas (.k 1) (.k 2) (.k 3) (.keep 5) false)
  ∧ decodeWord 0xA7106400 = .ok (.deq (.k 1) (.keep 9))
  ∧ decodeWord 0xBDA00003 = .ok (.trail (.k 10) .d)
  ∧ decodeWord 0xE4308802 = .ok (.vadd 3 1 2 0 .w)
  ∧ decodeWord 0xFF088206 = .ok (.rmode (.k 0) (.k 1) .cp)
  ∧ decodeWord 0xFE000301 = .error .unassigned

/-- R5, R61, R94, R99, R144: when the turn is a context's, and no trap, held chunk or chunk end comes first, a step reads the word at the
PC through its translation (under the page's name at its home, R182); when its bytes decode to `i` it executes `i`, with a live chunk and its checkpoint taken; a word that
decodes to nothing raises ILLEGAL with the PC and the word. (`settle` may cut a held chunk before the instruction, R111; `tickOver`
moves the clock.) -/
def Obligations.StepRunsDecoded : Prop := ∀ (s : State) (l : Nat) (lf : Leaf) (i : Instr) (e : DecodeError) (t v z : State),
  let c := ctxAt s l
  let pc := c.regs.pc.toNat
  let asid := asidOf c
  let started := stepBegun { s with cur := l } l
  let begun := modMe started beginCtx
  let reached := if pteMode lf.pte = 2 then claimCp begun (homeOf pc) (leafAddr lf pc) asid pc (coreOf l) else begun
  let a := leafAddr lf pc
  let bytes := memBytes v.mem a 4
  let s1 := modMe v (fun c => { c with word := BitVec.ofNat 32 (leNat bytes) })
  pick s (turns s) = some (.issue l) →
    (chunkEmpty c = true → c.tail = none ∧ (firstPending c = none ∨ underWay s l = true)) → (c.chunk.live = true ∨ c.chunk.conflicts < 4 ∨ c.chunk.held = true) →
    (c.chunk.live = true → c.chunk.count < chunkLimit c) → pc < 2 ^ 56 → isGlobal pc = true → pc % 4 = 0 → a % 8 = pc % 8 →
    watchHit begun asid pc 4 [62] = none → tlbFind s asid pc = some lf → leafFault begun lf pc ⟨false, false, true⟩ (isUser c) = none →
    pteSystem lf.pte = false → homeHolds begun (homeOf pc) a asid pc = false →
    (pteMode lf.pte = 2 → ∀ o ∈ cpOwnerOf reached (homeOf pc) a, o = coreOf l) →
    throughFilter reached (homeOf pc) asid false (namedRegions a pc 4) = (some v, z) → a / 8 * 8 ∉ v.poison →
    (∀ x ∈ v.codeLog, x.1 ≠ a / 8 * 8) →
    (decode bytes = .ok (i, []) → step s = match exec i s1 with
      | .next u => .next (tickOver (settle s1 l u))
      | other => other)
    ∧ (decode bytes = .error e → CanTrap s1 t → ∃ u, step s = .next u
        ∧ TookTrap (me s1) (ctxAt u l) 0x01 c.regs.pc c.regs.pc (BitVec.ofNat 64 (leNat bytes)))

/-- The canonical form of committed memory is kept by every step. -/
def Obligations.MemoryFormKept : Prop := ∀ (s t : State), MemOk s → step s = .next t → MemOk t

/-- R31, R33, R34, R203, R217, R303, R305: right after reset every context is dormant, at firmware level, m0 reads as all ones, each core's
generator holds its start value, no directory entry has a copy, and nobody owns the package; memory is in its canonical form. -/
def Obligations.ResetValues : Prop :=
  (∀ l, (ctxAt State.reset l).run = .dormant ∧ plOf (ctxAt State.reset l).ctl = 2 ∧ maskGet (ctxAt State.reset l).regs 0 = BitVec.allOnes 64
    ∧ chunkEmpty (ctxAt State.reset l) = true)
  ∧ (∀ core, (coreAt State.reset core).rng = 0x6A09E667F3BCC908 ^^^ BitVec.ofNat 64 core)
  ∧ (∀ home region, (dirAt State.reset home region).state = 0)
  ∧ State.reset.io.ownership.held = false ∧ State.reset.agenda = [] ∧ MemOk State.reset
end

