-- ==== Sys2Proof/Laws/State.lean ====
section
/-! SUPPORT. What each update of the state leaves in each field, and what the readers of units see after it. -/

namespace Sys2Proof.Machine

set_option Elab.async false

/-! ## Tables -/

@[simp] theorem tblFind_tblSet_same {α : Type} (t : Tbl α) (i : Nat) (x : α) : tblFind (tblSet t i x) i = some x := by
  induction t with
  | nil => simp [tblSet, tblFind]
  | cons e rest ih =>
    obtain ⟨j, y⟩ := e
    simp only [tblSet]
    split
    · simp [tblFind]
    · split
      · simp [tblFind]
      · simp [tblFind, ih, Ne.symm ‹¬i = j›]

theorem tblFind_tblSet_other {α : Type} (t : Tbl α) {i k : Nat} (x : α) (h : k ≠ i) :
    tblFind (tblSet t i x) k = tblFind t k := by
  induction t with
  | nil => simp [tblSet, tblFind, h.symm]
  | cons e rest ih =>
    obtain ⟨j, y⟩ := e
    simp only [tblSet]
    split
    · simp [tblFind, h.symm]
    · split
      · rename_i hj; subst hj; simp [tblFind, h.symm]
      · simp only [tblFind, ih]

@[simp] theorem tblGet_tblSet_same {α : Type} (t : Tbl α) (i : Nat) (x d : α) : tblGet (tblSet t i x) i d = x := by
  simp [tblGet]

theorem tblGet_tblSet_other {α : Type} (t : Tbl α) {i k : Nat} (x d : α) (h : k ≠ i) :
    tblGet (tblSet t i x) k d = tblGet t k d := by
  simp [tblGet, tblFind_tblSet_other t x h]

/-! ## Fields after an update -/

@[simp] theorem setCtx_now (s : State) (l : Nat) (c : Ctx) : (setCtx s l c).now = s.now := rfl
@[simp] theorem setCtx_tick (s : State) (l : Nat) (c : Ctx) : (setCtx s l c).tick = s.tick := rfl
@[simp] theorem setCtx_order (s : State) (l : Nat) (c : Ctx) : (setCtx s l c).order = s.order := rfl
@[simp] theorem setCtx_cur (s : State) (l : Nat) (c : Ctx) : (setCtx s l c).cur = s.cur := rfl
@[simp] theorem setCtx_mem (s : State) (l : Nat) (c : Ctx) : (setCtx s l c).mem = s.mem := rfl
@[simp] theorem setCtx_poison (s : State) (l : Nat) (c : Ctx) : (setCtx s l c).poison = s.poison := rfl
@[simp] theorem setCtx_codeLog (s : State) (l : Nat) (c : Ctx) : (setCtx s l c).codeLog = s.codeLog := rfl
@[simp] theorem setCtx_ctxs (s : State) (l : Nat) (c : Ctx) : (setCtx s l c).ctxs = tblSet s.ctxs l c := rfl
@[simp] theorem setCtx_cores (s : State) (l : Nat) (c : Ctx) : (setCtx s l c).cores = s.cores := rfl
@[simp] theorem setCtx_clusters (s : State) (l : Nat) (c : Ctx) : (setCtx s l c).clusters = s.clusters := rfl
@[simp] theorem setCtx_dies (s : State) (l : Nat) (c : Ctx) : (setCtx s l c).dies = s.dies := rfl
@[simp] theorem setCtx_homes (s : State) (l : Nat) (c : Ctx) : (setCtx s l c).homes = s.homes := rfl
@[simp] theorem setCtx_arbs (s : State) (l : Nat) (c : Ctx) : (setCtx s l c).arbs = s.arbs := rfl
@[simp] theorem setCtx_commits (s : State) (l : Nat) (c : Ctx) : (setCtx s l c).commits = s.commits := rfl
@[simp] theorem setCtx_nextCommit (s : State) (l : Nat) (c : Ctx) : (setCtx s l c).nextCommit = s.nextCommit := rfl
@[simp] theorem setCtx_fox (s : State) (l : Nat) (c : Ctx) : (setCtx s l c).fox = s.fox := rfl
@[simp] theorem setCtx_io (s : State) (l : Nat) (c : Ctx) : (setCtx s l c).io = s.io := rfl
@[simp] theorem setCtx_sysOps (s : State) (l : Nat) (c : Ctx) : (setCtx s l c).sysOps = s.sysOps := rfl
@[simp] theorem setCtx_tinvs (s : State) (l : Nat) (c : Ctx) : (setCtx s l c).tinvs = s.tinvs := rfl
@[simp] theorem setCtx_rmodes (s : State) (l : Nat) (c : Ctx) : (setCtx s l c).rmodes = s.rmodes := rfl
@[simp] theorem setCtx_nextOp (s : State) (l : Nat) (c : Ctx) : (setCtx s l c).nextOp = s.nextOp := rfl
@[simp] theorem setCtx_modules (s : State) (l : Nat) (c : Ctx) : (setCtx s l c).modules = s.modules := rfl
@[simp] theorem setCtx_images (s : State) (l : Nat) (c : Ctx) : (setCtx s l c).images = s.images := rfl
@[simp] theorem setCtx_agenda (s : State) (l : Nat) (c : Ctx) : (setCtx s l c).agenda = s.agenda := rfl
@[simp] theorem modCtx_now (s : State) (l : Nat) (f : Ctx → Ctx) : (modCtx s l f).now = s.now := rfl
@[simp] theorem modCtx_tick (s : State) (l : Nat) (f : Ctx → Ctx) : (modCtx s l f).tick = s.tick := rfl
@[simp] theorem modCtx_order (s : State) (l : Nat) (f : Ctx → Ctx) : (modCtx s l f).order = s.order := rfl
@[simp] theorem modCtx_cur (s : State) (l : Nat) (f : Ctx → Ctx) : (modCtx s l f).cur = s.cur := rfl
@[simp] theorem modCtx_mem (s : State) (l : Nat) (f : Ctx → Ctx) : (modCtx s l f).mem = s.mem := rfl
@[simp] theorem modCtx_poison (s : State) (l : Nat) (f : Ctx → Ctx) : (modCtx s l f).poison = s.poison := rfl
@[simp] theorem modCtx_codeLog (s : State) (l : Nat) (f : Ctx → Ctx) : (modCtx s l f).codeLog = s.codeLog := rfl
@[simp] theorem modCtx_ctxs (s : State) (l : Nat) (f : Ctx → Ctx) : (modCtx s l f).ctxs = tblSet s.ctxs l (f (ctxAt s l)) := rfl
@[simp] theorem modCtx_cores (s : State) (l : Nat) (f : Ctx → Ctx) : (modCtx s l f).cores = s.cores := rfl
@[simp] theorem modCtx_clusters (s : State) (l : Nat) (f : Ctx → Ctx) : (modCtx s l f).clusters = s.clusters := rfl
@[simp] theorem modCtx_dies (s : State) (l : Nat) (f : Ctx → Ctx) : (modCtx s l f).dies = s.dies := rfl
@[simp] theorem modCtx_homes (s : State) (l : Nat) (f : Ctx → Ctx) : (modCtx s l f).homes = s.homes := rfl
@[simp] theorem modCtx_arbs (s : State) (l : Nat) (f : Ctx → Ctx) : (modCtx s l f).arbs = s.arbs := rfl
@[simp] theorem modCtx_commits (s : State) (l : Nat) (f : Ctx → Ctx) : (modCtx s l f).commits = s.commits := rfl
@[simp] theorem modCtx_nextCommit (s : State) (l : Nat) (f : Ctx → Ctx) : (modCtx s l f).nextCommit = s.nextCommit := rfl
@[simp] theorem modCtx_fox (s : State) (l : Nat) (f : Ctx → Ctx) : (modCtx s l f).fox = s.fox := rfl
@[simp] theorem modCtx_io (s : State) (l : Nat) (f : Ctx → Ctx) : (modCtx s l f).io = s.io := rfl
@[simp] theorem modCtx_sysOps (s : State) (l : Nat) (f : Ctx → Ctx) : (modCtx s l f).sysOps = s.sysOps := rfl
@[simp] theorem modCtx_tinvs (s : State) (l : Nat) (f : Ctx → Ctx) : (modCtx s l f).tinvs = s.tinvs := rfl
@[simp] theorem modCtx_rmodes (s : State) (l : Nat) (f : Ctx → Ctx) : (modCtx s l f).rmodes = s.rmodes := rfl
@[simp] theorem modCtx_nextOp (s : State) (l : Nat) (f : Ctx → Ctx) : (modCtx s l f).nextOp = s.nextOp := rfl
@[simp] theorem modCtx_modules (s : State) (l : Nat) (f : Ctx → Ctx) : (modCtx s l f).modules = s.modules := rfl
@[simp] theorem modCtx_images (s : State) (l : Nat) (f : Ctx → Ctx) : (modCtx s l f).images = s.images := rfl
@[simp] theorem modCtx_agenda (s : State) (l : Nat) (f : Ctx → Ctx) : (modCtx s l f).agenda = s.agenda := rfl
@[simp] theorem setMe_now (s : State) (c : Ctx) : (setMe s c).now = s.now := rfl
@[simp] theorem setMe_tick (s : State) (c : Ctx) : (setMe s c).tick = s.tick := rfl
@[simp] theorem setMe_order (s : State) (c : Ctx) : (setMe s c).order = s.order := rfl
@[simp] theorem setMe_cur (s : State) (c : Ctx) : (setMe s c).cur = s.cur := rfl
@[simp] theorem setMe_mem (s : State) (c : Ctx) : (setMe s c).mem = s.mem := rfl
@[simp] theorem setMe_poison (s : State) (c : Ctx) : (setMe s c).poison = s.poison := rfl
@[simp] theorem setMe_codeLog (s : State) (c : Ctx) : (setMe s c).codeLog = s.codeLog := rfl
@[simp] theorem setMe_ctxs (s : State) (c : Ctx) : (setMe s c).ctxs = tblSet s.ctxs s.cur c := rfl
@[simp] theorem setMe_cores (s : State) (c : Ctx) : (setMe s c).cores = s.cores := rfl
@[simp] theorem setMe_clusters (s : State) (c : Ctx) : (setMe s c).clusters = s.clusters := rfl
@[simp] theorem setMe_dies (s : State) (c : Ctx) : (setMe s c).dies = s.dies := rfl
@[simp] theorem setMe_homes (s : State) (c : Ctx) : (setMe s c).homes = s.homes := rfl
@[simp] theorem setMe_arbs (s : State) (c : Ctx) : (setMe s c).arbs = s.arbs := rfl
@[simp] theorem setMe_commits (s : State) (c : Ctx) : (setMe s c).commits = s.commits := rfl
@[simp] theorem setMe_nextCommit (s : State) (c : Ctx) : (setMe s c).nextCommit = s.nextCommit := rfl
@[simp] theorem setMe_fox (s : State) (c : Ctx) : (setMe s c).fox = s.fox := rfl
@[simp] theorem setMe_io (s : State) (c : Ctx) : (setMe s c).io = s.io := rfl
@[simp] theorem setMe_sysOps (s : State) (c : Ctx) : (setMe s c).sysOps = s.sysOps := rfl
@[simp] theorem setMe_tinvs (s : State) (c : Ctx) : (setMe s c).tinvs = s.tinvs := rfl
@[simp] theorem setMe_rmodes (s : State) (c : Ctx) : (setMe s c).rmodes = s.rmodes := rfl
@[simp] theorem setMe_nextOp (s : State) (c : Ctx) : (setMe s c).nextOp = s.nextOp := rfl
@[simp] theorem setMe_modules (s : State) (c : Ctx) : (setMe s c).modules = s.modules := rfl
@[simp] theorem setMe_images (s : State) (c : Ctx) : (setMe s c).images = s.images := rfl
@[simp] theorem setMe_agenda (s : State) (c : Ctx) : (setMe s c).agenda = s.agenda := rfl
@[simp] theorem modMe_now (s : State) (f : Ctx → Ctx) : (modMe s f).now = s.now := rfl
@[simp] theorem modMe_tick (s : State) (f : Ctx → Ctx) : (modMe s f).tick = s.tick := rfl
@[simp] theorem modMe_order (s : State) (f : Ctx → Ctx) : (modMe s f).order = s.order := rfl
@[simp] theorem modMe_cur (s : State) (f : Ctx → Ctx) : (modMe s f).cur = s.cur := rfl
@[simp] theorem modMe_mem (s : State) (f : Ctx → Ctx) : (modMe s f).mem = s.mem := rfl
@[simp] theorem modMe_poison (s : State) (f : Ctx → Ctx) : (modMe s f).poison = s.poison := rfl
@[simp] theorem modMe_codeLog (s : State) (f : Ctx → Ctx) : (modMe s f).codeLog = s.codeLog := rfl
@[simp] theorem modMe_ctxs (s : State) (f : Ctx → Ctx) : (modMe s f).ctxs = tblSet s.ctxs s.cur (f (me s)) := rfl
@[simp] theorem modMe_cores (s : State) (f : Ctx → Ctx) : (modMe s f).cores = s.cores := rfl
@[simp] theorem modMe_clusters (s : State) (f : Ctx → Ctx) : (modMe s f).clusters = s.clusters := rfl
@[simp] theorem modMe_dies (s : State) (f : Ctx → Ctx) : (modMe s f).dies = s.dies := rfl
@[simp] theorem modMe_homes (s : State) (f : Ctx → Ctx) : (modMe s f).homes = s.homes := rfl
@[simp] theorem modMe_arbs (s : State) (f : Ctx → Ctx) : (modMe s f).arbs = s.arbs := rfl
@[simp] theorem modMe_commits (s : State) (f : Ctx → Ctx) : (modMe s f).commits = s.commits := rfl
@[simp] theorem modMe_nextCommit (s : State) (f : Ctx → Ctx) : (modMe s f).nextCommit = s.nextCommit := rfl
@[simp] theorem modMe_fox (s : State) (f : Ctx → Ctx) : (modMe s f).fox = s.fox := rfl
@[simp] theorem modMe_io (s : State) (f : Ctx → Ctx) : (modMe s f).io = s.io := rfl
@[simp] theorem modMe_sysOps (s : State) (f : Ctx → Ctx) : (modMe s f).sysOps = s.sysOps := rfl
@[simp] theorem modMe_tinvs (s : State) (f : Ctx → Ctx) : (modMe s f).tinvs = s.tinvs := rfl
@[simp] theorem modMe_rmodes (s : State) (f : Ctx → Ctx) : (modMe s f).rmodes = s.rmodes := rfl
@[simp] theorem modMe_nextOp (s : State) (f : Ctx → Ctx) : (modMe s f).nextOp = s.nextOp := rfl
@[simp] theorem modMe_modules (s : State) (f : Ctx → Ctx) : (modMe s f).modules = s.modules := rfl
@[simp] theorem modMe_images (s : State) (f : Ctx → Ctx) : (modMe s f).images = s.images := rfl
@[simp] theorem modMe_agenda (s : State) (f : Ctx → Ctx) : (modMe s f).agenda = s.agenda := rfl
@[simp] theorem setCore_now (s : State) (k : Nat) (x : CoreSt) : (setCore s k x).now = s.now := rfl
@[simp] theorem setCore_tick (s : State) (k : Nat) (x : CoreSt) : (setCore s k x).tick = s.tick := rfl
@[simp] theorem setCore_order (s : State) (k : Nat) (x : CoreSt) : (setCore s k x).order = s.order := rfl
@[simp] theorem setCore_cur (s : State) (k : Nat) (x : CoreSt) : (setCore s k x).cur = s.cur := rfl
@[simp] theorem setCore_mem (s : State) (k : Nat) (x : CoreSt) : (setCore s k x).mem = s.mem := rfl
@[simp] theorem setCore_poison (s : State) (k : Nat) (x : CoreSt) : (setCore s k x).poison = s.poison := rfl
@[simp] theorem setCore_codeLog (s : State) (k : Nat) (x : CoreSt) : (setCore s k x).codeLog = s.codeLog := rfl
@[simp] theorem setCore_ctxs (s : State) (k : Nat) (x : CoreSt) : (setCore s k x).ctxs = s.ctxs := rfl
@[simp] theorem setCore_cores (s : State) (k : Nat) (x : CoreSt) : (setCore s k x).cores = tblSet s.cores k x := rfl
@[simp] theorem setCore_clusters (s : State) (k : Nat) (x : CoreSt) : (setCore s k x).clusters = s.clusters := rfl
@[simp] theorem setCore_dies (s : State) (k : Nat) (x : CoreSt) : (setCore s k x).dies = s.dies := rfl
@[simp] theorem setCore_homes (s : State) (k : Nat) (x : CoreSt) : (setCore s k x).homes = s.homes := rfl
@[simp] theorem setCore_arbs (s : State) (k : Nat) (x : CoreSt) : (setCore s k x).arbs = s.arbs := rfl
@[simp] theorem setCore_commits (s : State) (k : Nat) (x : CoreSt) : (setCore s k x).commits = s.commits := rfl
@[simp] theorem setCore_nextCommit (s : State) (k : Nat) (x : CoreSt) : (setCore s k x).nextCommit = s.nextCommit := rfl
@[simp] theorem setCore_fox (s : State) (k : Nat) (x : CoreSt) : (setCore s k x).fox = s.fox := rfl
@[simp] theorem setCore_io (s : State) (k : Nat) (x : CoreSt) : (setCore s k x).io = s.io := rfl
@[simp] theorem setCore_sysOps (s : State) (k : Nat) (x : CoreSt) : (setCore s k x).sysOps = s.sysOps := rfl
@[simp] theorem setCore_tinvs (s : State) (k : Nat) (x : CoreSt) : (setCore s k x).tinvs = s.tinvs := rfl
@[simp] theorem setCore_rmodes (s : State) (k : Nat) (x : CoreSt) : (setCore s k x).rmodes = s.rmodes := rfl
@[simp] theorem setCore_nextOp (s : State) (k : Nat) (x : CoreSt) : (setCore s k x).nextOp = s.nextOp := rfl
@[simp] theorem setCore_modules (s : State) (k : Nat) (x : CoreSt) : (setCore s k x).modules = s.modules := rfl
@[simp] theorem setCore_images (s : State) (k : Nat) (x : CoreSt) : (setCore s k x).images = s.images := rfl
@[simp] theorem setCore_agenda (s : State) (k : Nat) (x : CoreSt) : (setCore s k x).agenda = s.agenda := rfl
@[simp] theorem modCore_now (s : State) (k : Nat) (f : CoreSt → CoreSt) : (modCore s k f).now = s.now := rfl
@[simp] theorem modCore_tick (s : State) (k : Nat) (f : CoreSt → CoreSt) : (modCore s k f).tick = s.tick := rfl
@[simp] theorem modCore_order (s : State) (k : Nat) (f : CoreSt → CoreSt) : (modCore s k f).order = s.order := rfl
@[simp] theorem modCore_cur (s : State) (k : Nat) (f : CoreSt → CoreSt) : (modCore s k f).cur = s.cur := rfl
@[simp] theorem modCore_mem (s : State) (k : Nat) (f : CoreSt → CoreSt) : (modCore s k f).mem = s.mem := rfl
@[simp] theorem modCore_poison (s : State) (k : Nat) (f : CoreSt → CoreSt) : (modCore s k f).poison = s.poison := rfl
@[simp] theorem modCore_codeLog (s : State) (k : Nat) (f : CoreSt → CoreSt) : (modCore s k f).codeLog = s.codeLog := rfl
@[simp] theorem modCore_ctxs (s : State) (k : Nat) (f : CoreSt → CoreSt) : (modCore s k f).ctxs = s.ctxs := rfl
@[simp] theorem modCore_cores (s : State) (k : Nat) (f : CoreSt → CoreSt) : (modCore s k f).cores = tblSet s.cores k (f (coreAt s k)) := rfl
@[simp] theorem modCore_clusters (s : State) (k : Nat) (f : CoreSt → CoreSt) : (modCore s k f).clusters = s.clusters := rfl
@[simp] theorem modCore_dies (s : State) (k : Nat) (f : CoreSt → CoreSt) : (modCore s k f).dies = s.dies := rfl
@[simp] theorem modCore_homes (s : State) (k : Nat) (f : CoreSt → CoreSt) : (modCore s k f).homes = s.homes := rfl
@[simp] theorem modCore_arbs (s : State) (k : Nat) (f : CoreSt → CoreSt) : (modCore s k f).arbs = s.arbs := rfl
@[simp] theorem modCore_commits (s : State) (k : Nat) (f : CoreSt → CoreSt) : (modCore s k f).commits = s.commits := rfl
@[simp] theorem modCore_nextCommit (s : State) (k : Nat) (f : CoreSt → CoreSt) : (modCore s k f).nextCommit = s.nextCommit := rfl
@[simp] theorem modCore_fox (s : State) (k : Nat) (f : CoreSt → CoreSt) : (modCore s k f).fox = s.fox := rfl
@[simp] theorem modCore_io (s : State) (k : Nat) (f : CoreSt → CoreSt) : (modCore s k f).io = s.io := rfl
@[simp] theorem modCore_sysOps (s : State) (k : Nat) (f : CoreSt → CoreSt) : (modCore s k f).sysOps = s.sysOps := rfl
@[simp] theorem modCore_tinvs (s : State) (k : Nat) (f : CoreSt → CoreSt) : (modCore s k f).tinvs = s.tinvs := rfl
@[simp] theorem modCore_rmodes (s : State) (k : Nat) (f : CoreSt → CoreSt) : (modCore s k f).rmodes = s.rmodes := rfl
@[simp] theorem modCore_nextOp (s : State) (k : Nat) (f : CoreSt → CoreSt) : (modCore s k f).nextOp = s.nextOp := rfl
@[simp] theorem modCore_modules (s : State) (k : Nat) (f : CoreSt → CoreSt) : (modCore s k f).modules = s.modules := rfl
@[simp] theorem modCore_images (s : State) (k : Nat) (f : CoreSt → CoreSt) : (modCore s k f).images = s.images := rfl
@[simp] theorem modCore_agenda (s : State) (k : Nat) (f : CoreSt → CoreSt) : (modCore s k f).agenda = s.agenda := rfl
@[simp] theorem setCluster_now (s : State) (k : Nat) (x : ClusterSt) : (setCluster s k x).now = s.now := rfl
@[simp] theorem setCluster_tick (s : State) (k : Nat) (x : ClusterSt) : (setCluster s k x).tick = s.tick := rfl
@[simp] theorem setCluster_order (s : State) (k : Nat) (x : ClusterSt) : (setCluster s k x).order = s.order := rfl
@[simp] theorem setCluster_cur (s : State) (k : Nat) (x : ClusterSt) : (setCluster s k x).cur = s.cur := rfl
@[simp] theorem setCluster_mem (s : State) (k : Nat) (x : ClusterSt) : (setCluster s k x).mem = s.mem := rfl
@[simp] theorem setCluster_poison (s : State) (k : Nat) (x : ClusterSt) : (setCluster s k x).poison = s.poison := rfl
@[simp] theorem setCluster_codeLog (s : State) (k : Nat) (x : ClusterSt) : (setCluster s k x).codeLog = s.codeLog := rfl
@[simp] theorem setCluster_ctxs (s : State) (k : Nat) (x : ClusterSt) : (setCluster s k x).ctxs = s.ctxs := rfl
@[simp] theorem setCluster_cores (s : State) (k : Nat) (x : ClusterSt) : (setCluster s k x).cores = s.cores := rfl
@[simp] theorem setCluster_clusters (s : State) (k : Nat) (x : ClusterSt) : (setCluster s k x).clusters = tblSet s.clusters k x := rfl
@[simp] theorem setCluster_dies (s : State) (k : Nat) (x : ClusterSt) : (setCluster s k x).dies = s.dies := rfl
@[simp] theorem setCluster_homes (s : State) (k : Nat) (x : ClusterSt) : (setCluster s k x).homes = s.homes := rfl
@[simp] theorem setCluster_arbs (s : State) (k : Nat) (x : ClusterSt) : (setCluster s k x).arbs = s.arbs := rfl
@[simp] theorem setCluster_commits (s : State) (k : Nat) (x : ClusterSt) : (setCluster s k x).commits = s.commits := rfl
@[simp] theorem setCluster_nextCommit (s : State) (k : Nat) (x : ClusterSt) : (setCluster s k x).nextCommit = s.nextCommit := rfl
@[simp] theorem setCluster_fox (s : State) (k : Nat) (x : ClusterSt) : (setCluster s k x).fox = s.fox := rfl
@[simp] theorem setCluster_io (s : State) (k : Nat) (x : ClusterSt) : (setCluster s k x).io = s.io := rfl
@[simp] theorem setCluster_sysOps (s : State) (k : Nat) (x : ClusterSt) : (setCluster s k x).sysOps = s.sysOps := rfl
@[simp] theorem setCluster_tinvs (s : State) (k : Nat) (x : ClusterSt) : (setCluster s k x).tinvs = s.tinvs := rfl
@[simp] theorem setCluster_rmodes (s : State) (k : Nat) (x : ClusterSt) : (setCluster s k x).rmodes = s.rmodes := rfl
@[simp] theorem setCluster_nextOp (s : State) (k : Nat) (x : ClusterSt) : (setCluster s k x).nextOp = s.nextOp := rfl
@[simp] theorem setCluster_modules (s : State) (k : Nat) (x : ClusterSt) : (setCluster s k x).modules = s.modules := rfl
@[simp] theorem setCluster_images (s : State) (k : Nat) (x : ClusterSt) : (setCluster s k x).images = s.images := rfl
@[simp] theorem setCluster_agenda (s : State) (k : Nat) (x : ClusterSt) : (setCluster s k x).agenda = s.agenda := rfl
@[simp] theorem modCluster_now (s : State) (k : Nat) (f : ClusterSt → ClusterSt) : (modCluster s k f).now = s.now := rfl
@[simp] theorem modCluster_tick (s : State) (k : Nat) (f : ClusterSt → ClusterSt) : (modCluster s k f).tick = s.tick := rfl
@[simp] theorem modCluster_order (s : State) (k : Nat) (f : ClusterSt → ClusterSt) : (modCluster s k f).order = s.order := rfl
@[simp] theorem modCluster_cur (s : State) (k : Nat) (f : ClusterSt → ClusterSt) : (modCluster s k f).cur = s.cur := rfl
@[simp] theorem modCluster_mem (s : State) (k : Nat) (f : ClusterSt → ClusterSt) : (modCluster s k f).mem = s.mem := rfl
@[simp] theorem modCluster_poison (s : State) (k : Nat) (f : ClusterSt → ClusterSt) : (modCluster s k f).poison = s.poison := rfl
@[simp] theorem modCluster_codeLog (s : State) (k : Nat) (f : ClusterSt → ClusterSt) : (modCluster s k f).codeLog = s.codeLog := rfl
@[simp] theorem modCluster_ctxs (s : State) (k : Nat) (f : ClusterSt → ClusterSt) : (modCluster s k f).ctxs = s.ctxs := rfl
@[simp] theorem modCluster_cores (s : State) (k : Nat) (f : ClusterSt → ClusterSt) : (modCluster s k f).cores = s.cores := rfl
@[simp] theorem modCluster_clusters (s : State) (k : Nat) (f : ClusterSt → ClusterSt) : (modCluster s k f).clusters = tblSet s.clusters k (f (clusterAt s k)) := rfl
@[simp] theorem modCluster_dies (s : State) (k : Nat) (f : ClusterSt → ClusterSt) : (modCluster s k f).dies = s.dies := rfl
@[simp] theorem modCluster_homes (s : State) (k : Nat) (f : ClusterSt → ClusterSt) : (modCluster s k f).homes = s.homes := rfl
@[simp] theorem modCluster_arbs (s : State) (k : Nat) (f : ClusterSt → ClusterSt) : (modCluster s k f).arbs = s.arbs := rfl
@[simp] theorem modCluster_commits (s : State) (k : Nat) (f : ClusterSt → ClusterSt) : (modCluster s k f).commits = s.commits := rfl
@[simp] theorem modCluster_nextCommit (s : State) (k : Nat) (f : ClusterSt → ClusterSt) : (modCluster s k f).nextCommit = s.nextCommit := rfl
@[simp] theorem modCluster_fox (s : State) (k : Nat) (f : ClusterSt → ClusterSt) : (modCluster s k f).fox = s.fox := rfl
@[simp] theorem modCluster_io (s : State) (k : Nat) (f : ClusterSt → ClusterSt) : (modCluster s k f).io = s.io := rfl
@[simp] theorem modCluster_sysOps (s : State) (k : Nat) (f : ClusterSt → ClusterSt) : (modCluster s k f).sysOps = s.sysOps := rfl
@[simp] theorem modCluster_tinvs (s : State) (k : Nat) (f : ClusterSt → ClusterSt) : (modCluster s k f).tinvs = s.tinvs := rfl
@[simp] theorem modCluster_rmodes (s : State) (k : Nat) (f : ClusterSt → ClusterSt) : (modCluster s k f).rmodes = s.rmodes := rfl
@[simp] theorem modCluster_nextOp (s : State) (k : Nat) (f : ClusterSt → ClusterSt) : (modCluster s k f).nextOp = s.nextOp := rfl
@[simp] theorem modCluster_modules (s : State) (k : Nat) (f : ClusterSt → ClusterSt) : (modCluster s k f).modules = s.modules := rfl
@[simp] theorem modCluster_images (s : State) (k : Nat) (f : ClusterSt → ClusterSt) : (modCluster s k f).images = s.images := rfl
@[simp] theorem modCluster_agenda (s : State) (k : Nat) (f : ClusterSt → ClusterSt) : (modCluster s k f).agenda = s.agenda := rfl
@[simp] theorem modDie_now (s : State) (d : Nat) (f : DieSt → DieSt) : (modDie s d f).now = s.now := rfl
@[simp] theorem modDie_tick (s : State) (d : Nat) (f : DieSt → DieSt) : (modDie s d f).tick = s.tick := rfl
@[simp] theorem modDie_order (s : State) (d : Nat) (f : DieSt → DieSt) : (modDie s d f).order = s.order := rfl
@[simp] theorem modDie_cur (s : State) (d : Nat) (f : DieSt → DieSt) : (modDie s d f).cur = s.cur := rfl
@[simp] theorem modDie_mem (s : State) (d : Nat) (f : DieSt → DieSt) : (modDie s d f).mem = s.mem := rfl
@[simp] theorem modDie_poison (s : State) (d : Nat) (f : DieSt → DieSt) : (modDie s d f).poison = s.poison := rfl
@[simp] theorem modDie_codeLog (s : State) (d : Nat) (f : DieSt → DieSt) : (modDie s d f).codeLog = s.codeLog := rfl
@[simp] theorem modDie_ctxs (s : State) (d : Nat) (f : DieSt → DieSt) : (modDie s d f).ctxs = s.ctxs := rfl
@[simp] theorem modDie_cores (s : State) (d : Nat) (f : DieSt → DieSt) : (modDie s d f).cores = s.cores := rfl
@[simp] theorem modDie_clusters (s : State) (d : Nat) (f : DieSt → DieSt) : (modDie s d f).clusters = s.clusters := rfl
@[simp] theorem modDie_dies (s : State) (d : Nat) (f : DieSt → DieSt) : (modDie s d f).dies = tblSet s.dies d (f (dieAt s d)) := rfl
@[simp] theorem modDie_homes (s : State) (d : Nat) (f : DieSt → DieSt) : (modDie s d f).homes = s.homes := rfl
@[simp] theorem modDie_arbs (s : State) (d : Nat) (f : DieSt → DieSt) : (modDie s d f).arbs = s.arbs := rfl
@[simp] theorem modDie_commits (s : State) (d : Nat) (f : DieSt → DieSt) : (modDie s d f).commits = s.commits := rfl
@[simp] theorem modDie_nextCommit (s : State) (d : Nat) (f : DieSt → DieSt) : (modDie s d f).nextCommit = s.nextCommit := rfl
@[simp] theorem modDie_fox (s : State) (d : Nat) (f : DieSt → DieSt) : (modDie s d f).fox = s.fox := rfl
@[simp] theorem modDie_io (s : State) (d : Nat) (f : DieSt → DieSt) : (modDie s d f).io = s.io := rfl
@[simp] theorem modDie_sysOps (s : State) (d : Nat) (f : DieSt → DieSt) : (modDie s d f).sysOps = s.sysOps := rfl
@[simp] theorem modDie_tinvs (s : State) (d : Nat) (f : DieSt → DieSt) : (modDie s d f).tinvs = s.tinvs := rfl
@[simp] theorem modDie_rmodes (s : State) (d : Nat) (f : DieSt → DieSt) : (modDie s d f).rmodes = s.rmodes := rfl
@[simp] theorem modDie_nextOp (s : State) (d : Nat) (f : DieSt → DieSt) : (modDie s d f).nextOp = s.nextOp := rfl
@[simp] theorem modDie_modules (s : State) (d : Nat) (f : DieSt → DieSt) : (modDie s d f).modules = s.modules := rfl
@[simp] theorem modDie_images (s : State) (d : Nat) (f : DieSt → DieSt) : (modDie s d f).images = s.images := rfl
@[simp] theorem modDie_agenda (s : State) (d : Nat) (f : DieSt → DieSt) : (modDie s d f).agenda = s.agenda := rfl
@[simp] theorem modHome_now (s : State) (h : Nat) (f : HomeSt → HomeSt) : (modHome s h f).now = s.now := rfl
@[simp] theorem modHome_tick (s : State) (h : Nat) (f : HomeSt → HomeSt) : (modHome s h f).tick = s.tick := rfl
@[simp] theorem modHome_order (s : State) (h : Nat) (f : HomeSt → HomeSt) : (modHome s h f).order = s.order := rfl
@[simp] theorem modHome_cur (s : State) (h : Nat) (f : HomeSt → HomeSt) : (modHome s h f).cur = s.cur := rfl
@[simp] theorem modHome_mem (s : State) (h : Nat) (f : HomeSt → HomeSt) : (modHome s h f).mem = s.mem := rfl
@[simp] theorem modHome_poison (s : State) (h : Nat) (f : HomeSt → HomeSt) : (modHome s h f).poison = s.poison := rfl
@[simp] theorem modHome_codeLog (s : State) (h : Nat) (f : HomeSt → HomeSt) : (modHome s h f).codeLog = s.codeLog := rfl
@[simp] theorem modHome_ctxs (s : State) (h : Nat) (f : HomeSt → HomeSt) : (modHome s h f).ctxs = s.ctxs := rfl
@[simp] theorem modHome_cores (s : State) (h : Nat) (f : HomeSt → HomeSt) : (modHome s h f).cores = s.cores := rfl
@[simp] theorem modHome_clusters (s : State) (h : Nat) (f : HomeSt → HomeSt) : (modHome s h f).clusters = s.clusters := rfl
@[simp] theorem modHome_dies (s : State) (h : Nat) (f : HomeSt → HomeSt) : (modHome s h f).dies = s.dies := rfl
@[simp] theorem modHome_homes (s : State) (h : Nat) (f : HomeSt → HomeSt) : (modHome s h f).homes = tblSet s.homes h (f (homeAt s h)) := rfl
@[simp] theorem modHome_arbs (s : State) (h : Nat) (f : HomeSt → HomeSt) : (modHome s h f).arbs = s.arbs := rfl
@[simp] theorem modHome_commits (s : State) (h : Nat) (f : HomeSt → HomeSt) : (modHome s h f).commits = s.commits := rfl
@[simp] theorem modHome_nextCommit (s : State) (h : Nat) (f : HomeSt → HomeSt) : (modHome s h f).nextCommit = s.nextCommit := rfl
@[simp] theorem modHome_fox (s : State) (h : Nat) (f : HomeSt → HomeSt) : (modHome s h f).fox = s.fox := rfl
@[simp] theorem modHome_io (s : State) (h : Nat) (f : HomeSt → HomeSt) : (modHome s h f).io = s.io := rfl
@[simp] theorem modHome_sysOps (s : State) (h : Nat) (f : HomeSt → HomeSt) : (modHome s h f).sysOps = s.sysOps := rfl
@[simp] theorem modHome_tinvs (s : State) (h : Nat) (f : HomeSt → HomeSt) : (modHome s h f).tinvs = s.tinvs := rfl
@[simp] theorem modHome_rmodes (s : State) (h : Nat) (f : HomeSt → HomeSt) : (modHome s h f).rmodes = s.rmodes := rfl
@[simp] theorem modHome_nextOp (s : State) (h : Nat) (f : HomeSt → HomeSt) : (modHome s h f).nextOp = s.nextOp := rfl
@[simp] theorem modHome_modules (s : State) (h : Nat) (f : HomeSt → HomeSt) : (modHome s h f).modules = s.modules := rfl
@[simp] theorem modHome_images (s : State) (h : Nat) (f : HomeSt → HomeSt) : (modHome s h f).images = s.images := rfl
@[simp] theorem modHome_agenda (s : State) (h : Nat) (f : HomeSt → HomeSt) : (modHome s h f).agenda = s.agenda := rfl
@[simp] theorem modArb_now (s : State) (a : Nat) (f : ArbSt → ArbSt) : (modArb s a f).now = s.now := rfl
@[simp] theorem modArb_tick (s : State) (a : Nat) (f : ArbSt → ArbSt) : (modArb s a f).tick = s.tick := rfl
@[simp] theorem modArb_order (s : State) (a : Nat) (f : ArbSt → ArbSt) : (modArb s a f).order = s.order := rfl
@[simp] theorem modArb_cur (s : State) (a : Nat) (f : ArbSt → ArbSt) : (modArb s a f).cur = s.cur := rfl
@[simp] theorem modArb_mem (s : State) (a : Nat) (f : ArbSt → ArbSt) : (modArb s a f).mem = s.mem := rfl
@[simp] theorem modArb_poison (s : State) (a : Nat) (f : ArbSt → ArbSt) : (modArb s a f).poison = s.poison := rfl
@[simp] theorem modArb_codeLog (s : State) (a : Nat) (f : ArbSt → ArbSt) : (modArb s a f).codeLog = s.codeLog := rfl
@[simp] theorem modArb_ctxs (s : State) (a : Nat) (f : ArbSt → ArbSt) : (modArb s a f).ctxs = s.ctxs := rfl
@[simp] theorem modArb_cores (s : State) (a : Nat) (f : ArbSt → ArbSt) : (modArb s a f).cores = s.cores := rfl
@[simp] theorem modArb_clusters (s : State) (a : Nat) (f : ArbSt → ArbSt) : (modArb s a f).clusters = s.clusters := rfl
@[simp] theorem modArb_dies (s : State) (a : Nat) (f : ArbSt → ArbSt) : (modArb s a f).dies = s.dies := rfl
@[simp] theorem modArb_homes (s : State) (a : Nat) (f : ArbSt → ArbSt) : (modArb s a f).homes = s.homes := rfl
@[simp] theorem modArb_arbs (s : State) (a : Nat) (f : ArbSt → ArbSt) : (modArb s a f).arbs = tblSet s.arbs a (f (arbAt s a)) := rfl
@[simp] theorem modArb_commits (s : State) (a : Nat) (f : ArbSt → ArbSt) : (modArb s a f).commits = s.commits := rfl
@[simp] theorem modArb_nextCommit (s : State) (a : Nat) (f : ArbSt → ArbSt) : (modArb s a f).nextCommit = s.nextCommit := rfl
@[simp] theorem modArb_fox (s : State) (a : Nat) (f : ArbSt → ArbSt) : (modArb s a f).fox = s.fox := rfl
@[simp] theorem modArb_io (s : State) (a : Nat) (f : ArbSt → ArbSt) : (modArb s a f).io = s.io := rfl
@[simp] theorem modArb_sysOps (s : State) (a : Nat) (f : ArbSt → ArbSt) : (modArb s a f).sysOps = s.sysOps := rfl
@[simp] theorem modArb_tinvs (s : State) (a : Nat) (f : ArbSt → ArbSt) : (modArb s a f).tinvs = s.tinvs := rfl
@[simp] theorem modArb_rmodes (s : State) (a : Nat) (f : ArbSt → ArbSt) : (modArb s a f).rmodes = s.rmodes := rfl
@[simp] theorem modArb_nextOp (s : State) (a : Nat) (f : ArbSt → ArbSt) : (modArb s a f).nextOp = s.nextOp := rfl
@[simp] theorem modArb_modules (s : State) (a : Nat) (f : ArbSt → ArbSt) : (modArb s a f).modules = s.modules := rfl
@[simp] theorem modArb_images (s : State) (a : Nat) (f : ArbSt → ArbSt) : (modArb s a f).images = s.images := rfl
@[simp] theorem modArb_agenda (s : State) (a : Nat) (f : ArbSt → ArbSt) : (modArb s a f).agenda = s.agenda := rfl
@[simp] theorem modFox_now (s : State) (f : FoxSt → FoxSt) : (modFox s f).now = s.now := rfl
@[simp] theorem modFox_tick (s : State) (f : FoxSt → FoxSt) : (modFox s f).tick = s.tick := rfl
@[simp] theorem modFox_order (s : State) (f : FoxSt → FoxSt) : (modFox s f).order = s.order := rfl
@[simp] theorem modFox_cur (s : State) (f : FoxSt → FoxSt) : (modFox s f).cur = s.cur := rfl
@[simp] theorem modFox_mem (s : State) (f : FoxSt → FoxSt) : (modFox s f).mem = s.mem := rfl
@[simp] theorem modFox_poison (s : State) (f : FoxSt → FoxSt) : (modFox s f).poison = s.poison := rfl
@[simp] theorem modFox_codeLog (s : State) (f : FoxSt → FoxSt) : (modFox s f).codeLog = s.codeLog := rfl
@[simp] theorem modFox_ctxs (s : State) (f : FoxSt → FoxSt) : (modFox s f).ctxs = s.ctxs := rfl
@[simp] theorem modFox_cores (s : State) (f : FoxSt → FoxSt) : (modFox s f).cores = s.cores := rfl
@[simp] theorem modFox_clusters (s : State) (f : FoxSt → FoxSt) : (modFox s f).clusters = s.clusters := rfl
@[simp] theorem modFox_dies (s : State) (f : FoxSt → FoxSt) : (modFox s f).dies = s.dies := rfl
@[simp] theorem modFox_homes (s : State) (f : FoxSt → FoxSt) : (modFox s f).homes = s.homes := rfl
@[simp] theorem modFox_arbs (s : State) (f : FoxSt → FoxSt) : (modFox s f).arbs = s.arbs := rfl
@[simp] theorem modFox_commits (s : State) (f : FoxSt → FoxSt) : (modFox s f).commits = s.commits := rfl
@[simp] theorem modFox_nextCommit (s : State) (f : FoxSt → FoxSt) : (modFox s f).nextCommit = s.nextCommit := rfl
@[simp] theorem modFox_fox (s : State) (f : FoxSt → FoxSt) : (modFox s f).fox = f s.fox := rfl
@[simp] theorem modFox_io (s : State) (f : FoxSt → FoxSt) : (modFox s f).io = s.io := rfl
@[simp] theorem modFox_sysOps (s : State) (f : FoxSt → FoxSt) : (modFox s f).sysOps = s.sysOps := rfl
@[simp] theorem modFox_tinvs (s : State) (f : FoxSt → FoxSt) : (modFox s f).tinvs = s.tinvs := rfl
@[simp] theorem modFox_rmodes (s : State) (f : FoxSt → FoxSt) : (modFox s f).rmodes = s.rmodes := rfl
@[simp] theorem modFox_nextOp (s : State) (f : FoxSt → FoxSt) : (modFox s f).nextOp = s.nextOp := rfl
@[simp] theorem modFox_modules (s : State) (f : FoxSt → FoxSt) : (modFox s f).modules = s.modules := rfl
@[simp] theorem modFox_images (s : State) (f : FoxSt → FoxSt) : (modFox s f).images = s.images := rfl
@[simp] theorem modFox_agenda (s : State) (f : FoxSt → FoxSt) : (modFox s f).agenda = s.agenda := rfl
@[simp] theorem modIo_now (s : State) (f : IoSt → IoSt) : (modIo s f).now = s.now := rfl
@[simp] theorem modIo_tick (s : State) (f : IoSt → IoSt) : (modIo s f).tick = s.tick := rfl
@[simp] theorem modIo_order (s : State) (f : IoSt → IoSt) : (modIo s f).order = s.order := rfl
@[simp] theorem modIo_cur (s : State) (f : IoSt → IoSt) : (modIo s f).cur = s.cur := rfl
@[simp] theorem modIo_mem (s : State) (f : IoSt → IoSt) : (modIo s f).mem = s.mem := rfl
@[simp] theorem modIo_poison (s : State) (f : IoSt → IoSt) : (modIo s f).poison = s.poison := rfl
@[simp] theorem modIo_codeLog (s : State) (f : IoSt → IoSt) : (modIo s f).codeLog = s.codeLog := rfl
@[simp] theorem modIo_ctxs (s : State) (f : IoSt → IoSt) : (modIo s f).ctxs = s.ctxs := rfl
@[simp] theorem modIo_cores (s : State) (f : IoSt → IoSt) : (modIo s f).cores = s.cores := rfl
@[simp] theorem modIo_clusters (s : State) (f : IoSt → IoSt) : (modIo s f).clusters = s.clusters := rfl
@[simp] theorem modIo_dies (s : State) (f : IoSt → IoSt) : (modIo s f).dies = s.dies := rfl
@[simp] theorem modIo_homes (s : State) (f : IoSt → IoSt) : (modIo s f).homes = s.homes := rfl
@[simp] theorem modIo_arbs (s : State) (f : IoSt → IoSt) : (modIo s f).arbs = s.arbs := rfl
@[simp] theorem modIo_commits (s : State) (f : IoSt → IoSt) : (modIo s f).commits = s.commits := rfl
@[simp] theorem modIo_nextCommit (s : State) (f : IoSt → IoSt) : (modIo s f).nextCommit = s.nextCommit := rfl
@[simp] theorem modIo_fox (s : State) (f : IoSt → IoSt) : (modIo s f).fox = s.fox := rfl
@[simp] theorem modIo_io (s : State) (f : IoSt → IoSt) : (modIo s f).io = f s.io := rfl
@[simp] theorem modIo_sysOps (s : State) (f : IoSt → IoSt) : (modIo s f).sysOps = s.sysOps := rfl
@[simp] theorem modIo_tinvs (s : State) (f : IoSt → IoSt) : (modIo s f).tinvs = s.tinvs := rfl
@[simp] theorem modIo_rmodes (s : State) (f : IoSt → IoSt) : (modIo s f).rmodes = s.rmodes := rfl
@[simp] theorem modIo_nextOp (s : State) (f : IoSt → IoSt) : (modIo s f).nextOp = s.nextOp := rfl
@[simp] theorem modIo_modules (s : State) (f : IoSt → IoSt) : (modIo s f).modules = s.modules := rfl
@[simp] theorem modIo_images (s : State) (f : IoSt → IoSt) : (modIo s f).images = s.images := rfl
@[simp] theorem modIo_agenda (s : State) (f : IoSt → IoSt) : (modIo s f).agenda = s.agenda := rfl
@[simp] theorem post_now (s : State) (u : Nat) (i : Instr) : (post s u i).now = s.now := rfl
@[simp] theorem post_tick (s : State) (u : Nat) (i : Instr) : (post s u i).tick = s.tick := rfl
@[simp] theorem post_order (s : State) (u : Nat) (i : Instr) : (post s u i).order = s.order := rfl
@[simp] theorem post_cur (s : State) (u : Nat) (i : Instr) : (post s u i).cur = s.cur := rfl
@[simp] theorem post_mem (s : State) (u : Nat) (i : Instr) : (post s u i).mem = s.mem := rfl
@[simp] theorem post_poison (s : State) (u : Nat) (i : Instr) : (post s u i).poison = s.poison := rfl
@[simp] theorem post_codeLog (s : State) (u : Nat) (i : Instr) : (post s u i).codeLog = s.codeLog := rfl
@[simp] theorem post_ctxs (s : State) (u : Nat) (i : Instr) : (post s u i).ctxs = s.ctxs := rfl
@[simp] theorem post_cores (s : State) (u : Nat) (i : Instr) : (post s u i).cores = s.cores := rfl
@[simp] theorem post_clusters (s : State) (u : Nat) (i : Instr) : (post s u i).clusters = s.clusters := rfl
@[simp] theorem post_dies (s : State) (u : Nat) (i : Instr) : (post s u i).dies = s.dies := rfl
@[simp] theorem post_homes (s : State) (u : Nat) (i : Instr) : (post s u i).homes = s.homes := rfl
@[simp] theorem post_arbs (s : State) (u : Nat) (i : Instr) : (post s u i).arbs = s.arbs := rfl
@[simp] theorem post_commits (s : State) (u : Nat) (i : Instr) : (post s u i).commits = s.commits := rfl
@[simp] theorem post_nextCommit (s : State) (u : Nat) (i : Instr) : (post s u i).nextCommit = s.nextCommit := rfl
@[simp] theorem post_fox (s : State) (u : Nat) (i : Instr) : (post s u i).fox = s.fox := rfl
@[simp] theorem post_io (s : State) (u : Nat) (i : Instr) : (post s u i).io = s.io := rfl
@[simp] theorem post_sysOps (s : State) (u : Nat) (i : Instr) : (post s u i).sysOps = s.sysOps := rfl
@[simp] theorem post_tinvs (s : State) (u : Nat) (i : Instr) : (post s u i).tinvs = s.tinvs := rfl
@[simp] theorem post_rmodes (s : State) (u : Nat) (i : Instr) : (post s u i).rmodes = s.rmodes := rfl
@[simp] theorem post_nextOp (s : State) (u : Nat) (i : Instr) : (post s u i).nextOp = s.nextOp := rfl
@[simp] theorem post_modules (s : State) (u : Nat) (i : Instr) : (post s u i).modules = s.modules := rfl
@[simp] theorem post_images (s : State) (u : Nat) (i : Instr) : (post s u i).images = s.images := rfl
@[simp] theorem post_agenda (s : State) (u : Nat) (i : Instr) : (post s u i).agenda = s.agenda ++ [(0, u, i)] := rfl
@[simp] theorem postIn_now (s : State) (d u : Nat) (i : Instr) : (postIn s d u i).now = s.now := rfl
@[simp] theorem postIn_tick (s : State) (d u : Nat) (i : Instr) : (postIn s d u i).tick = s.tick := rfl
@[simp] theorem postIn_order (s : State) (d u : Nat) (i : Instr) : (postIn s d u i).order = s.order := rfl
@[simp] theorem postIn_cur (s : State) (d u : Nat) (i : Instr) : (postIn s d u i).cur = s.cur := rfl
@[simp] theorem postIn_mem (s : State) (d u : Nat) (i : Instr) : (postIn s d u i).mem = s.mem := rfl
@[simp] theorem postIn_poison (s : State) (d u : Nat) (i : Instr) : (postIn s d u i).poison = s.poison := rfl
@[simp] theorem postIn_codeLog (s : State) (d u : Nat) (i : Instr) : (postIn s d u i).codeLog = s.codeLog := rfl
@[simp] theorem postIn_ctxs (s : State) (d u : Nat) (i : Instr) : (postIn s d u i).ctxs = s.ctxs := rfl
@[simp] theorem postIn_cores (s : State) (d u : Nat) (i : Instr) : (postIn s d u i).cores = s.cores := rfl
@[simp] theorem postIn_clusters (s : State) (d u : Nat) (i : Instr) : (postIn s d u i).clusters = s.clusters := rfl
@[simp] theorem postIn_dies (s : State) (d u : Nat) (i : Instr) : (postIn s d u i).dies = s.dies := rfl
@[simp] theorem postIn_homes (s : State) (d u : Nat) (i : Instr) : (postIn s d u i).homes = s.homes := rfl
@[simp] theorem postIn_arbs (s : State) (d u : Nat) (i : Instr) : (postIn s d u i).arbs = s.arbs := rfl
@[simp] theorem postIn_commits (s : State) (d u : Nat) (i : Instr) : (postIn s d u i).commits = s.commits := rfl
@[simp] theorem postIn_nextCommit (s : State) (d u : Nat) (i : Instr) : (postIn s d u i).nextCommit = s.nextCommit := rfl
@[simp] theorem postIn_fox (s : State) (d u : Nat) (i : Instr) : (postIn s d u i).fox = s.fox := rfl
@[simp] theorem postIn_io (s : State) (d u : Nat) (i : Instr) : (postIn s d u i).io = s.io := rfl
@[simp] theorem postIn_sysOps (s : State) (d u : Nat) (i : Instr) : (postIn s d u i).sysOps = s.sysOps := rfl
@[simp] theorem postIn_tinvs (s : State) (d u : Nat) (i : Instr) : (postIn s d u i).tinvs = s.tinvs := rfl
@[simp] theorem postIn_rmodes (s : State) (d u : Nat) (i : Instr) : (postIn s d u i).rmodes = s.rmodes := rfl
@[simp] theorem postIn_nextOp (s : State) (d u : Nat) (i : Instr) : (postIn s d u i).nextOp = s.nextOp := rfl
@[simp] theorem postIn_modules (s : State) (d u : Nat) (i : Instr) : (postIn s d u i).modules = s.modules := rfl
@[simp] theorem postIn_images (s : State) (d u : Nat) (i : Instr) : (postIn s d u i).images = s.images := rfl
@[simp] theorem postIn_agenda (s : State) (d u : Nat) (i : Instr) : (postIn s d u i).agenda = s.agenda ++ [(s.now + d, u, i)] := rfl
@[simp] theorem takeOff_now (s : State) (n u : Nat) : (takeOff s n u).now = s.now := rfl
@[simp] theorem takeOff_tick (s : State) (n u : Nat) : (takeOff s n u).tick = s.tick := rfl
@[simp] theorem takeOff_order (s : State) (n u : Nat) : (takeOff s n u).order = s.order := rfl
@[simp] theorem takeOff_cur (s : State) (n u : Nat) : (takeOff s n u).cur = u := rfl
@[simp] theorem takeOff_mem (s : State) (n u : Nat) : (takeOff s n u).mem = s.mem := rfl
@[simp] theorem takeOff_poison (s : State) (n u : Nat) : (takeOff s n u).poison = s.poison := rfl
@[simp] theorem takeOff_codeLog (s : State) (n u : Nat) : (takeOff s n u).codeLog = s.codeLog := rfl
@[simp] theorem takeOff_ctxs (s : State) (n u : Nat) : (takeOff s n u).ctxs = s.ctxs := rfl
@[simp] theorem takeOff_cores (s : State) (n u : Nat) : (takeOff s n u).cores = s.cores := rfl
@[simp] theorem takeOff_clusters (s : State) (n u : Nat) : (takeOff s n u).clusters = s.clusters := rfl
@[simp] theorem takeOff_dies (s : State) (n u : Nat) : (takeOff s n u).dies = s.dies := rfl
@[simp] theorem takeOff_homes (s : State) (n u : Nat) : (takeOff s n u).homes = s.homes := rfl
@[simp] theorem takeOff_arbs (s : State) (n u : Nat) : (takeOff s n u).arbs = s.arbs := rfl
@[simp] theorem takeOff_commits (s : State) (n u : Nat) : (takeOff s n u).commits = s.commits := rfl
@[simp] theorem takeOff_nextCommit (s : State) (n u : Nat) : (takeOff s n u).nextCommit = s.nextCommit := rfl
@[simp] theorem takeOff_fox (s : State) (n u : Nat) : (takeOff s n u).fox = s.fox := rfl
@[simp] theorem takeOff_io (s : State) (n u : Nat) : (takeOff s n u).io = s.io := rfl
@[simp] theorem takeOff_sysOps (s : State) (n u : Nat) : (takeOff s n u).sysOps = s.sysOps := rfl
@[simp] theorem takeOff_tinvs (s : State) (n u : Nat) : (takeOff s n u).tinvs = s.tinvs := rfl
@[simp] theorem takeOff_rmodes (s : State) (n u : Nat) : (takeOff s n u).rmodes = s.rmodes := rfl
@[simp] theorem takeOff_nextOp (s : State) (n u : Nat) : (takeOff s n u).nextOp = s.nextOp := rfl
@[simp] theorem takeOff_modules (s : State) (n u : Nat) : (takeOff s n u).modules = s.modules := rfl
@[simp] theorem takeOff_images (s : State) (n u : Nat) : (takeOff s n u).images = s.images := rfl
@[simp] theorem takeOff_agenda (s : State) (n u : Nat) : (takeOff s n u).agenda = dropNth s.agenda n := rfl
@[simp] theorem tickOver_now (s : State) : (tickOver s).now = s.now + Config.elapse s.tick := rfl
@[simp] theorem tickOver_tick (s : State) : (tickOver s).tick = s.tick + 1 := rfl
@[simp] theorem tickOver_order (s : State) : (tickOver s).order = s.order := rfl
@[simp] theorem tickOver_cur (s : State) : (tickOver s).cur = s.cur := rfl
@[simp] theorem tickOver_mem (s : State) : (tickOver s).mem = s.mem := rfl
@[simp] theorem tickOver_poison (s : State) : (tickOver s).poison = s.poison := rfl
@[simp] theorem tickOver_codeLog (s : State) : (tickOver s).codeLog = s.codeLog := rfl
@[simp] theorem tickOver_ctxs (s : State) : (tickOver s).ctxs = s.ctxs := rfl
@[simp] theorem tickOver_cores (s : State) : (tickOver s).cores = s.cores := rfl
@[simp] theorem tickOver_clusters (s : State) : (tickOver s).clusters = s.clusters := rfl
@[simp] theorem tickOver_dies (s : State) : (tickOver s).dies = s.dies := rfl
@[simp] theorem tickOver_homes (s : State) : (tickOver s).homes = s.homes := rfl
@[simp] theorem tickOver_arbs (s : State) : (tickOver s).arbs = s.arbs := rfl
@[simp] theorem tickOver_commits (s : State) : (tickOver s).commits = s.commits := rfl
@[simp] theorem tickOver_nextCommit (s : State) : (tickOver s).nextCommit = s.nextCommit := rfl
@[simp] theorem tickOver_fox (s : State) : (tickOver s).fox = s.fox := rfl
@[simp] theorem tickOver_io (s : State) : (tickOver s).io = s.io := rfl
@[simp] theorem tickOver_sysOps (s : State) : (tickOver s).sysOps = s.sysOps := rfl
@[simp] theorem tickOver_tinvs (s : State) : (tickOver s).tinvs = s.tinvs := rfl
@[simp] theorem tickOver_rmodes (s : State) : (tickOver s).rmodes = s.rmodes := rfl
@[simp] theorem tickOver_nextOp (s : State) : (tickOver s).nextOp = s.nextOp := rfl
@[simp] theorem tickOver_modules (s : State) : (tickOver s).modules = s.modules := rfl
@[simp] theorem tickOver_images (s : State) : (tickOver s).images = s.images := rfl
@[simp] theorem tickOver_agenda (s : State) : (tickOver s).agenda = s.agenda := rfl

/-! ## Units after an update of another kind -/

@[simp] theorem coreAt_setCtx (s : State) (l : Nat) (c : Ctx) (i' : Nat) : coreAt (setCtx s l c) i' = coreAt s i' := rfl
@[simp] theorem clusterAt_setCtx (s : State) (l : Nat) (c : Ctx) (i' : Nat) : clusterAt (setCtx s l c) i' = clusterAt s i' := rfl
@[simp] theorem dieAt_setCtx (s : State) (l : Nat) (c : Ctx) (i' : Nat) : dieAt (setCtx s l c) i' = dieAt s i' := rfl
@[simp] theorem homeAt_setCtx (s : State) (l : Nat) (c : Ctx) (i' : Nat) : homeAt (setCtx s l c) i' = homeAt s i' := rfl
@[simp] theorem arbAt_setCtx (s : State) (l : Nat) (c : Ctx) (i' : Nat) : arbAt (setCtx s l c) i' = arbAt s i' := rfl
@[simp] theorem coreAt_modCtx (s : State) (l : Nat) (f : Ctx → Ctx) (i' : Nat) : coreAt (modCtx s l f) i' = coreAt s i' := rfl
@[simp] theorem clusterAt_modCtx (s : State) (l : Nat) (f : Ctx → Ctx) (i' : Nat) : clusterAt (modCtx s l f) i' = clusterAt s i' := rfl
@[simp] theorem dieAt_modCtx (s : State) (l : Nat) (f : Ctx → Ctx) (i' : Nat) : dieAt (modCtx s l f) i' = dieAt s i' := rfl
@[simp] theorem homeAt_modCtx (s : State) (l : Nat) (f : Ctx → Ctx) (i' : Nat) : homeAt (modCtx s l f) i' = homeAt s i' := rfl
@[simp] theorem arbAt_modCtx (s : State) (l : Nat) (f : Ctx → Ctx) (i' : Nat) : arbAt (modCtx s l f) i' = arbAt s i' := rfl
@[simp] theorem coreAt_setMe (s : State) (c : Ctx) (i' : Nat) : coreAt (setMe s c) i' = coreAt s i' := rfl
@[simp] theorem clusterAt_setMe (s : State) (c : Ctx) (i' : Nat) : clusterAt (setMe s c) i' = clusterAt s i' := rfl
@[simp] theorem dieAt_setMe (s : State) (c : Ctx) (i' : Nat) : dieAt (setMe s c) i' = dieAt s i' := rfl
@[simp] theorem homeAt_setMe (s : State) (c : Ctx) (i' : Nat) : homeAt (setMe s c) i' = homeAt s i' := rfl
@[simp] theorem arbAt_setMe (s : State) (c : Ctx) (i' : Nat) : arbAt (setMe s c) i' = arbAt s i' := rfl
@[simp] theorem coreAt_modMe (s : State) (f : Ctx → Ctx) (i' : Nat) : coreAt (modMe s f) i' = coreAt s i' := rfl
@[simp] theorem clusterAt_modMe (s : State) (f : Ctx → Ctx) (i' : Nat) : clusterAt (modMe s f) i' = clusterAt s i' := rfl
@[simp] theorem dieAt_modMe (s : State) (f : Ctx → Ctx) (i' : Nat) : dieAt (modMe s f) i' = dieAt s i' := rfl
@[simp] theorem homeAt_modMe (s : State) (f : Ctx → Ctx) (i' : Nat) : homeAt (modMe s f) i' = homeAt s i' := rfl
@[simp] theorem arbAt_modMe (s : State) (f : Ctx → Ctx) (i' : Nat) : arbAt (modMe s f) i' = arbAt s i' := rfl
@[simp] theorem ctxAt_setCore (s : State) (k : Nat) (x : CoreSt) (i' : Nat) : ctxAt (setCore s k x) i' = ctxAt s i' := rfl
@[simp] theorem clusterAt_setCore (s : State) (k : Nat) (x : CoreSt) (i' : Nat) : clusterAt (setCore s k x) i' = clusterAt s i' := rfl
@[simp] theorem dieAt_setCore (s : State) (k : Nat) (x : CoreSt) (i' : Nat) : dieAt (setCore s k x) i' = dieAt s i' := rfl
@[simp] theorem homeAt_setCore (s : State) (k : Nat) (x : CoreSt) (i' : Nat) : homeAt (setCore s k x) i' = homeAt s i' := rfl
@[simp] theorem arbAt_setCore (s : State) (k : Nat) (x : CoreSt) (i' : Nat) : arbAt (setCore s k x) i' = arbAt s i' := rfl
@[simp] theorem me_setCore (s : State) (k : Nat) (x : CoreSt) : me (setCore s k x) = me s := rfl
@[simp] theorem ctxAt_modCore (s : State) (k : Nat) (f : CoreSt → CoreSt) (i' : Nat) : ctxAt (modCore s k f) i' = ctxAt s i' := rfl
@[simp] theorem clusterAt_modCore (s : State) (k : Nat) (f : CoreSt → CoreSt) (i' : Nat) : clusterAt (modCore s k f) i' = clusterAt s i' := rfl
@[simp] theorem dieAt_modCore (s : State) (k : Nat) (f : CoreSt → CoreSt) (i' : Nat) : dieAt (modCore s k f) i' = dieAt s i' := rfl
@[simp] theorem homeAt_modCore (s : State) (k : Nat) (f : CoreSt → CoreSt) (i' : Nat) : homeAt (modCore s k f) i' = homeAt s i' := rfl
@[simp] theorem arbAt_modCore (s : State) (k : Nat) (f : CoreSt → CoreSt) (i' : Nat) : arbAt (modCore s k f) i' = arbAt s i' := rfl
@[simp] theorem me_modCore (s : State) (k : Nat) (f : CoreSt → CoreSt) : me (modCore s k f) = me s := rfl
@[simp] theorem ctxAt_setCluster (s : State) (k : Nat) (x : ClusterSt) (i' : Nat) : ctxAt (setCluster s k x) i' = ctxAt s i' := rfl
@[simp] theorem coreAt_setCluster (s : State) (k : Nat) (x : ClusterSt) (i' : Nat) : coreAt (setCluster s k x) i' = coreAt s i' := rfl
@[simp] theorem dieAt_setCluster (s : State) (k : Nat) (x : ClusterSt) (i' : Nat) : dieAt (setCluster s k x) i' = dieAt s i' := rfl
@[simp] theorem homeAt_setCluster (s : State) (k : Nat) (x : ClusterSt) (i' : Nat) : homeAt (setCluster s k x) i' = homeAt s i' := rfl
@[simp] theorem arbAt_setCluster (s : State) (k : Nat) (x : ClusterSt) (i' : Nat) : arbAt (setCluster s k x) i' = arbAt s i' := rfl
@[simp] theorem me_setCluster (s : State) (k : Nat) (x : ClusterSt) : me (setCluster s k x) = me s := rfl
@[simp] theorem ctxAt_modCluster (s : State) (k : Nat) (f : ClusterSt → ClusterSt) (i' : Nat) : ctxAt (modCluster s k f) i' = ctxAt s i' := rfl
@[simp] theorem coreAt_modCluster (s : State) (k : Nat) (f : ClusterSt → ClusterSt) (i' : Nat) : coreAt (modCluster s k f) i' = coreAt s i' := rfl
@[simp] theorem dieAt_modCluster (s : State) (k : Nat) (f : ClusterSt → ClusterSt) (i' : Nat) : dieAt (modCluster s k f) i' = dieAt s i' := rfl
@[simp] theorem homeAt_modCluster (s : State) (k : Nat) (f : ClusterSt → ClusterSt) (i' : Nat) : homeAt (modCluster s k f) i' = homeAt s i' := rfl
@[simp] theorem arbAt_modCluster (s : State) (k : Nat) (f : ClusterSt → ClusterSt) (i' : Nat) : arbAt (modCluster s k f) i' = arbAt s i' := rfl
@[simp] theorem me_modCluster (s : State) (k : Nat) (f : ClusterSt → ClusterSt) : me (modCluster s k f) = me s := rfl
@[simp] theorem ctxAt_modDie (s : State) (d : Nat) (f : DieSt → DieSt) (i' : Nat) : ctxAt (modDie s d f) i' = ctxAt s i' := rfl
@[simp] theorem coreAt_modDie (s : State) (d : Nat) (f : DieSt → DieSt) (i' : Nat) : coreAt (modDie s d f) i' = coreAt s i' := rfl
@[simp] theorem clusterAt_modDie (s : State) (d : Nat) (f : DieSt → DieSt) (i' : Nat) : clusterAt (modDie s d f) i' = clusterAt s i' := rfl
@[simp] theorem homeAt_modDie (s : State) (d : Nat) (f : DieSt → DieSt) (i' : Nat) : homeAt (modDie s d f) i' = homeAt s i' := rfl
@[simp] theorem arbAt_modDie (s : State) (d : Nat) (f : DieSt → DieSt) (i' : Nat) : arbAt (modDie s d f) i' = arbAt s i' := rfl
@[simp] theorem me_modDie (s : State) (d : Nat) (f : DieSt → DieSt) : me (modDie s d f) = me s := rfl
@[simp] theorem ctxAt_modHome (s : State) (h : Nat) (f : HomeSt → HomeSt) (i' : Nat) : ctxAt (modHome s h f) i' = ctxAt s i' := rfl
@[simp] theorem coreAt_modHome (s : State) (h : Nat) (f : HomeSt → HomeSt) (i' : Nat) : coreAt (modHome s h f) i' = coreAt s i' := rfl
@[simp] theorem clusterAt_modHome (s : State) (h : Nat) (f : HomeSt → HomeSt) (i' : Nat) : clusterAt (modHome s h f) i' = clusterAt s i' := rfl
@[simp] theorem dieAt_modHome (s : State) (h : Nat) (f : HomeSt → HomeSt) (i' : Nat) : dieAt (modHome s h f) i' = dieAt s i' := rfl
@[simp] theorem arbAt_modHome (s : State) (h : Nat) (f : HomeSt → HomeSt) (i' : Nat) : arbAt (modHome s h f) i' = arbAt s i' := rfl
@[simp] theorem me_modHome (s : State) (h : Nat) (f : HomeSt → HomeSt) : me (modHome s h f) = me s := rfl
@[simp] theorem ctxAt_modArb (s : State) (a : Nat) (f : ArbSt → ArbSt) (i' : Nat) : ctxAt (modArb s a f) i' = ctxAt s i' := rfl
@[simp] theorem coreAt_modArb (s : State) (a : Nat) (f : ArbSt → ArbSt) (i' : Nat) : coreAt (modArb s a f) i' = coreAt s i' := rfl
@[simp] theorem clusterAt_modArb (s : State) (a : Nat) (f : ArbSt → ArbSt) (i' : Nat) : clusterAt (modArb s a f) i' = clusterAt s i' := rfl
@[simp] theorem dieAt_modArb (s : State) (a : Nat) (f : ArbSt → ArbSt) (i' : Nat) : dieAt (modArb s a f) i' = dieAt s i' := rfl
@[simp] theorem homeAt_modArb (s : State) (a : Nat) (f : ArbSt → ArbSt) (i' : Nat) : homeAt (modArb s a f) i' = homeAt s i' := rfl
@[simp] theorem me_modArb (s : State) (a : Nat) (f : ArbSt → ArbSt) : me (modArb s a f) = me s := rfl
@[simp] theorem ctxAt_modFox (s : State) (f : FoxSt → FoxSt) (i' : Nat) : ctxAt (modFox s f) i' = ctxAt s i' := rfl
@[simp] theorem coreAt_modFox (s : State) (f : FoxSt → FoxSt) (i' : Nat) : coreAt (modFox s f) i' = coreAt s i' := rfl
@[simp] theorem clusterAt_modFox (s : State) (f : FoxSt → FoxSt) (i' : Nat) : clusterAt (modFox s f) i' = clusterAt s i' := rfl
@[simp] theorem dieAt_modFox (s : State) (f : FoxSt → FoxSt) (i' : Nat) : dieAt (modFox s f) i' = dieAt s i' := rfl
@[simp] theorem homeAt_modFox (s : State) (f : FoxSt → FoxSt) (i' : Nat) : homeAt (modFox s f) i' = homeAt s i' := rfl
@[simp] theorem arbAt_modFox (s : State) (f : FoxSt → FoxSt) (i' : Nat) : arbAt (modFox s f) i' = arbAt s i' := rfl
@[simp] theorem me_modFox (s : State) (f : FoxSt → FoxSt) : me (modFox s f) = me s := rfl
@[simp] theorem ctxAt_modIo (s : State) (f : IoSt → IoSt) (i' : Nat) : ctxAt (modIo s f) i' = ctxAt s i' := rfl
@[simp] theorem coreAt_modIo (s : State) (f : IoSt → IoSt) (i' : Nat) : coreAt (modIo s f) i' = coreAt s i' := rfl
@[simp] theorem clusterAt_modIo (s : State) (f : IoSt → IoSt) (i' : Nat) : clusterAt (modIo s f) i' = clusterAt s i' := rfl
@[simp] theorem dieAt_modIo (s : State) (f : IoSt → IoSt) (i' : Nat) : dieAt (modIo s f) i' = dieAt s i' := rfl
@[simp] theorem homeAt_modIo (s : State) (f : IoSt → IoSt) (i' : Nat) : homeAt (modIo s f) i' = homeAt s i' := rfl
@[simp] theorem arbAt_modIo (s : State) (f : IoSt → IoSt) (i' : Nat) : arbAt (modIo s f) i' = arbAt s i' := rfl
@[simp] theorem me_modIo (s : State) (f : IoSt → IoSt) : me (modIo s f) = me s := rfl
@[simp] theorem ctxAt_post (s : State) (u : Nat) (i : Instr) (i' : Nat) : ctxAt (post s u i) i' = ctxAt s i' := rfl
@[simp] theorem coreAt_post (s : State) (u : Nat) (i : Instr) (i' : Nat) : coreAt (post s u i) i' = coreAt s i' := rfl
@[simp] theorem clusterAt_post (s : State) (u : Nat) (i : Instr) (i' : Nat) : clusterAt (post s u i) i' = clusterAt s i' := rfl
@[simp] theorem dieAt_post (s : State) (u : Nat) (i : Instr) (i' : Nat) : dieAt (post s u i) i' = dieAt s i' := rfl
@[simp] theorem homeAt_post (s : State) (u : Nat) (i : Instr) (i' : Nat) : homeAt (post s u i) i' = homeAt s i' := rfl
@[simp] theorem arbAt_post (s : State) (u : Nat) (i : Instr) (i' : Nat) : arbAt (post s u i) i' = arbAt s i' := rfl
@[simp] theorem me_post (s : State) (u : Nat) (i : Instr) : me (post s u i) = me s := rfl
@[simp] theorem ctxAt_postIn (s : State) (d u : Nat) (i : Instr) (i' : Nat) : ctxAt (postIn s d u i) i' = ctxAt s i' := rfl
@[simp] theorem coreAt_postIn (s : State) (d u : Nat) (i : Instr) (i' : Nat) : coreAt (postIn s d u i) i' = coreAt s i' := rfl
@[simp] theorem clusterAt_postIn (s : State) (d u : Nat) (i : Instr) (i' : Nat) : clusterAt (postIn s d u i) i' = clusterAt s i' := rfl
@[simp] theorem dieAt_postIn (s : State) (d u : Nat) (i : Instr) (i' : Nat) : dieAt (postIn s d u i) i' = dieAt s i' := rfl
@[simp] theorem homeAt_postIn (s : State) (d u : Nat) (i : Instr) (i' : Nat) : homeAt (postIn s d u i) i' = homeAt s i' := rfl
@[simp] theorem arbAt_postIn (s : State) (d u : Nat) (i : Instr) (i' : Nat) : arbAt (postIn s d u i) i' = arbAt s i' := rfl
@[simp] theorem me_postIn (s : State) (d u : Nat) (i : Instr) : me (postIn s d u i) = me s := rfl
@[simp] theorem ctxAt_takeOff (s : State) (n u : Nat) (i' : Nat) : ctxAt (takeOff s n u) i' = ctxAt s i' := rfl
@[simp] theorem coreAt_takeOff (s : State) (n u : Nat) (i' : Nat) : coreAt (takeOff s n u) i' = coreAt s i' := rfl
@[simp] theorem clusterAt_takeOff (s : State) (n u : Nat) (i' : Nat) : clusterAt (takeOff s n u) i' = clusterAt s i' := rfl
@[simp] theorem dieAt_takeOff (s : State) (n u : Nat) (i' : Nat) : dieAt (takeOff s n u) i' = dieAt s i' := rfl
@[simp] theorem homeAt_takeOff (s : State) (n u : Nat) (i' : Nat) : homeAt (takeOff s n u) i' = homeAt s i' := rfl
@[simp] theorem arbAt_takeOff (s : State) (n u : Nat) (i' : Nat) : arbAt (takeOff s n u) i' = arbAt s i' := rfl
@[simp] theorem ctxAt_tickOver (s : State) (i' : Nat) : ctxAt (tickOver s) i' = ctxAt s i' := rfl
@[simp] theorem coreAt_tickOver (s : State) (i' : Nat) : coreAt (tickOver s) i' = coreAt s i' := rfl
@[simp] theorem clusterAt_tickOver (s : State) (i' : Nat) : clusterAt (tickOver s) i' = clusterAt s i' := rfl
@[simp] theorem dieAt_tickOver (s : State) (i' : Nat) : dieAt (tickOver s) i' = dieAt s i' := rfl
@[simp] theorem homeAt_tickOver (s : State) (i' : Nat) : homeAt (tickOver s) i' = homeAt s i' := rfl
@[simp] theorem arbAt_tickOver (s : State) (i' : Nat) : arbAt (tickOver s) i' = arbAt s i' := rfl
@[simp] theorem me_tickOver (s : State) : me (tickOver s) = me s := rfl

/-! ## Units after an update of the same kind -/

@[simp] theorem ctxAt_setCtx (s : State) (l : Nat) (c : Ctx) : ctxAt (setCtx s l c) l = c := by simp [ctxAt]
theorem ctxAt_setCtx_other (s : State) {l k : Nat} (c : Ctx) (h : k ≠ l) : ctxAt (setCtx s l c) k = ctxAt s k := by
  simp [ctxAt, tblGet_tblSet_other _ _ _ h]
@[simp] theorem ctxAt_modCtx (s : State) (l : Nat) (f : Ctx → Ctx) : ctxAt (modCtx s l f) l = f (ctxAt s l) := by simp [modCtx]
theorem ctxAt_modCtx_other (s : State) {l k : Nat} (f : Ctx → Ctx) (h : k ≠ l) : ctxAt (modCtx s l f) k = ctxAt s k :=
  ctxAt_setCtx_other s _ h
@[simp] theorem me_modMe (s : State) (f : Ctx → Ctx) : me (modMe s f) = f (me s) := by simp [me, modMe, modCtx]
@[simp] theorem me_setMe (s : State) (c : Ctx) : me (setMe s c) = c := by simp [me, setMe]
theorem ctxAt_modMe_other (s : State) {k : Nat} (f : Ctx → Ctx) (h : k ≠ s.cur) : ctxAt (modMe s f) k = ctxAt s k :=
  ctxAt_setCtx_other s _ h
@[simp] theorem coreAt_modCore (s : State) (k : Nat) (f : CoreSt → CoreSt) : coreAt (modCore s k f) k = f (coreAt s k) := by
  simp [coreAt]
theorem coreAt_modCore_other (s : State) {k n : Nat} (f : CoreSt → CoreSt) (h : n ≠ k) : coreAt (modCore s k f) n = coreAt s n := by
  simp [coreAt, tblGet_tblSet_other _ _ _ h]
@[simp] theorem clusterAt_modCluster (s : State) (k : Nat) (f : ClusterSt → ClusterSt) :
    clusterAt (modCluster s k f) k = f (clusterAt s k) := by simp [clusterAt]
theorem clusterAt_modCluster_other (s : State) {k n : Nat} (f : ClusterSt → ClusterSt) (h : n ≠ k) :
    clusterAt (modCluster s k f) n = clusterAt s n := by simp [clusterAt, tblGet_tblSet_other _ _ _ h]
@[simp] theorem dieAt_modDie (s : State) (d : Nat) (f : DieSt → DieSt) : dieAt (modDie s d f) d = f (dieAt s d) := by simp [dieAt]
@[simp] theorem homeAt_modHome (s : State) (h : Nat) (f : HomeSt → HomeSt) : homeAt (modHome s h f) h = f (homeAt s h) := by
  simp [homeAt]
@[simp] theorem arbAt_modArb (s : State) (a : Nat) (f : ArbSt → ArbSt) : arbAt (modArb s a f) a = f (arbAt s a) := by
  simp [arbAt]

/-! ## Registers (R28–R31) -/

theorem ring_get_set (v : Vector Word 16) (h i : Fin 16) (x : Word) :
    (v.set h.val x h.isLt).get i = if i = h then x else v.get i := by
  show (v.set h.val x h.isLt)[i.val] = if i = h then x else v[i.val]
  rw [Vector.getElem_set]
  by_cases e : i = h
  · simp [e]
  · have : ¬ h.val = i.val := fun k => e (Fin.ext k.symm)
    simp [e, this]
theorem fin_sub_zero (h : Fin 16) : h - 0 = h := by revert h; decide
theorem fin_age (h n : Fin 16) (hn : n ≠ 15) : h + 1 - (n + 1) = h - n ∧ (h - n) ≠ h + 1 := by
  revert h n; decide
/-- R28: the newest result is q0. -/
@[simp] theorem qGet_push_zero (r : Regs) (d : Dest) (x : Word) : qGet (push r d x) 0 = x := by
  cases d <;> simp [push, qGet, ring_get_set, fin_sub_zero]
/-- R28: a push ages every older result by one. -/
theorem qGet_push_succ (r : Regs) (d : Dest) (x : Word) (n : Fin 16) (hn : n ≠ 15) : qGet (push r d x) (n + 1) = qGet r n := by
  obtain ⟨e, ne⟩ := fin_age r.head n hn
  cases d <;> simp [push, qGet, ring_get_set, e, ne]
/-- R44: the destination field copies the result to one keep register. -/
theorem keep_push (r : Regs) (n m : Fin 16) (x : Word) :
    (push r (.keep n) x).k.get m = if m = n then x else r.k.get m := by simp [push, ring_get_set]
theorem k_push (r : Regs) (x : Word) : (push r .push x).k = r.k := rfl

/-- R31. -/
@[simp] theorem maskGet_zero (r : Regs) : maskGet r 0 = BitVec.allOnes 64 := rfl
@[simp] theorem maskSet_zero (r : Regs) (x : Word) : maskSet r 0 x = r := rfl

end Sys2Proof.Machine
end

