-- ==== Sys2Proof/Laws/Access.lean ====
section
/-! SUPPORT. What an access that answers leaves as it was: only the homes and the agenda learn of it. -/

namespace Sys2Proof.Machine

set_option Elab.async false

/-- Everything but the homes and the agenda stands. -/
structure HomesOnly (s t : State) : Prop where
  all : t = { s with homes := t.homes, agenda := t.agenda }

theorem HomesOnly.refl (s : State) : HomesOnly s s := ⟨rfl⟩
theorem HomesOnly.trans {s t u : State} (h : HomesOnly s t) (k : HomesOnly t u) : HomesOnly s u := by
  refine ⟨?_⟩
  have e := k.all
  rw [h.all] at e
  exact e
theorem HomesOnly.mem {s t : State} (h : HomesOnly s t) : t.mem = s.mem := by rw [h.all]
theorem HomesOnly.ctxs {s t : State} (h : HomesOnly s t) : t.ctxs = s.ctxs := by rw [h.all]
theorem HomesOnly.cur {s t : State} (h : HomesOnly s t) : t.cur = s.cur := by rw [h.all]
theorem HomesOnly.me {s t : State} (h : HomesOnly s t) : Machine.me t = Machine.me s := by rw [h.all]; rfl

theorem homesOnly_modHome (s : State) (h : Nat) (f : HomeSt → HomeSt) : HomesOnly s (modHome s h f) := ⟨rfl⟩
theorem homesOnly_post (s : State) (u : Nat) (i : Instr) : HomesOnly s (post s u i) := ⟨rfl⟩

theorem homesOnly_foldl {α : Type} {f : State → α → State} (hf : ∀ s x, HomesOnly s (f s x)) (xs : List α) (s : State) :
    HomesOnly s (xs.foldl f s) := by
  induction xs generalizing s with
  | nil => exact .refl s
  | cons x xs ih => exact (hf s x).trans (ih _)

theorem homesOnly_remapPut (s : State) (h : Nat) (r : Remap) : HomesOnly s (remapPut s h r) :=
  homesOnly_modHome s h _

theorem homesOnly_if {c : Prop} [Decidable c] {s t u : State} (h : HomesOnly s t) (k : HomesOnly s u) : HomesOnly s (if c then t else u) := by
  split <;> assumption

/-- R182: what a filter that serves an access leaves. -/
theorem throughFilter_homes {h asid : Nat} {write : Bool} (rs : List (Nat × Nat)) {s t : State}
    (e : (throughFilter s h asid write rs).1 = some t) : HomesOnly s t := by
  induction rs generalizing s with
  | nil => cases e; exact HomesOnly.refl _
  | cons r rest ih =>
    unfold throughFilter at e
    split at e
    · cases e
    · rename_i r' _
      split at e
      · cases e
      · split at e
        · cases e
        · exact (homesOnly_remapPut _ h r').trans (ih e)

theorem homesOnly_dequeue (s : State) (h l : Nat) : HomesOnly s (dequeue s h l) := by
  unfold dequeue; repeat' split
  all_goals first | exact .refl s | exact homesOnly_modHome _ _ _

theorem homesOnly_claimPin (s : State) (h pa asid va die : Nat) : HomesOnly s (claimPin s h pa asid va die) := by
  unfold claimPin; repeat' split
  all_goals first | exact .refl s | exact homesOnly_modHome _ _ _

theorem homesOnly_claimCp (s : State) (h pa asid va core : Nat) : HomesOnly s (claimCp s h pa asid va core) := by
  unfold claimCp; repeat' split
  all_goals first | exact .refl s | exact homesOnly_modHome _ _ _

/-- If it answers, the access leaves everything but the homes and the agenda. -/
def Stays (s : State) : Acc → Prop
  | .ok _ v => HomesOnly s v
  | _ => True

theorem stays_if {s : State} {c : Prop} [Decidable c] {a b : Acc} (h : Stays s a) (k : Stays s b) : Stays s (if c then a else b) := by
  by_cases hc : c
  · rwa [if_pos hc]
  · rwa [if_neg hc]

theorem homeAccess_stays (s : State) (q : AccReq) (va : Nat) : Stays s (homeAccess s q va) := by
  unfold homeAccess
  extract_lets l c asid h write tv hit
  clear_value hit
  refine stays_if trivial (stays_if trivial (stays_if trivial ?_))
  cases hit with
  | none => cases c.walkFault with
    | none => trivial
    | some x => exact stays_if trivial trivial
  | some lf =>
  dsimp only
  cases leafFault s lf va q.need (isUser c && !q.sup) with
  | some x => trivial
  | none =>
  refine stays_if (stays_if trivial (HomesOnly.refl s)) (stays_if trivial (stays_if trivial (stays_if trivial ?_)))
  split
  · trivial
  · rename_i u _ e
    refine stays_if trivial ?_
    exact (((homesOnly_if (homesOnly_claimCp _ _ _ _ _ _) (.refl _)).trans (homesOnly_if (homesOnly_claimPin _ _ _ _ _ _) (.refl _))).trans
      (throughFilter_homes _ (congrArg Prod.fst e))).trans (homesOnly_dequeue _ _ _)

theorem access_stays (s : State) (q : AccReq) : Stays s (access s q) := by
  unfold access
  extract_lets l c ea cls tv last die scratch
  refine stays_if trivial (stays_if trivial (stays_if trivial (stays_if trivial (stays_if trivial (stays_if trivial (stays_if trivial ?_))))))
  generalize watchHit _ _ _ _ _ = w
  cases w with
  | some i => trivial
  | none =>
    exact stays_if trivial (stays_if trivial (stays_if trivial
      (stays_if (HomesOnly.refl s) (stays_if (HomesOnly.refl s) (stays_if (HomesOnly.refl s) (homeAccess_stays _ _ _))))))

/-- R137: an access that passes its checks changes nothing but what the homes hold and the agenda. -/
theorem access_ok {s v : State} {q : AccReq} {t : Target} (h : access s q = .ok t v) : HomesOnly s v := by
  have := access_stays s q
  rwa [h] at this

end Sys2Proof.Machine
end

