-- ==== Sys2Proof/Laws/Fields.lean ====
section
/-! SUPPORT. The fields of the nine formats read back what the format words were built from (R42), and the operand codes read
back their operands (R43–R46, R49, R53, R55, R57–R59). -/

namespace Sys2Proof

/-! ## Fields of the formats (R42) -/

@[simp] theorem fOp_mkA (op : BitVec 7) (a : BitVec 5) (b : BitVec 5) (d : BitVec 5) (w : BitVec 1) (f : BitVec 9) : fOp (mkA op a b d w f) = op := by
  apply BitVec.eq_of_getLsbD_eq; intro n hn
  simp only [fOp, mkA, BitVec.getLsbD_extractLsb', BitVec.getLsbD_append, hn, decide_true, Bool.true_and]
  repeat' split
  all_goals first | omega | (congr 1; omega)

@[simp] theorem fA_mkA (op : BitVec 7) (a : BitVec 5) (b : BitVec 5) (d : BitVec 5) (w : BitVec 1) (f : BitVec 9) : fA (mkA op a b d w f) = a := by
  apply BitVec.eq_of_getLsbD_eq; intro n hn
  simp only [fA, mkA, BitVec.getLsbD_extractLsb', BitVec.getLsbD_append, hn, decide_true, Bool.true_and]
  repeat' split
  all_goals first | omega | (congr 1; omega)

@[simp] theorem fB_mkA (op : BitVec 7) (a : BitVec 5) (b : BitVec 5) (d : BitVec 5) (w : BitVec 1) (f : BitVec 9) : fB (mkA op a b d w f) = b := by
  apply BitVec.eq_of_getLsbD_eq; intro n hn
  simp only [fB, mkA, BitVec.getLsbD_extractLsb', BitVec.getLsbD_append, hn, decide_true, Bool.true_and]
  repeat' split
  all_goals first | omega | (congr 1; omega)

@[simp] theorem fD_mkA (op : BitVec 7) (a : BitVec 5) (b : BitVec 5) (d : BitVec 5) (w : BitVec 1) (f : BitVec 9) : fD (mkA op a b d w f) = d := by
  apply BitVec.eq_of_getLsbD_eq; intro n hn
  simp only [fD, mkA, BitVec.getLsbD_extractLsb', BitVec.getLsbD_append, hn, decide_true, Bool.true_and]
  repeat' split
  all_goals first | omega | (congr 1; omega)

@[simp] theorem fW_mkA (op : BitVec 7) (a : BitVec 5) (b : BitVec 5) (d : BitVec 5) (w : BitVec 1) (f : BitVec 9) : fW (mkA op a b d w f) = w := by
  apply BitVec.eq_of_getLsbD_eq; intro n hn
  simp only [fW, mkA, BitVec.getLsbD_extractLsb', BitVec.getLsbD_append, hn, decide_true, Bool.true_and]
  repeat' split
  all_goals first | omega | (congr 1; omega)

@[simp] theorem fF9_mkA (op : BitVec 7) (a : BitVec 5) (b : BitVec 5) (d : BitVec 5) (w : BitVec 1) (f : BitVec 9) : fF9 (mkA op a b d w f) = f := by
  apply BitVec.eq_of_getLsbD_eq; intro n hn
  simp only [fF9, mkA, BitVec.getLsbD_extractLsb', BitVec.getLsbD_append, hn, decide_true, Bool.true_and]
  repeat' split
  all_goals first | omega | (congr 1; omega)

@[simp] theorem fOp_mkA3 (op : BitVec 7) (a : BitVec 5) (b : BitVec 5) (d : BitVec 5) (c : BitVec 5) (f : BitVec 5) : fOp (mkA3 op a b d c f) = op := by
  apply BitVec.eq_of_getLsbD_eq; intro n hn
  simp only [fOp, mkA3, BitVec.getLsbD_extractLsb', BitVec.getLsbD_append, hn, decide_true, Bool.true_and]
  repeat' split
  all_goals first | omega | (congr 1; omega)

@[simp] theorem fA_mkA3 (op : BitVec 7) (a : BitVec 5) (b : BitVec 5) (d : BitVec 5) (c : BitVec 5) (f : BitVec 5) : fA (mkA3 op a b d c f) = a := by
  apply BitVec.eq_of_getLsbD_eq; intro n hn
  simp only [fA, mkA3, BitVec.getLsbD_extractLsb', BitVec.getLsbD_append, hn, decide_true, Bool.true_and]
  repeat' split
  all_goals first | omega | (congr 1; omega)

@[simp] theorem fB_mkA3 (op : BitVec 7) (a : BitVec 5) (b : BitVec 5) (d : BitVec 5) (c : BitVec 5) (f : BitVec 5) : fB (mkA3 op a b d c f) = b := by
  apply BitVec.eq_of_getLsbD_eq; intro n hn
  simp only [fB, mkA3, BitVec.getLsbD_extractLsb', BitVec.getLsbD_append, hn, decide_true, Bool.true_and]
  repeat' split
  all_goals first | omega | (congr 1; omega)

@[simp] theorem fD_mkA3 (op : BitVec 7) (a : BitVec 5) (b : BitVec 5) (d : BitVec 5) (c : BitVec 5) (f : BitVec 5) : fD (mkA3 op a b d c f) = d := by
  apply BitVec.eq_of_getLsbD_eq; intro n hn
  simp only [fD, mkA3, BitVec.getLsbD_extractLsb', BitVec.getLsbD_append, hn, decide_true, Bool.true_and]
  repeat' split
  all_goals first | omega | (congr 1; omega)

@[simp] theorem fC_mkA3 (op : BitVec 7) (a : BitVec 5) (b : BitVec 5) (d : BitVec 5) (c : BitVec 5) (f : BitVec 5) : fC (mkA3 op a b d c f) = c := by
  apply BitVec.eq_of_getLsbD_eq; intro n hn
  simp only [fC, mkA3, BitVec.getLsbD_extractLsb', BitVec.getLsbD_append, hn, decide_true, Bool.true_and]
  repeat' split
  all_goals first | omega | (congr 1; omega)

@[simp] theorem fF5_mkA3 (op : BitVec 7) (a : BitVec 5) (b : BitVec 5) (d : BitVec 5) (c : BitVec 5) (f : BitVec 5) : fF5 (mkA3 op a b d c f) = f := by
  apply BitVec.eq_of_getLsbD_eq; intro n hn
  simp only [fF5, mkA3, BitVec.getLsbD_extractLsb', BitVec.getLsbD_append, hn, decide_true, Bool.true_and]
  repeat' split
  all_goals first | omega | (congr 1; omega)

@[simp] theorem fOp_mkI (op : BitVec 7) (a : BitVec 5) (d : BitVec 5) (i : BitVec 15) : fOp (mkI op a d i) = op := by
  apply BitVec.eq_of_getLsbD_eq; intro n hn
  simp only [fOp, mkI, BitVec.getLsbD_extractLsb', BitVec.getLsbD_append, hn, decide_true, Bool.true_and]
  repeat' split
  all_goals first | omega | (congr 1; omega)

@[simp] theorem fA_mkI (op : BitVec 7) (a : BitVec 5) (d : BitVec 5) (i : BitVec 15) : fA (mkI op a d i) = a := by
  apply BitVec.eq_of_getLsbD_eq; intro n hn
  simp only [fA, mkI, BitVec.getLsbD_extractLsb', BitVec.getLsbD_append, hn, decide_true, Bool.true_and]
  repeat' split
  all_goals first | omega | (congr 1; omega)

@[simp] theorem fB_mkI (op : BitVec 7) (a : BitVec 5) (d : BitVec 5) (i : BitVec 15) : fB (mkI op a d i) = d := by
  apply BitVec.eq_of_getLsbD_eq; intro n hn
  simp only [fB, mkI, BitVec.getLsbD_extractLsb', BitVec.getLsbD_append, hn, decide_true, Bool.true_and]
  repeat' split
  all_goals first | omega | (congr 1; omega)

@[simp] theorem fImm_mkI (op : BitVec 7) (a : BitVec 5) (d : BitVec 5) (i : BitVec 15) : fImm (mkI op a d i) = i := by
  apply BitVec.eq_of_getLsbD_eq; intro n hn
  simp only [fImm, mkI, BitVec.getLsbD_extractLsb', BitVec.getLsbD_append, hn, decide_true, Bool.true_and]
  repeat' split
  all_goals first | omega | (congr 1; omega)

@[simp] theorem fOp_mkJ (op : BitVec 7) (o : BitVec 25) : fOp (mkJ op o) = op := by
  apply BitVec.eq_of_getLsbD_eq; intro n hn
  simp only [fOp, mkJ, BitVec.getLsbD_extractLsb', BitVec.getLsbD_append, hn, decide_true, Bool.true_and]
  repeat' split
  all_goals first | omega | (congr 1; omega)

@[simp] theorem fOff25_mkJ (op : BitVec 7) (o : BitVec 25) : fOff25 (mkJ op o) = o := by
  apply BitVec.eq_of_getLsbD_eq; intro n hn
  simp only [fOff25, mkJ, BitVec.getLsbD_extractLsb', BitVec.getLsbD_append, hn, decide_true, Bool.true_and]
  repeat' split
  all_goals first | omega | (congr 1; omega)

@[simp] theorem fOp_mkM (op : BitVec 7) (a : BitVec 5) (b : BitVec 5) (z : BitVec 2) (p : BitVec 2) (o : BitVec 11) : fOp (mkM op a b z p o) = op := by
  apply BitVec.eq_of_getLsbD_eq; intro n hn
  simp only [fOp, mkM, BitVec.getLsbD_extractLsb', BitVec.getLsbD_append, hn, decide_true, Bool.true_and]
  repeat' split
  all_goals first | omega | (congr 1; omega)

@[simp] theorem fA_mkM (op : BitVec 7) (a : BitVec 5) (b : BitVec 5) (z : BitVec 2) (p : BitVec 2) (o : BitVec 11) : fA (mkM op a b z p o) = a := by
  apply BitVec.eq_of_getLsbD_eq; intro n hn
  simp only [fA, mkM, BitVec.getLsbD_extractLsb', BitVec.getLsbD_append, hn, decide_true, Bool.true_and]
  repeat' split
  all_goals first | omega | (congr 1; omega)

@[simp] theorem fB_mkM (op : BitVec 7) (a : BitVec 5) (b : BitVec 5) (z : BitVec 2) (p : BitVec 2) (o : BitVec 11) : fB (mkM op a b z p o) = b := by
  apply BitVec.eq_of_getLsbD_eq; intro n hn
  simp only [fB, mkM, BitVec.getLsbD_extractLsb', BitVec.getLsbD_append, hn, decide_true, Bool.true_and]
  repeat' split
  all_goals first | omega | (congr 1; omega)

@[simp] theorem fSize_mkM (op : BitVec 7) (a : BitVec 5) (b : BitVec 5) (z : BitVec 2) (p : BitVec 2) (o : BitVec 11) : fSize (mkM op a b z p o) = z := by
  apply BitVec.eq_of_getLsbD_eq; intro n hn
  simp only [fSize, mkM, BitVec.getLsbD_extractLsb', BitVec.getLsbD_append, hn, decide_true, Bool.true_and]
  repeat' split
  all_goals first | omega | (congr 1; omega)

@[simp] theorem fSpan_mkM (op : BitVec 7) (a : BitVec 5) (b : BitVec 5) (z : BitVec 2) (p : BitVec 2) (o : BitVec 11) : fSpan (mkM op a b z p o) = p := by
  apply BitVec.eq_of_getLsbD_eq; intro n hn
  simp only [fSpan, mkM, BitVec.getLsbD_extractLsb', BitVec.getLsbD_append, hn, decide_true, Bool.true_and]
  repeat' split
  all_goals first | omega | (congr 1; omega)

@[simp] theorem fOff11_mkM (op : BitVec 7) (a : BitVec 5) (b : BitVec 5) (z : BitVec 2) (p : BitVec 2) (o : BitVec 11) : fOff11 (mkM op a b z p o) = o := by
  apply BitVec.eq_of_getLsbD_eq; intro n hn
  simp only [fOff11, mkM, BitVec.getLsbD_extractLsb', BitVec.getLsbD_append, hn, decide_true, Bool.true_and]
  repeat' split
  all_goals first | omega | (congr 1; omega)

@[simp] theorem fOp_mkV (op : BitVec 7) (a : BitVec 5) (b : BitVec 5) (d : BitVec 5) (m : BitVec 3) (f : BitVec 7) : fOp (mkV op a b d m f) = op := by
  apply BitVec.eq_of_getLsbD_eq; intro n hn
  simp only [fOp, mkV, BitVec.getLsbD_extractLsb', BitVec.getLsbD_append, hn, decide_true, Bool.true_and]
  repeat' split
  all_goals first | omega | (congr 1; omega)

@[simp] theorem fA_mkV (op : BitVec 7) (a : BitVec 5) (b : BitVec 5) (d : BitVec 5) (m : BitVec 3) (f : BitVec 7) : fA (mkV op a b d m f) = a := by
  apply BitVec.eq_of_getLsbD_eq; intro n hn
  simp only [fA, mkV, BitVec.getLsbD_extractLsb', BitVec.getLsbD_append, hn, decide_true, Bool.true_and]
  repeat' split
  all_goals first | omega | (congr 1; omega)

@[simp] theorem fB_mkV (op : BitVec 7) (a : BitVec 5) (b : BitVec 5) (d : BitVec 5) (m : BitVec 3) (f : BitVec 7) : fB (mkV op a b d m f) = b := by
  apply BitVec.eq_of_getLsbD_eq; intro n hn
  simp only [fB, mkV, BitVec.getLsbD_extractLsb', BitVec.getLsbD_append, hn, decide_true, Bool.true_and]
  repeat' split
  all_goals first | omega | (congr 1; omega)

@[simp] theorem fD_mkV (op : BitVec 7) (a : BitVec 5) (b : BitVec 5) (d : BitVec 5) (m : BitVec 3) (f : BitVec 7) : fD (mkV op a b d m f) = d := by
  apply BitVec.eq_of_getLsbD_eq; intro n hn
  simp only [fD, mkV, BitVec.getLsbD_extractLsb', BitVec.getLsbD_append, hn, decide_true, Bool.true_and]
  repeat' split
  all_goals first | omega | (congr 1; omega)

@[simp] theorem fMask_mkV (op : BitVec 7) (a : BitVec 5) (b : BitVec 5) (d : BitVec 5) (m : BitVec 3) (f : BitVec 7) : fMask (mkV op a b d m f) = m := by
  apply BitVec.eq_of_getLsbD_eq; intro n hn
  simp only [fMask, mkV, BitVec.getLsbD_extractLsb', BitVec.getLsbD_append, hn, decide_true, Bool.true_and]
  repeat' split
  all_goals first | omega | (congr 1; omega)

@[simp] theorem fF7_mkV (op : BitVec 7) (a : BitVec 5) (b : BitVec 5) (d : BitVec 5) (m : BitVec 3) (f : BitVec 7) : fF7 (mkV op a b d m f) = f := by
  apply BitVec.eq_of_getLsbD_eq; intro n hn
  simp only [fF7, mkV, BitVec.getLsbD_extractLsb', BitVec.getLsbD_append, hn, decide_true, Bool.true_and]
  repeat' split
  all_goals first | omega | (congr 1; omega)

@[simp] theorem fOp_mkVM (op : BitVec 7) (a : BitVec 5) (b : BitVec 5) (d : BitVec 5) (m : BitVec 3) (p : BitVec 2) (f : BitVec 5) : fOp (mkVM op a b d m p f) = op := by
  apply BitVec.eq_of_getLsbD_eq; intro n hn
  simp only [fOp, mkVM, BitVec.getLsbD_extractLsb', BitVec.getLsbD_append, hn, decide_true, Bool.true_and]
  repeat' split
  all_goals first | omega | (congr 1; omega)

@[simp] theorem fA_mkVM (op : BitVec 7) (a : BitVec 5) (b : BitVec 5) (d : BitVec 5) (m : BitVec 3) (p : BitVec 2) (f : BitVec 5) : fA (mkVM op a b d m p f) = a := by
  apply BitVec.eq_of_getLsbD_eq; intro n hn
  simp only [fA, mkVM, BitVec.getLsbD_extractLsb', BitVec.getLsbD_append, hn, decide_true, Bool.true_and]
  repeat' split
  all_goals first | omega | (congr 1; omega)

@[simp] theorem fB_mkVM (op : BitVec 7) (a : BitVec 5) (b : BitVec 5) (d : BitVec 5) (m : BitVec 3) (p : BitVec 2) (f : BitVec 5) : fB (mkVM op a b d m p f) = b := by
  apply BitVec.eq_of_getLsbD_eq; intro n hn
  simp only [fB, mkVM, BitVec.getLsbD_extractLsb', BitVec.getLsbD_append, hn, decide_true, Bool.true_and]
  repeat' split
  all_goals first | omega | (congr 1; omega)

@[simp] theorem fD_mkVM (op : BitVec 7) (a : BitVec 5) (b : BitVec 5) (d : BitVec 5) (m : BitVec 3) (p : BitVec 2) (f : BitVec 5) : fD (mkVM op a b d m p f) = d := by
  apply BitVec.eq_of_getLsbD_eq; intro n hn
  simp only [fD, mkVM, BitVec.getLsbD_extractLsb', BitVec.getLsbD_append, hn, decide_true, Bool.true_and]
  repeat' split
  all_goals first | omega | (congr 1; omega)

@[simp] theorem fMask_mkVM (op : BitVec 7) (a : BitVec 5) (b : BitVec 5) (d : BitVec 5) (m : BitVec 3) (p : BitVec 2) (f : BitVec 5) : fMask (mkVM op a b d m p f) = m := by
  apply BitVec.eq_of_getLsbD_eq; intro n hn
  simp only [fMask, mkVM, BitVec.getLsbD_extractLsb', BitVec.getLsbD_append, hn, decide_true, Bool.true_and]
  repeat' split
  all_goals first | omega | (congr 1; omega)

@[simp] theorem fVSpan_mkVM (op : BitVec 7) (a : BitVec 5) (b : BitVec 5) (d : BitVec 5) (m : BitVec 3) (p : BitVec 2) (f : BitVec 5) : fVSpan (mkVM op a b d m p f) = p := by
  apply BitVec.eq_of_getLsbD_eq; intro n hn
  simp only [fVSpan, mkVM, BitVec.getLsbD_extractLsb', BitVec.getLsbD_append, hn, decide_true, Bool.true_and]
  repeat' split
  all_goals first | omega | (congr 1; omega)

@[simp] theorem fF5_mkVM (op : BitVec 7) (a : BitVec 5) (b : BitVec 5) (d : BitVec 5) (m : BitVec 3) (p : BitVec 2) (f : BitVec 5) : fF5 (mkVM op a b d m p f) = f := by
  apply BitVec.eq_of_getLsbD_eq; intro n hn
  simp only [fF5, mkVM, BitVec.getLsbD_extractLsb', BitVec.getLsbD_append, hn, decide_true, Bool.true_and]
  repeat' split
  all_goals first | omega | (congr 1; omega)

@[simp] theorem fOp_mkS (op : BitVec 7) (a : BitVec 5) (b : BitVec 5) (d : BitVec 5) (s : BitVec 10) : fOp (mkS op a b d s) = op := by
  apply BitVec.eq_of_getLsbD_eq; intro n hn
  simp only [fOp, mkS, BitVec.getLsbD_extractLsb', BitVec.getLsbD_append, hn, decide_true, Bool.true_and]
  repeat' split
  all_goals first | omega | (congr 1; omega)

@[simp] theorem fA_mkS (op : BitVec 7) (a : BitVec 5) (b : BitVec 5) (d : BitVec 5) (s : BitVec 10) : fA (mkS op a b d s) = a := by
  apply BitVec.eq_of_getLsbD_eq; intro n hn
  simp only [fA, mkS, BitVec.getLsbD_extractLsb', BitVec.getLsbD_append, hn, decide_true, Bool.true_and]
  repeat' split
  all_goals first | omega | (congr 1; omega)

@[simp] theorem fB_mkS (op : BitVec 7) (a : BitVec 5) (b : BitVec 5) (d : BitVec 5) (s : BitVec 10) : fB (mkS op a b d s) = b := by
  apply BitVec.eq_of_getLsbD_eq; intro n hn
  simp only [fB, mkS, BitVec.getLsbD_extractLsb', BitVec.getLsbD_append, hn, decide_true, Bool.true_and]
  repeat' split
  all_goals first | omega | (congr 1; omega)

@[simp] theorem fD_mkS (op : BitVec 7) (a : BitVec 5) (b : BitVec 5) (d : BitVec 5) (s : BitVec 10) : fD (mkS op a b d s) = d := by
  apply BitVec.eq_of_getLsbD_eq; intro n hn
  simp only [fD, mkS, BitVec.getLsbD_extractLsb', BitVec.getLsbD_append, hn, decide_true, Bool.true_and]
  repeat' split
  all_goals first | omega | (congr 1; omega)

@[simp] theorem fSub_mkS (op : BitVec 7) (a : BitVec 5) (b : BitVec 5) (d : BitVec 5) (s : BitVec 10) : fSub (mkS op a b d s) = s := by
  apply BitVec.eq_of_getLsbD_eq; intro n hn
  simp only [fSub, mkS, BitVec.getLsbD_extractLsb', BitVec.getLsbD_append, hn, decide_true, Bool.true_and]
  repeat' split
  all_goals first | omega | (congr 1; omega)


/-! Bits of the last field. -/

@[simp] theorem low_mkA (op : BitVec 7) (a b d : BitVec 5) (w : BitVec 1) (f : BitVec 9) (s' l : Nat) (h : s' + l ≤ 9) : (mkA op a b d w f).extractLsb' s' l = f.extractLsb' s' l := by
  apply BitVec.eq_of_getLsbD_eq; intro n hn
  simp only [mkA, BitVec.getLsbD_extractLsb', BitVec.getLsbD_append, hn, decide_true, Bool.true_and]
  rw [if_pos (by omega)]

@[simp] theorem low_mkA3 (op : BitVec 7) (a b d c f : BitVec 5) (s' l : Nat) (h : s' + l ≤ 5) : (mkA3 op a b d c f).extractLsb' s' l = f.extractLsb' s' l := by
  apply BitVec.eq_of_getLsbD_eq; intro n hn
  simp only [mkA3, BitVec.getLsbD_extractLsb', BitVec.getLsbD_append, hn, decide_true, Bool.true_and]
  rw [if_pos (by omega)]

@[simp] theorem low_mkI (op : BitVec 7) (a d : BitVec 5) (i : BitVec 15) (s' l : Nat) (h : s' + l ≤ 15) : (mkI op a d i).extractLsb' s' l = i.extractLsb' s' l := by
  apply BitVec.eq_of_getLsbD_eq; intro n hn
  simp only [mkI, BitVec.getLsbD_extractLsb', BitVec.getLsbD_append, hn, decide_true, Bool.true_and]
  rw [if_pos (by omega)]

@[simp] theorem low_mkV (op : BitVec 7) (a b d : BitVec 5) (m : BitVec 3) (f : BitVec 7) (s' l : Nat) (h : s' + l ≤ 7) : (mkV op a b d m f).extractLsb' s' l = f.extractLsb' s' l := by
  apply BitVec.eq_of_getLsbD_eq; intro n hn
  simp only [mkV, BitVec.getLsbD_extractLsb', BitVec.getLsbD_append, hn, decide_true, Bool.true_and]
  rw [if_pos (by omega)]

@[simp] theorem low_mkVM (op : BitVec 7) (a b d : BitVec 5) (m : BitVec 3) (p : BitVec 2) (f : BitVec 5) (s' l : Nat) (h : s' + l ≤ 5) : (mkVM op a b d m p f).extractLsb' s' l = f.extractLsb' s' l := by
  apply BitVec.eq_of_getLsbD_eq; intro n hn
  simp only [mkVM, BitVec.getLsbD_extractLsb', BitVec.getLsbD_append, hn, decide_true, Bool.true_and]
  rw [if_pos (by omega)]

@[simp] theorem low_mkS (op : BitVec 7) (a b d : BitVec 5) (s : BitVec 10) (s' l : Nat) (h : s' + l ≤ 10) : (mkS op a b d s).extractLsb' s' l = s.extractLsb' s' l := by
  apply BitVec.eq_of_getLsbD_eq; intro n hn
  simp only [mkS, BitVec.getLsbD_extractLsb', BitVec.getLsbD_append, hn, decide_true, Bool.true_and]
  rw [if_pos (by omega)]

@[simp] theorem mask_mkV (op : BitVec 7) (a b d : BitVec 5) (m : BitVec 3) (f : BitVec 7) (s' l : Nat) (h : 7 ≤ s') (h' : s' + l ≤ 10) :
    (mkV op a b d m f).extractLsb' s' l = m.extractLsb' (s' - 7) l := by
  apply BitVec.eq_of_getLsbD_eq; intro n hn
  simp only [mkV, BitVec.getLsbD_extractLsb', BitVec.getLsbD_append, hn, decide_true, Bool.true_and]
  rw [if_neg (by omega), if_pos (by omega)]
  congr 1; omega

@[simp] theorem fF5_mkV (op : BitVec 7) (a b d : BitVec 5) (m : BitVec 3) (f : BitVec 7) : fF5 (mkV op a b d m f) = f.extractLsb' 0 5 :=
  low_mkV op a b d m f 0 5 (by omega)

/-! Bits of two fields side by side. -/

theorem low_append {m n : Nat} (x : BitVec m) (y : BitVec n) (s' l : Nat) (h : s' + l ≤ n) :
    (x ++ y).extractLsb' s' l = y.extractLsb' s' l := by
  apply BitVec.eq_of_getLsbD_eq; intro k hk
  simp only [BitVec.getLsbD_extractLsb', BitVec.getLsbD_append, hk, decide_true, Bool.true_and]
  rw [if_pos (by omega)]

theorem high_append {m n : Nat} (x : BitVec m) (y : BitVec n) (s' l : Nat) (h : n ≤ s') :
    (x ++ y).extractLsb' s' l = x.extractLsb' (s' - n) l := by
  apply BitVec.eq_of_getLsbD_eq; intro k hk
  simp only [BitVec.getLsbD_extractLsb', BitVec.getLsbD_append, hk, decide_true, Bool.true_and]
  rw [if_neg (by omega)]
  congr 1; omega

/-! The same at the widths that stand in the encodings. -/

@[simp] theorem low_9_6 (x : BitVec 9) (y : BitVec 6) (s' l : Nat) (h : s' + l ≤ 6) :
    (x ++ y : BitVec 15).extractLsb' s' l = y.extractLsb' s' l := low_append x y s' l h
@[simp] theorem high_9_6 (x : BitVec 9) (y : BitVec 6) (s' l : Nat) (h : 6 ≤ s') :
    (x ++ y : BitVec 15).extractLsb' s' l = x.extractLsb' (s' - 6) l := high_append x y s' l h
@[simp] theorem low_3_6 (x : BitVec 3) (y : BitVec 6) (s' l : Nat) (h : s' + l ≤ 6) :
    (x ++ y : BitVec 9).extractLsb' s' l = y.extractLsb' s' l := low_append x y s' l h
@[simp] theorem high_3_6 (x : BitVec 3) (y : BitVec 6) (s' l : Nat) (h : 6 ≤ s') :
    (x ++ y : BitVec 9).extractLsb' s' l = x.extractLsb' (s' - 6) l := high_append x y s' l h
@[simp] theorem low_5_4 (x : BitVec 5) (y : BitVec 4) (s' l : Nat) (h : s' + l ≤ 4) :
    (x ++ y : BitVec 9).extractLsb' s' l = y.extractLsb' s' l := low_append x y s' l h
@[simp] theorem high_5_4 (x : BitVec 5) (y : BitVec 4) (s' l : Nat) (h : 4 ≤ s') :
    (x ++ y : BitVec 9).extractLsb' s' l = x.extractLsb' (s' - 4) l := high_append x y s' l h
@[simp] theorem low_4_1 (x : BitVec 4) (y : BitVec 1) (s' l : Nat) (h : s' + l ≤ 1) :
    (x ++ y : BitVec 5).extractLsb' s' l = y.extractLsb' s' l := low_append x y s' l h
@[simp] theorem high_4_1 (x : BitVec 4) (y : BitVec 1) (s' l : Nat) (h : 1 ≤ s') :
    (x ++ y : BitVec 5).extractLsb' s' l = x.extractLsb' (s' - 1) l := high_append x y s' l h
@[simp] theorem low_1_4 (x : BitVec 1) (y : BitVec 4) (s' l : Nat) (h : s' + l ≤ 4) :
    (x ++ y : BitVec 5).extractLsb' s' l = y.extractLsb' s' l := low_append x y s' l h
@[simp] theorem high_1_4 (x : BitVec 1) (y : BitVec 4) (s' l : Nat) (h : 4 ≤ s') :
    (x ++ y : BitVec 5).extractLsb' s' l = x.extractLsb' (s' - 4) l := high_append x y s' l h
@[simp] theorem low_8_2 (x : BitVec 8) (y : BitVec 2) (s' l : Nat) (h : s' + l ≤ 2) :
    (x ++ y : BitVec 10).extractLsb' s' l = y.extractLsb' s' l := low_append x y s' l h
@[simp] theorem high_8_2 (x : BitVec 8) (y : BitVec 2) (s' l : Nat) (h : 2 ≤ s') :
    (x ++ y : BitVec 10).extractLsb' s' l = x.extractLsb' (s' - 2) l := high_append x y s' l h
@[simp] theorem low_1_8 (x : BitVec 1) (y : BitVec 8) (s' l : Nat) (h : s' + l ≤ 8) :
    (x ++ y : BitVec 9).extractLsb' s' l = y.extractLsb' s' l := low_append x y s' l h
@[simp] theorem high_1_8 (x : BitVec 1) (y : BitVec 8) (s' l : Nat) (h : 8 ≤ s') :
    (x ++ y : BitVec 9).extractLsb' s' l = x.extractLsb' (s' - 8) l := high_append x y s' l h
@[simp] theorem low_7_3 (x : BitVec 7) (y : BitVec 3) (s' l : Nat) (h : s' + l ≤ 3) :
    (x ++ y : BitVec 10).extractLsb' s' l = y.extractLsb' s' l := low_append x y s' l h
@[simp] theorem high_7_3 (x : BitVec 7) (y : BitVec 3) (s' l : Nat) (h : 3 ≤ s') :
    (x ++ y : BitVec 10).extractLsb' s' l = x.extractLsb' (s' - 3) l := high_append x y s' l h
@[simp] theorem low_3_2 (x : BitVec 3) (y : BitVec 2) (s' l : Nat) (h : s' + l ≤ 2) :
    (x ++ y : BitVec 5).extractLsb' s' l = y.extractLsb' s' l := low_append x y s' l h
@[simp] theorem high_3_2 (x : BitVec 3) (y : BitVec 2) (s' l : Nat) (h : 2 ≤ s') :
    (x ++ y : BitVec 5).extractLsb' s' l = x.extractLsb' (s' - 2) l := high_append x y s' l h
@[simp] theorem low_4_3 (x : BitVec 4) (y : BitVec 3) (s' l : Nat) (h : s' + l ≤ 3) :
    (x ++ y : BitVec 7).extractLsb' s' l = y.extractLsb' s' l := low_append x y s' l h
@[simp] theorem high_4_3 (x : BitVec 4) (y : BitVec 3) (s' l : Nat) (h : 3 ≤ s') :
    (x ++ y : BitVec 7).extractLsb' s' l = x.extractLsb' (s' - 3) l := high_append x y s' l h
@[simp] theorem low_1_3 (x : BitVec 1) (y : BitVec 3) (s' l : Nat) (h : s' + l ≤ 3) :
    (x ++ y : BitVec 4).extractLsb' s' l = y.extractLsb' s' l := low_append x y s' l h
@[simp] theorem high_1_3 (x : BitVec 1) (y : BitVec 3) (s' l : Nat) (h : 3 ≤ s') :
    (x ++ y : BitVec 4).extractLsb' s' l = x.extractLsb' (s' - 3) l := high_append x y s' l h
@[simp] theorem low_2_5 (x : BitVec 2) (y : BitVec 5) (s' l : Nat) (h : s' + l ≤ 5) :
    (x ++ y : BitVec 7).extractLsb' s' l = y.extractLsb' s' l := low_append x y s' l h
@[simp] theorem high_2_5 (x : BitVec 2) (y : BitVec 5) (s' l : Nat) (h : 5 ≤ s') :
    (x ++ y : BitVec 7).extractLsb' s' l = x.extractLsb' (s' - 5) l := high_append x y s' l h
@[simp] theorem low_2_1 (x : BitVec 2) (y : BitVec 1) (s' l : Nat) (h : s' + l ≤ 1) :
    (x ++ y : BitVec 3).extractLsb' s' l = y.extractLsb' s' l := low_append x y s' l h
@[simp] theorem high_2_1 (x : BitVec 2) (y : BitVec 1) (s' l : Nat) (h : 1 ≤ s') :
    (x ++ y : BitVec 3).extractLsb' s' l = x.extractLsb' (s' - 1) l := high_append x y s' l h
@[simp] theorem low_2_8 (x : BitVec 2) (y : BitVec 8) (s' l : Nat) (h : s' + l ≤ 8) :
    (x ++ y : BitVec 10).extractLsb' s' l = y.extractLsb' s' l := low_append x y s' l h
@[simp] theorem high_2_8 (x : BitVec 2) (y : BitVec 8) (s' l : Nat) (h : 8 ≤ s') :
    (x ++ y : BitVec 10).extractLsb' s' l = x.extractLsb' (s' - 8) l := high_append x y s' l h

@[simp] theorem all_bits {n : Nat} (x : BitVec n) : x.extractLsb' 0 n = x := by
  apply BitVec.eq_of_getLsbD_eq; intro k hk
  simp [hk]

/-- R365: the two parts of an element index. -/
@[simp] theorem index_parts (i : BitVec 6) : (i.extractLsb' 5 1 : BitVec 1) ++ (i.extractLsb' 0 5 : BitVec 5) = i := by
  apply BitVec.eq_of_getLsbD_eq; intro k hk
  simp only [BitVec.getLsbD_extractLsb', BitVec.getLsbD_append]
  split
  · rename_i h5; simp [h5]
  · rename_i h5
    have : k = 5 := by omega
    subst this; simp

/-! ## Codes of the operands -/

@[simp] theorem srcOf_code (a : Src) : srcOf (srcCode a) = a := by
  cases a with
  | q n => revert n; decide
  | k n => revert n; decide

@[simp] theorem destOf_code (d : Dest) : destOf (destCode d) = .ok d := by
  cases d with
  | push => rfl
  | keep n =>
    have h : ∀ n : Fin 16, destCode (.keep n) ≠ 0 ∧ ¬ (destCode (.keep n)).toNat < 16 ∧
        Fin.ofNat 16 (destCode (.keep n)).toNat = n := by decide
    obtain ⟨h0, h1, h2⟩ := h n
    rw [destOf, if_neg h0, if_neg h1, h2]

@[simp] theorem etyOf_code (t : ETy) : etyOf (etyCode t) = t := by
  cases t with
  | b8 p => revert p; decide
  | b8n p => revert p; decide
  | mxp p => revert p; decide
  | _ => decide

@[simp] theorem vregOf_code (n : Fin 32) : vregOf (vregCode n) = n := by revert n; decide
@[simp] theorem mregOf_code (n : Fin 8) : mregOf (mregCode n) = some n := by revert n; decide
@[simp] theorem maskOf_code (n : Fin 8) : maskOf (maskCode n) = n := by revert n; decide

@[simp] theorem sizeOf_code (x : Size) : sizeOf (sizeCode x) = x := by cases x <;> decide
@[simp] theorem spanOf_code (x : Span) : spanOf (spanCode x) = x := by cases x <;> decide
@[simp] theorem precOf_code (x : Prec) : precOf (precCode x) = x := by cases x <;> decide
@[simp] theorem boolOf_code (x : Bool) : boolOf (boolCode x) = x := by cases x <;> decide
@[simp] theorem extOf_code (x : ExtW) : extOf (extCode x) = some x := by cases x <;> decide
@[simp] theorem atyOf_code (x : ATy) : atyOf (atyCode x) = x := by cases x <;> decide
@[simp] theorem styOf_code (x : STy) : styOf (styCode x) = some x := by cases x <;> decide
@[simp] theorem farOf_code (x : FarOp) : farOf (farCode x) = some x := by cases x <;> decide
@[simp] theorem amoOf_code (x : AmoOp) : amoOf (amoCode x) = some x := by cases x <;> decide
@[simp] theorem ccOf_code (x : Cc) : ccOf (ccCode x) = some x := by cases x <;> decide
@[simp] theorem scanOf_code (x : ScanOp) : scanOf (scanCode x) = some x := by cases x <;> decide
@[simp] theorem cmodeOf_code (x : CMode) : cmodeOf (cmodeCode x) = some x := by cases x <;> decide

@[simp] theorem withDest_code (d : Dest) (k : Dest → Decoded) : withDest (destCode d) k = k d := by simp [withDest]
@[simp] theorem withCode_some {α : Type} (x : α) (k : α → Decoded) : withCode (some x) k = k x := rfl
@[simp] theorem need_true (e : DecodeError) (k : Decoded) : need true e k = k := rfl

/-! ## The shapes of the decoder -/

@[simp] theorem zeroA_eq (w : BitVec 32) (k : Decoded) : zeroA w k =
    need (fA w == 0) .reservedField k := rfl
@[simp] theorem zeroB_eq (w : BitVec 32) (k : Decoded) : zeroB w k =
    need (fB w == 0) .reservedField k := rfl
@[simp] theorem noD_eq (w : BitVec 32) (k : Decoded) : noD w k =
    need (fD w == 0) .destinationGiven k := rfl
@[simp] theorem noW_eq (w : BitVec 32) (k : Decoded) : noW w k =
    need (fW w == 0) .wForbidden k := rfl
@[simp] theorem sA_eq (w : BitVec 32) : sA w =
    srcOf (fA w) := rfl
@[simp] theorem sB_eq (w : BitVec 32) : sB w =
    srcOf (fB w) := rfl
@[simp] theorem sC_eq (w : BitVec 32) : sC w =
    srcOf (fC w) := rfl
@[simp] theorem shABW_eq (w : BitVec 32) (f : Src → Src → Dest → Bool → Instr) : shABW w f =
    withDest (fD w) fun d => .ok (f (sA w) (sB w) d (boolOf (fW w))) := rfl
@[simp] theorem shAB_eq (w : BitVec 32) (f : Src → Src → Dest → Instr) : shAB w f =
    noW w (withDest (fD w) fun d => .ok (f (sA w) (sB w) d)) := rfl
@[simp] theorem shAW_eq (w : BitVec 32) (f : Src → Dest → Bool → Instr) : shAW w f =
    zeroB w (withDest (fD w) fun d => .ok (f (sA w) d (boolOf (fW w)))) := rfl
@[simp] theorem shA_eq (w : BitVec 32) (f : Src → Dest → Instr) : shA w f =
    noW w (zeroB w (withDest (fD w) fun d => .ok (f (sA w) d))) := rfl
@[simp] theorem shABC_eq (w : BitVec 32) (f : Src → Src → Src → Dest → Instr) : shABC w f =
    withDest (fD w) fun d => .ok (f (sA w) (sB w) (sC w) d) := rfl
@[simp] theorem shI_eq (w : BitVec 32) (f : Src → Dest → BitVec 15 → Instr) : shI w f =
    withDest (fB w) fun d => .ok (f (sA w) d (fImm w)) := rfl
@[simp] theorem shISh_eq (w : BitVec 32) (f : Src → Dest → BitVec 6 → Instr) : shISh w f =
    need (w.extractLsb' 6 9 == 0) .reservedField (withDest (fB w) fun d => .ok (f (sA w) d (w.extractLsb' 0 6))) := rfl
@[simp] theorem shBr2_eq (w : BitVec 32) (f : Src → Src → BitVec 15 → Instr) : shBr2 w f =
    .ok (f (sA w) (sB w) (fImm w)) := rfl
@[simp] theorem shBr1_eq (w : BitVec 32) (f : Src → BitVec 15 → Instr) : shBr1 w f =
    zeroB w (.ok (f (sA w) (fImm w))) := rfl
@[simp] theorem shS0_eq (w : BitVec 32) (i : Instr) : shS0 w i =
    zeroA w (zeroB w (noD w (.ok i))) := rfl
@[simp] theorem shS1_eq (w : BitVec 32) (f : Src → Instr) : shS1 w f =
    zeroB w (noD w (.ok (f (sA w)))) := rfl
@[simp] theorem shS2_eq (w : BitVec 32) (f : Src → Src → Instr) : shS2 w f =
    noD w (.ok (f (sA w) (sB w))) := rfl
@[simp] theorem shS1D_eq (w : BitVec 32) (f : Src → Dest → Instr) : shS1D w f =
    zeroB w (withDest (fD w) fun d => .ok (f (sA w) d)) := rfl
@[simp] theorem shS2D_eq (w : BitVec 32) (f : Src → Src → Dest → Instr) : shS2D w f =
    withDest (fD w) fun d => .ok (f (sA w) (sB w) d) := rfl
@[simp] theorem shSD_eq (w : BitVec 32) (f : Dest → Instr) : shSD w f =
    zeroA w (zeroB w (withDest (fD w) fun d => .ok (f d))) := rfl
@[simp] theorem shV3_eq (w : BitVec 32) (f : Fin 32 → Fin 32 → Fin 32 → Fin 8 → ATy → Instr) : shV3 w f =
    .ok (f (vregOf (fA w)) (vregOf (fB w)) (vregOf (fD w)) (maskOf (fMask w)) (atyOf (w.extractLsb' 0 3))) := rfl
@[simp] theorem shV2_eq (w : BitVec 32) (f : Fin 32 → Fin 32 → Fin 8 → ATy → Instr) : shV2 w f =
    need (fD w == 0) .reservedField
    (.ok (f (vregOf (fA w)) (vregOf (fB w)) (maskOf (fMask w)) (atyOf (w.extractLsb' 0 3)))) := rfl
@[simp] theorem shV3I_eq (w : BitVec 32) (f : Fin 32 → Fin 32 → Fin 32 → Fin 8 → ATy → Instr) : shV3I w f =
    need (isInt (atyOf (w.extractLsb' 0 3))) .unassigned (shV3 w f) := rfl
@[simp] theorem onlySub_eq (w : BitVec 32) (k : Decoded) : onlySub w k =
    need (fSub w == 0) .unassigned k := rfl
@[simp] theorem fpGuard_eq (w : BitVec 32) (k : Decoded) : fpGuard w k =
    noW w (need (w.extractLsb' 3 5 == 0) .unassigned k) := rfl
@[simp] theorem shF2_eq (w : BitVec 32) (f : Src → Src → Dest → Prec → Instr) : shF2 w f =
    withDest (fD w) fun d => .ok (f (sA w) (sB w) d (precOf (w.extractLsb' 8 1))) := rfl
@[simp] theorem shF1_eq (w : BitVec 32) (f : Src → Dest → Prec → Instr) : shF1 w f =
    zeroB w (withDest (fD w) fun d => .ok (f (sA w) d (precOf (w.extractLsb' 8 1)))) := rfl
@[simp] theorem shVMem_eq (w : BitVec 32) (f : Fin 32 → Src → Fin 8 → Span → Size → Instr) : shVMem w f =
    need (fD w == 0) .reservedField
    (.ok (f (vregOf (fA w)) (sB w) (maskOf (fMask w)) (spanOf (fVSpan w)) (sizeOf (w.extractLsb' 0 2)))) := rfl
@[simp] theorem shVMemX_eq (w : BitVec 32) (f : Fin 32 → Src → Src → Fin 8 → Span → Size → Instr) : shVMemX w f =
    .ok (f (vregOf (fA w)) (sB w) (srcOf (fD w)) (maskOf (fMask w)) (spanOf (fVSpan w)) (sizeOf (w.extractLsb' 0 2))) := rfl
@[simp] theorem shVMemI_eq (w : BitVec 32) (f : Fin 32 → Src → Fin 32 → Fin 8 → Span → Size → Instr) : shVMemI w f =
    .ok (f (vregOf (fA w)) (sB w) (vregOf (fD w)) (maskOf (fMask w)) (spanOf (fVSpan w)) (sizeOf (w.extractLsb' 0 2))) := rfl
@[simp] theorem vOp_eq (w : BitVec 32) : vOp w =
    w.extractLsb' 3 4 := rfl
@[simp] theorem vIdx_eq (w : BitVec 32) : vIdx w =
    (w.extractLsb' 7 1 : BitVec 1) ++ fD w := rfl

end Sys2Proof
end

