-- ==== Sys2Proof/Laws/Ops.lean ====
section
/-! SUPPORT. One lemma for each shared operation: all that it does when it answers a next state. -/

namespace Sys2Proof.Machine

set_option Elab.async false

/-! ## Finishing an instruction -/

theorem onlyMe_modMe (s : State) (f : Ctx → Ctx) : OnlyMe s (modMe s f) :=
  ⟨fun _ => rfl, fun _ h => ctxAt_modMe_other s f h, rfl⟩

theorem ran_modMe (s : State) (r : Regs) (k : Ctl) :
    Ran s (modMe s (fun c => stepped { c with ctl := k } r)) r k where
  outside := onlyMe_modMe s _
  regs := by simp [stepped]
  ctl := by simp [stepped]
  chunk := by simp [stepped]
  rest := by simp [stepped]

/-- `finishAt` goes on at `pc` with the registers `r`. -/
theorem finishAt_ran (s : State) (r : Regs) (pc : Word) :
    ∃ t, finishAt s r pc = .next t ∧ Ran s t { r with pc := pc } (me s).ctl :=
  ⟨_, rfl, onlyMe_modMe s _, by simp [stepped], by simp [stepped], by simp [stepped], by simp [stepped]⟩

theorem vpush_pushed (r : Regs) (d : Dest) (x : Word) (pc : Word) : Pushed r { push r d x with pc := pc } d x where
  q0 := qGet_push_zero r d x
  older := fun n h => qGet_push_succ r d x n h
  keep := by
    intro n
    cases d with
    | push => simp [push]
    | keep m => simpa [eq_comm, push] using keep_push r m n x
  vectors := by cases d <;> rfl
  masks := by cases d <;> rfl

/-- `finishPush` is one push. -/
theorem finishPush_gives {i : Instr} {s : State} {d : Dest} {x : Word} {p : Word → Prop}
    (h : exec i s = finishPush s d x) (hp : p x) : Gives i s d p := by
  obtain ⟨t, ht, hr⟩ := finishAt_ran s (push (me s).regs d x) ((push (me s).regs d x).pc + 4)
  refine ⟨t, x, h.trans ht, ?_, ?_, ?_, hp⟩
  · rw [hr.regs]; exact vpush_pushed _ _ _ _
  · rw [hr.regs]; cases d <;> rfl
  · rw [hr.regs]; exact hr

theorem finishAt_goesTo {i : Instr} {s : State} {pc : Word} (h : exec i s = finishAt s (me s).regs pc) : GoesTo i s pc := by
  obtain ⟨t, ht, hr⟩ := finishAt_ran s (me s).regs pc
  exact ⟨t, h.trans ht, hr⟩

/-- `finishFp` is one push that sets flags. -/
theorem finishFp_gives {i : Instr} {s : State} {d : Dest} {x : Nat} {f : BitVec 5} (h : exec i s = finishFp s d x f) :
    GivesFp i s d (BitVec.ofNat 64 x) f := by
  refine ⟨_, h.trans rfl, ?_, ?_, onlyMe_modMe s _, rfl, ?_, ?_, ?_⟩
  · simp only [me_modMe, stepped]; exact vpush_pushed _ _ _ _
  · simp only [me_modMe, stepped]; cases d <;> rfl
  all_goals simp [stepped, orFlags]

/-- `finishVec` writes one vector register. -/
theorem finishVec_writes {i : Instr} {s : State} {d : Fin 32} {v : BitVec 512} {f : BitVec 5}
    {p : BitVec 512 → BitVec 5 → Prop} (h : exec i s = finishVec s d v f) (hp : p v f) : WritesV i s d p := by
  refine ⟨_, v, f, h.trans rfl, ⟨onlyMe_modMe s _, ?_, ?_, ?_, ?_⟩, hp⟩
  all_goals simp [stepped, orFlags, vSet]

/-- `finishMask` writes one mask register; a write to m0 is discarded. -/
theorem finishMask_writes {i : Instr} {s : State} {d : Fin 8} {x : Word} {f : BitVec 5}
    {p : Word → BitVec 5 → Prop} (h : exec i s = finishMask s d x f) (hp : p x f) : WritesM i s d p := by
  refine ⟨_, x, f, h.trans rfl, ⟨onlyMe_modMe s _, ?_, ?_, ?_, ?_⟩, hp⟩
  all_goals by_cases hd : d = 0 <;> simp [stepped, orFlags, maskSet, hd]

/-! ## Taking an exception -/

/-- The fields of c.status that `statusWord` lays out. -/
theorem statusWord_small : ∀ (p q : Fin 4) (a b d : Bool),
    fld (statusWord p.val q.val a b d) 1 0 = p.val ∧ fld (statusWord p.val q.val a b d) 3 2 = q.val
      ∧ bit (statusWord p.val q.val a b d) 4 = a ∧ bit (statusWord p.val q.val a b d) 5 = b
      ∧ bit (statusWord p.val q.val a b d) 6 = d := by decide +kernel

theorem statusWord_fields (pl ppl : Nat) (a b d : Bool) :
    fld (statusWord pl ppl a b d) 1 0 = pl % 4 ∧ fld (statusWord pl ppl a b d) 3 2 = ppl % 4
      ∧ bit (statusWord pl ppl a b d) 4 = a ∧ bit (statusWord pl ppl a b d) 5 = b ∧ bit (statusWord pl ppl a b d) 6 = d := by
  have h := statusWord_small ⟨pl % 4, Nat.mod_lt _ (by decide)⟩ ⟨ppl % 4, Nat.mod_lt _ (by decide)⟩ a b d
  have e : statusWord (pl % 4) (ppl % 4) a b d = statusWord pl ppl a b d := by simp [statusWord]
  simpa [e] using h

/-- R39: what `trapCtx` writes. -/
theorem trapCtx_took (c : Ctx) (t : TrapInfo) (async : Bool) :
    TookTrap c (trapCtx c t async) (t.cause + (if async then 256 else 0)) t.epc t.badva t.tval := by
  have hf := statusWord_fields 1 (plOf c.ctl) (stepOn c.ctl) true false
  have hp : plOf c.ctl % 4 = plOf c.ctl := by simp only [plOf, fld]; omega
  exact { epc := rfl, cause := rfl, badva := rfl, tval := rfl, level := hf.1, from_ := hf.2.1.trans hp, ts := hf.2.2.2.1,
          stepBit := hf.2.2.1, others := rfl, regs := rfl, empty := rfl }

/-- `takeTrap` with the save of q answered. -/
theorem takeTrap_save {s t : State} (h : CanTrap s t) (x : TrapInfo) :
    takeTrap s s.cur x false = some (setCtx t s.cur (trapCtx (me s) x false)) := by
  obtain ⟨-, h2, ⟨pa, u, h3, h4⟩, h5⟩ := h
  have e : ctxAt s s.cur = me s := rfl
  simp only [takeTrap, e, h2, h3, h5]
  simp [h4]

/-- `raise` with the save of q answered takes the trap at the instruction. -/
theorem raise_traps {i : Instr} {s t : State} {cause : Nat} {badva tval : Word} (h : CanTrap s t)
    (hi : exec i s = raise s cause badva tval) : Traps i s t cause badva tval := by
  have h1 := h.1
  refine ⟨_, hi.trans (by simp only [raise, h1, takeTrap_save h]; rfl), ?_, ?_, rfl⟩
  · simpa using trapCtx_took (me s) { cause := cause, epc := (me s).regs.pc, badva := badva, tval := tval } false
  · intro l hl; exact ctxAt_setCtx_other t _ hl

/-- `raise` with earlier instructions in the chunk ends the chunk. -/
theorem raise_ends {i : Instr} {s : State} {cause : Nat} {badva tval : Word} (h : chunkEmpty (me s) = false)
    (hi : exec i s = raise s cause badva tval) : EndsForTrap i s cause badva tval := by
  unfold EndsForTrap
  rw [hi]
  simp [raise, h, endChunk]

end Sys2Proof.Machine
end

