-- ==== Sys2Proof/Laws/Instructions.lean ====
section
/-! SUPPORT. Values of operands and results, traps that an instruction raises, and control transfer: what the shared operations do. -/

namespace Sys2Proof.Machine

set_option Elab.async false

/-! ## Operand values (R71) -/

theorem sx32_toInt (x : BitVec 32) : (sx32 x).toInt = x.toInt := by
  unfold sx32; exact BitVec.toInt_signExtend_of_le (by decide)

theorem lo32_toInt (x : Word) : (lo32 x).toInt = sval true x := by simp [lo32, sval, BitVec.toInt_setWidth]

theorem lo32_toNat (x : Word) : (lo32 x).toNat = uval true x := by simp [lo32, uval]

theorem byW_toInt (w : Bool) (f : Word → Word → Word) (g : BitVec 32 → BitVec 32 → BitVec 32) (x y : Word) :
    (byW w f g x y).toInt = if w then (g (lo32 x) (lo32 y)).toInt else (f x y).toInt := by
  cases w <;> simp [byW, sx32_toInt]

/-! ## Traps that an instruction raises (R115) -/

theorem raise_raises {i : Instr} {s : State} {cause : Nat} {badva tval : Word}
    (h : exec i s = raise s cause badva tval) : RaisesTrap i s cause badva tval :=
  ⟨fun _ ht => raise_traps ht h, fun he => raise_ends he h⟩

/-! ## Control transfer (R80, R81) -/

theorem pcPlus_target {n : Nat} (s : State) (o : BitVec n) (h : n ≤ 64) : pcPlus s o = target s o := by
  unfold pcPlus target
  congr 1
  have e : o.signExtend 64 = BitVec.ofInt 64 o.toInt := by
    apply BitVec.eq_of_toInt_eq
    rw [BitVec.toInt_signExtend_of_le h, BitVec.toInt_ofInt, ← BitVec.toInt_signExtend_of_le h, BitVec.toInt_bmod_cancel]
  rw [e, BitVec.shiftLeft_eq_mul_twoPow, BitVec.ofInt_mul, BitVec.mul_comm]
  rfl

theorem canonical_iff (t : Word) : (fld t 63 56 != 0) = true ↔ ¬ Canonical t := by
  have := t.isLt
  simp [fld, Canonical]; omega

theorem jumpTo_ok {s : State} {r : Regs} {t : Word} (h : Canonical t) : jumpTo s r t = finishAt s r t := by
  have : ¬ (fld t 63 56 != 0) = true := fun e => (canonical_iff t).mp e h
  simp only [jumpTo]; rw [if_neg this]

theorem jumpTo_bad {s : State} {r : Regs} {t : Word} (h : ¬ Canonical t) : jumpTo s r t = raise s cNoncanon t 0 := by
  have := (canonical_iff t).mpr h
  simp only [jumpTo]; rw [if_pos]; simpa using this

theorem branch_branches {i : Instr} {s : State} {o : BitVec 15} {c : Bool} {p : Prop} (h : exec i s = branch s c o)
    (hp : c = true ↔ p) : Branches i s p o := by
  have e := pcPlus_target s o (by decide)
  refine ⟨fun n => ?_, fun hc ht => ?_, fun hc ht => ?_⟩
  · apply finishAt_goesTo; rw [h, branch, if_neg (by rwa [hp])]; rfl
  · apply finishAt_goesTo; rw [h, branch, if_pos (hp.mpr hc), e, jumpTo_ok ht]
  · apply raise_raises; rw [h, branch, if_pos (hp.mpr hc), e, jumpTo_bad ht]

theorem links_of {i : Instr} {s : State} {t : Word} (h : exec i s = finishAt s (linkRegs (me s).regs) t) : Links i s t := by
  obtain ⟨u, hu, hr⟩ := finishAt_ran s (linkRegs (me s).regs) t
  exact ⟨u, h.trans hu, hr⟩

end Sys2Proof.Machine
end

