-- ==== Sys2Proof/Laws/Memory.lean ====
section
/-! SUPPORT. Committed memory: every operation keeps its canonical form, a read after a write gives what was written, and a write
leaves every other byte alone. -/

namespace Sys2Proof.Machine

/-! ## The canonical form -/

theorem memWfFrom_weaken {lo : Option Nat} {m : List Host.Cell} (h : memWfFrom lo m = true) : memWfFrom none m = true := by
  cases m with
  | nil => rfl
  | cons e rest =>
    obtain ⟨a, b⟩ := e
    simp only [memWfFrom, Bool.and_eq_true] at h ⊢
    exact ⟨⟨trivial, h.1.2⟩, h.2⟩

theorem memWfFrom_lower {l k : Nat} {m : List Host.Cell} (h : memWfFrom (some k) m = true) (hl : l ≤ k) :
    memWfFrom (some l) m = true := by
  cases m with
  | nil => rfl
  | cons e rest =>
    obtain ⟨a, b⟩ := e
    simp only [memWfFrom, Bool.and_eq_true, decide_eq_true_eq] at h ⊢
    exact ⟨⟨by omega, h.1.2⟩, h.2⟩

/-- One byte put at an address above `l` keeps the form above `l`. -/
theorem memPut_wfFrom (m : List Host.Cell) (l : Option Nat) (a : Nat) (b : Byte)
    (h : memWfFrom l m = true) (ha : ∀ k, l = some k → k < a) : memWfFrom l (memPut m a b) = true := by
  induction m generalizing l with
  | nil =>
    simp only [memPut]
    split
    · rfl
    · rename_i hb
      cases l with
      | none => simp [memWfFrom, hb]
      | some k => simp [memWfFrom, hb, ha k rfl]
  | cons e rest ih =>
    obtain ⟨j, x⟩ := e
    have hj := h
    simp only [memWfFrom, Bool.and_eq_true, bne_iff_ne, ne_eq] at hj
    obtain ⟨⟨hlo, hx⟩, hrest⟩ := hj
    simp only [memPut]
    split
    · rename_i haj
      split
      · exact h
      · rename_i hb
        cases l with
        | none => simp [memWfFrom, hb, haj, hx, hrest]
        | some k => simp [memWfFrom, hb, haj, hx, hrest, ha k rfl]
    · rename_i haj
      split
      · rename_i heq
        subst heq
        split
        · cases l with
          | none => exact memWfFrom_weaken hrest
          | some k => exact memWfFrom_lower hrest (Nat.le_of_lt (ha k rfl))
        · rename_i hb
          cases l with
          | none => simp [memWfFrom, hb, hrest]
          | some k => simp [memWfFrom, hb, hrest, ha k rfl]
      · rename_i hne
        have ih' := ih (some j) hrest (by intro k hk; cases hk; omega)
        cases l with
        | none => simp [memWfFrom, hx, ih']
        | some k =>
          simp only [decide_eq_true_eq] at hlo
          simp [memWfFrom, hx, ih', hlo]

theorem memPut_wf (m : List Host.Cell) (a : Nat) (b : Byte) (h : Memory.wf m = true) : Memory.wf (memPut m a b) = true :=
  memPut_wfFrom m none a b h (by simp)

theorem memPutAll_wf (m : List Host.Cell) (a : Nat) (bs : List Byte) (h : Memory.wf m = true) :
    Memory.wf (memPutAll m a bs) = true := by
  induction bs generalizing m a with
  | nil => exact h
  | cons b bs ih => exact ih _ _ (memPut_wf m a b h)

/-- Memory right after reset has the form. -/
theorem reset_mem_wf : Memory.wf State.reset.mem = true := rfl

theorem putBytes_wf (s : State) (key : Nat) (bs : List Byte) (h : Memory.wf s.mem = true) :
    Memory.wf (putBytes s key bs).mem = true := memPutAll_wf s.mem key bs h

/-! ## Reading after writing -/

/-- An address below every listed one is not listed. -/
theorem memGet_below {m : List Host.Cell} {k a : Nat} (h : memWfFrom (some k) m = true) (ha : a ≤ k) :
    memGet m a = unlisted := by
  induction m generalizing k with
  | nil => rfl
  | cons e rest ih =>
    obtain ⟨j, x⟩ := e
    simp only [memWfFrom, Bool.and_eq_true, decide_eq_true_eq] at h
    have hj : j ≠ a := by omega
    simp only [memGet, if_neg hj]
    exact ih h.2 (by omega)

theorem memGet_memPut_same (m : List Host.Cell) (a : Nat) (b : Byte) (h : Memory.wf m = true) :
    memGet (memPut m a b) a = b := by
  suffices H : ∀ l, memWfFrom l m = true → memGet (memPut m a b) a = b from H none h
  clear h
  induction m with
  | nil =>
    intro l _
    simp only [memPut]
    split
    · rename_i hb; simp [memGet, hb]
    · simp [memGet]
  | cons e rest ih =>
    intro l h
    obtain ⟨j, x⟩ := e
    have hrest : memWfFrom (some j) rest = true := by
      simp only [memWfFrom, Bool.and_eq_true] at h; exact h.2
    simp only [memPut]
    split
    · rename_i haj
      split
      · rename_i hb
        rw [hb]
        have hj : j ≠ a := by omega
        simp only [memGet, if_neg hj]
        exact memGet_below hrest (by omega)
      · simp [memGet]
    · split
      · rename_i heq
        subst heq
        split
        · rename_i hb; rw [hb]; exact memGet_below hrest (Nat.le_refl _)
        · simp [memGet]
      · rename_i hne
        simp only [memGet, if_neg (Ne.symm hne)]
        exact ih (some j) hrest

theorem memGet_memPut_other (m : List Host.Cell) (a : Nat) (b : Byte) {k : Nat} (hk : k ≠ a) :
    memGet (memPut m a b) k = memGet m k := by
  induction m with
  | nil =>
    simp only [memPut]
    split
    · rfl
    · simp [memGet, Ne.symm hk]
  | cons e rest ih =>
    obtain ⟨j, x⟩ := e
    simp only [memPut]
    split
    · split
      · rfl
      · simp [memGet, Ne.symm hk]
    · split
      · rename_i heq
        subst heq
        split
        · simp [memGet, Ne.symm hk]
        · simp [memGet, Ne.symm hk]
      · simp only [memGet, ih]

/-- A write leaves every byte outside its own alone. -/
theorem memGet_memPutAll_other (m : List Host.Cell) (a : Nat) (bs : List Byte) {k : Nat} (hk : k < a ∨ a + bs.length ≤ k) :
    memGet (memPutAll m a bs) k = memGet m k := by
  induction bs generalizing m a with
  | nil => rfl
  | cons b bs ih =>
    simp only [List.length_cons] at hk
    rw [memPutAll, ih _ _ (by omega), memGet_memPut_other _ _ _ (by omega)]

/-- A read of the bytes that were written gives them. -/
theorem memBytes_memPutAll (m : List Host.Cell) (a : Nat) (bs : List Byte) (h : Memory.wf m = true) :
    memBytes (memPutAll m a bs) a bs.length = bs := by
  induction bs generalizing m a with
  | nil => rfl
  | cons b bs ih =>
    simp only [memPutAll, List.length_cons, memBytes]
    rw [ih _ _ (memPut_wf m a b h), memGet_memPutAll_other _ _ _ (by omega), memGet_memPut_same _ _ _ h]

/-! ## Words (R5) -/

theorem natBytes_length (n x : Nat) : (natBytes n x).length = n := by
  induction n generalizing x with
  | zero => rfl
  | succ n ih => simp [natBytes, ih]

theorem leNat_natBytes (n x : Nat) : leNat (natBytes n x) = x % 256 ^ n := by
  induction n generalizing x with
  | zero => simp [natBytes, leNat, Nat.mod_one]
  | succ n ih =>
    have e : (256 : Nat) ^ (n + 1) = 256 * 256 ^ n := by rw [Nat.pow_succ, Nat.mul_comm]
    simp only [natBytes, leNat, ih, BitVec.toNat_ofNat, e, Nat.mod_mul]

/-- R5: the word of the eight bytes of a word. -/
theorem memWord_wordBytes (m : List Host.Cell) (a : Nat) (x : Word) (h : Memory.wf m = true) :
    memWord (memPutAll m a (wordBytes x)) a = x := by
  have hl : (wordBytes x).length = 8 := natBytes_length 8 x.toNat
  have hb := memBytes_memPutAll m a (wordBytes x) h
  rw [hl] at hb
  rw [memWord, hb, wordBytes, leNat_natBytes]
  apply BitVec.eq_of_toNat_eq
  have := x.isLt
  simp only [BitVec.toNat_ofNat]
  omega

end Sys2Proof.Machine
end

