-- ==== Sys2Proof/Laws/PerInstr.lean ====
section
/-! SUPPORT. What is proved once for every constructor of `Instr`: the word that the encoder makes of a well-formed instruction
is read by the decoder as that instruction. -/

namespace Sys2Proof.Laws.Encoding

set_option Elab.async false

/-- R42–R59: an instruction that has a word is what the decoder reads from it. -/
def Statement (i : Instr) : Prop := wellFormed i = true → hasWord i = true → decodeWord (encode i) = .ok i

theorem nop : Statement (.nop) := by
  intro h _; simp_all [encode, decodeWord, decodeInt, wellFormed]
theorem add (a : Src) (b : Src) (d : Dest) (w : Bool) : Statement (.add a b d w) := by
  intro h _; simp_all [encode, decodeWord, decodeInt, wellFormed]
theorem sub (a : Src) (b : Src) (d : Dest) (w : Bool) : Statement (.sub a b d w) := by
  intro h _; simp_all [encode, decodeWord, decodeInt, wellFormed]
theorem mul (a : Src) (b : Src) (d : Dest) (w : Bool) : Statement (.mul a b d w) := by
  intro h _; simp_all [encode, decodeWord, decodeInt, wellFormed]
theorem mulh (a : Src) (b : Src) (d : Dest) : Statement (.mulh a b d) := by
  intro h _; simp_all [encode, decodeWord, decodeInt, wellFormed]
theorem mulhz (a : Src) (b : Src) (d : Dest) : Statement (.mulhz a b d) := by
  intro h _; simp_all [encode, decodeWord, decodeInt, wellFormed]
theorem div (a : Src) (b : Src) (d : Dest) (w : Bool) : Statement (.div a b d w) := by
  intro h _; simp_all [encode, decodeWord, decodeInt, wellFormed]
theorem divz (a : Src) (b : Src) (d : Dest) (w : Bool) : Statement (.divz a b d w) := by
  intro h _; simp_all [encode, decodeWord, decodeInt, wellFormed]
theorem rem (a : Src) (b : Src) (d : Dest) (w : Bool) : Statement (.rem a b d w) := by
  intro h _; simp_all [encode, decodeWord, decodeInt, wellFormed]
theorem remz (a : Src) (b : Src) (d : Dest) (w : Bool) : Statement (.remz a b d w) := by
  intro h _; simp_all [encode, decodeWord, decodeInt, wellFormed]
theorem andR (a : Src) (b : Src) (d : Dest) : Statement (.andR a b d) := by
  intro h _; simp_all [encode, decodeWord, decodeInt, wellFormed]
theorem orR (a : Src) (b : Src) (d : Dest) : Statement (.orR a b d) := by
  intro h _; simp_all [encode, decodeWord, decodeInt, wellFormed]
theorem xorR (a : Src) (b : Src) (d : Dest) : Statement (.xorR a b d) := by
  intro h _; simp_all [encode, decodeWord, decodeInt, wellFormed]
theorem andn (a : Src) (b : Src) (d : Dest) : Statement (.andn a b d) := by
  intro h _; simp_all [encode, decodeWord, decodeInt, wellFormed]
theorem orn (a : Src) (b : Src) (d : Dest) : Statement (.orn a b d) := by
  intro h _; simp_all [encode, decodeWord, decodeInt, wellFormed]
theorem shl (a : Src) (b : Src) (d : Dest) (w : Bool) : Statement (.shl a b d w) := by
  intro h _; simp_all [encode, decodeWord, decodeInt, wellFormed]
theorem shr (a : Src) (b : Src) (d : Dest) (w : Bool) : Statement (.shr a b d w) := by
  intro h _; simp_all [encode, decodeWord, decodeInt, wellFormed]
theorem sra (a : Src) (b : Src) (d : Dest) (w : Bool) : Statement (.sra a b d w) := by
  intro h _; simp_all [encode, decodeWord, decodeInt, wellFormed]
theorem rol (a : Src) (b : Src) (d : Dest) (w : Bool) : Statement (.rol a b d w) := by
  intro h _; simp_all [encode, decodeWord, decodeInt, wellFormed]
theorem ror (a : Src) (b : Src) (d : Dest) (w : Bool) : Statement (.ror a b d w) := by
  intro h _; simp_all [encode, decodeWord, decodeInt, wellFormed]
theorem minS (a : Src) (b : Src) (d : Dest) : Statement (.minS a b d) := by
  intro h _; simp_all [encode, decodeWord, decodeInt, wellFormed]
theorem maxS (a : Src) (b : Src) (d : Dest) : Statement (.maxS a b d) := by
  intro h _; simp_all [encode, decodeWord, decodeInt, wellFormed]
theorem minz (a : Src) (b : Src) (d : Dest) : Statement (.minz a b d) := by
  intro h _; simp_all [encode, decodeWord, decodeInt, wellFormed]
theorem maxz (a : Src) (b : Src) (d : Dest) : Statement (.maxz a b d) := by
  intro h _; simp_all [encode, decodeWord, decodeInt, wellFormed]
theorem slt (a : Src) (b : Src) (d : Dest) : Statement (.slt a b d) := by
  intro h _; simp_all [encode, decodeWord, decodeInt, wellFormed]
theorem sltz (a : Src) (b : Src) (d : Dest) : Statement (.sltz a b d) := by
  intro h _; simp_all [encode, decodeWord, decodeInt, wellFormed]
theorem seqR (a : Src) (b : Src) (d : Dest) : Statement (.seqR a b d) := by
  intro h _; simp_all [encode, decodeWord, decodeInt, wellFormed]
theorem sne (a : Src) (b : Src) (d : Dest) : Statement (.sne a b d) := by
  intro h _; simp_all [encode, decodeWord, decodeInt, wellFormed]
theorem clz (a : Src) (d : Dest) (w : Bool) : Statement (.clz a d w) := by
  intro h _; simp_all [encode, decodeWord, decodeInt, wellFormed]
theorem ctz (a : Src) (d : Dest) (w : Bool) : Statement (.ctz a d w) := by
  intro h _; simp_all [encode, decodeWord, decodeInt, wellFormed]
theorem popc (a : Src) (d : Dest) (w : Bool) : Statement (.popc a d w) := by
  intro h _; simp_all [encode, decodeWord, decodeInt, wellFormed]
theorem brev (a : Src) (d : Dest) (w : Bool) : Statement (.brev a d w) := by
  intro h _; simp_all [encode, decodeWord, decodeInt, wellFormed]
theorem bswap (a : Src) (d : Dest) (w : Bool) : Statement (.bswap a d w) := by
  intro h _; simp_all [encode, decodeWord, decodeInt, wellFormed]
theorem sext (a : Src) (x : ExtW) (d : Dest) : Statement (.sext a x d) := by
  intro h _; simp_all [encode, decodeWord, decodeInt, wellFormed]
theorem zext (a : Src) (x : ExtW) (d : Dest) : Statement (.zext a x d) := by
  intro h _; simp_all [encode, decodeWord, decodeInt, wellFormed]
theorem sel (a : Src) (b : Src) (c : Src) (d : Dest) : Statement (.sel a b c d) := by
  intro h _; simp_all [encode, decodeWord, decodeSel, wellFormed]
theorem ins (a : Src) (b : Src) (c : Src) (d : Dest) : Statement (.ins a b c d) := by
  intro h _; simp_all [encode, decodeWord, decodeSel, wellFormed]
theorem lea (a : Src) (b : Src) (c : Src) (d : Dest) : Statement (.lea a b c d) := by
  intro h _; simp_all [encode, decodeWord, decodeSel, wellFormed]
theorem addi (a : Src) (d : Dest) (i : BitVec 15) : Statement (.addi a d i) := by
  intro h _; simp_all [encode, decodeWord, wellFormed]
theorem andi (a : Src) (d : Dest) (i : BitVec 15) : Statement (.andi a d i) := by
  intro h _; simp_all [encode, decodeWord, wellFormed]
theorem ori (a : Src) (d : Dest) (i : BitVec 15) : Statement (.ori a d i) := by
  intro h _; simp_all [encode, decodeWord, wellFormed]
theorem xori (a : Src) (d : Dest) (i : BitVec 15) : Statement (.xori a d i) := by
  intro h _; simp_all [encode, decodeWord, wellFormed]
theorem shli (a : Src) (d : Dest) (n : BitVec 6) : Statement (.shli a d n) := by
  intro h _; simp_all [encode, decodeWord, wellFormed]
theorem shri (a : Src) (d : Dest) (n : BitVec 6) : Statement (.shri a d n) := by
  intro h _; simp_all [encode, decodeWord, wellFormed]
theorem srai (a : Src) (d : Dest) (n : BitVec 6) : Statement (.srai a d n) := by
  intro h _; simp_all [encode, decodeWord, wellFormed]
theorem slti (a : Src) (d : Dest) (i : BitVec 15) : Statement (.slti a d i) := by
  intro h _; simp_all [encode, decodeWord, wellFormed]
theorem sltzi (a : Src) (d : Dest) (i : BitVec 15) : Statement (.sltzi a d i) := by
  intro h _; simp_all [encode, decodeWord, wellFormed]
theorem seqi (a : Src) (d : Dest) (i : BitVec 15) : Statement (.seqi a d i) := by
  intro h _; simp_all [encode, decodeWord, wellFormed]
theorem li (d : Dest) (i : BitVec 15) : Statement (.li d i) := by
  intro h _; simp_all [encode, decodeWord, decodeLi, wellFormed]
theorem lcat (a : Src) (d : Dest) (i : BitVec 15) : Statement (.lcat a d i) := by
  intro h _; simp_all [encode, decodeWord, wellFormed]
theorem extI (a : Src) (d : Dest) (p : BitVec 6) (l : BitVec 6) : Statement (.extI a d p l) := by
  intro h _; simp_all [encode, decodeWord, decodeExt, wellFormed]
theorem space (a : Src) (d : Dest) : Statement (.space a d) := by
  intro h _; simp_all [encode, decodeWord, decodeSpace, wellFormed]
theorem castPg (a : Src) (d : Dest) : Statement (.castPg a d) := by
  intro h _; simp_all [encode, decodeWord, decodeSpace, wellFormed]
theorem castSl (a : Src) (d : Dest) : Statement (.castSl a d) := by
  intro h _; simp_all [encode, decodeWord, decodeSpace, wellFormed]
theorem castSx (a : Src) (d : Dest) : Statement (.castSx a d) := by
  intro h _; simp_all [encode, decodeWord, decodeSpace, wellFormed]
theorem castCl (a : Src) (d : Dest) : Statement (.castCl a d) := by
  intro h _; simp_all [encode, decodeWord, decodeSpace, wellFormed]
theorem castOff (a : Src) (d : Dest) : Statement (.castOff a d) := by
  intro h _; simp_all [encode, decodeWord, decodeSpace, wellFormed]
theorem jmp (o : BitVec 25) : Statement (.jmp o) := by
  intro h _; simp_all [encode, decodeWord, wellFormed]
theorem call (o : BitVec 25) : Statement (.call o) := by
  intro h _; simp_all [encode, decodeWord, wellFormed]
theorem beq (a : Src) (b : Src) (o : BitVec 15) : Statement (.beq a b o) := by
  intro h _; simp_all [encode, decodeWord, wellFormed]
theorem bne (a : Src) (b : Src) (o : BitVec 15) : Statement (.bne a b o) := by
  intro h _; simp_all [encode, decodeWord, wellFormed]
theorem blt (a : Src) (b : Src) (o : BitVec 15) : Statement (.blt a b o) := by
  intro h _; simp_all [encode, decodeWord, wellFormed]
theorem bge (a : Src) (b : Src) (o : BitVec 15) : Statement (.bge a b o) := by
  intro h _; simp_all [encode, decodeWord, wellFormed]
theorem bltz (a : Src) (o : BitVec 15) : Statement (.bltz a o) := by
  intro h _; simp_all [encode, decodeWord, wellFormed]
theorem bgez (a : Src) (o : BitVec 15) : Statement (.bgez a o) := by
  intro h _; simp_all [encode, decodeWord, wellFormed]
theorem bz (a : Src) (o : BitVec 15) : Statement (.bz a o) := by
  intro h _; simp_all [encode, decodeWord, wellFormed]
theorem bnz (a : Src) (o : BitVec 15) : Statement (.bnz a o) := by
  intro h _; simp_all [encode, decodeWord, wellFormed]
theorem jtab (a : Src) (b : Src) (o : BitVec 15) : Statement (.jtab a b o) := by
  intro h _; simp_all [encode, decodeWord, wellFormed]
theorem jr (a : Src) : Statement (.jr a) := by
  intro h _; simp_all [encode, decodeWord, decodeJr, wellFormed]
theorem callr (a : Src) : Statement (.callr a) := by
  intro h _; simp_all [encode, decodeWord, decodeJr, wellFormed]
theorem ld (b : Src) (d : Dest) (z : Size) (p : Span) (o : BitVec 11) : Statement (.ld b d z p o) := by
  intro h _; simp_all [encode, decodeWord, decodeLd, wellFormed]
theorem lz (b : Src) (d : Dest) (z : Size) (p : Span) (o : BitVec 11) : Statement (.lz b d z p o) := by
  intro h _; cases z <;> simp_all [encode, decodeWord, decodeLz, sizeCode, sizeOf, wellFormed]
theorem st (b : Src) (r : Src) (z : Size) (p : Span) (o : BitVec 11) : Statement (.st b r z p o) := by
  intro h _; cases p <;> simp_all [encode, decodeWord, decodeSt, spanCode, spanOf, wellFormed]
theorem stNt (b : Src) (r : Src) (z : Size) (o : BitVec 11) : Statement (.stNt b r z o) := by
  intro h _; simp_all [encode, decodeWord, decodeSt, wellFormed]
theorem ldp (b : Src) (d : Dest) (p : Span) (o : BitVec 11) : Statement (.ldp b d p o) := by
  intro h _; simp_all [encode, decodeWord, decodeLdp, wellFormed]
theorem stp (a : Src) (b : Src) (c : Src) (o : BitVec 5) : Statement (.stp a b c o) := by
  intro h _; simp_all [encode, decodeWord, decodeStp, wellFormed]
theorem pref (b : Src) (l : Src) (p : Span) : Statement (.pref b l p) := by
  intro h _; simp_all [encode, decodeWord, decodeRange, wellFormed]
theorem flush (b : Src) (l : Src) : Statement (.flush b l) := by
  intro h _; simp_all [encode, decodeWord, decodeRange, wellFormed]
theorem clean (b : Src) (l : Src) : Statement (.clean b l) := by
  intro h _; simp_all [encode, decodeWord, decodeRange, wellFormed]
theorem inval (b : Src) (l : Src) : Statement (.inval b l) := by
  intro h _; simp_all [encode, decodeWord, decodeRange, wellFormed]
theorem amo (a : Src) (b : Src) (d : Dest) (w : Bool) (o : AmoOp) : Statement (.amo a b d w o) := by
  intro h _; simp_all [encode, decodeWord, decodeAmo, wellFormed]
theorem cas (a : Src) (b : Src) (c : Src) (d : Dest) (w : Bool) : Statement (.cas a b c d w) := by
  intro h _; simp_all [encode, decodeWord, decodeCas, wellFormed]
theorem amof (a : Src) (b : Src) (w : Bool) (o : FarOp) : Statement (.amof a b w o) := by
  intro h _; simp_all [encode, decodeWord, decodeAmof, wellFormed]
theorem amor (a : Src) (b : Src) (d : Dest) (w : Bool) (o : AmoOp) : Statement (.amor a b d w o) := by
  intro h _; cases o <;> simp_all [encode, decodeWord, decodeAmor, amoCode, amoOf, wellFormed]
theorem amorCas (a : Src) (b : Src) (c : Src) (d : Dest) (w : Bool) : Statement (.amorCas a b c d w) := by
  intro h _; simp_all [encode, decodeWord, decodeAmor, wellFormed]
theorem ldacqSys (b : Src) (d : Dest) (z : Size) (o : BitVec 11) : Statement (.ldacqSys b d z o) := by
  intro h _; simp_all [encode, decodeWord, decodeLdacq, wellFormed]
theorem strelSys (b : Src) (r : Src) (z : Size) (o : BitVec 11) : Statement (.strelSys b r z o) := by
  intro h _; simp_all [encode, decodeWord, decodeStrel, wellFormed]
theorem fenceSys : Statement (.fenceSys) := by
  intro h _; simp_all [encode, decodeWord, decodeFence, wellFormed]
theorem fenceIo : Statement (.fenceIo) := by
  intro h _; simp_all [encode, decodeWord, decodeFence, wellFormed]
theorem waita (a : Src) (b : Src) : Statement (.waita a b) := by
  intro h _; simp_all [encode, decodeWord, decodeFence, wellFormed]
theorem cend : Statement (.cend) := by
  intro h _; simp_all [encode, decodeWord, decodeFence, wellFormed]
theorem give (a : Src) : Statement (.give a) := by
  intro h _; simp_all [encode, decodeWord, decodeTile, wellFormed]
theorem take (a : Src) : Statement (.take a) := by
  intro h _; simp_all [encode, decodeWord, decodeTile, wellFormed]
theorem fwait (a : Src) (b : Src) (d : Dest) : Statement (.fwait a b d) := by
  intro h _; simp_all [encode, decodeWord, decodeFifo, wellFormed]
theorem froom (a : Src) (b : Src) (d : Dest) : Statement (.froom a b d) := by
  intro h _; simp_all [encode, decodeWord, decodeFifo, wellFormed]
theorem fadv (a : Src) (b : Src) : Statement (.fadv a b) := by
  intro h _; simp_all [encode, decodeWord, decodeFifo, wellFormed]
theorem fpub (a : Src) (b : Src) : Statement (.fpub a b) := by
  intro h _; simp_all [encode, decodeWord, decodeFifo, wellFormed]
theorem tbinit (a : Src) (b : Src) : Statement (.tbinit a b) := by
  intro h _; simp_all [encode, decodeWord, decodeTb, wellFormed]
theorem tbarr (a : Src) : Statement (.tbarr a) := by
  intro h _; simp_all [encode, decodeWord, decodeTb, wellFormed]
theorem tbexp (a : Src) (b : Src) : Statement (.tbexp a b) := by
  intro h _; simp_all [encode, decodeWord, decodeTb, wellFormed]
theorem tbwait (a : Src) (b : Src) : Statement (.tbwait a b) := by
  intro h _; simp_all [encode, decodeWord, decodeTb, wellFormed]
theorem send (a : Src) : Statement (.send a) := by
  intro h _; simp_all [encode, decodeWord, wellFormed]
theorem sendr (a : Src) (b : Src) : Statement (.sendr a b) := by
  intro h _; simp_all [encode, decodeWord, wellFormed]
theorem enq (a : Src) : Statement (.enq a) := by
  intro h _; simp_all [encode, decodeWord, decodeEnq, wellFormed]
theorem enqt (a : Src) (b : Src) : Statement (.enqt a b) := by
  intro h _; simp_all [encode, decodeWord, decodeEnq, wellFormed]
theorem deq (a : Src) (d : Dest) : Statement (.deq a d) := by
  intro h _; simp_all [encode, decodeWord, wellFormed]
theorem spawn : Statement (.spawn) := by
  intro h _; simp_all [encode, decodeWord, wellFormed]
theorem jinit (a : Src) (b : Src) : Statement (.jinit a b) := by
  intro h _; simp_all [encode, decodeWord, wellFormed]
theorem doneP : Statement (.doneP) := by
  intro h _; simp_all [encode, decodeWord, decodeDone, wellFormed]
theorem doneJ (a : Src) : Statement (.doneJ a) := by
  intro h _; simp_all [encode, decodeWord, decodeDone, wellFormed]
theorem doneT (a : Src) : Statement (.doneT a) := by
  intro h _; simp_all [encode, decodeWord, decodeDone, wellFormed]
theorem doneF (a : Src) : Statement (.doneF a) := by
  intro h _; simp_all [encode, decodeWord, decodeDone, wellFormed]
theorem yieldC : Statement (.yieldC) := by
  intro h _; simp_all [encode, decodeWord, wellFormed]
theorem rread (a : Src) (d : Dest) (z : Size) : Statement (.rread a d z) := by
  intro h _; simp_all [encode, decodeWord, decodeRread, wellFormed]
theorem launch (a : Src) : Statement (.launch a) := by
  intro h _; simp_all [encode, decodeWord, wellFormed]
theorem bar : Statement (.bar) := by
  intro h _; simp_all [encode, decodeWord, decodeBar, wellFormed]
theorem barb : Statement (.barb) := by
  intro h _; simp_all [encode, decodeWord, decodeBar, wellFormed]
theorem qmap (a : Src) (b : Src) : Statement (.qmap a b) := by
  intro h _; simp_all [encode, decodeWord, wellFormed]
theorem tryC (a : Src) (o : BitVec 15) : Statement (.tryC a o) := by
  intro h _; simp_all [encode, decodeWord, decodeTry, wellFormed]
theorem tryS (a : Src) (o : BitVec 15) : Statement (.tryS a o) := by
  intro h _; simp_all [encode, decodeWord, decodeTry, wellFormed]
theorem failC : Statement (.failC) := by
  intro h _; simp_all [encode, decodeWord, decodeFail, wellFormed]
theorem cut (a : Src) : Statement (.cut a) := by
  intro h _; simp_all [encode, decodeWord, decodeFail, wellFormed]
theorem mark (d : Dest) : Statement (.mark d) := by
  intro h _; simp_all [encode, decodeWord, decodeFail, wellFormed]
theorem trail (a : Src) (z : Size) : Statement (.trail a z) := by
  intro h _; simp_all [encode, decodeWord, decodeTrail, wellFormed]
theorem fadd (a : Src) (b : Src) (d : Dest) (p : Prec) : Statement (.fadd a b d p) := by
  intro h _; simp_all [encode, decodeWord, decodeFp2, wellFormed]
theorem fsub (a : Src) (b : Src) (d : Dest) (p : Prec) : Statement (.fsub a b d p) := by
  intro h _; simp_all [encode, decodeWord, decodeFp2, wellFormed]
theorem fmul (a : Src) (b : Src) (d : Dest) (p : Prec) : Statement (.fmul a b d p) := by
  intro h _; simp_all [encode, decodeWord, decodeFp2, wellFormed]
theorem fdiv (a : Src) (b : Src) (d : Dest) (p : Prec) : Statement (.fdiv a b d p) := by
  intro h _; simp_all [encode, decodeWord, decodeFp2, wellFormed]
theorem fmin (a : Src) (b : Src) (d : Dest) (p : Prec) : Statement (.fmin a b d p) := by
  intro h _; simp_all [encode, decodeWord, decodeFp2, wellFormed]
theorem fmax (a : Src) (b : Src) (d : Dest) (p : Prec) : Statement (.fmax a b d p) := by
  intro h _; simp_all [encode, decodeWord, decodeFp2, wellFormed]
theorem fsqrt (a : Src) (d : Dest) (p : Prec) : Statement (.fsqrt a d p) := by
  intro h _; simp_all [encode, decodeWord, decodeFp1, wellFormed]
theorem fclass (a : Src) (d : Dest) (p : Prec) : Statement (.fclass a d p) := by
  intro h _; simp_all [encode, decodeWord, decodeFp1, wellFormed]
theorem fround (a : Src) (d : Dest) (p : Prec) : Statement (.fround a d p) := by
  intro h _; simp_all [encode, decodeWord, decodeFp1, wellFormed]
theorem fsgn (a : Src) (b : Src) (d : Dest) (p : Prec) : Statement (.fsgn a b d p) := by
  intro h _; simp_all [encode, decodeWord, decodeFp1, wellFormed]
theorem ffma (a : Src) (b : Src) (c : Src) (d : Dest) (p : Prec) : Statement (.ffma a b c d p) := by
  intro h _; simp_all [encode, decodeWord, decodeFfma, wellFormed]
theorem feq (a : Src) (b : Src) (d : Dest) (p : Prec) : Statement (.feq a b d p) := by
  intro h _; simp_all [encode, decodeWord, decodeFcmp, wellFormed]
theorem flt (a : Src) (b : Src) (d : Dest) (p : Prec) : Statement (.flt a b d p) := by
  intro h _; simp_all [encode, decodeWord, decodeFcmp, wellFormed]
theorem fle (a : Src) (b : Src) (d : Dest) (p : Prec) : Statement (.fle a b d p) := by
  intro h _; simp_all [encode, decodeWord, decodeFcmp, wellFormed]
theorem fcvt (a : Src) (d : Dest) (t : STy) (s : STy) : Statement (.fcvt a d t s) := by
  intro h _; simp_all [encode, decodeWord, decodeFcvt, wellFormed]
theorem mfmt (i : BitVec 15) : Statement (.mfmt i) := by
  intro h _; simp_all [encode, decodeWord, decodeMfmt, wellFormed]
theorem mscl (a : Src) (n : Fin 8) : Statement (.mscl a n) := by
  intro h _; simp_all [encode, decodeWord, decodeMscl, wellFormed]
theorem mtick (d : Dest) : Statement (.mtick d) := by
  intro h _; simp_all [encode, decodeWord, wellFormed]
theorem mresume (a : Src) : Statement (.mresume a) := by
  intro h _; simp_all [encode, decodeWord, wellFormed]
theorem accspill (a : Src) (b : Src) : Statement (.accspill a b) := by
  intro h _; simp_all [encode, decodeWord, wellFormed]
theorem vld (v : Fin 32) (b : Src) (m : Fin 8) (p : Span) (z : Size) : Statement (.vld v b m p z) := by
  intro h _; simp_all [encode, decodeWord, decodeVMem, wellFormed]
theorem vst (v : Fin 32) (b : Src) (m : Fin 8) (p : Span) (z : Size) : Statement (.vst v b m p z) := by
  intro h _; simp_all [encode, decodeWord, decodeVMem, wellFormed]
theorem vlds (v : Fin 32) (b : Src) (x : Src) (m : Fin 8) (p : Span) (z : Size) : Statement (.vlds v b x m p z) := by
  intro h _; simp_all [encode, decodeWord, decodeVMem, wellFormed]
theorem vsts (v : Fin 32) (b : Src) (x : Src) (m : Fin 8) (p : Span) (z : Size) : Statement (.vsts v b x m p z) := by
  intro h _; simp_all [encode, decodeWord, decodeVMem, wellFormed]
theorem vgather (v : Fin 32) (b : Src) (x : Fin 32) (m : Fin 8) (p : Span) (z : Size) : Statement (.vgather v b x m p z) := by
  intro h _; simp_all [encode, decodeWord, decodeVGather, wellFormed]
theorem vscatter (v : Fin 32) (b : Src) (x : Fin 32) (m : Fin 8) (p : Span) (z : Size) : Statement (.vscatter v b x m p z) := by
  intro h _; simp_all [encode, decodeWord, decodeVGather, wellFormed]
theorem vadd (d : Fin 32) (a : Fin 32) (b : Fin 32) (m : Fin 8) (t : ATy) : Statement (.vadd d a b m t) := by
  intro h _; simp_all [encode, decodeWord, decodeVArith, wellFormed]
theorem vsub (d : Fin 32) (a : Fin 32) (b : Fin 32) (m : Fin 8) (t : ATy) : Statement (.vsub d a b m t) := by
  intro h _; simp_all [encode, decodeWord, decodeVArith, wellFormed]
theorem vmul (d : Fin 32) (a : Fin 32) (b : Fin 32) (m : Fin 8) (t : ATy) : Statement (.vmul d a b m t) := by
  intro h _; simp_all [encode, decodeWord, decodeVArith, wellFormed]
theorem vfma (d : Fin 32) (a : Fin 32) (b : Fin 32) (m : Fin 8) (t : ATy) : Statement (.vfma d a b m t) := by
  intro h _; simp_all [encode, decodeWord, decodeVArith, wellFormed]
theorem vmin (d : Fin 32) (a : Fin 32) (b : Fin 32) (m : Fin 8) (t : ATy) : Statement (.vmin d a b m t) := by
  intro h _; simp_all [encode, decodeWord, decodeVArith, wellFormed]
theorem vmax (d : Fin 32) (a : Fin 32) (b : Fin 32) (m : Fin 8) (t : ATy) : Statement (.vmax d a b m t) := by
  intro h _; simp_all [encode, decodeWord, decodeVArith, wellFormed]
theorem vabs (d : Fin 32) (a : Fin 32) (m : Fin 8) (t : ATy) : Statement (.vabs d a m t) := by
  intro h _; simp_all [encode, decodeWord, decodeVArith, wellFormed]
theorem vneg (d : Fin 32) (a : Fin 32) (m : Fin 8) (t : ATy) : Statement (.vneg d a m t) := by
  intro h _; simp_all [encode, decodeWord, decodeVArith, wellFormed]
theorem vand (d : Fin 32) (a : Fin 32) (b : Fin 32) (m : Fin 8) (t : ATy) : Statement (.vand d a b m t) := by
  intro h _; simp_all [encode, decodeWord, decodeVLogic, wellFormed]
theorem vor (d : Fin 32) (a : Fin 32) (b : Fin 32) (m : Fin 8) (t : ATy) : Statement (.vor d a b m t) := by
  intro h _; simp_all [encode, decodeWord, decodeVLogic, wellFormed]
theorem vxor (d : Fin 32) (a : Fin 32) (b : Fin 32) (m : Fin 8) (t : ATy) : Statement (.vxor d a b m t) := by
  intro h _; simp_all [encode, decodeWord, decodeVLogic, wellFormed]
theorem vshl (d : Fin 32) (a : Fin 32) (b : Fin 32) (m : Fin 8) (t : ATy) : Statement (.vshl d a b m t) := by
  intro h _; simp_all [encode, decodeWord, decodeVLogic, wellFormed]
theorem vshr (d : Fin 32) (a : Fin 32) (b : Fin 32) (m : Fin 8) (t : ATy) : Statement (.vshr d a b m t) := by
  intro h _; simp_all [encode, decodeWord, decodeVLogic, wellFormed]
theorem vsra (d : Fin 32) (a : Fin 32) (b : Fin 32) (m : Fin 8) (t : ATy) : Statement (.vsra d a b m t) := by
  intro h _; simp_all [encode, decodeWord, decodeVLogic, wellFormed]
theorem vcmp (d : Fin 8) (a : Fin 32) (b : Fin 32) (m : Fin 8) (c : Cc) (t : ATy) : Statement (.vcmp d a b m c t) := by
  intro h _; simp_all [encode, decodeWord, decodeVCmp, wellFormed]
theorem vsel (d : Fin 32) (a : Fin 32) (b : Fin 32) (m : Fin 8) (t : ATy) : Statement (.vsel d a b m t) := by
  intro h _; simp_all [encode, decodeWord, decodeVCmp, wellFormed]
theorem vredSum (d : Fin 32) (a : Fin 32) (m : Fin 8) (t : ATy) : Statement (.vredSum d a m t) := by
  intro h _; simp_all [encode, decodeWord, decodeVRed, wellFormed]
theorem vredMin (d : Fin 32) (a : Fin 32) (m : Fin 8) (t : ATy) : Statement (.vredMin d a m t) := by
  intro h _; simp_all [encode, decodeWord, decodeVRed, wellFormed]
theorem vredMax (d : Fin 32) (a : Fin 32) (m : Fin 8) (t : ATy) : Statement (.vredMax d a m t) := by
  intro h _; simp_all [encode, decodeWord, decodeVRed, wellFormed]
theorem vscan (d : Fin 32) (a : Fin 32) (o : ScanOp) (m : Fin 8) (t : ATy) : Statement (.vscan d a o m t) := by
  intro h _; simp_all [encode, decodeWord, decodeVRed, wellFormed]
theorem vperm (d : Fin 32) (a : Fin 32) (b : Fin 32) (m : Fin 8) (t : ATy) : Statement (.vperm d a b m t) := by
  intro h _; simp_all [encode, decodeWord, decodeVRed, wellFormed]
theorem vcompress (d : Fin 32) (a : Fin 32) (m : Fin 8) (t : ATy) : Statement (.vcompress d a m t) := by
  intro h _; simp_all [encode, decodeWord, decodeVRed, wellFormed]
theorem vbcast (d : Fin 32) (a : Src) (m : Fin 8) (t : ATy) : Statement (.vbcast d a m t) := by
  intro h _; simp_all [encode, decodeWord, decodeVMove, wellFormed]
theorem vext (d : Dest) (a : Fin 32) (i : BitVec 6) (t : ATy) : Statement (.vext d a i t) := by
  intro h _; simp_all [encode, decodeWord, decodeVMove, wellFormed]
theorem vins (d : Fin 32) (a : Src) (i : BitVec 6) (t : ATy) : Statement (.vins d a i t) := by
  intro h _; simp_all [encode, decodeWord, decodeVMove, wellFormed]
theorem vcvt (d : Fin 32) (a : Fin 32) (s : ETy) (m : Fin 8) (t : ETy) : Statement (.vcvt d a s m t) := by
  intro h _; simp_all [encode, decodeWord, decodeVCvt, wellFormed]
theorem vdq (d : Fin 32) (a : Fin 32) (s : ETy) (m : Fin 8) (t : ETy) : Statement (.vdq d a s m t) := by
  intro h _; simp_all [encode, decodeWord, decodeVCvt, wellFormed]
theorem vdot (d : Fin 32) (a : Fin 32) (b : Fin 32) (m : Fin 8) (t : ETy) : Statement (.vdot d a b m t) := by
  intro h _; simp_all [encode, decodeWord, decodeVCvt, wellFormed]
theorem vcvtq (d : Fin 32) (a : Fin 32) (s : ETy) (m : Fin 8) (t : ETy) : Statement (.vcvtq d a s m t) := by
  intro h _; simp_all [encode, decodeWord, decodeVQuant, wellFormed]
theorem vcvtqH16 (d : Fin 32) (a : Fin 32) (s : ETy) (t : ETy) : Statement (.vcvtqH16 d a s t) := by
  intro h _; simp_all [encode, decodeWord, decodeVQuant, wellFormed]
theorem vcvtqH32 (d : Fin 32) (a : Fin 32) (s : ETy) (t : ETy) : Statement (.vcvtqH32 d a s t) := by
  intro h _; simp_all [encode, decodeWord, decodeVQuant, wellFormed]
theorem vhadH16 (d : Fin 32) (a : Fin 32) (t : ETy) : Statement (.vhadH16 d a t) := by
  intro h _; simp_all [encode, decodeWord, decodeVQuant, wellFormed]
theorem vhadH32 (d : Fin 32) (a : Fin 32) (t : ETy) : Statement (.vhadH32 d a t) := by
  intro h _; simp_all [encode, decodeWord, decodeVQuant, wellFormed]
theorem mand (d : Fin 8) (a : Fin 8) (b : Fin 8) : Statement (.mand d a b) := by
  intro h _; simp_all [encode, decodeWord, decodeMask, wellFormed]
theorem mor (d : Fin 8) (a : Fin 8) (b : Fin 8) : Statement (.mor d a b) := by
  intro h _; simp_all [encode, decodeWord, decodeMask, wellFormed]
theorem mnot (d : Fin 8) (a : Fin 8) : Statement (.mnot d a) := by
  intro h _; simp_all [encode, decodeWord, decodeMask, wellFormed]
theorem mpop (d : Dest) (a : Fin 8) : Statement (.mpop d a) := by
  intro h _; simp_all [encode, decodeWord, decodeMask, wellFormed]
theorem trap (a : Src) : Statement (.trap a) := by
  intro h _; simp_all [encode, decodeWord, decodeSystem, wellFormed]
theorem eret : Statement (.eret) := by
  intro h _; simp_all [encode, decodeWord, decodeSystem, wellFormed]
theorem crd (r : BitVec 5) (d : Dest) : Statement (.crd r d) := by
  intro h _; simp_all [encode, decodeWord, decodeSystem, wellFormed]
theorem cwr (a : Src) (r : BitVec 5) : Statement (.cwr a r) := by
  intro h _; simp_all [encode, decodeWord, decodeSystem, wellFormed]
theorem brk : Statement (.brk) := by
  intro h _; simp_all [encode, decodeWord, decodeSystem, wellFormed]
theorem tinv (a : Src) (b : Src) : Statement (.tinv a b) := by
  intro h _; simp_all [encode, decodeWord, decodeSystem, wellFormed]
theorem rmode (a : Src) (b : Src) (m : CMode) : Statement (.rmode a b m) := by
  intro h _; cases m <;> simp_all [encode, decodeWord, decodeSystem, cmodeCode, cmodeOf, wellFormed]
theorem ctxsave (a : Src) : Statement (.ctxsave a) := by
  intro h _; simp_all [encode, decodeWord, decodeSystem, wellFormed]
theorem ctxload (a : Src) : Statement (.ctxload a) := by
  intro h _; simp_all [encode, decodeWord, decodeSystem, wellFormed]
theorem pre (a : Src) : Statement (.pre a) := by
  intro h _; simp_all [encode, decodeWord, decodeSystem, wellFormed]
theorem trapEntry : Statement (.trapEntry) := by
  intro _ h; simp [hasWord, encode, fOp] at h
theorem asyncTrap : Statement (.asyncTrap) := by
  intro _ h; simp [hasWord, encode, fOp] at h
theorem mcheck (loc : Nat) (reason : Nat) (detail : Nat) (badva : Word) : Statement (.mcheck loc reason detail badva) := by
  intro _ h; simp [hasWord, encode, fOp] at h
theorem chunkLengthLimit : Statement (.chunkLengthLimit) := by
  intro _ h; simp [hasWord, encode, fOp] at h
theorem chunkEnd : Statement (.chunkEnd) := by
  intro _ h; simp [hasWord, encode, fOp] at h
theorem grantRequest (arb : Nat) (cid : Nat) : Statement (.grantRequest arb cid) := by
  intro _ h; simp [hasWord, encode, fOp] at h
theorem commitPoint : Statement (.commitPoint) := by
  intro _ h; simp [hasWord, encode, fOp] at h
theorem commitMessage (home : Nat) (cid : Nat) : Statement (.commitMessage home cid) := by
  intro _ h; simp [hasWord, encode, fOp] at h
theorem forwardedW (core : Nat) (cid : Nat) : Statement (.forwardedW core cid) := by
  intro _ h; simp [hasWord, encode, fOp] at h
theorem commitComplete : Statement (.commitComplete) := by
  intro _ h; simp [hasWord, encode, fOp] at h
theorem heldChunkStart : Statement (.heldChunkStart) := by
  intro _ h; simp [hasWord, encode, fOp] at h
theorem faultResponse (loc : Nat) (pos : Nat) : Statement (.faultResponse loc pos) := by
  intro _ h; simp [hasWord, encode, fOp] at h
theorem softError : Statement (.softError) := by
  intro _ h; simp [hasWord, encode, fOp] at h
theorem watchWake : Statement (.watchWake) := by
  intro _ h; simp [hasWord, encode, fOp] at h
theorem yieldResume : Statement (.yieldResume) := by
  intro _ h; simp [hasWord, encode, fOp] at h
theorem getS (home : Nat) (f : FillReq) : Statement (.getS home f) := by
  intro _ h; simp [hasWord, encode, fOp] at h
theorem homeDataArrival (home : Nat) (region : Nat) : Statement (.homeDataArrival home region) := by
  intro _ h; simp [hasWord, encode, fOp] at h
theorem writeBack (home : Nat) (region : Nat) (who : WbFrom) (words : List (Nat × Word)) : Statement (.writeBack home region who words) := by
  intro _ h; simp [hasWord, encode, fOp] at h
theorem snoop (home : Nat) (region : Nat) (who : Nat) (inval : Bool) : Statement (.snoop home region who inval) := by
  intro _ h; simp [hasWord, encode, fOp] at h
theorem ownerMoveReport (home : Nat) (region : Nat) (who : Nat) : Statement (.ownerMoveReport home region who) := by
  intro _ h; simp [hasWord, encode, fOp] at h
theorem fillArrival (f : FillReq) : Statement (.fillArrival f) := by
  intro _ h; simp [hasWord, encode, fOp] at h
theorem extensionArrival (f : FillReq) : Statement (.extensionArrival f) := by
  intro _ h; simp [hasWord, encode, fOp] at h
theorem leaseExpiry (core : Nat) (asid : Nat) (va : Nat) : Statement (.leaseExpiry core asid va) := by
  intro _ h; simp [hasWord, encode, fOp] at h
theorem recallName (home : Nat) (region : Nat) (asid : Nat) (va : Nat) : Statement (.recallName home region asid va) := by
  intro _ h; simp [hasWord, encode, fOp] at h
theorem recallAnswer (home : Nat) (region : Nat) (core : Nat) (asid : Nat) (va : Nat) : Statement (.recallAnswer home region core asid va) := by
  intro _ h; simp [hasWord, encode, fOp] at h
theorem pageWalk (home : Nat) (asid : Nat) (page : Nat) (write : Bool) : Statement (.pageWalk home asid page write) := by
  intro _ h; simp [hasWord, encode, fOp] at h
theorem tinvHome (home : Nat) (tid : Nat) : Statement (.tinvHome home tid) := by
  intro _ h; simp [hasWord, encode, fOp] at h
theorem rmodeDrain (home : Nat) (tid : Nat) : Statement (.rmodeDrain home tid) := by
  intro _ h; simp [hasWord, encode, fOp] at h
theorem directoryError (home : Nat) (region : Nat) : Statement (.directoryError home region) := by
  intro _ h; simp [hasWord, encode, fOp] at h
theorem filterError (unit : Nat) (key : Nat) : Statement (.filterError unit key) := by
  intro _ h; simp [hasWord, encode, fOp] at h
theorem engineCommit : Statement (.engineCommit) := by
  intro _ h; simp [hasWord, encode, fOp] at h
theorem inboundWrite (req : Nat) (ro : Bool) (cells : List (Nat × Byte)) : Statement (.inboundWrite req ro cells) := by
  intro _ h; simp [hasWord, encode, fOp] at h
theorem ioCommit : Statement (.ioCommit) := by
  intro _ h; simp [hasWord, encode, fOp] at h
theorem inboundRead (req : Nat) (pa : Nat) (n : Nat) : Statement (.inboundRead req pa n) := by
  intro _ h; simp [hasWord, encode, fOp] at h
theorem atomicopFetchadd (req : Nat) (pa : Nat) (n : Nat) (x : Word) : Statement (.atomicopFetchadd req pa n x) := by
  intro _ h; simp [hasWord, encode, fOp] at h
theorem atomicopSwap (req : Nat) (pa : Nat) (n : Nat) (x : Word) : Statement (.atomicopSwap req pa n x) := by
  intro _ h; simp [hasWord, encode, fOp] at h
theorem atomicopCas (req : Nat) (pa : Nat) (n : Nat) (x : Word) (y : Word) : Statement (.atomicopCas req pa n x y) := by
  intro _ h; simp [hasWord, encode, fOp] at h
theorem backInvalidate (line : Nat) (cid : Nat) : Statement (.backInvalidate line cid) := by
  intro _ h; simp [hasWord, encode, fOp] at h
theorem backInvalidateAnswer (line : Nat) (cid : Nat) (cells : List (Nat × Byte)) : Statement (.backInvalidateAnswer line cid cells) := by
  intro _ h; simp [hasWord, encode, fOp] at h
theorem cxlCacheSnoop : Statement (.cxlCacheSnoop) := by
  intro _ h; simp [hasWord, encode, fOp] at h
theorem msixSend : Statement (.msixSend) := by
  intro _ h; simp [hasWord, encode, fOp] at h
theorem messagePortWord (asid : Nat) (req : Nat) (j : Nat) (x : Word) : Statement (.messagePortWord asid req j x) := by
  intro _ h; simp [hasWord, encode, fOp] at h
theorem messagePortSend (asid : Nat) (req : Nat) (x : Word) : Statement (.messagePortSend asid req x) := by
  intro _ h; simp [hasWord, encode, fOp] at h
theorem dispatch : Statement (.dispatch) := by
  intro _ h; simp [hasWord, encode, fOp] at h
theorem gangGather (lid : Nat) (g : Nat) : Statement (.gangGather lid g) := by
  intro _ h; simp [hasWord, encode, fOp] at h
theorem theft (victim : Nat) (rec : Word) (thief : Nat) : Statement (.theft victim rec thief) := by
  intro _ h; simp [hasWord, encode, fOp] at h
theorem queueMiss (die : Nat) (asid : Nat) (h : Nat) : Statement (.queueMiss die asid h) := by
  intro _ h; simp [hasWord, encode, fOp] at h
theorem queueProbe : Statement (.queueProbe) := by
  intro _ h; simp [hasWord, encode, fOp] at h
theorem ringDelivery : Statement (.ringDelivery) := by
  intro _ h; simp [hasWord, encode, fOp] at h
theorem ringRetry : Statement (.ringRetry) := by
  intro _ h; simp [hasWord, encode, fOp] at h
theorem queueStall : Statement (.queueStall) := by
  intro _ h; simp [hasWord, encode, fOp] at h
theorem mailboxDelivery (core : Nat) (asid : Nat) (msg : List Word) : Statement (.mailboxDelivery core asid msg) := by
  intro _ h; simp [hasWord, encode, fOp] at h
theorem successorWalk (asid : Nat) (tcb : Word) (loc : Nat) (i : Nat) : Statement (.successorWalk asid tcb loc i) := by
  intro _ h; simp [hasWord, encode, fOp] at h
theorem tcbDecrement (asid : Nat) (s : Word) (tcb : Word) (loc : Nat) (i : Nat) : Statement (.tcbDecrement asid s tcb loc i) := by
  intro _ h; simp [hasWord, encode, fOp] at h
theorem joinDecrement (asid : Nat) (blk : Word) (loc : Nat) : Statement (.joinDecrement asid blk loc) := by
  intro _ h; simp [hasWord, encode, fOp] at h
theorem groupComplete (lid : Nat) (g : Nat) : Statement (.groupComplete lid g) := by
  intro _ h; simp [hasWord, encode, fOp] at h
theorem dupCompare (lid : Nat) (g : Nat) : Statement (.dupCompare lid g) := by
  intro _ h; simp [hasWord, encode, fOp] at h
theorem taskHang : Statement (.taskHang) := by
  intro _ h; simp [hasWord, encode, fOp] at h
theorem barrierRelease (gang : Nat) (band : Bool) : Statement (.barrierRelease gang band) := by
  intro _ h; simp [hasWord, encode, fOp] at h
theorem preemptRequest (desc : Word) (excl : Nat) : Statement (.preemptRequest desc excl) := by
  intro _ h; simp [hasWord, encode, fOp] at h
theorem preemptComplete (desc : Word) (asids : List Nat) : Statement (.preemptComplete desc asids) := by
  intro _ h; simp [hasWord, encode, fOp] at h
theorem releaseHeld (desc : Word) : Statement (.releaseHeld desc) := by
  intro _ h; simp [hasWord, encode, fOp] at h
theorem mma : Statement (.mma) := by
  intro _ h; simp [hasWord, encode, fOp] at h
theorem mmaz : Statement (.mmaz) := by
  intro _ h; simp [hasWord, encode, fOp] at h
theorem mload : Statement (.mload) := by
  intro _ h; simp [hasWord, encode, fOp] at h
theorem mstore : Statement (.mstore) := by
  intro _ h; simp [hasWord, encode, fOp] at h
theorem mzero : Statement (.mzero) := by
  intro _ h; simp [hasWord, encode, fOp] at h
theorem mfence : Statement (.mfence) := by
  intro _ h; simp [hasWord, encode, fOp] at h
theorem commandComplete : Statement (.commandComplete) := by
  intro _ h; simp [hasWord, encode, fOp] at h
theorem accWriteback (cl : Nat) (tile : Nat) : Statement (.accWriteback cl tile) := by
  intro _ h; simp [hasWord, encode, fOp] at h
theorem pktCopy : Statement (.pktCopy) := by
  intro _ h; simp [hasWord, encode, fOp] at h
theorem pktTofifo : Statement (.pktTofifo) := by
  intro _ h; simp [hasWord, encode, fOp] at h
theorem pktGather : Statement (.pktGather) := by
  intro _ h; simp [hasWord, encode, fOp] at h
theorem pktScatter : Statement (.pktScatter) := by
  intro _ h; simp [hasWord, encode, fOp] at h
theorem pktFill : Statement (.pktFill) := by
  intro _ h; simp [hasWord, encode, fOp] at h
theorem pktChain : Statement (.pktChain) := by
  intro _ h; simp [hasWord, encode, fOp] at h
theorem chainHop (pid : Nat) (hop : Nat) : Statement (.chainHop pid hop) := by
  intro _ h; simp [hasWord, encode, fOp] at h
theorem preEmptionRegister (master : Nat) (x : Word) : Statement (.preEmptionRegister master x) := by
  intro _ h; simp [hasWord, encode, fOp] at h
theorem asidInvalidate (master : Nat) (asid : Nat) : Statement (.asidInvalidate master asid) := by
  intro _ h; simp [hasWord, encode, fOp] at h
theorem lostEventClear (master : Nat) (asid : Nat) : Statement (.lostEventClear master asid) := by
  intro _ h; simp [hasWord, encode, fOp] at h
theorem haltCores (master : Nat) (die : Nat) (x : Word) : Statement (.haltCores master die x) := by
  intro _ h; simp [hasWord, encode, fOp] at h
theorem haltRelease (master : Nat) (die : Nat) (x : Word) : Statement (.haltRelease master die x) := by
  intro _ h; simp [hasWord, encode, fOp] at h
theorem stepCore (master : Nat) (die : Nat) : Statement (.stepCore master die) := by
  intro _ h; simp [hasWord, encode, fOp] at h
theorem debugWindowWrite (master : Nat) (die : Nat) (off : Nat) (x : Word) : Statement (.debugWindowWrite master die off x) := by
  intro _ h; simp [hasWord, encode, fOp] at h
theorem controlSpaceWrite (master : Nat) (off : Nat) (x : Word) : Statement (.controlSpaceWrite master off x) := by
  intro _ h; simp [hasWord, encode, fOp] at h
theorem claim (id : Nat) (nonce : BitVec 32) : Statement (.claim id nonce) := by
  intro _ h; simp [hasWord, encode, fOp] at h
theorem electionClose : Statement (.electionClose) := by
  intro _ h; simp [hasWord, encode, fOp] at h
theorem heartbeat (id : Nat) (nonce : BitVec 32) : Statement (.heartbeat id nonce) := by
  intro _ h; simp [hasWord, encode, fOp] at h
theorem ownerStale : Statement (.ownerStale) := by
  intro _ h; simp [hasWord, encode, fOp] at h
theorem successor (id : Nat) (nonce : BitVec 32) (next : Nat) (nextNonce : BitVec 32) : Statement (.successor id nonce next nextNonce) := by
  intro _ h; simp [hasWord, encode, fOp] at h
theorem switchImage (img : Nat) (target : Bool) : Statement (.switchImage img target) := by
  intro _ h; simp [hasWord, encode, fOp] at h
theorem recalibrateHome : Statement (.recalibrateHome) := by
  intro _ h; simp [hasWord, encode, fOp] at h
theorem retireDie : Statement (.retireDie) := by
  intro _ h; simp [hasWord, encode, fOp] at h
theorem writeRetiredMask : Statement (.writeRetiredMask) := by
  intro _ h; simp [hasWord, encode, fOp] at h
theorem serviceComplete : Statement (.serviceComplete) := by
  intro _ h; simp [hasWord, encode, fOp] at h
theorem resetPackage (keep : Bool) : Statement (.resetPackage keep) := by
  intro _ h; simp [hasWord, encode, fOp] at h
theorem fatalErrorDump : Statement (.fatalErrorDump) := by
  intro _ h; simp [hasWord, encode, fOp] at h
theorem powerThrottle (die : Nat) (down : Bool) : Statement (.powerThrottle die down) := by
  intro _ h; simp [hasWord, encode, fOp] at h
theorem sprinnyTranslate : Statement (.sprinnyTranslate) := by
  intro _ h; simp [hasWord, encode, fOp] at h
theorem loaderStart : Statement (.loaderStart) := by
  intro _ h; simp [hasWord, encode, fOp] at h
theorem systemScopeCompletion (id : Nat) (x : Word) : Statement (.systemScopeCompletion id x) := by
  intro _ h; simp [hasWord, encode, fOp] at h

end Sys2Proof.Laws.Encoding
end

