-- ==== Sys2Proof/Laws/Writes.lean ====
section
/-! SUPPORT. Committed writes: the bytes stand and nothing else of memory is changed, whatever else the write does; the canonical form
is kept. -/

namespace Sys2Proof.Machine

set_option Elab.async false

/-! ## What a squash and the notices of a write leave of memory -/

theorem foldl_mem {α : Type} {f : State → α → State} (hf : ∀ s x, (f s x).mem = s.mem) (xs : List α) (s : State) :
    (xs.foldl f s).mem = s.mem := by
  induction xs generalizing s with
  | nil => rfl
  | cons x xs ih => rw [List.foldl_cons, ih, hf]

theorem postOnce_mem (s : State) (u : Nat) (i : Instr) : (postOnce s u i).mem = s.mem := by
  unfold postOnce; split <;> rfl

theorem reexamine_mem (s : State) (a : Nat) : (reexamine s a).mem = s.mem := by
  unfold reexamine; simp only; split <;> rfl

theorem withdraw_mem (s : State) (l : Nat) : (withdraw s l).mem = s.mem := by
  unfold withdraw
  split
  · rfl
  · exact foldl_mem reexamine_mem _ _

theorem squash_mem (s : State) (l : Nat) (b : Bool) : (squash s l b).mem = s.mem := withdraw_mem s l

theorem squashMeeting_mem (s : State) (w : BitVec 1024) (p : Nat → Bool) : (squashMeeting s w p).mem = s.mem := by
  refine foldl_mem (fun t e => ?_) _ _
  simp only
  split
  · exact squash_mem _ _ _
  · rfl

theorem noteWrite_mem (s : State) (key n : Nat) : (noteWrite s key n).mem = s.mem := by
  unfold noteWrite
  exact foldl_mem (fun _ _ => by rfl) _ _

theorem dropCopies_mem (s : State) (r : Nat) : (dropCopies s r).mem = s.mem := rfl

theorem poisonBad_mem (s : State) (b : Block) : (poisonBad s b).mem = s.mem := by
  unfold poisonBad; split <;> rfl

theorem settleBad_mem (own : Option Nat) (s : State) (r : Nat) : (settleBad own s r).mem = s.mem := by
  unfold settleBad
  simp only
  split
  · rfl
  · exact foldl_mem poisonBad_mem _ _

theorem noteWrite_wf (s : State) (key n : Nat) (h : Memory.wf s.mem = true) : Memory.wf (noteWrite s key n).mem = true := by
  rw [noteWrite_mem]; exact h

/-! ## Committed writes -/

theorem commitPlain_mem (s : State) (w : BitVec 1024) (key : Nat) (bs : List Byte) :
    (commitPlain s w key bs).mem = memPutAll s.mem key bs := by
  unfold commitPlain
  simp only [noteWrite_mem]
  rw [foldl_mem dropCopies_mem, squashMeeting_mem]
  exact congrArg (fun m => memPutAll m key bs) (foldl_mem (settleBad_mem none) _ _)

theorem foldl_wf {α : Type} {f : State → α → State} (hf : ∀ s x, Memory.wf s.mem = true → Memory.wf (f s x).mem = true) (xs : List α)
    (s : State) (h : Memory.wf s.mem = true) : Memory.wf (xs.foldl f s).mem = true := by
  induction xs generalizing s with
  | nil => exact h
  | cons x xs ih => exact ih _ (hf _ _ h)

theorem lineBack_wf (s : State) (line : Nat) (cells : List (Nat × Byte)) (h : Memory.wf s.mem = true) :
    Memory.wf (lineBack s line cells).mem = true := by
  unfold lineBack
  exact foldl_wf (fun t r h => by rw [commitPlain_mem]; exact memPutAll_wf _ _ _ h) _ _ h

theorem putWords_wf (s : State) (r : Nat) (ws : List (Nat × Word)) (h : Memory.wf s.mem = true) :
    Memory.wf (putWords s r ws).mem = true := by
  unfold putWords
  refine foldl_wf (fun t p h => ?_) _ _ h
  simp only
  split <;> exact noteWrite_wf _ _ _ (memPutAll_wf _ _ _ h)

theorem absorbFlight_wf (s : State) (r : Nat) (p : Nat → Bool) (h : Memory.wf s.mem = true) :
    Memory.wf (absorbFlight s r p).mem = true := by
  unfold absorbFlight
  simp only
  split
  · exact h
  · refine foldl_wf (fun t e h => ?_) _ _ h
    split
    · exact putWords_wf _ _ _ h
    · exact h

/-- R120: what a CP owner's caches give back keeps the form. -/
theorem cpHome_wf (s : State) (r : Nat) (h : Memory.wf s.mem = true) : Memory.wf (cpHome s r).mem = true := by
  unfold cpHome
  split
  · exact h
  · exact putWords_wf _ _ _ (putWords_wf _ _ _ (absorbFlight_wf _ _ _ h))

/-- R120, R296: what comes back before a write keeps the form. -/
theorem gather_wf (s : State) (key n : Nat) (h : Memory.wf s.mem = true) : Memory.wf (gather s key n).mem = true := by
  unfold gather
  refine foldl_wf (fun t l h => lineBack_wf (answer t (.backInvalidate l)) l _ h) _ _ ?_
  split
  · exact foldl_wf cpHome_wf _ _ h
  · exact h

theorem cpHome_none (s : State) (r : Nat) (h : cpHeld s r = false) : cpHome s r = s := by simp [cpHome, h]

theorem foldl_cpHome_none (rs : List Nat) (s : State) (h : rs.any (cpHeld s) = false) : rs.foldl cpHome s = s := by
  induction rs generalizing s with
  | nil => rfl
  | cons r rs ih =>
    simp only [List.any_cons, Bool.or_eq_false_iff] at h
    rw [List.foldl_cons, cpHome_none _ _ h.1]; exact ih _ h.2

/-- R120, R296: nothing comes back where nothing is held elsewhere. -/
theorem gather_none (s : State) (key n : Nat) (h : heldElsewhere s key n = false) : gather s key n = s := by
  have hc : (if isHbm key then (keyRegions key n).foldl cpHome s else s) = s := by
    split
    · exact foldl_cpHome_none _ _ (by simp_all [heldElsewhere])
    · rfl
  have ht : hostTouched s key n = [] := by simpa [heldElsewhere] using (Bool.or_eq_false_iff.mp h).1
  simp only [gather, hc, ht, List.foldl_nil]

/-- R296: the bytes stand over what the hosts returned. -/
theorem commitBytes_mem (s : State) (w : BitVec 1024) (key : Nat) (bs : List Byte) :
    (commitBytes s w key bs).mem = memPutAll (gather s key bs.length).mem key bs := commitPlain_mem _ _ _ _

theorem commitBytes_wf (s : State) (w : BitVec 1024) (key : Nat) (bs : List Byte) (h : Memory.wf s.mem = true) :
    Memory.wf (commitBytes s w key bs).mem = true := by
  rw [commitBytes_mem]; exact memPutAll_wf _ _ _ (gather_wf _ _ _ h)

/-- R183: a hardware write differs from any other committed write only in whom it squashes. -/
theorem hwCommit_mem (s : State) (w : BitVec 1024) (key : Nat) (bs : List Byte) :
    (hwCommit s w key bs).mem = memPutAll (gather s key bs.length).mem key bs := commitBytes_mem _ _ _ _

theorem hwCommit_wf (s : State) (w : BitVec 1024) (key : Nat) (bs : List Byte) (h : Memory.wf s.mem = true) :
    Memory.wf (hwCommit s w key bs).mem = true := commitBytes_wf _ _ _ _ h

theorem putRaw_wf (s : State) (key : Nat) (bs : List Byte) (h : Memory.wf s.mem = true) : Memory.wf (putRaw s key bs).mem = true :=
  memPutAll_wf _ _ _ h

theorem memWfFrom_filter (p : Host.Cell → Bool) (m : List Host.Cell) (lo : Option Nat) (h : memWfFrom lo m = true) :
    memWfFrom lo (m.filter p) = true := by
  induction m generalizing lo with
  | nil => exact h
  | cons e rest ih =>
    obtain ⟨a, b⟩ := e
    simp only [memWfFrom, Bool.and_eq_true] at h
    have hr := ih _ h.2
    by_cases hp : p (a, b) = true
    · rw [List.filter_cons_of_pos hp]
      simp only [memWfFrom, Bool.and_eq_true]
      exact ⟨h.1, hr⟩
    · rw [List.filter_cons_of_neg hp]
      cases lo with
      | none => exact memWfFrom_weaken hr
      | some l => exact memWfFrom_lower hr (by have := h.1.1; simp at this; omega)

/-- R303: what a reset keeps of memory has the form. -/
theorem keptCells_wf (s : State) (keep : Bool) (h : Memory.wf s.mem = true) : Memory.wf (keptCells s keep) = true :=
  memWfFrom_filter _ _ _ h

/-! ## Writes of records by hardware -/

/-- R105: a hardware write that answers has written its bytes at the address that its translation gives, over what the hosts
returned of their lines. -/
theorem hwWrite_mem {s t : State} {asid va : Nat} {bs : List Byte} {hc : Bool} (h : hwWrite s asid va bs hc = .ok () t) :
    ∃ pa u, hwAddr s asid va true hc = .ok pa u ∧ t.mem = memPutAll (gather u pa bs.length).mem pa bs := by
  unfold hwWrite at h
  split at h
  · simp at h
  · simp at h
  · rename_i pa u ha
    simp only at h
    split at h
    · simp at h
    · simp only [Hw.ok.injEq, true_and] at h
      exact ⟨pa, u, ha, by rw [← h, hwCommit_mem]⟩

/-- An update that answers has changed one word, as it stands once no host holds its line, to a function of itself. -/
theorem hwChange_mem {s t : State} {asid va : Nat} {hc : Bool} {f : Word → Word} {old : Word} (h : hwChange s asid va hc f = .ok old t) :
    ∃ pa u, hwAddr s asid va true hc = .ok pa u ∧ (let v := gather u pa 8; old = memWord v.mem pa
      ∧ (f old = old ∧ t = v ∨ f old ≠ old ∧ t.mem = memPutAll (gather v pa 8).mem pa (wordBytes (f old)))) := by
  unfold hwChange at h
  split at h
  · simp at h
  · simp at h
  · rename_i pa u ha
    simp only at h
    split at h
    · simp at h
    · split at h
      · simp at h
      · simp only [Hw.ok.injEq] at h
        obtain ⟨rfl, ht⟩ := h
        refine ⟨pa, u, ha, rfl, ?_⟩
        split at ht
        · exact .inl ⟨by assumption, ht.symm⟩
        · exact .inr ⟨by assumption, by rw [← ht, hwCommit_mem]; rfl⟩

end Sys2Proof.Machine
end

