-- ==== Sys2Proof/Tests/Slice0.lean ====
section
/-! SUPPORT. Tests: words written out from the encodings, ill-formed terms, one-step checks against the spec's own figures, and for each
statement that has hypotheses a state and operands that meet them. -/

namespace Sys2Proof.Machine.Tests

open Sys2Proof Sys2Proof.Machine

set_option Elab.async false

/-! ## Words written out from the encodings (R42–R59; most are worked examples of the spec) -/

theorem test_word_bge : decode [0x0C, 0x80, 0x89, 0x4B] = .ok (.bge (.k 8) (.k 3) 12, []) := by decide
theorem test_word_nop : decodeWord 0x02000000 = .ok .nop := by decide
theorem test_word_sel : decodeWord 0x0400DAC0 = .ok (.sel (.q 0) (.q 1) (.k 6) (.keep 6)) := by decide
theorem test_word_div : decodeWord 0x03114E06 = .ok (.div (.k 1) (.q 2) (.keep 3) true) := by decide
theorem test_word_ext : decodeWord 0x1E000407 = .ok (.extI (.q 0) .push 0x10 7) := by decide
theorem test_word_li : decodeWord 0x1A000003 = .ok (.li .push 3) := by decide
theorem test_word_lcat : decodeWord 0x1C007F00 = .ok (.lcat (.q 0) .push 0x7F00) := by decide
theorem test_word_addi : decodeWord 0x078C0001 = .ok (.addi (.k 8) (.keep 8) 1) := by decide
theorem test_word_ori : decodeWord 0x0A180000 = .ok (.ori (.q 1) (.keep 0) 0) := by decide
theorem test_word_j : decodeWord 0x41FFFFF5 = .ok (.jmp 0x1fffff5) := by decide
theorem test_word_jtab : decodeWord 0x55190002 = .ok (.jtab (.k 1) (.k 2) 2) := by decide
theorem test_word_ldp : decodeWord 0x6709E002 = .ok (.ldp (.k 0) (.keep 3) .pred 2) := by decide
theorem test_word_stp : decodeWord 0x69008041 = .ok (.stp (.k 0) (.q 1) (.q 2) 1) := by decide
theorem test_word_stNt : decodeWord 0x65097801 = .ok (.stNt (.k 0) (.k 2) .d 1) := by decide
theorem test_word_flush : decodeWord 0x6B08A000 = .ok (.flush (.k 0) (.k 1)) := by decide
theorem test_word_amo : decodeWord 0x8100CC00 = .ok (.amo (.k 0) (.q 1) (.keep 3) false .add) := by decide
theorem test_word_amorCas : decodeWord 0x87195669 = .ok (.amorCas (.k 1) (.k 2) (.k 3) (.keep 5) false) := by decide
theorem test_word_ldacqSys : decodeWord 0x89196000 = .ok (.ldacqSys (.k 1) (.keep 2) .d 0) := by decide
theorem test_word_fenceSys : decodeWord 0x8C000000 = .ok .fenceSys := by decide
theorem test_word_give : decodeWord 0x8F600000 = .ok (.give (.k 6)) := by decide
theorem test_word_fwait : decodeWord 0x9129DC00 = .ok (.fwait (.k 2) (.k 3) (.keep 7)) := by decide
theorem test_word_tbwait : decodeWord 0x93000003 = .ok (.tbwait (.k 0) (.q 0)) := by decide
theorem test_word_deq : decodeWord 0xA7106400 = .ok (.deq (.k 1) (.keep 9)) := by decide
theorem test_word_try : decodeWord 0xB8000001 = .ok (.tryC (.q 0) 1) := by decide
theorem test_word_tryS : decodeWord 0xB8008001 = .ok (.tryS (.q 0) 1) := by decide
theorem test_word_fail : decodeWord 0xBA000000 = .ok .failC := by decide
theorem test_word_trail : decodeWord 0xBDA00003 = .ok (.trail (.k 10) .d) := by decide
theorem test_word_flt : decodeWord 0xC7600001 = .ok (.flt (.k 6) (.q 0) .push .sf) := by decide
theorem test_word_fcvt : decodeWord 0xC8004840 = .ok (.fcvt (.q 0) (.keep 2) .w .sf) := by decide
theorem test_word_vld : decodeWord 0xE0188042 = .ok (.vld 1 (.k 1) 0 .sector .w) := by decide
theorem test_word_vadd : decodeWord 0xE4308802 = .ok (.vadd 3 1 2 0 .w) := by decide
theorem test_word_vdot : decodeWord 0xEE50884C = .ok (.vdot 5 1 2 0 (.b8 3)) := by decide
theorem test_word_mand : decodeWord 0xF2308800 = .ok (.mand 3 1 2) := by decide
theorem test_word_crd : decodeWord 0xFE030002 = .ok (.crd 6 .push) := by decide
theorem test_word_brk : decodeWord 0xFE000004 = .ok .brk := by decide
theorem test_word_rmode : decodeWord 0xFF088206 = .ok (.rmode (.k 0) (.k 1) .cp) := by decide
theorem test_word_ctxsave : decodeWord 0xFF200007 = .ok (.ctxsave (.k 2)) := by decide
theorem test_word_pre : decodeWord 0xFF400009 = .ok (.pre (.k 4)) := by decide
theorem test_word_unassigned : decodeWord 0xFE000301 = .error .unassigned := by decide

/-! ## Ill-formed terms: one for each check of WellFormed -/

theorem test_illFormed_lz : wellFormed (.lz (.k 0) .push .d .pred 0) = false := by decide
theorem test_illFormed_st : wellFormed (.st (.k 0) (.k 0) .d .region 0) = false := by decide
theorem test_illFormed_fcvt : wellFormed (.fcvt (.k 0) .push .w .dz) = false := by decide
theorem test_illFormed_mfmt : wellFormed (.mfmt 0x7FFF) = false := by decide
theorem test_illFormed_vand : wellFormed (.vand 0 0 0 0 .sf) = false := by decide
theorem test_illFormed_vcmp : wellFormed (.vcmp 0 0 1 0 .ltz .w) = false := by decide
theorem test_illFormed_vext : wellFormed (.vext .push 0 8 .d) = false := by decide
theorem test_illFormed_vcvt : wellFormed (.vcvt 0 0 .w 0 .w) = false := by decide
theorem test_illFormed_vdq : wellFormed (.vdq 0 0 .sf 0 .sf) = false := by decide
theorem test_illFormed_vdot : wellFormed (.vdot 0 0 0 0 .df) = false := by decide
theorem test_illFormed_vcvtq : wellFormed (.vcvtq 0 0 .w 0 .w) = false := by decide
theorem test_illFormed_vcvtqH32 : wellFormed (.vcvtqH32 0 0 .sf .b) = false := by decide
theorem test_illFormed_vhad : wellFormed (.vhadH32 0 0 .sf) = false := by decide
theorem test_illFormed_crd : wellFormed (.crd 0x1D .push) = false := by decide
theorem test_illFormed_loc : wellFormed (.mcheck (2 ^ 18) 0 0 0) = false := by decide
theorem test_illFormed_core : wellFormed (.forwardedW (2 ^ 15) 0) = false := by decide
theorem test_illFormed_cluster : wellFormed (.accWriteback 4096 0) = false := by decide
theorem test_illFormed_die : wellFormed (.powerThrottle 64 true) = false := by decide
theorem test_illFormed_home : wellFormed (.snoop 16 0 0 true) = false := by decide
theorem test_illFormed_asid : wellFormed (.pageWalk 0 1024 0 true) = false := by decide
theorem test_illFormed_arb : wellFormed (.grantRequest 3152 0) = false := by decide

/-! ## Small states

`base` is the machine with one word placed (a nop): context 0 of core 0 at firmware level, whose home H0 holds the translation of one
page, R, W and X for every level, HC, at VA 2^55. -/

def base : State := State.reset.withFetchWord 32 0x02000000
/-- A change of the executing context. -/
def on (s : State) (f : Ctx → Ctx) : State := modMe s f
def inK (s : State) (n : Fin 16) (x : Word) : State := on s (fun c => { c with regs := { c.regs with k := c.regs.k.set n.val x } })
def inQ (s : State) (x : Word) : State := on s (fun c => { c with regs := push c.regs .push x })
def withCtl (s : State) (f : Ctl → Ctl) : State := on s (fun c => { c with ctl := f c.ctl })
def withChunk (s : State) (f : Chunk → Chunk) : State := on s (fun c => { c with chunk := f c.chunk })
def withIo (s : State) (f : IoSt → IoSt) : State := { s with io := f s.io }
def withWords (s : State) (key : Nat) (ws : List Word) : State := { s with mem := memPutAll s.mem key ((ws.map wordBytes).flatten) }
/-- The page of `base` with another entry: SW 0xD3D, CP 0xE3D, pinned 0xC7D, never cached 0xCFD. -/
def paged (s : State) (pte : Word) : State :=
  modHome s 0 (fun h => { h with tlb := [{ asid := 0, bits := 16, vpn := 0, pte := pte, entry := 2 ^ 20 }] })
/-- At user level, with room to save q at c.tsave. -/
def user (s : State) : State := withCtl s (fun c => { c with status := 0, tsave := 0x80000000000080, trapvec := 0x80000000000400 })
def sup (s : State) : State := withCtl s (fun c => { c with status := 1, tsave := 0x80000000000080, trapvec := 0x80000000000400 })
/-- A byte address of the page. -/
def at_ (n : Nat) : Word := BitVec.ofNat 64 (2 ^ 55 + n)

/-- A property of how an access ends, as an existence. -/
theorem acc_ok {a : Acc} {p : Target → State → Prop} [∀ t s, Decidable (p t s)]
    (h : (match a with | .ok t s => decide (p t s) | _ => false) = true) : ∃ t s, a = .ok t s ∧ p t s := by
  cases a <;> simp_all

theorem acc_core {a : Acc} (h : (match a with | .core _ _ _ => true | _ => false) = true) :
    ∃ c b t, a = .core c b t := by
  cases a <;> simp_all

theorem acc_home {a : Acc} (h : (match a with | .home _ _ _ _ => true | _ => false) = true) :
    ∃ c b t s, a = .home c b t s := by
  cases a <;> simp_all

theorem hw_ok {α : Type} {a : Hw α} {p : α → State → Prop} [∀ t s, Decidable (p t s)]
    (h : (match a with | .ok t s => decide (p t s) | _ => false) = true) : ∃ t s, a = .ok t s ∧ p t s := by
  cases a <;> simp_all

theorem hw_fault {α : Type} {a : Hw α} {p : Nat → State → Prop} [∀ t s, Decidable (p t s)]
    (h : (match a with | .fault c s => decide (p c s) | _ => false) = true) : ∃ c s, a = .fault c s ∧ p c s := by
  cases a <;> simp_all

theorem opt_some {α : Type} {a : Option α} {p : α → Prop} [∀ x, Decidable (p x)]
    (h : (match a with | some x => decide (p x) | none => false) = true) : ∃ x, a = some x ∧ p x := by
  cases a <;> simp_all

/-! ## Hypotheses that can be met: instructions -/

/-- A trap can be taken in `s` at once. -/
def trapFits (s : State) : Bool :=
  let d := dropHeld s s.cur
  chunkEmpty (me s) && !tsOn (me s).ctl
    && (match hwAddr d (asidOf (me s)) ((me s).ctl.tsave &&& ~~~127).toNat true false with | .ok pa _ => !poisoned d pa 128 | _ => false)
    && (match saveQ d s.cur with | .ok _ _ => true | _ => false)

theorem canTrap_of {s : State} (h : trapFits s = true) : ∃ t, CanTrap s t := by
  simp only [trapFits, Bool.and_eq_true, Bool.not_eq_true'] at h
  obtain ⟨⟨⟨h1, h2⟩, h3⟩, h4⟩ := h
  split at h3
  · rename_i pa u ha
    split at h4
    · rename_i t hs
      exact ⟨t, h1, h2, ⟨pa, u, ha, by simpa using h3⟩, hs⟩
    · simp at h4
  · simp at h3

theorem witness_CanTrap : (∃ t, CanTrap (user base) t) ∧ (∃ t, CanTrap (modMe (dropHeld (user base) 0) (fun c => nextChunk c 1)) t)
    ∧ youngTask (user base) 0 = false := ⟨canTrap_of (by decide +kernel), canTrap_of (by decide +kernel), by decide +kernel⟩

/-- A chunk that holds an instruction (RaisesTrap, ClosesFrom). -/
theorem witness_chunkNotEmpty : chunkEmpty (me (withChunk base (fun c => { c with live := true, count := 1 }))) = false := by decide +kernel

theorem witness_CastForms : ptrClass 0 0x0010000000000007 = 1 ∧ (7 : Nat) < 8 ∧ ¬ (7 : Nat) < 7 ∧ ptrClass 0 0xFF00000000000000 = 15
    ∧ 0x2FFFF < Config.scratchSize (dieOf 0) ∧ ¬ 0x30000 < Config.scratchSize (dieOf 0)
    ∧ ptrClass 0 0x0020000000030000 = 2 ∧ 0x1FFFFF < Config.clusterSize (dieOf 0) ∧ ptrClass 0 0x200000 ≠ 3 := by decide +kernel

theorem witness_ControlTransfer :
    Canonical (target base (1 : BitVec 15)) ∧ Canonical (target base (-1 : BitVec 25))
    ∧ (¬ Canonical (target (on base (fun c => { c with regs := { c.regs with pc := 0xFFFFFFFFFFFFFC } })) (1 : BitVec 15)))
    ∧ Canonical 0xFFFFFFFFFFFFFC ∧ (0xFFFFFFFFFFFFFC : Word).toNat % 4 = 0 ∧ (0xFFFFFFFFFFFFFD : Word).toNat % 4 ≠ 0 := by
  simp only [Canonical]; decide +kernel

theorem witness_JumpTable :
    (∃ t v, access base (loadReq (target base (2 : BitVec 15) + 4 * 0) 4) = .ok t v ∧ t.closes = false ∧ viewPoisoned base t 4 = false
      ∧ ((me base).regs.pc + BitVec.ofInt 64 (4 * (leNat (viewBytes base t 4) : Int).bmod (2 ^ 32))).toNat < 2 ^ 56)
    ∧ (∃ c b t, access base (loadReq (target base (2 : BitVec 15) + 4 * 0x3FDFFFFFFFFFFFFE) 4) = .core c b t)
    ∧ (∃ c b t v, access base (loadReq (target base (2 : BitVec 15) + 4 * 0x20000000000000) 4) = .home c b t v) :=
  ⟨acc_ok (by decide +kernel), acc_core (by decide +kernel), acc_home (by decide +kernel)⟩

theorem witness_FpArithmetic : vNan (unpack 0 fmtSf 0x7FC00000) = true ∧ vSnan (unpack 0 fmtSf 0x7F800001) = true
    ∧ magCode fmtSf.tb fmtSf.emin 0 0 false 1 0 < fmtSf.infCode ∧ fmtSf.infCode ≤ magCode fmtSf.tb fmtSf.emin 0 0 false 1 128 := by
  decide +kernel

theorem witness_FpExactResults : (valQ (.fin false 1 0) + valQ (.fin true 1 0) = 0) ∧ ¬ (1 = 0 ∧ 1 = 0 ∧ false = true) := by
  simp [valQ]

theorem witness_FpCompareAndClass : vNan (unpack 0 fmtDf 0x7FF8000000000000) = true ∧ vNan (unpack 0 fmtDf 0) = false
    ∧ vZero (unpack 0 fmtDf (2 ^ 63)) = true ∧ vNeg (unpack 0 fmtDf (2 ^ 63)) = true := by decide +kernel

theorem witness_ConvertScalar : srOn 0 = false ∧ (convert 0 1 .hf (.fin false 1 (-30))).1 = 1
    ∧ srOn 0x10 = true ∧ (convert 0x10 1 .hf (.fin false 1025 (-20))).1 = 1 ∧ (convert 0x10 1 .hf (.fin false 0x100001 (-20))).1 ≠ 1 := by
  decide +kernel

/-- A never-cached page. -/
def nc : State := paged base 0xCFD
/-- A page of system memory, and one whose read has been answered. -/
def sysPage : State := paged base 0x8000000000DFD
def sysRead : State := { sysPage with sysOps := [(0, { loc := 0, asid := 0, va := 2 ^ 55 + 8, addr := 8, n := 8, io := true, write := false, bytes := [], answer := some 5 })] }
/-- The second of two tasks of an ordered domain. -/
def young : State :=
  let s := on base (fun c => { c with unit := { c.unit with ordered := some (7, 2, 0) } })
  { s with fox := { s.fox with domains := [{ asid := 0, handle := 7, tasks := [1, 2].map (fun n => { stamp := n, slot := 0, msg := [], sent := true, begun := false }) }] } }
/-- The thread is copy B of a DUP group. -/
def copyB (s : State) : State := on s (fun c => { c with unit := { c.unit with dup := 2 } })

theorem witness_ScalarLoads :
    (∃ t v, access base (loadReq (at_ 0xFFF8) 8) = .ok t v ∧ viewPoisoned base t 8 = false ∧ t.closes = false)
    ∧ (∃ t v, access nc (loadReq (at_ 8) 8) = .ok t v ∧ viewPoisoned nc t 8 = false ∧ t.closes = true ∧ t.sys = false
      ∧ chunkEmpty (me nc) = true ∧ youngTask nc nc.cur = false ∧ sysOpsOf nc nc.cur false = [])
    ∧ (∃ t v, access sysRead (loadReq (at_ 8) 8) = .ok t v ∧ viewPoisoned v t 8 = false ∧ t.closes = true ∧ t.sys = true
      ∧ chunkEmpty (me sysRead) = true ∧ youngTask sysRead sysRead.cur = false ∧ sysOpsOf sysRead 0 false ≠ []
      ∧ ∀ o ∈ sysOpsOf sysRead 0 false, o.2.answer.isSome = true)
    ∧ (chunkEmpty (me young) = true ∧ youngTask young young.cur = true)
    ∧ (∃ t v, access (withChunk nc (fun c => { c with count := 1 })) (loadReq (at_ 8) 8) = .ok t v ∧ t.closes = true
      ∧ chunkEmpty (me (withChunk nc (fun c => { c with count := 1 }))) = false) :=
  ⟨acc_ok (by decide +kernel), acc_ok (by decide +kernel), acc_ok (by decide +kernel), by decide +kernel, acc_ok (by decide +kernel)⟩

theorem witness_ScalarStores :
    (∃ t v, access base (storeReq (at_ 8) 8) = .ok t v ∧ t.closes = false ∧ trailing (me base) = false
      ∧ (storeOne (storeFills v [(t, 8)] .pred) t (natBytes 8 1)).isSome)
    ∧ (∃ t v, access base (storeReq 0x0040000000000800 8) = .ok t v ∧ t.closes = false ∧ t.space = .engine
      ∧ effectsFull (me base) 1 = false ∧ (storeOne (storeFills v [(t, 8)] .pred) t (natBytes 8 1)).isSome)
    ∧ (∃ t v, access nc (storeReq (at_ 0xFFF8) 8) = .ok t v ∧ t.closes = true ∧ t.sys = false ∧ mayCommit v t 0 (targetSig t 8) = true
      ∧ heldElsewhere v t.key 8 = false ∧ servedBy v t = none)
    ∧ (∃ t v, access nc (storeReq (at_ 0x10) 16) = .ok t v ∧ t.closes = true ∧ t.sys = false ∧ mayCommit v t 0 (targetSig t 16) = true)
    ∧ (∃ t v, access sysPage (storeReq (at_ 0x10) 16) = .ok t v ∧ t.closes = true ∧ t.sys = true
      ∧ ∀ p ∈ sysPieces 16, sysBusy sysPage (t.key + p.1) = false)
    ∧ (me nc).unit.dup < 2 ∧ 2 ≤ (me (copyB nc)).unit.dup ∧ youngTask nc nc.cur = false :=
  ⟨acc_ok (by decide +kernel), acc_ok (by decide +kernel), acc_ok (by decide +kernel), acc_ok (by decide +kernel),
   acc_ok (by decide +kernel), by decide +kernel⟩

/-- Tile 0 is E. -/
def ownedTile : State := modCore base 0 (fun x => { x with tilesE := [0] })

theorem witness_AccessCheckOrder :
    ¬ Canonical 0x0100000000000000 ∧ ptrClass 0 0 = 0 ∧ ptrClass 0 0x0050000000000000 = 15 ∧ ptrClass 0 0x0020000200000000 = 0x12
    ∧ ptrClass 0 0x002000000002FFF9 = 2 ∧ Config.scratchSize (dieOf 0) ≤ 0x2FFF9 + 7 ∧ ¬ Config.scratchSize (dieOf 0) ≤ 0x2FFF8 + 7
    ∧ engineOk 0 0x400 8 true = false ∧ engineOk 0 0x800 8 true = true ∧ 0x2FFF9 % 8 ≠ 0
    ∧ isTileE ownedTile (coreOf ownedTile.cur) (0xFF8 / 4096) = true ∧ ptrClass 0 0x0020000000000FF8 = 2 := by
  simp only [Canonical]; decide +kernel

/-- A private window of 64 KiB at `b`, and watch register 3 of ASID 0 over the eight bytes at offset 8, for loads. -/
def windowed (b : Word) : State := withCtl base (fun c => { c with privbase := b, privlen := 65536 })
def watched : State := withIo base (fun io => { io with bar0 := tblSet (tblSet io.bar0 0x100070 (0x9000000000000000 + at_ 8)) 0x100078 3 })
/-- The leaf of the page of a state. -/
def leafOf (s : State) : Word := ((tlbFind s 0 (2 ^ 55)).map (fun l => l.pte)).getD 0
/-- The checks at the home: which one stops, by the words of AccessCheckOrder. -/
theorem witness_accessAtHome :
    (ptrClass 0 0x001000000000FFF8 = 1 ∧ (0xFFF8 : Nat) + 7 < (me (windowed (at_ 0))).ctl.privlen.toNat
      ∧ 2 ^ 56 ≤ privAlias (me (windowed 0xFFFFFFFFFF0008)).ctl 0xFFF8 ∧ isGlobal (privAlias (me (windowed 0)).ctl 0xFFF8) = false)
    ∧ watchHit watched 0 (at_ 8).toNat 8 (watchKinds 0) = some 3 ∧ watchHit watched 0 (at_ 16).toNat 8 (watchKinds 0) = none
    ∧ tlbFind base 0 (2 ^ 55 + 65536) = none ∧ (homeAt base 0).paused = false ∧ (me base).walkFault = none
    ∧ (me (on base (fun c => { c with walkFault := some (0, pageOf (2 ^ 55 + 65536), 7) }))).walkFault = some (0, pageOf (2 ^ 55 + 65536), 7)
    ∧ comboBad (leafOf (paged base 0xF3D)) 0 = true ∧ pteR (leafOf (paged base 0xC39)) = false ∧ pteUser (leafOf (paged base 0xC1D)) = false
    ∧ (leafOf (paged base 0x2000000C3D)).toNat / 2 ^ 37 % 2 ^ 4 ≠ 0 ∧ beyondHome base (2 ^ 37 - 8) = true ∧ beyondHome base 8 = false
    ∧ homeHolds base 0 8 0 (2 ^ 55 + 8) = false ∧ queuedBefore base 0 0 0 = false ∧ comboBad (leafOf nc) 8 = false
    ∧ cpOwnerOf (modHome (paged base 0xE3D) 0 (fun h => { h with cpRegion := tblSet h.cpRegion 0 9 })) 0 8 = some 9
    ∧ ptePlace (leafOf nc) = 3 ∧ pteMode (leafOf (paged base 0xD3D)) = 1 ∧ pteDirty (leafOf nc) = true := by
  decide +kernel

theorem witness_accessFromCore :
    (∃ c b t, access base (loadReq (eaOf base (.k 0) (0 : BitVec 11) 8) 8) = .core c b t) ∧ (∃ c b t, access base (storeReq (eaOf base (.k 0) (0 : BitVec 11) 8) 8) = .core c b t) :=
  ⟨acc_core (by decide +kernel), acc_core (by decide +kernel)⟩

theorem witness_RangeOperations : ptrClass 0 (at_ 1) = 8 ∧ (at_ 1).toNat + 0x10000 ≤ 2 ^ 56 ∧ effectsFull (me base) 1 = false
    ∧ watchHit base 0 (at_ 1).toNat 8 [60, 61] = none ∧ checkPages (checkPage base needR (at_ 0).toNat ((at_ 0).toNat + 7)) (at_ 0).toNat 1 = .ok
    ∧ checkPages (checkPage base needW (at_ 0).toNat ((at_ 0).toNat + 7)) (at_ 0).toNat 1 = .ok := by decide +kernel

/-- The request of a near atomic, and of a far one. -/
def nearReq : AccReq := { ea := at_ 8, n := 8, align := 8, kind := 2, need := needRW, wins := [1, 2, 3, 8], pages := [.hc, .cp, .pinned],
                          closes := false, sup := false }
def farReq : AccReq := { nearReq with wins := [1, 8], pages := [.hc, .pinned] }

theorem witness_NearAtomics : ∃ t v, access base nearReq = .ok t v ∧ t.closes = false ∧ viewPoisoned base t 8 = false
    ∧ leNat (viewBytes base t 8) = 0 ∧ (storeOne (storeFills (loadEffects v [(t, 8)] .pred) [(t, 8)] .pred) t (natBytes 8 (amoResult .add 64 0 1))).isSome :=
  acc_ok (by decide +kernel)

theorem witness_fresh : Fresh (me base) ∧ MemOk base ∧ hostTouched base 8 8 = [] ∧ youngTask base base.cur = false := by
  simp only [Fresh, MemOk]; decide +kernel

/-- A page pinned in the L2 slices of die 1. -/
def farPinned : State := modHome (paged base 0xC7D) 0 (fun h => { h with pinDie := [(0, 1, 0, pageOf (2 ^ 55))] })

theorem witness_FarAtomics :
    (∃ t v, access base farReq = .ok t v ∧ t.closes = false ∧ effectsFull (me base) 1 = false ∧ viewPoisoned v t 8 = false
      ∧ heldElsewhere v t.key 8 = false ∧ ∀ a ∈ targetArbs v t, refuses v a (some v.cur) (sigRange t.asid t.va 8) (sigRange t.asid t.va 8) = false
        ∧ ringRefuses v (asidOf (me v)) a (replayOn (me v)) = false)
    ∧ (me base).unit.dup < 2 ∧ replayOn (me base) = false
    ∧ (∃ t v, access farPinned farReq = .ok t v ∧ t.closes = true ∧ t.space = .pinned ∧ viewPoisoned v t 8 = false
      ∧ ∀ a ∈ targetArbs v t, refuses v a (some v.cur) (sigRange t.asid t.va 8) (sigRange t.asid t.va 8) = false
        ∧ ringRefuses v (asidOf (me v)) a (replayOn (me v)) = false) :=
  ⟨acc_ok (by decide +kernel), by decide +kernel, by decide +kernel, acc_ok (by decide +kernel)⟩

theorem witness_SystemScopeAndFences :
    (∃ t v, access base (loadReq (at_ 8) 8) = .ok t v ∧ t.sys = false ∧ viewPoisoned v t 8 = false)
    ∧ (∃ t v, access sysPage (loadReq (at_ 8) 8) = .ok t v ∧ t.sys = true ∧ sysOpsOf sysPage 0 false = [])
    ∧ (∃ t v, access sysRead (loadReq (at_ 8) 8) = .ok t v ∧ t.sys = true ∧ sysOpsOf sysRead 0 false = sysRead.sysOps)
    ∧ (∃ t v, access base (storeReq (at_ 8) 8) = .ok t v ∧ t.sys = false ∧ t.space ≠ .engine ∧ mayCommit v t 0 (targetSig t 8) = true)
    ∧ (∃ t v, access (paged base 0xD3D) (storeReq (at_ 8) 8) = .ok t v ∧ t.closes = false ∧ t.space = .sw
      ∧ mayCommit v t 0 (targetSig t 8) = true)
    ∧ (∃ t v, access sysPage (storeReq (at_ 8) 8) = .ok t v ∧ t.sys = true ∧ sysBusy sysPage t.key = false)
    ∧ (∃ t v, access base (storeReq 0x0040000000000800 8) = .ok t v ∧ t.sys = false ∧ t.space = .engine ∧ mayCommit v t 0 (targetSig t 8) = true)
    ∧ (∃ t v, access (copyB base) (storeReq (at_ 8) 8) = .ok t v ∧ t.sys = false ∧ 2 ≤ (me (copyB base)).unit.dup
      ∧ mayCommit v t 0 (targetSig t 8) = true)
    ∧ (me (on base (fun c => { c with sysOut := [3] }))).sysOut ≠ [] ∧ (me base).sysOut = [] ∧ (me base).unit.dup = 0
    ∧ base.sysOps.any (fun p => p.2.loc == base.cur && p.2.io) = false ∧ sysRead.sysOps.any (fun p => p.2.loc == sysRead.cur && p.2.io) = true := by
  refine ⟨acc_ok ?_, acc_ok ?_, acc_ok ?_, acc_ok ?_, acc_ok ?_, acc_ok ?_, acc_ok ?_, acc_ok ?_, ?_⟩ <;> decide +kernel

theorem witness_WaitsAndTiles :
    (∃ t v, access base { loadReq (at_ 8) 8 with wins := [1, 8], pages := [.hc, .pinned], closes := false } = .ok t v
      ∧ viewPoisoned base t 8 = false ∧ (me base).woken = false ∧ replayOn (me base) = false ∧ leNat (viewBytes base t 8) = 0
      ∧ ∀ a ∈ targetArbs v t, refuses v a (some v.cur) (sigRange t.asid t.va 8) 0 = false
        ∧ ringRefuses v (asidOf (me v)) a (replayOn (me v)) = false)
    ∧ (me (on base (fun c => { c with woken := true }))).woken = true
    ∧ ptrClass 0 0x0020000000001000 = 2 ∧ isTileE base 0 1 = false ∧ isTileE ownedTile 0 0 = true ∧ ptrClass 0 0x002000000002F000 = 2
    ∧ ptrClass 0 0x0020000000030000 = 2 ∧ ptrClass 0 0x0020000000001001 = 2 :=
  ⟨acc_ok (by decide +kernel), by decide +kernel⟩

/-- FIFO 31 of cluster 0: 4 slots of 1024 bytes at 0, threads on both sides, with two slots filled. -/
def fifos : State := withWords base (fifoKey 0 31) [0xE000040080000000, 2, 0, 0]

theorem witness_OperandFifos : (myFifo fifos 31).valid = true ∧ (myFifo fifos 31).count = 4 ∧ (myFifo fifos 31).consThreads = true
    ∧ (myFifo fifos 31).prodThreads = true ∧ ((myFifo fifos 31).wpos - (myFifo fifos 31).rpos).toNat = 2
    ∧ (myFifo base 31).valid = false := by decide +kernel

theorem witness_TransactionBarriers : ptrClass 0 0x002000000002FFF0 = 2 ∧ 0x2FFF0 + 16 ≤ Config.scratchSize (dieOf 0)
    ∧ ptrClass 0 0x00300000001FFFF0 = 3 ∧ 0x1FFFF0 + 16 ≤ Config.clusterSize (dieOf 0)
    ∧ isTileE ownedTile 0 (0x10 / 4096) = true ∧ isTileE base 0 (0x2FFF0 / 4096) = false
    ∧ leNat (viewBytes base (barTarget base (keyScratch 0 0x2FFF0)) 8) % 16 = 0 := by decide +kernel

/-- Headers in q0: class S with a handler, the same with word 0 [37] set, and one with a reserved bit. -/
def msgS : State := inQ base 0x4000000001
theorem witness_SendAndSpawn : HeaderFine (qGet (me msgS).regs 0) false (isUser (me msgS)) ∧ (qGet (me msgS).regs 0).toNat % 2 ^ 12 ≠ 0
    ∧ ¬ HeaderFine 0x4000001001 false false ∧ ¬ Canonical 0x0100000000000000 ∧ ptrClass 0 0x0020000200000000 = 0x12
    ∧ (0x0020000200000000 : Word).toNat % 2 ^ 18 = 0 ∧ ptrClass 0 0x0020FFFE00000000 = 2 ∧ effectsFull (me msgS) 1 = false := by
  simp only [HeaderFine, Canonical]; decide +kernel

/-- A probe's answer: a plain, an ordered, a crew-route and a failed one. -/
def answered (s : State) (w1 : Word) (bad : Option (Nat × Word)) : State :=
  on s (fun c => { c with probe := some { handle := 5, bad := bad, desc := 2 ^ 55 + 0x400, word0 := at_ 0x800, word1 := w1 } })
theorem witness_QueueForms : HeaderFine (qGet (me msgS).regs 0) true false ∧ (me msgS).probe = none
    ∧ (0x10004 : Nat) / 2 ^ 16 % 4 = 1 ∧ (0x10004 : Nat) / 2 ^ 18 % 8 = 0 ∧ (0x800004 : Nat) / 2 ^ 16 % 4 = 0 ∧ (0x800004 : Nat) / 2 ^ 23 % 2 = 1
    ∧ (0xD0004 : Nat) / 2 ^ 16 % 4 = 1 ∧ (0xD0004 : Nat) / 2 ^ 18 % 8 = 3 ∧ (0x20004 : Nat) / 2 ^ 16 % 4 = 2
    ∧ ((me (answered msgS 0x10004 none)).probe.map (fun p => (p.handle, p.bad, p.word1))) = some (5, none, 0x10004)
    ∧ ((me (answered msgS 0x10004 (some (1, 0)))).probe.map (fun p => p.bad)) = some (some (1, 0)) := by
  simp only [HeaderFine]; decide +kernel

/-- The accesses of an instruction, resolved in order. -/
def reach : State → List AccReq → Option (List Target × State)
  | s, [] => some ([], s)
  | s, q :: qs => match access s q with
    | .ok t s1 => if t.closes then none else match reach s1 qs with
      | some (ts, v) => some (t :: ts, v)
      | none => none
    | _ => none

theorem reach_allReach : ∀ (qs : List AccReq) (s v : State) (ts : List Target), reach s qs = some (ts, v) → AllReach s qs ts v
  | [], s, v, ts, h => by simp_all [reach, AllReach]
  | q :: qs, s, v, ts, h => by
    unfold reach at h
    split at h
    · rename_i t s1 ha
      split at h
      · simp at h
      · split at h
        · rename_i ts' v' hr
          simp at h
          obtain ⟨rfl, rfl⟩ := h
          exact ⟨t, s1, ts', ha, by simp_all, rfl, reach_allReach qs s1 v' ts' hr⟩
        · simp at h
    · simp at h

/-- The words that one instruction reads, each loaded before the next is checked. -/
def readWords : State → List Word → Option (List Word × State)
  | s, [] => some ([], s)
  | s, va :: vas => match access s (loadReq va 8) with
    | .ok t w => if t.closes || viewPoisoned w t 8 then none
      else (readWords (loadEffects w [(t, 8)] .pred) vas).map (fun p => (BitVec.ofNat 64 (leNat (viewBytes w t 8)) :: p.1, p.2))
    | _ => none

theorem readWords_reads : ∀ {vas : List Word} {s v : State} {xs : List Word}, readWords s vas = some (xs, v) → ReadsWords s vas xs v
  | [], s, v, xs, h => by simp_all [readWords, ReadsWords]
  | va :: vas, s, v, xs, h => by
    unfold readWords at h
    split at h
    · rename_i t w ha
      split at h
      · simp at h
      · rename_i hc
        obtain ⟨⟨ys, u⟩, hr, he⟩ := Option.map_eq_some_iff.mp h
        simp only [Prod.mk.injEq] at he
        obtain ⟨rfl, rfl⟩ := he
        simp only [Bool.or_eq_true, not_or, Bool.not_eq_true] at hc
        exact ⟨t, w, ys, ha, hc.1, hc.2, rfl, readWords_reads hr⟩
    · simp at h

/-- The stores that one instruction makes, checked; and with room for them. -/
def reachWords (s : State) (ws : List (Word × Word)) : Option (List (Target × List Byte) × State) :=
  match reach s (ws.map (fun p => storeReq p.1 8)) with
  | none => none
  | some (ts, v) => if ∀ t ∈ ts, t.space ≠ .engine then some (List.zipWith (fun t (p : Word × Word) => (t, natBytes 8 p.2.toNat)) ts ws, v) else none
def room (s : State) (sp : Span) (items : List (Target × List Byte)) : Option State :=
  storeMany (storeFills s (items.map (fun i => (i.1, i.2.length))) sp) items
def writeWords (s : State) (ws : List (Word × Word)) : Option (List (Target × List Byte) × State) :=
  match reachWords s ws with
  | none => none
  | some (items, w) => (room w .pred items).map (fun v => (items, v))

theorem reachWords_reaches {s v : State} {ws : List (Word × Word)} {items : List (Target × List Byte)}
    (h : reachWords s ws = some (items, v)) : ReachesWords s ws items v := by
  unfold reachWords at h
  split at h
  · simp at h
  · rename_i ts w hr
    split at h
    · rename_i hp
      simp only [Option.some.injEq, Prod.mk.injEq] at h
      obtain ⟨rfl, rfl⟩ := h
      exact ⟨ts, reach_allReach _ _ _ _ hr, hp, rfl⟩
    · simp at h

theorem writeWords_writes {s v : State} {ws : List (Word × Word)} {items : List (Target × List Byte)}
    (h : writeWords s ws = some (items, v)) : WritesWords s ws items v := by
  unfold writeWords at h
  split at h
  · simp at h
  · rename_i is w hr
    obtain ⟨a, ha, he⟩ := Option.map_eq_some_iff.mp h
    simp only [Prod.mk.injEq] at he
    obtain ⟨rfl, rfl⟩ := he
    exact ⟨w, reachWords_reaches hr, ha⟩

theorem reads_of {s : State} {vas : List Word} {p : List Word → State → Prop} [∀ xs v, Decidable (p xs v)]
    (h : (match readWords s vas with | some (xs, v) => decide (p xs v) | none => false) = true) :
    ∃ xs v, ReadsWords s vas xs v ∧ p xs v := by
  split at h
  · rename_i xs v hr
    exact ⟨xs, v, readWords_reads hr, by simpa using h⟩
  · simp at h

theorem writes_of {s : State} {ws : List (Word × Word)} (h : (writeWords s ws).isSome = true) : ∃ items v, WritesWords s ws items v := by
  obtain ⟨⟨items, v⟩, hw⟩ := Option.isSome_iff_exists.mp h
  exact ⟨items, v, writeWords_writes hw⟩

/-- deq of a queue of 16 slots whose read index is 0 (the slot of index 0 has the stamp 0), and 1. -/
def deqOf (n : Nat) : State := answered (withWords base 0x418 [BitVec.ofNat 64 n]) 0x10004 none
def deqReq (va n : Nat) : AccReq :=
  { ea := BitVec.ofNat 64 va, n := n, align := 8, kind := 0, need := needR, wins := [8], pages := [.hc, .pinned], closes := false, sup := true }
/-- Both reads of deq are made, and the stores have their right and room. -/
def deqMeets (s : State) (stamp : Bool) : Bool :=
  match access s (deqReq (2 ^ 55 + 0x418) 8) with
  | .ok td v1 =>
    let n := leNat (viewBytes v1 td 8)
    let w1 := loadEffects v1 [(td, 8)] .pred
    (match access w1 (deqReq (2 ^ 55 + 0x800 + 64 * (n % 16)) 64) with
     | .ok ts v2 => !td.closes && !viewPoisoned v1 td 8 && !ts.closes && !viewPoisoned v2 ts 64
         && ((wordAt (wordsOf (viewBytes v2 ts 64)) 0).toNat / 2 ^ 48 == n % 2 ^ 16) == stamp
         && (match reach (loadEffects v2 [(ts, 64)] .pred) [{ deqReq (2 ^ 55 + 0x800 + 64 * (n % 16)) 8 with kind := 1, need := needW },
               { deqReq (2 ^ 55 + 0x418) 8 with kind := 1, need := needW }] with
             | some ([tw, iw], v3) => (room v3 .pred [(tw, natBytes 8 0), (iw, natBytes 8 (n + 1))]).isSome
             | _ => false)
     | _ => false)
  | _ => false
theorem witness_TakeFromQueue : deqMeets (deqOf 0) true = true ∧ deqMeets (deqOf 1) false = true
    ∧ ((deqOf 0 |> me).probe.map (fun p => (p.desc, p.word0.toNat / 64 % 2 ^ 50 * 64, p.word1.toNat / 2 ^ 16 % 4, p.word1.toNat / 2 ^ 18 % 8)))
      = some (2 ^ 55 + 0x400, 2 ^ 55 + 0x800, 1, 0) := by decide +kernel

/-- A request at a boundary of its own size. -/
def recordReq (va n kind : Nat) (need : Need) : AccReq :=
  { ea := at_ va, n := n, align := n, kind := kind, need := need, wins := [8], pages := [.hc, .pinned], closes := false, sup := false }

/-- A launch descriptor at offset 0x100: one thread, one group. -/
def launching : State := withWords base 0x100 [0x1000000000, 0x100010001]
theorem witness_JoinRetireLaunch :
    (∃ t v, access base (recordReq 0x40 64 1 needW) = .ok t v ∧ t.closes = false
      ∧ (storeOne (storeFills v [(t, 64)] .pred) t (natBytes 64 1)).isSome
      ∧ (let at38 : Target := { t with key := t.key + 0x38, va := t.va + 0x38 }
         (storeOne (storeFills v [(at38, 8)] .pred) at38 (natBytes 8 2)).isSome))
    ∧ (∃ t v, access base (recordReq 0x40 64 2 needRW) = .ok t v ∧ t.sys = false)
    ∧ (∃ t v, access launching (recordReq 0x100 128 0 needR) = .ok t v ∧ poisoned v t.key 128 = false
      ∧ launchOk (wordsOf (memBytes launching.mem t.key 128)) = true)
    ∧ (∃ t v, access launching (recordReq 0x180 128 0 needR) = .ok t v ∧ poisoned v t.key 128 = false
      ∧ launchOk (wordsOf (memBytes launching.mem t.key 128)) = false) :=
  ⟨acc_ok (by decide +kernel), acc_ok (by decide +kernel), acc_ok (by decide +kernel), acc_ok (by decide +kernel)⟩

/-- An ASID entry that is valid, with its queue table at offset 0x8000. -/
def tabled (s : State) : State := withIo s (fun io => { io with bar0 := tblSet (tblSet io.bar0 0x100000 (2 ^ 63)) 0x100008 (at_ 0x8000) })
def inGang (kind : Nat) (isOpen : Bool) : State :=
  on base (fun c => { c with unit := { c.unit with gangKind := kind, barOpen := isOpen, barbOpen := isOpen } })
theorem witness_YieldReadBarQmap :
    (∃ pa v, hwAddr (tabled base) 0 (tableVa (tabled base) 0 8 4095) true false = .ok pa v ∧ me v = me (tabled base) ∧ v.cur = 0)
    ∧ youngTask base 0 = false ∧ youngTask young 0 = true
    ∧ ptrClass 0 0x002000020002FFF8 = 0x12 ∧ placeExists base (1 / 512) (1 / 8 % 64) (1 % 8) = true ∧ 0x2FFF8 + 8 ≤ Config.scratchSize (1 / 512)
    ∧ isTileE base 1 (0x2FFF8 / 4096) = false ∧ isTileE (modCore base 1 (fun x => { x with tilesE := [47] })) 1 (0x2FFF8 / 4096) = true
    ∧ refuses base 80 (some 0) (sigRange 0 0x002000020002FFF8 8) 0 = false ∧ (me base).unit.gangKind = 0
    ∧ (me (inGang 2 true)).unit.barbOpen = true ∧ (me (inGang 1 false)).unit.barOpen = false ∧ isUser (me (user base)) = true
    ∧ bit (asidWord (tabled base) 0 0) 63 = true ∧ tableVa (tabled base) 0 8 4095 = 2 ^ 55 + 0xFFF8 :=
  ⟨hw_ok (by decide +kernel), by decide +kernel⟩

/-- One choice record at offset 0x1000, with two alternatives left and stolen from, a spoor at 0x3000 with one entry. -/
def choosing (rest : Nat) (spoor : Nat) : State :=
  let s := withWords base 0x1000 [at_ 0x40, BitVec.ofNat 64 (0xC000000000000000 + rest), at_ 0x3010]
  withCtl s (fun c => { c with choicebase := at_ 0x1000, choice := at_ 0x1120, choicelim := at_ 0x1240, spoorbase := at_ 0x3000,
                               spoor := at_ spoor, spoorlim := at_ 0x3020 })

/-- The state after reading words (and the words), then what follows. -/
def thenReads (s : State) (vas : List Word) (k : List Word → State → Bool) : Bool :=
  match readWords s vas with
  | some (xs, v) => k xs v
  | none => false
def thenWrites (s : State) (ws : List (Word × Word)) : Bool := (writeWords s ws).isSome

/-- The records that a cut reads, and the tokens that it marks. -/
def cutReads (base : Word) (d : Nat) : Nat → State → Option (List (Target × List Byte) × State)
  | 0, s => some ([], s)
  | n + 1, s =>
    let at_ := base + BitVec.ofNat 64 (288 * (d + n))
    match readWords s [at_ + 0x08] with
    | some ([h], v1) =>
      if h.toNat / 2 ^ 62 % 2 = 0 then cutReads base d n v1
      else (match readWords v1 [at_ + 0x18] with
        | some ([tok], v2) => (match reachWords v2 [(at_ + 0x18, tok ||| 0x8000000000000000)] with
          | some (one, v3) => (cutReads base d n v3).map (fun p => (one ++ p.1, p.2))
          | none => none)
        | _ => none)
    | _ => none

theorem cutReads_cut {base : Word} {d : Nat} : ∀ {n : Nat} {s v : State} {items : List (Target × List Byte)},
    cutReads base d n s = some (items, v) → CutReads base d n s items v
  | 0, s, v, items, h => by simp_all [cutReads, CutReads]
  | n + 1, s, v, items, h => by
    simp only [cutReads] at h
    split at h
    · rename_i w v1 hr
      split at h
      · rename_i hb
        exact ⟨w, v1, readWords_reads hr, .inl ⟨hb, cutReads_cut h⟩⟩
      · rename_i hb
        split at h
        · rename_i tok v2 ht
          split at h
          · rename_i one v3 ho
            obtain ⟨⟨rest, u⟩, hu, he⟩ := Option.map_eq_some_iff.mp h
            simp only [Prod.mk.injEq] at he
            obtain ⟨rfl, rfl⟩ := he
            exact ⟨w, v1, readWords_reads hr, .inr ⟨by omega, tok, v2, one, v3, rest, readWords_reads ht, reachWords_reaches ho, rfl, cutReads_cut hu⟩⟩
          · simp at h
        · simp at h
    · simp at h

theorem cut_of {s : State} (h : ((cutReads (at_ 0x1000) 0 1 s).any (fun x => (room x.2 .pred x.1).isSome)) = true) :
    ∃ items v w, CutReads (at_ 0x1000) 0 1 s items v ∧ Room v .pred items w := by
  obtain ⟨⟨items, v⟩, hc, hr⟩ := (Option.any_eq_true _ _).mp h
  obtain ⟨w, hw⟩ := Option.isSome_iff_exists.mp hr
  exact ⟨items, v, w, cutReads_cut hc, hw⟩

theorem witness_MarkCutTrail :
    (∃ items v w, CutReads (at_ 0x1000) 0 1 (choosing 2 0x3010) items v ∧ Room v .pred items w)
    ∧ (∃ items v w, CutReads (at_ 0x1000) 0 1 (withWords (choosing 2 0x3010) 0x1008 [2]) items v ∧ Room v .pred items w)
    ∧ (at_ 0x1120 - at_ 0x1000).toNat / 288 = 0 + 1 ∧ (me base).ctl.choice = (me base).ctl.choicebase :=
  ⟨cut_of (by decide +kernel), cut_of (by decide +kernel), by decide +kernel⟩

/-- The spoor entries of the trails `es`. -/
def trailRun : State → List Trail → Option (List (Target × List Byte) × State)
  | s, [] => some ([], s)
  | s, e :: es =>
    let old : Target := { e.target with key := e.target.key - e.target.va % 8, va := e.target.va - e.target.va % 8 }
    match access s (storeReq (me s).ctl.spoor 16) with
    | .ok t w =>
      if (me s).ctl.spoorlim.toNat < (me s).ctl.spoor.toNat + 16 ∨ t.closes = true ∨ t.space = .engine ∨ viewPoisoned w old 8 = true then none
      else (trailRun (loadEffects (modMe w (fun k => { k with ctl := { k.ctl with spoor := k.ctl.spoor + 16 } })) [(old, 8)] .pred) es).map
        (fun p => ((t, natBytes 8 (e.ea.toNat % 2 ^ 56 / 8 * 8 + e.code) ++ viewBytes w old 8) :: p.1, p.2))
    | _ => none

theorem trailRun_trails : ∀ {es : List Trail} {s v : State} {items : List (Target × List Byte)},
    trailRun s es = some (items, v) → Trails s es items v
  | [], s, v, items, h => by simp_all [trailRun, Trails]
  | e :: es, s, v, items, h => by
    simp only [trailRun] at h
    split at h
    · rename_i t w ha
      split at h
      · simp at h
      · rename_i hc
        obtain ⟨⟨rest, u⟩, hu, he⟩ := Option.map_eq_some_iff.mp h
        simp only [Prod.mk.injEq] at he
        obtain ⟨rfl, rfl⟩ := he
        simp only [not_or, Bool.not_eq_true, Nat.not_lt] at hc
        exact ⟨t, w, rest, hc.1, ha, hc.2.1, hc.2.2.1, hc.2.2.2, rfl, trailRun_trails hu⟩
    · simp at h

/-- The access `q`, then the trails `es` of its target, and room for them and `items`. -/
def trailsFit (s : State) (q : AccReq) (es : Target → List Trail) (items : Target → List (Target × List Byte)) : Bool :=
  match access s q with
  | .ok t v => !t.closes && decide (t.space ≠ .engine) && (match trailRun v (es t) with
    | some (extra, v2) => (room v2 .pred (extra ++ items t)).isSome
    | none => false)
  | _ => false

theorem trailsFit_fits {s : State} {q : AccReq} {es : Target → List Trail} {items : Target → List (Target × List Byte)}
    (h : trailsFit s q es items = true) : ∃ t v extra v2 w, access s q = .ok t v ∧ t.closes = false ∧ t.space ≠ .engine
      ∧ Trails v (es t) extra v2 ∧ Room v2 .pred (extra ++ items t) w := by
  unfold trailsFit at h
  split at h
  · rename_i t v ha
    simp only [Bool.and_eq_true, Bool.not_eq_true', decide_eq_true_eq] at h
    obtain ⟨⟨hc, hs⟩, h⟩ := h
    split at h
    · rename_i extra v2 hx
      obtain ⟨w, hw⟩ := Option.isSome_iff_exists.mp h
      exact ⟨t, v, extra, v2, w, ha, hc, hs, trailRun_trails hx, hw⟩
    · simp at h
  · simp at h

/-- A trailed st, a trailed stp, with an entry for each of its words, and a trail, at offset 0x40. -/
theorem witness_TrailedStore : trailing (me (choosing 2 0x3000)) = true
    ∧ (∃ t v extra v2 w, access (choosing 2 0x3000) (storeReq (at_ 0x40) 8) = .ok t v ∧ t.closes = false ∧ t.space ≠ .engine
      ∧ Trails v [⟨at_ 0x40, t, 3⟩] extra v2 ∧ Room v2 .pred (extra ++ [(t, natBytes 8 1)]) w)
    ∧ (∃ t v extra v2 w, access (choosing 2 0x3000) (storeReq (at_ 0x40) 16) = .ok t v ∧ t.closes = false ∧ t.space ≠ .engine
      ∧ Trails v [⟨at_ 0x40, t, 3⟩, ⟨at_ 0x40 + 8, { t with key := t.key + 8, va := t.va + 8 }, 3⟩] extra v2
      ∧ Room v2 .pred (extra ++ [(t, natBytes 16 1)]) w)
    ∧ (∃ t v extra v2 w, access (choosing 2 0x3010) (loadReq (at_ 0x40) 8) = .ok t v ∧ t.closes = false ∧ t.space ≠ .engine
      ∧ Trails v [⟨at_ 0x40, t, 3⟩] extra v2 ∧ Room v2 .pred (extra ++ []) w)
    ∧ (me (choosing 2 0x3020)).ctl.spoorlim.toNat < (at_ 0x3020).toNat + 16
    ∧ (∃ t v, access (choosing 2 0x3020) (storeReq (at_ 0x40) 8) = .ok t v ∧ t.closes = false ∧ t.space ≠ .engine) :=
  ⟨by decide +kernel, trailsFit_fits (es := fun t => [⟨at_ 0x40, t, 3⟩]) (items := fun t => [(t, natBytes 8 1)]) (by decide +kernel),
   trailsFit_fits (es := fun t => [⟨at_ 0x40, t, 3⟩, ⟨at_ 0x40 + 8, { t with key := t.key + 8, va := t.va + 8 }, 3⟩])
     (items := fun t => [(t, natBytes 16 1)]) (by decide +kernel),
   trailsFit_fits (es := fun t => [⟨at_ 0x40, t, 3⟩]) (items := fun _ => []) (by decide +kernel),
   by decide +kernel, acc_ok (by decide +kernel)⟩

theorem witness_ChoicePoints :
    (let s := choosing 2 0x3010
     let top := (me s).ctl.choice
     top.toNat + 288 ≤ (me s).ctl.choicelim.toNat ∧ ∃ xs v, ReadsWords s [top + 0x18] xs v
      ∧ thenWrites v ([(top, 0), (top + 8, 0), (top + 0x10, 0), (top + 0x18, 1)] ++ (recRegs top).map (fun va => (va, 0))) = true)
    ∧ (∃ xs v, ReadsWords (choosing 2 0x3020) [at_ 0x1010] xs v ∧ (xs.headD 0).toNat < (at_ 0x3020).toNat
      ∧ thenReads v [at_ 0x3010, at_ 0x3018] (fun _ w => thenWrites w [(at_ 0x40, 0)]) = true)
    ∧ (∃ xs v, ReadsWords (choosing 2 0x3010) [at_ 0x1010] xs v ∧ (at_ 0x3010).toNat ≤ (xs.headD 0).toNat
      ∧ thenReads v (recRegs (at_ 0x1000)) (fun _ w => thenReads w [at_ 0x1008] (fun hs z =>
          decide (0 < (hs.headD 0).toNat % 2 ^ 24) && (match reachWords z [(at_ 0x1008, 0)] with
            | some (items, y) => thenReads y [at_ 0x1000] (fun _ x => (room x .pred items).isSome)
            | none => false))) = true)
    ∧ (∃ xs v, ReadsWords (choosing 0 0x3010) [at_ 0x1010] xs v ∧ (at_ 0x3010).toNat ≤ (xs.headD 0).toNat
      ∧ thenReads v (recRegs (at_ 0x1000)) (fun _ w => thenReads w [at_ 0x1008] (fun hs _ => (hs.headD 0).toNat % 2 ^ 24 == 0)) = true)
    ∧ (me (withCtl (choosing 2 0x3010) (fun c => { c with choice := at_ 0x1121 }))).ctl.choicelim.toNat < (at_ 0x1121).toNat + 288
    ∧ (me (withCtl base (fun c => { c with failvec := at_ 0 }))).ctl.failvec ≠ 0 ∧ (me base).ctl.failvec = 0 :=
  ⟨⟨by decide +kernel, reads_of (by decide +kernel)⟩, reads_of (by decide +kernel), reads_of (by decide +kernel),
   reads_of (by decide +kernel), by decide +kernel⟩

/-- The accesses of a vector form of eight double words. -/
def vecReqs (kind : Nat) (need : Need) (al : Nat) : List AccReq := (List.range 8).map (fun i =>
  { ea := at_ (0x100 + 8 * i), n := 8, align := al, kind := kind, need := need, wins := [1, 2, 3, 8], pages := anyPage, closes := true, sup := false })
/-- The first of two accesses is made, and the second is outside every window. -/
def vecFault (kind : Nat) : Bool :=
  let q : Word → AccReq := fun ea => { ea := ea, n := 8, align := 1, kind := kind, need := if kind = 0 then needR else needW, wins := [1, 2, 3, 8],
                                       pages := anyPage, closes := true, sup := false }
  match reach base [q (at_ 0x100)] with
  | some (_, v) => (match access v (q 0) with | .core cause _ _ => cause == cWindow | _ => false)
  | none => false
theorem witness_VectorMemory :
    (∃ x, reach base (vecReqs 0 needR 1) = some x ∧ ∀ t ∈ x.1, viewPoisoned x.2 t 8 = false)
    ∧ (∃ x, reach base (vecReqs 1 needW 8) = some x ∧ trailing (me base) = false
      ∧ (room x.2 .pred (x.1.map (fun t => (t, natBytes 8 1)))).isSome = true)
    ∧ (∃ x, reach (choosing 2 0x3000) ((vecReqs 1 needW 8).take 2) = some x ∧ trailing (me (choosing 2 0x3000)) = true
      ∧ ((trailRun x.2 ((x.1.zipIdx).map (fun e => ⟨at_ (0x100 + 8 * e.2), e.1, 3⟩))).any (fun y =>
          (room y.2 .pred (y.1 ++ x.1.map (fun t => (t, natBytes 8 1)))).isSome)) = true)
    ∧ vecFault 0 = true ∧ vecFault 1 = true ∧ (at_ 8).toNat % 64 ≠ 0 ∧ ptrClass base.cur (at_ 8) = 8 :=
  ⟨opt_some (by decide +kernel), opt_some (by decide +kernel), opt_some (by decide +kernel), by decide +kernel⟩

theorem witness_vectorTypes : (eFmt (aE .sf)).isSome = true ∧ eFmt (aE .w) = none ∧ dotShape .df = none ∧ dotShape .b ≠ none
    ∧ 512 / eBits (aE .d) ≤ (8 : BitVec 6).toNat ∧ ¬ 512 / eBits (aE .d) ≤ (7 : BitVec 6).toNat
    ∧ eMx .mx4 = true ∧ eMx .sf = false ∧ quantOk .b .w = false ∧ quantOk .b .sf = true ∧ quantOk .mx4 .hf = true ∧ eMx .b = false
    ∧ eBits .hf = 16 ∧ eBits .sf = 32 ∧ eFmt .b = none ∧ eInt .w = true ∧ eInt .d = true := by decide +kernel

/-- The break-halts bit of core 0, and the firmware record. -/
def halting : State := withIo base (fun io => { io with bar0 := tblSet io.bar0 0x400100 1 })
def returning (ts : Bool) (tsave : Word) : State :=
  withCtl base (fun c => { c with status := if ts then 0x21 else 1, tsave := tsave, epc := at_ 0x40 })
def recorded : State := on base (fun c => { c with
  firmware := some { pc := at_ 8, status := 0, epc := 0, cause := 0, badva := 0, tval := 0, q := Vector.replicate 16 3 } })
theorem witness_Traps :
    (∃ pa v, hwAddr (user base) 0 ((me (user base)).ctl.tsave &&& ~~~127).toNat true false = .ok pa v ∧ True)
    ∧ (∃ c v, hwAddr (modMe (dropHeld (returning false 0) 0) (fun c => nextChunk c 1)) 0 0 true false = .fault c v ∧ True)
    ∧ (∃ bs v, hwRead (returning true (at_ 0x80)) 0 (2 ^ 55 + 0x80) 128 false = .ok bs v ∧ me v = me (returning true (at_ 0x80)) ∧ v.cur = 0)
    ∧ (∃ c v, hwRead (returning true 0) 0 0 128 false = .fault c v ∧ me v = me (returning true 0) ∧ v.cur = 0)
    ∧ (bar0Get halting 0x400100).getLsbD 0 = true ∧ (bar0Get base 0x400100).getLsbD 0 = false
    ∧ tsOn (me (returning true 0)).ctl = true ∧ isUser (me (returning true 0)) = false ∧ chunkEmpty (me (returning true 0)) = true
    ∧ youngTask (returning true 0) 0 = false ∧ (me (returning true 0)).firmware = none ∧ plOf (me recorded).ctl = 2 ∧ (me recorded).firmware ≠ none :=
  ⟨hw_ok (by decide +kernel), hw_fault (by decide +kernel), hw_ok (by decide +kernel), hw_fault (by decide +kernel), by decide +kernel⟩

theorem witness_ControlRegisters : (crValues base)[0x1C]? = some 0 ∧ crMask 0x08 = some (~~~3) ∧ plOf (me base).ctl = 2
    ∧ plOf (me (sup base)).ctl = 1 ∧ isUser (me (user base)) = true ∧ crMask 0x0A = none := by decide +kernel

theorem witness_SupervisorOperations : isUser (me (sup base)) = false ∧ chunkEmpty (me (sup base)) = true ∧ (me (sup base)).woken = false
    ∧ (me (on (sup base) (fun c => { c with woken := true }))).woken = true
    ∧ (2 ^ 55 ≤ (at_ 0).toNat ∧ (at_ 0).toNat < 2 ^ 56 ∧ 2 ^ 55 ≤ (at_ 0).toNat + 1 - 1) ∧ checkPages (rmodePage (sup base) (at_ 0).toNat (at_ 0).toNat) (at_ 0).toNat 1 = .ok
    ∧ (0 : Word).toNat / 2 ^ 62 = 0 ∧ (0 : Word).toNat % 2 ^ 10 = asidOf (me (sup base)) ∧ (1 : Word).toNat % 2 ^ 10 ≠ asidOf (me (sup base)) := by
  decide +kernel

/-- An area that may be loaded, at offset 0x1000, and one that may not, at 0x2000. -/
def areas : State := withWords base 0x1000 [0x8001000000000000]
theorem witness_ContextSaveAndLoad :
    (∃ t v, access areas (recordReq 0x1000 4096 1 needW) = .ok t v ∧ tsOn (me areas).ctl = false
      ∧ mayCommit v t 0 (sigRange t.asid t.va 0xFF0) = true)
    ∧ (∃ t v, access areas (recordReq 0x1000 4096 0 needR) = .ok t v ∧ poisoned v t.key 4096 = false
      ∧ (let a := wordsOf (memBytes areas.mem t.key 0xFF0)
         (wordAt a 0).toNat / 2 ^ 48 % 2 ^ 8 = 1 ∧ (wordAt a 0).getLsbD 63 = true ∧ plOf (me areas).ctl = 2 ∧ (wordAt a 3).toNat / 2 ^ 62 = 0
         ∧ (wordAt a 304).toNat % 4 ≤ 2)
      ∧ mayCommit v t (sigRange t.asid t.va 4096) (sigRange t.asid t.va 8) = true)
    ∧ (∃ t v, access areas (recordReq 0x2000 4096 0 needR) = .ok t v ∧ poisoned v t.key 4096 = false
      ∧ (wordAt (wordsOf (memBytes areas.mem t.key 0xFF0)) 0).getLsbD 63 = false) :=
  ⟨acc_ok (by decide +kernel), acc_ok (by decide +kernel), acc_ok (by decide +kernel)⟩

/-- Context 0 of core 1024, on die 2, an M-die. -/
def onM : State := { base with cur := 8192 }
theorem witness_MatrixContext : Config.isM (dieOf base.cur) = false ∧ Config.isM (dieOf onM.cur) = true ∧ isUser (me onM) = false
    ∧ (∃ t v, access onM { storeReq (at_ 0xC000) 16384 with wins := [8], pages := [.hc, .pinned], closes := false } = .ok t v ∧ t.sys = false) :=
  ⟨by decide +kernel, by decide +kernel, by decide +kernel, acc_ok (by decide +kernel)⟩

/-! ## Hypotheses that can be met: steps of the units -/

/-- A property of what follows an access of hardware, or of an engine. -/
def hwThen {α : Type} (a : Hw α) (k : α → State → Bool) : Bool := match a with
  | .ok x s => k x s
  | _ => false
def engThen {α : Type} (a : Eng α) (k : α → State → Bool) : Bool := match a with
  | .ok x s => k x s
  | _ => false
theorem hwThen_ok {α : Type} {a : Hw α} {k : α → State → Bool} (h : hwThen a k = true) : ∃ x s, a = .ok x s ∧ k x s = true := by
  cases a <;> simp_all [hwThen]
theorem engThen_ok {α : Type} {a : Eng α} {k : α → State → Bool} (h : engThen a k = true) : ∃ x s, a = .ok x s ∧ k x s = true := by
  cases a <;> simp_all [engThen]

def running (s : State) (r : Run) : State := on s (fun c => { c with run := r })
def pended (causes : List Nat) : State := on (user base) (fun c => { c with pending := causes.map (fun k => { cause := k, badva := 0, tval := 0 }) })

theorem witness_TrapSteps :
    firstPending (me (pended [0x13, 0x19])) = some { cause := 0x19, badva := 0, tval := 0 }
    ∧ firstPending (me (pended [0x13, 0x14])) = some { cause := 0x14, badva := 0, tval := 0 } ∧ chunkEmpty (me (pended [0x13])) = true
    ∧ underWay (pended [0x13]) 0 = false ∧ underWay (running base (.stalled (.homes 0))) 0 = true ∧ (me (pended [0x13])).tail = none
    ∧ (me (running base (.committing .resume))).run = .committing .resume
    ∧ (me (running (user base) (.committing (.trap { cause := 0x10, epc := 0, badva := 0, tval := 0 })))).chunk.live = false
    ∧ (ctxAt base 0).run ≠ .dormant ∧ chunkEmpty (ctxAt (withChunk base (fun c => { c with count := 1 })) 0) = false := by decide +kernel

def live (n : Nat) : State := withChunk base (fun c => { c with live := true, count := n })
def conflicted : State := withChunk base (fun c => { c with conflicts := 4, prevArbs := [0, 80] })
/-- Another context of the core holds a chunk. -/
def besideHeld : State := { conflicted with ctxs := conflicted.ctxs ++ [(1, { initCtx with chunk := { initCtx.chunk with held := true } })] }

theorem witness_ChunkSteps : chunkLimit (me (live 256)) ≤ (me (live 256)).chunk.count ∧ (me (live 256)).run = .ready
    ∧ (∀ a ∈ (me conflicted).chunk.prevArbs, (arbAt conflicted a).priority = none ∧ (arbAt conflicted a).asking = []
        ∧ (arbAt conflicted a).inProg = [])
    ∧ (arbAt (modArb conflicted 80 (fun x => { x with priority := some 9 })) 80).priority = some 9
    ∧ (ctxAt (running base (.stalled .fault)) 0).run = .stalled .fault
    ∧ (me (withChunk (live 1) (fun c => { c with softs := 2 }))).chunk.softs = 2 ∧ (me (live 1)).chunk.softs < 2
    ∧ (me (on base (fun c => { c with run := .waiting 1, watch := some 4 }))).watch ≠ none
    ∧ (me (running base (.yielded 0 [3]))).run = .yielded 0 [3] ∧ 0 ≤ base.now
    ∧ (me conflicted).chunk.held = false ∧ (∀ i, i < 8 → i ≠ 0 → (ctxAt conflicted i).chunk.held = false) ∧ (ctxAt besideHeld 1).chunk.held = true
    ∧ underWay (live 1) 0 = false ∧ underWay (on (live 1) (fun c => { c with run := .stalled (.homes 0) })) 0 = true
    ∧ (2 ^ 61 + 8 : Nat) / 2 ^ 60 = 2 ∧ (2 ^ 61 + 8 : Nat) % 2 ^ 60 < 2 ^ 41 := by decide +kernel

/-- A chunk that has ended, with one store to the page, and its commit, without and with its grant. -/
def oneStore : Store := { space := .hc, asid := 0, va := 2 ^ 55 + 8, pa := 8, bytes := natBytes 8 1 }
def ended : State := withChunk (running base (.committing .resume)) (fun c => { c with
  live := true, count := 1, w := sigRange 0 (2 ^ 55 + 8) 8, writtenHomes := 1, stores := [oneStore] })
def commitOf (ask homes fwd : List Nat) (point : Bool) : Commit :=
  { kind := .chunk, loc := 0, asid := 0, num := 0, count := 1, r := 0, w := sigRange 0 (2 ^ 55 + 8) 8, held := false, replay := false,
    ask := ask, granted := [], stores := [oneStore], far := [], msgs := [], dropped := [], lost := [], bad := [], homes := homes, fwd := fwd, lines := [], point := point, seq := 0, core := none,
    pid := none, barrier := none, sectors := 0, req := 0 }
def committing_ (c : Commit) : State := { ended with commits := [(0, c)], nextCommit := 1 }
/-- The commit past its commit point, with its message to home 0. -/
def pointed : Commit := let c := commitOf [] [0] [3] true
                        { c with msgs := [(0, commitMessageOf ended c 0)] }

theorem witness_GrantSteps : arbSet 0 (me ended).chunk = [0] ∧ (me ended).chunk.w ≠ 0 ∧ youngTask ended 0 = false ∧ ended.commits = []
    ∧ (me (withChunk ended (fun c => { c with w := 0 }))).chunk.w = 0
    ∧ refuses (committing_ (commitOf [0] [] [] false)) 0 (some 0) 0 (sigRange 0 (2 ^ 55 + 8) 8) = false
    ∧ refuses (modArb (committing_ (commitOf [0] [] [] false)) 0 (fun x => { x with priority := some 9 })) 0 (some 0) 0 (sigRange 0 (2 ^ 55 + 8) 8) = true
    ∧ (homeAt ended 0).paused = false ∧ heldBlocks ended 0 (me ended).chunk.w = false ∧ (me ended).unit.dup < 2
    ∧ plainHeld (committing_ (commitOf [0] [] [] false)) (commitOf [0] [] [] false) = false := by decide +kernel

theorem witness_CommitSteps :
    (let s := committing_ pointed
     tblFind s.commits 0 = some pointed ∧ (homeAt s 0).paused = false ∧ commitLines s pointed 0 = [] ∧ entryWaits s 0 pointed = false
      ∧ pointed.msgs.find? (fun m => m.1 == 0) = some (0, commitMessageOf s pointed 0)
      ∧ Memory.wf s.mem = true ∧ pointed.stores.filter (fun t => isHbm t.pa && t.pa / 2 ^ 37 == 0) = [oneStore]
      ∧ (me s).run = .committing .resume ∧ (me s).chunk.effects = [] ∧ (me s).unit.dup = 0 ∧ (me s).ctl.lineage = 0
      ∧ oneStore.va % 512 = oneStore.pa % 512)
    ∧ tblFind (committing_ (commitOf [] [] [] false)).commits 0 = some (commitOf [] [] [] false)
    ∧ heldBlocks (committing_ (commitOf [] [] [] false)) 0 (commitOf [] [] [] false).w = false
    ∧ heldBlocks { committing_ (commitOf [] [] [] false) with ctxs := ended.ctxs ++ [(1, { initCtx with chunk :=
        { initCtx.chunk with live := true, held := true, r := (commitOf [] [] [] false).w } })] } 0 (commitOf [] [] [] false).w = true := by
  decide +kernel

/-- A fill of the whole block at offset 0 for core 0, and directory entries of region 0, whose name its home records. -/
def fill0 : FillReq := { core := 0, ctx := 0, l2 := false, asid := 0, va := 2 ^ 46, region := 0, fromL2 := false, l2ext := false, ext := false,
                         first := 0, last := 63, touch := 0, touchEnd := 0, span := .pred, pcIdx := 0 }
def named (s : State) : State := modHome s 0 (fun h => { h with remap := [{ region := 0, names := [(0, 2 ^ 46)], readOnly := true }] })
def withDir (state owner await : Nat) : State :=
  modDir (named base) 0 0 (fun d => { d with state := state, owner := owner, await := await, next := 1, fill := some fill0, dies := 1 })

theorem witness_FillSteps :
    (∃ l, tlbFind (withDir 1 0 0) 0 (2 ^ 55) = some l ∧ ptePlace l.pte = 0)
    ∧ regionBusy base 0 0 0 (2 ^ 46) = false ∧ fillMode base fill0 = some 0 ∧ fillMode (paged base 0xD3D) fill0 = some 1
    ∧ (dirAt base 0 0).state = 0 ∧ regionBusy (withDir 4 7 0) 0 0 0 (2 ^ 46) = false ∧ (dirAt (withDir 2 0 0) 0 0).owner = fill0.core
    ∧ (dirAt (withDir 8 7 1) 0 0).await = 1 ∧ (dirAt (withDir 8 7 1) 0 0).next ≤ 4 ∧ 1 < (dirAt (withDir 16 7 2) 0 0).await
    ∧ (dirAt (withDir 4 7 0) 0 0).mode = 0 ∧ ownerBlocks base 7 0 = [] ∧ wbInFlight base 0 7 = false ∧ (homeAt base 0).paused = false
    ∧ fillCurrent base fill0 = false ∧ nameStands base fill0 = false ∧ fillCurrent (named base) fill0 = false ∧ nameStands (named base) fill0 = true
    ∧ fillCurrent (withDir 1 0 0) fill0 = true ∧ l1Set (coreAt (withDir 1 0 0) 0) (2 ^ 46) = [] :=
  ⟨opt_some (by decide +kernel), by decide +kernel⟩

/-- Page tables for the page of ASID 0: the root array at H0's bottom. -/
def tables : State :=
  let s := withWords base 0 [0x1001]
  let s := withWords s 0x1000 [0x2001]
  let s := withWords s 0x2000 [0x3001]
  let s := withWords s 0x3000 [0x4001]
  withWords s 0x4000 [0x3F]
/-- The extension of a fill whose page the tables translate. -/
def extends_ (s : State) : Bool :=
  match walk s 0 (fill0.va * 512) with
  | .ok l => (leafFault s l (fill0.va * 512) needR false).isNone && !pteSystem l.pte && decide (ptePlace l.pte ≠ 3)
      && (match throughFilter s 0 0 false [(leafAddr l (fill0.va * 512) / 512, fill0.va)] with
        | (some v, _) => (tlbFind v 0 (fill0.va * 512)).isSome
        | _ => false)
  | .error _ => false
theorem witness_ExtensionAgain : fillCurrent tables fill0 = false ∧ extends_ tables = true
    ∧ (match walk base 0 (2 ^ 55 + 2 ^ 34) with | .error _ => true | .ok _ => false) = true := by decide +kernel

def tinv0 (homes : List Nat) : TinvSt := { loc := some 0, asid := 0, lo := 2 ^ 55, hi := 2 ^ 55 + 65535, homes := homes }
def rmode0 : RmodeSt := { loc := 0, core := 0, asid := 0, lo := 2 ^ 55, hi := 2 ^ 55 + 511, mode := .hc, homes := [0] }
/-- A live chunk that has read the block of region 0. -/
def reader : State := withChunk (live 1) (fun c => { c with r := sigRegion 0 (2 ^ 46) })

theorem witness_TranslationSteps :
    (∃ l v, walkSet tables 0 (2 ^ 55) true = .ok l v ∧ l.pte = 0xC3F) ∧ (∃ c v, walkSet base 0 (2 ^ 55 + 2 ^ 34) false = .fault c v ∧ True)
    ∧ recallCores base 0 0 (2 ^ 46) = [] ∧ recallCores reader 0 0 (2 ^ 46) = [0] ∧ beingWritten base 0 512 = false
    ∧ (homeAt base 0).recalls = [] ∧ (homeAt base 0).paused = false
    ∧ tblFind [(4, tinv0 [0])] 4 = some (tinv0 [0]) ∧ namesIn (homeAt base 0) 0 (2 ^ 55) (2 ^ 55 + 65535) = []
    ∧ earlierIn base 0 0 (2 ^ 55) (2 ^ 55 + 65535) = false
    ∧ committingIn base 0 (2 ^ 55) (2 ^ 55 + 511) [0] = false
    ∧ (∀ x ∈ ((pagesOf 0 rmode0.lo rmode0.hi).map (rmodeRegions base rmode0)).flatten, (dirAt base 0 x.2.1).state ≤ 4)
    ∧ (dirAt base 0 0).lost = false ∧ (dirAt (modDir base 0 0 (fun d => { d with lost := true })) 0 0).lost = true
    ∧ stillHolds base 0 0 0 = false ∧ stillHolds (withChunk reader (fun c => { c with reads := [(0, 2 ^ 46, 0, 0, 0)] })) 0 0 0 = true
    ∧ (homeAt (modHome base 0 (fun h => { h with recalls := [(0, 1)] })) 0).recalls.find? (fun x => x.1 == 0) = some (0, 1) :=
  ⟨hw_ok (by decide +kernel), hw_fault (by decide +kernel), by decide +kernel⟩

/-- An I/O or engine commit of `oneStore` with every grant. -/
def ioCommit_ (kind : CommitKind) : Commit := { commitOf [] [] [] false with kind := kind }
theorem witness_InboundSteps : devOk base 0 0 = true ∧ devOk base 0 (2 ^ 41) = false ∧ devAddr base 0 8 = 8 ∧ reqWaits base 0 = false
    ∧ deviceHeld base 8 8 = false ∧ deviceHeld base 8 4096 = false ∧ heldElsewhere base 8 8 = false ∧ (∀ r ∈ keyRegions 8 4096, cpHeld base r = false)
    ∧ plainWaits (committing_ (ioCommit_ .io)) (ioCommit_ .io) = false ∧ refuses base 0 none (nameSig base 8 8) (nameSig base 8 8) = false ∧ devOk base 0 8 = true
    ∧ linesOf base (ioCommit_ .io) = [] ∧ (ioCommit_ .engine).barrier = none
    ∧ tblFind (committing_ (ioCommit_ .io)).commits 0 = some (ioCommit_ .io) ∧ devOk base 0 (8 + 4096 - 1) = true
    ∧ reqBar0 0 = false ∧ reqBar0 0x10000 = true ∧ bar0Ok base 0x10000 (2 ^ 26 - 1) = true ∧ bar0Ok base 0x10000 (2 ^ 26) = false := by decide +kernel

/-- ASID 0 with its vector 0 inside the share of 2048 vectors, unmasked, with a record to announce. -/
def announcing : State := withIo base (fun io => { io with
  pendingMsix := [0],
  bar0 := tblSet (tblSet (tblSet io.bar0 0x1500 0x800) 0x100010 (2 ^ 63)) (msixOff 0 0 1) 0x100000000 })
/-- ASID 0 assigned to function 1. -/
def assigned : State := withIo base (fun io => { io with bar0 := tblSet io.bar0 0x100030 0x8000000000000001 })
theorem witness_HostSteps : announcing.io.pendingMsix.contains 0 = true ∧ (asidWord announcing 0 0x10).getLsbD 63 = true
    ∧ packageVector announcing 0 = some 0 ∧ masked announcing 0 = false ∧ masked base 0 = true ∧ portOpen assigned 0 1 = true ∧ portOpen assigned 0 2 = false
    ∧ headerOk (headerSet 0x4000000001 0 0x8001) true false = true
    ∧ (let op : SysOp := { loc := 0, asid := 0, va := 2 ^ 55, addr := 64, n := 8, io := false, write := false, bytes := [], answer := none }
       cxlServes op = true ∧ cxlGet base op.addr op.n = none ∧ cxlGet (cxlPut base 64 (natBytes 8 5)) op.addr op.n = some (natBytes 8 5)
        ∧ cxlServes { op with io := true } = false) := by decide +kernel

/-- A plain queue of 16 slots: its descriptor at offset 0x400, its ring at 0x800; and the same for the other kinds. -/
def descWords (w1 : Word) : List Word := [at_ 0x800, w1, 0, 0, 0, 0, 0, 0]
def queued (w1 : Word) : State :=
  withWords (withWords (tabled base) 0x400 (descWords w1)) 0x8028 [0x8080000000000400]
def delivering (slot : Option Nat) : State :=
  let s := queued 0x10004
  let d : Delivery := { loc := none, src := none, die := some 0, asid := 0, handle := 5, desc := 2 ^ 55 + 0x400,
                        words := if slot.isSome then descWords 0x10004 else [], msg := [0x4000000001, 1, 2, 3, 4, 5, 6, 7],
                        route := none, via := none, slot := slot, since := 0, stallPosted := false, port := false, event := false }
  { s with cur := 2 ^ 32, fox := { s.fox with nextDelivery := 1, deliveries := [(0, d)] } }
/-- The head of that queue is resident on die 0. -/
def queueHead (w1 : Word) : Head := { asid := 0, handle := 5, desc := 2 ^ 55 + 0x400, words := descWords w1, hint := true, used := 0, waiting := none }
def resident (s : State) (w1 : Word) : State := modDie s 0 (fun d => { d with heads := [queueHead w1] })
theorem witness_RingSteps :
    (∃ n v, hwUpdate (touchHead (resident (delivering none) 0x10004) 0 5) 0 (2 ^ 55 + 0x410) (· + 1) = .ok n v ∧ n = 0)
    ∧ (∃ b v, slotFree (touchHead (resident (delivering (some 0)) 0x10004) 0 5) 0 (2 ^ 55 + 0x400) 0 16 = .ok b v
        ∧ (b && hwThen (hwWrite v 0 (ringSlotVa (descWords 0x10004) 0) (stampedSlot [0x4000000001] 0) true) (fun _ _ => true)) = true)
    ∧ (∃ b v, slotFree (touchHead (resident (delivering (some 16)) 0x10004) 0 5) 0 (2 ^ 55 + 0x400) 16 16 = .ok b v ∧ b = false)
    ∧ lookupMem (queued 0x10004) 0 5 = .ok (2 ^ 55 + 0x400) (descWords 0x10004) ∧ headOf (queued 0x10004) 0 5 = none
    ∧ bindClass (descWords 0x10004) = 0 ∧ placeExists (queued 0x10004) 0 0 0 = true ∧ bindClass (descWords 0x90004) = 2
    ∧ (liveDies (queued 0x90004)).any (classAdmits 2) = true ∧ lookupMem (queued 0x10004) 0 6 = .bad 1 0
    ∧ lookup (queued 0x10004) 0 4096 = .bad 1 0 ∧ lookup (resident (queued 0x10004) 0x10004) 0 5 = .ok (2 ^ 55 + 0x400) (descWords 0x10004)
    ∧ (me (running base (.stalled (.probe 5)))).run = .stalled (.probe 5)
    ∧ (delivering none).fox.deliveries.all (fun p => !claimsLater (delivering none) 0 p.2) = true
    ∧ (delivering none).fox.deliveries.all (fun p => p.2.route.isNone && (deliverable p.2 (descWords 0x10004)).isNone && p.2.src.isNone) = true :=
  ⟨hw_ok (by decide +kernel), hw_ok (by decide +kernel), hw_ok (by decide +kernel), by decide +kernel⟩

/-- ASID 0 with a template of two slots of 64 KiB at the page, and handler 1: tables and template inside the page. -/
def activating : State :=
  let s := withWords base 0 [0x8080000000000400, 0x8080000000000440]
  let s := withWords s 0x400 [0, 0, at_ 0, BitVec.ofNat 64 (2 * 2 ^ 40 + 65536), 0, 0, 0, 0]
  withIo s (fun io => { io with bar0 := tblSet io.bar0 0x100000 0x8080000000000000 })
/-- One message in the mailbox of core 1, whose contexts are idle. -/
def mailed : State := { modCore activating 1 (fun x => { x with mailbox := [{ asid := 0, msg := [0x1] }] }) with cur := 8 }
/-- A launch of one task group, its gang gathered in cluster 0. -/
def launchWords : List Word := [0x1001080000, 0x100010001, 0, 0, 0, 0, 0, 0, at_ 0x600, 0, 0, 0, 0, 0, 0, 0]
def group0 : GroupSt := { g := 0, live := 1, want := 1, done := false, retried := false, crcs := [], dies := [], avoid := [], lastLoc := 0 }
def launch0 : Launch := { lid := 0, asid := 0, va := at_ 0x500, words := launchWords, complete := 0, groups := [group0] }
def gathering : State :=
  let s := { activating with ctxs := (activating.ctxs ++ [(9, { initCtx with run := .reserved 3 })]) }
  let x : Gang := { id := 3, kind := 1, threads := 1, gather := some [(0, 0)], retired := [], launch := (0, 0) }
  { s with fox := { s.fox with launches := [launch0], gangs := [x] } }
/-- A registered choice record of context 0, with two alternatives that a thief may have. -/
def choice0 : Choice := { loc := 0, recVa := 2 ^ 55 + 0x1000, frame := at_ 0x2000, framelen := 0, spoor := at_ 0x3000, seq := 0 }
def stealing : State :=
  let s := withWords activating 0x1000 [at_ 0x40, 0x8000000000000002, at_ 0x3000]
  let s := { s with ctxs := s.ctxs ++ [(9, { initCtx with run := .reserved theftMark })] }
  { s with fox := { s.fox with choices := [choice0] } }

theorem witness_WorkSteps :
    (∃ x v, takeSlots mailed 0 1 false = .ok x v ∧ (x.isSome && hwThen (handlerOf v 0 [1]) (fun pc w =>
        decide (pc = some (2 ^ 55 + 0x440)) && imagesFit w 8 (moduleOf w 0 (2 ^ 55 + 0x440)))) = true)
    ∧ (∃ x, gangAt gathering 0 0 = some x ∧ x.threads = 1 ∧ (let g := reserveCrew gathering x none 0 0 1
        placeAll g x [0] [(0, 0)] = some [(0, 9)]
        ∧ (match startGang g x launch0 0 [(0, 9)] with | .ok _ => true | _ => false) = true))
    ∧ (∃ x t, takeSlots stealing 0 1 false = .ok x t ∧ (x.isSome && hwThen (theftRead t 0 choice0) (fun r z =>
        recStealable (wordAt r.1 1) && decide (2 ≤ recRemaining (wordAt r.1 1))
          && hwThen (commitPieces z 0 0 [(2 ^ 55 + 0x1008, 8)] (wordBytes 0)) (fun _ _ => true))) = true)
    ∧ placeExists base 0 0 1 = true ∧ (coreAt base 1).mailbox.length < 16 ∧ (coreAt base 1).overflow = []
    ∧ (coreAt (modCore base 1 (fun x => { x with overflow := [(1023, 0)] })) 1).overflow ≠ [] ∧ heldElsewhere base (overflowBase base 1) 64 = false
    ∧ idle mailed 8 = true ∧ (dieAt mailed 0).sinceB < 15 ∧ (coreAt mailed 1).mailbox = [{ asid := 0, msg := [0x1] }]
    ∧ (wordAt [0x1] 0).toNat / 2 ^ 38 % 4 = 0
    ∧ (gangAt gathering 0 0).isSome = true ∧ (launchAt gathering 0).isSome = true ∧ gathering.fox.resume = []
    ∧ (ctxAt stealing 9).run = .reserved theftMark
    ∧ stealing.fox.choices.find? (fun y => y.loc == 0 && y.recVa == (at_ 0x1000).toNat) = some choice0 :=
  ⟨hw_ok (by decide +kernel), opt_some (by decide +kernel), hw_ok (by decide +kernel), by decide +kernel⟩

/-- A TCB at offset 0x600 with the word 0 `w`, its list of one successor at 0x700, which names it again. -/
def tcb0 (w : Word) : State := withWords (withWords base 0x600 [w, 0x4000000001, 0, 0, 0, at_ 0x700, 1, 0]) 0x700 [at_ 0x600]
def walking : State := let s := tcb0 1
                       { s with cur := walkUnit 0, fox := { s.fox with walks := [(0, (2 ^ 55 + 0x700, 1))] } }
theorem witness_SuccessorSteps :
    (∃ pa v, hwAddr (tcb0 1) 0 (2 ^ 55 + 0x600) true true = .ok pa v ∧ poisoned v pa 8 = false
      ∧ refuses v (homeOf (2 ^ 55 + 0x600)) none (sigRange 0 (2 ^ 55 + 0x600) 8) (sigRange 0 (2 ^ 55 + 0x600) 8) = false)
    ∧ (∃ bs v, hwRead (tcb0 1) 0 ((at_ 0x600).toNat + 0x28) 16 true = .ok bs v ∧ (bs.length = 16 ∧ leNat (bs.drop 8) % 2 ^ 16 = 1
        ∧ leNat (bs.take 8) = 2 ^ 55 + 0x700 ∧ hwThen (hwAddr v 0 (2 ^ 55 + 0x700) false true) (fun _ _ => true) = true))
    ∧ tblFind walking.fox.walks 0 = some (2 ^ 55 + 0x700, 1) ∧ walking.cur = walkUnit 0
    ∧ (∃ bs v, hwRead walking 0 (2 ^ 55 + 0x700) 8 true = .ok bs v ∧ leNat bs = 2 ^ 55 + 0x600)
    ∧ heldElsewhere (tcb0 1) 0x600 8 = false ∧ (0x4000000001 : Nat) / 2 ^ 40 % 2 ^ 8 = 0 ∧ (0x4000001001 : Nat) / 2 ^ 12 % 2 ^ 4 ≠ 0
    ∧ (∃ o v, hwUpdate (tcb0 0) 0 (2 ^ 55 + 0x600) (countDown 45) = .ok o v ∧ o.toNat % 2 ^ 32 = 0)
    ∧ (∃ o v, hwUpdate (tcb0 2) 0 (2 ^ 55 + 0x600) (countDown 32) = .ok o v ∧ o.toNat % 2 ^ 32 = 2)
    ∧ (∃ o v, hwUpdate (tcb0 1) 0 (2 ^ 55 + 0x600) (countDown 45) = .ok o v ∧ (o.toNat % 2 ^ 32 = 1 ∧ o.getLsbD 44 = false
        ∧ hwThen (hwWrite v 0 (2 ^ 55 + 0x638) (natBytes 8 1) true) (fun _ w => hwThen (hwRead w 0 (2 ^ 55 + 0x608) 32 true) (fun _ _ => true)) = true
        ∧ hwThen (hwRead v 0 (2 ^ 55 + 0x608) 56 true) (fun _ w => (coreAt w 0).spawnWait.isEmpty && decide ((coreAt w 0).deque.length < 32)) = true)) :=
  ⟨hw_ok (by decide +kernel), hw_ok (by decide +kernel), by decide +kernel, by decide +kernel, hw_ok (by decide +kernel),
   by decide +kernel, by decide +kernel, by decide +kernel, hw_ok (by decide +kernel), hw_ok (by decide +kernel), hw_ok (by decide +kernel)⟩

/-- The group of `launch0`, with the CRCs of its copies and the executions wanted; and with a completion TCB. -/
def grouped (want : Nat) (crcs : List (Nat × BitVec 64)) (tcb : Word) : State :=
  let l : Launch := { launch0 with words := setNth launchWords 12 tcb, groups := [{ group0 with want := want, crcs := crcs }] }
  { base with fox := { base.fox with launches := [l] } }
def budgeted : State := on { grouped 1 [] 0 with now := 1 } (fun c => { c with unit := { c.unit with budget := some 0, launch := some (0, 0) } })
/-- A crew of two: context 0 at the barrier, context 1 there or not. -/
def crewed (there : Bool) : State :=
  let u : UnitInfo := { initUnit with gangKind := 1, gang := 3, atBar := true }
  let s := on base (fun c => { c with unit := u })
  { s with ctxs := s.ctxs ++ [(1, { initCtx with run := .waiting 6, unit := { u with thread := 1, atBar := there } })] }
theorem witness_GroupSteps :
    (∃ x, launchAt (grouped 1 [] 0) 0 = some x ∧ ((groupIn x 0).isSome = true ∧ x.complete + 1 = ldGroups x.words))
    ∧ (∃ o t, hwUpdate (grouped 1 [] 0) 0 (at_ 0x600 + BitVec.ofNat 64 (8 * (0 / 64))).toNat (fun m => m ||| ((1 : Word) <<< 0)) = .ok o t ∧ o = 0)
    ∧ hwThen (hwWrite (grouped 1 [] (at_ 0x800)) 0 ((at_ 0x800).toNat + 0x38) (natBytes 8 2) true) (fun _ _ => true) = true
    ∧ crcOf { group0 with want := 2, crcs := [(1, 5), (2, 5)] } 1 = crcOf { group0 with want := 2, crcs := [(1, 5), (2, 5)] } 2
    ∧ crcOf { group0 with want := 2, crcs := [(1, 5), (2, 6)] } 1 ≠ crcOf { group0 with want := 2, crcs := [(1, 5), (2, 6)] } 2
    ∧ overBudget budgeted (me budgeted) = true ∧ (me budgeted).unit.launch = some (0, 0) ∧ budgeted.commits = []
    ∧ gangLocs (crewed true) 3 = [0, 1] ∧ gangSaved (crewed true) 3 = []
    ∧ (∀ l ∈ gangLocs (crewed true) 3, (ctxAt (crewed true) l).unit.atBar = true) ∧ (ctxAt (crewed false) 1).unit.atBar = false :=
  ⟨opt_some (by decide +kernel), hw_ok (by decide +kernel), by decide +kernel⟩

/-- A thread whose save area is the last 4 KiB of its slot of 64 KiB at the page. -/
def slotted : State := withCtl base (fun c => { c with privbase := at_ 0, privlen := 65536 })
def isDone : SaveEnd → Bool
  | .done _ => true
  | .later _ => false
/-- The save of context 0: its area is translated, its bytes are written, and the context is free. -/
def savesArea (s : State) : Bool :=
  let cut := stopMatrix (cancelRun s 0) 0
  let d := ctxAt cut 0
  let area := (d.ctl.privbase + d.ctl.privlen - 4096).toNat
  let bytes := areaBytes cut 0 ⟨1, waitKind (ctxAt s 0), d.regs.pc, d.chunk.num, qList d.regs, d.ctl.status, d.accMask, 0⟩
  Memory.wf cut.mem && hwThen (hwAddr cut (asidOf d) area true true) (fun pa _ =>
    hwThen (hwWrite cut (asidOf d) area bytes true) (fun _ z1 =>
      hwThen (hwAddr z1 (asidOf d) (area + 0xFF8) true true) (fun q _ => q == pa + 0xFF8)))
    && (match saveThread s 0 false with | .done v => (ctxAt v 0).run == .dormant | .later _ => false)
theorem witness_PreemptionSteps : (0xC000000000000000 : Word).toNat / 2 ^ 62 = 3 ∧ (0x1000000000000000 : Word).getLsbD 60 = true
    ∧ slotted.cur < preUnit 0 ∧ (slotted.ctxs.map (fun e => e.1)).filter (fun k => k != 2 ^ 18 && isTarget slotted 0 k) = [0]
    ∧ (slotted.ctxs.map (fun e => e.1)).filter (fun k => k != 0 && isTarget slotted 0 k) = []
    ∧ isDone (saveThread { slotted with nextOp := 1 } 0 false) = true
    ∧ isDone (saveThread { on slotted (fun c => { c with sysOut := [1] }) with nextOp := 1 } 0 false) = false
    ∧ savesArea { slotted with nextOp := 1 } = true ∧ (me slotted).unit.gangKind = 0 ∧ (me slotted).unit.bound = none ∧ mustWait slotted 0 = false
    ∧ (savePass { slotted with nextOp := 1 } 0 [0]).2 = []
    ∧ (savePass { on slotted (fun c => { c with sysOut := [1] }) with nextOp := 1 } 0 [0]).2 = [0] := by decide +kernel

/-- Core 1024 of an M-die with a command at the head of its queue; its tiles are E. -/
def cmd0 (op : Nat) (w1 : Word) (begun : Bool) (done : Nat) : Cmd :=
  { num := 0, words := [BitVec.ofNat 64 (op * 2 ^ 56), w1, 0x2000, 1, 0, 0, 0, 0], fmt := 0, scales := Vector.replicate 8 0,
    tag := { asid := 0, core := 1024, ctx := 0, image := 0 }, refused := false, done := done, begun := begun, opened := begun, seq := 0, commits := 0 }
def matrixAt (c : Cmd) : State :=
  { modCore base 1024 (fun x => { x with cmds := [c], tilesE := [0, 1, 2, 3] }) with cur := 1024 }
/-- The hypotheses of a step of the command `c`. -/
def stepsNow (c : Cmd) : Bool :=
  let s := matrixAt c
  (coreAt s 1024).stop == .running && !c.refused && c.begun && decide (c.done < totalSteps c) && (stepFault s 1024 c).isNone && Memory.wf s.mem
def owned0 (core : Nat) : AccTag := { asid := 0, core := core, ctx := 0, image := 0 }

theorem witness_MatrixSteps : (∀ op ∈ [1, 2, 3, 4, 5], stepsNow (cmd0 op 0 true 0) = true) ∧ totalSteps (cmd0 6 0 true 0) = totalSteps (cmd0 5 0 true 0)
    ∧ cmdOp (cmd0 6 0 true 0) = 6 ∧ stepsNow (cmd0 6 0 true 0) = true
    ∧ (4 : Nat) = cmdOp (cmd0 4 (2 ^ 62) true 0) ∧ stepsNow (cmd0 4 (2 ^ 62) true 0) = true
    ∧ hwThen (engineWrite (matrixAt (cmd0 4 (2 ^ 62) true 0)) 0 (some 1024) none none (piecesOf (2 ^ 55 + 0x4000) 64) (List.replicate 64 0) 0)
        (fun k _ => k == 1) = true := by decide +kernel

/-- An accspill of tile 0 by context 0 of core 1024, to the VA `va`. -/
def spill0 (va : Word) : AccSpill := { tile := 0, asid := 0, core := 1024, ctx := 0, va := va }
theorem witness_MatrixQueue :
    (let c := cmd0 5 0 false 0
     let s := matrixAt c
     (clusterAt s 128).executing = none ∧ cmdReady s 1024 c = true ∧ isEarliest s 1024 c = true ∧ fifoOperands c.words = []
      ∧ spillBefore s 1024 c = false ∧ spillBefore (modCluster s 128 (fun x => { x with spills := [spill0 0] })) 1024 c = true
      ∧ hwThen (takeTiles s 1024 c (namedTiles c)) (fun _ _ => true) = true ∧ tagOf s 128 0 = none
      ∧ tagOf (setTag s 128 0 (some (owned0 1025))) 128 0 = some (owned0 1025) ∧ sameTag (owned0 1025) c.tag = false)
    ∧ ((modCluster base 0 (fun x => { x with spills := [spill0 (at_ 0x4000)] })).clusters.map (fun e => e.2.spills.find? (fun x => x.tile == 0)))
        = [some (spill0 (at_ 0x4000))]
    ∧ sameTag (owned0 1024) (owned0 1025) = false ∧ (∀ i, i < 8 → (coreAt base i).stop ≠ .owned)
    ∧ totalSteps (cmd0 5 0 true 64) ≤ 64 ∧ executingTouches base 128 0 = false
    ∧ (match spillPieces base 0 (piecesOf (2 ^ 55 + 0x4000) 16384) (List.replicate 16384 0) with | some (_, none) => true | _ => false) = true := by
  decide +kernel

/-- A packet at home 0: COPY of one row, 8 bytes, from a scratchpad whose tile is E to the page. -/
def pkt0 (op : Nat) (table : List Word) : Packet :=
  { pid := 0, engine := 0, home := 0, asid := 0, slot := at_ 0x800,
    words := [BitVec.ofNat 64 op, 0x0020000000000000, at_ 0x4000, 8, 0, 0, at_ 0x900, at_ 0x900], table := table, data := [], row := 0,
    commits := 0, finished := false }
def copying (p : Packet) : State := modHome ownedTile 0 (fun h => { h with packets := [p] })
/-- Parameter block: index table at offset 0xA00, one element of 8 bytes, base at 0xB00. -/
def block0 : List Word := [0, at_ 0xA00, 0x100000008, at_ 0xB00, 8, 0, 0, 0]
/-- A copy queue with one packet at its read index, for an engine of home 0. -/
def copyHead : Head := queueHead 0x20004
def intaking (w0 : Word) : State :=
  let s := withWords (queued 0x20004) 0x800 [w0, 0x0020000000000000, at_ 0x4000, 8]
  { modDie s 0 (fun d => { d with heads := [copyHead] }) with cur := copyUnit 0 5 }

theorem witness_CopySteps :
    (∃ k v, pktRead (copying (pkt0 1 [])) (pkt0 1 []) 0x0020000000000000 8 1 = .ok k v
      ∧ engThen (pktWrite v (pkt0 1 []) (at_ 0x4000) (natBytes 8 1) none 2) (fun k _ => k == 1) = true)
    ∧ (∃ m, sramOf ownedTile 0x0020000000000000 = some m ∧ (m.off + 8 ≤ m.size ∧ firstT ownedTile m 8 = none))
    ∧ packetOf (copying (pkt0 1 [])) 0 = some (pkt0 1 []) ∧ pktOp (pkt0 1 []) = 1 ∧ (homeAt (copying (pkt0 1 [])) 0).paused = false
    ∧ (wordAt block0 2).toNat / 2 ^ 32 = 1
    ∧ engThen (pktRead base (pkt0 3 block0) (at_ 0xA00) 4 6) (fun _ v => engThen (pktRead v (pkt0 3 block0) (at_ 0xB00) 8 6)
        (fun bs w => engThen (pktWrite w (pkt0 3 block0) (at_ 0x4000) bs none 2) (fun _ _ => true))) = true
    ∧ engThen (pktRead base (pkt0 6 []) (at_ 0x900) 64 7) (fun ib _ => decide (chainBad (wordsOf ib) = some 0)) = true
    ∧ engThen (pktRead (withWords base 0x900 [1]) (pkt0 6 []) (at_ 0x900) 64 7) (fun ib _ => (chainBad (wordsOf ib)).isNone) = true
    ∧ (fifoRead (withWords base (fifoKey 0 31) [0xA000040080000000]) 0 31).valid = true
    ∧ (fifoRead (withWords base (fifoKey 0 31) [0xA000040080000000]) 0 31).prodThreads = false
    ∧ engThen (fifoPut (withWords base (fifoKey 0 31) [0xA000040080000000]) 0 31 (natBytes 8 1)) (fun n _ => n == 1) = true
    ∧ engThen (hopPut ownedTile 0x8000000000000 (natBytes 8 1) 0) (fun b w => b == (none, 1) && (landSectors w b.1 b.2).2) = true
    ∧ (landSectors (barWrite base (keyCluster 0 0) { barRead base (keyCluster 0 0) with banked := 2 ^ 32 - 1 }) (some (keyCluster 0 0)) 1).2 = false
    ∧ headOf (intaking 1) 0 5 = some copyHead ∧ freeEngine (homeAt (intaking 1) (homeOf copyHead.desc)) = some 0
    ∧ hwThen (ringHead (intaking 1) 0 copyHead.desc copyHead.words) (fun r v => match r with
        | .entry n msg => (n == 0) && hwThen (freeSlot v 0 copyHead.desc copyHead.words 0 (wordAt msg 0)) (fun _ w =>
            (pktBad w { pkt0 1 [] with words := msg }).isNone)
        | _ => false) = true
    ∧ (pktBad base { pkt0 1 [] with words := [0x101, 0, 0, 0, 0, 0, 0, 0] }) = some 0 :=
  ⟨engThen_ok (k := fun _ v => engThen (pktWrite v (pkt0 1 []) (at_ 0x4000) (natBytes 8 1) none 2) (fun k _ => k == 1)) (by decide +kernel),
   opt_some (by decide +kernel), by decide +kernel⟩

/-- Owner 0 holds the package. -/
def ownedBy0 (s : State) : State := withIo s (fun io => { io with ownership := { io.ownership with held := true, staleAt := 10 } })
def written (x : Nat × Nat × Word) : State := withIo (ownedBy0 base) (fun io => { io with window := [x] })
theorem witness_ControlSpaceSteps : (ownership (ownedBy0 base)).held = true ∧ (ownership (ownedBy0 base)).stale = false
    ∧ masterOf (ownedBy0 base) 0 = some (ownership (ownedBy0 base)).owner ∧ masterOf (ownedBy0 base) 7 = none
    ∧ (ownership base).held = false ∧ asidMay base 0 1023 = false ∧ asidMay (ownedBy0 base) 0 1023 = true ∧ vfOf 0 = none ∧ vfOf 8 = none
    ∧ base.io.verified = true ∧ (withIo base (fun io => { io with verified := false })).io.verified = false
    ∧ runsThread (ctxAt base 0) = true ∧ (written (0, 0xC0 + 8 * 15, 5)).io.window = [(0, 0xC0 + 8 * 15, 5)] ∧ (ownedBy0 base).io.window = []
    ∧ (coreAt (modCore (ownedBy0 base) 0 (fun x => { x with halted := true })) 0).halted = true
    ∧ (0x2000000000000000 : Word).toNat / 2 ^ 61 % 4 = 1 ∧ (0x4000000000000000 : Word).toNat / 2 ^ 61 % 4 = 2 := by decide +kernel

/-- The masters 2, 5 and 7 are the functions 0 of ports 1 to 3. -/
def mastered (s : State) : State := withIo s (fun io => { io with flash := { io.flash with masters := [(2, 2 ^ 11), (5, 2 ^ 12), (7, 3 * 2 ^ 11)] } })
def electing : State := withIo (mastered { base with now := Config.cycles10ms }) (fun io => { io with
  ownership := { io.ownership with window := some 0, claims := [(5, 1), (2, 9)] } })
/-- The same election one cycle before its window closes. -/
def open_ : State := { electing with now := Config.cycles10ms - 1 }
theorem witness_OwnershipSteps : electing.io.ownership.window = some 0 ∧ 0 + Config.cycles10ms ≤ electing.now ∧ electing.io.ownership.claims ≠ []
    ∧ open_.now < 0 + Config.cycles10ms ∧ (ownership open_).held = false ∧ (ownership open_).window ≠ none
    ∧ (∀ c ∈ (ownership open_).claims, c.1 ≠ 7) ∧ (∃ c ∈ (ownership open_).claims, c.1 = 5) ∧ masterOf open_ 5 = some 5 ∧ masterOf open_ 7 = some 7 ∧ masterOf open_ (8 + 3 * 2 ^ 11) = some 7 ∧ masterOf base 7 = none
    ∧ masterOf base 0 = some 0 ∧ (ownership base).window = none ∧ (ownership base).held = false
    ∧ (ownership (ownedBy0 base)).nonce = 0 ∧ (ownership (ownedBy0 base)).stale = false ∧ (ownership (ownedBy0 base)).owner = 0
    ∧ (ownership (ownedBy0 { base with now := 10 })).stale = true ∧ (ownership (ownedBy0 { base with now := 9 })).stale = false := by decide +kernel

/-- Die 2 being retired: nothing runs on it. -/
def retiring : State := withIo { base with cur := 2 } (fun io => { io with service := some (3, 2) })
theorem witness_ServiceSteps : (homeAt (modHome base 0 (fun h => { h with paused := true })) 0).paused = true ∧ base.io.service ≠ some (3, 0)
    ∧ retiring.io.service = some (3, retiring.cur) ∧ busyOn retiring 2 = [] ∧ (spillDie retiring 2).isSome = true ∧ commandsOn retiring 2 = false
    ∧ trafficOn retiring 2 = false ∧ busyOn base 0 = [0] := by decide +kernel

/-- A file of `n` sections, portable or native: its header (R63), its section table (R64) and the bytes that follow. -/
def fileOf (w8 n : Nat) (rest : List Word) : List Byte := wordsBytes ([0x4F4D5841, BitVec.ofNat 64 w8, BitVec.ofNat 64 n, 64, 0, 0, 0, 0] ++ rest)
/-- A `.text` section of two words at byte 128, and a `.sprinny.fmt` section of one record at byte 136. -/
def file0 (text : Word) : List Byte := fileOf 1 2 [0, 1, 128, 8, 0, 5, 136, 16, text, 0x100000, 0]
def module0 (file : List Byte) : Module :=
  { mid := 0, asid := 0, file := file, regions := [], symbols := [], handlers := [(1, .value (at_ 0x40))], queues := [], launches := [],
    tiles := [], fifos := [], version := none, refused := false, loaded := false }
/-- A branch at byte 4 of section 0 to symbol 1, and an absolute address at byte 0. -/
def relocRec (kind off : Nat) : List Byte := wordsBytes [BitVec.ofNat 64 (off * 2 ^ 32 + 2 ^ 16 + kind), 0]
def linked : Module := { module0 (file0 0) with symbols := [.value 0, .value (at_ 0x100)] }
theorem witness_LoaderSteps :
    hwThen (hwWrite activating 0 (tableVa activating 0 0 1) (natBytes 8 (2 ^ 63 + 2 ^ 55 + 0x40)) false) (fun _ _ => true) = true
    ∧ hdrOk (fileOf 0x1010001 0 []) = true ∧ isNative (fileOf 0x1010001 0 []) = true ∧ sectionsOf (fileOf 0x1010001 0 []) = some []
    ∧ hdrOk (file0 0) = true ∧ isNative (file0 0) = false ∧ hdrOk (fileOf 2 0 []) = false ∧ sectionsOf (fileOf 1 1 []) = none
    ∧ (sectionsOf (file0 0xFC4000012000000)).bind (nativeFile (file0 0xFC40000102000000)) ≠ none
    ∧ (sectionsOf (file0 0xFC000001)).bind (nativeFile (file0 0xFC000001)) = none
    ∧ nativeOf [] 0xFC400001 = some .nop ∧ cachedImage base (module0 (file0 0)) 0 = none
    ∧ moduleAt { activating with modules := [module0 (file0 0)] } 0 = some (module0 (file0 0)) ∧ moduleAt base 0 = none
    ∧ (sectionsOf (file0 0)).bind (fun xs => relocate linked xs [{ num := 0, va := 2 ^ 55, region := ⟨0, 0, 0, 0, [0]⟩, sect := ⟨0, 1, 128, 8⟩ }]
        (file0 0) (relocRec 2 4)) ≠ none
    ∧ (sectionsOf (file0 0)).bind (fun xs => relocate linked xs [] (file0 0) (relocRec 1 0)) ≠ none := by
  decide +kernel

theorem witness_cachedImage (d : Nat) : ∃ x, cachedImage { base with images := [⟨d, translatorVersion base, []⟩] } (module0 []) d = some x := by
  simp [cachedImage, module0, translatorVersion]

theorem witness_EncodeDecode : wellFormed (.addi (.k 8) (.keep 8) 1) = true ∧ hasWord (.addi (.k 8) (.keep 8) 1) = true
    ∧ decodeWord 0x078C0001 = .ok (.addi (.k 8) (.keep 8) 1) := by decide

/-- The state that `withFetchWord` gives meets what StepRunsDecoded asks, and so does one whose word decodes to nothing. -/
def fetching (w : Nat) : Bool :=
  let s := State.reset.withFetchWord 32 w
  let c := ctxAt s 0
  let pc := c.regs.pc.toNat
  let begun := modMe (stepBegun { s with cur := 0 } 0) beginCtx
  (match pick s (turns s) with | some (.issue 0) => true | _ => false) && chunkEmpty c && c.tail.isNone && (firstPending c).isNone && !c.chunk.live
    && decide (c.chunk.conflicts < 4) && isGlobal pc && pc % 4 == 0 && (watchHit begun 0 pc 4 [62]).isNone
    && (match tlbFind s 0 pc with
      | some lf => leafAddr lf pc % 8 == pc % 8 && (leafFault begun lf pc ⟨false, false, true⟩ (isUser c)).isNone && !pteSystem lf.pte
          && pteMode lf.pte != 2 && !homeHolds begun (homeOf pc) (leafAddr lf pc) 0 pc
          && (match throughFilter begun (homeOf pc) 0 false (namedRegions (leafAddr lf pc) pc 4) with
            | (some v, _) => memBytes v.mem (leafAddr lf pc) 4 == natBytes 4 w && v.poison.isEmpty && v.codeLog.isEmpty
            | _ => false)
      | none => false)
theorem witness_StepRunsDecoded : fetching 0x02000000 = true ∧ fetching 0xFE000301 = true := by decide +kernel

theorem next_of {r : Res} (h : (match r with | .next _ => true | _ => false) = true) : ∃ t, r = .next t := by
  cases r <;> simp_all

theorem witness_MemoryFormKept : MemOk (State.reset.withFetchWord 32 0x02000000)
    ∧ ∃ t, step (State.reset.withFetchWord 32 0x02000000) = .next t :=
  ⟨by simp only [MemOk]; decide +kernel, next_of (by decide +kernel)⟩

/-! ## One step (the expected values are worked out by hand from the rules that the comments name) -/

/-- The state after `i`. -/
def after (i : Instr) (s : State) : State := match exec i s with
  | .next t => t
  | _ => s
def q0 (s : State) : Word := qGet (me s).regs 0
/-- `base` with k0 and k1. -/
def args (x y : Word) : State := inK (inK base 0 x) 1 y

-- R71: a .w form sign-extends its 32-bit result
theorem test_add_w_wraps : q0 (after (.add (.k 0) (.k 1) .push true) (args 0x7FFFFFFF 1)) = 0xFFFFFFFF80000000 := by decide +kernel
theorem test_add_keeps : (me (after (.add (.k 0) (.k 0) (.keep 0) false) (args 0x8000000000000001 0))).regs.k.get 0 = 2 := by decide +kernel
theorem test_mulhz : q0 (after (.mulhz (.k 0) (.k 1) .push) (args (~~~0) (~~~0))) = 0xFFFFFFFFFFFFFFFE := by decide +kernel
theorem test_mulh : q0 (after (.mulh (.k 0) (.k 1) .push) (args (~~~0) 1)) = ~~~0 := by decide +kernel
-- R73
theorem test_div_by_zero : q0 (after (.div (.k 0) (.k 1) .push false) (args 5 0)) = ~~~0 := by decide +kernel
theorem test_div_overflow : q0 (after (.div (.k 0) (.k 1) .push false) (args 0x8000000000000000 (~~~0))) = 0x8000000000000000 := by decide +kernel
theorem test_rem_sign : q0 (after (.rem (.k 0) (.k 1) .push false) (args (-7) 2)) = ~~~0 := by decide +kernel
theorem test_remz_w : q0 (after (.remz (.k 0) (.k 1) .push true) (args 0xFFFFFFFF 0)) = ~~~0 := by decide +kernel
-- R74: the count is taken modulo the width
theorem test_shl_count : q0 (after (.shl (.k 0) (.k 1) .push false) (args 1 65)) = 2 := by decide +kernel
theorem test_sra_w : q0 (after (.sra (.k 0) (.k 1) .push true) (args 0x80000000 31)) = ~~~0 := by decide +kernel
theorem test_ror : q0 (after (.ror (.k 0) (.k 1) .push false) (args 1 1)) = 0x8000000000000000 := by decide +kernel
-- R72
theorem test_clz_w : q0 (after (.clz (.k 0) .push true) (args 1 0)) = 31 := by decide +kernel
theorem test_ctz_zero : q0 (after (.ctz (.k 0) .push false) (args 0 0)) = 64 := by decide +kernel
theorem test_bswap : q0 (after (.bswap (.k 0) .push false) (args 0x0102030405060708 0)) = 0x0807060504030201 := by decide +kernel
theorem test_minz : q0 (after (.minz (.k 0) (.k 1) .push) (args (~~~0) 1)) = 1 := by decide +kernel
-- R75, R76
theorem test_sel : q0 (after (.sel (.k 0) (.k 1) (.k 2) .push) (inK (args 0 1) 2 9)) = 9 := by decide +kernel
theorem test_lcat : q0 (after (.lcat (.k 0) .push 0x7F00) (args 3 0)) = 0x1FF00 := by decide +kernel
theorem test_ext : q0 (after (.extI (.k 0) .push 60 7) (args 0xF000000000000000 0)) = 15 := by decide +kernel
-- R78, R79
theorem test_space_foreign : q0 (after (.space (.k 0) .push) (args 0x0020000200000000 0)) = 0x12 := by decide +kernel
theorem test_castSl : q0 (after (.castSl (.k 0) .push) (args 0x100 0)) = 0x0020FFFE00000100 := by decide +kernel
theorem test_castPg_window : (me (after (.castPg (.k 0) .push) (user (args 0x0010000000000008 0)))).ctl.tval = 1 := by decide +kernel
-- R80, R81
theorem test_bge : (me (after (.bge (.k 0) (.k 1) 12) (args 5 5))).regs.pc = at_ 48 := by decide +kernel
theorem test_blt_unsigned : (me (after (.blt (.k 0) (.k 1) 12) (args 1 (~~~0)))).regs.pc = at_ 4 := by decide +kernel
theorem test_call : (me (after (.call (-1)) base)).regs.k.get 15 = at_ 4 ∧ (me (after (.call (-1)) base)).regs.pc = at_ 0 - 4 := by decide +kernel
theorem test_jr_align : (me (after (.jr (.k 0)) (user (args (at_ 2) 0)))).ctl.cause = 5 := by decide +kernel
-- R83–R89: 1 + 2⁻²⁴ is a tie, and rounds to even with NX; 1 ÷ 0 is +∞ with DZ
theorem test_fadd_tie : q0 (after (.fadd (.k 0) (.k 1) .push .sf) (args 0x3F800000 0x33800000)) = 0x3F800000
    ∧ (me (after (.fadd (.k 0) (.k 1) .push .sf) (args 0x3F800000 0x33800000))).ctl.fpflags = 0x10 := by decide +kernel
theorem test_fdiv_zero : q0 (after (.fdiv (.k 0) (.k 1) .push .df) (args 0x3FF0000000000000 0)) = 0x7FF0000000000000
    ∧ (me (after (.fdiv (.k 0) (.k 1) .push .df) (args 0x3FF0000000000000 0))).ctl.fpflags = 2 := by decide +kernel
theorem test_fsqrt_negative : q0 (after (.fsqrt (.k 0) .push .sf) (args 0xBF800000 0)) = 0x7FC00000 := by decide +kernel
theorem test_fmax_zeros : q0 (after (.fmax (.k 0) (.k 1) .push .sf) (args 0x80000000 0)) = 0 := by decide +kernel
theorem test_fclass_negative_zero : q0 (after (.fclass (.k 0) .push .sf) (args 0x80000000 0)) = 8 := by decide +kernel
theorem test_fcvt_nan : q0 (after (.fcvt (.k 0) .push .w .sf) (args 0x7FC00000 0)) = 0 := by decide +kernel
theorem test_fcvt_tie : q0 (after (.fcvt (.k 0) .push .d .sf) (args 0x40200000 0)) = 2 := by decide +kernel
-- R139, R148
theorem test_ld_sign : q0 (after (.ld (.k 0) .push .b .pred 0) (withWords (args (at_ 8) 0) 8 [0x80])) = 0xFFFFFFFFFFFFFF80 := by decide +kernel
theorem test_lz : q0 (after (.lz (.k 0) .push .b .pred (-1)) (withWords (args (at_ 9) 0) 8 [0x80])) = 0x80 := by decide +kernel
theorem test_st_own : ownByte (me (after (.st (.k 0) (.k 1) .h .pred 1) (args (at_ 8) 0xABCD))).chunk.stores 11 = some 0xAB := by decide +kernel
theorem test_amo_max : q0 (after (.amo (.k 0) (.k 1) .push true .max) (withWords (args (at_ 8) 1) 8 [0xFFFFFFFF])) = ~~~0 := by decide +kernel
theorem test_cas_fails : q0 (after (.cas (.k 0) (.k 1) (.k 2) .push false) (args (at_ 8) 1)) = 0 := by decide +kernel
-- R157, R159
theorem test_give : isTileE (after (.give (.k 0)) (args 0x0020000000001000 0)) 0 1 = true := by decide +kernel
theorem test_fwait : q0 (after (.fwait (.k 0) (.k 1) .push) (inK (inK fifos 0 31) 1 2)) = 0x0030FFF000000000 := by decide +kernel
-- R281, R282, R283
theorem test_trap : (me (after (.trap (.k 0)) (user (args 7 0)))).ctl.epc = at_ 4 ∧ (me (after (.trap (.k 0)) (user (args 7 0)))).ctl.status = 0x21
    ∧ (me (after (.trap (.k 0)) (user (args 7 0)))).regs.pc = at_ 0x400 := by decide +kernel
theorem test_eret : (me (after .eret (returning false 0))).regs.pc = at_ 0x40 ∧ plOf (me (after .eret (returning false 0))).ctl = 0 := by decide +kernel
theorem test_crd_user_priv : (me (after (.crd 4 .push) (user base))).ctl.cause = 2 := by decide +kernel
theorem test_cwr_chunklen : (me (after (.cwr (.k 0) 0x0A) (args 0 0))).ctl.chunklen = 256 := by decide +kernel
-- R323
theorem test_mark : q0 (after (.mark .push) (choosing 2 0x3010)) = 1 := by decide +kernel
-- R358, R363, R370, R371: bytes wrap; m0 counts as all ones
def inV (s : State) (n : Fin 32) (x : BitVec 512) : State := on s (fun c => { c with regs := { c.regs with v := c.regs.v.set n.val x } })
theorem test_vadd_wraps : (me (after (.vadd 3 1 2 0 .b) (inV (inV base 1 0x01FF) 2 0x0101))).regs.v.get 3 = 0x0200 := by decide +kernel
theorem test_vperm_out_of_range : (me (after (.vperm 3 1 2 0 .d) (inV (inV base 1 7) 2 8))).regs.v.get 3
    = 7 * (2 ^ 64 + 2 ^ 128 + 2 ^ 192 + 2 ^ 256 + 2 ^ 320 + 2 ^ 384 + 2 ^ 448) := by decide +kernel
theorem test_vdot : (me (after (.vdot 3 1 2 0 .b) (inV (inV base 1 0xFF02) 2 0x0303))).regs.v.get 3 = 3 := by decide +kernel
theorem test_mpop : q0 (after (.mpop .push 0) base) = 64 := by decide +kernel
-- R204, R305, R309
theorem test_snoopedOwner : (dirAt (after (.homeDataArrival 0 0) (withDir 8 7 1)) 0 0).state = 1 := by decide +kernel
theorem test_electionClose : (after .electionClose electing).io.ownership.owner = 2 := by decide +kernel
theorem test_powerThrottle : (dieAt (after (.powerThrottle 3 true) (modDie base 3 (fun d => { d with throttle := 18 }))) 3).throttle = 18 := by decide +kernel
-- R68: the digest of the three bytes of "abc", the example of FIPS 180-4
theorem test_sha256 : sha256 [0x61, 0x62, 0x63] = 0xBA7816BF8F01CFEA414140DE5DAE2223B00361A396177A9CB410FF61F20015AD := by decide +kernel

end Sys2Proof.Machine.Tests
end

-- Proofs of the family 00_scope
section
/-! PROOF. The canonical form of memory is kept by every step (O59). The cells of memory are written in three places only:
`putBytesFor` (the bytes of commits and of the hardware's own writes), `putRaw` (the loader's bytes), and a reset, which keeps the cells
of `keptCells`. All three answer memory in its canonical form, by `memPutAll_wf` and `keptCells_wf`. What is left is that every
operation between `step` and those three hands a state on. So there is one lemma per operation, in the model's order: a result that
carries a state carries one in canonical form. Each proof follows the branches of its definition, and names the lemmas of the operations
that the branches call. -/

namespace Sys2Proof.Machine

/-! ### The canonical form of a result

A result that carries a state carries it in canonical form; one that carries none says nothing. -/

def ResOk : Res → Prop
  | .next t => MemOk t
  | _ => True

def OptOk : Option State → Prop
  | some t => MemOk t
  | none => True

def OptFstOk {α : Type} : Option (State × α) → Prop
  | some (t, _) => MemOk t
  | none => True

def HwOk {α : Type} : Hw α → Prop
  | .ok _ t => MemOk t
  | .fault _ t => MemOk t
  | .retry => True

def EngOk {α : Type} : Eng α → Prop
  | .ok _ t => MemOk t
  | .fault _ _ t => MemOk t
  | .retry => True

def AccOk : Acc → Prop
  | .ok _ t => MemOk t
  | .home _ _ _ t => MemOk t
  | .wait _ t => MemOk t
  | .core _ _ _ => True

def LoadedOk : Loaded → Prop
  | .ok t => MemOk t
  | _ => True

def FetchedOk : Fetched → Prop
  | .word _ t => MemOk t
  | .wait _ t => MemOk t
  | .trap _ _ _ => True

def SaveEndOk : SaveEnd → Prop
  | .done t => MemOk t
  | .later t => MemOk t

def StartedOk : Started → Prop
  | .ok t => MemOk t
  | .held t => MemOk t
  | .dropped t => MemOk t
  | .no t => MemOk t

def SearchOk (x : Search) : Prop := MemOk x.s

theorem memOk_of_mem {s t : State} (hs : MemOk s) (e : t.mem = s.mem) : MemOk t := by
  unfold MemOk; rw [e]; exact hs

theorem foldl_memOk {α : Type} {f : State → α → State} {s : State} (hs : MemOk s) (hf : ∀ t x, MemOk t → MemOk (f t x))
    (xs : List α) : MemOk (xs.foldl f s) := foldl_wf hf xs s hs

theorem foldl_optOk {α : Type} {f : Option State → α → Option State} {o : Option State} (ho : OptOk o)
    (hf : ∀ o x, OptOk o → OptOk (f o x)) (xs : List α) : OptOk (xs.foldl f o) := by
  induction xs generalizing o with
  | nil => exact ho
  | cons x xs ih => exact ih (hf _ _ ho)

theorem accOk_if {c : Prop} [Decidable c] {a b : Acc} (ha : AccOk a) (hb : AccOk b) : AccOk (if c then a else b) := by
  split <;> assumption

theorem memOk_if (c : Prop) [Decidable c] {s t : State} (hs : MemOk s) (ht : MemOk t) : MemOk (if c then s else t) := by
  split <;> assumption

section
variable {s : State} (hs : MemOk s)
include hs

/-! ### Reading and writing the units of the package (`Units`) -/

theorem setCtx_memOk (l : Nat) (c : Ctx) : MemOk (setCtx s l c) := hs
theorem modCtx_memOk (l : Nat) (f : Ctx → Ctx) : MemOk (modCtx s l f) := hs
theorem modMe_memOk (f : Ctx → Ctx) : MemOk (modMe s f) := hs
theorem setCore_memOk (c : Nat) (x : CoreSt) : MemOk (setCore s c x) := hs
theorem modCore_memOk (c : Nat) (f : CoreSt → CoreSt) : MemOk (modCore s c f) := hs
theorem modCluster_memOk (c : Nat) (f : ClusterSt → ClusterSt) : MemOk (modCluster s c f) := hs
theorem modDie_memOk (d : Nat) (f : DieSt → DieSt) : MemOk (modDie s d f) := hs
theorem modHome_memOk (h : Nat) (f : HomeSt → HomeSt) : MemOk (modHome s h f) := hs
theorem modArb_memOk (a : Nat) (f : ArbSt → ArbSt) : MemOk (modArb s a f) := hs
theorem modFox_memOk (f : FoxSt → FoxSt) : MemOk (modFox s f) := hs
theorem modIo_memOk (f : IoSt → IoSt) : MemOk (modIo s f) := hs
theorem modDir_memOk (h r : Nat) (f : DirEntry → DirEntry) : MemOk (modDir s h r f) := hs
theorem post_memOk (u : Nat) (i : Instr) : MemOk (post s u i) := hs
theorem postIn_memOk (d u : Nat) (i : Instr) : MemOk (postIn s d u i) := hs
theorem postOnce_memOk (u : Nat) (i : Instr) : MemOk (postOnce s u i) := memOk_of_mem hs (postOnce_mem _ _ _)
theorem bar0Set_memOk (off : Nat) (x : Word) : MemOk (bar0Set s off x) := hs

/-! ### Pointers and the page walk (`Walk`) -/

theorem tlbPut_memOk (asid va : Nat) (l : Leaf) : MemOk (tlbPut s asid va l) := hs

/-! ### The shared operations (`Ops`) -/

theorem finishAt_memOk (r : Regs) (pc : Word) : ResOk (finishAt s r pc) := hs
theorem finish_memOk (r : Regs) : ResOk (finish s r) := hs
theorem finishPush_memOk (d : Dest) (x : Word) : ResOk (finishPush s d x) := hs
theorem stallCtx_memOk (l : Nat) (w : Stall) : MemOk (stallCtx s l w) := hs
theorem stall_memOk (w : Stall) : ResOk (stall s w) := hs
theorem endChunkOf_memOk (l : Nat) (a : After) : MemOk (endChunkOf s l a) := hs
theorem endChunk_memOk (a : After) : ResOk (endChunk s a) := hs
theorem closing_memOk {k : State → Res} (hk : ∀ t, MemOk t → ResOk (k t)) : ResOk (closing s k) := by
  grind [closing, endChunk_memOk, stall_memOk]
theorem wakeAll_memOk (p : Nat → Ctx → Bool) : MemOk (wakeAll s p) := hs
theorem wakeStall_memOk (w : Stall) : MemOk (wakeStall s w) := hs
theorem reexamine_memOk (arb : Nat) : MemOk (reexamine s arb) := memOk_of_mem hs (reexamine_mem _ _)
theorem releasePriority_memOk (loc : Nat) : MemOk (releasePriority s loc) := by
  grind [releasePriority, MemOk, foldl_memOk, reexamine_memOk]
theorem withdraw_memOk (l : Nat) : MemOk (withdraw s l) := memOk_of_mem hs (withdraw_mem _ _)
theorem waitHere_memOk (kind : Nat) : ResOk (waitHere s kind) := by grind [waitHere, ResOk, releasePriority_memOk, modMe_memOk]
theorem squash_memOk (l : Nat) (conflict : Bool) : MemOk (squash s l conflict) := memOk_of_mem hs (squash_mem _ _ _)
theorem squashMeeting_memOk (w : BitVec 1024) (p : Nat → Bool) : MemOk (squashMeeting s w p) :=
  memOk_of_mem hs (squashMeeting_mem _ _ _)
theorem dropHeld_memOk (l : Nat) : MemOk (dropHeld s l) := by grind [dropHeld, releasePriority_memOk]
theorem finishClosingAt_memOk (r : Regs) (pc : Word) : ResOk (finishClosingAt s r pc) := by
  grind [finishClosingAt, ResOk, dropHeld_memOk, modMe_memOk]
theorem finishClosing_memOk (r : Regs) : ResOk (finishClosing s r) := by grind [finishClosing, finishClosingAt_memOk]
theorem putBytesFor_memOk (cid : Option Nat) (key : Nat) (bs : List Byte) :
    MemOk (putBytesFor s cid key bs) := memPutAll_wf _ _ _ hs
theorem putBytes_memOk (key : Nat) (bs : List Byte) : MemOk (putBytes s key bs) := putBytes_wf _ _ _ hs
theorem logComplete_memOk (cid : Nat) : MemOk (logComplete s cid) := hs
theorem noteWrite_memOk (key n : Nat) : MemOk (noteWrite s key n) := noteWrite_wf _ _ _ hs
theorem putWords_memOk (region : Nat) (ws : List (Nat × Word)) : MemOk (putWords s region ws) := putWords_wf _ _ _ hs
theorem absorbFlight_memOk (region : Nat) (who : Nat → Bool) : MemOk (absorbFlight s region who) := absorbFlight_wf _ _ _ hs
theorem cpHome_memOk (region : Nat) : MemOk (cpHome s region) := cpHome_wf _ _ hs
theorem poisonBad_memOk (b : Block) : MemOk (poisonBad s b) := memOk_of_mem hs (poisonBad_mem _ _)
theorem settleBad_memOk (own : Option Nat) (region : Nat) : MemOk (settleBad own s region) :=
  memOk_of_mem hs (settleBad_mem _ _ _)
theorem answer_memOk (o : Out) : MemOk (answer s o) := hs
theorem lineBack_memOk (line : Nat) (cells : List (Nat × Byte)) : MemOk (lineBack s line cells) := lineBack_wf _ _ _ hs
theorem gather_memOk (key n : Nat) : MemOk (gather s key n) := gather_wf _ _ _ hs
theorem commitBytes_memOk (w : BitVec 1024) (key : Nat) (bs : List Byte) : MemOk (commitBytes s w key bs) :=
  commitBytes_wf _ _ _ _ hs
theorem hwCommit_memOk (w : BitVec 1024) (key : Nat) (bs : List Byte) : MemOk (hwCommit s w key bs) := hwCommit_wf _ _ _ _ hs
theorem walkSet_memOk (asid va : Nat) (write : Bool) : HwOk (walkSet s asid va write) := by
  grind [walkSet, HwOk, tlbPut_memOk, gather_memOk, commitBytes_memOk]
theorem translate_memOk (asid va : Nat) (write : Bool) : HwOk (translate s asid va write) := by
  grind [translate, walkSet_memOk, HwOk]
theorem hwAddr_memOk (asid va : Nat) (write hc : Bool) : HwOk (hwAddr s asid va write hc) := by
  grind [hwAddr, HwOk, translate_memOk]
theorem hwRead_memOk (asid va n : Nat) (hc : Bool) : HwOk (hwRead s asid va n hc) := by grind [hwRead, hwAddr_memOk, HwOk]
theorem hwWrite_memOk (asid va : Nat) (bs : List Byte) (hc : Bool) : HwOk (hwWrite s asid va bs hc) := by
  grind [hwWrite, hwAddr_memOk, HwOk, hwCommit_memOk]
theorem hwChange_memOk (asid va : Nat) (hc : Bool) (f : Word → Word) : HwOk (hwChange s asid va hc f) := by
  grind [hwChange, hwAddr_memOk, HwOk, gather_memOk, hwCommit_memOk]
theorem hwUpdate_memOk (asid va : Nat) (f : Word → Word) : HwOk (hwUpdate s asid va f) := by grind [hwUpdate, hwChange_memOk]
theorem deliver_memOk (d : Delivery) : MemOk (deliver s d) := hs
theorem event_memOk (asid reason cause : Nat) (w8 w10 : Word) (msg : List Word) :
    MemOk (event s asid reason cause w8 w10 msg) := by
  grind [event, deliver_memOk]
theorem badEvent_memOk (asid reason : Nat) (w8 w10 : Word) (msg : List Word) : MemOk (badEvent s asid reason w8 w10 msg) := by
  grind [badEvent, event_memOk]
theorem saveQ_memOk (l : Nat) : HwOk (saveQ s l) := by grind [saveQ, hwWrite_memOk]
theorem takeTrap_memOk (l : Nat) (t : TrapInfo) (async : Bool) : OptOk (takeTrap s l t async) := by
  grind [takeTrap, OptOk, dropHeld_memOk, setCtx_memOk, saveQ_memOk, HwOk]
theorem raise_memOk (cause : Nat) (badva tval : Word) : ResOk (raise s cause badva tval) := by
  grind [raise, takeTrap_memOk, OptOk, ResOk, stall_memOk, endChunk_memOk]
theorem raiseOwn_memOk (cause : Nat) (epc badva tval : Word) : ResOk (raiseOwn s cause epc badva tval) := by
  grind [raiseOwn, closing_memOk, takeTrap_memOk, dropHeld_memOk, modMe_memOk, OptOk, ResOk, stall_memOk]
theorem raiseMcheck_memOk (reason detail : Nat) (badva : Word) : ResOk (raiseMcheck s reason detail badva) := by
  grind [raiseMcheck, ResOk, dropHeld_memOk, modMe_memOk]
theorem raiseHome_memOk (cause : Nat) (badva tval : Word) : ResOk (raiseHome s cause badva tval) := by
  grind [raiseHome, raiseMcheck_memOk, raise_memOk, endChunk_memOk, ResOk, stallCtx_memOk, post_memOk]
theorem raiseClosing_memOk (cause : Nat) (badva tval : Word) : ResOk (raiseClosing s cause badva tval) := by
  grind [raiseClosing, raiseMcheck_memOk, raise_memOk]
theorem raiseIllegal_memOk : ResOk (raiseIllegal s) := by grind [raiseIllegal, raise_memOk]
theorem raisePriv_memOk : ResOk (raisePriv s) := by grind [raisePriv, raise_memOk]

/-! ### Branches and targets (`Operands`) -/

theorem jumpTo_memOk (r : Regs) (t : Word) : ResOk (jumpTo s r t) := by grind [jumpTo, raise_memOk, finishAt_memOk]
theorem jumpReg_memOk (r : Regs) (t : Word) : ResOk (jumpReg s r t) := by grind [jumpReg, raise_memOk, finishAt_memOk]
theorem branch_memOk (c : Bool) (o : BitVec 15) : ResOk (branch s c o) := by grind [branch, jumpTo_memOk, finish_memOk]

/-! ### An instruction's access to memory (`Access`) -/

theorem remapPut_memOk (h : Nat) (r : Remap) : MemOk (remapPut s h r) := hs
theorem askRecall_memOk (h region : Nat) (names : List (Nat × Nat)) : MemOk (askRecall s h region names) := by
  grind [askRecall, foldl_memOk, postOnce_memOk]
theorem claimCp_memOk (h pa asid va core : Nat) : MemOk (claimCp s h pa asid va core) := by grind [claimCp, modHome_memOk]
theorem claimPin_memOk (h pa asid va die : Nat) : MemOk (claimPin s h pa asid va die) := by grind [claimPin, modHome_memOk]

theorem throughFilter_memOk (h asid : Nat) (write : Bool) (rs : List (Nat × Nat)) :
    OptOk (throughFilter s h asid write rs).1 ∧ MemOk (throughFilter s h asid write rs).2 := by
  induction rs generalizing s with
  | nil => exact ⟨hs, hs⟩
  | cons r rest ih => grind [throughFilter, OptOk, askRecall_memOk, remapPut_memOk]

theorem enqueue_memOk (h region l : Nat) : MemOk (enqueue s h region l) := by grind [enqueue, modHome_memOk]
theorem dequeue_memOk (h l : Nat) : MemOk (dequeue s h l) := by grind [dequeue, modHome_memOk]

theorem homeAccess_memOk (q : AccReq) (va : Nat) : AccOk (homeAccess s q va) := by
  unfold homeAccess
  extract_lets l c asid h write tv hit
  clear_value hit
  refine accOk_if hs (accOk_if hs (accOk_if hs ?_))
  cases hit with
  | none => grind [AccOk, postOnce_memOk]
  | some lf =>
    dsimp only
    cases leafFault s lf va q.need (isUser c && !q.sup) with
    | some cause => exact hs
    | none =>
      refine accOk_if (accOk_if hs hs) (accOk_if (enqueue_memOk hs _ _ _) ?_)
      have hc := memOk_if (pteMode lf.pte == 2) (claimCp_memOk hs h (leafAddr lf va) asid va (coreOf l)) hs
      have hp := memOk_if (ptePlace lf.pte == 1) (claimPin_memOk hc h (leafAddr lf va) asid va (dieOf l)) hc
      refine accOk_if hc (accOk_if hp ?_)
      grind [AccOk, OptOk, throughFilter_memOk, enqueue_memOk, dequeue_memOk]

theorem access_memOk (q : AccReq) : AccOk (access s q) := by
  unfold access
  extract_lets l c ea cls tv last die scratch
  refine accOk_if hs (accOk_if trivial (accOk_if trivial (accOk_if trivial (accOk_if trivial (accOk_if trivial (accOk_if trivial
    ?_))))))
  cases watchHit s (asidOf c) (if cls == 1 then privAlias c.ctl (fld ea 47 0) else ea.toNat) q.n (watchKinds q.kind) with
  | some i => trivial
  | none => grind [AccOk, homeAccess_memOk]

theorem withAccess_memOk (q : AccReq) {k : Target → State → Res} (hk : ∀ x t, MemOk t → ResOk (k x t)) :
    ResOk (withAccess s q k) := by
  grind [withAccess, access_memOk, AccOk, raise_memOk, raiseHome_memOk, stall_memOk]
theorem withClosing_memOk (q : AccReq) {k : Target → State → Res} (hk : ∀ x t, MemOk t → ResOk (k x t)) :
    ResOk (withClosing s q k) := by
  grind [withClosing, access_memOk, AccOk, raise_memOk, raiseClosing_memOk, stall_memOk]

theorem withAccesses_memOk (qs : List AccReq) {k : List Target → State → Res} (hk : ∀ ts t, MemOk t → ResOk (k ts t)) :
    ResOk (withAccesses s qs k) := by
  induction qs generalizing s k with
  | nil => exact hk _ _ hs
  | cons q qs ih => exact withAccess_memOk hs q fun _ _ hu => ih hu fun _ _ hv => hk _ _ hv

theorem recordFill_memOk (core region lo hi : Nat) : MemOk (recordFill s core region lo hi) := hs
theorem markSharer_memOk (t : Target) (n : Nat) : MemOk (markSharer s t n) := by
  grind [markSharer, recordFill_memOk, modMe_memOk, modDir_memOk]
theorem sendFill_memOk (f : FillReq) : MemOk (sendFill s f) := hs
theorem askWords_memOk (f : FillReq) : MemOk (askWords s f) := by
  grind [askWords, foldl_memOk, modDie_memOk, sendFill_memOk, post_memOk]
theorem askFill_memOk (asid va region lo hi : Nat) (need : Nat → Bool) (sp : Span) :
    MemOk (askFill s asid va region lo hi need sp) := by
  grind [askFill, askWords_memOk]
theorem loadEffects_memOk (items : List (Target × Nat)) (sp : Span) : MemOk (loadEffects s items sp) := by
  grind [loadEffects, foldl_memOk, markSharer_memOk, modMe_memOk, askFill_memOk, modCore_memOk]

theorem withLoad_memOk (t : Target) (n : Nat) (sp : Span) (ea : Word) {k : List Byte → State → Res}
    (hk : ∀ x t, MemOk t → ResOk (k x t)) :
    ResOk (withLoad s t n sp ea k) := by
  grind [withLoad, raiseHome_memOk, loadEffects_memOk]

theorem ownerLeft_memOk (die who : Nat) (b : Block) : MemOk (ownerLeft s die who b) := by grind [ownerLeft, post_memOk]
theorem sendHome_memOk (die : Nat) (b : Block) : MemOk (sendHome s die b) := by
  grind [sendHome, poisonBad_memOk, ownerLeft_memOk, post_memOk]
theorem keepWords_memOk (mine : Nat → Bool) (asid : Nat) (ws : List Nat) : MemOk (keepWords s mine asid ws) := hs
theorem leaseL2_memOk (die : Nat) (b : Block) : MemOk (leaseL2 s die b) := by grind [leaseL2, postIn_memOk]
theorem leaveOne_memOk (core : Nat) (b : Block) : MemOk (leaveOne s core b) := by
  grind [leaveOne, foldl_memOk, leaseL2_memOk, modDie_memOk, ownerLeft_memOk, poisonBad_memOk, sendHome_memOk, keepWords_memOk]
theorem leaveL1_memOk (core : Nat) (out : List Block) : MemOk (leaveL1 s core out) := by
  grind [leaveL1, foldl_memOk, leaveOne_memOk]
theorem storeOne_memOk (t : Target) (bs : List Byte) : OptOk (storeOne s t bs) := by
  grind [storeOne, OptOk, modMe_memOk, leaveL1_memOk, setCore_memOk]
theorem storeFills_memOk (items : List (Target × Nat)) (sp : Span) : MemOk (storeFills s items sp) := by
  grind [storeFills, foldl_memOk, askFill_memOk]

theorem storeMany_memOk (xs : List (Target × List Byte)) : OptOk (storeMany s xs) := by
  induction xs generalizing s with
  | nil => exact hs
  | cons x xs ih => grind [storeMany, OptOk, storeOne_memOk]

theorem noRoom_memOk : ResOk (noRoom s) := by grind [noRoom, stall_memOk, endChunk_memOk]

theorem withStores_memOk {old : State} (hold : MemOk old) (sp : Span) (items : List (Target × List Byte)) {k : State → Res}
    (hk : ∀ t, MemOk t → ResOk (k t)) :
    ResOk (withStores old s sp items k) := by
  grind [withStores, noRoom_memOk, storeFills_memOk, storeMany_memOk, OptOk]

theorem withEffect_memOk {old : State} (hold : MemOk old) (e : Effect) {k : State → Res} (hk : ∀ t, MemOk t → ResOk (k t)) :
    ResOk (withEffect old s e k) := by
  grind [withEffect, noRoom_memOk, modMe_memOk]

omit hs in
theorem withTrails_memOk {old s : State} (ho : MemOk old) (hs : MemOk s) (es : List Trail) (acc : List (Target × List Byte))
    {k : List (Target × List Byte) → State → Res} (hk : ∀ ts t, MemOk t → ResOk (k ts t)) :
    ResOk (withTrails old es acc s k) := by
  induction es generalizing s acc with
  | nil => exact hk _ _ hs
  | cons e es ih =>
    unfold withTrails
    grind [MemOk, AccOk, raise_memOk, access_memOk, raiseHome_memOk, stall_memOk, loadEffects_memOk, modMe_memOk]

/-! ### Accesses that are a chunk of their own (R96) (`Direct`) -/

theorem crcClosing_memOk (t : Target) (bs : List Byte) : MemOk (crcClosing s t bs) := by grind [crcClosing, modMe_memOk]
theorem dirtyRun_memOk (core mine : Nat) (b : Block) (a z : Nat) (ws : List (Nat × Word)) :
    MemOk (dirtyRun s core mine b a z ws) := by
  grind [dirtyRun, leaveL1_memOk, postIn_memOk, keepWords_memOk, setCore_memOk, recordFill_memOk]
theorem putDirty_memOk (t : Target) (bs : List Byte) : MemOk (putDirty s t bs) := by grind [putDirty, dirtyRun_memOk]
theorem storePinned_memOk (t : Target) (die : Nat) (w : BitVec 1024) (bs : List Byte) : MemOk (storePinned s t die w bs) := by
  grind [storePinned, modDie_memOk, absorbFlight_memOk, commitBytes_memOk]
theorem storeNow_memOk (t : Target) (bs : List Byte) : MemOk (storeNow s t bs) := by
  grind [storeNow, crcClosing_memOk, putDirty_memOk, squashMeeting_memOk, storePinned_memOk, commitBytes_memOk]
theorem cutCopies_memOk (core : Nat) (touched : Block → Bool) (keep : Block → Nat → Bool) :
    MemOk (cutCopies s core touched keep) := by
  grind [cutCopies, foldl_memOk, modDie_memOk, leaveL1_memOk, setCore_memOk, sendHome_memOk]
theorem giveUp_memOk (core : Nat) (touched : Block → Bool) (keep : Block → Nat → Bool) : MemOk (giveUp s core touched keep) := by
  grind [giveUp, foldl_memOk, cutCopies_memOk, poisonBad_memOk, post_memOk]
theorem sysBegin_memOk (t : Target) (o n : Nat) (write : Bool) (bs : List Byte) : MemOk (sysBegin s t o n write bs) := by
  grind [sysBegin, MemOk, post_memOk, modIo_memOk, modMe_memOk]
theorem dropReads_memOk : MemOk (dropReads s) := hs
theorem sysRead_memOk (items : List (Target × Nat)) {k : List Byte → State → Res} (hk : ∀ x t, MemOk t → ResOk (k x t)) :
    ResOk (sysRead s items k) := by
  grind [sysRead, stall_memOk, foldl_memOk, sysBegin_memOk, dropReads_memOk]
theorem sysWrite_memOk (items : List (Target × List Byte)) {k : State → Res} (hk : ∀ t, MemOk t → ResOk (k t)) :
    ResOk (sysWrite s items k) := by
  grind [sysWrite, stall_memOk, foldl_memOk, crcClosing_memOk, sysBegin_memOk]
theorem finishAny_memOk (closing : Bool) (r : Regs) (pc : Word) : ResOk (finishAny closing s r pc) := by
  grind [finishAny, finishClosingAt_memOk, finishAt_memOk]
theorem unsplit_memOk (t : Target) (n : Nat) : MemOk (unsplit s t n) := by
  grind [unsplit, foldl_memOk, modDie_memOk, sendHome_memOk, leaveL1_memOk, setCore_memOk]

theorem loadAll_memOk (sp : Span) (items : List (Target × Nat × Word)) {k : Bool → List Byte → State → Res}
    (hk : ∀ d x t, MemOk t → ResOk (k d x t)) :
    ResOk (loadAll s sp items k) := by
  grind [loadAll, closing_memOk, raiseClosing_memOk, sysRead_memOk, raiseHome_memOk, foldl_memOk, loadEffects_memOk,
    unsplit_memOk]

theorem putStores_memOk {old : State} (hold : MemOk old) (sp : Span) (items : List (Target × List Byte)) {k : Bool → State → Res}
    (hk : ∀ d t, MemOk t → ResOk (k d t)) :
    ResOk (putStores old s sp items k) := by
  grind [putStores, closing_memOk, sysWrite_memOk, foldl_memOk, storeNow_memOk, stall_memOk, withStores_memOk]

theorem storeAll_memOk {old : State} (hold : MemOk old) (sp : Span) (trails : List Trail) (items : List (Target × List Byte))
    {k : Bool → State → Res} (hk : ∀ d t, MemOk t → ResOk (k d t)) :
    ResOk (storeAll old s sp trails items k) := by
  grind [storeAll, withTrails_memOk, putStores_memOk]

/-! ### Loads, stores and range operations (`LoadStore`) -/

theorem loadOne_memOk (q : AccReq) (sp : Span) {k : Bool → List Byte → State → Res} (hk : ∀ d x t, MemOk t → ResOk (k d x t)) :
    ResOk (loadOne s q sp k) := by
  grind [loadOne, withAccess_memOk, loadAll_memOk]

theorem storeOf_memOk (q : AccReq) (sp : Span) (bs : List Byte) (trail : Bool) {k : Bool → State → Res}
    (hk : ∀ d t, MemOk t → ResOk (k d t)) :
    ResOk (storeOf s q sp bs trail k) := by
  grind [storeOf, withAccess_memOk, storeAll_memOk]

theorem loadPush_memOk (d : Dest) (f : List Byte → Word) (closing : Bool) (bs : List Byte) :
    ResOk (loadPush d f closing bs s) := by
  grind [loadPush, finishAny_memOk]
theorem storeDone_memOk (closing : Bool) : ResOk (storeDone closing s) := by grind [storeDone, finishAny_memOk]
theorem execLd_memOk (b : Src) (d : Dest) (z : Size) (p : Span) (o : BitVec 11) : ResOk (execLd b d z p o s) := by
  grind [execLd, loadOne_memOk, loadPush_memOk]
theorem execLz_memOk (b : Src) (d : Dest) (z : Size) (p : Span) (o : BitVec 11) : ResOk (execLz b d z p o s) := by
  grind [execLz, loadOne_memOk, loadPush_memOk]
theorem execSt_memOk (b r : Src) (z : Size) (p : Span) (o : BitVec 11) : ResOk (execSt b r z p o s) := by
  grind [execSt, storeOf_memOk, storeDone_memOk]
theorem execStNt_memOk (b r : Src) (z : Size) (o : BitVec 11) : ResOk (execStNt b r z o s) := by
  grind [execStNt, storeOf_memOk, storeDone_memOk]
theorem execLdp_memOk (b : Src) (d : Dest) (p : Span) (o : BitVec 11) : ResOk (execLdp b d p o s) := by
  grind [execLdp, loadOne_memOk, finishAny_memOk]
theorem execStp_memOk (a b c : Src) (o : BitVec 5) : ResOk (execStp a b c o s) := by
  grind [execStp, withAccess_memOk, storeAll_memOk, storeDone_memOk]
theorem prefRegion_memOk (sp : Span) (va lo hi : Nat) : MemOk (prefRegion s sp va lo hi) := by
  grind [prefRegion, claimPin_memOk, claimCp_memOk, throughFilter_memOk, OptOk, askFill_memOk, post_memOk]
theorem execPref_memOk (b l : Src) (p : Span) : ResOk (execPref b l p s) := by
  grind [execPref, finish_memOk, foldl_memOk, prefRegion_memOk]
theorem rangeOp_memOk (b l : Src) (need : Need) {k : Nat → Nat → State → Res} (hk : ∀ n n' t, MemOk t → ResOk (k n n' t)) :
    ResOk (rangeOp s b l need k) := by
  grind [rangeOp, finish_memOk, raise_memOk, raiseHome_memOk, stall_memOk, postOnce_memOk, withAccess_memOk]
theorem execFlush_memOk (b l : Src) : ResOk (execFlush b l s) := by
  grind [execFlush, rangeOp_memOk, withEffect_memOk, finish_memOk]
theorem execClean_memOk (b l : Src) : ResOk (execClean b l s) := by
  grind [execClean, rangeOp_memOk, withEffect_memOk, finish_memOk]
theorem dropClean_memOk (core asid lo hi : Nat) : MemOk (dropClean s core asid lo hi) := by grind [dropClean, cutCopies_memOk]
theorem execInval_memOk (b l : Src) : ResOk (execInval b l s) := by
  grind [execInval, rangeOp_memOk, withEffect_memOk, finish_memOk, modMe_memOk, dropClean_memOk]

/-! ### Deterministic replay (`Replay`) -/

theorem ringBad_memOk (asid arb va : Nat) : MemOk (ringBad s asid arb va) := by grind [ringBad, badEvent_memOk, modArb_memOk]
theorem ringStall_memOk (asid arb : Nat) (replay : Bool) : MemOk (ringStall s asid arb replay) := by
  grind [ringStall, event_memOk, modArb_memOk, ringBad_memOk]
theorem recordWrite_memOk (asid va : Nat) (bs : List Byte) : HwOk (recordWrite s asid va bs) := by
  grind [recordWrite, hwAddr_memOk, HwOk, hwCommit_memOk]
theorem appendRecord_memOk (x : ReplayRec) (arb : Nat) : OptOk (appendRecord s x arb) := by
  grind [appendRecord, OptOk, recordWrite_memOk, HwOk, ringBad_memOk, modArb_memOk]
theorem drainRecords_postInOnce_memOk (d u : Nat) (i : Instr) : MemOk (drainRecords.postInOnce s d u i) := by
  grind [drainRecords.postInOnce, postIn_memOk]

theorem drainRecords_memOk (arb n : Nat) : MemOk (drainRecords s arb n) := by
  induction n generalizing s with
  | zero => exact hs
  | succ n ih => grind [drainRecords, OptOk, appendRecord_memOk, drainRecords_postInOnce_memOk, modArb_memOk]

theorem oweRecord_memOk (arb : Nat) (x : ReplayRec) : MemOk (oweRecord s arb x) := by grind [oweRecord, modArb_memOk]
theorem recordsDue_memOk (cid : Nat) (arbs : List Nat) : MemOk (recordsDue s cid arbs) := by
  grind [recordsDue, foldl_memOk, drainRecords_memOk, modArb_memOk]
theorem withGrant_memOk (arbs : List Nat) (r w : BitVec 1024) {k : State → Res} (hk : ∀ t, MemOk t → ResOk (k t)) :
    ResOk (withGrant s arbs r w k) := by
  grind [withGrant, foldl_memOk, stall_memOk, ringStall_memOk]
theorem recordClosing_memOk (arbs : List Nat) : MemOk (recordClosing s arbs) := by
  grind [recordClosing, foldl_memOk, oweRecord_memOk, drainRecords_memOk]

/-! ### Atomics (`Atomics`) -/

theorem grantedRmw_memOk (t : Target) (n : Nat) (ea : Word) (record : Bool) (f : Nat → Option (List Byte)) {k : Nat → State → Res}
    (hk : ∀ n t, MemOk t → ResOk (k n t)) :
    ResOk (grantedRmw s t n ea record f k) := by
  grind [grantedRmw, closing_memOk, raiseClosing_memOk, withGrant_memOk, gather_memOk, recordClosing_memOk, storeNow_memOk]

theorem execAmo_memOk (a b : Src) (d : Dest) (w : Bool) (o : AmoOp) : ResOk (execAmo a b d w o s) := by
  grind [execAmo, withAccess_memOk, grantedRmw_memOk, finishClosing_memOk, withLoad_memOk, withStores_memOk, finishPush_memOk]
theorem execCas_memOk (a b c : Src) (d : Dest) (w : Bool) : ResOk (execCas a b c d w s) := by
  grind [execCas, withAccess_memOk, grantedRmw_memOk, finishClosing_memOk, withLoad_memOk, withStores_memOk, finish_memOk]
theorem execAmof_memOk (a b : Src) (w : Bool) (o : FarOp) : ResOk (execAmof a b w o s) := by
  grind [execAmof, withAccess_memOk, grantedRmw_memOk, finishClosing_memOk, withEffect_memOk, modMe_memOk, finish_memOk]
theorem execAmor_memOk (a b : Src) (d : Dest) (w : Bool) (o : AmoOp) : ResOk (execAmor a b d w o s) := by
  grind [execAmor, closing_memOk, withClosing_memOk, grantedRmw_memOk, finishClosing_memOk]
theorem execAmorCas_memOk (a b c : Src) (d : Dest) (w : Bool) : ResOk (execAmorCas a b c d w s) := by
  grind [execAmorCas, closing_memOk, withClosing_memOk, grantedRmw_memOk, finishClosing_memOk]

/-! ### What threads, matrix units and copy engines share (`EngineOps`) -/

theorem pend_memOk (l : Nat) (p : Pending) : MemOk (pend s l p) := hs
theorem engineFault_memOk (l : Nat) (badva : Word) (reason detail : Nat) : MemOk (engineFault s l badva reason detail) := hs
theorem engineEvent_memOk (asid : Nat) (w8 : Word) (reason detail : Nat) (msg : List Word) :
    MemOk (engineEvent s asid w8 reason detail msg) := by
  grind [engineEvent, event_memOk]
theorem kick_memOk (cl : Nat) : MemOk (kick s cl) := by grind [kick, foldl_memOk, post_memOk]
theorem wakeCluster_memOk (cl : Nat) : MemOk (wakeCluster s cl) := hs
theorem tileToT_memOk (core tile : Nat) : MemOk (tileToT s core tile) := hs
theorem putRaw_memOk (key : Nat) (bs : List Byte) : MemOk (putRaw s key bs) := memPutAll_wf _ _ _ hs
theorem putRawWord_memOk (key : Nat) (x : Word) : MemOk (putRawWord s key x) := by grind [putRawWord, putRaw_memOk]
theorem barWrite_memOk (key : Nat) (b : Barrier) : MemOk (barWrite s key b) := by grind [barWrite, putRawWord_memOk]
theorem flipBound_memOk (key : Nat) (core : Nat) : MemOk (flipBound key s core) := hs
theorem barSettle_memOk (key : Nat) (b : Barrier) : MemOk (barSettle s key b) := by
  grind [barSettle, foldl_memOk, barWrite_memOk, flipBound_memOk, kick_memOk, wakeCluster_memOk]
theorem barArrive_memOk (key : Nat) : MemOk (barArrive s key).1 := by grind [barArrive, barSettle_memOk]
theorem barExpect_memOk (key e : Nat) : MemOk (barExpect s key e).1 := by grind [barExpect, barSettle_memOk]
theorem barLand_memOk (key : Nat) : MemOk (barLand s key).1 := by grind [barLand, barSettle_memOk, barWrite_memOk]

theorem barLandN_memOk (key n : Nat) : MemOk (barLandN s key n).1 := by
  induction n generalizing s with
  | zero => exact hs
  | succ n ih => grind [barLandN, barLand_memOk]

theorem fifoAdvance_memOk (cl h n : Nat) (write : Bool) : MemOk (fifoAdvance s cl h n write) := by
  grind [fifoAdvance, putRawWord_memOk, kick_memOk, wakeCluster_memOk]
theorem barPtr_memOk (a : Word) (tiles : Bool) (kind : Nat) {k : Nat → Res} (hk : ∀ n, ResOk (k n)) :
    ResOk (barPtr s a tiles kind k) := by
  grind [barPtr, raise_memOk]

/-! ### Waiting, tiles, operand FIFOs and transaction barriers (`Sync`) -/

theorem execWaita_memOk (a b : Src) : ResOk (execWaita a b s) := by
  grind [execWaita, closing_memOk, finishClosing_memOk, modMe_memOk, withClosing_memOk, raiseClosing_memOk, withGrant_memOk,
    recordClosing_memOk, waitHere_memOk]
theorem tilePtr_memOk (a : Word) {k : Nat → Res} (hk : ∀ n, ResOk (k n)) : ResOk (tilePtr s a k) := by
  grind [tilePtr, raise_memOk]
theorem execGive_memOk (a : Src) : ResOk (execGive a s) := by
  grind [execGive, closing_memOk, tilePtr_memOk, raise_memOk, kick_memOk, finishClosing_memOk, modCore_memOk]
theorem execTake_memOk (a : Src) : ResOk (execTake a s) := by
  grind [execTake, closing_memOk, tilePtr_memOk, waitHere_memOk, finishClosing_memOk]
theorem raiseFifo_memOk (reason handle : Nat) : ResOk (raiseFifo s reason handle) := by grind [raiseFifo, raise_memOk]
theorem withFifo_memOk (a b : Src) (consumer adv : Bool) {k : Nat → Nat → Fifo → Res} (hk : ∀ n n' x, ResOk (k n n' x)) :
    ResOk (withFifo s a b consumer adv k) := by
  grind [withFifo, raiseFifo_memOk]
theorem fifoWait_memOk (a b : Src) (d : Dest) (consumer : Bool) : ResOk (fifoWait s a b d consumer) := by
  grind [fifoWait, withFifo_memOk, finishPush_memOk, waitHere_memOk, endChunk_memOk]
theorem execFadv_memOk (a b : Src) : ResOk (execFadv a b s) := by grind [execFadv, withFifo_memOk, withEffect_memOk, finish_memOk]
theorem execFpub_memOk (a b : Src) : ResOk (execFpub a b s) := by grind [execFpub, withFifo_memOk, withEffect_memOk, finish_memOk]
theorem execTbinit_memOk (a b : Src) : ResOk (execTbinit a b s) := by
  grind [execTbinit, barPtr_memOk, raiseFifo_memOk, withStores_memOk, finish_memOk]
theorem execTbarr_memOk (a : Src) : ResOk (execTbarr a s) := by grind [execTbarr, barPtr_memOk, withEffect_memOk, finish_memOk]
theorem execTbexp_memOk (a b : Src) : ResOk (execTbexp a b s) := by
  grind [execTbexp, barPtr_memOk, raiseFifo_memOk, withEffect_memOk, finish_memOk]
theorem execTbwait_memOk (a b : Src) : ResOk (execTbwait a b s) := by
  grind [execTbwait, barPtr_memOk, raiseFifo_memOk, finish_memOk, waitHere_memOk, endChunk_memOk]

/-! ### Queue tables and probes (`Queue`) -/

theorem raiseHeader_memOk (h : Nat) : ResOk (raiseHeader s h) := by grind [raiseHeader, raise_memOk]
theorem raiseQueue_memOk (reason va h : Nat) : ResOk (raiseQueue s reason va h) := by grind [raiseQueue, raiseHome_memOk]
theorem withProbe_memOk (h : Nat) {k : ProbeAnswer → Res} (hk : ∀ x, ResOk (k x)) : ResOk (withProbe s h k) := by
  grind [withProbe, raiseQueue_memOk, ResOk, stallCtx_memOk, post_memOk]

/-! ### Task, message and gang instructions (`Task`) -/

theorem effectDone_memOk (e : Effect) : ResOk (effectDone s e) := by grind [effectDone, withEffect_memOk, finish_memOk]
theorem execSend_memOk (a : Src) : ResOk (execSend a s) := by grind [execSend, raise_memOk, raiseHeader_memOk, effectDone_memOk]
theorem execSendr_memOk (a b : Src) : ResOk (execSendr a b s) := by
  grind [execSendr, raiseHeader_memOk, withProbe_memOk, raiseQueue_memOk, effectDone_memOk]
theorem execEnq_memOk (a : Src) : ResOk (execEnq a s) := by
  grind [execEnq, withProbe_memOk, raiseQueue_memOk, raiseHeader_memOk, effectDone_memOk]
theorem execEnqt_memOk (a b : Src) : ResOk (execEnqt a b s) := by
  grind [execEnqt, raiseHeader_memOk, withProbe_memOk, raiseQueue_memOk, effectDone_memOk]
theorem deqWait_memOk {t : State} (ht : MemOk t) (grain desc : Nat) : ResOk (deqWait s t grain desc) := by
  grind [deqWait, waitHere_memOk, modMe_memOk, postIn_memOk, endChunk_memOk]
theorem deqTake_memOk {t : State} (ht : MemOk t) (d : Dest) (ws : List Word) (n : Nat) (msg : List Word) (slot index : AccReq) :
    ResOk (deqTake s t d ws n msg slot index) := by
  grind [deqTake, withAccesses_memOk, putStores_memOk, finishAny_memOk]
theorem execDeq_memOk (a : Src) (d : Dest) : ResOk (execDeq a d s) := by
  grind [execDeq, withProbe_memOk, raiseQueue_memOk, withAccess_memOk, loadAll_memOk, deqWait_memOk, deqTake_memOk]
theorem execSpawn_memOk : ResOk (execSpawn s) := by grind [execSpawn, raiseHeader_memOk, effectDone_memOk]
theorem execJinit_memOk (a b : Src) : ResOk (execJinit a b s) := by
  grind [execJinit, raise_memOk, withAccess_memOk, putStores_memOk, storeDone_memOk]

omit hs in
theorem retireAfter_memOk {old s : State} (ho : MemOk old) (hs : MemOk s) (r : Retire) {extra : State → (State → Res) → Res}
    (he : ∀ t k, MemOk t → (∀ u, MemOk u → ResOk (k u)) → ResOk (extra t k)) :
    ResOk (retireAfter old s r extra) :=
  withEffect_memOk hs ho _ fun _ ht => he _ _ ht fun _ hu => hu

theorem execDoneP_memOk : ResOk (execDoneP s) := by grind [execDoneP, retireAfter_memOk]
theorem execDoneJ_memOk (a : Src) : ResOk (execDoneJ a s) := by grind [execDoneJ, withAccess_memOk, retireAfter_memOk]
theorem execDoneT_memOk (a : Src) : ResOk (execDoneT a s) := by
  grind [execDoneT, withAccess_memOk, retireAfter_memOk, putStores_memOk]
theorem execDoneF_memOk (a : Src) : ResOk (execDoneF a s) := by grind [execDoneF, retireAfter_memOk]
theorem pauseIssue_memOk (l : Nat) : MemOk (pauseIssue s l) := by grind [pauseIssue, modCtx_memOk, post_memOk, postIn_memOk]
theorem execYieldC_memOk : ResOk (execYieldC s) := by grind [execYieldC, ResOk, pauseIssue_memOk, modMe_memOk, endChunkOf_memOk]
theorem execRread_memOk (a : Src) (d : Dest) (z : Size) : ResOk (execRread a d z s) := by
  grind [execRread, closing_memOk, raise_memOk, withGrant_memOk, finishClosing_memOk, recordClosing_memOk]
theorem execLaunch_memOk (a : Src) : ResOk (execLaunch a s) := by
  grind [execLaunch, withAccess_memOk, raiseHome_memOk, withEffect_memOk, finish_memOk]
theorem arriveBar_memOk (band : Bool) : ResOk (arriveBar s band) := by
  grind [arriveBar, endChunk_memOk, finish_memOk, modMe_memOk, waitHere_memOk, post_memOk]
theorem execBar_memOk : ResOk (execBar s) := by grind [execBar, raiseIllegal_memOk, arriveBar_memOk]
theorem execBarb_memOk : ResOk (execBarb s) := by grind [execBarb, raiseIllegal_memOk, arriveBar_memOk]
theorem execQmap_memOk (a b : Src) : ResOk (execQmap a b s) := by
  grind [execQmap, raisePriv_memOk, raiseQueue_memOk, hwAddr_memOk, stall_memOk, HwOk, withEffect_memOk, finish_memOk]

/-! ### Choice points and the spoor (`Search`) -/

theorem searchRead_memOk (va : Word) {k : Bool → Word → State → Res} (hk : ∀ d w t, MemOk t → ResOk (k d w t)) :
    ResOk (searchRead s va k) := by
  grind [searchRead, loadOne_memOk]

theorem searchTargets_memOk (items : List (Word × Word)) {k : List (Target × List Byte) → State → Res}
    (hk : ∀ x t, MemOk t → ResOk (k x t)) :
    ResOk (searchTargets s items k) := by
  grind [searchTargets, withAccesses_memOk]

theorem searchList_memOk (xs ys : List Word) {k : List Word → State → Res} (hk : ∀ x t, MemOk t → ResOk (k x t)) :
    ResOk (searchList s xs ys k) := by
  induction xs generalizing s ys with
  | nil => exact hk _ _ hs
  | cons x xs ih => grind [searchList, searchRead_memOk]

theorem searchDone_memOk (closing : Bool) (r : Regs) (pc choice spoor : Word) :
    ResOk (searchDone closing s r pc choice spoor) := by
  grind [searchDone, finishAny_memOk, modMe_memOk]
theorem failGoesOn_memOk (r : Regs) (choice spoor : Word) : ResOk (failGoesOn s r choice spoor) := hs
theorem failEmpty_memOk {old : State} (hold : MemOk old) (r : Regs) (choice : Word) : ResOk (failEmpty old s r choice) := by
  grind [failEmpty, modMe_memOk, finishAt_memOk, retireAfter_memOk]
theorem failStep_memOk (asTry : Bool) : ResOk (failStep s asTry) := by
  grind [failStep, failEmpty_memOk, searchRead_memOk, searchList_memOk, searchTargets_memOk, putStores_memOk, failGoesOn_memOk,
    searchDone_memOk]
theorem tryStep_memOk (a : Src) (o : BitVec 15) (stealable : Bool) : ResOk (tryStep s a o stealable) := by
  grind [tryStep, failStep_memOk, raise_memOk, searchRead_memOk, searchTargets_memOk, putStores_memOk, searchDone_memOk,
    modMe_memOk]

theorem cutScan_memOk (base : Word) (d n : Nat) (acc : List (Target × List Byte)) {k : List (Target × List Byte) → State → Res}
    (hk : ∀ x t, MemOk t → ResOk (k x t)) :
    ResOk (cutScan s base d n acc k) := by
  induction n generalizing s acc with
  | zero => exact hk _ _ hs
  | succ n ih => grind [cutScan, searchRead_memOk, searchTargets_memOk]

theorem cutTo_memOk (d : Nat) {k : Bool → State → Res} (hk : ∀ d t, MemOk t → ResOk (k d t)) : ResOk (cutTo s d k) := by
  grind [cutTo, cutScan_memOk, putStores_memOk, modMe_memOk]
theorem execCut_memOk (a : Src) : ResOk (execCut a s) := by grind [execCut, cutTo_memOk, finishAny_memOk]
theorem execTrail_memOk (a : Src) (z : Size) : ResOk (execTrail a z s) := by
  grind [execTrail, finish_memOk, withAccess_memOk, storeAll_memOk, storeDone_memOk]

/-! ### Matrix-context instructions (`MatrixContext`) -/

theorem onMDie_memOk {k : Res} (hk : ResOk k) : ResOk (onMDie s k) := by grind [onMDie, raiseIllegal_memOk]
theorem execMfmt_memOk (i : BitVec 15) : ResOk (execMfmt i s) := by grind [execMfmt, onMDie_memOk, effectDone_memOk]
theorem execMscl_memOk (a : Src) (n : Fin 8) : ResOk (execMscl a n s) := by grind [execMscl, onMDie_memOk, effectDone_memOk]
theorem execMtick_memOk (d : Dest) : ResOk (execMtick d s) := by grind [execMtick, finishPush_memOk, onMDie_memOk]
theorem execMresume_memOk (a : Src) : ResOk (execMresume a s) := by
  grind [execMresume, onMDie_memOk, effectDone_memOk, raise_memOk]
theorem execAccspill_memOk (a b : Src) : ResOk (execAccspill a b s) := by
  grind [execAccspill, onMDie_memOk, raisePriv_memOk, raise_memOk, effectDone_memOk, withAccess_memOk, withEffect_memOk,
    finish_memOk]

/-! ### Scalar floating point (`Float`) -/

theorem finishFp_memOk (d : Dest) (x : Nat) (f : Flags) : ResOk (finishFp s d x f) := hs
theorem setRng_memOk (core : Nat) (x : Word) : MemOk (setRng s core x) := hs
theorem execFcvt_memOk (a : Src) (d : Dest) (t s' : STy) : ResOk (execFcvt a d t s' s) := by
  grind [execFcvt, finishFp_memOk, setRng_memOk]

/-! ### System instructions (`System`) -/

theorem execBrk_memOk : ResOk (execBrk s) := by grind [execBrk, endChunk_memOk, ResOk, modCore_memOk, raiseOwn_memOk]
theorem execEret_memOk : ResOk (execEret s) := by
  grind [execEret, raisePriv_memOk, closing_memOk, ResOk, dropHeld_memOk, modMe_memOk, hwRead_memOk, stall_memOk, HwOk,
    raiseMcheck_memOk]
theorem execCrd_memOk (r : BitVec 5) (d : Dest) : ResOk (execCrd r d s) := by
  grind [execCrd, raiseIllegal_memOk, raisePriv_memOk, finishPush_memOk]
theorem execCwr_memOk (a : Src) (r : BitVec 5) : ResOk (execCwr a r s) := by
  grind [execCwr, raiseIllegal_memOk, raisePriv_memOk, closing_memOk, finishClosing_memOk, setRng_memOk, modMe_memOk]
theorem opRange_memOk (a b : Src) {k : Nat → Nat → Res} (hk : ∀ n n', ResOk (k n n')) : ResOk (opRange s a b k) := by
  grind [opRange, raise_memOk]
theorem execTinv_memOk (a b : Src) : ResOk (execTinv a b s) := by
  grind [execTinv, raisePriv_memOk, closing_memOk, MemOk, finishClosing_memOk, opRange_memOk, foldl_memOk, stall_memOk,
    post_memOk]
theorem execRmode_memOk (a b : Src) (m : CMode) : ResOk (execRmode a b m s) := by
  grind [execRmode, raisePriv_memOk, closing_memOk, MemOk, finishClosing_memOk, opRange_memOk, raiseClosing_memOk, stall_memOk,
    postOnce_memOk, foldl_memOk, post_memOk]
theorem execCtxsave_memOk (a : Src) : ResOk (execCtxsave a s) := by
  grind [execCtxsave, raisePriv_memOk, closing_memOk, withClosing_memOk, hwRead_memOk, stall_memOk, HwOk, raiseMcheck_memOk,
    storeNow_memOk, finishClosing_memOk]
theorem storeNamed_memOk (t : Target) (bs : List Byte) : MemOk (storeNamed s t bs) := by
  grind [storeNamed, crcClosing_memOk, hwCommit_memOk]
theorem execCtxload_memOk (a : Src) : ResOk (execCtxload a s) := by
  grind [execCtxload, raisePriv_memOk, closing_memOk, withClosing_memOk, raiseClosing_memOk, finishClosingAt_memOk,
    storeNamed_memOk, modMe_memOk, modFox_memOk, stall_memOk]
theorem execPre_memOk (a : Src) : ResOk (execPre a s) := by
  grind [execPre, raisePriv_memOk, closing_memOk, finishClosing_memOk, post_memOk]

/-! ### Vector instructions (`Vector`) -/

theorem finishVec_memOk (d : Fin 32) (v : BitVec 512) (f : Flags) : ResOk (finishVec s d v f) := hs
theorem finishMask_memOk (d : Fin 8) (x : Word) (f : Flags) : ResOk (finishMask s d x f) := hs
theorem vecLoad_memOk (d : Fin 32) (m : Fin 8) (p : Span) (n align : Nat) (ea : Nat → Word) :
    ResOk (vecLoad s d m p n align ea) := by
  grind [vecLoad, withAccesses_memOk, loadAll_memOk, finishAny_memOk]
theorem vecStore_memOk (d : Fin 32) (m : Fin 8) (p : Span) (n align : Nat) (whole : Bool) (ea : Nat → Word) :
    ResOk (vecStore s d m p n align whole ea) := by
  grind [vecStore, withAccesses_memOk, storeAll_memOk, storeDone_memOk]
theorem vTwo_memOk (op : VOp) (d a b : Fin 32) (m : Fin 8) (t : ATy) : ResOk (vTwo op d a b m t s) := by
  grind [vTwo, raiseIllegal_memOk, finishVec_memOk]
theorem execVcmp_memOk (d : Fin 8) (a b : Fin 32) (m : Fin 8) (c : Cc) (t : ATy) : ResOk (execVcmp d a b m c t s) := by
  grind [execVcmp, raiseIllegal_memOk, finishMask_memOk]
theorem execVext_memOk (d : Dest) (a : Fin 32) (i : BitVec 6) (t : ATy) : ResOk (execVext d a i t s) := by
  grind [execVext, raiseIllegal_memOk, finishPush_memOk]
theorem execVins_memOk (d : Fin 32) (a : Src) (i : BitVec 6) (t : ATy) : ResOk (execVins d a i t s) := by
  grind [execVins, raiseIllegal_memOk, finishVec_memOk]
theorem finishDraw_memOk (rng : Word) (d : Fin 32) (v : BitVec 512) (f : Flags) : ResOk (finishDraw s rng d v f) := by
  grind [finishDraw, finishVec_memOk, setRng_memOk]
theorem vConvert_memOk (d a : Fin 32) (m : Fin 8) (dst sr : ETy) : ResOk (vConvert s d a m dst sr) := by
  grind [vConvert, finishVec_memOk, finishDraw_memOk]
theorem execVcvt_memOk (d a : Fin 32) (sr : ETy) (m : Fin 8) (t : ETy) : ResOk (execVcvt d a sr m t s) := by
  grind [execVcvt, raiseIllegal_memOk, vConvert_memOk]
theorem vQuant_memOk (d a : Fin 32) (m : Fin 8) (dst sr : ETy) (n : Nat) : ResOk (vQuant s d a m dst sr n) := by
  grind [vQuant, raiseIllegal_memOk, finishDraw_memOk, vConvert_memOk]
theorem execVdq_memOk (d a : Fin 32) (sr : ETy) (m : Fin 8) (t : ETy) : ResOk (execVdq d a sr m t s) := by
  grind [execVdq, raiseIllegal_memOk, finishDraw_memOk, vConvert_memOk]
theorem vHad_memOk (d a : Fin 32) (t : ETy) (n : Nat) : ResOk (vHad s d a t n) := by
  grind [vHad, raiseIllegal_memOk, finishDraw_memOk]
theorem execVdot_memOk (d a b : Fin 32) (m : Fin 8) (t : ETy) : ResOk (execVdot d a b m t s) := by
  grind [execVdot, raiseIllegal_memOk, finishVec_memOk]

/-! ### Matrix commands (`Matrix`) -/

theorem zeroTile_memOk (core : Nat) (c : Cmd) : MemOk (zeroTile s core c) := by grind [zeroTile, putRaw_memOk]
theorem mmaStep_memOk (core : Nat) (c : Cmd) (b : Nat) : MemOk (mmaStep s core c b) := by grind [mmaStep, putRaw_memOk]
theorem loadRow_memOk (core : Nat) (c : Cmd) (r : Nat) : MemOk (loadRow s core c r) := by grind [loadRow, putRaw_memOk]

/-! ### Global memory seen from the engines (`Engines`) -/

theorem engineAddr_memOk (asid va : Nat) (write : Bool) : HwOk (engineAddr s asid va write) := by
  grind [engineAddr, hwAddr_memOk, HwOk]
theorem namedAddr_memOk (asid va n : Nat) (write : Bool) : HwOk (namedAddr s asid va n write) := by
  grind [namedAddr, engineAddr_memOk, HwOk, throughFilter_memOk, OptOk]

theorem askNames_memOk (asid : Nat) (write : Bool) (xs : List (Nat × Nat)) : MemOk (askNames s asid write xs) := by
  induction xs generalizing s with
  | nil => exact hs
  | cons x xs ih => grind [askNames, HwOk, OptOk, engineAddr_memOk, throughFilter_memOk]

theorem readPieces_memOk (named : Bool) (asid : Nat) (xs : List (Nat × Nat)) (acc : List Byte) :
    HwOk (readPieces s named asid xs acc) := by
  induction xs generalizing s acc with
  | nil => exact hs
  | cons x xs ih => grind [readPieces, HwOk, namedAddr_memOk, engineAddr_memOk]

theorem engineRead_memOk (asid va n : Nat) : HwOk (engineRead s asid va n) := by grind [engineRead, readPieces_memOk]
theorem recordRead_memOk (asid va n : Nat) : HwOk (recordRead s asid va n) := by grind [recordRead, readPieces_memOk]
theorem engineCommitFor_memOk (asid va pa : Nat) (bs : List Byte) (core pid barrier : Option Nat) :
    MemOk (engineCommitFor s asid va pa bs core pid barrier) := hs

theorem engineWrite_memOk (asid : Nat) (core pid barrier : Option Nat) (xs : List (Nat × Nat)) (bs : List Byte) (n : Nat) :
    HwOk (engineWrite s asid core pid barrier xs bs n) := by
  induction xs generalizing s bs n with
  | nil => exact hs
  | cons x xs ih => grind [engineWrite, HwOk, namedAddr_memOk, engineCommitFor_memOk]

theorem modSaved_memOk (p : Saved → Bool) (f : Saved → Saved) : MemOk (modSaved s p f) := hs
theorem pendIssuer_memOk (t : AccTag) (p : Pending) : MemOk (pendIssuer s t p) := by
  grind [pendIssuer, pend_memOk, modSaved_memOk]
theorem cmdFaulted_memOk (c : Cmd) (reason detail : Nat) : MemOk (cmdFaulted s c reason detail) := by
  grind [cmdFaulted, pendIssuer_memOk]
theorem modIssuerMask_memOk (t : AccTag) (f : BitVec 16 → BitVec 16) : MemOk (modIssuerMask s t f) := by
  grind [modIssuerMask, modCtx_memOk, modSaved_memOk]
theorem setTag_memOk (cl t : Nat) (x : Option AccTag) : MemOk (setTag s cl t x) := hs
theorem setStop_memOk (core : Nat) (q : QueueStop) : MemOk (setStop s core q) := by
  unfold setStop
  grind [putRawWord_memOk, modCore_memOk]
theorem restart_memOk (core : Nat) : MemOk (restart s core) := by grind [restart, setStop_memOk, kick_memOk]

theorem spillPieces_memOk (asid : Nat) (xs : List (Nat × Nat)) (bs : List Byte) : OptFstOk (spillPieces s asid xs bs) := by
  induction xs generalizing s bs with
  | nil => exact hs
  | cons x xs ih => grind [spillPieces, HwOk, OptFstOk, engineAddr_memOk, hwCommit_memOk]

theorem spillTo_memOk (cl t asid va : Nat) (g : AccTag) : OptOk (spillTo s cl t asid va g) := by
  grind [spillTo, OptOk, spillPieces_memOk, OptFstOk, setTag_memOk, engineEvent_memOk]
theorem spillTile_memOk (cl t : Nat) : OptOk (spillTile s cl t) := by grind [spillTile, OptOk, spillTo_memOk]
theorem spillAll_memOk (cl asid : Nat) (image : Word) (p : AccTag → Bool) : OptOk (spillAll s cl asid image p) := by
  grind [spillAll, OptOk, foldl_optOk, spillTo_memOk]
theorem acceptOne_memOk (core l n : Nat) : MemOk (acceptOne s core l n) := by
  grind [acceptOne, MemOk, modCore_memOk, cmdFaulted_memOk]
theorem tailStore_memOk (core l : Nat) (t : Word) : MemOk (tailStore s core l t) := by
  grind [tailStore, foldl_memOk, putRawWord_memOk, kick_memOk, acceptOne_memOk, engineFault_memOk]
theorem engineStore_memOk (l off : Nat) (bs : List Byte) : MemOk (engineStore s l off bs) := by
  grind [engineStore, engineFault_memOk, putRaw_memOk, tailStore_memOk, kick_memOk, wakeCluster_memOk]
theorem popCmd_memOk (core : Nat) : MemOk (popCmd s core) := by grind [popCmd, modCluster_memOk, putRawWord_memOk, modCore_memOk]
theorem flipTiles_memOk (core : Nat) (tiles : List Nat) : MemOk (flipTiles s core tiles) := by
  grind [flipTiles, foldl_memOk, tileToT_memOk]
theorem retireRefused_memOk (core : Nat) (c : Cmd) : MemOk (retireRefused s core c) := by
  grind [retireRefused, flipTiles_memOk, popCmd_memOk, kick_memOk, wakeCluster_memOk]
theorem faultCmd_memOk (core : Nat) (c : Cmd) (reason detail : Nat) : MemOk (faultCmd s core c reason detail) := by
  grind [faultCmd, cmdFaulted_memOk, retireRefused_memOk]

/-! ### Steps of the matrix unit (`MatrixUnit`) -/

theorem setHeadCmd_memOk (core : Nat) (c : Cmd) : MemOk (setHeadCmd s core c) := hs
theorem ownedStop_memOk (core : Nat) (c : Cmd) (t : Nat) (old : AccTag) : MemOk (ownedStop s core c t old) := by
  grind [ownedStop, setStop_memOk, postOnce_memOk, pendIssuer_memOk]
theorem takeTile_memOk (core : Nat) (c : Cmd) (t : Nat) : HwOk (takeTile s core c t) := by
  grind [takeTile, HwOk, engineRead_memOk, modIssuerMask_memOk, putRaw_memOk, setTag_memOk]

theorem takeTiles_memOk (core : Nat) (c : Cmd) (xs : List Nat) : HwOk (takeTiles s core c xs) := by
  induction xs generalizing s with
  | nil => exact hs
  | cons x xs ih => grind [takeTiles, HwOk, takeTile_memOk]

theorem untakeTiles_memOk (old : State) (cl : Nat) (g : AccTag) (tiles : List Nat) : MemOk (untakeTiles old s cl g tiles) := by
  grind [untakeTiles, foldl_memOk, modIssuerMask_memOk, putRaw_memOk, setTag_memOk]
theorem askImages_memOk (c : Cmd) (tiles : List Nat) : MemOk (askImages s c tiles) := by
  grind [askImages, foldl_memOk, askNames_memOk]
theorem issueCmd_memOk (core : Nat) (c : Cmd) (again : Instr) : MemOk (issueCmd s core c again) := by
  grind [issueCmd, faultCmd_memOk, postIn_memOk, ownedStop_memOk, takeTiles_memOk, askImages_memOk, HwOk, untakeTiles_memOk,
    setHeadCmd_memOk, modCluster_memOk, post_memOk]
theorem stepDone_memOk (core : Nat) (c : Cmd) (again : Instr) : MemOk (stepDone s core c again) := by
  grind [stepDone, setHeadCmd_memOk, post_memOk]
theorem matrixStep_memOk (op : Nat) {run : State → Nat → Cmd → State} (hrun : ∀ t n x, MemOk t → MemOk (run t n x)) :
    MemOk (matrixStep s op run) := by
  grind [matrixStep, retireRefused_memOk, issueCmd_memOk, faultCmd_memOk]
theorem execMma_memOk : ResOk (execMma s) := by grind [execMma, ResOk, matrixStep_memOk, stepDone_memOk, mmaStep_memOk]
theorem execMmaz_memOk : ResOk (execMmaz s) := by
  grind [execMmaz, ResOk, matrixStep_memOk, stepDone_memOk, zeroTile_memOk, mmaStep_memOk]
theorem execMload_memOk : ResOk (execMload s) := by grind [execMload, ResOk, matrixStep_memOk, stepDone_memOk, loadRow_memOk]
theorem storeGlobal_memOk (core : Nat) (c : Cmd) (row : List Byte × List Byte) : MemOk (storeGlobal s core c row) := by
  grind [storeGlobal, engineWrite_memOk, askNames_memOk, postIn_memOk, HwOk, faultCmd_memOk, stepDone_memOk]
theorem execMstore_memOk : ResOk (execMstore s) := by
  grind [execMstore, ResOk, matrixStep_memOk, storeGlobal_memOk, stepDone_memOk, putRaw_memOk]
theorem execMzero_memOk : ResOk (execMzero s) := by grind [execMzero, ResOk, matrixStep_memOk, stepDone_memOk, zeroTile_memOk]
theorem execMfence_memOk : ResOk (execMfence s) := by grind [execMfence, ResOk, matrixStep_memOk, stepDone_memOk]
theorem completeCmd_memOk (core : Nat) (c : Cmd) : MemOk (completeCmd s core c) := by
  grind [completeCmd, kick_memOk, wakeCluster_memOk, MemOk, barArrive_memOk, foldl_memOk, popCmd_memOk, modCtx_memOk,
    fifoAdvance_memOk, modIssuerMask_memOk, setTag_memOk, cmdFaulted_memOk, modSaved_memOk, flipTiles_memOk]
theorem execCommandComplete_memOk : ResOk (execCommandComplete s) := by grind [execCommandComplete, ResOk, completeCmd_memOk]
theorem restartOwned_memOk (cl : Nat) : MemOk (restartOwned s cl) := by
  grind [restartOwned, foldl_memOk, kick_memOk, restart_memOk]
theorem spillFor_memOk (cl : Nat) (x : AccSpill) : OptOk (spillFor s cl x) := by
  grind [spillFor, OptOk, setTag_memOk, spillTo_memOk]
theorem execAccWriteback_memOk (cl tile : Nat) : ResOk (execAccWriteback cl tile s) := by
  grind [execAccWriteback, ResOk, postIn_memOk, spillFor_memOk, OptOk, modCluster_memOk, restartOwned_memOk, spillTile_memOk]
theorem accspillAt_memOk (l tile : Nat) (va : Word) : MemOk (accspillAt s l tile va) := hs
theorem issuerRetired_memOk (core : Nat) : MemOk (issuerRetired s core) := by grind [issuerRetired, postOnce_memOk, restart_memOk]
theorem hangQueue_memOk (l : Nat) : MemOk (hangQueue s l) := by
  grind [hangQueue, modCore_memOk, kick_memOk, post_memOk, restart_memOk]

/-! ### Rings, mailboxes and deques (`Rings`) -/

theorem repost_memOk (d u : Nat) (i : Instr) : MemOk (repost s d u i) := hs
theorem accepted_memOk (loc : Option Nat) : MemOk (accepted s loc) := by
  unfold accepted
  grind [modCtx_memOk]
theorem holdEntry_memOk (l : Nat) : MemOk (holdEntry s l) := hs
theorem overflowWrite_memOk (base slot : Nat) (h : Held) : MemOk (overflowWrite s base slot h) := by
  grind [overflowWrite, commitBytes_memOk]
theorem mailboxPut_memOk (core : Nat) (h : Held) : OptOk (mailboxPut s core h) := by
  grind [mailboxPut, OptOk, modCore_memOk, overflowWrite_memOk]
theorem mailboxTake_memOk (core i : Nat) : MemOk (mailboxTake s core i) := hs
theorem dequePut_memOk (core : Nat) (h : Held) : OptOk (dequePut s core h) := by
  grind [dequePut, OptOk, modCore_memOk, foldl_memOk, overflowWrite_memOk]
theorem spawnPush_memOk (core : Nat) (loc : Option Nat) (h : Held) : MemOk (spawnPush s core loc h) := by
  grind [spawnPush, dequePut_memOk, OptOk, accepted_memOk, modCore_memOk]

theorem spawnEnter_memOk (core : Nat) (xs : List (Option Nat × Held)) : MemOk (spawnEnter core s xs) := by
  induction xs generalizing s with
  | nil => exact modCore_memOk hs _ _
  | cons x xs ih => grind [spawnEnter, OptOk, accepted_memOk, dequePut_memOk, modCore_memOk]

theorem spawnRefill_memOk (core : Nat) : MemOk (spawnRefill s core) := by grind [spawnRefill, spawnEnter_memOk]
theorem dequeTake_memOk (core i : Nat) : MemOk (dequeTake s core i) := hs
theorem ringHead_memOk (asid desc : Nat) (ws : List Word) : HwOk (ringHead s asid desc ws) := by
  grind [ringHead, hwRead_memOk, HwOk]
theorem dropHead_memOk (asid h : Nat) : MemOk (dropHead s asid h) := hs
theorem addHead_memOk (die : Nat) (x : Head) : MemOk (addHead s die x) := hs
theorem displace_memOk (die : Nat) (x : Head) : MemOk (displace s die x) := by grind [displace, addHead_memOk]
theorem putHead_memOk (die : Nat) (x : Head) : MemOk (putHead s die x) := by
  grind [putHead, dropHead_memOk, addHead_memOk, modDie_memOk, displace_memOk]
theorem touchHead_memOk (asid h : Nat) : MemOk (touchHead s asid h) := hs
theorem modHead_memOk (asid h : Nat) (f : Head → Head) : MemOk (modHead s asid h f) := hs
theorem dropDelivery_memOk (id : Nat) (d : Delivery) : MemOk (dropDelivery s id d) := by
  grind [dropDelivery, accepted_memOk, modFox_memOk]
theorem lostEvent_memOk (asid : Nat) : MemOk (lostEvent s asid) := hs
theorem failDelivery_memOk (id : Nat) (d : Delivery) (reason va h : Nat) : MemOk (failDelivery s id d reason va h) := by
  grind [failDelivery, dropDelivery_memOk, lostEvent_memOk, badEvent_memOk]
theorem missOnce_memOk (die asid h : Nat) : MemOk (missOnce s die asid h) := by grind [missOnce, post_memOk]
theorem missFailed_memOk (asid h reason va : Nat) : MemOk (missFailed s asid h reason va) := by
  grind [missFailed, MemOk, foldl_memOk, failDelivery_memOk]
theorem execQueueMiss_memOk (die asid h : Nat) : ResOk (execQueueMiss die asid h s) := by
  grind [execQueueMiss, ResOk, repost_memOk, putHead_memOk, missFailed_memOk]
theorem execQueueProbe_memOk : ResOk (execQueueProbe s) := by
  grind [execQueueProbe, repost_memOk, missOnce_memOk, ResOk, touchHead_memOk, modMe_memOk]
theorem announce_memOk (asid : Nat) : MemOk (announce s asid) := by grind [announce, modIo_memOk, post_memOk]
theorem slotFree_memOk (asid desc n count : Nat) : HwOk (slotFree s asid desc n count) := by grind [slotFree, hwRead_memOk, HwOk]
theorem deliverSlot_memOk (id n : Nat) (d : Delivery) : MemOk (deliverSlot s id n d) := by
  grind [deliverSlot, slotFree_memOk, repost_memOk, HwOk, failDelivery_memOk, postIn_memOk, hwWrite_memOk, dropDelivery_memOk,
    announce_memOk, modHead_memOk]
theorem deliveryStep_memOk (id : Nat) (d : Delivery) : MemOk (deliveryStep s id d) := by
  grind [deliveryStep, deliverSlot_memOk, repost_memOk, missOnce_memOk, failDelivery_memOk, hwRead_memOk, HwOk, post_memOk,
    modFox_memOk, touchHead_memOk, hwUpdate_memOk, postIn_memOk]
theorem execRingDelivery_memOk : ResOk (execRingDelivery s) := by grind [execRingDelivery, ResOk, deliveryStep_memOk]
theorem readAgain_memOk (x : Head) : MemOk (readAgain s x) := by grind [readAgain, postIn_memOk]
theorem headWaits_memOk (x : Head) : MemOk (headWaits s x) := by grind [headWaits, readAgain_memOk, modHead_memOk, postIn_memOk]
theorem headEmpty_memOk (x : Head) : MemOk (headEmpty s x) := by grind [headEmpty, modHead_memOk, readAgain_memOk]
theorem headTook_memOk (asid h : Nat) : MemOk (headTook s asid h) := hs
theorem freeSlot_memOk (asid desc : Nat) (ws : List Word) (n : Nat) (w0 : Word) : HwOk (freeSlot s asid desc ws n w0) := by
  grind [freeSlot, hwWrite_memOk, HwOk]
theorem execRingRetry_memOk : ResOk (execRingRetry s) := by
  grind [execRingRetry, ResOk, deliveryStep_memOk, drainRecords_memOk, ringHead_memOk, HwOk, headWaits_memOk, modHead_memOk,
    headEmpty_memOk, readAgain_memOk, repost_memOk]
theorem execQueueStall_memOk : ResOk (execQueueStall s) := by
  grind [execQueueStall, ResOk, modFox_memOk, event_memOk, modMe_memOk, repost_memOk]
theorem execMailboxDelivery_memOk (core asid : Nat) (msg : List Word) : ResOk (execMailboxDelivery core asid msg s) := by
  grind [execMailboxDelivery, ResOk, badEvent_memOk, accepted_memOk, mailboxPut_memOk, OptOk, repost_memOk]

/-! ### What leaves a core at its commit (R97) (`Effects`) -/

theorem fifoMove_memOk (l h n : Nat) (write : Bool) : MemOk (fifoMove s l h n write) := by
  grind [fifoMove, fifoAdvance_memOk, engineFault_memOk]
theorem barFault_memOk (l : Nat) (va : Word) : MemOk (barFault s l va) := hs
theorem launchAccept_memOk (asid : Nat) (va : Word) : OptOk (launchAccept s asid va) := by
  grind [launchAccept, OptOk, hwRead_memOk, HwOk, badEvent_memOk, modFox_memOk]
theorem sendToQueue_memOk (l h : Nat) (route : Option (Nat × Nat)) (msg : List Word) : MemOk (sendToQueue s l h route msg) := hs
theorem qmapAt_memOk (asid h : Nat) (desc : Word) : OptOk (qmapAt s asid h desc) := by
  grind [qmapAt, OptOk, hwChange_memOk, dropHead_memOk, HwOk, badEvent_memOk, hwWrite_memOk]

theorem applyEffect_memOk (l : Nat) (e : Effect) : OptOk (applyEffect s l e) := by
  unfold applyEffect
  grind [OptOk, engineStore_memOk, modCore_memOk, restart_memOk, accspillAt_memOk, fifoMove_memOk, barArrive_memOk,
    barFault_memOk, barExpect_memOk, qmapAt_memOk, post_memOk, holdEntry_memOk, sendToQueue_memOk, spawnPush_memOk,
    launchAccept_memOk]

theorem applyEffects_memOk (l : Nat) (es : List Effect) : OptOk (applyEffects s l es) := by
  grind [applyEffects, OptOk, foldl_optOk, applyEffect_memOk]
theorem leaveSlot_memOk (asid lo hi : Nat) : MemOk (leaveSlot s asid lo hi) := hs
theorem groupThreadDone_memOk (l lid g dup : Nat) (crc : BitVec 64) : MemOk (groupThreadDone s l lid g dup crc) := by
  grind [groupThreadDone, modFox_memOk, post_memOk]
theorem leaveGang_memOk (u : UnitInfo) : MemOk (leaveGang s u) := by grind [leaveGang, post_memOk, modFox_memOk]
theorem modTask_memOk (asid h stamp slot : Nat) (f : OTask → Option OTask) : MemOk (modTask s asid h stamp slot f) := hs
theorem leaveDomain_memOk (asid : Nat) (o : Option (Nat × Nat × Nat)) : MemOk (leaveDomain s asid o) := by
  unfold leaveDomain
  grind [modTask_memOk]
theorem taskBegun_memOk (l : Nat) : MemOk (taskBegun s l) := by grind [taskBegun, modTask_memOk]

theorem retireThread_memOk (l : Nat) (r : Retire) : MemOk (retireThread s l r) := by
  unfold retireThread
  grind [leaveSlot_memOk, groupThreadDone_memOk, leaveDomain_memOk, issuerRetired_memOk, leaveGang_memOk, setCtx_memOk,
    modFox_memOk, post_memOk, event_memOk]

theorem registerAt_memOk (l seq : Nat) (tries : List Nat) : MemOk (registerAt s l seq tries) := hs

theorem cutAll_memOk (asid base n : Nat) : OptOk (cutAll s asid base n) := by
  induction n generalizing s with
  | zero => exact hs
  | succ n ih => grind [cutAll, HwOk, OptOk, hwChange_memOk, hwRead_memOk]

theorem pruneThread_memOk (l : Nat) : OptOk (pruneThread s l) := by
  grind [pruneThread, OptOk, cutAll_memOk, modCtx_memOk, retireThread_memOk]
theorem commitTail_memOk (l seq : Nat) : OptOk (commitTail s l seq) := by
  grind [commitTail, OptOk, modCtx_memOk, pruneThread_memOk, registerAt_memOk]
theorem committed_memOk (l seq : Nat) (tries : List Nat) : MemOk (committed s l seq tries) := by
  grind [committed, commitTail_memOk, taskBegun_memOk, registerAt_memOk, OptOk, modCtx_memOk]

/-! ### The pieces of a chunk's commit (`Commit`) -/

theorem writeBackRange_memOk (core asid lo hi : Nat) (drop : Bool) (u : CacheUnit) :
    MemOk (writeBackRange s core asid lo hi drop u).1 := by
  grind [writeBackRange, MemOk, giveUp_memOk, foldl_memOk, modDie_memOk, modCore_memOk, poisonBad_memOk]
theorem discardWords_memOk (core asid : Nat) (ws : List (Nat × Bool)) : MemOk (discardWords s core asid ws) := by
  grind [discardWords, giveUp_memOk]

omit hs in
theorem cacheEffect_memOk (core asid : Nat) {acc : State × CacheUnit} (hacc : MemOk acc.1) (x : Effect) :
    MemOk (cacheEffect core asid acc x).1 := by
  unfold cacheEffect
  grind [writeBackRange_memOk, discardWords_memOk]

theorem l1Commit_memOk (l : Nat) (stores : List Store) : MemOk (l1Commit s l stores) := by
  grind [l1Commit, foldl_memOk, modCore_memOk, dirtyRun_memOk]

theorem commitPointOf_memOk (cid : Nat) (c : Commit) : MemOk (commitPointOf s cid c) := by
  unfold commitPointOf
  extract_lets l core asid s1 es first s2 s3 last s4
  have h1 : MemOk first.1 := by
    refine List.foldlRecOn es _ (motive := fun a : State × CacheUnit => MemOk a.1) hs fun a ha e _ => cacheEffect_memOk _ _ ha e
  have h2 : MemOk s2 := by
    exact foldl_memOk h1 (by grind [noteWrite_memOk, putBytes_memOk]) _
  have h3 : MemOk last.1 :=
    List.foldlRecOn _ _ (motive := fun a : State × CacheUnit => MemOk a.1) (l1Commit_memOk h2 _ _) fun a ha e _ =>
      cacheEffect_memOk _ _ ha e
  have h4 : MemOk s4 := squashMeeting_memOk h3 _ _
  grind [MemOk, foldl_memOk, modCtx_memOk, post_memOk]

theorem dirArrive_memOk (home region : Nat) : MemOk (dirArrive s home region) := by grind [dirArrive, modDir_memOk]
theorem applyWord_memOk (cid : Nat) (ts : List Store) (region : Nat) (p : Nat × Word) : MemOk (applyWord cid ts region s p) := by
  grind [applyWord, MemOk, putBytesFor_memOk, noteWrite_memOk]

theorem applyEntries_memOk (cid : Nat) (ts : List Store) (xs : List (Nat × Nat)) (ws : List Word) :
    MemOk (applyEntries cid ts s xs ws) := by
  induction xs generalizing s ws with
  | nil => exact hs
  | cons x xs ih => grind [applyEntries, foldl_memOk, applyWord_memOk]

theorem applyFars_memOk (cid : Nat) (xs : List Nat) (ws : List Word) : MemOk (applyFars cid s xs ws) := by
  induction xs generalizing s ws with
  | nil => exact hs
  | cons x xs ih => grind [applyFars, putBytesFor_memOk, noteWrite_memOk]

theorem clearDie_memOk (die region : Nat) : MemOk (clearDie s die region) := by grind [clearDie, modDir_memOk]
theorem dropL2_memOk (region : Nat) (keep : Option Nat) : MemOk (dropL2 s region keep) := by
  grind [dropL2, foldl_memOk, modDie_memOk, clearDie_memOk]
theorem applyAtHome_memOk (home cid : Nat) (c : Commit) : MemOk (applyAtHome s home cid c) := by
  grind [applyAtHome, foldl_memOk, applyFars_memOk, applyEntries_memOk, MemOk, post_memOk, settleBad_memOk, modDir_memOk,
    dropL2_memOk]
theorem askLines_memOk (cid : Nat) (c : Commit) (lines : List Nat) : MemOk (askLines s cid c lines) := by
  grind [askLines, MemOk, foldl_memOk, post_memOk]
theorem clearSharer_memOk (core region : Nat) : MemOk (clearSharer s core region) := by
  grind [clearSharer, modCluster_memOk, modDie_memOk, clearDie_memOk]
theorem loseCopies_memOk (core cid : Nat) (c : Commit) (regions : List Nat) (blocks : List Block) :
    MemOk (loseCopies s core cid c regions blocks) := hs
theorem forwardAt_memOk (core cid : Nat) (c : Commit) : MemOk (forwardAt s core cid c) := by
  grind [forwardAt, MemOk, foldl_memOk, squashMeeting_memOk, leaveL1_memOk, setCore_memOk, post_memOk, loseCopies_memOk,
    poisonBad_memOk, clearSharer_memOk]
theorem regain_memOk (core : Nat) (b : Block) : MemOk (regain s core b) := by
  grind [regain, leaveL1_memOk, setCore_memOk, recordFill_memOk]
theorem endAtArb_memOk (cid loc arb : Nat) : MemOk (endAtArb s cid loc arb) := by grind [endAtArb, reexamine_memOk, modArb_memOk]
theorem wakeYielded_memOk (l : Nat) : MemOk (wakeYielded s l) := by grind [wakeYielded, foldl_memOk, modCtx_memOk, post_memOk]
theorem endStep_memOk (l : Nat) : MemOk (endStep s l) := by grind [endStep, modCore_memOk]
theorem followCommit_memOk (l : Nat) (a : After) : MemOk (followCommit s l a) := by
  unfold followCommit
  grind [modCtx_memOk, endStep_memOk, post_memOk, retireThread_memOk, pauseIssue_memOk]

/-! ### Steps of chunks, grants and traps (`Chunk`) -/

theorem execTrapEntry_memOk : ResOk (execTrapEntry s) := by
  unfold execTrapEntry
  have h0 := fun n => commitTail_memOk hs s.cur n
  split
  · split
    · exact hs
    · split
      · rename_i n _
        cases e : commitTail s s.cur n <;> grind [ResOk, OptOk, repost_memOk]
      · grind [ResOk, OptOk, repost_memOk, takeTrap_memOk]
  · exact hs

theorem execAsyncTrap_memOk : ResOk (execAsyncTrap s) := by
  grind [execAsyncTrap, ResOk, releasePriority_memOk, modMe_memOk, takeTrap_memOk, OptOk, stall_memOk]
theorem execMcheck_memOk (loc reason detail : Nat) (badva : Word) : ResOk (execMcheck loc reason detail badva s) := by
  grind [execMcheck, ResOk, modCtx_memOk, releasePriority_memOk]
theorem execChunkLengthLimit_memOk : ResOk (execChunkLengthLimit s) := by grind [execChunkLengthLimit, ResOk, endChunkOf_memOk]
theorem execChunkEnd_memOk : ResOk (execChunkEnd s) := by grind [execChunkEnd, MemOk, ResOk, repost_memOk, post_memOk]
theorem granted_memOk (arb cid : Nat) (c : Commit) : MemOk (granted s arb cid c) := by
  grind [granted, post_memOk, MemOk, oweRecord_memOk, modArb_memOk]
theorem execGrantRequest_memOk (arb cid : Nat) : ResOk (execGrantRequest arb cid s) := by
  grind [execGrantRequest, ResOk, repost_memOk, ringStall_memOk, modArb_memOk, granted_memOk]
theorem execCommitPoint_memOk : ResOk (execCommitPoint s) := by
  grind [execCommitPoint, ResOk, repost_memOk, withdraw_memOk, commitPointOf_memOk]
theorem execCommitMessage_memOk (home cid : Nat) : ResOk (execCommitMessage home cid s) := by
  grind [execCommitMessage, ResOk, repost_memOk, askLines_memOk, applyAtHome_memOk]
theorem execForwardedW_memOk (core cid : Nat) : ResOk (execForwardedW core cid s) := by
  grind [execForwardedW, ResOk, forwardAt_memOk]
theorem completeChunk_memOk (cid : Nat) (c : Commit) : OptOk (completeChunk s cid c) := by
  grind [completeChunk, MemOk, OptOk, foldl_memOk, releasePriority_memOk, recordsDue_memOk, logComplete_memOk, wakeYielded_memOk,
    modCtx_memOk, committed_memOk, followCommit_memOk, endAtArb_memOk, regain_memOk, dirArrive_memOk, applyEffects_memOk]
theorem execCommitComplete_memOk : ResOk (execCommitComplete s) := by
  grind [execCommitComplete, ResOk, completeChunk_memOk, OptOk, repost_memOk]
theorem askPriority_memOk (l arb : Nat) : MemOk (askPriority s l arb) := by grind [askPriority, modArb_memOk]

theorem takePriorities_memOk (l : Nat) (xs : List Nat) : MemOk (takePriorities s l xs).1 := by
  induction xs generalizing s with
  | nil => exact hs
  | cons x xs ih => grind [takePriorities, askPriority_memOk]

theorem execHeldChunkStart_memOk : ResOk (execHeldChunkStart s) := by
  grind [execHeldChunkStart, ResOk, stall_memOk, takePriorities_memOk, modMe_memOk]
theorem execFaultResponse_memOk (loc pos : Nat) : ResOk (execFaultResponse loc pos s) := by
  grind [execFaultResponse, ResOk, modCtx_memOk, squash_memOk]
theorem countSoft_memOk (die : Nat) : MemOk (countSoft s die) := hs
theorem countError_memOk (die : Nat) : MemOk (countError s die) := hs
theorem softContext_memOk (l : Nat) : MemOk (softContext s l) := by
  grind [softContext, countSoft_memOk, releasePriority_memOk, modCtx_memOk, squash_memOk]
theorem parityAt_memOk (core key : Nat) : MemOk (parityAt s core key) := by
  grind [parityAt, foldl_memOk, leaveL1_memOk, setCore_memOk, modCore_memOk, post_memOk]
theorem badInL2_memOk (die key : Nat) : MemOk (badInL2 s die key) := by grind [badInL2, MemOk, modDie_memOk]
theorem execSoftError_memOk : ResOk (execSoftError s) := by
  grind [execSoftError, MemOk, ResOk, softContext_memOk, countError_memOk, badInL2_memOk, parityAt_memOk]
theorem execWatchWake_memOk : ResOk (execWatchWake s) := by grind [execWatchWake, ResOk, modMe_memOk]
theorem execYieldResume_memOk : ResOk (execYieldResume s) := by grind [execYieldResume, ResOk, modMe_memOk]

/-! ### Coherence beneath the chunks (`Coherence`) -/

theorem mapRegion_memOk (core region : Nat) (f : Block → Option Block) : MemOk (mapRegion s core region f) := by
  grind [mapRegion, modCore_memOk]
theorem mapL2_memOk (die region : Nat) (f : Block → Option Block) : MemOk (mapL2 s die region f) := by grind [mapL2, modDie_memOk]
theorem mapOwner_memOk (who region : Nat) (f : Block → Option Block) : MemOk (mapOwner s who region f) := by
  grind [mapOwner, foldl_memOk, mapL2_memOk, mapRegion_memOk]
theorem execGetS_memOk (home : Nat) (f : FillReq) : ResOk (execGetS home f s) := by
  grind [execGetS, ResOk, repost_memOk, sendFill_memOk, modDir_memOk, post_memOk]
theorem execHomeDataArrival_memOk (home region : Nat) : ResOk (execHomeDataArrival home region s) := by
  grind [execHomeDataArrival, ResOk, dirArrive_memOk, sendFill_memOk]
theorem poisonAll_memOk (bs : List Block) : MemOk (poisonAll s bs) := by grind [poisonAll, foldl_memOk, poisonBad_memOk]
theorem execSnoop_memOk (home region who : Nat) (inval : Bool) : ResOk (execSnoop home region who inval s) := by
  grind [execSnoop, ResOk, modDir_memOk, mapOwner_memOk, clearDie_memOk, poisonAll_memOk, clearSharer_memOk, post_memOk]
theorem execWriteBack_memOk (home region : Nat) (who : WbFrom) (words : List (Nat × Word)) :
    ResOk (execWriteBack home region who words s) := by
  grind [execWriteBack, ResOk, repost_memOk, putWords_memOk, modDir_memOk, post_memOk]
theorem execOwnerMoveReport_memOk (home region who : Nat) : ResOk (execOwnerMoveReport home region who s) := by
  grind [execOwnerMoveReport, ResOk, repost_memOk, modDir_memOk]
theorem installL1_memOk (core : Nat) (b : Block) : OptOk (installL1 s core b) := by
  grind [installL1, OptOk, leaveL1_memOk, setCore_memOk, recordFill_memOk]
theorem dropHalves_memOk (f : FillReq) (mode a b : Nat) : MemOk (dropHalves s f mode a b) := by
  grind [dropHalves, foldl_memOk, modDie_memOk, sendHome_memOk, leaveL1_memOk, setCore_memOk]
theorem installL2_memOk (f : FillReq) (mode place : Nat) : MemOk (installL2 s f mode place) := by
  grind [installL2, dropHalves_memOk, foldl_memOk, leaseL2_memOk, modDie_memOk, sendHome_memOk]
theorem startLease_memOk (f : FillReq) (b : Block) : MemOk (startLease s f b) := by grind [startLease, postIn_memOk]
theorem moveBack_memOk (f : FillReq) : OptOk (moveBack s f) := by
  grind [moveBack, OptOk, modDie_memOk, installL1_memOk, post_memOk, ownerLeft_memOk]

theorem fillL1_memOk (f : FillReq) (mode place lo hi : Nat) : OptOk (fillL1 s f mode place lo hi) := by
  unfold fillL1
  split
  · exact hs
  · rename_i a b _
    dsimp only
    have h := installL1_memOk (dropHalves_memOk hs f mode a b) f.core (filledBlock (dropHalves s f mode a b) f mode place a b)
    cases e : installL1 (dropHalves s f mode a b) f.core (filledBlock (dropHalves s f mode a b) f mode place a b) <;>
      grind [OptOk, startLease_memOk]

theorem arriveL1_memOk (f : FillReq) (mode place : Nat) : MemOk (arriveL1 s f mode place) := by
  unfold arriveL1
  have h := fillL1_memOk hs f mode place (max f.first f.touch) (min f.last f.touchEnd)
  cases e : fillL1 s f mode place (max f.first f.touch) (min f.last f.touchEnd) <;>  grind [OptOk, fillL1_memOk]

theorem arrive_memOk (f : FillReq) : MemOk (arrive s f) := by
  grind [arrive, installL2_memOk, moveBack_memOk, OptOk, arriveL1_memOk, post_memOk]
theorem execFillArrival_memOk (f : FillReq) : ResOk (execFillArrival f s) := by grind [execFillArrival, ResOk, arrive_memOk]
theorem askAgain_memOk (f : FillReq) : MemOk (askAgain s f) := by
  grind [askAgain, throughFilter_memOk, repost_memOk, OptOk, post_memOk, postOnce_memOk]
theorem execExtensionArrival_memOk (f : FillReq) : ResOk (execExtensionArrival f s) := by
  grind [execExtensionArrival, ResOk, arrive_memOk, askAgain_memOk]
theorem execLeaseExpiry_memOk (core asid va : Nat) : ResOk (execLeaseExpiry core asid va s) := by
  grind [execLeaseExpiry, ResOk, foldl_memOk, modDie_memOk, sendHome_memOk, leaveL1_memOk, modCore_memOk]
theorem dropName_memOk (home region asid va : Nat) : MemOk (dropName s home region asid va) := hs
theorem recalledEntry_memOk (home region : Nat) : MemOk (recalledEntry s home region) := by
  grind [recalledEntry, modDir_memOk, dirArrive_memOk]
theorem recallL2_memOk (die region asid va : Nat) : MemOk (recallL2 s die region asid va) := by
  grind [recallL2, absorbFlight_memOk, foldl_memOk, putWords_memOk, mapL2_memOk, clearDie_memOk, poisonBad_memOk]
theorem execRecallName_memOk (home region asid va : Nat) : ResOk (execRecallName home region asid va s) := by
  grind [execRecallName, ResOk, repost_memOk, foldl_memOk, dropName_memOk, modDir_memOk, recalledEntry_memOk, recallL2_memOk,
    modHome_memOk, post_memOk]
theorem recallAt_memOk (region core asid va : Nat) : MemOk (recallAt s region core asid va) := by
  grind [recallAt, foldl_memOk, poisonAll_memOk, putWords_memOk, recallL2_memOk, modCore_memOk, squash_memOk]
theorem execRecallAnswer_memOk (home region core asid va : Nat) : ResOk (execRecallAnswer home region core asid va s) := by
  grind [execRecallAnswer, ResOk, dropName_memOk, modHome_memOk, clearSharer_memOk, recallAt_memOk, recalledEntry_memOk]
theorem walkFailed_memOk (home asid page cause : Nat) : MemOk (walkFailed s home asid page cause) := hs
theorem execPageWalk_memOk (home asid page : Nat) (write : Bool) : ResOk (execPageWalk home asid page write s) := by
  grind [execPageWalk, ResOk, repost_memOk, walkSet_memOk, HwOk, walkFailed_memOk, wakeStall_memOk]
theorem tinvAck_wakeHomes_memOk (tid : Nat) : MemOk (tinvAck.wakeHomes s tid) := hs

theorem tinvAck_memOk (home tid : Nat) (t : TinvSt) : MemOk (tinvAck s home tid t) := by
  unfold tinvAck
  extract_lets rest s' 
  have h' : MemOk s' := hs
  grind [tinvAck_wakeHomes_memOk, bar0Set_memOk, MemOk]

theorem execTinvHome_memOk (home tid : Nat) : ResOk (execTinvHome home tid s) := by
  grind [execTinvHome, ResOk, repost_memOk, modHome_memOk, foldl_memOk, postOnce_memOk, tinvAck_memOk]
theorem flushRegion_memOk (region : Nat) : MemOk (flushRegion s region) := by
  grind [flushRegion, putWords_memOk, absorbFlight_memOk]
theorem dropRegion_memOk (region : Nat) (keep : Nat → Bool) : MemOk (dropRegion s region keep) := by
  grind [dropRegion, foldl_memOk, settleBad_memOk, mapRegion_memOk, mapL2_memOk]
theorem freeze_memOk (home asid va region next owner mode : Nat) (cp : Option Nat) :
    MemOk (freeze s home asid va region next owner mode cp) := hs
theorem leaseAll_memOk (region : Nat) : MemOk (leaseAll s region) := by grind [leaseAll, foldl_memOk, postIn_memOk]
theorem transition_memOk (home : Nat) (r : RmodeSt) (va region src : Nat) : MemOk (transition s home r va region src) := by
  unfold transition
  grind [freeze_memOk, foldl_memOk, leaseAll_memOk, mapRegion_memOk, mapL2_memOk, dropRegion_memOk, flushRegion_memOk]
theorem rmodeDone_memOk (home tid : Nat) (r : RmodeSt) : MemOk (rmodeDone s home tid r) := by
  grind [rmodeDone, MemOk, tinvAck_wakeHomes_memOk, modHome_memOk]
theorem execRmodeDrain_memOk (home tid : Nat) : ResOk (execRmodeDrain home tid s) := by
  grind [execRmodeDrain, ResOk, repost_memOk, foldl_memOk, rmodeDone_memOk, squash_memOk, transition_memOk, modHome_memOk, MemOk]
theorem rebuild_memOk (home region : Nat) : MemOk (rebuild s home region) := by grind [rebuild, modDir_memOk, post_memOk]
theorem execDirectoryError_memOk (home region : Nat) : ResOk (execDirectoryError home region s) := by
  grind [execDirectoryError, ResOk, repost_memOk, rebuild_memOk, modDir_memOk, countError_memOk]
theorem askBelow_memOk (region : Nat) (cores : List Nat) : MemOk (askBelow s region cores) := by
  grind [askBelow, foldl_memOk, clearSharer_memOk]
theorem execFilterError_memOk (unit key : Nat) : ResOk (execFilterError unit key s) := by
  grind [execFilterError, ResOk, askBelow_memOk, modDie_memOk, countError_memOk, modCluster_memOk]

/-! ### Control transfer (`Control`) -/

theorem execJtab_memOk (a b : Src) (o : BitVec 15) : ResOk (execJtab a b o s) := by
  grind [execJtab, finish_memOk, access_memOk, raise_memOk, AccOk, raiseHome_memOk, stall_memOk, loadAll_memOk, finishAny_memOk]

/-! ### Copy engines (`CopyEngine`) -/

theorem setPacket_memOk (p : Packet) : MemOk (setPacket s p) := hs
theorem dropPacket_memOk (p : Packet) : MemOk (dropPacket s p) := hs
theorem packetFault_memOk (p : Packet) (reason detail : Nat) : MemOk (packetFault s p reason detail) := by
  grind [packetFault, engineEvent_memOk, dropPacket_memOk]
theorem settlePacket_memOk (p : Packet) : MemOk (settlePacket s p) := by grind [settlePacket, dropPacket_memOk, setPacket_memOk]
theorem systemTarget_memOk (asid va : Nat) (write : Bool) : HwOk (systemTarget s asid va write) := by
  grind [systemTarget, HwOk, translate_memOk]
theorem landSectors_memOk (bar : Option Nat) (n : Nat) : MemOk (landSectors s bar n).1 := by
  unfold landSectors
  grind [barLandN_memOk]
theorem cxlPut_memOk (addr : Nat) (bs : List Byte) : MemOk (cxlPut s addr bs) := hs

theorem systemRead_memOk (io : Bool) (addr k n : Nat) : MemOk (systemRead s io addr k n).2 := by
  unfold systemRead
  split
  · exact hs
  · exact List.foldlRecOn _ _ (motive := fun a : List Byte × State => MemOk a.2) hs fun a ha p _ => cxlPut_memOk ha _ _

theorem systemWrite_memOk (io : Bool) (addr : Nat) (bs : List Byte) : MemOk (systemWrite s io addr bs) := by
  grind [systemWrite, modIo_memOk, foldl_memOk, cxlPut_memOk]

theorem globalReadAll_memOk (asid : Nat) (xs : List (Nat × Nat)) (acc : List Byte) : HwOk (globalReadAll s asid xs acc) := by
  induction xs generalizing s acc with
  | nil => exact hs
  | cons x xs ih => grind [globalReadAll, HwOk, engineRead_memOk, systemRead_memOk, systemTarget_memOk]

theorem globalRead_memOk (asid va n : Nat) : HwOk (globalRead s asid va n) := by grind [globalRead, globalReadAll_memOk]

theorem globalWriteAll_memOk (p : Packet) (bar : Option Nat) (xs : List (Nat × Nat)) (bs : List Byte) (n : Nat) :
    EngOk (globalWriteAll s p bar xs bs n) := by
  induction xs generalizing s bs n with
  | nil => exact hs
  | cons x xs ih => grind [globalWriteAll, HwOk, EngOk, landSectors_memOk, engineWrite_memOk, systemWrite_memOk,
    systemTarget_memOk]

theorem globalWrite_memOk (p : Packet) (va : Nat) (bs : List Byte) (bar : Option Nat) : EngOk (globalWrite s p va bs bar) := by
  grind [globalWrite, globalWriteAll_memOk]
theorem askOperand_memOk (asid : Nat) (ptr : Word) (n : Nat) (write : Bool) : MemOk (askOperand s asid ptr n write) := by
  grind [askOperand, askNames_memOk]
theorem pktRead_memOk (p : Packet) (ptr : Word) (n idx : Nat) : EngOk (pktRead s p ptr n idx) := by
  grind [pktRead, EngOk, globalRead_memOk, HwOk]
theorem bindTiles_memOk (core : Nat) (tiles : List Nat) (bar : Option Nat) : MemOk (bindTiles s core tiles bar) := by
  unfold bindTiles
  grind [modCore_memOk]
theorem sramWrite_memOk (x : Sram) (bs : List Byte) (bar : Option Nat) (land : Bool) : EngOk (sramWrite s x bs bar land) := by
  grind [sramWrite, EngOk, landSectors_memOk, putRaw_memOk, bindTiles_memOk]
theorem pktWrite_memOk (p : Packet) (ptr : Word) (bs : List Byte) (bar : Option Nat) (idx : Nat) :
    EngOk (pktWrite s p ptr bs bar idx) := by
  grind [pktWrite, EngOk, globalWrite_memOk, sramWrite_memOk]
theorem copyPoll_memOk (asid h : Nat) : MemOk (copyPoll s asid h).1 := by
  grind [copyPoll, ringHead_memOk, HwOk, headWaits_memOk, headEmpty_memOk]

theorem takePacket_memOk (op : Nat) : MemOk (takePacket s op) := by
  unfold takePacket
  extract_lets asid h
  clear_value asid h
  cases headOf s asid h with
  | none => exact hs
  | some x =>
    have hr := ringHead_memOk hs asid x.desc x.words
    dsimp only
    split
    · rename_i n msg u e er _
      have hu : MemOk u := by rw [er] at hr; exact hr
      refine memOk_if _ hu ?_
      have hf := freeSlot_memOk hu asid x.desc x.words n (wordAt msg 0)
      cases ef : freeSlot u asid x.desc x.words n (wordAt msg 0) with rw [ef] at hf
      | retry => exact hu
      | fault c v => exact headEmpty_memOk hf x
      | ok y v =>
        have hv := headTook_memOk (touchHead_memOk hf asid h) asid h
        dsimp only
        generalize headTook (touchHead v asid h) asid h = w at hv
        grind [MemOk, modHome_memOk, packetFault_memOk, post_memOk]
    · exact hs

theorem packetStep_memOk (op : Nat) {run : State → Packet → State} (hrun : ∀ t x, MemOk t → MemOk (run t x)) :
    MemOk (packetStep s op run) := by
  grind [packetStep, takePacket_memOk, repost_memOk]
theorem rowDone_memOk (p : Packet) (k rows : Nat) : MemOk (rowDone s p k rows) := by
  grind [rowDone, settlePacket_memOk, post_memOk]
theorem writeRow_memOk (p : Packet) (ptr : Word) (bs : List Byte) (rows idx : Nat) : MemOk (writeRow s p ptr bs rows idx) := by
  grind [writeRow, pktWrite_memOk, repost_memOk, askOperand_memOk, EngOk, packetFault_memOk, rowDone_memOk]

theorem readThen_memOk (p : Packet) (ptr : Word) (n idx : Nat) {k : List Byte → State → State}
    (hk : ∀ x t, MemOk t → MemOk (k x t)) :
    MemOk (readThen s p ptr n idx k) := by
  grind [readThen, pktRead_memOk, repost_memOk, askOperand_memOk, EngOk, packetFault_memOk]

theorem execPktCopy_memOk : ResOk (execPktCopy s) := by
  grind [execPktCopy, ResOk, packetStep_memOk, readThen_memOk, writeRow_memOk]
theorem execPktFill_memOk : ResOk (execPktFill s) := by grind [execPktFill, ResOk, packetStep_memOk, writeRow_memOk]
theorem withBlock_memOk (p : Packet) {k : State → Packet → State} (hk : ∀ t x, MemOk t → MemOk (k t x)) :
    MemOk (withBlock s p k) := by
  grind [withBlock, setPacket_memOk, modHome_memOk, packetFault_memOk, readThen_memOk]
theorem withIndex_memOk (p : Packet) {k : State → Word → Nat → Nat → State} (hk : ∀ t w n n', MemOk t → MemOk (k t w n n')) :
    MemOk (withIndex s p k) := by
  grind [withIndex, settlePacket_memOk, readThen_memOk]
theorem execPktGather_memOk : ResOk (execPktGather s) := by
  grind [execPktGather, ResOk, packetStep_memOk, withBlock_memOk, withIndex_memOk, readThen_memOk, writeRow_memOk]
theorem execPktScatter_memOk : ResOk (execPktScatter s) := by
  grind [execPktScatter, ResOk, packetStep_memOk, withBlock_memOk, withIndex_memOk, readThen_memOk, writeRow_memOk]
theorem fifoPut_memOk (cl h : Nat) (bs : List Byte) : EngOk (fifoPut s cl h bs) := by
  grind [fifoPut, EngOk, fifoAdvance_memOk, putRaw_memOk]

theorem readRows_memOk (p : Packet) (n : Nat) : EngOk (readRows s p n) := by
  induction n with
  | zero => exact hs
  | succ n ih => grind [readRows, EngOk, pktRead_memOk]

theorem askRows_memOk (p : Packet) (n : Nat) : MemOk (askRows s p n) := by grind [askRows, foldl_memOk, askOperand_memOk]
theorem execPktTofifo_memOk : ResOk (execPktTofifo s) := by
  grind [execPktTofifo, ResOk, packetStep_memOk, packetFault_memOk, readRows_memOk, repost_memOk, askRows_memOk, EngOk,
    fifoPut_memOk, landSectors_memOk, settlePacket_memOk]
theorem execPktChain_memOk : ResOk (execPktChain s) := by
  grind [execPktChain, ResOk, packetStep_memOk, readThen_memOk, packetFault_memOk, setPacket_memOk, post_memOk]
theorem hopPut_memOk (w : Word) (bs : List Byte) (hop : Nat) : EngOk (hopPut s w bs hop) := by
  grind [hopPut, EngOk, fifoPut_memOk, sramWrite_memOk]
theorem execChainHop_memOk (pid hop : Nat) : ResOk (execChainHop pid hop s) := by
  grind [execChainHop, ResOk, hopPut_memOk, repost_memOk, EngOk, packetFault_memOk, landSectors_memOk, post_memOk,
    engineEvent_memOk, settlePacket_memOk]
theorem engineCommitDone_memOk (c : Commit) : MemOk (engineCommitDone s c) := by
  grind [engineCommitDone, landSectors_memOk, settlePacket_memOk, setHeadCmd_memOk, post_memOk, packetFault_memOk,
    cmdFaulted_memOk]
theorem applyStores_memOk (c : Commit) : MemOk (applyStores s c) := by grind [applyStores, foldl_memOk, hwCommit_memOk]
theorem closeCommit_memOk (cid : Nat) (c : Commit) : MemOk (closeCommit s cid c) := by
  grind [closeCommit, MemOk, foldl_memOk, endAtArb_memOk]
theorem execEngineCommit_memOk : ResOk (execEngineCommit s) := by
  grind [execEngineCommit, ResOk, postOnce_memOk, askLines_memOk, repost_memOk, applyStores_memOk, closeCommit_memOk,
    engineCommitDone_memOk]

/-! ### The I/O die (`Io`) -/

theorem askInbound_memOk (x : Inbound) : MemOk (askInbound s x) := hs
theorem pumpInbound_memOk : MemOk (pumpInbound s) := by grind [pumpInbound, foldl_memOk, askInbound_memOk]
theorem memWrite_memOk (req : Nat) (ro : Bool) (cells : List (Nat × Byte)) : MemOk (memWrite s req ro cells) := by
  grind [memWrite, modIo_memOk, pumpInbound_memOk]
theorem execIoCommit_memOk : ResOk (execIoCommit s) := by
  grind [execIoCommit, ResOk, postOnce_memOk, askLines_memOk, repost_memOk, modIo_memOk, applyStores_memOk, closeCommit_memOk,
    pumpInbound_memOk]
theorem memRead_memOk (req pa n : Nat) : OptOk (memRead s req pa n) := by
  grind [memRead, OptOk, answer_memOk, foldl_memOk, modIo_memOk, cpHome_memOk]
theorem atomicOp_memOk (req pa n : Nat) (again : Instr) (f : Nat → Option Nat) : MemOk (atomicOp s req pa n again f) := by
  grind [atomicOp, answer_memOk, repost_memOk, gather_memOk, commitBytes_memOk]
theorem execBackInvalidateAnswer_memOk (line cid : Nat) (cells : List (Nat × Byte)) :
    ResOk (execBackInvalidateAnswer line cid cells s) := by
  grind [execBackInvalidateAnswer, lineBack_memOk, MemOk, ResOk, post_memOk]
theorem execMsixSend_memOk : ResOk (execMsixSend s) := by grind [execMsixSend, ResOk, modIo_memOk, answer_memOk, repost_memOk]
theorem putOwnership_memOk (o : Ownership) : MemOk (putOwnership s o) := hs
theorem setStaging_memOk (asid req : Nat) (ws : List (Nat × Word)) : MemOk (setStaging s asid req ws) := hs
theorem portWord_memOk (asid req j : Nat) (x : Word) : MemOk (portWord s asid req j x) := by grind [portWord, setStaging_memOk]
theorem portSend_memOk (asid req : Nat) (x : Word) : MemOk (portSend s asid req x) := by
  grind [portSend, badEvent_memOk, setStaging_memOk, deliver_memOk]
theorem cxlAccess_memOk (op : SysOp) (x : Word) : MemOk (cxlAccess s op x).1 := by grind [cxlAccess, cxlPut_memOk]
theorem execSystemScopeCompletion_memOk (id : Nat) (x : Word) : ResOk (execSystemScopeCompletion id x s) := by
  grind [execSystemScopeCompletion, ResOk, wakeAll_memOk, MemOk, modCtx_memOk, cxlAccess_memOk]

/-! ### Starting a thread (`Activation`) -/

theorem handlerEntry_memOk (asid h : Nat) : HwOk (handlerEntry s asid h) := by grind [handlerEntry, hwRead_memOk, HwOk]
theorem refuseTemplate_memOk (asid va : Nat) : MemOk (refuseTemplate s asid va) := by
  grind [refuseTemplate, badEvent_memOk, modFox_memOk]
theorem acceptTemplate_memOk (asid : Nat) : MemOk (acceptTemplate s asid) := hs
theorem readTemplate_memOk (asid : Nat) (rec' : Bool) : HwOk (readTemplate s asid rec') := by
  grind [readTemplate, handlerEntry_memOk, HwOk, refuseTemplate_memOk, recordRead_memOk, acceptTemplate_memOk]
theorem takeSlots_memOk (asid n : Nat) (rec' : Bool) : HwOk (takeSlots s asid n rec') := by
  grind [takeSlots, HwOk, readTemplate_memOk]
theorem copyImages_memOk (l : Nat) (m : Option Module) : MemOk (copyImages s l m) := by
  unfold copyImages
  grind [MemOk, foldl_memOk, modCluster_memOk, putRaw_memOk, modCore_memOk]
theorem watchBudget_memOk (l : Nat) : MemOk (watchBudget s l) := by grind [watchBudget, postIn_memOk]
theorem giveSlot_memOk (asid n : Nat) (t : List Word) : MemOk (giveSlot s asid n t) := hs
theorem startThread_memOk (l asid pc n : Nat) (t : List Word) (u : UnitInfo) : MemOk (startThread s l asid pc n t u) := by
  grind [startThread, MemOk, modCtx_memOk, giveSlot_memOk, watchBudget_memOk]
theorem badHandler_memOk (asid : Nat) (msg : List Word) : MemOk (badHandler s asid msg) := by grind [badHandler, badEvent_memOk]
theorem handlerOf_memOk (asid : Nat) (msg : List Word) : HwOk (handlerOf s asid msg) := by
  grind [handlerOf, HwOk, handlerEntry_memOk]
theorem writeRecord_memOk (asid base : Nat) (rec' : Option (List Byte)) : HwOk (writeRecord s asid base rec') := by
  unfold writeRecord
  grind [HwOk, hwWrite_memOk]
theorem startMsg_memOk (l asid : Nat) (u : UnitInfo) (rec' : Option (List Byte)) : StartedOk (startMsg s l asid u rec') := by
  grind [startMsg, takeSlots_memOk, StartedOk, HwOk, handlerOf_memOk, badHandler_memOk, writeRecord_memOk, refuseTemplate_memOk,
    acceptTemplate_memOk, startThread_memOk, copyImages_memOk]

/-! ### What follows retirement (`Retire`) -/

theorem badSuccessor_memOk (asid : Nat) (tcb i : Word) : MemOk (badSuccessor s asid tcb i) := by
  grind [badSuccessor, badEvent_memOk]
theorem walkBegin_memOk (asid : Nat) (tcb : Word) (loc : Nat) : HwOk (walkBegin s asid tcb loc) := by
  grind [walkBegin, hwRead_memOk, HwOk, badSuccessor_memOk, hwAddr_memOk, MemOk, post_memOk, modFox_memOk]
theorem walkEntry_memOk (asid : Nat) (tcb : Word) (loc i list : Nat) : HwOk (walkEntry s asid tcb loc i list) := by
  grind [walkEntry, hwRead_memOk, HwOk, post_memOk, badSuccessor_memOk]
theorem orAgain_memOk (i : Instr) {h : Hw Unit} (hh : HwOk h) : ResOk (orAgain s i h) := by
  unfold orAgain
  grind [ResOk, repost_memOk, HwOk]
theorem execSuccessorWalk_memOk (asid : Nat) (tcb : Word) (loc i : Nat) : ResOk (execSuccessorWalk asid tcb loc i s) := by
  grind [execSuccessorWalk, orAgain_memOk, walkBegin_memOk, ResOk, modFox_memOk, walkEntry_memOk]
theorem release_memOk (asid loc handle : Nat) (msg : List Word) : MemOk (release s asid loc handle msg) := hs
theorem tcbRelease_memOk (asid e loc : Nat) (w0 tcb i : Word) : HwOk (tcbRelease s asid e loc w0 tcb i) := by
  grind [tcbRelease, hwWrite_memOk, HwOk, hwRead_memOk, badEvent_memOk, release_memOk]
theorem execTcbDecrement_memOk (asid : Nat) (e tcb : Word) (loc i : Nat) : ResOk (execTcbDecrement asid e tcb loc i s) := by
  grind [execTcbDecrement, hwUpdate_memOk, ResOk, repost_memOk, HwOk, post_memOk, badSuccessor_memOk, badEvent_memOk,
    tcbRelease_memOk]
theorem execJoinDecrement_memOk (asid : Nat) (blk : Word) (loc : Nat) : ResOk (execJoinDecrement asid blk loc s) := by
  grind [execJoinDecrement, hwUpdate_memOk, ResOk, repost_memOk, HwOk, badEvent_memOk, hwRead_memOk, spawnPush_memOk]
theorem modGroup_memOk (lid g : Nat) (f : GroupSt → GroupSt) : MemOk (modGroup s lid g f) := hs
theorem dropGang_memOk (lid g : Nat) : MemOk (dropGang s lid g) := hs
theorem completionTcb_memOk (x : Launch) (loc : Nat) : HwOk (completionTcb s x loc) := by
  grind [completionTcb, HwOk, hwWrite_memOk, post_memOk, badSuccessor_memOk, hwRead_memOk]
theorem closeGroup_memOk (x : Launch) (y : GroupSt) : HwOk (closeGroup s x y) := by
  grind [closeGroup, modGroup_memOk, completionTcb_memOk, dropGang_memOk, modFox_memOk, HwOk]
theorem execGroupComplete_memOk (lid g : Nat) : ResOk (execGroupComplete lid g s) := by
  grind [execGroupComplete, ResOk, hwUpdate_memOk, repost_memOk, HwOk, orAgain_memOk, badEvent_memOk, closeGroup_memOk]
theorem execDupCompare_memOk (lid g : Nat) : ResOk (execDupCompare lid g s) := by
  grind [execDupCompare, ResOk, post_memOk, modGroup_memOk, event_memOk]
theorem releaseBar_memOk (id : Nat) (band : Bool) (p : Nat → Bool) : MemOk (releaseBar s id band p) := by
  grind [releaseBar, foldl_memOk, modCtx_memOk]
theorem execBarrierRelease_memOk (gang : Nat) (band : Bool) : ResOk (execBarrierRelease gang band s) := by
  grind [execBarrierRelease, ResOk, releaseBar_memOk, foldl_memOk]
theorem cancelRun_memOk (l : Nat) : MemOk (cancelRun s l) := by
  grind [cancelRun, releasePriority_memOk, squash_memOk, modCtx_memOk]
theorem stopThread_memOk (l : Nat) : MemOk (stopThread s l) := by
  grind [stopThread, cancelRun_memOk, leaveSlot_memOk, issuerRetired_memOk, hangQueue_memOk, setCtx_memOk, modFox_memOk]
theorem stopSaved_memOk (x : Saved) : MemOk (stopSaved s x) := by
  grind [stopSaved, leaveSlot_memOk, issuerRetired_memOk, modFox_memOk, hangQueue_memOk]
theorem execTaskHang_memOk : ResOk (execTaskHang s) := by
  grind [execTaskHang, ResOk, repost_memOk, foldl_memOk, modGroup_memOk, event_memOk, dropGang_memOk, stopThread_memOk,
    stopSaved_memOk]

/-! ### Pre-emption (`Preempt`) -/

theorem declared_memOk (l area : Nat) : HwOk (declared s l area) := by grind [declared, HwOk, hwRead_memOk]

theorem spillOut_memOk (asid core : Nat) (xs : List (Nat × Nat × Nat)) : OptFstOk (spillOut s asid core xs) := by
  induction xs generalizing s with
  | nil => exact hs
  | cons x xs ih => grind [spillOut, OptFstOk, spillPieces_memOk]

theorem stopMatrix_memOk (l : Nat) : MemOk (stopMatrix s l) := by
  grind [stopMatrix, setHeadCmd_memOk, setStop_memOk, modCluster_memOk, putRawWord_memOk, kick_memOk]
theorem restartMatrix_memOk (core : Nat) : MemOk (restartMatrix s core) := by grind [restartMatrix, restart_memOk]
theorem freeSaved_memOk (l : Nat) (hold : Bool) (x : Saved) : MemOk (freeSaved s l hold x) := hs
theorem saveFault_memOk (l area : Nat) (after : Option Nat) : MemOk (saveFault s l area after) := hs
theorem saveArea_memOk (asid area : Nat) (bs : List Byte) : HwOk (saveArea s asid area bs) := by
  grind [saveArea, hwWrite_memOk, HwOk]
theorem saveState_memOk (l kind : Nat) (after : Option Nat) (hold : Bool) : OptOk (saveState s l kind after hold) := by
  grind [saveState, OptOk, declared_memOk, HwOk, saveFault_memOk, spillOut_memOk, OptFstOk, saveArea_memOk, freeSaved_memOk]
theorem saveThread_memOk (l : Nat) (hold : Bool) : SaveEndOk (saveThread s l hold) := by
  grind [saveThread, SaveEndOk, stopMatrix_memOk, saveState_memOk, cancelRun_memOk, modCtx_memOk, OptOk]

theorem savePass_memOk (desc : Word) (xs : List Nat) : MemOk (savePass s desc xs).1 := by
  induction xs generalizing s with
  | nil => exact hs
  | cons x xs ih => grind [savePass, SaveEndOk, saveThread_memOk]

theorem preemptPass_memOk (k : Nat) (p : PreemptSt) (excl : Nat) : MemOk (preemptPass s k p excl) := by
  grind [preemptPass, savePass_memOk, foldl_memOk, post_memOk, modFox_memOk, restartMatrix_memOk, postIn_memOk]
theorem execPreemptRequest_memOk (desc : Word) (excl : Nat) : ResOk (execPreemptRequest desc excl s) := by
  grind [execPreemptRequest, MemOk, ResOk, post_memOk, preemptPass_memOk]
theorem execPreemptComplete_memOk (desc : Word) (asids : List Nat) : ResOk (execPreemptComplete desc asids s) := by
  grind [execPreemptComplete, ResOk, foldl_memOk, event_memOk]

/-! ### The control space (`ControlSpace`) -/

theorem preemptAt_memOk (master : Nat) (x : Word) : MemOk (preemptAt s master x) := by grind [preemptAt, post_memOk]
theorem invalidateAt_memOk (master asid : Nat) : MemOk (invalidateAt s master asid) := by
  grind [invalidateAt, MemOk, foldl_memOk, bar0Set_memOk, post_memOk]
theorem lostClearAt_memOk (master asid : Nat) : MemOk (lostClearAt s master asid) := by grind [lostClearAt, bar0Set_memOk]
theorem haltAt_memOk (master die : Nat) (x : Word) : MemOk (haltAt s master die x) := by
  grind [haltAt, foldl_memOk, bar0Set_memOk, modCore_memOk]
theorem windowApply_memOk (w : Nat × Nat × Word) : MemOk (windowApply s w) := by
  grind [windowApply, setRng_memOk, cancelRun_memOk, modCtx_memOk]
theorem releaseCores_memOk (cores : List Nat) (one : Bool) : MemOk (releaseCores s cores one) := by
  grind [releaseCores, foldl_memOk, modIo_memOk, windowApply_memOk, modCore_memOk]
theorem releaseAt_memOk (master die : Nat) (x : Word) : MemOk (releaseAt s master die x) := by
  grind [releaseAt, bar0Set_memOk, releaseCores_memOk]
theorem stepAt_memOk (master die : Nat) : MemOk (stepAt s master die) := by grind [stepAt, releaseCores_memOk]
theorem windowAt_memOk (master die off : Nat) (x : Word) : MemOk (windowAt s master die off x) := by grind [windowAt, modIo_memOk]
theorem takeOwner_memOk (id : Nat) (nonce : BitVec 32) : MemOk (takeOwner s id nonce) := hs
theorem byMaster_memOk (w : Nat) {k : Nat → State → State} (hk : ∀ n t, MemOk t → MemOk (k n t)) : MemOk (byMaster s w k) := by
  grind [byMaster, putOwnership_memOk]
theorem claimAt_memOk (w : Nat) (nonce : BitVec 32) : MemOk (claimAt s w nonce) := by
  grind [claimAt, byMaster_memOk, putOwnership_memOk, postIn_memOk]

theorem execElectionClose_memOk : ResOk (execElectionClose s) := by
  unfold execElectionClose
  split
  · exact hs
  · split
    · exact hs
    · exact postIn_memOk (putOwnership_memOk hs _) _ _ _

theorem heartbeatAt_memOk (w : Nat) (nonce : BitVec 32) : MemOk (heartbeatAt s w nonce) := by
  grind [heartbeatAt, postIn_memOk, putOwnership_memOk]
theorem successorAt_memOk (w : Nat) (nonce : BitVec 32) (next : Nat) (nextNonce : BitVec 32) :
    MemOk (successorAt s w nonce next nextNonce) := by
  grind [successorAt, takeOwner_memOk]
theorem platformWrite_memOk (m off : Nat) (x : Word) : MemOk (platformWrite s m off x) := by
  unfold platformWrite
  grind [claimAt_memOk, heartbeatAt_memOk, successorAt_memOk, modIo_memOk, post_memOk]
theorem asidWrite_memOk (m asid w : Nat) (x : Word) : MemOk (asidWrite s m asid w x) := by
  grind [asidWrite, lostClearAt_memOk, invalidateAt_memOk, portSend_memOk, portWord_memOk, bar0Set_memOk, modFox_memOk]
theorem dieWrite_memOk (m die w : Nat) (x : Word) : MemOk (dieWrite s m die w x) := by
  grind [dieWrite, windowAt_memOk, haltAt_memOk, releaseAt_memOk, stepAt_memOk, bar0Set_memOk]
omit hs in
theorem msixWrite_postOnce'_memOk {t : State} (ht : MemOk t) (a : Nat) : MemOk (msixWrite.postOnce' t a) := by
  grind [msixWrite.postOnce', post_memOk]
theorem msixWrite_memOk (i o : Nat) (x : Word) : MemOk (msixWrite s i o x) := by
  unfold msixWrite
  exact foldl_memOk (bar0Set_memOk hs _ _) (fun _ _ ht => msixWrite_postOnce'_memOk ht _) _
theorem vfWrite_memOk (w f off : Nat) (x : Word) : MemOk (vfWrite s w f off x) := by
  grind [vfWrite, asidWrite_memOk, msixWrite_memOk]
theorem pfWrite_memOk (w off : Nat) (x : Word) : MemOk (pfWrite s w off x) := by
  grind [pfWrite, platformWrite_memOk, preemptAt_memOk, msixWrite_memOk, asidWrite_memOk, dieWrite_memOk, bar0Set_memOk]
theorem controlWrite_memOk (w off : Nat) (x : Word) : MemOk (controlWrite s w off x) := by
  grind [controlWrite, vfWrite_memOk, pfWrite_memOk]

/-! ### Resuming saved threads, gangs and theft (`Resume`) -/

theorem leaveOrigin_memOk (l : Nat) (x : Saved) : OptOk (leaveOrigin s l x) := by grind [leaveOrigin, OptOk, spillAll_memOk]

theorem spillIn_memOk (asid l : Nat) (xs : List (Nat × Nat × Nat)) : HwOk (spillIn s asid l xs) := by
  induction xs generalizing s with
  | nil => exact hs
  | cons x xs ih => grind [spillIn, HwOk, recordRead_memOk, putRaw_memOk]

theorem resumeThread_memOk (l : Nat) (x : Saved) : StartedOk (resumeThread s l x) := by
  unfold resumeThread
  extract_lets gone src bad
  have hg : ∀ t f, MemOk t → MemOk (gone (modCtx { t with order := t.order + 1 } l f)) := fun t f ht => ht
  have hb : ∀ t, MemOk t → StartedOk (bad t) := fun t ht => hg t _ ht
  have hw : ∀ t f, MemOk t → MemOk (watchBudget (gone (modCtx { t with order := t.order + 1 } l f)) l) :=
    fun t f ht => watchBudget_memOk (hg t f ht) l
  clear_value gone bad
  have ho := leaveOrigin_memOk hs l x
  cases eo : leaveOrigin s l x with rw [eo] at ho
  | none => exact hs
  | some s1 =>
    have hr := hwRead_memOk ho x.asid x.area 4096 true
    dsimp only
    cases er : hwRead s1 x.asid x.area 4096 true with rw [er] at hr
    | retry => exact hs
    | fault c s2 => exact hb _ hr
    | ok bs s2 => grind [StartedOk, HwOk, hwWrite_memOk, spillIn_memOk]

theorem reserveCrew_memOk (x : Gang) (m : Option Module) (j cl n : Nat) : MemOk (reserveCrew s x m j cl n) := by
  grind [reserveCrew, foldl_memOk, modCtx_memOk]
theorem endGather_memOk (x : Gang) : MemOk (endGather s x) := hs

theorem gangRecords_memOk (x : Launch) (g : Nat) (t : List Word) (xs : List (Nat × Nat)) : HwOk (gangRecords s x g t xs) := by
  induction xs generalizing s with
  | nil => exact hs
  | cons x xs ih => grind [gangRecords, HwOk, hwWrite_memOk]

omit hs in
theorem handlerOf_opaque : ∃ f, handlerOf = f ∧ ∀ s asid msg, MemOk s → HwOk (f s asid msg) :=
  ⟨_, rfl, fun _ _ _ h => handlerOf_memOk h _ _⟩
theorem startGang_memOk (y : Gang) (x : Launch) (g : Nat) (places : List (Nat × Nat)) : StartedOk (startGang s y x g places) := by
  obtain ⟨entry, he, hentry⟩ := handlerOf_opaque
  have ht := takeSlots_memOk hs x.asid places.length true
  unfold startGang
  rw [he]
  cases et : takeSlots s x.asid places.length true with rw [et] at ht
  | retry => exact hs
  | fault c t => exact ht
  | ok o t => cases o with
    | none => exact ht
    | some v =>
      have hh := hentry t x.asid (launchMsg x) ht
      dsimp only
      cases eh : entry t x.asid (launchMsg x) with rw [eh] at hh
      | retry => exact ht
      | fault c u => exact hh
      | ok o u => cases o with
        | none => exact hh
        | some pc =>
          have hf : ∀ {w : State}, MemOk w → ∀ (d : (Nat × Nat) × Nat → UnitInfo) m ps, MemOk
            (List.foldl (fun u (e : (Nat × Nat) × Nat) =>
              startThread (copyImages u e.1.2 m) e.1.2 x.asid pc e.2 v.2.1 (d e)) w ps) :=
            fun hw d m ps => foldl_memOk hw (fun _ _ hu => startThread_memOk (copyImages_memOk hu _ m) _ _ _ _ _ _) _
          have hg := gangRecords_memOk hh x g v.2.1 (List.zip (places.map (fun p => p.1)) v.2.2)
          dsimp only
          split
          · exact ht
          · cases eg : gangRecords u x g v.2.1 (List.zip (places.map (fun p => p.1)) v.2.2) with rw [eg] at hg
            | retry => exact ht
            | fault c w => exact refuseTemplate_memOk hg _ _
            | ok y w => exact hf (acceptTemplate_memOk hg _) _ _ _

theorem resumeGang_memOk {s0 : State} (hs0 : MemOk s0) (x : Gang) (xs : List (Nat × Nat)) : StartedOk (resumeGang s0 x s xs) := by
  induction xs generalizing s with
  | nil => exact hs
  | cons x xs ih => grind [resumeGang, StartedOk, resumeThread_memOk]

theorem ungroup_memOk (lid g : Nat) : MemOk (ungroup s lid g) := hs

theorem execGangGather_memOk (lid g : Nat) : ResOk (execGangGather lid g s) := by
  unfold execGangGather
  split
  · rename_i x ln _ _
    split
    · exact hs
    · rename_i cs _
      extract_lets ts saved m t
      have ht : MemOk t := foldl_memOk hs (fun _ _ h => reserveCrew_memOk h _ _ _ _ _) _
      clear_value t m
      grind [ResOk, StartedOk, postIn_memOk, resumeGang_memOk, startGang_memOk, endGather_memOk, ungroup_memOk]
  · exact hs

theorem beginGather_memOk (l : Nat) (x : Gang) (js : List Nat) (lid g : Nat) : StartedOk (beginGather s l x js lid g) := by
  grind [beginGather, StartedOk, post_memOk, modCtx_memOk, modFox_memOk]

theorem spoorEntries_memOk (asid p n e : Nat) : HwOk (spoorEntries s asid p n e) := by
  induction n generalizing s e with
  | zero => exact hs
  | succ n ih => grind [spoorEntries, HwOk, hwRead_memOk]

theorem commitPieces_memOk (asid : Nat) (w : BitVec 1024) (xs : List (Nat × Nat)) (bs : List Byte) :
    HwOk (commitPieces s asid w xs bs) := by
  induction xs generalizing s bs with
  | nil => exact hs
  | cons x xs ih => grind [commitPieces, HwOk, hwAddr_memOk, hwCommit_memOk]

theorem theftRead_memOk (asid : Nat) (x : Choice) : HwOk (theftRead s asid x) := by
  grind [theftRead, recordRead_memOk, HwOk, spoorEntries_memOk]
theorem startThief_memOk (l asid slot : Nat) (t ws : List Word) (x : Choice) (m : Option Nat) (hdr h : Word) :
    MemOk (startThief s l asid slot t ws x m hdr h) := hs
theorem theftFaulted_memOk (asid : Nat) (x : Choice) : HwOk (theftFaulted s asid x) := by
  grind [theftFaulted, hwChange_memOk, HwOk]
theorem theftDo_memOk (thief asid : Nat) (x : Choice) (m : Option Module) (hdr : Word) (t : List Word) (slot : Nat) :
    HwOk (theftDo s thief asid x m hdr t slot) := by
  grind [theftDo, HwOk, theftRead_memOk, theftFaulted_memOk, commitPieces_memOk, startThief_memOk, copyImages_memOk]
theorem endTheft_memOk (thief : Nat) : MemOk (endTheft s thief) := hs
theorem execTheft_memOk (victim : Nat) (rec' : Word) (thief : Nat) : ResOk (execTheft victim rec' thief s) := by
  grind [execTheft, ResOk, endTheft_memOk, takeSlots_memOk, repost_memOk, HwOk, theftDo_memOk]

/-! ### Dispatch (`Fox`) -/

omit hs in
theorem leaving_memOk {r : Started} (hr : StartedOk r) {f : State → State} (hf : ∀ t, MemOk t → MemOk (f t)) :
    StartedOk (leaving r f) := by
  unfold leaving
  grind [StartedOk]

theorem dequeLeave_memOk (core i : Nat) : MemOk (dequeLeave s core i) := by grind [dequeLeave, spawnRefill_memOk, dequeTake_memOk]
theorem groupTaken_memOk (x : Launch) (g die n : Nat) : MemOk (groupTaken s x g die n) := hs
theorem groupLost_memOk (x : Launch) (g die : Nat) : MemOk (groupLost s x g die) := hs

theorem takeGroup_memOk (l lid g : Nat) : StartedOk (takeGroup s l lid g) := by
  obtain ⟨entry, he, hentry⟩ := handlerOf_opaque
  have hl : ∀ {u : State}, MemOk u → ∀ n a msg x g die, MemOk
    (groupLost ((List.range n).foldl (fun u _ => badHandler u a msg) u) x g die) :=
    fun hu n a msg x g die => groupLost_memOk (foldl_memOk hu (fun _ _ h => badHandler_memOk h _ _) _) _ _ _
  unfold takeGroup
  rw [he]
  cases launchAt s lid with
  | none => exact hs
  | some x =>
    dsimp only
    split
    · grind [StartedOk, startMsg_memOk, groupTaken_memOk, groupLost_memOk]
    · have ht := takeSlots_memOk hs x.asid (ldT x.words) true
      cases et : takeSlots s x.asid (ldT x.words) true with rw [et] at ht
      | retry => exact hs
      | fault c t => exact ht
      | ok o t => cases o with
        | none => exact ht
        | some v =>
          have hh := hentry t x.asid (launchMsg x) ht
          dsimp only
          cases eh : entry t x.asid (launchMsg x) with rw [eh] at hh
          | retry => exact ht
          | fault c u => exact hh
          | ok o u => cases o with
            | none => exact hl hh _ _ _ _ _ _
            | some pc => grind [StartedOk, HwOk, beginGather_memOk, groupTaken_memOk, modFox_memOk]

theorem takeSaved_memOk (l : Nat) (x : Saved) : StartedOk (takeSaved s l x) := by
  grind [takeSaved, StartedOk, readTemplate_memOk, HwOk, resumeThread_memOk, beginGather_memOk]
theorem keepRegions_memOk (asid : Nat) (b : Option Bound) : MemOk (keepRegions s asid b) := by
  unfold keepRegions
  grind [modFox_memOk]
theorem queueTaken_memOk (l die pos : Nat) (x : Head) : MemOk (queueTaken s l die pos x) := by
  grind [queueTaken, touchHead_memOk, headTook_memOk, keepRegions_memOk, modDie_memOk, modFox_memOk]
theorem badEntry_memOk (x : Head) (msg : List Word) : MemOk (badEntry s x msg) := by grind [badEntry, badEvent_memOk]

theorem takeEntry_memOk (l die pos : Nat) (x : Head) : StartedOk (takeEntry s l die pos x) := by
  unfold takeEntry
  grind [ringHead_memOk, StartedOk, HwOk, headEmpty_memOk, headWaits_memOk, badEntry_memOk, freeSlot_memOk, leaving_memOk,
    queueTaken_memOk, startMsg_memOk]

theorem addTask_memOk (x : Head) (t : OTask) : MemOk (addTask s x t) := hs

theorem pullTasks_memOk (x : Head) (n : Nat) : MemOk (pullTasks x n s) := by
  induction n generalizing s with
  | zero => exact hs
  | succ n ih => grind [pullTasks, HwOk, headWaits_memOk, badEntry_memOk, headTook_memOk, freeSlot_memOk, addTask_memOk,
    headEmpty_memOk, ringHead_memOk]

theorem takeOrdered_memOk (l die pos : Nat) (x : Head) : StartedOk (takeOrdered s l die pos x) := by
  grind [takeOrdered, pullTasks_memOk, StartedOk, startMsg_memOk, queueTaken_memOk, modTask_memOk]
theorem takeChoice_memOk (l : Nat) (x : Choice) : StartedOk (takeChoice s l x) := by
  grind [takeChoice, StartedOk, takeSlots_memOk, HwOk, modCtx_memOk, post_memOk]

theorem takeWork_memOk (l : Nat) (x : Work) : StartedOk (takeWork s l x) := by
  unfold takeWork
  grind [StartedOk, startMsg_memOk, leaving_memOk, mailboxTake_memOk, dequeLeave_memOk, takeSaved_memOk, takeGroup_memOk,
    takeOrdered_memOk, takeEntry_memOk, takeChoice_memOk]

theorem countDispatch_memOk (die p : Nat) : MemOk (countDispatch s die p) := hs

omit hs in
theorem tryItems_memOk (l p : Nat) {x : Search} (hx : SearchOk x) (xs : List Work) : SearchOk (tryItems l p x xs) := by
  induction xs generalizing x with
  | nil => exact hx
  | cons w ws ih => grind [tryItems, SearchOk, StartedOk, countDispatch_memOk, takeWork_memOk]

omit hs in
theorem trySteps_memOk (l p : Nat) {x : Search} (hx : SearchOk x) (xs : List Nat) : SearchOk (trySteps l p x xs) := by
  induction xs generalizing x with
  | nil => exact hx
  | cons m ms ih => grind [trySteps, tryItems_memOk]

omit hs in
theorem tryClasses_memOk (l : Nat) {x : Search} (hx : SearchOk x) (xs : List Nat) : SearchOk (tryClasses l x xs) := by
  induction xs generalizing x with
  | nil => exact hx
  | cons p ps ih => grind [tryClasses, trySteps_memOk]

theorem execDispatch_memOk : ResOk (execDispatch s) := by grind [execDispatch, ResOk, tryClasses_memOk, SearchOk]

/-! ### Requests of hosts and peers (`Inbound`) -/

theorem bar0Write_memOk (req : Nat) (cells : List (Nat × Byte)) : MemOk (bar0Write s req cells) := by
  grind [bar0Write, foldl_memOk, controlWrite_memOk]
theorem execInboundWrite_memOk (req : Nat) (ro : Bool) (cells : List (Nat × Byte)) : ResOk (execInboundWrite req ro cells s) := by
  grind [execInboundWrite, ResOk, repost_memOk, bar0Write_memOk, memWrite_memOk]
theorem execInboundRead_memOk (req pa n : Nat) : ResOk (execInboundRead req pa n s) := by
  grind [execInboundRead, ResOk, answer_memOk, repost_memOk, memRead_memOk, OptOk]

/-! ### Sprinny modules (`Loader`) -/

theorem modModule_memOk (mid : Nat) (f : Module → Module) : MemOk (modModule s mid f) := hs
theorem refuseModule_memOk (mid : Nat) : MemOk (refuseModule s mid) := hs
theorem useImage_memOk (mid : Nat) (x : Image) : MemOk (useImage s mid x) := hs
theorem execSprinnyTranslate_memOk : ResOk (execSprinnyTranslate s) := by
  unfold execSprinnyTranslate
  grind [ResOk, refuseModule_memOk, useImage_memOk]
theorem putEntryWord_memOk (h key : Nat) (x : Word) : MemOk (putEntryWord s h key x) := by grind [putEntryWord, commitBytes_memOk]

theorem mapFrom_memOk (va : Nat) (leaf : Nat → Word) (h k : Nat) (xs : List (Nat × Nat × Bool)) (n : Nat) :
    MemOk (mapFrom va leaf h k s xs n) := by
  induction xs generalizing s n with
  | nil => exact hs
  | cons e es ih => grind [mapFrom, putEntryWord_memOk]

theorem mapPage_memOk (asid : Nat) (x : Placed) (va k : Nat) : MemOk (mapPage s asid x va k) := by
  grind [mapPage, mapFrom_memOk, putEntryWord_memOk]
theorem mapSection_memOk (asid : Nat) (x : Placed) : MemOk (mapSection s asid x) := by
  grind [mapSection, foldl_memOk, mapPage_memOk]

theorem writePieces_memOk (asid : Nat) (xs : List (Nat × Nat)) (bs : List Byte) : LoadedOk (writePieces s asid xs bs) := by
  induction xs generalizing s bs with
  | nil => exact hs
  | cons x xs ih => grind [writePieces, LoadedOk, hwCommit_memOk]

theorem placeSections_memOk (asid : Nat) (f : List Byte) (xs : List Placed) : LoadedOk (placeSections s asid f xs) := by
  induction xs generalizing s with
  | nil => exact hs
  | cons x xs ih => grind [placeSections, LoadedOk, mapSection_memOk, writePieces_memOk]

theorem fillTable_memOk (asid w : Nat) (xs : List (Nat × Nat)) : LoadedOk (fillTable s asid w xs) := by
  induction xs generalizing s with
  | nil => exact hs
  | cons x xs ih => grind [fillTable, HwOk, LoadedOk, hwWrite_memOk]

theorem submitAll_memOk (asid : Nat) (xs : List Nat) : LoadedOk (submitAll s asid xs) := by
  induction xs generalizing s with
  | nil => exact hs
  | cons x xs ih => grind [submitAll, LoadedOk, OptOk, launchAccept_memOk]

omit hs in
theorem Loaded_andThen_memOk {r : Loaded} (hr : LoadedOk r) {f : State → Loaded} (hf : ∀ t, MemOk t → LoadedOk (f t)) :
    LoadedOk (Loaded.andThen r f) := by
  unfold Loaded.andThen
  grind [LoadedOk]

theorem loadModule_memOk (m : Module) : LoadedOk (loadModule s m) := by
  unfold loadModule
  grind [LoadedOk, modModule_memOk, Loaded_andThen_memOk, placeSections_memOk, fillTable_memOk, submitAll_memOk]
theorem execLoaderStart_memOk : ResOk (execLoaderStart s) := by
  grind [execLoaderStart, ResOk, post_memOk, loadModule_memOk, LoadedOk, postIn_memOk, refuseModule_memOk]

/-! ### Casts (`Pointer`) -/

theorem castFault_memOk (a : Src) (func : Nat) : ResOk (castFault s a func) := by grind [castFault, raise_memOk]
theorem castPush_memOk (a : Src) (d : Dest) (func : Nat) (x : Option Word) : ResOk (castPush s a d func x) := by
  unfold castPush
  grind [finishPush_memOk, castFault_memOk]

/-! ### Servicing and reset (`Service`) -/

theorem execSwitchImage_memOk (img : Nat) (target : Bool) : ResOk (execSwitchImage img target s) := by
  grind [execSwitchImage, ResOk, modIo_memOk, post_memOk]
theorem execRecalibrateHome_memOk : ResOk (execRecalibrateHome s) := by
  grind [execRecalibrateHome, ResOk, modHome_memOk, post_memOk, postIn_memOk]
theorem cancelGather_memOk (x : Gang) : MemOk (cancelGather s x) := by grind [cancelGather, endGather_memOk, ungroup_memOk]
theorem cancelGathers_memOk (die : Nat) : MemOk (cancelGathers s die) := by grind [cancelGathers, foldl_memOk, cancelGather_memOk]
theorem preemptDie_memOk (die : Nat) : MemOk (preemptDie s die) := by
  grind [preemptDie, releaseCores_memOk, cancelGathers_memOk, post_memOk]
theorem spillDie_memOk (die : Nat) : OptOk (spillDie s die) := by grind [spillDie, OptOk, foldl_optOk, spillTile_memOk]
theorem restartDie_memOk (die : Nat) : MemOk (restartDie s die) := by grind [restartDie, foldl_memOk, restart_memOk]
theorem giveBack_memOk (b : Block) : MemOk (giveBack s b) := by grind [giveBack, poisonBad_memOk, putWords_memOk]
theorem flushDie_memOk (die : Nat) : MemOk (flushDie s die) := by grind [flushDie, foldl_memOk, giveBack_memOk]
theorem dropDie_memOk (die : Nat) : MemOk (dropDie s die) := hs
theorem undirDie_memOk (die : Nat) : MemOk (undirDie s die) := hs
theorem moveHeads_memOk (die : Nat) : MemOk (moveHeads s die) := by grind [moveHeads, foldl_memOk, modDie_memOk, displace_memOk]
theorem writeCensus_memOk : MemOk (writeCensus s) := by grind [writeCensus, bar0Set_memOk]
theorem markRetired_memOk (die : Nat) : MemOk (markRetired s die) := by grind [markRetired, modIo_memOk, writeCensus_memOk]
theorem execRetireDie_memOk : ResOk (execRetireDie s) := by
  grind [execRetireDie, ResOk, preemptDie_memOk, postIn_memOk, spillDie_memOk, OptOk, restartDie_memOk, dropDie_memOk, post_memOk,
    moveHeads_memOk, markRetired_memOk, flushDie_memOk, undirDie_memOk]
theorem execResetPackage_memOk (keep : Bool) : ResOk (execResetPackage keep s) := keptCells_wf s keep hs
theorem execFatalErrorDump_memOk : ResOk (execFatalErrorDump s) := by
  grind [execFatalErrorDump, ResOk, foldl_memOk, modIo_memOk, putBytes_memOk]

/-! ### System-scope instructions (`SystemScope`) -/

theorem execLdacqSys_memOk (b : Src) (d : Dest) (z : Size) (o : BitVec 11) : ResOk (execLdacqSys b d z o s) := by
  grind [execLdacqSys, closing_memOk, withClosing_memOk, sysRead_memOk, finishClosing_memOk, raiseClosing_memOk, askFill_memOk]
theorem execStrelSys_memOk (b r : Src) (z : Size) (o : BitVec 11) : ResOk (execStrelSys b r z o s) := by
  grind [execStrelSys, closing_memOk, stall_memOk, withClosing_memOk, sysWrite_memOk, finishClosing_memOk, crcClosing_memOk,
    MemOk, squashMeeting_memOk, engineStore_memOk, storeNow_memOk]
theorem execFenceSys_memOk : ResOk (execFenceSys s) := by
  grind [execFenceSys, closing_memOk, MemOk, stall_memOk, finishClosing_memOk, modMe_memOk]
theorem execFenceIo_memOk : ResOk (execFenceIo s) := by grind [execFenceIo, closing_memOk, stall_memOk, finishClosing_memOk]

/-! ### Every instruction (`Dispatch`) -/

theorem exec_memOk : ∀ i, ResOk (exec i s)
  | .add .. | .sub .. | .mul .. | .mulh .. | .mulhz .. | .div .. | .divz .. | .rem .. | .remz .. | .andR .. | .orR ..
  | .xorR .. | .andn .. | .orn .. | .shl .. | .shr .. | .sra .. | .rol .. | .ror .. | .minS .. | .maxS .. | .minz ..
  | .maxz .. | .slt .. | .sltz .. | .seqR .. | .sne .. | .clz .. | .ctz .. | .popc .. | .brev .. | .bswap .. | .sext ..
  | .zext .. | .sel .. | .ins .. | .lea .. | .addi .. | .andi .. | .ori .. | .xori .. | .shli .. | .shri .. | .srai ..
  | .slti .. | .sltzi .. | .seqi .. | .li .. | .lcat .. | .extI .. | .space .. | .mark .. | .fadd .. | .fsub .. | .fmul ..
  | .fdiv .. | .fmin .. | .fmax .. | .fsqrt .. | .fclass .. | .fround .. | .fsgn .. | .ffma .. | .feq .. | .flt ..
  | .fle .. | .vadd .. | .vsub .. | .vmul .. | .vfma .. | .vmin .. | .vmax .. | .vabs .. | .vneg .. | .vsel ..
  | .vredSum .. | .vredMin .. | .vredMax .. | .vscan .. | .vperm .. | .vcompress .. | .vbcast .. | .mand .. | .mor ..
  | .mnot .. | .mpop .. | .backInvalidate .. | .releaseHeld .. | .powerThrottle .. | .nop | .cend | .cxlCacheSnoop
  | .ownerStale | .writeRetiredMask | .serviceComplete => hs
  | .castPg .. | .castSl .. | .castSx .. | .castCl .. | .castOff .. => castPush_memOk hs ..
  | .jmp .. | .call .. => jumpTo_memOk hs ..
  | .beq .. | .bne .. | .blt .. | .bge .. | .bltz .. | .bgez .. | .bz .. | .bnz .. => branch_memOk hs ..
  | .jtab .. => execJtab_memOk hs ..
  | .jr .. | .callr .. => jumpReg_memOk hs ..
  | .ld .. => execLd_memOk hs ..
  | .lz .. => execLz_memOk hs ..
  | .st .. => execSt_memOk hs ..
  | .stNt .. => execStNt_memOk hs ..
  | .ldp .. => execLdp_memOk hs ..
  | .stp .. => execStp_memOk hs ..
  | .pref .. => execPref_memOk hs ..
  | .flush .. => execFlush_memOk hs ..
  | .clean .. => execClean_memOk hs ..
  | .inval .. => execInval_memOk hs ..
  | .amo .. => execAmo_memOk hs ..
  | .cas .. => execCas_memOk hs ..
  | .amof .. => execAmof_memOk hs ..
  | .amor .. => execAmor_memOk hs ..
  | .amorCas .. => execAmorCas_memOk hs ..
  | .ldacqSys .. => execLdacqSys_memOk hs ..
  | .strelSys .. => execStrelSys_memOk hs ..
  | .waita .. => execWaita_memOk hs ..
  | .give .. => execGive_memOk hs ..
  | .take .. => execTake_memOk hs ..
  | .fwait .. | .froom .. => fifoWait_memOk hs ..
  | .fadv .. => execFadv_memOk hs ..
  | .fpub .. => execFpub_memOk hs ..
  | .tbinit .. => execTbinit_memOk hs ..
  | .tbarr .. => execTbarr_memOk hs ..
  | .tbexp .. => execTbexp_memOk hs ..
  | .tbwait .. => execTbwait_memOk hs ..
  | .send .. => execSend_memOk hs ..
  | .sendr .. => execSendr_memOk hs ..
  | .enq .. => execEnq_memOk hs ..
  | .enqt .. => execEnqt_memOk hs ..
  | .deq .. => execDeq_memOk hs ..
  | .jinit .. => execJinit_memOk hs ..
  | .doneJ .. => execDoneJ_memOk hs ..
  | .doneT .. => execDoneT_memOk hs ..
  | .doneF .. => execDoneF_memOk hs ..
  | .rread .. => execRread_memOk hs ..
  | .launch .. => execLaunch_memOk hs ..
  | .qmap .. => execQmap_memOk hs ..
  | .tryC .. | .tryS .. => tryStep_memOk hs ..
  | .cut .. => execCut_memOk hs ..
  | .trail .. => execTrail_memOk hs ..
  | .fcvt .. => execFcvt_memOk hs ..
  | .mfmt .. => execMfmt_memOk hs ..
  | .mscl .. => execMscl_memOk hs ..
  | .mtick .. => execMtick_memOk hs ..
  | .mresume .. => execMresume_memOk hs ..
  | .accspill .. => execAccspill_memOk hs ..
  | .vld .. | .vlds .. | .vgather .. => vecLoad_memOk hs ..
  | .vst .. | .vsts .. | .vscatter .. => vecStore_memOk hs ..
  | .vand .. | .vor .. | .vxor .. | .vshl .. | .vshr .. | .vsra .. => vTwo_memOk hs ..
  | .vcmp .. => execVcmp_memOk hs ..
  | .vext .. => execVext_memOk hs ..
  | .vins .. => execVins_memOk hs ..
  | .vcvt .. => execVcvt_memOk hs ..
  | .vdq .. => execVdq_memOk hs ..
  | .vdot .. => execVdot_memOk hs ..
  | .vcvtq .. | .vcvtqH16 .. | .vcvtqH32 .. => vQuant_memOk hs ..
  | .vhadH16 .. | .vhadH32 .. => vHad_memOk hs ..
  | .trap .. => raiseOwn_memOk hs ..
  | .crd .. => execCrd_memOk hs ..
  | .cwr .. => execCwr_memOk hs ..
  | .tinv .. => execTinv_memOk hs ..
  | .rmode .. => execRmode_memOk hs ..
  | .ctxsave .. => execCtxsave_memOk hs ..
  | .ctxload .. => execCtxload_memOk hs ..
  | .pre .. => execPre_memOk hs ..
  | .mcheck .. => execMcheck_memOk hs ..
  | .grantRequest .. => execGrantRequest_memOk hs ..
  | .commitMessage .. => execCommitMessage_memOk hs ..
  | .forwardedW .. => execForwardedW_memOk hs ..
  | .faultResponse .. => execFaultResponse_memOk hs ..
  | .getS .. => execGetS_memOk hs ..
  | .homeDataArrival .. => execHomeDataArrival_memOk hs ..
  | .writeBack .. => execWriteBack_memOk hs ..
  | .snoop .. => execSnoop_memOk hs ..
  | .ownerMoveReport .. => execOwnerMoveReport_memOk hs ..
  | .fillArrival .. => execFillArrival_memOk hs ..
  | .extensionArrival .. => execExtensionArrival_memOk hs ..
  | .leaseExpiry .. => execLeaseExpiry_memOk hs ..
  | .recallName .. => execRecallName_memOk hs ..
  | .recallAnswer .. => execRecallAnswer_memOk hs ..
  | .pageWalk .. => execPageWalk_memOk hs ..
  | .tinvHome .. => execTinvHome_memOk hs ..
  | .rmodeDrain .. => execRmodeDrain_memOk hs ..
  | .directoryError .. => execDirectoryError_memOk hs ..
  | .filterError .. => execFilterError_memOk hs ..
  | .inboundWrite .. => execInboundWrite_memOk hs ..
  | .inboundRead .. => execInboundRead_memOk hs ..
  | .atomicopFetchadd .. | .atomicopSwap .. | .atomicopCas .. => atomicOp_memOk hs ..
  | .backInvalidateAnswer .. => execBackInvalidateAnswer_memOk hs ..
  | .messagePortWord .. => portWord_memOk hs ..
  | .messagePortSend .. => portSend_memOk hs ..
  | .gangGather .. => execGangGather_memOk hs ..
  | .theft .. => execTheft_memOk hs ..
  | .queueMiss .. => execQueueMiss_memOk hs ..
  | .mailboxDelivery .. => execMailboxDelivery_memOk hs ..
  | .successorWalk .. => execSuccessorWalk_memOk hs ..
  | .tcbDecrement .. => execTcbDecrement_memOk hs ..
  | .joinDecrement .. => execJoinDecrement_memOk hs ..
  | .groupComplete .. => execGroupComplete_memOk hs ..
  | .dupCompare .. => execDupCompare_memOk hs ..
  | .barrierRelease .. => execBarrierRelease_memOk hs ..
  | .preemptRequest .. => execPreemptRequest_memOk hs ..
  | .preemptComplete .. => execPreemptComplete_memOk hs ..
  | .accWriteback .. => execAccWriteback_memOk hs ..
  | .chainHop .. => execChainHop_memOk hs ..
  | .preEmptionRegister .. => preemptAt_memOk hs ..
  | .asidInvalidate .. => invalidateAt_memOk hs ..
  | .lostEventClear .. => lostClearAt_memOk hs ..
  | .haltCores .. => haltAt_memOk hs ..
  | .haltRelease .. => releaseAt_memOk hs ..
  | .stepCore .. => stepAt_memOk hs ..
  | .debugWindowWrite .. => windowAt_memOk hs ..
  | .controlSpaceWrite .. => controlWrite_memOk hs ..
  | .claim .. => claimAt_memOk hs ..
  | .heartbeat .. => heartbeatAt_memOk hs ..
  | .successor .. => successorAt_memOk hs ..
  | .switchImage .. => execSwitchImage_memOk hs ..
  | .resetPackage .. => execResetPackage_memOk hs ..
  | .systemScopeCompletion .. => execSystemScopeCompletion_memOk hs ..
  | .fenceSys => execFenceSys_memOk hs
  | .fenceIo => execFenceIo_memOk hs
  | .spawn => execSpawn_memOk hs
  | .doneP => execDoneP_memOk hs
  | .yieldC => execYieldC_memOk hs
  | .bar => execBar_memOk hs
  | .barb => execBarb_memOk hs
  | .failC => failStep_memOk hs ..
  | .eret => execEret_memOk hs
  | .brk => execBrk_memOk hs
  | .trapEntry => execTrapEntry_memOk hs
  | .asyncTrap => execAsyncTrap_memOk hs
  | .chunkLengthLimit => execChunkLengthLimit_memOk hs
  | .chunkEnd => execChunkEnd_memOk hs
  | .commitPoint => execCommitPoint_memOk hs
  | .commitComplete => execCommitComplete_memOk hs
  | .heldChunkStart => execHeldChunkStart_memOk hs
  | .softError => execSoftError_memOk hs
  | .watchWake => execWatchWake_memOk hs
  | .yieldResume => execYieldResume_memOk hs
  | .engineCommit => execEngineCommit_memOk hs
  | .ioCommit => execIoCommit_memOk hs
  | .msixSend => execMsixSend_memOk hs
  | .dispatch => execDispatch_memOk hs
  | .queueProbe => execQueueProbe_memOk hs
  | .ringDelivery => execRingDelivery_memOk hs
  | .ringRetry => execRingRetry_memOk hs
  | .queueStall => execQueueStall_memOk hs
  | .taskHang => execTaskHang_memOk hs
  | .mma => execMma_memOk hs
  | .mmaz => execMmaz_memOk hs
  | .mload => execMload_memOk hs
  | .mstore => execMstore_memOk hs
  | .mzero => execMzero_memOk hs
  | .mfence => execMfence_memOk hs
  | .commandComplete => execCommandComplete_memOk hs
  | .pktCopy => execPktCopy_memOk hs
  | .pktTofifo => execPktTofifo_memOk hs
  | .pktGather => execPktGather_memOk hs
  | .pktScatter => execPktScatter_memOk hs
  | .pktFill => execPktFill_memOk hs
  | .pktChain => execPktChain_memOk hs
  | .electionClose => execElectionClose_memOk hs
  | .recalibrateHome => execRecalibrateHome_memOk hs
  | .retireDie => execRetireDie_memOk hs
  | .fatalErrorDump => execFatalErrorDump_memOk hs
  | .sprinnyTranslate => execSprinnyTranslate_memOk hs
  | .loaderStart => execLoaderStart_memOk hs

/-! ### Fetching a word (`Fetch`) -/

theorem fetchLeaf_memOk (pc : Nat) (l : Leaf) : FetchedOk (fetchLeaf s pc l) := by
  grind [fetchLeaf, FetchedOk, claimCp_memOk, throughFilter_memOk, OptOk]
theorem fetch_memOk : FetchedOk (fetch s) := by grind [fetch, FetchedOk, fetchLeaf_memOk, postOnce_memOk]
theorem cutHeld_memOk (l : Nat) : MemOk (cutHeld s l) := by grind [cutHeld, releasePriority_memOk, modCtx_memOk, endChunkOf_memOk]
theorem settle_memOk (l : Nat) {s' : State} (hs' : MemOk s') : MemOk (settle s l s') := by
  grind [settle, cutHeld_memOk, wakeYielded_memOk, modCtx_memOk, committed_memOk, endStep_memOk]

/-! ### The clock and the chunk cut (`Sched`) -/

theorem stepBegun_memOk (l : Nat) : MemOk (stepBegun s l) := by grind [stepBegun, modCore_memOk]
theorem takeOff_memOk (i u : Nat) : MemOk (takeOff s i u) := hs

/-! ### One step of the package (`Step`) -/

theorem issue_memOk (l : Nat) : ResOk (issue s l) := by
  unfold issue
  extract_lets t c u
  have hb : MemOk { s with cur := l } := hs
  have ht : MemOk t := stepBegun_memOk hb l
  have hu : MemOk u := modMe_memOk ht _
  clear_value t u
  split
  · grind [ResOk, OptOk, commitTail_memOk, stall_memOk]
  · split
    · exact exec_memOk ht _
    · split
      · exact exec_memOk ht _
      · split
        · exact exec_memOk (modMe_memOk ht _) _
        · have hf := fetch_memOk hu
          cases h : fetch u with rw [h] at hf
          | wait w v => exact stall_memOk hf w
          | trap home cause tval => cases home with
            | true => exact raiseHome_memOk hu _ _ _
            | false => exact raise_memOk hu _ _ _
          | word w v =>
            have hv : MemOk (modMe v (fun c => { c with word := w })) := modMe_memOk hf _
            dsimp only
            generalize modMe v (fun c => { c with word := w }) = v at hv
            cases decodeWord w with
            | error e => exact raiseIllegal_memOk hv
            | ok i =>
              have he := exec_memOk hv i
              dsimp only
              cases h : exec i v with rw [h] at he
              | next u => exact settle_memOk hv l he
              | fault _ => trivial
              | refused _ => trivial

theorem runPending_memOk (i : Nat) : ResOk (runPending s i) := by
  unfold runPending
  split
  · exact hs
  · split
    · exact exec_memOk (takeOff_memOk hs _ _) _
    · trivial

theorem runIntake_memOk (asid h : Nat) : ResOk (runIntake s asid h) := by
  have hc := copyPoll_memOk hs asid h
  unfold runIntake
  cases e : copyPoll s asid h with
  | mk t o => cases o with rw [e] at hc
    | none => exact hc
    | some i =>
      have ht : MemOk { t with cur := copyUnit asid h } := hc
      exact exec_memOk ht i

theorem step_memOk : ResOk (step s) := by
  unfold step
  extract_lets r
  have hr : ResOk r := by
    unfold r
    split
    · exact runPending_memOk hs _
    · exact issue_memOk hs _
    · have ht : MemOk { s with cur := asker s } := hs
      exact exec_memOk ht _
    · exact runIntake_memOk hs _ _
    · split <;> exact hs
  clear_value r
  cases r <;> exact hr

end

/-- Settles O59: memory is in its canonical form after every step that answers a state, by `step_memOk`. -/
theorem memoryFormKept : Obligations.MemoryFormKept := by
  intro s t hs h
  have ht : ResOk (step s) := step_memOk hs
  rwa [h] at ht

end Sys2Proof.Machine
end

section
/-! PROOF. Words of the spec (O57), and the step that runs what the bytes at the PC decode to (O58): the fetch reads the word at the PC,
and `issue` hands it to the instruction that it decodes to. -/

namespace Sys2Proof.Machine

/-- Settles O57: each word is decoded by the kernel. -/
theorem specWordsDecode : Obligations.SpecWordsDecode := by
  unfold Obligations.SpecWordsDecode
  refine ⟨?_, ?_, ?_, ?_, ?_, ?_, ?_, ?_, ?_, ?_, ?_⟩ <;> decide +kernel

/-! ### Bytes and words (R5) -/

theorem toNat_append_byte {n : Nat} (x : BitVec n) (b : Byte) : (x ++ b).toNat = 256 * x.toNat + b.toNat := by
  rw [BitVec.toNat_append, ← Nat.shiftLeft_add_eq_or_of_lt b.isLt, Nat.shiftLeft_eq, Nat.mul_comm]

theorem wordOfBytes_eq (b0 b1 b2 b3 : Byte) : wordOfBytes b0 b1 b2 b3 = BitVec.ofNat 32 (leNat [b0, b1, b2, b3]) := by
  apply BitVec.eq_of_toNat_eq
  simp only [wordOfBytes, toNat_append_byte, BitVec.toNat_ofNat, leNat]
  omega

@[simp] theorem length_memBytes (m : List Host.Cell) (a n : Nat) : (memBytes m a n).length = n := by
  induction n generalizing a with
  | zero => rfl
  | succ n ih => simp [memBytes, ih]

theorem leNat_append (xs ys : List Byte) : leNat (xs ++ ys) = leNat xs + 256 ^ xs.length * leNat ys := by
  induction xs with
  | nil => simp [leNat]
  | cons x xs ih => simp only [List.cons_append, leNat, ih, List.length_cons]; ring

theorem leNat_lt (bs : List Byte) : leNat bs < 256 ^ bs.length := by
  induction bs with
  | nil => simp [leNat]
  | cons b bs ih => have := b.isLt; simp only [leNat, List.length_cons, pow_succ]; omega

theorem memBytes_add (m : List Host.Cell) (a n k : Nat) : memBytes m a (n + k) = memBytes m a n ++ memBytes m (a + n) k := by
  induction n generalizing a with
  | zero => simp [memBytes]
  | succ n ih => rw [Nat.add_right_comm, memBytes, ih, memBytes, Nat.add_right_comm]; rfl

theorem memWord_halves (m : List Host.Cell) (a : Nat) :
    memWord m a = BitVec.ofNat 64 (leNat (memBytes m a 4) + 2 ^ 32 * leNat (memBytes m (a + 4) 4)) := by
  rw [memWord, memBytes_add m a 4 4, leNat_append, length_memBytes]; norm_num

theorem leNat_four (m : List Host.Cell) (a : Nat) : leNat (memBytes m a 4) < 2 ^ 32 := by
  simpa [length_memBytes] using leNat_lt (memBytes m a 4)

theorem halfAt_memWord (m : List Host.Cell) {a pc : Nat} (h : a % 8 = pc % 8) (h4 : pc % 4 = 0) :
    halfAt (memWord m (a / 8 * 8)) pc = BitVec.ofNat 32 (leNat (memBytes m a 4)) := by
  have hl := leNat_four m (a / 8 * 8)
  have hh := leNat_four m (a / 8 * 8 + 4)
  apply BitVec.eq_of_toNat_eq
  by_cases h0 : pc % 8 = 0
  · have e : a / 8 * 8 = a := by omega
    rw [e] at hl hh ⊢
    simp only [halfAt, h0, if_true, memWord_halves, BitVec.toNat_setWidth, BitVec.toNat_ofNat]
    omega
  · have e : a / 8 * 8 + 4 = a := by omega
    rw [e] at hh
    simp only [halfAt, h0, if_false, memWord_halves, e, BitVec.toNat_setWidth, BitVec.toNat_ofNat, BitVec.toNat_ushiftRight,
      Nat.shiftRight_eq_div_pow]
    omega

theorem decode_memBytes (m : List Host.Cell) (a : Nat) : decode (memBytes m a 4) =
    (decodeWord (BitVec.ofNat 32 (leNat (memBytes m a 4)))).map (fun i => (i, [])) := by
  simp only [memBytes, decode, wordOfBytes_eq]
  cases decodeWord _ <;> rfl

/-! ### The fetch -/

theorem wordSeen_unlogged {s : State} {key : Nat} (h : ∀ x ∈ s.codeLog, x.1 ≠ key) (seq : Nat) :
    wordSeen s key seq = memWord s.mem key := by
  have hn : s.codeLog.find? (fun e => e.1 == key && (e.2.2.2.isSome || seq ≤ e.2.2.1)) = none :=
    List.find?_eq_none.mpr fun x hx => by simp [h x hx]
  rw [wordSeen, hn]

/-- The state in which a fetch at `pc` passes the filter of its home: a first access to a CP page has claimed it (R126). -/
def cpReached (s : State) (lf : Leaf) (asid pc core : Nat) : State :=
  if pteMode lf.pte = 2 then claimCp s (homeOf pc) (leafAddr lf pc) asid pc core else s

theorem cpReached_homes (s : State) (lf : Leaf) (asid pc core : Nat) : HomesOnly s (cpReached s lf asid pc core) :=
  homesOnly_if (homesOnly_claimCp _ _ _ _ _ _) (.refl s)

/-- A fetch on its straight path: the translation found allows it, and nothing is asked of anybody. -/
theorem fetch_word {s v z : State} {lf : Leaf} {pc asid a : Nat} (hpc : (me s).regs.pc.toNat = pc) (hasid : asidOf (me s) = asid)
    (ha : leafAddr lf pc = a) (hcanon : pc < 2 ^ 56) (hglobal : isGlobal pc = true) (hwatch : watchHit s asid pc 4 [62] = none)
    (hleaf : tlbFind s asid pc = some lf) (hfault : leafFault s lf pc ⟨false, false, true⟩ (isUser (me s)) = none)
    (hsys : pteSystem lf.pte = false) (hhome : homeHolds s (homeOf pc) a asid pc = false)
    (howner : pteMode lf.pte = 2 → ∀ o ∈ cpOwnerOf (cpReached s lf asid pc (coreOf s.cur)) (homeOf pc) a, o = coreOf s.cur)
    (hfilter : throughFilter (cpReached s lf asid pc (coreOf s.cur)) (homeOf pc) asid false (namedRegions a pc 4) = (some v, z))
    (hpoison : a / 8 * 8 ∉ v.poison) :
    fetch s = .word (halfAt (wordSeen v (a / 8 * 8) (me s).fenceSeq) pc) v := by
  subst hpc hasid ha
  have hc : ¬ 72057594037927936 ≤ (me s).regs.pc.toNat := by omega
  have hfetch : fetch s = fetchLeaf s (me s).regs.pc.toNat lf := by
    simp [fetch, hc, hglobal, hwatch, hleaf]
  rw [hfetch, fetchLeaf]
  generalize (me s).regs.pc.toNat = pc at *
  by_cases hm : pteMode lf.pte = 2
  · have ho := howner hm
    have hcur := (homesOnly_claimCp s (homeOf pc) (leafAddr lf pc) (asidOf (me s)) pc (coreOf s.cur)).cur
    simp only [cpReached, hm, if_true] at ho hfilter
    simp [hfault, hsys, hhome, hm, hfilter, hpoison, hcur]
    cases eo : cpOwnerOf (claimCp s (homeOf pc) (leafAddr lf pc) (asidOf (me s)) pc (coreOf s.cur)) (homeOf pc) (leafAddr lf pc) with
    | none => rfl
    | some o => simp [ho o eo]
  · simp only [cpReached, hm, if_false] at hfilter
    simp [hfault, hsys, hhome, hm, hfilter, hpoison]

/-! ### The start of an instruction -/

theorem nextPending_eq (c : Ctx) : nextPending c = firstPending c := by
  have hc : cMcheck = 0x19 ∧ cEngineFault = 0x14 ∧ cAccOwned = 0x13 := ⟨rfl, rfl, rfl⟩
  simp only [nextPending, firstPending, List.head?_append, List.head?_filter, hc]
  cases h1 : c.pending.find? (fun p => p.cause == 0x19) with
  | some p => simp
  | none => cases tsOn c.ctl with
    | true => simp
    | false => cases h2 : c.pending.find? (fun p => p.cause == 0x14) <;> simp [List.head?_append, List.head?_filter, h2]

theorem lengthLimit_eq (c : Ctx) : lengthLimit c = chunkLimit c := by
  unfold lengthLimit chunkLimit
  cases c.chunk.stopAt <;> cases c.unit.ordered <;> simp

theorem beginCtx_keeps (c : Ctx) : (beginCtx c).regs = c.regs ∧ (beginCtx c).ctl = c.ctl := by
  unfold beginCtx; split <;> exact ⟨rfl, rfl⟩

@[simp] theorem ctxAt_stepBegun (s : State) (l k : Nat) : ctxAt (stepBegun s l) k = ctxAt s k := by
  unfold stepBegun; split <;> rfl

@[simp] theorem stepBegun_cur (s : State) (l : Nat) : (stepBegun s l).cur = s.cur := by unfold stepBegun; split <;> rfl

theorem homeAt_stepBegun (s : State) (l h : Nat) : homeAt (stepBegun s l) h = homeAt s h := by unfold stepBegun; split <;> rfl

@[simp] theorem underWay_stepBegun (s : State) (l k : Nat) : underWay (stepBegun s l) k = underWay s k := by
  unfold stepBegun; split <;> rfl

/-- What `issue` makes of a fetched word, in the state whose context holds it. -/
def runFetched (s : State) (l : Nat) (w : BitVec 32) : Res :=
  match decodeWord w with
  | .error _ => raiseIllegal s
  | .ok i => match exec i s with
    | .next t => .next (settle s l t)
    | x => x

/-- R94, R97, R111, R115: an instruction comes next for context `l`: no rest of a commit, no pending trap, no held chunk and no chunk
end stands before it. -/
structure InstrNext (s : State) (l : Nat) : Prop where
  tail : chunkEmpty (ctxAt s l) = true → (ctxAt s l).tail = none
  trap : chunkEmpty (ctxAt s l) = true → firstPending (ctxAt s l) = none ∨ underWay s l = true
  held : (ctxAt s l).chunk.live = true ∨ (ctxAt s l).chunk.conflicts < 4 ∨ (ctxAt s l).chunk.held = true
  room : (ctxAt s l).chunk.live = true → (ctxAt s l).chunk.count < chunkLimit (ctxAt s l)

/-- The state in which context `l` fetches. -/
def fetchState (s : State) (l : Nat) : State := modMe (stepBegun { s with cur := l } l) beginCtx

theorem me_stepBegun (s : State) (l : Nat) : me (stepBegun { s with cur := l } l) = ctxAt s l := by
  rw [me, stepBegun_cur, ctxAt_stepBegun]; rfl

theorem issue_word {s v : State} {l : Nat} {w : BitVec 32} (h : InstrNext s l) (hf : fetch (fetchState s l) = .word w v) :
    issue s l = runFetched (modMe v (fun c => { c with word := w })) l w := by
  obtain ⟨htail, htrap, hheld, hroom⟩ := h
  have h1 : (chunkEmpty (ctxAt s l) && (ctxAt s l).tail.isSome) = false := by
    cases e : chunkEmpty (ctxAt s l) with
    | false => rfl
    | true => rw [htail e]; rfl
  have h2 : (chunkEmpty (ctxAt s l) && !underWay s l && (nextPending (ctxAt s l)).isSome) = false := by
    cases e : chunkEmpty (ctxAt s l) with
    | false => rfl
    | true => rcases htrap e with h | h <;> simp [h, nextPending_eq]
  have h3 : (!(ctxAt s l).chunk.live && wantsHeld (ctxAt s l)) = false := by
    rcases hheld with h | h | h <;> simp [h, wantsHeld]
  have h4 : ((ctxAt s l).chunk.live && decide (lengthLimit (ctxAt s l) ≤ (ctxAt s l).chunk.count)) = false := by
    rw [lengthLimit_eq]
    cases e : (ctxAt s l).chunk.live with
    | false => rfl
    | true => simpa using hroom e
  have hu : underWay (stepBegun { s with cur := l } l) l = underWay s l := underWay_stepBegun _ _ _
  rw [fetchState] at hf
  simp only [issue, me_stepBegun, hu, h1, h2, h3, h4, hf, runFetched]
  cases decodeWord w with
  | error e => rfl
  | ok i =>
    dsimp only
    cases exec i _ <;> rfl

/-- After a step, time has passed. -/
def afterStep : Res → Res
  | .next t => .next (tickOver t)
  | x => x

theorem step_issue {s : State} {l : Nat} (h : pick s (turns s) = some (.issue l)) :
    step s = afterStep (issue s l) := by
  simp only [step, h]; cases issue s l <;> rfl

theorem raiseIllegal_takes {s t : State} (h : CanTrap s t) :
    ∃ u, raiseIllegal s = .next u
      ∧ TookTrap (me s) (ctxAt u s.cur) 0x01 (me s).regs.pc (me s).regs.pc (BitVec.ofNat 64 (me s).word.toNat) := by
  refine ⟨_, by simp only [raiseIllegal, raise, h.1, takeTrap_save h]; rfl, ?_⟩
  rw [ctxAt_setCtx]
  exact trapCtx_took _ _ _

/-- Settles O58: the fetch answers the word at the PC, and `issue` runs it. -/
theorem stepRunsDecoded : Obligations.StepRunsDecoded := by
  intro s l lf i e t v z c pc asid started begun reached a bytes s1 hpick hchunk hheld hroom hcanon hglobal halign ha hwatch hleaf hfault
    hsys hhome howner hfilter hpoison hlog
  have hnext : InstrNext s l := ⟨fun h => (hchunk h).1, fun h => (hchunk h).2, hheld, hroom⟩
  have hcur : begun.cur = l := stepBegun_cur _ _
  have hme : me begun = beginCtx c := by
    show me (modMe _ _) = _
    rw [me_modMe, me_stepBegun]
  obtain ⟨hregs, hctl⟩ := beginCtx_keeps c
  have hasid : asidOf (me begun) = asid := by rw [hme, asidOf, hctl]; rfl
  have hhomes : homeAt begun (homeOf pc) = homeAt s (homeOf pc) := homeAt_stepBegun _ _ _
  have hreached : cpReached begun lf asid pc (coreOf begun.cur) = reached := by rw [hcur]; rfl
  have hthrough : throughFilter (cpReached begun lf asid pc (coreOf begun.cur)) (homeOf pc) asid false (namedRegions a pc 4)
      = (some v, z) := by
    rw [hreached]; exact hfilter
  have hword : fetch begun = .word (halfAt (wordSeen v (a / 8 * 8) (me begun).fenceSeq) pc) v := by
    refine fetch_word (by rw [hme, hregs]) hasid rfl hcanon hglobal hwatch ?_ ?_ hsys hhome ?_ hthrough hpoison
    · rw [← hleaf, tlbFind, tlbFind, hhomes]
    · rw [hme, isUser, hctl]; exact hfault
    · rw [hreached, hcur]; exact howner
  rw [wordSeen_unlogged hlog, halfAt_memWord _ ha halign] at hword
  have hissue : issue s l = runFetched s1 l (BitVec.ofNat 32 (leNat bytes)) := issue_word hnext hword
  have hv : me v = beginCtx c ∧ v.cur = l := by
    have hh := (cpReached_homes begun lf asid pc (coreOf begun.cur)).trans (throughFilter_homes _ (congrArg Prod.fst hthrough))
    exact ⟨hh.me.trans hme, hh.cur.trans hcur⟩
  have hs1 : (me s1).regs = c.regs ∧ (me s1).word = BitVec.ofNat 32 (leNat bytes) ∧ s1.cur = l := by
    refine ⟨?_, ?_, hv.2⟩ <;> show _ = _ <;> simp only [s1, me_modMe, hv.1, hregs]
  obtain ⟨hpc, hw, hl⟩ := hs1
  rw [step_issue hpick, hissue, decode_memBytes]
  cases hd : decodeWord (BitVec.ofNat 32 (leNat bytes)) with
  | ok j =>
    refine ⟨fun h => ?_, nofun⟩
    cases h
    simp only [runFetched, hd]
    cases exec i s1 <;> rfl
  | error x =>
    refine ⟨nofun, fun _ hcan => ?_⟩
    obtain ⟨u, hu, htook⟩ := raiseIllegal_takes hcan
    have hval : BitVec.ofNat 64 (me s1).word.toNat = BitVec.ofNat 64 (leNat bytes) := by
      rw [hw, BitVec.toNat_ofNat, Nat.mod_eq_of_lt (leNat_four _ _)]
    rw [hl, hpc, hval] at htook
    exact ⟨tickOver u, by simp only [runFetched, hd, hu, afterStep], by rwa [ctxAt_tickOver]⟩

end Sys2Proof.Machine
end

section
/-! PROOF. ctxsave and ctxload (O35). The proof goes in three parts. What the hardware's own writes leave (`Spares`): the clock, the
generators of the cores, the registered choices and a context whose chunk has read nothing; and whom a committed write squashes
(`commitPlain_squashes`). The words of a record and of its bytes, and with them the words of the save area (`areaWords`). Then the
two instructions: an access finds the area as device memory (`AreaTarget`), ctxsave writes `areaBytes` there, and ctxload loads the
area that `AreaFits` admits. -/

namespace Sys2Proof.Machine

/-! ### What the hardware's own writes leave -/

theorem tblFind_tblMap {α : Type} (f : Nat → α → α) (t : Tbl α) (i : Nat) : tblFind (tblMap f t) i = (tblFind t i).map (f i) := by
  induction t with
  | nil => rfl
  | cons e t ih =>
    obtain ⟨j, x⟩ := e
    rw [tblMap, List.map_cons, tblFind, tblFind]
    by_cases h : j = i
    · simp [h]
    · simp only [h, if_false]; exact ih

theorem learn_rng (c : CoreSt) (b : Block) : (learn c b).rng = c.rng := by unfold learn; split <;> rfl

theorem foldl_learn_rng (bs : List Block) (c : CoreSt) : (bs.foldl learn c).rng = c.rng := by
  induction bs generalizing c with
  | nil => rfl
  | cons b bs ih => rw [List.foldl_cons, ih, learn_rng]

theorem l1Map_rng (c : CoreSt) (f : Block → Option Block) : (l1Map c f).rng = c.rng := foldl_learn_rng _ _

/-- A table of cores in which every listed core has kept its generator. -/
theorem tblGet_tblMap_rng {f : Nat → CoreSt → CoreSt} (hf : ∀ i c, (f i c).rng = c.rng) (t : Tbl CoreSt) (k : Nat) :
    (tblGet (tblMap f t) k (initCore k)).rng = (tblGet t k (initCore k)).rng := by
  rw [tblGet, tblGet, tblFind_tblMap]
  cases tblFind t k with
  | none => rfl
  | some c => exact hf k c

/-- What a write by hardware leaves: the clock, the generators of the cores, the registered choices, and the context `l`, if its
chunk has read nothing. -/
structure Spares (l : Nat) (s t : State) : Prop where
  cur : t.cur = s.cur
  now : t.now = s.now
  rng : ∀ k, (coreAt t k).rng = (coreAt s k).rng
  choices : t.fox.choices = s.fox.choices
  own : (ctxAt s l).chunk.r = 0 → ctxAt t l = ctxAt s l

theorem Spares.refl (l : Nat) (s : State) : Spares l s s := ⟨rfl, rfl, fun _ => rfl, rfl, fun _ => rfl⟩

theorem Spares.trans {l : Nat} {s t u : State} (h : Spares l s t) (k : Spares l t u) : Spares l s u where
  cur := k.cur.trans h.cur
  now := k.now.trans h.now
  rng n := (k.rng n).trans (h.rng n)
  choices := k.choices.trans h.choices
  own hr := by
    have e := h.own hr
    rw [k.own (e ▸ hr), e]

theorem spares_foldl {α : Type} {l : Nat} {f : State → α → State} (hf : ∀ s x, Spares l s (f s x)) (xs : List α) (s : State) :
    Spares l s (xs.foldl f s) := by
  induction xs generalizing s with
  | nil => exact .refl l s
  | cons x xs ih => exact (hf s x).trans (ih _)

section
variable (l : Nat) (s : State)

theorem reexamine_spares (a : Nat) : Spares l s (reexamine s a) := by
  unfold reexamine; dsimp only; split
  · exact .refl l s
  · exact ⟨rfl, rfl, fun _ => rfl, rfl, fun _ => rfl⟩

theorem withdraw_spares (k : Nat) : Spares l s (withdraw s k) := by
  unfold withdraw; split
  · exact .refl l s
  · refine Spares.trans ?_ (spares_foldl (fun t a => reexamine_spares l t a) _ _)
    exact ⟨rfl, rfl, fun _ => rfl, rfl, fun _ => rfl⟩

theorem releasePriority_spares (k : Nat) : Spares l s (releasePriority s k) := by
  refine Spares.trans ?_ (spares_foldl (fun t a => reexamine_spares l t a) _ _)
  exact ⟨rfl, rfl, fun _ => rfl, rfl, fun _ => rfl⟩

theorem dropHeld_spares (k : Nat) : Spares l s (dropHeld s k) := by
  unfold dropHeld; split
  · exact releasePriority_spares l s k
  · exact .refl l s

theorem post_spares (u : Nat) (i : Instr) : Spares l s (post s u i) := ⟨rfl, rfl, fun _ => rfl, rfl, fun _ => rfl⟩

theorem noteWrite_spares (key n : Nat) : Spares l s (noteWrite s key n) := by
  let hit : Nat → Bool := fun g => key / 32 ≤ g && g ≤ (key + n - 1) / 32
  have h : Spares l s ((s.ctxs.filter (fun e => e.2.watch.any hit)).foldl (fun t e => post t e.1 .watchWake) s) :=
    spares_foldl (fun t e => post_spares l t _ _) _ _
  exact ⟨h.cur, h.now, h.rng, h.choices, h.own⟩

theorem putBytes_spares (key : Nat) (bs : List Byte) : Spares l s (putBytes s key bs) := ⟨rfl, rfl, fun _ => rfl, rfl, fun _ => rfl⟩

theorem putWords_spares (region : Nat) (ws : List (Nat × Word)) : Spares l s (putWords s region ws) := by
  refine spares_foldl (fun t p => ?_) _ _
  have h := (putBytes_spares l t (region * 512 + 8 * (p.1 % 64)) (wordBytes p.2)).trans
    (noteWrite_spares l _ (region * 512 + 8 * (p.1 % 64)) 8)
  dsimp only
  split
  · exact h
  · exact ⟨h.cur, h.now, h.rng, h.choices, h.own⟩

theorem absorbFlight_spares (region : Nat) (who : Nat → Bool) : Spares l s (absorbFlight s region who) := by
  unfold absorbFlight; dsimp only; split
  · exact .refl l s
  · have h : Spares l s { s with agenda := s.agenda.filter (fun e => !flightOf region who e.2.2) } :=
      ⟨rfl, rfl, fun _ => rfl, rfl, fun _ => rfl⟩
    refine h.trans (spares_foldl (fun t e => ?_) _ _)
    split
    · exact putWords_spares l t region _
    · exact .refl l t

theorem cpHome_spares (region : Nat) : Spares l s (cpHome s region) := by
  unfold cpHome; split
  · exact .refl l s
  · exact ((absorbFlight_spares l s _ _).trans (putWords_spares l _ _ _)).trans (putWords_spares l _ _ _)

theorem poisonBad_spares (b : Block) : Spares l s (poisonBad s b) := by
  unfold poisonBad; split
  · exact .refl l s
  · exact ⟨rfl, rfl, fun _ => rfl, rfl, fun _ => rfl⟩

theorem settleBad_spares (own : Option Nat) (region : Nat) : Spares l s (settleBad own s region) := by
  unfold settleBad; dsimp only; split
  · exact .refl l s
  · refine Spares.trans ?_ (spares_foldl (fun t b => poisonBad_spares l t b) _ _)
    refine ⟨rfl, rfl, fun k => ?_, rfl, fun _ => rfl⟩
    simp only [coreAt]
    refine tblGet_tblMap_rng ?_ s.cores k
    intro i c
    split
    · rfl
    · exact l1Map_rng _ _

theorem dropCopies_spares (region : Nat) : Spares l s (dropCopies s region) :=
  ⟨rfl, rfl, fun k => tblGet_tblMap_rng (fun _ _ => l1Map_rng _ _) s.cores k, rfl, fun _ => rfl⟩

theorem modCore_spares {k : Nat} {f : CoreSt → CoreSt} (hf : ∀ c, (f c).rng = c.rng) : Spares l s (modCore s k f) := by
  refine ⟨rfl, rfl, fun n => ?_, rfl, fun _ => rfl⟩
  by_cases h : n = k
  · rw [h, coreAt_modCore, hf]
  · rw [coreAt_modCore_other s f h]

theorem setCtx_spares {k : Nat} (c : Ctx) (h : k ≠ l) : Spares l s (setCtx s k c) :=
  ⟨rfl, rfl, fun _ => rfl, rfl, fun _ => ctxAt_setCtx_other s c h.symm⟩

theorem squash_spares {k : Nat} (conflict : Bool) (h : k = l → (ctxAt s l).chunk.r ≠ 0) : Spares l s (squash s k conflict) := by
  have hw := withdraw_spares l s k
  have hm : Spares l (setCtx (withdraw s k) k (squashedCtx (ctxAt s k) conflict (arbSet k (ctxAt s k).chunk)))
      (squash s k conflict) :=
    modCore_spares l _ fun c => l1Map_rng c _
  by_cases hk : k = l
  · exact ⟨hw.cur, hw.now, fun n => (hm.rng n).trans (hw.rng n), hw.choices, fun hr => absurd hr (h hk)⟩
  · exact (hw.trans (setCtx_spares l _ _ hk)).trans hm

theorem sigMeets_zero (w : BitVec 1024) : sigMeets 0 w = false := by
  show ((List.range 4).all fun i => (0#1024 &&& w).extractLsb' (256 * i) 256 != 0) = false
  rw [BitVec.zero_and]
  exact List.all_eq_false.mpr ⟨0, by decide, by simp⟩

theorem squashMeeting_spares (w : BitVec 1024) (p : Nat → Bool) : Spares l s (squashMeeting s w p) := by
  refine spares_foldl (fun t e => ?_) _ _
  dsimp only
  split
  · rename_i h
    refine squash_spares l t true fun he hr => ?_
    simp only [he, hr, sigMeets_zero, Bool.and_false, Bool.false_eq_true] at h
  · exact .refl l t

theorem commitPlain_spares (w : BitVec 1024) (key : Nat) (bs : List Byte) : Spares l s (commitPlain s w key bs) := by
  unfold commitPlain
  extract_lets regions s1 s2 s3 s4
  have h1 : Spares l s s1 := (spares_foldl (fun t r => settleBad_spares l t none r) _ _).trans (putBytes_spares l _ _ _)
  have h2 : Spares l s s2 := ⟨h1.cur, h1.now, h1.rng, h1.choices, h1.own⟩
  have h3 : Spares l s s3 := h2.trans (squashMeeting_spares l _ _ _)
  exact (h3.trans (spares_foldl (fun t r => dropCopies_spares l t r) _ _)).trans (noteWrite_spares l _ _ _)

theorem lineBack_spares (line : Nat) (cells : List (Nat × Byte)) : Spares l s (lineBack s line cells) := by
  unfold lineBack
  refine Spares.trans ?_ (spares_foldl (fun t r => commitPlain_spares l t _ _ _) _ _)
  exact ⟨rfl, rfl, fun _ => rfl, rfl, fun _ => rfl⟩

theorem gather_spares (key n : Nat) : Spares l s (gather s key n) := by
  unfold gather
  extract_lets s1
  have h1 : Spares l s s1 := by
    unfold s1; split
    · exact spares_foldl (fun t r => cpHome_spares l t r) _ _
    · exact .refl l s
  refine h1.trans (spares_foldl (fun t n => ?_) _ _)
  refine Spares.trans ?_ (lineBack_spares l _ n _)
  exact ⟨rfl, rfl, fun _ => rfl, rfl, fun _ => rfl⟩

theorem commitBytes_spares (w : BitVec 1024) (key : Nat) (bs : List Byte) : Spares l s (commitBytes s w key bs) :=
  (gather_spares l s key bs.length).trans (commitPlain_spares l _ w key bs)

theorem tlbPut_spares (asid va : Nat) (lf : Leaf) : Spares l s (tlbPut s asid va lf) := ⟨rfl, rfl, fun _ => rfl, rfl, fun _ => rfl⟩

/-- An answer of the hardware leaves what `Spares` says. -/
def HwSpares {α : Type} (l : Nat) (s : State) : Hw α → Prop
  | .ok _ t => Spares l s t
  | _ => True

theorem walkSet_spares (asid va : Nat) (write : Bool) : HwSpares l s (walkSet s asid va write) := by
  unfold walkSet
  cases walk s asid va with
  | error c => trivial
  | ok lf =>
    dsimp only
    split
    · exact tlbPut_spares l s asid va lf
    · split
      · trivial
      · cases walk (gather s lf.entry 8) asid va with
        | error c => trivial
        | ok lf' => exact ((gather_spares l s _ _).trans (commitBytes_spares l _ _ _ _)).trans (tlbPut_spares l _ _ _ _)

theorem translate_spares (asid va : Nat) (write : Bool) : HwSpares l s (translate s asid va write) := by
  unfold translate
  cases tlbFind s asid va with
  | none => exact walkSet_spares l s asid va write
  | some lf =>
    dsimp only
    split
    · exact walkSet_spares l s asid va write
    · exact .refl l s

theorem hwRead_spares {z : State} {asid va n : Nat} {hc : Bool} {bs : List Byte} (h : hwRead s asid va n hc = .ok bs z) :
    Spares l s z := by
  have ht := translate_spares l s asid va false
  unfold hwRead hwAddr at h
  cases e : translate s asid va false with rw [e] at ht h
  | retry => grind
  | fault c t => grind
  | ok lf t =>
    have hz : t = z := by grind
    exact hz ▸ ht

end

/-! ### Whom a committed write squashes -/

theorem foldl_ctxs {α : Type} {f : State → α → State} (hf : ∀ s x, (f s x).ctxs = s.ctxs) (xs : List α) (s : State) :
    (xs.foldl f s).ctxs = s.ctxs := by
  induction xs generalizing s with
  | nil => rfl
  | cons x xs ih => rw [List.foldl_cons, ih, hf]

theorem reexamine_ctxs (s : State) (a : Nat) : (reexamine s a).ctxs = s.ctxs := by
  unfold reexamine; dsimp only; split <;> rfl

theorem withdraw_ctxs (s : State) (l : Nat) : (withdraw s l).ctxs = s.ctxs := by
  unfold withdraw; split
  · rfl
  · exact foldl_ctxs reexamine_ctxs _ _

theorem poisonBad_ctxs (s : State) (b : Block) : (poisonBad s b).ctxs = s.ctxs := by
  unfold poisonBad; split <;> rfl

theorem settleBad_ctxs (own : Option Nat) (s : State) (region : Nat) : (settleBad own s region).ctxs = s.ctxs := by
  unfold settleBad; dsimp only; split
  · rfl
  · exact foldl_ctxs poisonBad_ctxs _ _

theorem dropCopies_ctxs (s : State) (region : Nat) : (dropCopies s region).ctxs = s.ctxs := rfl

theorem noteWrite_ctxs (s : State) (key n : Nat) : (noteWrite s key n).ctxs = s.ctxs := by
  unfold noteWrite
  exact foldl_ctxs (fun _ _ => by rfl) _ _

theorem ctxAt_squash (s : State) (l : Nat) (b : Bool) :
    ctxAt (squash s l b) l = squashedCtx (ctxAt s l) b (arbSet l (ctxAt s l).chunk) := by
  unfold squash
  rw [ctxAt_modCore, ctxAt_setCtx]

theorem ctxAt_squash_other (s : State) {k l : Nat} (b : Bool) (h : l ≠ k) : ctxAt (squash s k b) l = ctxAt s l := by
  unfold squash
  rw [ctxAt_modCore, ctxAt_setCtx_other _ _ h, ctxAt, withdraw_ctxs]; rfl

/-- What `squashMeeting` does for one listed context. -/
def squashIfMet (w : BitVec 1024) (p : Nat → Bool) (t : State) (e : Nat × Ctx) : State :=
  let k := (ctxAt t e.1).chunk
  if p e.1 && k.live && sigMeets k.r w then squash t e.1 true else t

/-- The context's live chunk has read a grain of the signature. -/
def Met (c : Ctx) (w : BitVec 1024) : Prop := c.chunk.live = true ∧ sigMeets c.chunk.r w = true

theorem ctxAt_squashIfMet_other {w : BitVec 1024} {p : Nat → Bool} {s : State} {l : Nat} (e : Nat × Ctx) (h : l ≠ e.1) :
    ctxAt (squashIfMet w p s e) l = ctxAt s l := by
  unfold squashIfMet
  dsimp only
  split
  · exact ctxAt_squash_other _ _ h
  · rfl

theorem ctxAt_squashIfMet_unmet {w : BitVec 1024} {s : State} {l : Nat} (p : Nat → Bool) (h : ¬ Met (ctxAt s l) w) (e : Nat × Ctx) :
    ctxAt (squashIfMet w p s e) l = ctxAt s l := by
  by_cases he : l = e.1
  · have hm : ((ctxAt s e.1).chunk.live && sigMeets (ctxAt s e.1).chunk.r w) = false := by
      rw [Met, ← Bool.and_eq_true, Bool.not_eq_true, he] at h; exact h
    rw [squashIfMet]
    simp only [Bool.and_assoc, hm, Bool.and_false, Bool.false_eq_true, if_false]
  · exact ctxAt_squashIfMet_other e he

theorem ctxAt_foldl_squashIfMet_unmet {w : BitVec 1024} {l : Nat} (p : Nat → Bool) (xs : List (Nat × Ctx)) {s : State}
    (h : ¬ Met (ctxAt s l) w) : ctxAt (xs.foldl (squashIfMet w p) s) l = ctxAt s l := by
  induction xs generalizing s with
  | nil => rfl
  | cons e xs ih =>
    have he := ctxAt_squashIfMet_unmet p h e
    rw [List.foldl_cons, ih (by rwa [he]), he]

theorem ctxAt_foldl_squashIfMet_met {w : BitVec 1024} {l : Nat} {xs : List (Nat × Ctx)} {s : State} (h : Met (ctxAt s l) w)
    (hl : ∃ e ∈ xs, e.1 = l) : ctxAt (xs.foldl (squashIfMet w (fun _ => true)) s) l
      = squashedCtx (ctxAt s l) true (arbSet l (ctxAt s l).chunk) := by
  induction xs generalizing s with
  | nil => simp at hl
  | cons e xs ih =>
    rw [List.foldl_cons]
    by_cases he : e.1 = l
    · have hs : squashIfMet w (fun _ => true) s e = squash s l true := by simp [squashIfMet, he, h.1, h.2]
      have hc := ctxAt_squash s l true
      rw [hs, ctxAt_foldl_squashIfMet_unmet _ _ (by simp [Met, hc, squashedCtx, initChunk]), hc]
    · have hs : ctxAt (squashIfMet w (fun _ => true) s e) l = ctxAt s l := ctxAt_squashIfMet_other _ (Ne.symm he)
      have hx : ∃ e ∈ xs, e.1 = l := by
        obtain ⟨x, hx, hxl⟩ := hl
        exact ⟨x, (List.mem_cons.mp hx).resolve_left fun h => he (h ▸ hxl), hxl⟩
      rw [ih (by rwa [hs]) hx, hs]

theorem ctxAt_listed {s : State} {l : Nat} (h : (ctxAt s l).chunk.live = true) : ∃ e ∈ s.ctxs, e.1 = l := by
  have hfind : ∀ t : Tbl Ctx, tblFind t l ≠ none → ∃ e ∈ t, e.1 = l := by
    intro t
    induction t with
    | nil => simp [tblFind]
    | cons e t ih =>
      obtain ⟨j, x⟩ := e
      by_cases hj : j = l
      · exact fun _ => ⟨(j, x), by simp, hj⟩
      · intro h
        obtain ⟨e, he, hl⟩ := ih (by simpa [tblFind, hj] using h)
        exact ⟨e, by simp [he], hl⟩
  refine hfind _ fun hn => ?_
  rw [ctxAt, tblGet, hn] at h
  exact absurd h (by decide)

theorem squashedCtx_squashed (c : Ctx) (b : Bool) (arbs : List Nat) : Squashed c (squashedCtx c b arbs) :=
  ⟨rfl, rfl, rfl, rfl, rfl, rfl, rfl, rfl, rfl⟩

theorem ctxAt_commitPlain (s : State) (w : BitVec 1024) (key : Nat) (bs : List Byte) : ∃ t : State, t.ctxs = s.ctxs
    ∧ ∀ l, ctxAt (commitPlain s w key bs) l = ctxAt (t.ctxs.foldl (squashIfMet w (fun _ => true)) t) l := by
  let regions := if isHbm key then keyRegions key bs.length else []
  let t0 := putBytes (regions.foldl (settleBad none) s) key bs
  let t : State := { t0 with order := t0.order + 1 }
  refine ⟨t, foldl_ctxs (settleBad_ctxs none) regions s, fun l => ?_⟩
  rw [ctxAt, commitPlain, noteWrite_ctxs, foldl_ctxs dropCopies_ctxs]
  rfl

/-- R105, R107: a committed write squashes the live chunks that have read of its grains, and changes no other context. -/
theorem commitPlain_squashes (s : State) (w : BitVec 1024) (key : Nat) (bs : List Byte) (l : Nat) :
    (¬ Met (ctxAt s l) w → ctxAt (commitPlain s w key bs) l = ctxAt s l)
    ∧ (Met (ctxAt s l) w → Squashed (ctxAt s l) (ctxAt (commitPlain s w key bs) l)) := by
  obtain ⟨t, ht, hc⟩ := ctxAt_commitPlain s w key bs
  have hl : ctxAt t l = ctxAt s l := by rw [ctxAt, ctxAt, ht]
  rw [hc, ← hl]
  refine ⟨fun h => ctxAt_foldl_squashIfMet_unmet _ _ h, fun h => ?_⟩
  rw [ctxAt_foldl_squashIfMet_met h (ctxAt_listed h.1)]
  exact squashedCtx_squashed _ _ _

/-! ### Words and bytes of a record (R5) -/

theorem nth_eq_getElem? {α : Type} (xs : List α) (i : Nat) : nth xs i = xs[i]? := by
  induction xs generalizing i with
  | nil => simp [nth]
  | cons x xs ih => cases i <;> simp [nth, ih]

theorem wordAt_eq_getD (ws : List Word) (i : Nat) : wordAt ws i = ws[i]?.getD 0 := by
  rw [wordAt, nth_eq_getElem?]; cases ws[i]? <;> rfl

/-- A word of the first part of a record. -/
theorem wordAt_append_lt {xs ys : List Word} {i : Nat} (h : i < xs.length) : wordAt (xs ++ ys) i = wordAt xs i := by
  rw [wordAt_eq_getD, wordAt_eq_getD, List.getElem?_append_left h]

/-- A word of what follows the first `n` words of a record. -/
theorem wordAt_append_add {xs ys : List Word} {n : Nat} (h : xs.length = n) (i : Nat) : wordAt (xs ++ ys) (n + i) = wordAt ys i := by
  rw [wordAt_eq_getD, wordAt_eq_getD, List.getElem?_append_right (by omega), h, Nat.add_sub_cancel_left]

theorem wordAt_replicate (n i : Nat) : wordAt (List.replicate n 0) i = 0 := by
  rw [wordAt_eq_getD, List.getElem?_replicate]; split <;> rfl

theorem takePad_append {α : Type} (d : α) (xs ys : List α) (n : Nat) :
    takePad d (xs.length + n) (xs ++ ys) = xs ++ takePad d n ys := by
  induction xs with
  | nil => simp
  | cons x xs ih => rw [List.length_cons, Nat.add_right_comm, List.cons_append, takePad, ih, List.cons_append]

theorem takePad_nil {α : Type} (d : α) (n : Nat) : takePad d n [] = List.replicate n d := by
  induction n with
  | zero => rfl
  | succ n ih => rw [takePad, ih, List.replicate_succ]

theorem takePad_eq_append {α : Type} {d : α} {xs : List α} {n : Nat} (k : Nat) (h : xs.length + k = n) :
    takePad d n xs = xs ++ List.replicate k d := by
  have e := takePad_append d xs [] k
  rwa [List.append_nil, takePad_nil, h] at e

theorem length_takePad {α : Type} (d : α) (n : Nat) (xs : List α) : (takePad d n xs).length = n := by
  induction n generalizing xs with
  | zero => rfl
  | succ n ih => cases xs <;> simp [takePad, ih]

theorem wordAt_takePad {n i : Nat} (ws : List Word) (h : i < n) : wordAt (takePad 0 n ws) i = wordAt ws i := by
  induction n generalizing ws i with
  | zero => omega
  | succ n ih =>
    cases ws with
    | nil => rw [takePad_nil, wordAt_replicate]; rfl
    | cons x xs => cases i with
      | zero => rfl
      | succ i => exact ih xs (by omega)

@[simp] theorem length_wordBytes (x : Word) : (wordBytes x).length = 8 := natBytes_length 8 _

theorem wordsBytes_cons (x : Word) (ws : List Word) : wordsBytes (x :: ws) = wordBytes x ++ wordsBytes ws := rfl

theorem wordsBytes_append (xs ys : List Word) : wordsBytes (xs ++ ys) = wordsBytes xs ++ wordsBytes ys := by
  induction xs with
  | nil => rfl
  | cons x xs ih => rw [List.cons_append, wordsBytes_cons, wordsBytes_cons, ih, List.append_assoc]

theorem length_wordsBytes (ws : List Word) : (wordsBytes ws).length = 8 * ws.length := by
  induction ws with
  | nil => rfl
  | cons x xs ih => rw [wordsBytes_cons, List.length_append, length_wordBytes, ih, List.length_cons]; omega

theorem replicate_bytes (n : Nat) : List.replicate (8 * n) (0 : Byte) = wordsBytes (List.replicate n 0) := by
  induction n with
  | zero => rfl
  | succ n ih =>
    rw [Nat.mul_succ, Nat.add_comm, List.replicate_add, ih]
    rfl

/-- Padding a record's bytes pads its words. -/
theorem takePad_wordsBytes (n : Nat) (ws : List Word) : takePad 0 (8 * n) (wordsBytes ws) = wordsBytes (takePad 0 n ws) := by
  induction n generalizing ws with
  | zero => rfl
  | succ n ih =>
    cases ws with
    | nil => rw [takePad_nil]; exact (takePad_nil _ _).trans (replicate_bytes _)
    | cons x xs =>
      have h := takePad_append 0 (wordBytes x) (wordsBytes xs) (8 * n)
      rw [length_wordBytes] at h
      rw [Nat.mul_succ, Nat.add_comm, wordsBytes_cons, h, ih, takePad, wordsBytes_cons]

theorem ofNat_leNat_natBytes (n : Nat) (x : BitVec (8 * n)) : BitVec.ofNat (8 * n) (leNat (natBytes n x.toNat)) = x := by
  have h := x.isLt
  rw [Nat.pow_mul] at h
  rw [leNat_natBytes, Nat.mod_eq_of_lt h, BitVec.ofNat_toNat, BitVec.setWidth_eq]

/-- R5: the words of a record's bytes are the record. -/
theorem wordsOf_wordsBytes (ws : List Word) : wordsOf (wordsBytes ws) = ws := by
  rw [wordsOf, length_wordsBytes, Nat.mul_div_cancel_left _ (by decide)]
  induction ws with
  | nil => rfl
  | cons x xs ih =>
    have he : (wordsBytes (x :: xs)).isEmpty = false := by
      rw [wordsBytes_cons]; simp [wordBytes, natBytes]
    have ht : (wordsBytes (x :: xs)).take 8 = wordBytes x := by
      rw [wordsBytes_cons, ← length_wordBytes x, List.take_left]
    have hd : (wordsBytes (x :: xs)).drop 8 = wordsBytes xs := by
      rw [wordsBytes_cons, ← length_wordBytes x, List.drop_left]
    rw [List.length_cons, runs, he, ht, hd, if_neg (by decide), List.map_cons, ih]
    exact congrArg (· :: xs) (ofNat_leNat_natBytes 8 x)

theorem natBytes_add (m n x : Nat) : natBytes (m + n) x = natBytes m x ++ natBytes n (x / 256 ^ m) := by
  induction m generalizing x with
  | zero => simp [natBytes]
  | succ m ih => rw [Nat.add_right_comm, natBytes, ih, natBytes, Nat.div_div_eq_div_mul, ← pow_succ']; rfl

theorem natBytes_mod (n x : Nat) : natBytes n (x % 256 ^ n) = natBytes n x := by
  induction n generalizing x with
  | zero => rfl
  | succ n ih =>
    rw [natBytes, natBytes]
    congr 1
    · apply BitVec.eq_of_toNat_eq
      simp only [BitVec.toNat_ofNat]
      exact Nat.mod_mod_of_dvd x (Dvd.intro_left (256 ^ n) rfl)
    · rw [← ih (x / 256), pow_succ', Nat.mod_mul_right_div_self]

/-- The eight words of a vector register. -/
def vecWords (v : BitVec 512) : List Word := (List.range 8).map (fun i => BitVec.ofNat 64 (v.toNat / 2 ^ (64 * i)))

theorem wordBytes_ofNat (x : Nat) : wordBytes (BitVec.ofNat 64 x) = natBytes 8 x := by
  rw [wordBytes, BitVec.toNat_ofNat, ← natBytes_mod 8 x]
  norm_num

theorem natBytes_words (n x : Nat) :
    natBytes (8 * n) x = wordsBytes ((List.range n).map (fun i => BitVec.ofNat 64 (x / 2 ^ (64 * i)))) := by
  induction n generalizing x with
  | zero => rfl
  | succ n ih =>
    rw [Nat.mul_succ, Nat.add_comm, natBytes_add, ih, List.range_succ_eq_map, List.map_cons, wordsBytes_cons,
      wordBytes_ofNat, List.map_map]
    congr 2
    · simp
    · congr 1
      funext i
      have e : 2 ^ (64 * (i + 1)) = 256 ^ 8 * 2 ^ (64 * i) := by rw [Nat.mul_succ, Nat.pow_add, Nat.mul_comm]; norm_num
      simp only [Function.comp_apply, Nat.succ_eq_add_one, e, Nat.div_div_eq_div_mul]

theorem vecBytes_eq (v : BitVec 512) : vecBytes v = wordsBytes (vecWords v) := natBytes_words 8 v.toNat

/-! ### The save area (R274) -/

/-- Words 0–7 of an area. -/
def areaHead (l : Nat) (u : UnitInfo) (i : SaveInfo) : List Word :=
  [BitVec.ofNat 64 (2 ^ 63 + 2 ^ 48 + i.by_ * 2 ^ 40 + i.kind * 2 ^ 32), i.pc, BitVec.ofNat 64 (i.num % 2 ^ 32 * 2 ^ 32),
   BitVec.ofNat 64 (u.gangKind * 2 ^ 62 + u.thread % 4096 * 2 ^ 32 + u.gang % 2 ^ 32), u.launchVa,
   (match u.bound with
    | some b => BitVec.ofNat 64 (2 ^ 63 + b.handle)
    | none => 0),
   BitVec.ofNat 64 (i.mask.toNat * 2 ^ 48 + l % 2 ^ 18), BitVec.ofNat 64 (i.spill * 2 ^ 32)]

/-- Words 304–332 of an area: the control registers by number. -/
def areaCtlWords (s : State) (l : Nat) (i : SaveInfo) : List Word :=
  (List.range 29).map (fun n => if n = 0 then i.status else crGet s l n)

/-- The vector registers of an area, words 40–295. -/
def areaVecWords (r : Regs) : List Word := (r.v.toList.map vecWords).flatten

/-- The 510 words of an area. -/
def areaWords (s : State) (l : Nat) (i : SaveInfo) : List Word :=
  areaHead l (ctxAt s l).unit i ++ (takePad 0 16 i.q ++ ((ctxAt s l).regs.k.toList ++ (areaVecWords (ctxAt s l).regs
    ++ ((ctxAt s l).regs.m.toList ++ (areaCtlWords s l i ++ List.replicate 177 0)))))

theorem length_vecWords (v : BitVec 512) : (vecWords v).length = 8 := by simp [vecWords]

theorem length_flatten_vecWords (vs : List (BitVec 512)) : (vs.map vecWords).flatten.length = 8 * vs.length := by
  induction vs with
  | nil => rfl
  | cons v vs ih => rw [List.map_cons, List.flatten_cons, List.length_append, length_vecWords, ih, List.length_cons]; omega

theorem flatten_vecBytes (vs : List (BitVec 512)) : (vs.map vecBytes).flatten = wordsBytes (vs.map vecWords).flatten := by
  induction vs with
  | nil => rfl
  | cons v vs ih => simp only [List.map_cons, List.flatten_cons, vecBytes_eq, ih, wordsBytes_append]

theorem length_areaHead (l : Nat) (u : UnitInfo) (i : SaveInfo) : (areaHead l u i).length = 8 := rfl
theorem length_areaVecWords (r : Regs) : (areaVecWords r).length = 256 := by
  rw [areaVecWords, length_flatten_vecWords, Vector.length_toList]
theorem length_areaCtlWords (s : State) (l : Nat) (i : SaveInfo) : (areaCtlWords s l i).length = 29 := by simp [areaCtlWords]

theorem areaBytes_eq (s : State) (l : Nat) (i : SaveInfo) : areaBytes s l i = wordsBytes (areaWords s l i) := by
  have hb : areaBytes s l i = takePad 0 (8 * 510) (wordsBytes (areaHead l (ctxAt s l).unit i) ++ wordsBytes (takePad 0 16 i.q)
      ++ wordsBytes (ctxAt s l).regs.k.toList ++ ((ctxAt s l).regs.v.toList.map vecBytes).flatten
      ++ wordsBytes (ctxAt s l).regs.m.toList ++ wordsBytes (areaCtlWords s l i)) := rfl
  rw [hb, flatten_vecBytes]
  simp only [← wordsBytes_append]
  rw [takePad_wordsBytes, takePad_eq_append 177]
  · simp only [areaWords, areaVecWords, List.append_assoc]
  · simp only [List.length_append, length_areaHead, length_takePad, length_flatten_vecWords, length_areaCtlWords, Vector.length_toList]

/-- The words of the area that stands in memory. -/
theorem wordsOf_areaBytes (s : State) (l : Nat) (i : SaveInfo) : wordsOf (areaBytes s l i) = areaWords s l i := by
  rw [areaBytes_eq, wordsOf_wordsBytes]

theorem length_areaWords (s : State) (l : Nat) (i : SaveInfo) : (areaWords s l i).length = 510 := by
  simp only [areaWords, List.length_append, length_areaHead, length_takePad, length_areaVecWords, length_areaCtlWords,
    Vector.length_toList, List.length_replicate]

theorem length_areaBytes (s : State) (l : Nat) (i : SaveInfo) : (areaBytes s l i).length = 0xFF0 := by
  rw [areaBytes_eq, length_wordsBytes, length_areaWords]

theorem wordAt_toList {n : Nat} (v : Vector Word n) (i : Fin n) : wordAt v.toList i.val = v.get i := by
  rw [wordAt_eq_getD]
  simp [Vector.get]

section
variable (s : State) (l : Nat) (i : SaveInfo)

theorem areaWords_head {n : Nat} (h : n < 8) : wordAt (areaWords s l i) n = wordAt (areaHead l (ctxAt s l).unit i) n :=
  wordAt_append_lt h

theorem areaWords_q (j : Fin 16) : wordAt (areaWords s l i) (8 + j.val) = wordAt i.q j.val := by
  rw [areaWords, wordAt_append_add (length_areaHead _ _ _), wordAt_append_lt (by rw [length_takePad]; exact j.isLt),
    wordAt_takePad _ j.isLt]

theorem areaWords_k (j : Fin 16) : wordAt (areaWords s l i) (24 + j.val) = (ctxAt s l).regs.k.get j := by
  rw [areaWords, show 24 + j.val = 8 + (16 + j.val) by omega, wordAt_append_add (length_areaHead _ _ _),
    wordAt_append_add (length_takePad _ _ _), wordAt_append_lt (by rw [Vector.length_toList]; exact j.isLt), wordAt_toList]

theorem areaWords_m (y : Fin 8) : wordAt (areaWords s l i) (296 + y.val) = (ctxAt s l).regs.m.get y := by
  rw [areaWords, show 296 + y.val = 8 + (16 + (16 + (256 + y.val))) by omega, wordAt_append_add (length_areaHead _ _ _),
    wordAt_append_add (length_takePad _ _ _), wordAt_append_add Vector.length_toList, wordAt_append_add (length_areaVecWords _),
    wordAt_append_lt (by rw [Vector.length_toList]; exact y.isLt), wordAt_toList]

/-- What follows the mask registers: the control registers, and zeros. -/
theorem areaWords_tail (n : Nat) : wordAt (areaWords s l i) (304 + n) = wordAt (areaCtlWords s l i ++ List.replicate 177 0) n := by
  rw [areaWords, show 304 + n = 8 + (16 + (16 + (256 + (8 + n)))) by omega, wordAt_append_add (length_areaHead _ _ _),
    wordAt_append_add (length_takePad _ _ _), wordAt_append_add Vector.length_toList, wordAt_append_add (length_areaVecWords _),
    wordAt_append_add Vector.length_toList]

theorem areaWords_ctl (n : Nat) (h : n < 29) : wordAt (areaWords s l i) (304 + n) = if n = 0 then i.status else crGet s l n := by
  rw [areaWords_tail, wordAt_append_lt (by rw [length_areaCtlWords]; exact h), wordAt_eq_getD]
  simp [areaCtlWords, h]

theorem areaWords_zero {n : Nat} (h : 333 ≤ n) : wordAt (areaWords s l i) n = 0 := by
  rw [show n = 304 + (29 + (n - 333)) by omega, areaWords_tail, wordAt_append_add (length_areaCtlWords _ _ _), wordAt_replicate]

theorem drop_append_add {α : Type} {xs ys : List α} {n : Nat} (h : xs.length = n) (k : Nat) :
    (xs ++ ys).drop (n + k) = ys.drop k := by
  rw [List.drop_append, h, List.drop_of_length_le (by omega), List.nil_append, Nat.add_sub_cancel_left]

theorem flatten_vecWords_at (vs : List (BitVec 512)) (rest : List Word) {x : Nat} (h : x < vs.length) :
    (((vs.map vecWords).flatten ++ rest).drop (8 * x)).take 8 = vecWords vs[x] := by
  induction vs generalizing x with
  | nil => simp at h
  | cons v vs ih =>
    rw [List.map_cons, List.flatten_cons, List.append_assoc]
    cases x with
    | zero => rw [Nat.mul_zero, List.drop_zero, ← length_vecWords v, List.take_left]; rfl
    | succ x =>
      rw [Nat.mul_succ, Nat.add_comm, drop_append_add (length_vecWords v), ih (by simpa using h)]; rfl

theorem vecBits (v : BitVec 512) : BitVec.ofNat 512 (leNat (wordsBytes (vecWords v))) = v := by
  rw [← vecBytes_eq]
  exact ofNat_leNat_natBytes 64 v

theorem areaWords_v (x : Fin 32) : vecOf (areaWords s l i) (40 + 8 * x.val) = (ctxAt s l).regs.v.get x := by
  rw [vecOf, areaWords, show 40 + 8 * x.val = 8 + (16 + (16 + 8 * x.val)) by omega, drop_append_add (length_areaHead _ _ _),
    drop_append_add (length_takePad _ _ _), drop_append_add Vector.length_toList, areaVecWords,
    flatten_vecWords_at _ _ (by rw [Vector.length_toList]; exact x.isLt), vecBits]
  simp [Vector.get]

end

/-! ### Operations that are a chunk of their own (R96) -/

theorem privileged_of {i : Instr} {s : State} (h : isUser (me s) = true → exec i s = raisePriv s) : Privileged i s :=
  fun hu => raise_raises (h hu)

theorem closesFrom_of {i : Instr} {s : State} {k : State → Res} (h : exec i s = closing s k) : ClosesFrom i s s := by
  rw [ClosesFrom, h, closing]
  refine ⟨fun he => ?_, fun he hy => ?_⟩
  · rw [he]; rfl
  · rw [he, hy]; rfl

theorem closing_goes {s : State} (k : State → Res) (he : chunkEmpty (me s) = true) (hy : youngTask s s.cur = false) :
    closing s k = k s := by
  rw [closing, he, hy]; rfl

theorem withClosing_ok {s v : State} {q : AccReq} {t : Target} (k : Target → State → Res) (h : access s q = .ok t v) :
    withClosing s q k = k t v := by
  rw [withClosing, h]

/-- The state after an operation that was a chunk of its own. -/
def afterClosing (s : State) (r : Regs) (pc : Word) : State := modMe (dropHeld s s.cur) (fun c => closedCtx c r pc)

theorem releasePriority_mem (s : State) (l : Nat) : (releasePriority s l).mem = s.mem := foldl_mem reexamine_mem _ _
theorem releasePriority_ctxs (s : State) (l : Nat) : (releasePriority s l).ctxs = s.ctxs := foldl_ctxs reexamine_ctxs _ _
theorem dropHeld_mem (s : State) (l : Nat) : (dropHeld s l).mem = s.mem := by
  unfold dropHeld; split
  · exact releasePriority_mem s l
  · rfl
theorem dropHeld_ctxs (s : State) (l : Nat) : (dropHeld s l).ctxs = s.ctxs := by
  unfold dropHeld; split
  · exact releasePriority_ctxs s l
  · rfl
theorem dropHeld_cur (s : State) (l : Nat) : (dropHeld s l).cur = s.cur := (dropHeld_spares 0 s l).cur

section
variable (s : State) (r : Regs) (pc : Word)

theorem afterClosing_mem : (afterClosing s r pc).mem = s.mem := dropHeld_mem s _

theorem me_afterClosing : me (afterClosing s r pc) = closedCtx (me s) r pc := by
  rw [afterClosing, me_modMe]
  simp only [me, ctxAt, dropHeld_ctxs, dropHeld_cur]

theorem ctxAt_afterClosing {l : Nat} (h : l ≠ s.cur) : ctxAt (afterClosing s r pc) l = ctxAt s l := by
  rw [afterClosing, ctxAt_modMe_other _ _ (by rwa [dropHeld_cur])]
  simp only [ctxAt, dropHeld_ctxs]

theorem afterClosing_choices : (afterClosing s r pc).fox.choices = s.fox.choices := (dropHeld_spares 0 s _).choices

end

/-! ### A store that is a chunk of its own -/

theorem crcClosing_me (s : State) (t : Target) (bs : List Byte) :
    ∃ x, me (crcClosing s t bs) = { me s with unit := { (me s).unit with crc := x } } := by
  unfold crcClosing; split
  · exact ⟨_, rfl⟩
  · exact ⟨_, me_modMe _ _⟩

/-- R239: what a closing store enters into the copy's CRC is the context's alone. -/
theorem crcClosing_ctxs (s : State) (t : Target) (bs : List Byte) :
    crcClosing s t bs = { s with ctxs := (crcClosing s t bs).ctxs } := by
  unfold crcClosing; split <;> rfl

theorem ctxAt_crcClosing_other (s : State) (t : Target) (bs : List Byte) {l : Nat} (h : l ≠ s.cur) :
    ctxAt (crcClosing s t bs) l = ctxAt s l := by
  unfold crcClosing; split
  · rfl
  · exact ctxAt_modMe_other s _ h

theorem takesEffect_crcClosing {s : State} (t : Target) (bs : List Byte) (hd : (me s).unit.dup < 2) :
    takesEffect (crcClosing s t bs) = true := by
  obtain ⟨x, hx⟩ := crcClosing_me s t bs
  rw [takesEffect, hx]
  exact decide_eq_true hd

/-- R96: the executing context commits the bytes `bs`, with the signature `w`. -/
def closingWrite (s : State) (w : BitVec 1024) (t : Target) (bs : List Byte) : State := commitBytes (crcClosing s t bs) w t.key bs

section
variable {s : State} (w : BitVec 1024) (t : Target) (bs : List Byte)

theorem closingWrite_spares : Spares s.cur (crcClosing s t bs) (closingWrite s w t bs) := commitBytes_spares _ _ _ _ _

theorem closingWrite_cur : (closingWrite s w t bs).cur = s.cur := by
  rw [(closingWrite_spares w t bs).cur, crcClosing_ctxs]

theorem closingWrite_choices : (closingWrite s w t bs).fox.choices = s.fox.choices := by
  rw [(closingWrite_spares w t bs).choices, crcClosing_ctxs]

/-- The own context is not squashed: its chunk has read nothing. -/
theorem me_closingWrite (hr : (me s).chunk.r = 0) : ∃ u, me (closingWrite s w t bs) = { me s with unit := u } := by
  obtain ⟨x, hu⟩ := crcClosing_me s t bs
  have hcur : (crcClosing s t bs).cur = s.cur := by rw [crcClosing_ctxs]
  have he : ctxAt (crcClosing s t bs) s.cur = me (crcClosing s t bs) := by rw [me, hcur]
  have e : me (closingWrite s w t bs) = me (crcClosing s t bs) := by
    rw [me, closingWrite_cur, (closingWrite_spares w t bs).own (by rw [he, hu]; exact hr), he]
  exact ⟨_, e.trans hu⟩

theorem memBytes_closingWrite (hs : MemOk s) : memBytes (closingWrite s w t bs).mem t.key bs.length = bs := by
  rw [closingWrite, commitBytes_mem]
  exact memBytes_memPutAll _ _ _ (gather_wf _ _ _ (crcClosing_memOk hs t bs))

/-- Nothing of the bytes is held elsewhere: no other byte is written, and the readers are squashed, and no others. -/
theorem closingWrite_alone (hh : heldElsewhere s t.key bs.length = false) :
    (∀ k, k < t.key ∨ t.key + bs.length ≤ k → memGet (closingWrite s w t bs).mem k = memGet s.mem k)
    ∧ ∀ l, l ≠ s.cur → (¬ Met (ctxAt s l) w → ctxAt (closingWrite s w t bs) l = ctxAt s l)
      ∧ (Met (ctxAt s l) w → Squashed (ctxAt s l) (ctxAt (closingWrite s w t bs) l)) := by
  have hc : heldElsewhere (crcClosing s t bs) t.key bs.length = false := by rw [crcClosing_ctxs]; exact hh
  have hw : closingWrite s w t bs = commitPlain (crcClosing s t bs) w t.key bs := by
    rw [closingWrite, commitBytes, gather_none _ _ _ hc]
  rw [hw]
  refine ⟨fun k hk => ?_, fun l hl => ?_⟩
  · rw [commitPlain_mem, memGet_memPutAll_other _ _ _ hk, crcClosing_ctxs]
  · rw [← ctxAt_crcClosing_other s t bs hl]
    exact commitPlain_squashes _ _ _ _ _

end

/-! ### Areas in memory (R286) -/

/-- What an access to an area finds: device memory in an HC page, or in a pinned one. -/
structure AreaTarget (t : Target) : Prop where
  space : t.space = .hc ∨ t.space = .pinned
  closes : t.closes = true → t.space = .pinned

/-- If it answers, the access answers the target of an area. -/
def FindsArea : Acc → Prop
  | .ok t _ => AreaTarget t
  | _ => True

theorem findsArea_if {c : Prop} [Decidable c] {a b : Acc} (h : c → FindsArea a) (k : ¬ c → FindsArea b) :
    FindsArea (if c then a else b) := by
  by_cases hc : c
  · rw [if_pos hc]; exact h hc
  · rw [if_neg hc]; exact k hc

/-- The page check of an area leaves HC pages, and pinned ones. -/
theorem areaTarget_of_page {t : Target} {sw cp pin never remote : Bool}
    (h : ¬ (never && !false
      || !([Space.hc, .pinned].contains (if sw then Space.sw else if cp then .cp else if pin then .pinned else .hc))) = true)
    (hs : t.space = if sw then Space.sw else if cp then .cp else if pin then .pinned else .hc)
    (hc : t.closes = (never || pin && remote)) :
    AreaTarget t := by
  have hn : never = false := by cases never <;> simp_all
  have hsw : sw = false := by cases sw <;> simp_all
  have hcp : cp = false := by cases cp <;> simp_all
  subst hn hsw hcp
  constructor
  · rw [hs]; cases pin <;> simp
  · rw [hs, hc]; cases pin <;> simp

theorem homeAccess_findsArea (s : State) (ea : Word) (kind : Nat) (need : Need) (va : Nat) :
    FindsArea (homeAccess s (areaReq ea kind need) va) := by
  unfold homeAccess
  extract_lets l c asid h write tv hit
  clear_value hit
  refine findsArea_if (fun _ => trivial) fun _ => findsArea_if (fun _ => trivial) fun _ => findsArea_if (fun _ => trivial) fun _ => ?_
  cases hit with
  | none => cases c.walkFault with
    | none => trivial
    | some x => exact findsArea_if (fun _ => trivial) fun _ => trivial
  | some lf =>
    dsimp only
    cases leafFault s lf va (areaReq ea kind need).need (isUser c && !(areaReq ea kind need).sup) with
    | some x => trivial
    | none =>
      refine findsArea_if (fun _ => findsArea_if (fun _ => trivial) fun hn => absurd rfl hn) fun _ =>
        findsArea_if (fun _ => trivial) fun _ => ?_
      refine findsArea_if (fun _ => trivial) fun _ => findsArea_if (fun _ => trivial) fun hp => ?_
      split
      · trivial
      · refine findsArea_if (fun _ => trivial) fun _ => ?_
        exact areaTarget_of_page hp rfl rfl

theorem access_findsArea (s : State) (ea : Word) (kind : Nat) (need : Need) : FindsArea (access s (areaReq ea kind need)) := by
  unfold access
  extract_lets l c ea' cls tv last die scratch
  refine findsArea_if (fun _ => trivial) fun _ => findsArea_if (fun _ => trivial) fun _ => findsArea_if (fun _ => trivial) fun _ =>
    findsArea_if (fun _ => trivial) fun _ => findsArea_if (fun _ => trivial) fun hw => findsArea_if (fun _ => trivial) fun _ =>
    findsArea_if (fun _ => trivial) fun _ => ?_
  have hcls : cls = 8 := by simpa [areaReq] using hw
  generalize watchHit _ _ _ _ _ = w
  cases w with
  | some i => trivial
  | none =>
    simp only [hcls]
    exact homeAccess_findsArea s ea kind need _

theorem areaTarget_of_access {s v : State} {ea : Word} {kind : Nat} {need : Need} {t : Target}
    (h : access s (areaReq ea kind need) = .ok t v) : AreaTarget t := by
  have hf := access_findsArea s ea kind need
  rwa [h] at hf

theorem AreaTarget.sig {t : Target} (h : AreaTarget t) (n : Nat) : targetSig t n = sigRange t.asid t.va n := by
  have hsw : (t.space == .sw) = false := by rcases h.space with h | h <;> rw [h] <;> rfl
  have hcl : (t.closes && t.space != .pinned) = false := by
    cases hc : t.closes with
    | false => rfl
    | true => rw [h.closes hc]; rfl
  rw [targetSig, hsw, hcl]; rfl

theorem AreaTarget.storeNow {s : State} {t : Target} (h : AreaTarget t) (bs : List Byte) (hd : (me s).unit.dup < 2) :
    storeNow s t bs = closingWrite s (sigRange t.asid t.va bs.length) t bs := by
  have hsw : (t.space == .sw) = false := by rcases h.space with h | h <;> rw [h] <;> rfl
  have hcp : (t.space == .cp) = false := by rcases h.space with h | h <;> rw [h] <;> rfl
  rw [Machine.storeNow, takesEffect_crcClosing t bs hd, hsw, hcp, servedBy, hsw, h.sig]
  simp only [Bool.and_false, Bool.false_and, Bool.or_false, Bool.not_true, Bool.false_eq_true, if_false]
  rfl

/-! ### ctxsave (R286) -/

/-- What ctxsave records beside the registers of the context `c`. -/
def saveInfo (c : Ctx) (q : List Word) : SaveInfo :=
  { by_ := 2, kind := 0, pc := c.ctl.epc, num := c.chunk.num, q := q,
    status := statusWord (pplOf c.ctl) (pplOf c.ctl) (stepOn c.ctl) false false, mask := c.accMask, spill := 0 }

/-- The state after ctxsave of the context `c` into the area at `t`, whose bytes are written from `w`. -/
def saved (w : State) (t : Target) (c : Ctx) (q : List Word) : State :=
  afterClosing (closingWrite w (sigRange t.asid t.va 0xFF0) t (areaBytes w w.cur (saveInfo c q))) c.regs (c.regs.pc + 4)

section
variable {s v w : State} {a : Src} {t : Target} {q : List Word}

/-- R286: from where q comes: the registers, or c.tsave while ts is 1. -/
def SavesFrom (v w : State) (q : List Word) : Prop :=
  (tsOn (me v).ctl = false ∧ w = v ∧ q = qList (me v).regs)
  ∨ (tsOn (me v).ctl = true ∧ ∃ bs, hwRead v (asidOf (me v)) ((me v).ctl.tsave &&& ~~~127).toNat 128 false = .ok bs w ∧ q = wordsOf bs)

theorem execCtxsave_saves (hu : isUser (me s) = false) (he : chunkEmpty (me s) = true) (hy : youngTask s s.cur = false)
    (hacc : access s (areaReq (src s a) 1 needW) = .ok t v) (hq : SavesFrom v w q) (hw : me w = me v) (hd : (me v).unit.dup < 2)
    (hm : mayCommit w t 0 (sigRange t.asid t.va 0xFF0) = true) :
    exec (.ctxsave a) s = .next (saved w t (me v) q) := by
  have ht := areaTarget_of_access hacc
  have hlen : (areaBytes w w.cur (saveInfo (me v) q)).length = 0xFF0 := length_areaBytes _ _ _
  have hmask : accMaskOf w w.cur = (me v).accMask := by rw [← hw]; rfl
  show execCtxsave a s = _
  rw [execCtxsave, hu, if_neg (by decide), closing_goes _ he hy, withClosing_ok _ hacc]
  extract_lets c put
  have hput : put q w = .next (saved w t (me v) q) := by
    have hi : put q w = if mayCommit w t 0 (targetSig t (areaBytes w w.cur (saveInfo (me v) q)).length) then
        finishClosing (storeNow w t (areaBytes w w.cur (saveInfo (me v) q))) (me w).regs else stall w .arb := by
      unfold put; rw [hmask]; rfl
    rw [hi, hlen, ht.sig, hm, if_pos rfl, ht.storeNow _ (hw ▸ hd), hlen, hw]
    rfl
  rcases hq with ⟨hts, rfl, rfl⟩ | ⟨hts, bs, hbs, rfl⟩
  · exact (if_neg (by rw [hts]; decide)).trans hput
  · refine (if_pos hts).trans ?_
    rw [hbs]
    exact hput

end

section
variable {w : State} (t : Target) (q : List Word)

theorem me_saved (hr : (me w).chunk.r = 0) : Closed (me w) (me (saved w t (me w) q)) ((me w).regs.pc + 4)
    ∧ (me (saved w t (me w) q)).regs = { (me w).regs with pc := (me w).regs.pc + 4 } := by
  obtain ⟨u, hu⟩ := me_closingWrite (sigRange t.asid t.va 0xFF0) t (areaBytes w w.cur (saveInfo (me w) q)) hr
  rw [saved, me_afterClosing, hu]
  exact ⟨⟨rfl, rfl, rfl, rfl, rfl⟩, rfl⟩

/-- R274: the words of the area that has been written. -/
theorem wordsOf_saved (hm : MemOk w) :
    wordsOf (memBytes (saved w t (me w) q).mem t.key 0xFF0) = areaWords w w.cur (saveInfo (me w) q) := by
  have h := memBytes_closingWrite (sigRange t.asid t.va 0xFF0) t (areaBytes w w.cur (saveInfo (me w) q)) hm
  rw [length_areaBytes] at h
  rw [saved, afterClosing_mem, h, wordsOf_areaBytes]

theorem saved_alone (hh : heldElsewhere w t.key 0xFF0 = false) :
    (∀ k, k < t.key ∨ t.key + 0xFF0 ≤ k → memGet (saved w t (me w) q).mem k = memGet w.mem k)
    ∧ SquashesOnly w (saved w t (me w) q) (sigRange t.asid t.va 0xFF0)
    ∧ SquashesReaders w (saved w t (me w) q) (sigRange t.asid t.va 0xFF0) := by
  have hlen : (areaBytes w w.cur (saveInfo (me w) q)).length = 0xFF0 := length_areaBytes _ _ _
  obtain ⟨hmem, hctx⟩ := closingWrite_alone (sigRange t.asid t.va 0xFF0) t (areaBytes w w.cur (saveInfo (me w) q))
    (by rwa [hlen])
  rw [hlen] at hmem
  have hother : ∀ l, l ≠ w.cur → ctxAt (saved w t (me w) q) l
      = ctxAt (closingWrite w (sigRange t.asid t.va 0xFF0) t (areaBytes w w.cur (saveInfo (me w) q))) l :=
    fun l hl => ctxAt_afterClosing _ _ _ (by rwa [closingWrite_cur])
  refine ⟨fun k hk => ?_, fun l hl hn => ?_, fun l hl hlive hmet => ?_⟩
  · rw [saved, afterClosing_mem, hmem k hk]
  · rw [hother l hl]
    exact (hctx l hl).1 fun hm => by rw [hm.2] at hn; exact absurd hn (by decide)
  · rw [hother l hl]
    exact (hctx l hl).2 ⟨hlive, hmet⟩

end

theorem crValues_eq (s : State) : crValues s = (List.range 29).map (crGet s s.cur) := rfl

/-- The control registers by number are the context's, its core's generator and the clock. -/
theorem crGet_congr {s w : State} (hme : me w = me s) (hcur : w.cur = s.cur) (hrng : ∀ k, (coreAt w k).rng = (coreAt s k).rng)
    (hnow : w.now = s.now) (n : Nat) : crGet w w.cur n = crGet s s.cur n := by
  have h : ctxAt w w.cur = ctxAt s s.cur := hme
  unfold crGet
  rw [h, hrng, hnow, hcur]

/-! ### ctxload (R286) -/

/-- R7, R274, R286: an area that may be loaded at the level `pl`, in the ASID `asid`. -/
def AreaFits (pl asid : Nat) (area : List Word) : Prop :=
  let zero : Nat → Nat → Nat → Prop := fun w hi lo => (wordAt area w).toNat / 2 ^ lo % 2 ^ (hi - lo + 1) = 0
  let formed := (wordAt area 0).getLsbD 63 = true ∧ (wordAt area 0).toNat / 2 ^ 48 % 2 ^ 8 = 1 ∧ zero 0 62 56 ∧ zero 0 31 0 ∧ zero 2 31
    0
    ∧ zero 3 61 44 ∧ zero 5 62 12 ∧ ((wordAt area 5).getLsbD 63 = true ∨ zero 5 11 0) ∧ zero 6 47 18 ∧ zero 7 63 50 ∧ zero 7 31 0
    ∧ ∀ n, 333 ≤ n → n < 512 → n ≠ 510 → wordAt area n = 0
  let st := wordAt area 304
  formed ∧ (pl = 2 ∨ (wordAt area 306).toNat % 2 ^ 10 = asid) ∧ (wordAt area 3).toNat / 2 ^ 62 = 0
    ∧ st.toNat % 4 ≤ pl ∧ st.toNat % 4 ≠ 3 ∧ st.toNat / 4 % 4 ≠ 3

theorem all_zero_window (ws : List Word) (a k : Nat) :
    ((ws.drop a).take k).all (· == 0) = true ↔ ∀ i < k, wordAt ws (a + i) = 0 := by
  simp only [List.all_eq_true, beq_iff_eq, List.mem_iff_getElem?, List.getElem?_take, List.getElem?_drop, wordAt_eq_getD]
  constructor
  · intro h i hi
    cases e : ws[a + i]? with
    | none => rfl
    | some x => exact h x ⟨i, by rw [if_pos hi, e]⟩
  · rintro h x ⟨i, hx⟩
    by_cases hi : i < k
    · rw [if_pos hi] at hx
      have := h i hi
      rwa [hx] at this
    · rw [if_neg hi] at hx; cases hx

/-- Words 333–509 and 511. -/
theorem reserved_zero_iff (ws : List Word) : (((ws.drop 333).take 177).all (· == 0) = true ∧ wordAt ws 511 = 0)
    ↔ ∀ n, 333 ≤ n → n < 512 → n ≠ 510 → wordAt ws n = 0 := by
  rw [all_zero_window]
  constructor
  · rintro ⟨h, h511⟩ n hlo hhi hne
    by_cases hn : n = 511
    · rw [hn, h511]
    · have := h (n - 333) (by omega)
      rwa [Nat.add_sub_cancel' hlo] at this
  · exact fun h => ⟨fun i hi => h _ (by omega) (by omega) (by omega), h 511 (by omega) (by omega) (by omega)⟩

theorem areaOk_iff (c : Ctl) (asid : Nat) (ws : List Word) : areaOk c asid ws = true ↔ AreaFits (plOf c) asid ws := by
  simp only [areaOk, areaForm, AreaFits, ← reserved_zero_iff, areaCr, fld, bit, Bool.and_eq_true, Bool.or_eq_true, beq_iff_eq,
    bne_iff_ne]
  have h0 : (wordAt ws 3).toNat / 2 ^ 62 % 2 ^ (63 - 62 + 1) = (wordAt ws 3).toNat / 2 ^ 62 := by
    have := (wordAt ws 3).isLt; omega
  rw [h0]
  norm_num
  tauto

theorem storeNamed_eq {v : State} (t : Target) (bs : List Byte) (hd : (me v).unit.dup < 2) :
    ∃ g, storeNamed v t bs = closingWrite v g t bs :=
  ⟨_, if_pos (takesEffect_crcClosing t bs hd)⟩

/-- The state after ctxload of the area `ws` at `t`, whose valid bit is cleared with the signature `g`. -/
def loaded (v : State) (g : BitVec 1024) (t : Target) (ws : List Word) : State :=
  let s := closingWrite v g t (wordBytes (wordAt ws 0 &&& 0x7FFFFFFFFFFFFFFF))
  let r := areaRegs (me v).regs ws
  let s := modFox s (fun f => { f with choices := f.choices.filter (fun x => x.loc != v.cur) })
  afterClosing (modMe s (fun c => { c with ctl := areaCtl c.ctl ws, unregistered := 2 })) r r.pc

section
variable {s v : State} {a : Src} {t : Target} (hu : isUser (me s) = false) (he : chunkEmpty (me s) = true)
  (hy : youngTask s s.cur = false) (hacc : access s (areaReq (src s a) 0 needR) = .ok t v) (hp : poisoned v t.key 4096 = false)

include hu he hy hacc hp

theorem execCtxload_refuses (hf : ¬ AreaFits (plOf (me v).ctl) (asidOf (me v)) (wordsOf (memBytes v.mem t.key 4096))) :
    exec (.ctxload a) s = raise v cQueueInvalid (src s a) (BitVec.ofNat 64 (2 * 4096)) := by
  rw [← areaOk_iff, Bool.not_eq_true] at hf
  show execCtxload a s = _
  rw [execCtxload, hu]
  refine (if_neg (by decide)).trans ?_
  rw [closing_goes _ he hy, withClosing_ok _ hacc, hp]
  simp only [hf, Bool.not_false, if_true, Bool.false_eq_true, if_false]
  rfl

theorem execCtxload_loads (hd : (me v).unit.dup < 2) (hr : (me v).chunk.r = 0)
    (hf : AreaFits (plOf (me v).ctl) (asidOf (me v)) (wordsOf (memBytes v.mem t.key 4096)))
    (hm : mayCommit v t (sigRange t.asid t.va 4096) (sigRange t.asid t.va 8) = true) :
    ∃ g, exec (.ctxload a) s = .next (loaded v g t (wordsOf (memBytes v.mem t.key 4096))) := by
  rw [← areaOk_iff] at hf
  have ht := areaTarget_of_access hacc
  obtain ⟨g, hg⟩ := storeNamed_eq t (wordBytes (wordAt (wordsOf (memBytes v.mem t.key 4096)) 0 &&& 0x7FFFFFFFFFFFFFFF)) hd
  refine ⟨g, ?_⟩
  obtain ⟨x, hx⟩ := me_closingWrite g t
    (wordBytes (wordAt (wordsOf (memBytes v.mem t.key 4096)) 0 &&& 0x7FFFFFFFFFFFFFFF)) hr
  show execCtxload a s = _
  rw [execCtxload, hu]
  refine (if_neg (by decide)).trans ?_
  rw [closing_goes _ he hy, withClosing_ok _ hacc, hp]
  simp only [hf, Bool.not_true, Bool.false_eq_true, if_false, ht.sig, hm, if_true, hg, hx, closingWrite_cur]
  rfl

end

section
variable {v : State} (g : BitVec 1024) (t : Target) (ws : List Word)

theorem me_loaded (hr : (me v).chunk.r = 0) : ∃ x, me (loaded v g t ws)
    = closedCtx { me v with unit := x, ctl := areaCtl (me v).ctl ws, unregistered := 2 }
      (areaRegs (me v).regs ws) (areaRegs (me v).regs ws).pc := by
  obtain ⟨x, hx⟩ := me_closingWrite g t (wordBytes (wordAt ws 0 &&& 0x7FFFFFFFFFFFFFFF)) hr
  refine ⟨x, ?_⟩
  rw [loaded, me_afterClosing, me_modMe, me_modFox, hx]

theorem loaded_choices (x : Choice) : x ∈ (loaded v g t ws).fox.choices ↔ x ∈ v.fox.choices ∧ x.loc ≠ v.cur := by
  rw [loaded, afterClosing_choices]
  show x ∈ (closingWrite v g t _).fox.choices.filter _ ↔ _
  rw [closingWrite_choices, List.mem_filter, bne_iff_ne]

theorem memWord_loaded (hm : MemOk v) : memWord (loaded v g t ws).mem t.key = wordAt ws 0 &&& 0x7FFFFFFFFFFFFFFF := by
  rw [loaded, afterClosing_mem]
  show memWord (closingWrite v g t _).mem t.key = _
  rw [closingWrite, commitBytes_mem]
  exact memWord_wordBytes _ _ _ (gather_wf _ _ _ (crcClosing_memOk hm _ _))

end

/-! ### What an area holds -/

theorem get_ofFn {α : Type} {n : Nat} (f : Fin n → α) (i : Fin n) : (Vector.ofFn f).get i = f i := by
  show (Vector.ofFn f)[i.val] = f i
  rw [Vector.getElem_ofFn]

theorem get_set_zero {α : Type} {n : Nat} (v : Vector α (n + 1)) (x : α) (i : Fin (n + 1)) :
    (v.set 0 x).get i = if i = 0 then x else v.get i := by
  show (v.set 0 x)[i.val] = if i = 0 then x else v[i.val]
  rw [Vector.getElem_set]
  simp only [Fin.ext_iff, Fin.val_zero, eq_comm]

theorem qGet_qLoad (r : Regs) (f : Fin 16 → Word) (n : Fin 16) : qGet (qLoad r f) n = f n := by
  rw [qGet, qLoad, get_ofFn, sub_sub_cancel]

theorem plOf_withHeld (c : Ctl) (h : Bool) : plOf (withHeld c h) = plOf c := by
  have hf := (statusWord_fields (plOf c) (pplOf c) (stepOn c) (tsOn c) h).1
  rw [withHeld, plOf, hf, plOf, fld]; omega

theorem pplOf_withHeld (c : Ctl) (h : Bool) : pplOf (withHeld c h) = pplOf c := by
  have hf := (statusWord_fields (plOf c) (pplOf c) (stepOn c) (tsOn c) h).2.1
  rw [withHeld, pplOf, hf, pplOf, fld]; omega

theorem areaCtl_levels (c : Ctl) (ws : List Word) :
    plOf (areaCtl c ws) = (wordAt ws 304).toNat % 4 ∧ pplOf (areaCtl c ws) = (wordAt ws 304).toNat / 4 % 4 := by
  obtain ⟨h1, h2, -⟩ :=
    statusWord_fields (fld (areaCr ws 0) 1 0) (fld (areaCr ws 0) 3 2) (bit (areaCr ws 0) 4) (bit (areaCr ws 0) 5) false
  constructor
  · rw [areaCtl, plOf, h1]
    show (wordAt ws 304).toNat / 1 % 4 % 4 = _
    omega
  · rw [areaCtl, pplOf, h2]
    show (wordAt ws 304).toNat / 4 % 4 % 4 = _
    omega

theorem crPut_epc (c : Ctl) {n : Nat} (x : Word) (h : n ≠ 4) : (crPut c n x).epc = c.epc := by
  unfold crPut; split
  case h_4 => exact absurd rfl h
  all_goals rfl

theorem crPut_asid (c : Ctl) {n : Nat} (x : Word) (h : n ≠ 2) : (crPut c n x).asid = c.asid := by
  unfold crPut; split
  case h_2 => exact absurd rfl h
  all_goals rfl

theorem foldl_crPut_asid {ns : List Nat} (h : ∀ n ∈ ns, n ≠ 2) (x : Nat → Word) (c : Ctl) :
    (ns.foldl (fun c n => crPut c n (x n)) c).asid = c.asid := by
  induction ns generalizing c with
  | nil => rfl
  | cons n ns ih => rw [List.foldl_cons, ih (fun k hk => h k (List.mem_cons_of_mem n hk)), crPut_asid c _ (h n List.mem_cons_self)]

theorem foldl_crPut_epc {ns : List Nat} (h : ∀ n ∈ ns, n ≠ 4) (x : Nat → Word) (c : Ctl) :
    (ns.foldl (fun c n => crPut c n (x n)) c).epc = c.epc := by
  induction ns generalizing c with
  | nil => rfl
  | cons n ns ih => rw [List.foldl_cons, ih (fun k hk => h k (List.mem_cons_of_mem n hk)), crPut_epc c _ (h n List.mem_cons_self)]

/-- The control registers that ctxload writes by number. -/
def loadedCrs : List Nat := (List.range 29).filter (fun n => !(n == 0 || n == 1 || n == 2 || n == 0x19 || n == 0x1A))

/-- The control registers of the loaded context but for c.status. -/
def loadedCtl (c : Ctl) (ws : List Word) : Ctl := loadedCrs.foldl (fun c n => crPut c n (areaCr ws n)) c

theorem areaCtl_eq (c : Ctl) (ws : List Word) : areaCtl c ws = { loadedCtl c ws with status := (areaCtl c ws).status } := by
  rw [areaCtl, loadedCtl, loadedCrs]

theorem loadedCtl_asid (c : Ctl) (ws : List Word) : (loadedCtl c ws).asid = c.asid :=
  foldl_crPut_asid (by decide) (areaCr ws) c

theorem loadedCtl_epc (c : Ctl) (ws : List Word) : (loadedCtl c ws).epc = wordAt ws 308 &&& ~~~3 := by
  have hl : loadedCrs = 3 :: 4 :: loadedCrs.drop 2 := by decide
  rw [loadedCtl, hl, List.foldl_cons, List.foldl_cons, foldl_crPut_epc (by decide) (areaCr ws)]
  rfl

theorem areaCtl_asid (c : Ctl) (ws : List Word) : (areaCtl c ws).asid = c.asid := by
  rw [areaCtl_eq]; dsimp only; exact loadedCtl_asid c ws

theorem areaCtl_epc (c : Ctl) (ws : List Word) : (areaCtl c ws).epc = wordAt ws 308 &&& ~~~3 := by
  rw [areaCtl_eq]; dsimp only; exact loadedCtl_epc c ws

section
variable (r : Regs) (ws : List Word)
theorem areaRegs_q (j : Fin 16) : qGet (areaRegs r ws) j = wordAt ws (8 + j.val) := by
  rw [qGet, areaRegs]
  exact qGet_qLoad r (fun i => wordAt ws (8 + i.val)) j
theorem areaRegs_k (j : Fin 16) : (areaRegs r ws).k.get j = wordAt ws (24 + j.val) :=
  get_ofFn (fun i : Fin 16 => wordAt ws (24 + i.val)) j
theorem areaRegs_v (x : Fin 32) : (areaRegs r ws).v.get x = vecOf ws (40 + 8 * x.val) :=
  get_ofFn (fun i : Fin 32 => vecOf ws (40 + 8 * i.val)) x
theorem areaRegs_m (y : Fin 8) : (areaRegs r ws).m.get y = if y = 0 then BitVec.allOnes 64 else wordAt ws (296 + y.val) := by
  refine (get_set_zero _ _ y).trans ?_
  rw [get_ofFn]
end

/-- `raise` in the state after an access. -/
theorem traps_after_access {i : Instr} {s v w : State} {cause : Nat} {badva tval : Word} (hv : HomesOnly s v) (h : CanTrap v w)
    (hi : exec i s = raise v cause badva tval) : Traps i s w cause badva tval := by
  have h1 := h.1
  refine ⟨_, hi.trans (by simp only [raise, h1, takeTrap_save h]; rfl), ?_, fun l hl => ?_, rfl⟩
  · rw [hv.cur, ctxAt_setCtx, ← hv.me]
    exact trapCtx_took (me v) { cause := cause, epc := (me v).regs.pc, badva := badva, tval := tval } false
  · exact ctxAt_setCtx_other w _ (by rwa [hv.cur])

theorem pplOf_lt (c : Ctl) : pplOf c < 4 := by rw [pplOf, fld]; omega

theorem statusWord_returned (p : Nat) (step : Bool) (h : p < 4) :
    (statusWord p p step false false).toNat = 5 * p + (if step then 16 else 0) := by
  rw [statusWord, BitVec.toNat_ofNat, Nat.mod_eq_of_lt h]
  cases step <;> simp <;> omega

/-- R274: what stands in the area that ctxsave writes in the state `w`, whose context and core are those of `s`. -/
theorem areaWords_saved {s w : State} (hme : me w = me s) (hcur : w.cur = s.cur) (hrng : ∀ k, (coreAt w k).rng = (coreAt s k).rng)
    (hnow : w.now = s.now) (q : List Word) (j : Fin 16) (x : Fin 32) (y : Fin 8) :
    let c := me s
    let ws := areaWords w w.cur (saveInfo (me w) q)
    wordAt ws 0 = 0x8001020000000000 ∧ wordAt ws 1 = c.ctl.epc ∧ (wordAt ws 2).toNat = c.chunk.num % 2 ^ 32 * 2 ^ 32
      ∧ wordAt ws 3 = BitVec.ofNat 64 (c.unit.gangKind * 2 ^ 62 + c.unit.thread % 2 ^ 12 * 2 ^ 32 + c.unit.gang % 2 ^ 32)
      ∧ wordAt ws 4 = c.unit.launchVa
      ∧ wordAt ws 5 = (match c.unit.bound with | some b => BitVec.ofNat 64 (2 ^ 63 + b.handle) | none => 0)
      ∧ (wordAt ws 6).toNat = c.accMask.toNat * 2 ^ 48 + s.cur % 2 ^ 18 ∧ wordAt ws 7 = 0
      ∧ wordAt ws (8 + j.val) = wordAt q j.val ∧ wordAt ws (24 + j.val) = c.regs.k.get j
      ∧ vecOf ws (40 + 8 * x.val) = c.regs.v.get x ∧ wordAt ws (296 + y.val) = c.regs.m.get y
      ∧ (wordAt ws 304).toNat = 5 * pplOf c.ctl + (if stepOn c.ctl then 16 else 0)
      ∧ (∀ n, 0 < n → (crValues s)[n]? = if n < 29 then some (wordAt ws (304 + n)) else none)
      ∧ ∀ n, 333 ≤ n → n < 510 → wordAt ws n = 0 := by
  intro c ws
  have hc : ctxAt w w.cur = c := hme
  have hhead : ∀ n < 8, wordAt ws n = wordAt (areaHead s.cur c.unit (saveInfo c q)) n := fun n hn => by
    show wordAt (areaWords w w.cur (saveInfo (me w) q)) n = _
    rw [areaWords_head _ _ _ hn, hc, hcur, hme]
  refine ⟨(hhead 0 (by decide)).trans ?_, (hhead 1 (by decide)).trans rfl, ?_, (hhead 3 (by decide)).trans rfl,
    (hhead 4 (by decide)).trans rfl, (hhead 5 (by decide)).trans ?_, ?_, (hhead 7 (by decide)).trans ?_, areaWords_q w w.cur _ j, ?_,
        ?_, ?_, ?_,
    fun n hn => ?_, fun n hn _ => areaWords_zero w w.cur _ hn⟩
  · show BitVec.ofNat 64 (2 ^ 63 + 2 ^ 48 + 2 * 2 ^ 40 + 0 * 2 ^ 32) = 0x8001020000000000#64
    norm_num
  · rw [hhead 2 (by decide)]
    show (BitVec.ofNat 64 (c.chunk.num % 2 ^ 32 * 2 ^ 32)).toNat = _
    rw [BitVec.toNat_ofNat]; omega
  · show (match c.unit.bound with | some b => BitVec.ofNat 64 (2 ^ 63 + b.handle) | none => 0) = _
    cases c.unit.bound <;> rfl
  · rw [hhead 6 (by decide)]
    show (BitVec.ofNat 64 (c.accMask.toNat * 2 ^ 48 + s.cur % 2 ^ 18)).toNat = _
    have := c.accMask.isLt
    rw [BitVec.toNat_ofNat]; omega
  · show BitVec.ofNat 64 (0 * 2 ^ 32) = 0#64
    norm_num
  · exact (areaWords_k w w.cur _ j).trans (by rw [hc])
  · exact (areaWords_v w w.cur _ x).trans (by rw [hc])
  · exact (areaWords_m w w.cur _ y).trans (by rw [hc])
  · have h := areaWords_ctl w w.cur (saveInfo (me w) q) 0 (by decide)
    rw [show wordAt ws 304 = _ from h, if_pos rfl, hme]
    exact statusWord_returned _ _ (pplOf_lt _)
  · rw [crValues_eq]
    by_cases h : n < 29
    · rw [if_pos h]
      show _ = some (wordAt (areaWords w w.cur (saveInfo (me w) q)) (304 + n))
      rw [areaWords_ctl _ _ _ n h, if_neg (by omega), crGet_congr hme hcur hrng hnow]
      simp [h]
    · rw [if_neg h]; simp; omega

theorem wordAt_qList (r : Regs) (j : Fin 16) : wordAt (qList r) j.val = qGet r j := by
  rw [wordAt_eq_getD]
  simp [qList]

/-- What a context that may execute ctxsave and ctxload is at. -/
structure Starts (s : State) : Prop where
  level : isUser (me s) = false
  fresh : Fresh (me s)
  old : youngTask s s.cur = false
  dup : (me s).unit.dup < 2

/-- The clause of ctxsave for the state `w` that it writes from and the words `q` that it saves of q. -/
theorem ctxsave_saves {s v w : State} {a : Src} {t : Target} {q : List Word} (hs : Starts s)
    (hacc : access s (areaReq (src s a) 1 needW) = .ok t v) (hq : SavesFrom v w q) (hw : me w = me v)
    (hspare : Spares v.cur v w) (hm : mayCommit w t 0 (sigRange t.asid t.va 0xFF0) = true) :
    exec (.ctxsave a) s = .next (saved w t (me w) q)
      ∧ (∀ k, (coreAt w k).rng = (coreAt s k).rng) ∧ w.now = s.now ∧ me w = me s := by
  have hv := access_ok hacc
  have hme : me w = me s := hw.trans hv.me
  obtain ⟨hu, ⟨he, hr, -⟩, hy, hd⟩ := hs
  refine ⟨?_, fun k => (hspare.rng k).trans ?_, hspare.now.trans ?_, hme⟩
  · rw [hw]
    exact execCtxsave_saves hu he hy hacc hq hw (hv.me ▸ hd) hm
  · rw [hv.all]; rfl
  · rw [hv.all]

theorem closedCtx_regs (c : Ctx) (r : Regs) : (closedCtx c r r.pc).regs = r := rfl

/-- The levels and the registers that ctxload sets stand when its chunk has committed. -/
theorem closedCtx_ctl (c : Ctx) (r : Regs) (pc : Word) :
    plOf (closedCtx c r pc).ctl = plOf c.ctl ∧ pplOf (closedCtx c r pc).ctl = pplOf c.ctl
    ∧ (closedCtx c r pc).ctl.asid = c.ctl.asid ∧ (closedCtx c r pc).ctl.epc = c.ctl.epc :=
  ⟨plOf_withHeld _ _, pplOf_withHeld _ _, rfl, rfl⟩

/-- R286, R325, R330: what stands after ctxload of the area. -/
theorem loaded_holds {v : State} (g : BitVec 1024) (t : Target) (area : List Word) (hr : (me v).chunk.r = 0) (hm : MemOk v)
    (j : Fin 16) (x : Fin 32) (y : Fin 8) :
    let u := loaded v g t area
    let st := wordAt area 304
    (me u).regs.pc = wordAt area 1 &&& ~~~3 ∧ chunkEmpty (me u) = true
      ∧ qGet (me u).regs j = wordAt area (8 + j.val) ∧ (me u).regs.k.get j = wordAt area (24 + j.val)
      ∧ (me u).regs.v.get x = vecOf area (40 + 8 * x.val)
      ∧ (me u).regs.m.get y = (if y = 0 then BitVec.allOnes 64 else wordAt area (296 + y.val))
      ∧ plOf (me u).ctl = st.toNat % 4 ∧ pplOf (me u).ctl = st.toNat / 4 % 4
      ∧ (me u).ctl.asid = (me v).ctl.asid ∧ (me u).ctl.epc = wordAt area 308 &&& ~~~3
      ∧ (me u).unregistered = 2 ∧ (∀ r, r ∈ u.fox.choices ↔ r ∈ v.fox.choices ∧ r.loc ≠ v.cur)
      ∧ memWord u.mem t.key = wordAt area 0 &&& 0x7FFFFFFFFFFFFFFF := by
  intro u st
  obtain ⟨b, hb⟩ := me_loaded g t area hr
  have hregs : (me u).regs = areaRegs (me v).regs area := by rw [hb, closedCtx_regs]
  obtain ⟨hpl, hppl, hasid, hepc⟩ := closedCtx_ctl { me v with unit := b, ctl := areaCtl (me v).ctl area, unregistered := 2 }
    (areaRegs (me v).regs area) (areaRegs (me v).regs area).pc
  rw [← hb] at hpl hppl hasid hepc
  obtain ⟨hlevel, hprev⟩ := areaCtl_levels (me v).ctl area
  refine ⟨by rw [hregs]; rfl, by rw [hb]; rfl, by rw [hregs, areaRegs_q], by rw [hregs, areaRegs_k], by rw [hregs, areaRegs_v],
    by rw [hregs, areaRegs_m], hpl.trans hlevel, hppl.trans hprev, hasid.trans (areaCtl_asid _ _), hepc.trans (areaCtl_epc _ _),
    by rw [hb]; rfl, fun r => loaded_choices g t area r, memWord_loaded g t area hm⟩

/-- Settles O35: both instructions go through the access to the area; ctxsave writes `areaWords` there, and ctxload loads the area
that fits. -/
theorem contextSaveAndLoad : Obligations.ContextSaveAndLoad := by
  intro s v z a t qs j x y ea c g req start saves area zero formed st fits
  have hsave : ∀ w q f, f j.val = wordAt q j.val → Starts s → access s (req 1 needW) = .ok t v → SavesFrom v w q →
      me w = me v → w.cur = s.cur → MemOk w → Spares v.cur v w → saves w f := by
    intro w q f hf hs hacc hq hw hcur hmw hspare hm
    obtain ⟨hexec, hrng, hnow, hme⟩ := ctxsave_saves hs hacc hq hw hspare hm
    have hr : (me w).chunk.r = 0 := hme ▸ hs.fresh.2.1
    obtain ⟨hclosed, hregs⟩ := me_saved t q hr
    have harea := areaWords_saved hme hcur hrng hnow q j x y
    rw [← wordsOf_saved t q hmw, ← hf] at harea
    refine ⟨_, hexec, ?_, ?_, harea, fun hh => saved_alone t q hh⟩
    · show Closed (me s) _ ((me s).regs.pc + 4)
      rw [← hme]; exact hclosed
    · show _ = { (me s).regs with pc := (me s).regs.pc + 4 }
      rw [← hme]; exact hregs
  refine ⟨?_, ?_, ?_, ?_, ?_⟩
  · exact privileged_of fun h => if_pos h
  · exact privileged_of fun h => if_pos h
  · exact fun hu => ⟨closesFrom_of (if_neg (by rw [hu]; decide)), closesFrom_of (if_neg (by rw [hu]; decide))⟩
  · intro hstart hm hacc
    have hs : Starts s := ⟨hstart.1, hstart.2.1, hstart.2.2.1, hstart.2.2.2⟩
    have hv := access_ok hacc
    have hmv : MemOk v := by rw [MemOk, hv.mem]; exact hm
    refine ⟨fun hts => ?_, fun hts hread hz hcur hmz => ?_⟩
    · refine hsave v (qList (me v).regs) (fun n => qGet (me s).regs (Fin.ofNat 16 n)) ?_ hs hacc
        (Or.inl ⟨by rw [hv.me]; exact hts, rfl, rfl⟩) rfl hv.cur hmv (.refl _ v)
      rw [wordAt_qList, hv.me, Fin.ofNat_val_eq_self]
    · refine hsave z (wordsOf qs) _ rfl hs hacc
        (Or.inr ⟨by rw [hv.me]; exact hts, qs, by rw [hv.me]; exact hread, rfl⟩) hz hcur hmz ?_
      exact hwRead_spares _ _ hread
  · intro hstart hacc hp
    have hv := access_ok hacc
    obtain ⟨hu, ⟨he, hr, -⟩, hy, hd⟩ := hstart
    have harea : wordsOf (memBytes v.mem t.key 4096) = area := by rw [hv.mem]
    have hfits : AreaFits (plOf (me v).ctl) (asidOf (me v)) (wordsOf (memBytes v.mem t.key 4096)) ↔ fits := by
      rw [harea, hv.me]; rfl
    refine ⟨fun hf w hw => ?_, fun hf hm hmay => ?_⟩
    · exact traps_after_access hv hw (execCtxload_refuses hu he hy hacc hp (hfits.not.mpr hf))
    · obtain ⟨g', hexec⟩ := execCtxload_loads hu he hy hacc hp (by rw [hv.me]; exact hd) (by rw [hv.me]; exact hr) (hfits.mpr hf) hmay
      have hmv : MemOk v := by rw [MemOk, hv.mem]; exact hm
      rw [harea] at hexec
      have hloaded := loaded_holds g' t area (by rw [hv.me]; exact hr) hmv j x y
      rw [hv.me, hv.cur] at hloaded
      exact ⟨_, hexec, hloaded⟩

end Sys2Proof.Machine
end

-- Proofs of the family 01_notation_listing
section
/-! PROOF. The loader and modules that share a number (O54). The statement's clause on the load of a native module takes the write of
the handler table in the state `s1`, in which every module of the loaded module's number is marked as loaded and keeps its own file.
`loadModule` also gives each of them the relocated file of the module that it loads. The two agree when a number names one module, or
when all that share it have one file; the statement quantifies over every state and asks for neither. -/

namespace Sys2Proof.Machine

/-- The header of a native file (R63) whose section table is empty. -/
def emptyNativeFile : List Byte := wordsBytes [0x4F4D5841, 0x1010001, 0, 64, 0, 0, 0, 0]

/-- VA 0x40 of the global window. -/
def handlerVa : Word := 0x80000000000040

/-- A module with the number 0 and the ASID 0, which declares handler 1 and nothing else. -/
def oneHandler (file : List Byte) : Module :=
  { mid := 0, asid := 0, file := file, regions := [], symbols := [], handlers := [(1, .value handlerVa)], queues := [], launches := [],
    tiles := [], fifos := [], version := none, refused := false, loaded := false }

/-- Two modules carry the number 0, and only the first has a native file. The handler table of ASID 0 begins at the global window's
first page, which is mapped. -/
def sharedNumber : State :=
  { bar0Set (State.reset.withFetchWord 32 0x02000000) (asidOff 0 0) 0x80000000000000 with
    modules := [oneHandler emptyNativeFile, oneHandler []] }

def moduleFiles (s : State) : List (List Byte) := s.modules.map (fun m => m.file)

/-- The modules' files in the state that a step answers. -/
def filesNext : Res → Option (List (List Byte))
  | .next t => some (moduleFiles t)
  | _ => none

/-- The modules' files in the state that an access of the hardware answers. -/
def filesWritten : Hw Unit → Option (List (List Byte))
  | .ok () t => some (moduleFiles t)
  | _ => none

theorem filesWritten_some {r : Hw Unit} {fs : List (List Byte)} (h : filesWritten r = some fs) :
    ∃ t, r = .ok () t ∧ moduleFiles t = fs := by
  match r with
  | .ok () t => exact ⟨t, rfl, Option.some.inj h⟩

/-- The write that the statement names goes through, and leaves each of the two modules its own file. -/
theorem filesWritten_sharedNumber :
    filesWritten (hwWrite (modModule sharedNumber 0 (fun z => { z with loaded := true })) 0 (tableVa sharedNumber 0 0 1)
      (natBytes 8 (2 ^ 63 + handlerVa.toNat)) false) = some [emptyNativeFile, []] := by
  decide +kernel

/-- The load gives both modules the file of the first. -/
theorem filesNext_loaderStart_sharedNumber :
    filesNext (exec .loaderStart sharedNumber) = some [emptyNativeFile, emptyNativeFile] := by
  decide +kernel

theorem oneHandler_fresh : moduleAt sharedNumber sharedNumber.cur = some (oneHandler emptyNativeFile)
    ∧ (oneHandler emptyNativeFile).refused = false ∧ (oneHandler emptyNativeFile).loaded = false :=
  ⟨by decide +kernel, rfl, rfl⟩

/-- Refutes O54, in its clause on the load of a native module: `sharedNumber` meets every hypothesis of the clause, but the state after
the load is not the one that the write of the handler table answers, for the second module has another file in it. -/
theorem not_loaderSteps : ¬ Obligations.LoaderSteps := by
  unfold Obligations.LoaderSteps
  intro hall
  obtain ⟨t, hwrite, hfiles⟩ := filesWritten_some filesWritten_sharedNumber
  have hload : exec .loaderStart sharedNumber = .next t := by
    obtain ⟨-, -, -, -, -, -, hnative, -⟩ := hall sharedNumber t (oneHandler emptyNativeFile)
      (v := handlerVa) (h := 1) (xs := []) (x := ⟨0, 0, 0, 0⟩) (y := ⟨0, 0, 0, 0⟩) (g := []) (bs := []) (rec' := [])
      (img := ⟨0, 0, []⟩) (fmts := []) (w := 0) (i := 0) (j := 0) (k := 0) (o := 0) (r := ⟨0, 0, 0, 0, []⟩) (lay := [])
      (p := ⟨0, 0, ⟨0, 0, 0, 0, []⟩, ⟨0, 0, 0, 0⟩⟩)
    obtain ⟨-, hsound⟩ := hnative oneHandler_fresh (by decide +kernel)
    exact hsound (by decide +kernel) rfl (by decide +kernel) rfl rfl rfl (by decide) (by decide) hwrite
  have hsame : [emptyNativeFile, emptyNativeFile] = [emptyNativeFile, []] := by
    rw [← hfiles]
    exact Option.some.inj (filesNext_loaderStart_sharedNumber.symm.trans (congrArg filesNext hload))
  exact absurd hsame (by decide +kernel)

end Sys2Proof.Machine
end

-- Proofs of the family 02_thread_state
section
/-! PROOF. Exceptions: trap entry, nested traps and eret (O32), and the steps TRAP_ENTRY, ASYNC_TRAP and MCHECK (O37). Both statements
rest on one lemma for each way that `takeTrap` can end (the save of q answers, it faults, or a trap is being handled) and on what
`mcheckCtx` and `closedCtx` write. A held chunk's grants are given up first (`dropHeld`), which no context sees. -/

namespace Sys2Proof.Machine

/-! ### Fields of c.status -/

theorem stepOn_withHeld (c : Ctl) (h : Bool) : stepOn (withHeld c h) = stepOn c :=
  (statusWord_fields (plOf c) (pplOf c) (stepOn c) (tsOn c) h).2.2.1

theorem tsOn_withHeld (c : Ctl) (h : Bool) : tsOn (withHeld c h) = tsOn c :=
  (statusWord_fields (plOf c) (pplOf c) (stepOn c) (tsOn c) h).2.2.2.1

theorem plOf_lt (c : Ctl) : plOf c < 4 := by rw [plOf, fld]; omega

/-- R35: what eret sets. -/
theorem withPl_fields (c : Ctl) (pl ppl : Nat) (ts : Bool) :
    plOf (withPl c pl ppl ts) = pl % 4 ∧ pplOf (withPl c pl ppl ts) = ppl % 4 ∧ tsOn (withPl c pl ppl ts) = ts := by
  obtain ⟨hpl, hppl, -, hts, -⟩ := statusWord_fields pl ppl (stepOn c) ts (heldOn c)
  exact ⟨hpl, hppl, hts⟩

/-! ### Operations that are a chunk of their own -/

theorem closedCtx_closed (c : Ctx) (r : Regs) (pc : Word) : Closed c (closedCtx c r pc) pc := ⟨rfl, rfl, rfl, rfl, rfl⟩

theorem closedCtx_status (c : Ctx) (r : Regs) (pc : Word) :
    plOf (closedCtx c r pc).ctl = plOf c.ctl ∧ pplOf (closedCtx c r pc).ctl = pplOf c.ctl
    ∧ stepOn (closedCtx c r pc).ctl = stepOn c.ctl ∧ tsOn (closedCtx c r pc).ctl = tsOn c.ctl :=
  ⟨plOf_withHeld c.ctl false, pplOf_withHeld c.ctl false, stepOn_withHeld c.ctl false, tsOn_withHeld c.ctl false⟩

@[simp] theorem me_dropHeld (s : State) (l : Nat) : me (dropHeld s l) = me s := by
  simp only [me, ctxAt, dropHeld_ctxs, dropHeld_cur]

@[simp] theorem ctxAt_dropHeld (s : State) (l k : Nat) : ctxAt (dropHeld s l) k = ctxAt s k := by
  simp only [ctxAt, dropHeld_ctxs]

theorem me_modMe_dropHeld (s : State) (f : Ctx → Ctx) : me (modMe (dropHeld s s.cur) f) = f (me s) := by
  rw [me_modMe, me_dropHeld]

@[simp] theorem ctxAt_releasePriority (s : State) (l k : Nat) : ctxAt (releasePriority s l) k = ctxAt s k := by
  simp only [ctxAt, releasePriority_ctxs]

/-- R111: giving up grants and changing a context do not meet. -/
theorem reexamine_setCtx (s : State) (k : Nat) (c : Ctx) (a : Nat) : reexamine (setCtx s k c) a = setCtx (reexamine s a) k c := by
  cases h : (tblGet s.arbs a initArb).waiting.isEmpty <;> simp only [reexamine, setCtx_arbs, h] <;> rfl

theorem foldl_reexamine_setCtx (as : List Nat) (s : State) (k : Nat) (c : Ctx) :
    as.foldl reexamine (setCtx s k c) = setCtx (as.foldl reexamine s) k c := by
  induction as generalizing s with
  | nil => rfl
  | cons a as ih => rw [List.foldl_cons, List.foldl_cons, reexamine_setCtx, ih]

theorem releasePriority_setCtx (s : State) (k : Nat) (c : Ctx) (l : Nat) :
    releasePriority (setCtx s k c) l = setCtx (releasePriority s l) k c := by
  unfold releasePriority
  extract_lets one held
  exact foldl_reexamine_setCtx held { s with arbs := tblMap one s.arbs } k c

theorem dropHeld_modMe {s : State} {f : Ctx → Ctx} (hf : (f (me s)).chunk = (me s).chunk) :
    dropHeld (modMe s f) s.cur = modMe (dropHeld s s.cur) f := by
  have hl : modMe s f = setCtx s s.cur (f (me s)) := rfl
  have hr : modMe (dropHeld s s.cur) f = setCtx (dropHeld s s.cur) s.cur (f (me s)) := by
    rw [modMe, modCtx, dropHeld_cur, ctxAt_dropHeld]; rfl
  rw [hl, hr, dropHeld, dropHeld, ctxAt_setCtx, hf, releasePriority_setCtx]
  exact (apply_ite (fun t => setCtx t s.cur (f (me s))) _ _ _).symm

/-! ### Taking an exception -/

/-- R267: what `mcheckCtx` writes. -/
theorem mcheckCtx_took (c : Ctx) {reason detail : Nat} (badva epc : Word) (hr : reason < 256) (hd : detail < 256) :
    TookMcheck c (mcheckCtx c reason detail badva epc) reason detail badva epc := by
  obtain ⟨hpl, hppl, -, hts, -⟩ := statusWord_fields 2 (pplOf c.ctl) (stepOn c.ctl) (tsOn c.ctl) false
  have htval : (BitVec.ofNat 64 (reason % 256 * 256 + detail % 256)).toNat = reason * 256 + detail := by
    rw [BitVec.toNat_ofNat]; omega
  exact { record := rfl, epc := rfl, cause := rfl, badva := rfl, tval := htval, level := hpl,
          from_ := hppl.trans (Nat.mod_eq_of_lt (pplOf_lt _)), ts := hts, others := rfl, regs := rfl, empty := rfl }

/-- R267: a trap while ts is 1. -/
theorem takeTrap_nested {s : State} {l : Nat} (hts : tsOn (ctxAt s l).ctl = true) (x : TrapInfo) (async : Bool) :
    takeTrap s l x async
      = some (setCtx (dropHeld s l) l (mcheckCtx (ctxAt s l) 1 x.cause x.badva (ctxAt s l).regs.pc)) := by
  simp only [takeTrap, hts, if_true]

/-- R267: a trap whose save of q faults at c.tsave. -/
theorem takeTrap_saveFaults {s v : State} {l cause : Nat} (hts : tsOn (ctxAt s l).ctl = false)
    (hf : hwAddr (dropHeld s l) (asidOf (ctxAt s l)) ((ctxAt s l).ctl.tsave &&& ~~~127).toNat true false = .fault cause v)
    (x : TrapInfo) (async : Bool) :
    takeTrap s l x async
      = some (setCtx v l (mcheckCtx (ctxAt s l) 4 x.cause ((ctxAt s l).ctl.tsave &&& ~~~127) (ctxAt s l).regs.pc)) := by
  have hsave : saveQ (dropHeld s l) l = .fault cause v := by
    rw [saveQ, ctxAt_dropHeld, hwWrite, hf]
  simp only [takeTrap, hts, hf, hsave]
  rfl

/-- `takeTrap` with the save of q answered, for a trap of either kind. -/
theorem takeTrap_saved {s t : State} (h : CanTrap s t) (x : TrapInfo) (async : Bool) :
    takeTrap s s.cur x async = some (setCtx t s.cur (trapCtx (me s) x async)) := by
  obtain ⟨-, hts, ⟨pa, u, haddr, hpoison⟩, hsave⟩ := h
  have he : ctxAt s s.cur = me s := rfl
  simp only [takeTrap, he, hts, haddr, hsave, Option.any_some, hpoison]
  rfl

/-- What stands once a trap has been taken from the state `t` in which q is saved. -/
theorem took_setCtx (t : State) (l : Nat) (c : Ctx) (x : TrapInfo) (async : Bool) :
    let u := setCtx t l (trapCtx c x async)
    TookTrap c (ctxAt u l) (x.cause + (if async then 256 else 0)) x.epc x.badva x.tval
      ∧ (∀ k, k ≠ l → ctxAt u k = ctxAt t k) ∧ u = { t with ctxs := u.ctxs } := by
  refine ⟨?_, fun k hk => ctxAt_setCtx_other t _ hk, rfl⟩
  rw [ctxAt_setCtx]
  exact trapCtx_took c x async

/-! ### Trap entry (R39) -/

/-- R5: a word of a record that has been written. -/
theorem memBytes_memPutAll_word (m : List Host.Cell) (a : Nat) (ws : List Word) (h : Memory.wf m = true) {i : Nat}
    (hi : i < ws.length) : memBytes (memPutAll m a (wordsBytes ws)) (a + 8 * i) 8 = wordBytes ws[i] := by
  have hall := memBytes_memPutAll m a (wordsBytes ws) h
  have hcut : wordsBytes ws = wordsBytes (ws.take i) ++ (wordBytes ws[i] ++ wordsBytes (ws.drop (i + 1))) := by
    rw [← wordsBytes_cons, ← List.drop_eq_getElem_cons hi, ← wordsBytes_append, List.take_append_drop]
  have hlen : (wordsBytes ws).length = 8 * i + (8 + 8 * (ws.length - (i + 1))) := by rw [length_wordsBytes]; omega
  rw [hlen, memBytes_add, memBytes_add, hcut] at hall
  rw [hcut]
  have hrest := (List.append_inj hall (by rw [length_memBytes, length_wordsBytes, List.length_take]; omega)).2
  exact (List.append_inj hrest (by rw [length_memBytes, length_wordBytes])).1

theorem leNat_wordBytes (x : Word) : leNat (wordBytes x) = x.toNat := by
  rw [wordBytes, leNat_natBytes]
  exact Nat.mod_eq_of_lt x.isLt

theorem length_qList (r : Regs) : (qList r).length = 16 := by simp [qList]

/-- Where and what the save of q writes. -/
theorem saveQ_mem {s t : State} (h : saveQ s s.cur = .ok () t) :
    ∃ pa u, hwAddr s (asidOf (me s)) ((me s).ctl.tsave &&& ~~~127).toNat true false = .ok pa u
      ∧ t.mem = memPutAll (gather u pa (wordsBytes (qList (me s).regs)).length).mem pa (wordsBytes (qList (me s).regs)) :=
  hwWrite_mem h

theorem trapEntryStoresQ : TrapEntryStoresQ := by
  intro s t v pa i hm haddr hsave
  obtain ⟨pa', u, haddr', hmem⟩ := saveQ_mem hsave
  rw [haddr] at haddr'
  cases haddr'
  have hv : MemOk v := by
    have hok := hwAddr_memOk hm (asidOf (me s)) ((me s).ctl.tsave &&& ~~~127).toNat true false
    rwa [haddr] at hok
  have hi : i.val < (qList (me s).regs).length := by rw [length_qList]; exact i.isLt
  rw [hmem, memBytes_memPutAll_word _ _ _ (gather_wf _ _ _ hv) hi, leNat_wordBytes]
  simp [qList]

/-! ### Traps that are a chunk of their own (R96, R267) -/

/-- R96: the state in which an instruction that is a chunk of its own takes its trap. -/
def ownTrapState (s : State) : State := modMe (dropHeld s s.cur) (fun c => nextChunk c 1)

theorem ownTrapState_cur (s : State) : (ownTrapState s).cur = s.cur := dropHeld_cur s s.cur

theorem me_ownTrapState (s : State) : me (ownTrapState s) = nextChunk (me s) 1 := me_modMe_dropHeld s _

theorem ctxAt_ownTrapState (s : State) : ctxAt (ownTrapState s) s.cur = nextChunk (me s) 1 := by
  rw [← me_ownTrapState, me, ownTrapState_cur]

/-- The chunk that begins with the trap holds no grants. -/
theorem dropHeld_ownTrapState (s : State) : dropHeld (ownTrapState s) s.cur = ownTrapState s := by
  rw [dropHeld, ctxAt_ownTrapState]; rfl

theorem raiseOwn_takes {s u : State} {cause : Nat} {epc badva tval : Word} (he : chunkEmpty (me s) = true)
    (hy : youngTask s s.cur = false)
    (h : takeTrap (ownTrapState s) s.cur { cause := cause, epc := epc, badva := badva, tval := tval } false = some u) :
    raiseOwn s cause epc badva tval = .next u := by
  unfold ownTrapState at h
  rw [raiseOwn, closing_goes _ he hy]
  simp only [h]

theorem onlyMe_setCtx {s t : State} (h : OnlyMe s t) (c : Ctx) : OnlyMe s (setCtx t s.cur c) where
  memory := h.memory
  contexts l hl := (ctxAt_setCtx_other t c hl).trans (h.contexts l hl)
  rest := by rw [h.rest]; rfl

theorem cSys_lt : cSys < 256 := by decide

theorem nestedTraps : NestedTraps := by
  intro s v a cause tsave pc c d he hy
  have hc : ctxAt (ownTrapState s) s.cur = c := ctxAt_ownTrapState s
  have hts : tsOn c.ctl = tsOn (me s).ctl := tsOn_withHeld (me s).ctl false
  refine ⟨fun h => ?_, fun h hfault => ?_⟩
  · refine ⟨_, raiseOwn_takes he hy (takeTrap_nested (by rw [hc, hts, h]) _ _), ?_, ?_⟩
    · rw [dropHeld_ownTrapState]
      have honly := onlyMe_setCtx (onlyMe_modMe (dropHeld s s.cur) (fun c => nextChunk c 1))
      rw [dropHeld_cur] at honly
      exact honly _
    · rw [dropHeld_ownTrapState, me, setCtx_cur, ownTrapState_cur, ctxAt_setCtx, hc]
      exact mcheckCtx_took c _ _ (by decide) cSys_lt
  · have hfault' : hwAddr (dropHeld (ownTrapState s) s.cur) (asidOf (ctxAt (ownTrapState s) s.cur))
        ((ctxAt (ownTrapState s) s.cur).ctl.tsave &&& ~~~127).toNat true false = .fault cause v := by
      rw [dropHeld_ownTrapState, hc]; exact hfault
    refine ⟨_, raiseOwn_takes he hy (takeTrap_saveFaults (by rw [hc, hts, h]) hfault' _ _), ?_⟩
    rw [ctxAt_setCtx, hc]
    exact mcheckCtx_took c _ _ (by decide) cSys_lt

/-! ### The return from an exception (R282, R267) -/

/-- Where an eret executes: at a level that may, with nothing before it in its chunk. -/
structure MayReturn (s : State) : Prop where
  level : isUser (me s) = false
  empty : chunkEmpty (me s) = true
  old : youngTask s s.cur = false

/-- R267: the firmware record that an eret restores: none below firmware level. -/
def recordOf (c : Ctx) : Option FirmwareRecord := if plOf c.ctl == 2 then c.firmware else none

theorem recordOf_none {c : Ctx} (h : ¬ (plOf c.ctl = 2 ∧ c.firmware ≠ none)) : recordOf c = none := by
  unfold recordOf
  split
  · rename_i hpl
    exact not_not.mp fun hf => h ⟨eq_of_beq hpl, hf⟩
  · rfl

theorem recordOf_some {c : Ctx} {f : FirmwareRecord} (hpl : plOf c.ctl = 2) (hf : c.firmware = some f) : recordOf c = some f := by
  rw [recordOf, hpl, hf]; rfl

/-- R282: an eret that restores no firmware record. -/
def eretLevel (s : State) : Res :=
  if tsOn (me s).ctl then
    match hwRead s (asidOf (me s)) ((me s).ctl.tsave &&& ~~~127).toNat 128 false with
    | .retry => stall s .arb
    | .fault _ v => raiseMcheck v 4 0 ((me s).ctl.tsave &&& ~~~127)
    | .ok bs v => .next (modMe (dropHeld v v.cur) (fun c => eretCtx c (some (wordsOf bs))))
  else .next (modMe (dropHeld s s.cur) (fun c => eretCtx c none))

section
variable {s v : State}

theorem eretLevel_plain (hts : tsOn (me s).ctl = false) : eretLevel s = .next (modMe (dropHeld s s.cur) (fun c => eretCtx c none)) := by
  simp only [eretLevel, hts, Bool.false_eq_true, if_false]

theorem eretLevel_reads {bs : List Byte} (hts : tsOn (me s).ctl = true)
    (h : hwRead s (asidOf (me s)) ((me s).ctl.tsave &&& ~~~127).toNat 128 false = .ok bs v) :
    eretLevel s = .next (modMe (dropHeld v v.cur) (fun c => eretCtx c (some (wordsOf bs)))) := by
  simp only [eretLevel, hts, if_true, h]

theorem eretLevel_faults {cause : Nat} (hts : tsOn (me s).ctl = true)
    (h : hwRead s (asidOf (me s)) ((me s).ctl.tsave &&& ~~~127).toNat 128 false = .fault cause v) :
    eretLevel s = raiseMcheck v 4 0 ((me s).ctl.tsave &&& ~~~127) := by
  simp only [eretLevel, hts, if_true, h]

end

theorem exec_eret {s : State} (h : MayReturn s) : exec .eret s =
    match recordOf (me s) with
    | some f => .next (modMe (dropHeld s s.cur) (fun c => eretFirmware c f))
    | none => eretLevel s := by
  obtain ⟨hu, he, hy⟩ := h
  show execEret s = _
  rw [execEret, hu, if_neg (by decide), closing_goes _ he hy]
  rfl

theorem qGet_setPc (r : Regs) (pc : Word) (i : Fin 16) : qGet { r with pc := pc } i = qGet r i := rfl

theorem closedCtx_regs_pc (c : Ctx) (r : Regs) (pc : Word) : (closedCtx c r pc).regs = { r with pc := pc } := rfl

/-- R282: the levels after an eret. -/
theorem eretCtx_levels (c : Ctx) (q : Option (List Word)) :
    plOf (eretCtx c q).ctl = pplOf c.ctl ∧ pplOf (eretCtx c q).ctl = pplOf c.ctl ∧ tsOn (eretCtx c q).ctl = false := by
  obtain ⟨hpl, hppl, hts⟩ := withPl_fields c.ctl (pplOf c.ctl) (pplOf c.ctl) false
  rw [Nat.mod_eq_of_lt (pplOf_lt _)] at hpl hppl
  exact ⟨(plOf_withHeld _ _).trans hpl, (pplOf_withHeld _ _).trans hppl, (tsOn_withHeld _ _).trans hts⟩

theorem eretCtx_closed (c : Ctx) (q : Option (List Word)) : Closed c (eretCtx c q) (c.ctl.epc &&& ~~~3) := ⟨rfl, rfl, rfl, rfl, rfl⟩

theorem eretCtx_regs (c : Ctx) : (eretCtx c none).regs = { c.regs with pc := c.ctl.epc &&& ~~~3 } := rfl

theorem eretCtx_regs_reloaded (c : Ctx) (ws : List Word) :
    (eretCtx c (some ws)).regs = { c.regs with ring := (eretCtx c (some ws)).regs.ring, pc := c.ctl.epc &&& ~~~3 } := by
  rw [eretCtx, closedCtx_regs_pc, qLoad]

theorem qGet_eretCtx (c : Ctx) (ws : List Word) (i : Fin 16) : qGet (eretCtx c (some ws)).regs i = wordAt ws i.val := by
  rw [eretCtx, closedCtx_regs_pc, qGet_setPc, qGet_qLoad]

theorem qGet_eretFirmware (c : Ctx) (f : FirmwareRecord) (i : Fin 16) : qGet (eretFirmware c f).regs i = f.q.get i := by
  rw [eretFirmware, closedCtx_regs_pc, qGet_setPc, qGet_qLoad]

theorem eretFirmware_closed (c : Ctx) (f : FirmwareRecord) : Closed c (eretFirmware c f) f.pc := ⟨rfl, rfl, rfl, rfl, rfl⟩

theorem eretFirmware_status (c : Ctx) (f : FirmwareRecord) :
    plOf (eretFirmware c f).ctl = plOf { c.ctl with status := f.status }
    ∧ tsOn (eretFirmware c f).ctl = tsOn { c.ctl with status := f.status } := by
  obtain ⟨hpl, -, -, hts⟩ := closedCtx_status { c with firmware := none, ctl := { c.ctl with
      status := f.status, epc := f.epc, cause := f.cause, badva := f.badva, tval := f.tval } } (qLoad c.regs (fun i => f.q.get i)) f.pc
  exact ⟨hpl, hts⟩

theorem eretFirmware_regs (c : Ctx) (f : FirmwareRecord) :
    (eretFirmware c f).regs = { c.regs with ring := (eretFirmware c f).regs.ring, pc := f.pc } := by
  rw [eretFirmware, closedCtx_regs_pc, qLoad]

theorem returnFromTrap : ReturnFromTrap := by
  intro s v f bs cause c tsave first top level
  have hret : top → exec .eret s = eretLevel s := fun ⟨hu, ⟨he, hy⟩, hn⟩ => by
    rw [exec_eret ⟨hu, he, hy⟩, recordOf_none hn]
  refine ⟨?_, ?_, ?_, ?_, ?_, ?_⟩
  · exact privileged_of fun h => if_pos h
  · exact fun hu => closesFrom_of (if_neg (by rw [hu]; decide))
  · intro htop hts
    have hme := me_modMe_dropHeld s (fun c => eretCtx c none)
    refine ⟨_, (hret htop).trans (eretLevel_plain hts), onlyMe_modMe _ _, ?_, ?_, ?_⟩
    · rw [hme]; exact eretCtx_closed _ _
    · show plOf _ = _ ∧ pplOf _ = _ ∧ tsOn _ = _
      rw [hme]; exact eretCtx_levels _ _
    · rw [hme]; exact eretCtx_regs _
  · intro htop hts hread hv hcur
    have hme := me_modMe_dropHeld v (fun c => eretCtx c (some (wordsOf bs)))
    rw [hv] at hme
    refine ⟨_, (hret htop).trans (eretLevel_reads hts hread), ?_, ?_, fun i => ?_, ?_⟩
    · rw [hme]; exact eretCtx_closed _ _
    · show plOf _ = _ ∧ pplOf _ = _ ∧ tsOn _ = _
      rw [hme]; exact eretCtx_levels _ _
    · rw [hme]; exact qGet_eretCtx c _ i
    · rw [hme]; exact eretCtx_regs_reloaded c _
  · intro htop hts hread hv hcur
    have hme := me_modMe_dropHeld v (fun c => mcheckCtx c 4 0 tsave c.regs.pc)
    rw [hv] at hme
    refine ⟨_, (hret htop).trans (eretLevel_faults hts hread), ?_⟩
    rw [hme]
    exact mcheckCtx_took c _ _ (by decide) (by decide)
  · intro ⟨he, hy⟩ hpl hf
    have hu : isUser c = false := by rw [isUser, hpl]; rfl
    have hexec : exec .eret s = .next (modMe (dropHeld s s.cur) (fun c => eretFirmware c f)) := by
      rw [exec_eret ⟨hu, he, hy⟩, recordOf_some hpl hf]
    have hme := me_modMe_dropHeld s (fun c => eretFirmware c f)
    refine ⟨_, hexec, onlyMe_modMe _ _, ?_, fun i => ?_, ?_⟩
    · rw [hme]; exact eretFirmware_closed _ _
    · rw [hme]; exact qGet_eretFirmware c f i
    · rw [hme]
      exact ⟨eretFirmware_regs c f, rfl, rfl, rfl, rfl, eretFirmware_status c f⟩

/-- Settles O32: the save writes q at c.tsave, `takeTrap` answers a machine check for a nested trap and for a save that faults, and eret
takes one of three ways. -/
theorem trapEntryAndReturn : Obligations.TrapEntryAndReturn := ⟨trapEntryStoresQ, nestedTraps, returnFromTrap⟩

/-! ### TRAP_ENTRY (R39, R115) -/

theorem exec_trapEntry {s t : State} {x : TrapInfo} (hrun : (me s).run = .committing (.trap x)) (hlive : (me s).chunk.live = false)
    (htail : (me s).tail = none) (h : takeTrap s s.cur x false = some t) : exec .trapEntry s = .next t := by
  show execTrapEntry s = _
  simp only [execTrapEntry, hrun, hlive, htail, h, Bool.false_eq_true, if_false]

/-! ### ASYNC_TRAP (R266) -/

/-- The executing context without its pending trap `p`. -/
def takeOffPending (s : State) (p : Pending) : State := modMe s (fun k => { k with pending := k.pending.erase p })

section
variable {s : State} {p : Pending} (hempty : chunkEmpty (me s) = true) (hway : underWay s s.cur = false)
  (hp : firstPending (me s) = some p)

include hempty hway hp

theorem exec_asyncTrap_mcheck (hcause : p.cause = 0x19) :
    exec .asyncTrap s = .next (modCtx (releasePriority (takeOffPending s p) s.cur) s.cur
      (fun c => mcheckCtx c (fld p.tval 15 8) (fld p.tval 7 0) p.badva c.regs.pc)) := by
  have hcur : (releasePriority (takeOffPending s p) s.cur).cur = s.cur := (releasePriority_spares 0 _ _).cur
  unfold takeOffPending at hcur ⊢
  show execAsyncTrap s = _
  simp only [execAsyncTrap, hempty, hway, nextPending_eq, hp, hcause, Bool.not_true, Bool.or_self, Bool.false_eq_true, if_false]
  rw [modMe, hcur]
  exact if_pos rfl

theorem exec_asyncTrap_takes {t : State} (hcause : p.cause ≠ 0x19)
    (h : takeTrap (takeOffPending s p) s.cur { cause := p.cause, epc := (me s).regs.pc, badva := p.badva, tval := p.tval } true
      = some t) : exec .asyncTrap s = .next t := by
  have hc : ¬ p.cause = cMcheck := hcause
  unfold takeOffPending at h
  show execAsyncTrap s = _
  simp only [execAsyncTrap, hempty, hway, nextPending_eq, hp, Bool.not_true, Bool.or_self, Bool.false_eq_true, if_false, if_neg hc, h]

end

theorem me_takeOffPending (s : State) (p : Pending) :
    me (takeOffPending s p) = { me s with pending := (me s).pending.erase p } := me_modMe s _

theorem QuietBut.trans {l : Nat} {s t u : State} (h : QuietBut l s t) (k : QuietBut l t u) : QuietBut l s u :=
  ⟨k.1.trans h.1, fun n hn => (k.2 n hn).trans (h.2 n hn)⟩

theorem quietBut_takeOffPending (s : State) (p : Pending) : QuietBut s.cur s (takeOffPending s p) :=
  ⟨rfl, fun _ hk => ctxAt_modMe_other s _ hk⟩

/-- A change of context `l` that also gives up the grants of a held chunk changes nothing else of what programs see. -/
theorem quietBut_release (s : State) (l : Nat) (f : Ctx → Ctx) : QuietBut l s (modCtx (releasePriority s l) l f) :=
  ⟨releasePriority_mem s l, fun k hk => (ctxAt_modCtx_other _ f hk).trans (ctxAt_releasePriority s l k)⟩

theorem ctxAt_modCtx_release (s : State) (l : Nat) (f : Ctx → Ctx) : ctxAt (modCtx (releasePriority s l) l f) l = f (ctxAt s l) := by
  rw [ctxAt_modCtx, ctxAt_releasePriority]

/-! ### MCHECK (R267) -/

section
variable {s : State} {loc reason detail : Nat} {badva : Word} (hrun : (ctxAt s loc).run ≠ .dormant)
include hrun

theorem exec_mcheck_enters (hempty : chunkEmpty (ctxAt s loc) = true) (hway : underWay s loc = false)
    (hcommit : ∀ a, (ctxAt s loc).run ≠ .committing a) :
    exec (.mcheck loc reason detail badva) s
      = .next (modCtx (releasePriority s loc) loc (fun c => mcheckCtx c reason detail badva c.regs.pc)) := by
  show execMcheck loc reason detail badva s = _
  rw [execMcheck, if_neg (by simpa using hrun), hempty, hway]
  cases h : (ctxAt s loc).run with
  | committing a => exact absurd h (hcommit a)
  | _ => rfl

theorem exec_mcheck_waits (h : chunkEmpty (ctxAt s loc) = false ∨ underWay s loc = true ∨ ∃ a, (ctxAt s loc).run = .committing a) :
    exec (.mcheck loc reason detail badva) s = .next (modCtx s loc (fun c => { c with
      pending := c.pending ++ [{ cause := cMcheck, badva := badva, tval := faultWord reason detail }] })) := by
  show execMcheck loc reason detail badva s = _
  rw [execMcheck, if_neg (by simpa using hrun)]
  refine if_neg ?_
  rcases h with h | h | ⟨a, h⟩ <;> simp [h]

end

/-- What a trap writes has nothing to do with what is pending. -/
theorem TookTrap.of_pending {c c' : Ctx} {ps : List Pending} {cause : Nat} {epc badva tval : Word}
    (h : TookTrap { c with pending := ps } c' cause epc badva tval) : TookTrap c c' cause epc badva tval :=
  ⟨h.epc, h.cause, h.badva, h.tval, h.level, h.from_, h.ts, h.stepBit, h.others, h.regs, h.empty⟩

theorem TookMcheck.of_pending {c c' : Ctx} {ps : List Pending} {reason detail : Nat} {badva epc : Word}
    (h : TookMcheck { c with pending := ps } c' reason detail badva epc) : TookMcheck c c' reason detail badva epc :=
  ⟨h.record, h.epc, h.cause, h.badva, h.tval, h.level, h.from_, h.ts, h.others, h.regs, h.empty⟩

/-- Settles O37: each step goes to `takeTrap` or to `mcheckCtx` on its straight path. -/
theorem trapSteps : Obligations.TrapSteps := by
  intro s t x p loc reason detail badva c d cut others
  refine ⟨fun hrun hlive htail hcan => ?_, fun hempty hway hp hcause => ?_, fun hway hp hcause hcan => ?_, fun hr hd hdorm => ⟨fun
    hempty hway hcommit => ?_, fun hwait => ?_⟩⟩
  · exact ⟨_, exec_trapEntry hrun hlive htail (takeTrap_saved hcan x false), took_setCtx t s.cur c x false⟩
  · have hctx : ctxAt (takeOffPending s p) s.cur = { c with pending := c.pending.erase p } := me_takeOffPending s p
    refine ⟨_, exec_asyncTrap_mcheck hempty hway hp hcause, (quietBut_takeOffPending s p).trans (quietBut_release _ _ _), ?_, ?_⟩
    · rw [ctxAt_modCtx_release, hctx]; rfl
    · rw [ctxAt_modCtx_release, hctx]
      have hdetail : fld p.tval 7 0 = p.tval.toNat % 256 := by simp [fld]
      rw [hdetail]
      exact (mcheckCtx_took { c with pending := c.pending.erase p } p.badva c.regs.pc (Nat.mod_lt _ (by decide))
        (Nat.mod_lt _ (by decide))).of_pending
  · have hempty : chunkEmpty c = true := by
      have h := hcan.1
      rwa [show me cut = _ from me_takeOffPending s p] at h
    have hsave := takeTrap_saved hcan { cause := p.cause, epc := c.regs.pc, badva := p.badva, tval := p.tval } true
    rw [show me cut = _ from me_takeOffPending s p] at hsave
    obtain ⟨htook, hothers⟩ := took_setCtx t s.cur { c with pending := c.pending.erase p }
      { cause := p.cause, epc := c.regs.pc, badva := p.badva, tval := p.tval } true
    exact ⟨_, exec_asyncTrap_takes hempty hway hp hcause hsave, htook.of_pending, hothers⟩
  · refine ⟨_, exec_mcheck_enters hdorm hempty hway hcommit, quietBut_release s loc _, ?_⟩
    rw [ctxAt_modCtx_release]
    exact mcheckCtx_took d _ _ hr hd
  · refine ⟨_, exec_mcheck_waits hdorm hwait, ⟨rfl, fun k hk => ctxAt_modCtx_other s _ hk⟩, ?_⟩
    rw [ctxAt_modCtx, faultWord, Nat.mod_eq_of_lt hr, Nat.mod_eq_of_lt hd]
    rfl

end Sys2Proof.Machine
end

section
/-! PROOF. The control registers (O33) and the state right after reset (O60). The control registers of a context are one list in the
order of their numbers (`crList`); a write sets one entry of it, the end of the closing operation sets c.status (HELD) and c.icount, and
what stands at every other number is read off the list. -/

namespace Sys2Proof.Machine

/-! ### crd (R34, R36, R283) -/

theorem userReads_eq_false (n : Nat) : userReads n = false ↔ 4 ≤ n ∧ n ≤ 7 := by simp [userReads]

theorem crGet_of_crValues {s : State} {n : Nat} {x : Word} (h : (crValues s)[n]? = some x) : n < 29 ∧ crGet s s.cur n = x := by
  rw [crValues_eq, List.getElem?_map, Option.map_eq_some_iff] at h
  obtain ⟨k, hk, hx⟩ := h
  obtain ⟨hlt, rfl⟩ := List.getElem?_eq_some_iff.mp hk
  rw [List.length_range] at hlt
  rw [List.getElem_range] at hx
  exact ⟨hlt, hx⟩

theorem controlRegisterReads : ControlRegisterReads := by
  intro s r d n hidden
  have hexec : exec (.crd r d) s = if n ≥ 0x1D then raiseIllegal s
      else if isUser (me s) && !userReads n then raisePriv s else finishPush s d (crGet s s.cur n) := rfl
  refine ⟨fun hn => raise_raises (hexec.trans (if_pos hn)), fun ⟨hu, hn⟩ => ?_, fun x hx hvisible => ?_⟩
  · refine raise_raises (hexec.trans ((if_neg (by omega)).trans (if_pos ?_)))
    rw [hu, (userReads_eq_false n).mpr hn]; rfl
  · obtain ⟨hlt, hval⟩ := crGet_of_crValues hx
    refine finishPush_gives (hexec.trans ((if_neg (by omega)).trans (if_neg ?_))) hval
    rw [Bool.and_eq_true, Bool.not_eq_true', userReads_eq_false]
    exact hvisible

/-! ### The control registers of a context by number (R34) -/

/-- R34: the 29 control registers in order, of a context with `c`, its location, its core's generator and the clock. -/
def crList (c : Ctl) (self rng now : Word) : List Word :=
  [c.status, self, c.asid, c.hdr, c.epc, c.cause, c.badva, c.tval, c.trapvec, c.tsave, c.chunklen, c.privbase, c.privlen, c.choice,
   c.choicebase, c.choicelim, c.spoor, c.spoorbase, c.spoorlim, c.frame, c.framelen, c.failvec, c.lineage, c.fpmode, c.fpflags, rng, now,
   c.icount, c.replay]

theorem crValues_eq_crList (s : State) :
    crValues s = crList (me s).ctl (BitVec.ofNat 64 s.cur) (coreAt s (coreOf s.cur)).rng (BitVec.ofNat 64 s.now) := rfl

section
variable (c : Ctl) (self rng now : Word)

/-- A write changes the register whose number it names and no other. -/
theorem crList_crPut (n : Nat) (x : Word) : ∃ y, crList (crPut c n x) self rng now = (crList c self rng now).set n y
    ∨ crList (crPut c n x) self rng now = crList c self rng now := by
  unfold crPut
  split
  case h_27 => exact ⟨0, .inr rfl⟩
  all_goals exact ⟨_, .inl rfl⟩

theorem crList_crPut_other {n m : Nat} (x : Word) (h : m ≠ n) :
    (crList (crPut c n x) self rng now)[m]? = (crList c self rng now)[m]? := by
  obtain ⟨y, hy | hy⟩ := crList_crPut c self rng now n x
  · rw [hy, List.getElem?_set_ne h.symm]
  · rw [hy]

/-- R34: the bits that a write sets, where no clamp stands in between. -/
theorem crList_crPut_same {n : Nat} {m : Word} (x : Word) (h : crMask n = some m) :
    (crList (crPut c n x) self rng now)[n]? = some (x &&& m) := by
  have hall : ∀ y : Word, y &&& 18446744073709551615#64 = y := fun _ => BitVec.and_allOnes
  unfold crMask at h
  split at h
  case h_23 => cases h
  all_goals
    cases h
    simp [crPut, crList, hall]

theorem crMask_named {n : Nat} {m : Word} (h : crMask n = some m) : n ≠ 0 ∧ n ≠ 0x19 ∧ n ≠ 0x1B := by
  refine ⟨?_, ?_, ?_⟩ <;> rintro rfl <;> cases h

/-- What the end of a closing operation changes: c.status (HELD) and c.icount. -/
theorem crList_closedCtx (k : Ctx) (r : Regs) (pc : Word) {m : Nat} (hstatus : m ≠ 0) (hcount : m ≠ 0x1B) :
    (crList (closedCtx k r pc).ctl self rng now)[m]? = (crList k.ctl self rng now)[m]? := by
  have h : crList (closedCtx k r pc).ctl self rng now
      = ((crList k.ctl self rng now).set 0 (closedCtx k r pc).ctl.status).set 0x1B (closedCtx k r pc).ctl.icount := rfl
  rw [h, List.getElem?_set_ne hcount.symm, List.getElem?_set_ne hstatus.symm]

end

/-- R35: a write leaves the level. -/
theorem plOf_crPut (c : Ctl) (n : Nat) (x : Word) : plOf (crPut c n x) = plOf c := by
  unfold crPut
  split
  case h_1 => exact (statusWord_fields _ _ _ _ _).1.trans (Nat.mod_eq_of_lt (plOf_lt c))
  all_goals rfl

/-- R35, R283: what a write of c.status sets. -/
theorem statusWrite_fields (c : Ctl) (x : Word) :
    let d := { c with status := statusWrite c x }
    let p := x.toNat / 4 % 4
    stepOn d = x.getLsbD 4 ∧ tsOn d = x.getLsbD 5 ∧ pplOf d = if p < 2 ∨ (p = 2 ∧ plOf c = 2) then p else pplOf c := by
  intro d p
  have hp : fld x 3 2 = p := rfl
  obtain ⟨-, hppl, hstep, hts, -⟩ := statusWord_fields (plOf c)
    (if (p < 2 || (p == 2 && plOf c == 2)) = true then p else pplOf c) (bit x 4) (bit x 5) (heldOn c)
  refine ⟨hstep, hts, hppl.trans ?_⟩
  have hlt : p < 4 := Nat.mod_lt _ (by decide)
  have hlt' := pplOf_lt c
  simp only [Bool.or_eq_true, decide_eq_true_eq, Bool.and_eq_true, beq_iff_eq]
  split <;> omega

theorem clampChunk_toNat (x : Word) : (clampChunk x).toNat = max 256 (min 8192 (x.toNat % 2 ^ 14)) := by
  have hf : fld x 13 0 = x.toNat % 2 ^ 14 := by simp [fld]
  rw [clampChunk, hf, BitVec.toNat_ofNat]
  split
  · omega
  · split <;> omega

theorem clampFrame_toNat (x : Word) : (clampFrame x).toNat = min 4096 (x.toNat % 2 ^ 13) := by
  have hf : fld x 12 0 = x.toNat % 2 ^ 13 := by simp [fld]
  rw [clampFrame, hf, BitVec.toNat_ofNat]
  omega

/-! ### What a write of a control register leaves (R283) -/

/-- The register `n` has been written, and nothing else of the executing context, and of the other contexts nothing. -/
structure CrWritten (s w : State) (n : Nat) : Prop where
  cur : w.cur = s.cur
  memory : w.mem = s.mem
  contexts : ∀ l, l ≠ s.cur → ctxAt w l = ctxAt s l
  own : me w = { me s with ctl := (me w).ctl }
  others : ∀ m, m ≠ n → (crValues w)[m]? = (crValues s)[m]?
  level : plOf (me w).ctl = plOf (me s).ctl

/-- The state in which the executing context has `x` written to its register `n`. -/
def withCr (s : State) (n : Nat) (x : Word) : State := modMe s (fun c => { c with ctl := crPut c.ctl n x })

theorem me_withCr (s : State) (n : Nat) (x : Word) : me (withCr s n x) = { me s with ctl := crPut (me s).ctl n x } := me_modMe s _

theorem crWritten_withCr (s : State) (n : Nat) (x : Word) : CrWritten s (withCr s n x) n where
  cur := rfl
  memory := rfl
  contexts _ hl := ctxAt_modMe_other s _ hl
  own := by rw [me_withCr]
  others m hm := by
    rw [crValues_eq_crList, me_withCr]
    exact crList_crPut_other _ _ _ _ x hm
  level := by rw [me_withCr]; exact plOf_crPut _ n x

theorem crWritten_setRng (s : State) (x : Word) : CrWritten s (setRng s (coreOf s.cur) x) 0x19 where
  cur := rfl
  memory := rfl
  contexts _ _ := rfl
  own := rfl
  others m hm := by
    have h : crValues (setRng s (coreOf s.cur) x)
        = (crValues s).set 0x19 (coreAt (setRng s (coreOf s.cur) x) (coreOf s.cur)).rng := rfl
    rw [h, List.getElem?_set_ne hm.symm]
  level := rfl

section
variable {s w : State} {n : Nat}

theorem afterClosing_rng (s : State) (r : Regs) (pc : Word) (k : Nat) : (coreAt (afterClosing s r pc) k).rng = (coreAt s k).rng :=
  (dropHeld_spares 0 s s.cur).rng k

theorem crValues_afterClosing (s : State) (r : Regs) (pc : Word) {m : Nat} (hstatus : m ≠ 0) (hcount : m ≠ 0x1B) :
    (crValues (afterClosing s r pc))[m]? = (crValues s)[m]? := by
  have hs := dropHeld_spares 0 s s.cur
  have hcur : (afterClosing s r pc).cur = s.cur := hs.cur
  have hnow : (afterClosing s r pc).now = s.now := hs.now
  rw [crValues_eq_crList, crValues_eq_crList, me_afterClosing, hcur, hnow, afterClosing_rng]
  exact crList_closedCtx _ _ _ _ _ _ hstatus hcount

theorem CrWritten.icount (h : CrWritten s w n) (hn : n ≠ 0x1B) : (me w).ctl.icount = (me s).ctl.icount :=
  Option.some.inj (h.others 0x1B hn.symm)

theorem CrWritten.status (h : CrWritten s w n) (hn : n ≠ 0) : (me w).ctl.status = (me s).ctl.status :=
  Option.some.inj (h.others 0 hn.symm)

/-- R283: `i` writes register `n` and no other but c.icount, as a chunk of its own, and `p` holds afterwards. -/
def WritesCr (i : Instr) (s : State) (n : Nat) (p : State → Prop) : Prop :=
  ∃ u, exec i s = .next u ∧ Keeps s u
    ∧ Closed { me s with ctl := { (me s).ctl with icount := (me u).ctl.icount - 1 } } (me u) ((me s).regs.pc + 4)
    ∧ (me u).regs = { (me s).regs with pc := (me s).regs.pc + 4 }
    ∧ (∀ m, m ≠ n → m ≠ 0x1B → m ≠ 0 → (crValues u)[m]? = (crValues s)[m]?) ∧ plOf (me u).ctl = plOf (me s).ctl
    ∧ (n ≠ 0x1B → (me u).ctl.icount = (me s).ctl.icount + 1)
    ∧ (n ≠ 0 → pplOf (me u).ctl = pplOf (me s).ctl ∧ stepOn (me u).ctl = stepOn (me s).ctl
        ∧ tsOn (me u).ctl = tsOn (me s).ctl)
    ∧ p u

theorem CrWritten.writesCr {i : Instr} {p : State → Prop} (h : CrWritten s w n)
    (hexec : exec i s = .next (afterClosing w (me s).regs ((me s).regs.pc + 4)))
    (hp : p (afterClosing w (me s).regs ((me s).regs.pc + 4))) : WritesCr i s n p := by
  let u := afterClosing w (me s).regs ((me s).regs.pc + 4)
  have hme : me u = closedCtx (me w) (me s).regs ((me s).regs.pc + 4) := me_afterClosing w _ _
  obtain ⟨hpl, hppl, hstep, hts⟩ := closedCtx_status (me w) (me s).regs ((me s).regs.pc + 4)
  have hclosed := closedCtx_closed (me w) (me s).regs ((me s).regs.pc + 4)
  have hcur : u.cur = s.cur := (dropHeld_cur w w.cur).trans h.cur
  rw [← hme] at hpl hppl hstep hts hclosed
  refine ⟨u, hexec, ⟨fun a => ?_, fun l hl => ?_, hcur⟩, ?_, by rw [hme]; rfl, fun m hn hcount hstatus => ?_, hpl.trans h.level,
    fun hn => ?_, fun hn => ?_, hp⟩
  · rw [show u.mem = s.mem from (afterClosing_mem w _ _).trans h.memory]
  · exact (ctxAt_afterClosing w _ _ (by rwa [h.cur])).trans (h.contexts l hl)
  · have hchunk : (me w).chunk = (me s).chunk := by rw [h.own]
    exact ⟨hclosed.pc, (BitVec.sub_add_cancel _ _).symm, hclosed.empty, hclosed.next.trans (by rw [hchunk]), hclosed.ready⟩
  · exact (crValues_afterClosing w _ _ hstatus hcount).trans (h.others m hn)
  · exact hclosed.count.trans (by rw [h.icount hn])
  · have hst := h.status hn
    exact ⟨hppl.trans (by rw [pplOf, pplOf, hst]), hstep.trans (by rw [stepOn, stepOn, hst]), hts.trans (by rw [tsOn, tsOn, hst])⟩

end

/-! ### cwr (R283) -/

/-- R36, log 51: the registers that user code may name in a cwr. -/
def UserMayWrite (n : Nat) : Prop :=
  n = 0x0A ∨ n = 0x0E ∨ n = 0x0F ∨ (0x11 ≤ n ∧ n ≤ 0x15) ∨ n = 0x17 ∨ n = 0x18 ∨ n = 0x01 ∨ n = 0x1A

theorem userMayWrite_iff (n : Nat) : (userWrites n || n == 0x01 || n == 0x1A) = true ↔ UserMayWrite n := by
  simp only [userWrites, UserMayWrite, Bool.or_eq_true, Bool.and_eq_true, beq_iff_eq, decide_eq_true_eq, or_assoc]

/-- What a cwr of register `n` does that is a chunk of its own. -/
def cwrBody (n : Nat) (x : Word) (s : State) : Res :=
  if plOf (me s).ctl != 2 && supIgnored n then finishClosing s (me s).regs
  else if n = 0x19 then finishClosing (setRng s (coreOf s.cur) x) (me s).regs
  else finishClosing (withCr s n x) (me s).regs

section
variable {s : State} {a : Src} {r : BitVec 5}

theorem exec_cwr_illegal (hn : 0x1D ≤ r.toNat) : exec (.cwr a r) s = raiseIllegal s := if_pos hn

theorem exec_cwr_priv (hn : r.toNat < 0x1D) (hu : isUser (me s) = true) (hmay : ¬ UserMayWrite r.toNat) :
    exec (.cwr a r) s = raisePriv s := by
  rw [← userMayWrite_iff, Bool.not_eq_true] at hmay
  show execCwr a r s = _
  simp only [execCwr, if_neg (Nat.not_le.mpr hn), hu, hmay]
  rfl

theorem exec_cwr_closing (hn : r.toNat < 0x1D) (hmay : isUser (me s) = true → UserMayWrite r.toNat) :
    exec (.cwr a r) s = closing s (cwrBody r.toNat (src s a)) := by
  have hpriv : (isUser (me s) && !(userWrites r.toNat || r.toNat == 0x01 || r.toNat == 0x1A)) = false := by
    cases hu : isUser (me s) with
    | false => rfl
    | true => rw [(userMayWrite_iff _).mpr (hmay hu)]; rfl
  show execCwr a r s = _
  simp only [execCwr, if_neg (Nat.not_le.mpr hn), hpriv]
  rfl

end

/-- R34, R36: the registers that a cwr leaves at the level `lvl`. -/
def CwrIgnored (lvl n : Nat) : Prop := n = 0x01 ∨ n = 0x1A ∨ (lvl ≠ 2 ∧ (n = 0x02 ∨ n = 0x03))

theorem supIgnored_iff (n : Nat) : supIgnored n = true ↔ n = 0x01 ∨ n = 0x02 ∨ n = 0x03 ∨ n = 0x1A := by
  simp only [supIgnored, Bool.or_eq_true, beq_iff_eq, or_assoc]

section
variable {s : State} {n : Nat} (x : Word)

theorem cwrBody_writes (hi : ¬ CwrIgnored (plOf (me s).ctl) n) (hn : n ≠ 0x19) : cwrBody n x s
    = .next (afterClosing (withCr s n x) (me s).regs ((me s).regs.pc + 4)) := by
  have h : ¬ (plOf (me s).ctl != 2 && supIgnored n) = true := by
    rw [Bool.and_eq_true, bne_iff_ne, supIgnored_iff]
    unfold CwrIgnored at hi
    omega
  rw [cwrBody, if_neg h, if_neg hn]; rfl

theorem cwrBody_writesRng : cwrBody 0x19 x s
    = .next (afterClosing (setRng s (coreOf s.cur) x) (me s).regs ((me s).regs.pc + 4)) := by
  have h : ¬ (plOf (me s).ctl != 2 && supIgnored 0x19) = true := by rw [Bool.and_eq_true]; exact fun h => absurd h.2 (by decide)
  rw [cwrBody, if_neg h]; rfl

/-- An ignored write leaves the context's registers: it writes nothing, or its own value. -/
theorem cwrBody_ignores (hi : CwrIgnored (plOf (me s).ctl) n) :
    cwrBody n x s = .next (afterClosing s (me s).regs ((me s).regs.pc + 4))
    ∨ cwrBody n x s = .next (afterClosing (modMe s id) (me s).regs ((me s).regs.pc + 4)) := by
  by_cases hpl : plOf (me s).ctl = 2
  · right
    have h : ¬ (plOf (me s).ctl != 2 && supIgnored n) = true := by rw [hpl]; exact Bool.false_ne_true
    rcases hi with rfl | rfl | hn
    · rw [cwrBody, if_neg h]; rfl
    · rw [cwrBody, if_neg h]; rfl
    · exact absurd hpl hn.1
  · left
    have h : (plOf (me s).ctl != 2 && supIgnored n) = true := by
      rw [Bool.and_eq_true, bne_iff_ne, supIgnored_iff]
      unfold CwrIgnored at hi
      omega
    rw [cwrBody, if_pos h]; rfl

end

/-- A closing operation that changes nothing but its own context, and of it only the chunk, the PC and c.icount. -/
theorem completes_of {i : Instr} {s : State} (h : exec i s = .next (afterClosing s (me s).regs ((me s).regs.pc + 4))
    ∨ exec i s = .next (afterClosing (modMe s id) (me s).regs ((me s).regs.pc + 4))) : Completes i s := by
  have hme := me_afterClosing s (me s).regs ((me s).regs.pc + 4)
  have hclosed := closedCtx_closed (me s) (me s).regs ((me s).regs.pc + 4)
  rcases h with h | h
  · exact ⟨_, h, onlyMe_modMe _ _, by rw [hme]; exact hclosed, by rw [hme]; rfl⟩
  · have hme' := me_afterClosing (modMe s id) (me s).regs ((me s).regs.pc + 4)
    rw [me_modMe] at hme'
    have hdrop : dropHeld (modMe s id) (modMe s id).cur = modMe (dropHeld s s.cur) id := dropHeld_modMe rfl
    refine ⟨_, h, ?_, by rw [hme']; exact hclosed, by rw [hme']; rfl⟩
    rw [afterClosing, hdrop]
    exact onlyMe_setCtx (onlyMe_modMe (dropHeld s s.cur) id) _

theorem controlRegisterWrites : ControlRegisterWrites := by
  intro s a r n x lvl i userMay ignored writes
  refine ⟨fun hn => raise_raises (exec_cwr_illegal hn), fun hn hu hmay => raise_raises (exec_cwr_priv hn hu hmay),
    fun hn hmay => closesFrom_of (exec_cwr_closing hn hmay), fun hn hmay he hy => ?_⟩
  have hexec : exec i s = cwrBody n x s := (exec_cwr_closing hn hmay).trans (closing_goes _ he hy)
  have hput : ∀ p : State → Prop, ¬ ignored → n ≠ 0x19 →
      p (afterClosing (withCr s n x) (me s).regs ((me s).regs.pc + 4)) → writes p :=
    fun p hi hrng hp => (crWritten_withCr s n x).writesCr (hexec.trans (cwrBody_writes x hi hrng)) hp
  have hnamed : n = 0x0A ∨ n = 0x14 ∨ n = 0x1B ∨ n = 0 → ¬ ignored := by
    show _ → ¬ CwrIgnored lvl n
    unfold CwrIgnored
    omega
  have hme : me (afterClosing (withCr s n x) (me s).regs ((me s).regs.pc + 4))
      = closedCtx { me s with ctl := crPut (me s).ctl n x } (me s).regs ((me s).regs.pc + 4) := by
    rw [me_afterClosing, me_withCr]
  refine ⟨fun hi => completes_of ?_, fun hi m hm => ?_, fun h => ?_, fun h => ?_, fun h => ?_, fun h => ?_, fun h => ?_⟩
  · rw [hexec]; exact cwrBody_ignores x hi
  · obtain ⟨hstatus, hrng, hcount⟩ := crMask_named hm
    refine hput _ hi hrng ?_
    rw [crValues_afterClosing _ _ _ hstatus hcount, crValues_eq_crList, me_withCr]
    exact crList_crPut_same _ _ _ _ x hm
  · refine hput _ (hnamed (by omega)) (by omega) ?_
    rw [hme, h]; exact clampChunk_toNat x
  · refine hput _ (hnamed (by omega)) (by omega) ?_
    rw [hme, h]; exact clampFrame_toNat x
  · refine hput _ (hnamed (by omega)) (by omega) ?_
    rw [hme, h]; rfl
  · have hw : CrWritten s (setRng s (coreOf s.cur) x) n := h ▸ crWritten_setRng s x
    refine hw.writesCr (hexec.trans (h ▸ cwrBody_writesRng x)) ?_
    show (coreAt _ _).rng = _
    rw [afterClosing_rng, setRng, coreAt_modCore]
  · obtain ⟨-, hppl, hstep, hts⟩ := closedCtx_status { me s with ctl := crPut (me s).ctl n x } (me s).regs ((me s).regs.pc + 4)
    obtain ⟨hstep', hts', hppl'⟩ := statusWrite_fields (me s).ctl x
    refine hput _ (hnamed (by omega)) (by omega) ?_
    rw [hme, hppl, hstep, hts, h]
    exact ⟨hstep', hts', hppl'⟩

/-- Settles O33: crd pushes the value that `crValues` lists, and a cwr that is not ignored sets one entry of `crList`. -/
theorem controlRegisters : Obligations.ControlRegisters := ⟨controlRegisterReads, controlRegisterWrites⟩

/-! ### The state right after reset -/

theorem ctxAt_reset (l : Nat) : ctxAt State.reset l = initCtx := rfl
theorem coreAt_reset (core : Nat) : coreAt State.reset core = initCore core := rfl
theorem dirAt_reset (home region : Nat) : dirAt State.reset home region = initDir := rfl

/-- Settles O60: nothing is listed in the tables of the state after reset, so each unit holds its own reset value. -/
theorem resetValues : Obligations.ResetValues := by
  unfold Obligations.ResetValues
  refine ⟨fun l => ?_, fun core => ?_, fun home region => ?_, rfl, rfl, reset_mem_wf⟩
  · rw [ctxAt_reset]
    exact ⟨rfl, by decide, maskGet_zero _, rfl⟩
  · rw [coreAt_reset]; rfl
  · rw [dirAt_reset]; rfl

end Sys2Proof.Machine
end

section
/-! PROOF. The decoder and the encoder (O55, O56). That a word decodes to the instruction it was made from is proved constructor by
constructor under `Laws.Encoding`. For the other direction `Sound w r` says that whatever the result `r` answers is well-formed and has
the word `w`; there is one rule for each combinator of the decoder and one for each of its shapes, and a page is a list of rules. -/

namespace Sys2Proof

/-! ### A word from its fields (R42) -/

/-- Bits of two fields side by side. -/
theorem extract_eq_append (m n : Nat) {k s : Nat} {w : BitVec k} {x : BitVec m} {y : BitVec n} (hx : w.extractLsb' (s + n) m = x)
    (hy : w.extractLsb' s n = y) : w.extractLsb' s (m + n) = x ++ y := by
  rw [← hx, ← hy]
  exact (BitVec.extractLsb'_append_extractLsb'_eq_extractLsb' rfl).symm

/-- As `extract_eq_append`, for fields that fill the word. -/
theorem append_eq_word {m n : Nat} {w : BitVec (m + n)} {x : BitVec m} {y : BitVec n} (hx : w.extractLsb' n m = x)
    (hy : w.extractLsb' 0 n = y) : x ++ y = w := by
  rw [← hx, ← hy, BitVec.extractLsb'_append_extractLsb'_eq_extractLsb' (Nat.zero_add n).symm, BitVec.extractLsb'_eq_self]

section
variable {w : BitVec 32} {op : BitVec 7} {a b d : BitVec 5}

theorem mkA_eq {x : BitVec 1} {f : BitVec 9} (hop : fOp w = op) (ha : fA w = a) (hb : fB w = b) (hd : fD w = d) (hx : fW w = x)
    (hf : fF9 w = f) : mkA op a b d x f = w :=
  append_eq_word (extract_eq_append _ _ (extract_eq_append _ _ (extract_eq_append _ _ (extract_eq_append _ _ hop ha) hb) hd) hx) hf

theorem mkA3_eq {c f : BitVec 5} (hop : fOp w = op) (ha : fA w = a) (hb : fB w = b) (hd : fD w = d) (hc : fC w = c)
    (hf : fF5 w = f) : mkA3 op a b d c f = w :=
  append_eq_word (extract_eq_append _ _ (extract_eq_append _ _ (extract_eq_append _ _ (extract_eq_append _ _ hop ha) hb) hd) hc) hf

theorem mkI_eq {i : BitVec 15} (hop : fOp w = op) (ha : fA w = a) (hd : fB w = d) (hi : fImm w = i) : mkI op a d i = w :=
  append_eq_word (extract_eq_append _ _ (extract_eq_append _ _ hop ha) hd) hi

theorem mkJ_eq {o : BitVec 25} (hop : fOp w = op) (ho : fOff25 w = o) : mkJ op o = w := append_eq_word hop ho

theorem mkM_eq {z p : BitVec 2} {o : BitVec 11} (hop : fOp w = op) (ha : fA w = a) (hb : fB w = b) (hz : fSize w = z)
    (hp : fSpan w = p) (ho : fOff11 w = o) : mkM op a b z p o = w :=
  append_eq_word (extract_eq_append _ _ (extract_eq_append _ _ (extract_eq_append _ _ (extract_eq_append _ _ hop ha) hb) hz) hp) ho

theorem mkV_eq {m : BitVec 3} {f : BitVec 7} (hop : fOp w = op) (ha : fA w = a) (hb : fB w = b) (hd : fD w = d) (hm : fMask w = m)
    (hf : fF7 w = f) : mkV op a b d m f = w :=
  append_eq_word (extract_eq_append _ _ (extract_eq_append _ _ (extract_eq_append _ _ (extract_eq_append _ _ hop ha) hb) hd) hm) hf

theorem mkVM_eq {m : BitVec 3} {p : BitVec 2} {f : BitVec 5} (hop : fOp w = op) (ha : fA w = a) (hb : fB w = b) (hd : fD w = d)
    (hm : fMask w = m) (hp : fVSpan w = p) (hf : fF5 w = f) : mkVM op a b d m p f = w :=
  append_eq_word
    (extract_eq_append _ _ (extract_eq_append _ _ (extract_eq_append _ _ (extract_eq_append _ _ (extract_eq_append _ _ hop ha) hb) hd) hm) hp) hf

theorem mkS_eq {s : BitVec 10} (hop : fOp w = op) (ha : fA w = a) (hb : fB w = b) (hd : fD w = d) (hs : fSub w = s) :
    mkS op a b d s = w :=
  append_eq_word (extract_eq_append _ _ (extract_eq_append _ _ (extract_eq_append _ _ hop ha) hb) hd) hs

end

/-! ### A code from its operand (R43–R46, R49, R53, R55, R57–R59) -/

theorem eq_srcCode (c : BitVec 5) : c = srcCode (srcOf c) := by revert c; decide
theorem eq_sizeCode (c : BitVec 2) : c = sizeCode (sizeOf c) := by revert c; decide
theorem eq_spanCode (c : BitVec 2) : c = spanCode (spanOf c) := by revert c; decide
theorem eq_precCode (c : BitVec 1) : c = precCode (precOf c) := by revert c; decide
theorem eq_boolCode (c : BitVec 1) : c = boolCode (boolOf c) := by revert c; decide
theorem eq_atyCode (c : BitVec 3) : c = atyCode (atyOf c) := by revert c; decide
theorem eq_etyCode (c : BitVec 5) : c = etyCode (etyOf c) := by revert c; decide
theorem eq_vregCode (c : BitVec 5) : c = vregCode (vregOf c) := by revert c; decide
theorem eq_maskCode (c : BitVec 3) : c = maskCode (maskOf c) := by revert c; decide
theorem eq_destCode (c : BitVec 5) : ∀ d ∈ (destOf c).toOption, c = destCode d := by revert c; decide
theorem eq_extCode (c : BitVec 5) : ∀ x ∈ extOf c, c = extCode x := by revert c; decide
theorem eq_styCode (c : BitVec 4) : ∀ x ∈ styOf c, c = styCode x := by revert c; decide
theorem eq_farCode (c : BitVec 4) : ∀ x ∈ farOf c, c = farCode x := by revert c; decide
theorem eq_amoCode (c : BitVec 4) : ∀ x ∈ amoOf c, c = amoCode x := by revert c; decide
theorem eq_ccCode (c : BitVec 3) : ∀ x ∈ ccOf c, c = ccCode x := by revert c; decide
theorem eq_scanCode (c : BitVec 5) : ∀ x ∈ scanOf c, c = scanCode x := by revert c; decide
theorem eq_cmodeCode (c : BitVec 2) : ∀ x ∈ cmodeOf c, c = cmodeCode x := by revert c; decide
theorem eq_mregCode (c : BitVec 5) : ∀ x ∈ mregOf c, c = mregCode x := by revert c; decide

/-! ### The combinators of the decoder -/

/-- What the result `r` answers is a well-formed instruction with the word `w`. -/
def Sound (w : BitVec 32) (r : Decoded) : Prop := ∀ i, r = .ok i → encode i = w ∧ wellFormed i = true

namespace Sound
variable {w : BitVec 32} {k l : Decoded} {e : DecodeError}

theorem of_ok {i : Instr} (he : encode i = w) (hw : wellFormed i = true) : Sound w (.ok i) := by
  rintro _ ⟨⟩; exact ⟨he, hw⟩

theorem of_error : Sound w (.error e) := by rintro _ ⟨⟩

theorem of_ite {c : Prop} [Decidable c] (hk : c → Sound w k) (hl : ¬ c → Sound w l) : Sound w (if c then k else l) := by
  by_cases h : c
  · rw [if_pos h]; exact hk h
  · rw [if_neg h]; exact hl h

/-- One row of a table: a later row does not need that this one does not apply. -/
theorem of_row {c : Prop} [Decidable c] (hk : c → Sound w k) (hl : Sound w l) : Sound w (if c then k else l) :=
  of_ite hk fun _ => hl

theorem of_need {c : Bool} (hk : c = true → Sound w k) : Sound w (need c e k) := by
  cases c with
  | true => exact hk rfl
  | false => exact of_error

theorem of_needEq {n : Nat} {x y : BitVec n} (hk : x = y → Sound w k) : Sound w (need (x == y) e k) :=
  of_need fun h => hk (eq_of_beq h)

theorem of_zeroA (hk : fA w = 0 → Sound w k) : Sound w (zeroA w k) := of_needEq hk
theorem of_zeroB (hk : fB w = 0 → Sound w k) : Sound w (zeroB w k) := of_needEq hk
theorem of_noD (hk : fD w = 0 → Sound w k) : Sound w (noD w k) := of_needEq hk
theorem of_noW (hk : fW w = 0 → Sound w k) : Sound w (noW w k) := of_needEq hk
theorem of_onlySub (hk : fSub w = 0 → Sound w k) : Sound w (onlySub w k) := of_needEq hk

theorem of_withDest {c : BitVec 5} {f : Dest → Decoded} (hf : ∀ d, c = destCode d → Sound w (f d)) : Sound w (withDest c f) := by
  cases h : destOf c with
  | ok d =>
    rw [withDest, h]
    exact hf d (eq_destCode c d (by rw [h]; rfl))
  | error e => rw [withDest, h]; exact of_error

theorem of_withCode {α : Type} {o : Option α} {f : α → Decoded} (hf : ∀ x ∈ o, Sound w (f x)) : Sound w (withCode o f) := by
  cases o with
  | none => exact of_error
  | some x => exact hf x rfl

/-! ### The shapes of the decoder

Each rule takes the page, then the word and the well-formedness of the shape's instruction, which hold by definition, then the code of the
table's row. -/

section
variable {p : BitVec 7}

theorem of_shABW {g : Src → Src → Dest → Bool → Instr} {f : BitVec 9} (hp : fOp w = p)
    (he : ∀ a b d x, encode (g a b d x) = mkA p (srcCode a) (srcCode b) (destCode d) (boolCode x) f := by intros; rfl)
    (hw : ∀ a b d x, wellFormed (g a b d x) = true := by intros; rfl) (hf : fF9 w = f) : Sound w (shABW w g) :=
  of_withDest fun _ hd => of_ok ((he ..).trans (mkA_eq hp (eq_srcCode _) (eq_srcCode _) hd (eq_boolCode _) hf)) (hw ..)

theorem of_shAB {g : Src → Src → Dest → Instr} {f : BitVec 9} (hp : fOp w = p)
    (he : ∀ a b d, encode (g a b d) = mkA p (srcCode a) (srcCode b) (destCode d) 0 f := by intros; rfl)
    (hw : ∀ a b d, wellFormed (g a b d) = true := by intros; rfl) (hf : fF9 w = f) : Sound w (shAB w g) :=
  of_noW fun hx => of_withDest fun _ hd => of_ok ((he ..).trans (mkA_eq hp (eq_srcCode _) (eq_srcCode _) hd hx hf)) (hw ..)

theorem of_shAW {g : Src → Dest → Bool → Instr} {f : BitVec 9} (hp : fOp w = p)
    (he : ∀ a d x, encode (g a d x) = mkA p (srcCode a) 0 (destCode d) (boolCode x) f := by intros; rfl)
    (hw : ∀ a d x, wellFormed (g a d x) = true := by intros; rfl) (hf : fF9 w = f) : Sound w (shAW w g) :=
  of_zeroB fun hb => of_withDest fun _ hd => of_ok ((he ..).trans (mkA_eq hp (eq_srcCode _) hb hd (eq_boolCode _) hf)) (hw ..)

theorem of_shA {g : Src → Dest → Instr} {f : BitVec 9} (hp : fOp w = p)
    (he : ∀ a d, encode (g a d) = mkA p (srcCode a) 0 (destCode d) 0 f := by intros; rfl)
    (hw : ∀ a d, wellFormed (g a d) = true := by intros; rfl) (hf : fF9 w = f) : Sound w (shA w g) :=
  of_noW fun hx => of_zeroB fun hb => of_withDest fun _ hd =>
    of_ok ((he ..).trans (mkA_eq hp (eq_srcCode _) hb hd hx hf)) (hw ..)

theorem of_shABC {g : Src → Src → Src → Dest → Instr} {f : BitVec 5} (hp : fOp w = p)
    (he : ∀ a b c d, encode (g a b c d) = mkA3 p (srcCode a) (srcCode b) (destCode d) (srcCode c) f := by intros; rfl)
    (hw : ∀ a b c d, wellFormed (g a b c d) = true := by intros; rfl) (hf : fF5 w = f) : Sound w (shABC w g) :=
  of_withDest fun _ hd =>
    of_ok ((he ..).trans (mkA3_eq hp (eq_srcCode _) (eq_srcCode _) hd (eq_srcCode _) hf)) (hw ..)

theorem of_shI {g : Src → Dest → BitVec 15 → Instr}
    (he : ∀ a d i, encode (g a d i) = mkI p (srcCode a) (destCode d) i := by intros; rfl)
    (hw : ∀ a d i, wellFormed (g a d i) = true := by intros; rfl) (hp : fOp w = p) : Sound w (shI w g) :=
  of_withDest fun _ hd => of_ok ((he ..).trans (mkI_eq hp (eq_srcCode _) hd rfl)) (hw ..)

theorem of_shISh {g : Src → Dest → BitVec 6 → Instr}
    (he : ∀ a d n, encode (g a d n) = mkI p (srcCode a) (destCode d) ((0 : BitVec 9) ++ n) := by intros; rfl)
    (hw : ∀ a d n, wellFormed (g a d n) = true := by intros; rfl) (hp : fOp w = p) : Sound w (shISh w g) :=
  of_needEq fun h0 => of_withDest fun _ hd =>
    of_ok ((he ..).trans (mkI_eq hp (eq_srcCode _) hd (extract_eq_append 9 6 h0 rfl))) (hw ..)

theorem of_shBr2 {g : Src → Src → BitVec 15 → Instr}
    (he : ∀ a b o, encode (g a b o) = mkI p (srcCode a) (srcCode b) o := by intros; rfl)
    (hw : ∀ a b o, wellFormed (g a b o) = true := by intros; rfl) (hp : fOp w = p) : Sound w (shBr2 w g) :=
  of_ok ((he ..).trans (mkI_eq hp (eq_srcCode _) (eq_srcCode _) rfl)) (hw ..)

theorem of_shBr1 {g : Src → BitVec 15 → Instr} (he : ∀ a o, encode (g a o) = mkI p (srcCode a) 0 o := by intros; rfl)
    (hw : ∀ a o, wellFormed (g a o) = true := by intros; rfl) (hp : fOp w = p) : Sound w (shBr1 w g) :=
  of_zeroB fun hb => of_ok ((he ..).trans (mkI_eq hp (eq_srcCode _) hb rfl)) (hw ..)

theorem of_shS0 {i : Instr} {f : BitVec 10} (hp : fOp w = p) (he : encode i = mkS p 0 0 0 f := by rfl)
    (hw : wellFormed i = true := by rfl) (hf : fSub w = f) : Sound w (shS0 w i) :=
  of_zeroA fun ha => of_zeroB fun hb => of_noD fun hd => of_ok (he.trans (mkS_eq hp ha hb hd hf)) hw

theorem of_shS1 {g : Src → Instr} {f : BitVec 10} (hp : fOp w = p)
    (he : ∀ a, encode (g a) = mkS p (srcCode a) 0 0 f := by intros; rfl)
    (hw : ∀ a, wellFormed (g a) = true := by intros; rfl) (hf : fSub w = f) : Sound w (shS1 w g) :=
  of_zeroB fun hb => of_noD fun hd => of_ok ((he ..).trans (mkS_eq hp (eq_srcCode _) hb hd hf)) (hw ..)

theorem of_shS2 {g : Src → Src → Instr} {f : BitVec 10} (hp : fOp w = p)
    (he : ∀ a b, encode (g a b) = mkS p (srcCode a) (srcCode b) 0 f := by intros; rfl)
    (hw : ∀ a b, wellFormed (g a b) = true := by intros; rfl) (hf : fSub w = f) : Sound w (shS2 w g) :=
  of_noD fun hd => of_ok ((he ..).trans (mkS_eq hp (eq_srcCode _) (eq_srcCode _) hd hf)) (hw ..)

theorem of_shS1D {g : Src → Dest → Instr} {f : BitVec 10} (hp : fOp w = p)
    (he : ∀ a d, encode (g a d) = mkS p (srcCode a) 0 (destCode d) f := by intros; rfl)
    (hw : ∀ a d, wellFormed (g a d) = true := by intros; rfl) (hf : fSub w = f) : Sound w (shS1D w g) :=
  of_zeroB fun hb => of_withDest fun _ hd => of_ok ((he ..).trans (mkS_eq hp (eq_srcCode _) hb hd hf)) (hw ..)

theorem of_shS2D {g : Src → Src → Dest → Instr} {f : BitVec 10} (hp : fOp w = p)
    (he : ∀ a b d, encode (g a b d) = mkS p (srcCode a) (srcCode b) (destCode d) f := by intros; rfl)
    (hw : ∀ a b d, wellFormed (g a b d) = true := by intros; rfl) (hf : fSub w = f) : Sound w (shS2D w g) :=
  of_withDest fun _ hd => of_ok ((he ..).trans (mkS_eq hp (eq_srcCode _) (eq_srcCode _) hd hf)) (hw ..)

theorem of_shSD {g : Dest → Instr} {f : BitVec 10} (hp : fOp w = p)
    (he : ∀ d, encode (g d) = mkS p 0 0 (destCode d) f := by intros; rfl)
    (hw : ∀ d, wellFormed (g d) = true := by intros; rfl) (hf : fSub w = f) : Sound w (shSD w g) :=
  of_zeroA fun ha => of_zeroB fun hb => of_withDest fun _ hd => of_ok ((he ..).trans (mkS_eq hp ha hb hd hf)) (hw ..)

theorem of_shV3 {g : Fin 32 → Fin 32 → Fin 32 → Fin 8 → ATy → Instr} {f : BitVec 4} (hp : fOp w = p)
    (he : ∀ d a b m t, encode (g d a b m t) = mkV p (vregCode d) (vregCode a) (vregCode b) (maskCode m) (f ++ atyCode t) := by
      intros; rfl)
    (hw : ∀ d a b m t, wellFormed (g d a b m t) = true := by intros; rfl) (hf : vOp w = f) : Sound w (shV3 w g) :=
  of_ok ((he ..).trans (mkV_eq hp (eq_vregCode _) (eq_vregCode _) (eq_vregCode _) (eq_maskCode _)
    (extract_eq_append 4 3 hf (eq_atyCode _)))) (hw ..)

theorem of_shV2 {g : Fin 32 → Fin 32 → Fin 8 → ATy → Instr} {f : BitVec 4} (hp : fOp w = p)
    (he : ∀ d a m t, encode (g d a m t) = mkV p (vregCode d) (vregCode a) 0 (maskCode m) (f ++ atyCode t) := by intros; rfl)
    (hw : ∀ d a m t, wellFormed (g d a m t) = true := by intros; rfl) (hf : vOp w = f) : Sound w (shV2 w g) :=
  of_needEq fun hb => of_ok ((he ..).trans (mkV_eq hp (eq_vregCode _) (eq_vregCode _) hb (eq_maskCode _)
    (extract_eq_append 4 3 hf (eq_atyCode _)))) (hw ..)

theorem of_shV3I {g : Fin 32 → Fin 32 → Fin 32 → Fin 8 → ATy → Instr} {f : BitVec 4} (hp : fOp w = p)
    (he : ∀ d a b m t, encode (g d a b m t) = mkV p (vregCode d) (vregCode a) (vregCode b) (maskCode m) (f ++ atyCode t) := by
      intros; rfl)
    (hw : ∀ d a b m t, wellFormed (g d a b m t) = isInt t := by intros; rfl) (hf : vOp w = f) : Sound w (shV3I w g) :=
  of_need fun ht => of_ok ((he ..).trans (mkV_eq hp (eq_vregCode _) (eq_vregCode _) (eq_vregCode _) (eq_maskCode _)
    (extract_eq_append 4 3 hf (eq_atyCode _)))) ((hw ..).trans ht)

theorem of_fpGuard (hk : fW w = 0 → w.extractLsb' 3 5 = (0 : BitVec 5) → Sound w k) : Sound w (fpGuard w k) :=
  of_noW fun hx => of_needEq fun h0 => hk hx h0

theorem of_shF2 {g : Src → Src → Dest → Prec → Instr} {f : BitVec 3} (hp : fOp w = p) (hx : fW w = 0)
    (h0 : w.extractLsb' 3 5 = (0 : BitVec 5))
    (he : ∀ a b d q, encode (g a b d q) = mkA p (srcCode a) (srcCode b) (destCode d) 0 (precCode q ++ ((0 : BitVec 5) ++ f)) := by
      intros; rfl)
    (hw : ∀ a b d q, wellFormed (g a b d q) = true := by intros; rfl) (hf : w.extractLsb' 0 3 = f) : Sound w (shF2 w g) :=
  of_withDest fun _ hd => of_ok ((he ..).trans (mkA_eq hp (eq_srcCode _) (eq_srcCode _) hd hx
    (extract_eq_append 1 8 (eq_precCode _) (extract_eq_append 5 3 h0 hf)))) (hw ..)

theorem of_shF1 {g : Src → Dest → Prec → Instr} {f : BitVec 3} (hp : fOp w = p) (hx : fW w = 0)
    (h0 : w.extractLsb' 3 5 = (0 : BitVec 5))
    (he : ∀ a d q, encode (g a d q) = mkA p (srcCode a) 0 (destCode d) 0 (precCode q ++ ((0 : BitVec 5) ++ f)) := by intros; rfl)
    (hw : ∀ a d q, wellFormed (g a d q) = true := by intros; rfl) (hf : w.extractLsb' 0 3 = f) : Sound w (shF1 w g) :=
  of_zeroB fun hb => of_withDest fun _ hd => of_ok ((he ..).trans (mkA_eq hp (eq_srcCode _) hb hd hx
    (extract_eq_append 1 8 (eq_precCode _) (extract_eq_append 5 3 h0 hf)))) (hw ..)

theorem of_shVMem {g : Fin 32 → Src → Fin 8 → Span → Size → Instr} {f : BitVec 2} (hp : fOp w = p)
    (h0 : w.extractLsb' 2 1 = (0 : BitVec 1))
    (he : ∀ v b m q z, encode (g v b m q z)
      = mkVM p (vregCode v) (srcCode b) 0 (maskCode m) (spanCode q) (f ++ (0 : BitVec 1) ++ sizeCode z) := by intros; rfl)
    (hw : ∀ v b m q z, wellFormed (g v b m q z) = true := by intros; rfl) (hf : w.extractLsb' 3 2 = f) : Sound w (shVMem w g) :=
  of_needEq fun hd => of_ok ((he ..).trans (mkVM_eq hp (eq_vregCode _) (eq_srcCode _) hd (eq_maskCode _) (eq_spanCode _)
    (extract_eq_append 3 2 (extract_eq_append 2 1 hf h0) (eq_sizeCode _)))) (hw ..)

theorem of_shVMemX {g : Fin 32 → Src → Src → Fin 8 → Span → Size → Instr} {f : BitVec 2} (hp : fOp w = p)
    (h0 : w.extractLsb' 2 1 = (0 : BitVec 1))
    (he : ∀ v b x m q z, encode (g v b x m q z)
      = mkVM p (vregCode v) (srcCode b) (srcCode x) (maskCode m) (spanCode q) (f ++ (0 : BitVec 1) ++ sizeCode z) := by intros; rfl)
    (hw : ∀ v b x m q z, wellFormed (g v b x m q z) = true := by intros; rfl) (hf : w.extractLsb' 3 2 = f) :
    Sound w (shVMemX w g) :=
  of_ok ((he ..).trans (mkVM_eq hp (eq_vregCode _) (eq_srcCode _) (eq_srcCode _) (eq_maskCode _) (eq_spanCode _)
    (extract_eq_append 3 2 (extract_eq_append 2 1 hf h0) (eq_sizeCode _)))) (hw ..)

theorem of_shVMemI {g : Fin 32 → Src → Fin 32 → Fin 8 → Span → Size → Instr} {f : BitVec 2} (hp : fOp w = p)
    (h0 : w.extractLsb' 2 1 = (0 : BitVec 1))
    (he : ∀ v b x m q z, encode (g v b x m q z)
      = mkVM p (vregCode v) (srcCode b) (vregCode x) (maskCode m) (spanCode q) (f ++ (0 : BitVec 1) ++ sizeCode z) := by intros; rfl)
    (hw : ∀ v b x m q z, wellFormed (g v b x m q z) = true := by intros; rfl) (hf : w.extractLsb' 3 2 = f) :
    Sound w (shVMemI w g) :=
  of_ok ((he ..).trans (mkVM_eq hp (eq_vregCode _) (eq_srcCode _) (eq_vregCode _) (eq_maskCode _) (eq_spanCode _)
    (extract_eq_append 3 2 (extract_eq_append 2 1 hf h0) (eq_sizeCode _)))) (hw ..)

end

end Sound

/-! ### The pages (R49–R59): one rule for each row, in the order of the table -/

theorem bit_eq_one : ∀ c : BitVec 1, c ≠ 0 → c = 1 := by decide
theorem bit_eq_zero : ∀ c : BitVec 1, c ≠ 1 → c = 0 := by decide
theorem bits_eq_three : ∀ c : BitVec 2, c ≠ 0 → c ≠ 1 → c ≠ 2 → c = 3 := by decide
theorem sizeOf_ne_d : ∀ c : BitVec 2, (c != 3) = true → (sizeOf c != .d) = true := by decide
theorem spanOf_ne_region : ∀ c : BitVec 2, c ≠ 3 → (spanOf c != .region) = true := by decide

section
variable {w : BitVec 32}

theorem decodeInt_sound (hp : fOp w = 0x01) : Sound w (decodeInt w) :=
  .of_row (fun hf => .of_zeroA fun ha => .of_zeroB fun hb => .of_noD fun hd => .of_noW fun hx =>
      .of_ok (mkA_eq hp ha hb hd hx hf) rfl) <|
  .of_row (.of_shABW hp) <| .of_row (.of_shABW hp) <| .of_row (.of_shABW hp) <| .of_row (.of_shAB hp) <|
  .of_row (.of_shAB hp) <| .of_row (.of_shABW hp) <| .of_row (.of_shABW hp) <| .of_row (.of_shABW hp) <|
  .of_row (.of_shABW hp) <| .of_row (.of_shAB hp) <| .of_row (.of_shAB hp) <| .of_row (.of_shAB hp) <| .of_row (.of_shAB hp) <|
  .of_row (.of_shAB hp) <| .of_row (.of_shABW hp) <| .of_row (.of_shABW hp) <| .of_row (.of_shABW hp) <|
  .of_row (.of_shABW hp) <| .of_row (.of_shABW hp) <| .of_row (.of_shAB hp) <| .of_row (.of_shAB hp) <| .of_row (.of_shAB hp) <|
  .of_row (.of_shAB hp) <| .of_row (.of_shAB hp) <| .of_row (.of_shAB hp) <| .of_row (.of_shAB hp) <| .of_row (.of_shAB hp) <|
  .of_row (.of_shAW hp) <| .of_row (.of_shAW hp) <| .of_row (.of_shAW hp) <| .of_row (.of_shAW hp) <| .of_row (.of_shAW hp) <|
  .of_row (fun hf => .of_noW fun hx => .of_withCode fun x hb => .of_withDest fun _ hd =>
      .of_ok (mkA_eq hp (eq_srcCode _) (eq_extCode _ x hb) hd hx hf) rfl) <|
  .of_row (fun hf => .of_noW fun hx => .of_withCode fun x hb => .of_withDest fun _ hd =>
      .of_ok (mkA_eq hp (eq_srcCode _) (eq_extCode _ x hb) hd hx hf) rfl)
  .of_error

theorem decodeSel_sound (hp : fOp w = 0x02) : Sound w (decodeSel w) :=
  .of_row (.of_shABC hp) <| .of_row (.of_shABC hp) <| .of_row (.of_shABC hp) .of_error

theorem decodeLi_sound (hp : fOp w = 0x0D) : Sound w (decodeLi w) :=
  .of_zeroA fun ha => .of_withDest fun _ hd => .of_ok (mkI_eq hp ha hd rfl) rfl

theorem decodeExt_sound (hp : fOp w = 0x0F) : Sound w (decodeExt w) :=
  .of_needEq fun h0 => .of_withDest fun _ hd =>
    .of_ok (mkI_eq hp (eq_srcCode _) hd (extract_eq_append 9 6 (extract_eq_append 3 6 h0 rfl) rfl)) rfl

theorem decodeSpace_sound (hp : fOp w = 0x10) : Sound w (decodeSpace w) :=
  .of_row (.of_shA hp) <| .of_row (.of_shA hp) <| .of_row (.of_shA hp) <| .of_row (.of_shA hp) <| .of_row (.of_shA hp) <|
  .of_row (.of_shA hp) .of_error

theorem decodeJr_sound (hp : fOp w = 0x2B) : Sound w (decodeJr w) :=
  .of_row (fun hf => .of_noW fun hx => .of_zeroB fun hb => .of_noD fun hd =>
      .of_ok (mkA_eq hp (eq_srcCode _) hb hd hx hf) rfl) <|
  .of_row (fun hf => .of_noW fun hx => .of_zeroB fun hb => .of_noD fun hd =>
      .of_ok (mkA_eq hp (eq_srcCode _) hb hd hx hf) rfl)
  .of_error

theorem decodeLd_sound (hp : fOp w = 0x30) : Sound w (decodeLd w) :=
  .of_withDest fun _ hd => .of_ok (mkM_eq hp (eq_srcCode _) hd (eq_sizeCode _) (eq_spanCode _) rfl) rfl

theorem decodeLz_sound (hp : fOp w = 0x31) : Sound w (decodeLz w) :=
  .of_need fun hz => .of_withDest fun _ hd =>
    .of_ok (mkM_eq hp (eq_srcCode _) hd (eq_sizeCode _) (eq_spanCode _) rfl) (sizeOf_ne_d _ hz)

theorem decodeSt_sound (hp : fOp w = 0x32) : Sound w (decodeSt w) :=
  .of_ite (fun h3 => .of_ok (mkM_eq hp (eq_srcCode _) (eq_srcCode _) (eq_sizeCode _) h3 rfl) rfl) fun h3 =>
    .of_ok (mkM_eq hp (eq_srcCode _) (eq_srcCode _) (eq_sizeCode _) (eq_spanCode _) rfl) (spanOf_ne_region _ h3)

theorem decodeLdp_sound (hp : fOp w = 0x33) : Sound w (decodeLdp w) :=
  .of_needEq fun hz => .of_withDest fun _ hd => .of_ok (mkM_eq hp (eq_srcCode _) hd hz (eq_spanCode _) rfl) rfl

theorem decodeStp_sound (hp : fOp w = 0x34) : Sound w (decodeStp w) :=
  .of_noD fun hd => .of_ok (mkA3_eq hp (eq_srcCode _) (eq_srcCode _) hd (eq_srcCode _) rfl) rfl

theorem decodeRange_sound (hp : fOp w = 0x35) : Sound w (decodeRange w) :=
  .of_needEq fun ho =>
  .of_ite (fun hz => .of_ok (mkM_eq hp (eq_srcCode _) (eq_srcCode _) hz (eq_spanCode _) ho) rfl) fun h0 =>
  .of_needEq fun hs =>
  .of_ite (fun hz => .of_ok (mkM_eq hp (eq_srcCode _) (eq_srcCode _) hz hs ho) rfl) fun h1 =>
  .of_ite (fun hz => .of_ok (mkM_eq hp (eq_srcCode _) (eq_srcCode _) hz hs ho) rfl) fun h2 =>
  .of_ok (mkM_eq hp (eq_srcCode _) (eq_srcCode _) (bits_eq_three _ h0 h1 h2) hs ho) rfl

theorem decodeAmo_sound (hp : fOp w = 0x40) : Sound w (decodeAmo w) :=
  .of_needEq fun h0 => .of_withCode fun o ho => .of_withDest fun _ hd =>
    .of_ok (mkA_eq hp (eq_srcCode _) (eq_srcCode _) hd (eq_boolCode _) (extract_eq_append 5 4 h0 (eq_amoCode _ o ho))) rfl

theorem decodeCas_sound (hp : fOp w = 0x41) : Sound w (decodeCas w) :=
  .of_needEq fun h0 => .of_withDest fun _ hd =>
    .of_ok (mkA3_eq hp (eq_srcCode _) (eq_srcCode _) hd (eq_srcCode _) (extract_eq_append 4 1 h0 (eq_boolCode _))) rfl

theorem decodeAmof_sound (hp : fOp w = 0x42) : Sound w (decodeAmof w) :=
  .of_needEq fun h0 => .of_withCode fun o ho => .of_noD fun hd =>
    .of_ok (mkA_eq hp (eq_srcCode _) (eq_srcCode _) hd (eq_boolCode _) (extract_eq_append 5 4 h0 (eq_farCode _ o ho))) rfl

theorem decodeAmor_sound (hp : fOp w = 0x43) : Sound w (decodeAmor w) :=
  .of_withDest fun _ hd =>
  .of_row (fun h9 =>
    .of_ok (mkA3_eq hp (eq_srcCode _) (eq_srcCode _) hd (eq_srcCode _) (extract_eq_append 1 4 (eq_boolCode _) h9)) rfl) <|
  .of_withCode fun o ho => .of_needEq fun hc =>
    .of_ok (mkA3_eq hp (eq_srcCode _) (eq_srcCode _) hd hc (extract_eq_append 1 4 (eq_boolCode _) (eq_amoCode _ o ho))) rfl

theorem decodeLdacq_sound (hp : fOp w = 0x44) : Sound w (decodeLdacq w) :=
  .of_needEq fun hs => .of_withDest fun _ hd => .of_ok (mkM_eq hp (eq_srcCode _) hd (eq_sizeCode _) hs rfl) rfl

theorem decodeStrel_sound (hp : fOp w = 0x45) : Sound w (decodeStrel w) :=
  .of_needEq fun hs => .of_ok (mkM_eq hp (eq_srcCode _) (eq_srcCode _) (eq_sizeCode _) hs rfl) rfl

theorem decodeFence_sound (hp : fOp w = 0x46) : Sound w (decodeFence w) :=
  .of_row (.of_shS0 hp) <| .of_row (.of_shS0 hp) <| .of_row (.of_shS2 hp) <| .of_row (.of_shS0 hp) .of_error

theorem decodeTile_sound (hp : fOp w = 0x47) : Sound w (decodeTile w) :=
  .of_row (.of_shS1 hp) <| .of_row (.of_shS1 hp) .of_error

theorem decodeFifo_sound (hp : fOp w = 0x48) : Sound w (decodeFifo w) :=
  .of_row (.of_shS2D hp) <| .of_row (.of_shS2D hp) <| .of_row (.of_shS2 hp) <| .of_row (.of_shS2 hp) .of_error

theorem decodeTb_sound (hp : fOp w = 0x49) : Sound w (decodeTb w) :=
  .of_row (.of_shS2 hp) <| .of_row (.of_shS1 hp) <| .of_row (.of_shS2 hp) <| .of_row (.of_shS2 hp) .of_error

theorem decodeEnq_sound (hp : fOp w = 0x52) : Sound w (decodeEnq w) :=
  .of_row (.of_shS1 hp) <| .of_row (.of_shS2 hp) .of_error

theorem decodeDone_sound (hp : fOp w = 0x56) : Sound w (decodeDone w) :=
  .of_row (.of_shS0 hp) <| .of_row (.of_shS1 hp) <| .of_row (.of_shS1 hp) <| .of_row (.of_shS1 hp) .of_error

theorem decodeRread_sound (hp : fOp w = 0x58) : Sound w (decodeRread w) :=
  .of_needEq fun h0 => .of_zeroB fun hb => .of_withDest fun _ hd =>
    .of_ok (mkS_eq hp (eq_srcCode _) hb hd (extract_eq_append 8 2 h0 (eq_sizeCode _))) rfl

theorem decodeBar_sound (hp : fOp w = 0x5A) : Sound w (decodeBar w) :=
  .of_row (.of_shS0 hp) <| .of_row (.of_shS0 hp) .of_error

theorem decodeTry_sound (hp : fOp w = 0x5C) : Sound w (decodeTry w) :=
  .of_row (fun hb => .of_ok (mkI_eq hp (eq_srcCode _) hb rfl) rfl) <|
  .of_row (fun hb => .of_ok (mkI_eq hp (eq_srcCode _) hb rfl) rfl) .of_error

theorem decodeFail_sound (hp : fOp w = 0x5D) : Sound w (decodeFail w) :=
  .of_row (.of_shS0 hp) <| .of_row (.of_shS1 hp) <| .of_row (.of_shSD hp) .of_error

theorem decodeTrail_sound (hp : fOp w = 0x5E) : Sound w (decodeTrail w) :=
  .of_needEq fun h0 => .of_zeroB fun hb => .of_noD fun hd =>
    .of_ok (mkS_eq hp (eq_srcCode _) hb hd (extract_eq_append 8 2 h0 (eq_sizeCode _))) rfl

theorem decodeFp2_sound (hp : fOp w = 0x60) : Sound w (decodeFp2 w) :=
  .of_fpGuard fun hx h0 =>
  .of_row (.of_shF2 hp hx h0) <| .of_row (.of_shF2 hp hx h0) <| .of_row (.of_shF2 hp hx h0) <| .of_row (.of_shF2 hp hx h0) <|
  .of_row (.of_shF2 hp hx h0) <| .of_row (.of_shF2 hp hx h0) .of_error

theorem decodeFp1_sound (hp : fOp w = 0x61) : Sound w (decodeFp1 w) :=
  .of_fpGuard fun hx h0 =>
  .of_row (.of_shF1 hp hx h0) <| .of_row (.of_shF1 hp hx h0) <| .of_row (.of_shF1 hp hx h0) <| .of_row (.of_shF2 hp hx h0) .of_error

theorem decodeFfma_sound (hp : fOp w = 0x62) : Sound w (decodeFfma w) :=
  .of_needEq fun h0 => .of_withDest fun _ hd =>
    .of_ok (mkA3_eq hp (eq_srcCode _) (eq_srcCode _) hd (eq_srcCode _) (extract_eq_append 4 1 h0 (eq_precCode _))) rfl

theorem decodeFcmp_sound (hp : fOp w = 0x63) : Sound w (decodeFcmp w) :=
  .of_fpGuard fun hx h0 =>
  .of_row (.of_shF2 hp hx h0) <| .of_row (.of_shF2 hp hx h0) <| .of_row (.of_shF2 hp hx h0) .of_error

theorem decodeFcvt_sound (hp : fOp w = 0x64) : Sound w (decodeFcvt w) :=
  .of_noW fun hx => .of_needEq fun h8 => .of_zeroB fun hb => .of_withCode fun t ht => .of_withCode fun s hs =>
  .of_need fun hok => .of_withDest fun _ hd =>
    .of_ok (mkA_eq hp (eq_srcCode _) hb hd hx
      (extract_eq_append 5 4 (extract_eq_append 1 4 h8 (eq_styCode _ t ht)) (eq_styCode _ s hs))) hok

theorem decodeMfmt_sound (hp : fOp w = 0x68) : Sound w (decodeMfmt w) :=
  .of_zeroA fun ha => .of_needEq fun hd => .of_need fun hok => .of_ok (mkI_eq hp ha hd rfl) hok

theorem decodeMscl_sound (hp : fOp w = 0x69) : Sound w (decodeMscl w) :=
  .of_needEq fun h0 => .of_zeroB fun hb => .of_noD fun hd =>
    .of_ok (mkS_eq hp (eq_srcCode _) hb hd (extract_eq_append 7 3 h0 (eq_maskCode _))) rfl

theorem decodeVMem_sound (hp : fOp w = 0x70) : Sound w (decodeVMem w) :=
  .of_needEq fun h =>
  .of_ite (.of_shVMem hp h) fun h0 => .of_ite (.of_shVMem hp h) fun h1 => .of_ite (.of_shVMemX hp h) fun h2 =>
  .of_shVMemX hp h (hf := bits_eq_three _ h0 h1 h2)

theorem decodeVGather_sound (hp : fOp w = 0x71) : Sound w (decodeVGather w) :=
  .of_needEq fun h => .of_row (.of_shVMemI hp h) <| .of_row (.of_shVMemI hp h) .of_error

theorem decodeVArith_sound (hp : fOp w = 0x72) : Sound w (decodeVArith w) :=
  .of_row (.of_shV3 hp) <| .of_row (.of_shV3 hp) <| .of_row (.of_shV3 hp) <| .of_row (.of_shV3 hp) <| .of_row (.of_shV3 hp) <|
  .of_row (.of_shV3 hp) <| .of_row (.of_shV2 hp) <| .of_row (.of_shV2 hp) .of_error

theorem decodeVLogic_sound (hp : fOp w = 0x73) : Sound w (decodeVLogic w) :=
  .of_row (.of_shV3I hp) <| .of_row (.of_shV3I hp) <| .of_row (.of_shV3I hp) <| .of_row (.of_shV3I hp) <| .of_row (.of_shV3I hp) <|
  .of_row (.of_shV3I hp) .of_error

theorem decodeVCmp_sound (hp : fOp w = 0x74) : Sound w (decodeVCmp w) :=
  .of_ite (fun h6 => .of_needEq fun h0 => .of_shV3 hp (hf := extract_eq_append 1 3 h6 h0)) fun h6 =>
  .of_withCode fun c hc => .of_withCode fun d hd => .of_need fun hok =>
    .of_ok (mkV_eq hp (eq_mregCode _ d hd) (eq_vregCode _) (eq_vregCode _) (eq_maskCode _)
      (extract_eq_append 4 3 (extract_eq_append 1 3 (bit_eq_zero _ h6) (eq_ccCode _ c hc)) (eq_atyCode _))) hok

theorem decodeVRed_sound (hp : fOp w = 0x75) : Sound w (decodeVRed w) :=
  .of_row (.of_shV2 hp) <| .of_row (.of_shV2 hp) <| .of_row (.of_shV2 hp) <|
  .of_row (fun hf => .of_withCode fun o ho =>
    .of_ok (mkV_eq hp (eq_vregCode _) (eq_vregCode _) (eq_scanCode _ o ho) (eq_maskCode _)
      (extract_eq_append 4 3 hf (eq_atyCode _))) rfl) <|
  .of_row (.of_shV3 hp) <| .of_row (.of_shV2 hp) .of_error

/-- R365: where the low five bits of an element index stand. -/
theorem fD_eq_vIdx (w : BitVec 32) : fD w = (vIdx w).extractLsb' 0 5 := BitVec.extractLsb'_append_eq_right.symm

/-- R365: where the high bit of an element index stands. -/
theorem fMask_eq_vIdx (h0 : w.extractLsb' 8 2 = (0 : BitVec 2)) :
    fMask w = (0 : BitVec 2) ++ ((vIdx w).extractLsb' 5 1 : BitVec 1) :=
  extract_eq_append 2 1 h0 BitVec.extractLsb'_append_eq_left.symm

theorem decodeVMove_sound (hp : fOp w = 0x76) : Sound w (decodeVMove w) :=
  .of_row (fun hf => .of_needEq fun hd =>
    .of_ok (mkV_eq hp (eq_vregCode _) (eq_srcCode _) hd (eq_maskCode _) (extract_eq_append 4 3 hf (eq_atyCode _))) rfl) <|
  .of_row (fun hf => .of_needEq fun h0 => .of_need fun hok => .of_withDest fun _ hd =>
    .of_ok (mkV_eq hp hd (eq_vregCode _) (fD_eq_vIdx w) (fMask_eq_vIdx h0) (extract_eq_append 4 3 hf (eq_atyCode _))) hok) <|
  .of_row (fun hf => .of_needEq fun h0 => .of_need fun hok =>
    .of_ok (mkV_eq hp (eq_vregCode _) (eq_srcCode _) (fD_eq_vIdx w) (fMask_eq_vIdx h0)
      (extract_eq_append 4 3 hf (eq_atyCode _))) hok)
  .of_error

theorem decodeVCvt_sound (hp : fOp w = 0x77) : Sound w (decodeVCvt w) :=
  .of_row (fun hf => .of_need fun hok =>
    .of_ok (mkV_eq hp (eq_vregCode _) (eq_vregCode _) (eq_etyCode _) (eq_maskCode _) (extract_eq_append 2 5 hf (eq_etyCode _))) hok) <|
  .of_row (fun hf => .of_need fun hok =>
    .of_ok (mkV_eq hp (eq_vregCode _) (eq_vregCode _) (eq_etyCode _) (eq_maskCode _) (extract_eq_append 2 5 hf (eq_etyCode _))) hok) <|
  .of_row (fun hf => .of_need fun hok =>
    .of_ok (mkV_eq hp (eq_vregCode _) (eq_vregCode _) (eq_vregCode _) (eq_maskCode _) (extract_eq_append 2 5 hf (eq_etyCode _))) hok)
  .of_error

/-- R369: vhad has no type in func: [6:5] are 3, [4] is its size, and [3:0] are 0. -/
theorem fF7_vhad {c : BitVec 1} (h3 : w.extractLsb' 5 2 = (3 : BitVec 2)) (hc : w.extractLsb' 4 1 = c)
    (h0 : w.extractLsb' 0 4 = (0 : BitVec 4)) : fF7 w = (3 : BitVec 2) ++ (c ++ (0 : BitVec 4)) :=
  extract_eq_append 2 5 h3 (extract_eq_append 1 4 hc h0)

theorem decodeVQuant_sound (hp : fOp w = 0x78) : Sound w (decodeVQuant w) :=
  .of_ite (fun hf => .of_need fun hok =>
    .of_ok (mkV_eq hp (eq_vregCode _) (eq_vregCode _) (eq_etyCode _) (eq_maskCode _) (extract_eq_append 2 5 hf (eq_etyCode _))) hok)
    fun h0 =>
  .of_needEq fun hm =>
  .of_ite (fun hf => .of_need fun hok =>
    .of_ok (mkV_eq hp (eq_vregCode _) (eq_vregCode _) (eq_etyCode _) hm (extract_eq_append 2 5 hf (eq_etyCode _))) hok) fun h1 =>
  .of_ite (fun hf => .of_need fun hok =>
    .of_ok (mkV_eq hp (eq_vregCode _) (eq_vregCode _) (eq_etyCode _) hm (extract_eq_append 2 5 hf (eq_etyCode _))) hok) fun h2 =>
  have h3 := bits_eq_three _ h0 h1 h2
  .of_needEq fun hz =>
  .of_ite (fun hc => .of_need fun hok =>
    .of_ok (mkV_eq hp (eq_vregCode _) (eq_vregCode _) (eq_etyCode _) hm (fF7_vhad h3 hc hz)) hok) fun hc =>
  .of_need fun hok =>
    .of_ok (mkV_eq hp (eq_vregCode _) (eq_vregCode _) (eq_etyCode _) hm (fF7_vhad h3 (bit_eq_one _ hc) hz)) hok

theorem decodeMask_sound (hp : fOp w = 0x79) : Sound w (decodeMask w) :=
  .of_needEq fun hm =>
  .of_row (fun hf => .of_withCode fun d hd => .of_withCode fun a ha => .of_withCode fun b hb =>
    .of_ok (mkV_eq hp (eq_mregCode _ d hd) (eq_mregCode _ a ha) (eq_mregCode _ b hb) hm hf) rfl) <|
  .of_row (fun hf => .of_withCode fun d hd => .of_withCode fun a ha => .of_withCode fun b hb =>
    .of_ok (mkV_eq hp (eq_mregCode _ d hd) (eq_mregCode _ a ha) (eq_mregCode _ b hb) hm hf) rfl) <|
  .of_row (fun hf => .of_needEq fun hb => .of_withCode fun d hd => .of_withCode fun a ha =>
    .of_ok (mkV_eq hp (eq_mregCode _ d hd) (eq_mregCode _ a ha) hb hm hf) rfl) <|
  .of_row (fun hf => .of_needEq fun hb => .of_withCode fun a ha => .of_withDest fun _ hd =>
    .of_ok (mkV_eq hp hd (eq_mregCode _ a ha) hb hm hf) rfl)
  .of_error

theorem decodeSystem_sound (hp : fOp w = 0x7F) : Sound w (decodeSystem w) :=
  .of_row (.of_shS1 hp) <| .of_row (.of_shS0 hp) <|
  .of_row (fun hf => .of_zeroA fun ha => .of_need fun hok => .of_withDest fun _ hd => .of_ok (mkS_eq hp ha rfl hd hf) hok) <|
  .of_row (fun hf => .of_noD fun hd => .of_need fun hok => .of_ok (mkS_eq hp (eq_srcCode _) rfl hd hf) hok) <|
  .of_row (.of_shS0 hp) <| .of_row (.of_shS2 hp) <|
  .of_row (fun h6 => .of_withCode fun m hm => .of_noD fun hd =>
    .of_ok (mkS_eq hp (eq_srcCode _) (eq_srcCode _) hd (extract_eq_append 2 8 (eq_cmodeCode _ m hm) h6)) rfl) <|
  .of_row (.of_shS1 hp) <| .of_row (.of_shS1 hp) <| .of_row (.of_shS1 hp) .of_error

/-- R48: the rows of the opcode map, in the order of the pages. -/
theorem decodeWord_sound (w : BitVec 32) : Sound w (decodeWord w) :=
  .of_row (fun _ => .of_error) <| .of_row decodeInt_sound <| .of_row decodeSel_sound <| .of_row .of_shI <| .of_row .of_shI <|
  .of_row .of_shI <| .of_row .of_shI <| .of_row .of_shISh <| .of_row .of_shISh <| .of_row .of_shISh <| .of_row .of_shI <|
  .of_row .of_shI <| .of_row .of_shI <| .of_row decodeLi_sound <| .of_row .of_shI <| .of_row decodeExt_sound <|
  .of_row decodeSpace_sound <| .of_row (fun hp => .of_ok (mkJ_eq hp rfl) rfl) <|
  .of_row (fun hp => .of_ok (mkJ_eq hp rfl) rfl) <| .of_row .of_shBr2 <| .of_row .of_shBr2 <| .of_row .of_shBr2 <|
  .of_row .of_shBr2 <| .of_row .of_shBr1 <| .of_row .of_shBr1 <| .of_row .of_shBr1 <| .of_row .of_shBr1 <| .of_row .of_shBr2 <|
  .of_row decodeJr_sound <| .of_row decodeLd_sound <| .of_row decodeLz_sound <| .of_row decodeSt_sound <|
  .of_row decodeLdp_sound <| .of_row decodeStp_sound <| .of_row decodeRange_sound <| .of_row decodeAmo_sound <|
  .of_row decodeCas_sound <| .of_row decodeAmof_sound <| .of_row decodeAmor_sound <| .of_row decodeLdacq_sound <|
  .of_row decodeStrel_sound <| .of_row decodeFence_sound <| .of_row decodeTile_sound <| .of_row decodeFifo_sound <|
  .of_row decodeTb_sound <| .of_row (fun hp => .of_onlySub (.of_shS1 hp)) <| .of_row (fun hp => .of_onlySub (.of_shS2 hp)) <|
  .of_row decodeEnq_sound <| .of_row (fun hp => .of_onlySub (.of_shS1D hp)) <| .of_row (fun hp => .of_onlySub (.of_shS0 hp)) <|
  .of_row (fun hp => .of_onlySub (.of_shS2 hp)) <| .of_row decodeDone_sound <| .of_row (fun hp => .of_onlySub (.of_shS0 hp)) <|
  .of_row decodeRread_sound <| .of_row (fun hp => .of_onlySub (.of_shS1 hp)) <| .of_row decodeBar_sound <|
  .of_row (fun hp => .of_onlySub (.of_shS2 hp)) <| .of_row decodeTry_sound <| .of_row decodeFail_sound <|
  .of_row decodeTrail_sound <| .of_row decodeFp2_sound <| .of_row decodeFp1_sound <| .of_row decodeFfma_sound <|
  .of_row decodeFcmp_sound <| .of_row decodeFcvt_sound <| .of_row decodeMfmt_sound <| .of_row decodeMscl_sound <|
  .of_row (fun hp => .of_onlySub (.of_shSD hp)) <| .of_row (fun hp => .of_onlySub (.of_shS1 hp)) <|
  .of_row (fun hp => .of_onlySub (.of_shS2 hp)) <| .of_row decodeVMem_sound <| .of_row decodeVGather_sound <|
  .of_row decodeVArith_sound <| .of_row decodeVLogic_sound <| .of_row decodeVCmp_sound <| .of_row decodeVRed_sound <|
  .of_row decodeVMove_sound <| .of_row decodeVCvt_sound <| .of_row decodeVQuant_sound <| .of_row decodeMask_sound <|
  .of_row (fun _ => .of_error) <| .of_row decodeSystem_sound
  .of_error

end

end Sys2Proof
end

section
/-! PROOF. O55 and O56, from the laws of the constructors and from `decodeWord_sound`. -/

namespace Sys2Proof

/-! ### Encoding, then decoding -/

open Laws.Encoding in
/-- R42–R59: every constructor has its law under `Laws.Encoding`; they stand in the order of the constructors. -/
theorem decodeWord_encode : ∀ i, Statement i :=
  fun i => i.casesOn add sub mul mulh mulhz div divz rem remz andR orR xorR andn orn shl shr sra rol ror minS maxS minz maxz slt
    sltz seqR sne clz ctz popc brev bswap sext zext sel ins lea addi andi ori xori shli shri srai slti sltzi seqi li lcat extI
    space castPg castSl castSx castCl castOff jmp call beq bne blt bge bltz bgez bz bnz jtab jr callr ld lz st stNt ldp stp pref
    flush clean inval amo cas amof amor amorCas ldacqSys strelSys waita give take fwait froom fadv fpub tbinit tbarr tbexp
    tbwait send sendr enq enqt deq jinit doneJ doneT doneF rread launch qmap tryC tryS cut mark trail fadd fsub fmul fdiv fmin
    fmax fsqrt fclass fround fsgn ffma feq flt fle fcvt mfmt mscl mtick mresume accspill vld vst vlds vsts vgather vscatter vadd
    vsub vmul vfma vmin vmax vabs vneg vand vor vxor vshl vshr vsra vcmp vsel vredSum vredMin vredMax vscan vperm vcompress
    vbcast vext vins vcvt vdq vdot vcvtq vcvtqH16 vcvtqH32 vhadH16 vhadH32 mand mor mnot mpop trap crd cwr tinv rmode ctxsave
    ctxload pre mcheck grantRequest commitMessage forwardedW faultResponse getS homeDataArrival writeBack snoop ownerMoveReport
    fillArrival extensionArrival leaseExpiry recallName recallAnswer pageWalk tinvHome rmodeDrain directoryError filterError
    inboundWrite inboundRead atomicopFetchadd atomicopSwap atomicopCas backInvalidate backInvalidateAnswer messagePortWord
    messagePortSend gangGather theft queueMiss mailboxDelivery successorWalk tcbDecrement joinDecrement groupComplete dupCompare
    barrierRelease preemptRequest preemptComplete releaseHeld accWriteback chainHop preEmptionRegister asidInvalidate
    lostEventClear haltCores haltRelease stepCore debugWindowWrite controlSpaceWrite claim heartbeat successor switchImage
    resetPackage powerThrottle systemScopeCompletion nop fenceSys fenceIo cend spawn doneP yieldC bar barb failC eret brk
    trapEntry asyncTrap chunkLengthLimit chunkEnd commitPoint commitComplete heldChunkStart softError watchWake yieldResume
    engineCommit ioCommit cxlCacheSnoop msixSend dispatch queueProbe ringDelivery ringRetry queueStall taskHang mma mmaz mload
    mstore mzero mfence commandComplete pktCopy pktTofifo pktGather pktScatter pktFill pktChain electionClose ownerStale
    recalibrateHome retireDie writeRetiredMask serviceComplete fatalErrorDump sprinnyTranslate loaderStart

/-- R5: a word is that of its four bytes. -/
theorem wordOfBytes_extract (w : BitVec 32) :
    wordOfBytes (w.extractLsb' 0 8) (w.extractLsb' 8 8) (w.extractLsb' 16 8) (w.extractLsb' 24 8) = w :=
  append_eq_word (extract_eq_append 16 8 (extract_eq_append 8 8 rfl rfl) rfl) rfl

theorem decode_encodeBytes (i : Instr) (rest : List Byte) :
    decode (encodeBytes i ++ rest) = (decodeWord (encode i)).map (fun j => (j, rest)) := by
  simp only [encodeBytes, List.cons_append, List.nil_append, decode, wordOfBytes_extract]
  cases decodeWord (encode i) <;> rfl

/-- Settles O55: the four bytes are those of the word, which decodes to the instruction by the law of its constructor. -/
theorem encodeDecodeRoundTrip : Obligations.EncodeDecodeRoundTrip := by
  intro i rest hw hword
  rw [decode_encodeBytes, decodeWord_encode i hw hword]
  rfl

/-! ### Decoding, then encoding -/

/-- R48: no word of page 0x00 is an instruction. -/
theorem decodeWord_zeroPage {w : BitVec 32} (h : fOp w = 0) : decodeWord w = .error .zeroPage := if_pos h

theorem hasWord_of_decodeWord {w : BitVec 32} {i : Instr} (h : decodeWord w = .ok i) (he : encode i = w) : hasWord i = true := by
  rw [hasWord, he, bne_iff_ne]
  intro h0
  rw [decodeWord_zeroPage h0] at h
  cases h

/-- Settles O56: what the decoder answers has the word and is well-formed by `decodeWord_sound`, and its page is not 0x00. -/
theorem oneWordPerInstruction : Obligations.OneWordPerInstruction := by
  intro w i h
  obtain ⟨he, hw⟩ := decodeWord_sound w i h
  exact ⟨he, hw, hasWord_of_decodeWord h he⟩

end Sys2Proof
end

section
/-! PROOF. The matrix-context instructions (O36): each is one of the shared operations, behind the check for an M-die (R56). -/

namespace Sys2Proof.Machine

theorem onMDie_of {s : State} (h : Config.isM (dieOf s.cur) = true) (k : Res) : onMDie s k = k := by rw [onMDie, if_pos h]

theorem onMDie_illegal {i : Instr} {s : State} {k : Res} (h : Config.isM (dieOf s.cur) = false) (hi : exec i s = onMDie s k) :
    Illegal i s := raise_raises (hi.trans (by rw [onMDie, h]; rfl))

theorem keeps_of_homesOnly {s u : State} (h : HomesOnly s u) : Keeps s u :=
  ⟨fun _ => by rw [h.mem], fun _ _ => by rw [ctxAt, ctxAt, h.ctxs], h.cur⟩

theorem Keeps.modMe {s u : State} (h : Keeps s u) (f : Ctx → Ctx) : Keeps s (modMe u f) where
  memory := h.memory
  contexts l hl := (ctxAt_modMe_other u f (h.cur ▸ hl)).trans (h.contexts l hl)
  cur := h.cur

/-- R97: an instruction that takes one deferred-effect entry, in the state `v` that its access has left, and goes on. -/
theorem withEffect_takesEffect {i : Instr} {s v : State} {e : Effect} (hv : HomesOnly s v)
    (hi : exec i s = withEffect s v e (fun s => finish s (me s).regs)) : TakesEffect i s e := by
  intro hroom
  rw [withEffect, hv.me, hroom] at hi
  refine ⟨_, hi.trans rfl, ((keeps_of_homesOnly hv).modMe _).modMe _, ?_, ?_, ?_⟩
  all_goals simp [stepped, hv.me]

theorem effectDone_takesEffect {i : Instr} {s : State} {e : Effect} (hi : exec i s = effectDone s e) : TakesEffect i s e :=
  withEffect_takesEffect (.refl s) hi

theorem withAccess_ok {s v : State} {q : AccReq} {t : Target} (k : Target → State → Res) (h : access s q = .ok t v) :
    withAccess s q k = k t v := by rw [withAccess, h]

/-- The access to the image that accspill restores or saves (R400). -/
def imageReq (va : Word) : AccReq := { storeReq va 16384 with wins := [8], pages := [.hc, .pinned], closes := false }

/-- R400: what accspill does on an M-die, above user level. -/
theorem exec_accspill {s : State} (a b : Src) (hm : Config.isM (dieOf s.cur) = true) (hu : isUser (me s) = false) :
    exec (.accspill a b) s =
      if (src s a).toNat > 15 then raise s cWindow (src s b) 0
      else if src s b = 0 then effectDone s (.accspill (src s a).toNat (src s b))
      else withAccess s (imageReq (src s b)) (fun _ v =>
        withEffect s v (.accspill (src s a).toNat (src s b)) (fun s => finish s (me s).regs)) := by
  refine (onMDie_of hm _).trans ?_
  rw [hu]; rfl

/-- Settles O36: on an S-die each instruction is refused by `onMDie`; on an M-die it is the shared operation that the rule names. -/
theorem matrixContext : Obligations.MatrixContext := by
  intro s v a b d i n t m tile va
  refine ⟨fun j hj hm => ?_, fun hm => ⟨?_, ?_, ?_, fun hp => ?_, fun hp => ?_, ?_, fun hu => ?_⟩⟩
  · simp only [List.mem_cons, List.not_mem_nil, or_false] at hj
    rcases hj with rfl | rfl | rfl | rfl | rfl <;> exact onMDie_illegal hm rfl
  · exact effectDone_takesEffect (onMDie_of hm _)
  · exact effectDone_takesEffect (onMDie_of hm _)
  · exact finishPush_gives (onMDie_of hm _) (BitVec.toNat_setWidth_of_le (by decide))
  · exact effectDone_takesEffect ((onMDie_of hm _).trans (if_pos hp))
  · exact raise_raises ((onMDie_of hm _).trans (if_neg hp))
  · exact privileged_of fun hu => (onMDie_of hm _).trans (if_pos hu)
  · have hexec := exec_accspill a b hm hu
    refine ⟨fun ht => ?_, fun ht h0 => ?_, fun ht h0 hacc => ?_⟩
    · exact raise_raises (hexec.trans (if_pos ht))
    · exact effectDone_takesEffect (hexec.trans ((if_neg (Nat.not_lt.mpr ht)).trans (if_pos h0)))
    · refine withEffect_takesEffect (access_ok hacc) (hexec.trans ?_)
      rw [if_neg (Nat.not_lt.mpr ht), if_neg h0]
      exact withAccess_ok _ hacc

end Sys2Proof.Machine
end

-- Proofs of the family 04_scalar_instructions
section
/-! PROOF. The integer register forms, the three-source forms and the immediate forms (O1–O5). A form with .w is one function that is
defined at every width, applied at the width of the form (`byW_low`), so that each is proved once for both widths. -/

namespace Sys2Proof.Machine

/-! ### The two widths of an integer form (R71) -/

/-- An operand at the width of the form. -/
def low (w : Bool) (x : Word) : BitVec (wid w) := x.setWidth (wid w)

@[simp] theorem low_toNat (w : Bool) (x : Word) : (low w x).toNat = uval w x := by
  cases w <;> simp [low, wid, uval]

@[simp] theorem low_toInt (w : Bool) (x : Word) : (low w x).toInt = sval w x := by
  cases w with
  | false => simp [low, wid, sval]
  | true => exact lo32_toInt x

/-- A function that is defined at every width, applied at the width of the form. -/
theorem byW_low (f : ∀ n, BitVec n → BitVec n → BitVec n) (w : Bool) (x y : Word) :
    (byW w (f 64) (f 32) x y).toInt = (f (wid w) (low w x) (low w y)).toInt := by
  cases w with
  | false => simp [byW, low, wid]
  | true => exact sx32_toInt _

theorem wid_pos (w : Bool) : 0 < wid w := by cases w <;> decide

/-- R74: a count modulo the width depends on the bits that the form reads. -/
theorem uval_mod_wid (w : Bool) (x : Word) : uval w x % wid w = x.toNat % wid w := by
  cases w with
  | false => rfl
  | true => exact Nat.mod_mod_of_dvd _ (by decide)

theorem low_eq_zero (w : Bool) (x : Word) : low w x = 0 ↔ uval w x = 0 := by
  rw [← BitVec.toNat_inj, low_toNat, BitVec.ofNat_eq_ofNat, BitVec.toNat_ofNat, Nat.zero_mod]

theorem sval_eq_zero (w : Bool) (x : Word) : sval w x = 0 ↔ uval w x = 0 := by
  rw [← low_eq_zero, ← low_toInt, ← BitVec.toInt_zero (w := wid w), BitVec.toInt_inj]
  rfl

/-! ### High products (R72) -/

theorem product_bounds (x y : Word) : - 2 ^ 126 ≤ x.toInt * y.toInt ∧ x.toInt * y.toInt ≤ 2 ^ 126 := by
  have hx : |x.toInt| ≤ 2 ^ 63 := abs_le.mpr ⟨x.le_toInt, x.toInt_le.trans (by decide)⟩
  have hy : |y.toInt| ≤ 2 ^ 63 := abs_le.mpr ⟨y.le_toInt, y.toInt_le.trans (by decide)⟩
  rw [← abs_le, abs_mul]
  exact mul_le_mul hx hy (abs_nonneg _) (by decide)

theorem mulHigh_toInt (x y : Word) : (mulHigh x y).toInt = x.toInt * y.toInt / 2 ^ 64 := by
  have hp : (x.signExtend 128 * y.signExtend 128).toInt = x.toInt * y.toInt := by
    rw [BitVec.toInt_mul, BitVec.toInt_signExtend_of_le (by decide), BitVec.toInt_signExtend_of_le (by decide)]
    exact Int.bmod_eq_of_le (by grind [product_bounds x y]) (by grind [product_bounds x y])
  have hb := product_bounds x y
  rw [BitVec.toInt_eq_toNat_bmod] at hp
  simp only [mulHigh, BitVec.toInt_setWidth, BitVec.toNat_ushiftRight, Nat.shiftRight_eq_div_pow]
  generalize (x.signExtend 128 * y.signExtend 128).toNat = v at hp ⊢
  generalize x.toInt * y.toInt = p at hp hb ⊢
  rw [Int.bmod_def] at hp ⊢
  omega

theorem mulHighZ_toNat (x y : Word) : (mulHighZ x y).toNat = x.toNat * y.toNat / 2 ^ 64 := by
  have h : x.toNat * y.toNat < 2 ^ 128 := by
    have := Nat.mul_lt_mul'' x.isLt y.isLt
    simpa [← Nat.pow_add] using this
  simp only [mulHighZ, BitVec.toNat_setWidth, BitVec.toNat_ushiftRight, BitVec.toNat_mul, Nat.shiftRight_eq_div_pow]
  rw [Nat.mod_eq_of_lt (x.isLt.trans (by decide)), Nat.mod_eq_of_lt (y.isLt.trans (by decide)), Nat.mod_eq_of_lt h]
  omega

/-- Settles O1: each form is one function at both widths (`byW_low`), and the high products are exact in 128 bits. -/
theorem integerArithmetic : Obligations.IntegerArithmetic := by
  intro s a b d w
  refine ⟨finishPush_gives rfl ?_, finishPush_gives rfl ?_, finishPush_gives rfl ?_, finishPush_gives rfl (mulHigh_toInt _ _),
    finishPush_gives rfl (mulHighZ_toNat _ _)⟩
  · rw [byW_low (fun _ x y => x + y), BitVec.toInt_add, low_toInt, low_toInt]
  · rw [byW_low (fun _ x y => x - y), BitVec.toInt_sub, low_toInt, low_toInt]
  · rw [byW_low (fun _ x y => x * y), BitVec.toInt_mul, low_toInt, low_toInt]

/-! ### Division (R73) -/

theorem divS_toInt {n : Nat} (hn : 0 < n) (x y : BitVec n) :
    (divS x y).toInt = if y = 0 then -1 else (x.toInt.tdiv y.toInt).bmod (2 ^ n) := by
  unfold divS
  split
  · simp [BitVec.toInt_allOnes, hn]
  · exact BitVec.toInt_sdiv x y

theorem remS_toInt {n : Nat} (x y : BitVec n) : (remS x y).toInt = if y = 0 then x.toInt else x.toInt.tmod y.toInt := by
  unfold remS
  split
  · rfl
  · exact BitVec.toInt_srem x y

theorem divU_toInt {n : Nat} (hn : 0 < n) (x y : BitVec n) :
    (divU x y).toInt = if y = 0 then -1 else ((x.toNat / y.toNat : Nat) : Int).bmod (2 ^ n) := by
  unfold divU
  split
  · simp [BitVec.toInt_allOnes, hn]
  · rw [BitVec.toInt_eq_toNat_bmod, BitVec.toNat_udiv]

theorem remU_toInt {n : Nat} (x y : BitVec n) :
    (remU x y).toInt = ((if y = 0 then x.toNat else x.toNat % y.toNat : Nat) : Int).bmod (2 ^ n) := by
  rw [BitVec.toInt_eq_toNat_bmod]
  unfold remU
  split <;> simp [BitVec.toNat_umod]

/-- Settles O2: at the width of the form, each division is one of the four functions above. -/
theorem divisionTruncates : Obligations.DivisionTruncates := by
  intro s a b d w
  refine ⟨finishPush_gives rfl ?_, finishPush_gives rfl ?_, finishPush_gives rfl ?_, finishPush_gives rfl ?_⟩
  · rw [byW_low @divS, divS_toInt (wid_pos w)]
    simp only [low_eq_zero (w := w), sval_eq_zero, low_toInt]
  · rw [byW_low @remS, remS_toInt]
    simp only [low_eq_zero (w := w), sval_eq_zero, low_toInt]
  · rw [byW_low @divU, divU_toInt (wid_pos w)]
    simp only [low_eq_zero, low_toNat]
  · rw [byW_low @remU, remU_toInt]
    simp only [low_eq_zero, low_toNat]

/-! ### Shifts and rotations (R74) -/

theorem shlN_toInt {n : Nat} (x y : BitVec n) :
    (shlN x y).toInt = ((x.toNat * 2 ^ (y.toNat % n) : Nat) : Int).bmod (2 ^ n) := by
  rw [shlN, BitVec.toInt_eq_toNat_bmod, BitVec.toNat_shiftLeft, Nat.shiftLeft_eq]
  push_cast
  exact Int.emod_bmod ..

theorem shrN_toInt {n : Nat} (x y : BitVec n) :
    (shrN x y).toInt = ((x.toNat / 2 ^ (y.toNat % n) : Nat) : Int).bmod (2 ^ n) := by
  rw [shrN, BitVec.toInt_eq_toNat_bmod, BitVec.toNat_ushiftRight, Nat.shiftRight_eq_div_pow]

theorem sraN_toInt {n : Nat} (x y : BitVec n) : (sraN x y).toInt = x.toInt / 2 ^ (y.toNat % n) := by
  rw [sraN, BitVec.toInt_sshiftRight, Int.shiftRight_eq_div_pow]
  norm_cast

/-- The two parts of a rotation by `j` of `j + k` bits have no bit in common. -/
theorem rotate_parts {x j k : Nat} (h : x < 2 ^ (j + k)) :
    x * 2 ^ j % 2 ^ (j + k) ||| x / 2 ^ k = x * 2 ^ j % 2 ^ (j + k) + x / 2 ^ k := by
  have hk : x / 2 ^ k < 2 ^ j := Nat.div_lt_of_lt_mul (by rwa [← Nat.pow_add, Nat.add_comm k j])
  have hj : x * 2 ^ j % 2 ^ (j + k) = (x % 2 ^ k) <<< j := by
    rw [Nat.pow_add, Nat.mul_comm x, Nat.mul_mod_mul_left, Nat.shiftLeft_eq, Nat.mul_comm]
  rw [hj, Nat.shiftLeft_add_eq_or_of_lt hk]

theorem rotate_bmod (x y m : Nat) : ((x % m + y : Nat) : Int).bmod m = ((x + y : Nat) : Int).bmod m := by
  push_cast
  exact Int.emod_add_bmod ..

theorem rolN_toInt {n : Nat} (hn : 0 < n) (x y : BitVec n) :
    let c := y.toNat % n
    (rolN x y).toInt = ((x.toNat * 2 ^ c + x.toNat / 2 ^ (n - c) : Nat) : Int).bmod (2 ^ n) := by
  intro c
  have hc : c + (n - c) = n := Nat.add_sub_of_le (Nat.mod_lt _ hn).le
  have h := rotate_parts (x := x.toNat) (j := c) (k := n - c) (by rw [hc]; exact x.isLt)
  rw [hc] at h
  rw [rolN, BitVec.toInt_eq_toNat_bmod, BitVec.toNat_rotateLeft, Nat.mod_mod, Nat.shiftLeft_eq, Nat.shiftRight_eq_div_pow, h, rotate_bmod]

theorem rorN_toInt {n : Nat} (hn : 0 < n) (x y : BitVec n) :
    let c := y.toNat % n
    (rorN x y).toInt = ((x.toNat / 2 ^ c + x.toNat * 2 ^ (n - c) : Nat) : Int).bmod (2 ^ n) := by
  intro c
  have hc : n - c + c = n := Nat.sub_add_cancel (Nat.mod_lt _ hn).le
  have h := rotate_parts (x := x.toNat) (j := n - c) (k := c) (by rw [hc]; exact x.isLt)
  rw [hc] at h
  rw [rorN, BitVec.toInt_eq_toNat_bmod, BitVec.toNat_rotateRight, Nat.mod_mod, Nat.shiftLeft_eq, Nat.shiftRight_eq_div_pow,
    Nat.or_comm, h, rotate_bmod, Nat.add_comm]

/-- Settles O3: at the width of the form, each shift and rotation is one of the five functions above. -/
theorem shiftAndRotate : Obligations.ShiftAndRotate := by
  intro s a b d w c x
  have hc : (low w (src s b)).toNat % wid w = c := by rw [low_toNat, uval_mod_wid]
  refine ⟨finishPush_gives rfl ?_, finishPush_gives rfl ?_, finishPush_gives rfl ?_, finishPush_gives rfl ?_, finishPush_gives rfl ?_⟩
  · rw [byW_low @shlN, shlN_toInt, hc, low_toNat]
  · rw [byW_low @shrN, shrN_toInt, hc, low_toNat]
  · rw [byW_low @sraN, sraN_toInt, hc, low_toInt]
  · rw [byW_low @rolN, rolN_toInt (wid_pos w), hc, low_toNat]
  · rw [byW_low @rorN, rorN_toInt (wid_pos w), hc, low_toNat]

/-! ### Two-source forms without a .w form (R72) -/

theorem flag01_toNat (c : Bool) : (flag01 c).toNat = if c = true then 1 else 0 := by cases c <;> rfl

theorem minSg_toInt (x y : Word) : (minSg x y).toInt = min x.toInt y.toInt := by
  simp only [minSg, BitVec.slt_iff_toInt_lt]
  split <;> omega

theorem maxSg_toInt (x y : Word) : (maxSg x y).toInt = max x.toInt y.toInt := by
  simp only [maxSg, BitVec.slt_iff_toInt_lt]
  split <;> omega

theorem minUn_toNat (x y : Word) : (minUn x y).toNat = min x.toNat y.toNat := by
  simp only [minUn, BitVec.ult_iff_lt, BitVec.lt_def]
  split <;> omega

theorem maxUn_toNat (x y : Word) : (maxUn x y).toNat = max x.toNat y.toNat := by
  simp only [maxUn, BitVec.ult_iff_lt, BitVec.lt_def]
  split <;> omega

theorem logicMinMaxCompare : LogicMinMaxCompare := by
  intro s a b d x y
  refine ⟨finishPush_gives rfl fun i => BitVec.getLsbD_and, finishPush_gives rfl fun i => BitVec.getLsbD_or,
    finishPush_gives rfl fun i => BitVec.getLsbD_xor, finishPush_gives rfl fun i hi => ?_, finishPush_gives rfl fun i hi => ?_,
    finishPush_gives rfl (minSg_toInt _ _), finishPush_gives rfl (maxSg_toInt _ _), finishPush_gives rfl (minUn_toNat _ _),
    finishPush_gives rfl (maxUn_toNat _ _), finishPush_gives rfl ?_, finishPush_gives rfl ?_, finishPush_gives rfl ?_,
    finishPush_gives rfl ?_⟩
  · simp [x, y, hi]
  · simp [x, y, hi]
  · simp only [flag01_toNat, BitVec.slt_iff_toInt_lt, x, y]
  · simp only [flag01_toNat, BitVec.ult_iff_lt, BitVec.lt_def, x, y]
  · simp only [flag01_toNat, beq_iff_eq, x, y]
  · simp only [flag01_toNat, bne_iff_ne, ne_eq, ite_not, x, y]

/-! ### Bit functions (R72) -/

/-- `clzN` is the place of the first one bit from the top, or the width. -/
theorem clzN_spec (x : Nat) : ∀ n, clzN x n ≤ n ∧ (∀ j < clzN x n, x.testBit (n - 1 - j) = false)
    ∧ (clzN x n < n → x.testBit (n - 1 - clzN x n) = true)
  | 0 => by simp [clzN]
  | n + 1 => by
    obtain ⟨hle, hzero, hone⟩ := clzN_spec x n
    unfold clzN
    split
    · next h => exact ⟨by omega, by omega, fun _ => by simpa using h⟩
    · next h =>
      refine ⟨by omega, fun j hj => ?_, fun hn => ?_⟩
      · cases j with
        | zero => simpa using h
        | succ j => rw [← hzero j (by omega)]; congr 1; omega
      · rw [← hone (by omega)]; congr 1; omega

/-- `ctzFrom` is the distance of the first one bit from `i` on, or the number of bits looked at. -/
theorem ctzFrom_spec (x : Nat) : ∀ n i, ctzFrom x i n ≤ n ∧ (∀ j < ctzFrom x i n, x.testBit (i + j) = false)
    ∧ (ctzFrom x i n < n → x.testBit (i + ctzFrom x i n) = true)
  | 0, i => by simp [ctzFrom]
  | n + 1, i => by
    obtain ⟨hle, hzero, hone⟩ := ctzFrom_spec x n (i + 1)
    unfold ctzFrom
    split
    · next h => exact ⟨by omega, by omega, fun _ => h⟩
    · next h =>
      refine ⟨by omega, fun j hj => ?_, fun hn => ?_⟩
      · cases j with
        | zero => simpa using h
        | succ j => rw [← hzero j (by omega)]; congr 1; omega
      · rw [← hone (by omega)]; congr 1; omega

theorem popN_eq (x : Nat) : ∀ n, popN x n = ((List.range n).filter (fun i => x.testBit i)).length
  | 0 => rfl
  | n + 1 => by
    rw [popN, popN_eq x n, List.range_succ, List.filter_append, List.length_append, Nat.add_comm]
    congr 1
    cases h : x.testBit n <;> simp [h]

theorem popN_le (x n : Nat) : popN x n ≤ n := by
  rw [popN_eq]
  exact (List.length_filter_le ..).trans (List.length_range ..).le

theorem revN_lt (x n : Nat) : revN x n < 2 ^ n := by
  induction n generalizing x with
  | zero => simp [revN]
  | succ n ih =>
    have := ih (x / 2)
    have : x % 2 * 2 ^ n ≤ 1 * 2 ^ n := Nat.mul_le_mul_right _ (by omega)
    rw [revN, Nat.pow_succ]
    omega

theorem revN_testBit (x : Nat) {n i : Nat} (h : i < n) : (revN x n).testBit i = x.testBit (n - 1 - i) := by
  induction n generalizing x with
  | zero => omega
  | succ n ih =>
    rw [revN, Nat.mul_comm, Nat.testBit_two_pow_mul_add _ (revN_lt _ n)]
    split
    · next hi =>
      rw [ih _ hi, Nat.testBit_div_two]
      congr 1; omega
    · next hi =>
      obtain rfl : i = n := by omega
      simp

theorem leNat_testBit (bs : List Byte) (i : Nat) : (leNat bs).testBit i = (bs[i / 8]?.getD 0).getLsbD (i % 8) := by
  induction bs generalizing i with
  | nil => simp [leNat]
  | cons b bs ih =>
    rw [leNat, Nat.add_comm, show 256 = 2 ^ 8 from rfl, Nat.testBit_two_pow_mul_add _ b.isLt]
    split
    · next h => simp [Nat.div_eq_of_lt h, Nat.mod_eq_of_lt h, BitVec.getLsbD]
    · next h =>
      have hd : i / 8 = (i - 8) / 8 + 1 := by omega
      have hm : i % 8 = (i - 8) % 8 := by omega
      rw [ih, hd, hm, List.getElem?_cons_succ]

theorem natBytes_getElem? (n x : Nat) {k : Nat} (h : k < n) : (natBytes n x)[k]? = some (BitVec.ofNat 8 (x / 256 ^ k)) := by
  induction n generalizing x k with
  | zero => omega
  | succ n ih =>
    cases k with
    | zero => simp [natBytes]
    | succ k => rw [natBytes, List.getElem?_cons_succ, ih _ (by omega), Nat.div_div_eq_div_mul, Nat.pow_succ']

/-- Byte `i / 8` from the bottom was byte `i / 8` from the top. -/
theorem bswapN_testBit (x m : Nat) {i : Nat} (h : i < 8 * m) : (bswapN x (8 * m)).testBit i = x.testBit (8 * m - 8 - i / 8 * 8 + i % 8) := by
  have hk : m - 1 - i / 8 < m := by omega
  have hb : i % 8 < 8 := by omega
  rw [bswapN, leNat_testBit, Nat.mul_div_cancel_left m (by decide), List.getElem?_reverse (by rw [natBytes_length]; omega), natBytes_length,
    natBytes_getElem? _ _ hk, Option.getD_some, BitVec.getLsbD_ofNat, show 256 = 2 ^ 8 from rfl, ← Nat.pow_mul, Nat.testBit_div_two_pow]
  simp only [hb, decide_true, Bool.true_and]
  congr 1; omega

/-- A bit of the operand that the form reads. -/
theorem uval_testBit (w : Bool) (x : Word) {j : Nat} (h : j < wid w) : (uval w x).testBit j = x.getLsbD j := by
  cases w with
  | false => rfl
  | true => exact (Nat.testBit_mod_two_pow _ _ _).trans (by simp [BitVec.getLsbD, show j < 32 from h])

/-- The bits of a result: those of a .w form above bit 31 are its bit 31. -/
theorem unW_getLsbD (w : Bool) (f : Nat → Nat → Nat) (x : Word) {i : Nat} (h : i < 64) :
    (unW w f x).getLsbD i = (f (uval w x) (wid w)).testBit (min i (wid w - 1)) := by
  cases w with
  | false => simp only [unW, uval, wid, Bool.false_eq_true, if_false, BitVec.getLsbD_ofNat, h, decide_true, Bool.true_and,
      show min i (64 - 1) = i by omega]
  | true =>
    simp only [unW, uval, wid, sx32, if_true, BitVec.getLsbD_signExtend, h, decide_true, Bool.true_and, BitVec.getLsbD_ofNat,
      BitVec.msb_eq_getLsbD_last]
    split
    · next hi => rw [show min i (32 - 1) = i by omega]; simp [hi]
    · next hi => rw [show min i (32 - 1) = 31 by omega]; simp

/-- A count up to the width is its own value. -/
theorem unW_toNat (w : Bool) {f : Nat → Nat → Nat} {x : Word} (h : f (uval w x) (wid w) ≤ wid w) :
    (unW w f x).toNat = f (uval w x) (wid w) := by
  cases w with
  | false => exact (BitVec.toNat_ofNat ..).trans (Nat.mod_eq_of_lt (h.trans_lt (by decide)))
  | true =>
    have hn : f (x.toNat % 2 ^ 32) 32 ≤ 32 := h
    have : (BitVec.ofNat 32 (f (x.toNat % 2 ^ 32) 32)).msb = false := by
      rw [BitVec.msb_eq_false_iff_two_mul_lt, BitVec.toNat_ofNat]; omega
    simp only [unW, sx32, if_true, BitVec.signExtend_eq_setWidth_of_msb_false this, BitVec.toNat_setWidth, BitVec.toNat_ofNat, uval, wid]
    omega

theorem signExt_toInt (x : Word) {n : Nat} (h0 : 0 < n) (h : n < 64) : (signExt x n).toInt = (x.toNat : Int).bmod (2 ^ n) := by
  obtain ⟨k, rfl⟩ := Nat.exists_eq_succ_of_ne_zero h0.ne'
  have hp : 2 ^ k ≤ 2 ^ 62 := Nat.pow_le_pow_right (by decide) (by omega)
  have hv : (x.toNat : Int) % (2 ^ (k + 1) : Nat) = (x.toNat % 2 ^ (k + 1) : Nat) := (Int.natCast_emod ..).symm
  have hlt : x.toNat % 2 ^ (k + 1) < 2 ^ (k + 1) := Nat.mod_lt _ (by positivity)
  simp only [signExt, Int.bmod_def, Nat.succ_eq_add_one, Nat.add_sub_cancel, show ¬ k + 1 ≥ 64 by omega, if_false, hv]
  rw [Nat.pow_succ] at hlt ⊢
  generalize x.toNat % (2 ^ k * 2) = v at hlt ⊢
  generalize 2 ^ k = p at hp hlt ⊢
  split <;> simp only [BitVec.toInt_eq_toNat_cond, BitVec.toNat_ofNat] <;> omega

theorem bitFunctions : BitFunctions := by
  intro s a d w z
  dsimp only
  have hz : 0 < extBits z ∧ extBits z < 64 := by cases z <;> decide
  refine ⟨finishPush_gives rfl ?_, finishPush_gives rfl ?_, finishPush_gives rfl ?_, finishPush_gives rfl fun i hi => ?_,
    finishPush_gives rfl fun i hi => ?_, finishPush_gives rfl (signExt_toInt _ hz.1 hz.2), finishPush_gives rfl ?_⟩
  · obtain ⟨hle, hzero, hone⟩ := clzN_spec (uval w (src s a)) (wid w)
    rw [unW_toNat w hle]
    exact ⟨hle, fun j hj => (uval_testBit w (src s a) (by omega)).symm.trans (hzero j hj),
      fun hn => (uval_testBit w (src s a) (by omega)).symm.trans (hone hn)⟩
  · obtain ⟨hle, hzero, hone⟩ := ctzFrom_spec (uval w (src s a)) (wid w) 0
    rw [unW_toNat w hle]
    simp only [Nat.zero_add] at hzero hone
    exact ⟨hle, fun j hj => (uval_testBit w (src s a) (by omega)).symm.trans (hzero j hj),
      fun hn => (uval_testBit w (src s a) hn).symm.trans (hone hn)⟩
  · rw [unW_toNat w (popN_le _ _), popN_eq]
    congr 1
    exact List.filter_congr fun i hi => uval_testBit w (src s a) (List.mem_range.mp hi)
  · have := wid_pos w
    rw [unW_getLsbD w _ _ hi, revN_testBit _ (by omega)]
    exact uval_testBit w (src s a) (by omega)
  · have h8 : wid w = 8 * (wid w / 8) := by cases w <;> rfl
    have := wid_pos w
    rw [unW_getLsbD w _ _ hi, h8, bswapN_testBit _ _ (by omega), ← h8]
    exact uval_testBit w (src s a) (by omega)
  · exact (BitVec.toNat_ofNat ..).trans (Nat.mod_eq_of_lt ((Nat.mod_le ..).trans_lt (BitVec.isLt _)))

/-- Settles O4: the two-source forms at the width of the form, the bit functions by the lemmas on their loops. -/
theorem logicAndBitFunctions : Obligations.LogicAndBitFunctions := ⟨logicMinMaxCompare, bitFunctions⟩

/-! ### Three-source forms (R75) -/

theorem insMask_getLsbD (c : Word) {i : Nat} (h : i < 64) :
    (insMask c).getLsbD i = decide (fld c 11 6 ≤ i ∧ i < fld c 11 6 + (c.toNat % 2 ^ 6 + 1)) := by
  have hl : fld c 5 0 = c.toNat % 2 ^ 6 := by simp [fld]
  rw [insMask, hl, BitVec.getLsbD_shiftLeft, BitVec.getLsbD_ushiftRight, BitVec.getLsbD_allOnes]
  simp only [h, decide_true, Bool.true_and, ← decide_not, ← Bool.decide_and]
  exact decide_eq_decide.mpr (by omega)

theorem insField_getLsbD (a b c : Word) {i : Nat} (h : i < 64) : (insField a b c).getLsbD i =
    if fld c 11 6 ≤ i ∧ i < fld c 11 6 + (c.toNat % 2 ^ 6 + 1) then b.getLsbD (i - fld c 11 6) else a.getLsbD i := by
  rw [insField, BitVec.getLsbD_or, BitVec.getLsbD_and, BitVec.getLsbD_and, BitVec.getLsbD_not, BitVec.getLsbD_shiftLeft,
    insMask_getLsbD c h]
  split
  · next hin => simp only [hin, h, and_self, decide_true, decide_false, Nat.not_lt.mpr hin.1, Bool.not_true, Bool.not_false, Bool.and_true,
      Bool.true_and, Bool.and_false, Bool.false_or]
  · next hout => simp only [hout, h, decide_true, decide_false, Bool.not_false, Bool.and_true, Bool.and_false, Bool.or_false]

theorem threeSourceForms : ThreeSourceForms := by
  intro s a b c d pos len
  refine ⟨finishPush_gives rfl (ite_not ..), finishPush_gives rfl fun i hi => insField_getLsbD _ _ _ hi, finishPush_gives rfl ?_,
    finishAt_goesTo rfl⟩
  rw [BitVec.toNat_add, BitVec.toNat_shiftLeft, Nat.shiftLeft_eq, Nat.add_mod_mod]

/-! ### Immediate forms (R76) -/

theorem imm15_toInt (i : BitVec 15) : (imm15 i).toInt = i.toInt := BitVec.toInt_signExtend_of_le (by decide)

theorem lcat_toNat (x : Word) (i : BitVec 15) : (x <<< 15 ||| i.setWidth 64).toNat = (x.toNat * 2 ^ 15 + i.toNat) % 2 ^ 64 := by
  have hx : x.toNat <<< 15 % 2 ^ 64 = (x.toNat % 2 ^ 49) <<< 15 := by simp only [Nat.shiftLeft_eq]; omega
  have hi := i.isLt
  rw [BitVec.toNat_or, BitVec.toNat_shiftLeft, BitVec.toNat_setWidth, Nat.mod_eq_of_lt (hi.trans (by decide)), hx,
    ← Nat.shiftLeft_add_eq_or_of_lt hi, Nat.shiftLeft_eq]
  omega

theorem immediateForms : ImmediateForms := by
  intro s a d i n p l
  dsimp only
  refine ⟨finishPush_gives rfl ?_, finishPush_gives rfl fun j => BitVec.getLsbD_and, finishPush_gives rfl fun j => BitVec.getLsbD_or,
    finishPush_gives rfl fun j => BitVec.getLsbD_xor, finishPush_gives rfl ?_, finishPush_gives rfl ?_, finishPush_gives rfl ?_,
    finishPush_gives rfl ?_, finishPush_gives rfl ?_, finishPush_gives rfl ?_, finishPush_gives rfl (imm15_toInt i),
    finishPush_gives rfl ?_, finishPush_gives rfl ?_⟩
  · rw [BitVec.toInt_add, imm15_toInt]
  · rw [BitVec.toNat_shiftLeft, Nat.shiftLeft_eq]
  · rw [BitVec.toNat_ushiftRight, Nat.shiftRight_eq_div_pow]
  · rw [BitVec.toInt_sshiftRight, Int.shiftRight_eq_div_pow]
    norm_cast
  · rw [flag01_toNat, ← imm15_toInt]
    simp only [BitVec.slt_iff_toInt_lt]
  · rw [flag01_toNat]
    simp only [BitVec.ult_iff_lt, BitVec.lt_def, imm15]
  · rw [flag01_toNat, ← imm15_toInt]
    simp only [beq_iff_eq, BitVec.toInt_inj]
  · exact lcat_toNat _ i
  · exact (BitVec.toNat_ofNat ..).trans (Nat.mod_eq_of_lt (((Nat.mod_le ..).trans (Nat.div_le_self ..)).trans_lt (BitVec.isLt _)))

/-- Settles O5: `ins` bit by bit by its mask, the immediate forms by their sign-extended immediate. -/
theorem threeSourceAndImmediateForms : Obligations.ThreeSourceAndImmediateForms := ⟨threeSourceForms, immediateForms⟩

end Sys2Proof.Machine
end

section
/-! PROOF. Pointer classes and casts (O6). -/

namespace Sys2Proof.Machine

/-! ### Pointer classes (R78) -/

/-- R78: a "here" pointer with the offset of another core is reserved. -/
theorem here_or_reserved {p q : Prop} [Decidable p] [Decidable q] (z : Nat) :
    (if p then (if q then 2 else 15) else z) = if p ∧ ¬ q then 15 else if p then 2 else z := by
  by_cases p <;> by_cases q <;> simp [*]

/-- R78: the table of classes, row by row. -/
theorem ptrClass_eq (loc : Nat) (a : Word) : ptrClass loc a =
    if fld a 63 56 ≠ 0 then 15
    else if fld a 55 55 = 1 then 8
    else if fld a 51 48 ≠ 0 ∨ 5 ≤ fld a 54 52 then 15
    else if fld a 54 52 = 0 then 0
    else if fld a 54 52 = 1 then 1
    else if fld a 54 52 = 2 then
      (if fld a 32 18 ≠ 0 then 15
       else if fld a 47 36 = 0xFFF ∧ fld a 35 33 ≠ 7 then 15
       else if fld a 47 36 = 0xFFF then 2
       else if fld a 47 33 ≠ loc / 2 ^ 3 then 0x12 else 2)
    else if fld a 54 52 = 3 then
      (if fld a 35 21 ≠ 0 then 15
       else if fld a 47 36 = 0xFFF then 3
       else if fld a 47 36 ≠ loc / 2 ^ 6 then 0x13 else 3)
    else 4 := by
  have hbit : bit a 55 = true ↔ fld a 55 55 = 1 := by
    rw [bit, BitVec.getLsbD, Nat.testBit_eq_decide_div_mod_eq, decide_eq_true_eq]; rfl
  simp only [ptrClass, bne_iff_ne, beq_iff_eq, hbit, Bool.or_eq_true, decide_eq_true_eq, ge_iff_le, coreOf, clusterOf]
  simp only [here_or_reserved]
  rfl

/-- The classes that there are. -/
theorem ptrClass_mem (loc : Nat) (a : Word) : ptrClass loc a ∈ [0, 1, 2, 3, 4, 8, 15, 0x12, 0x13] := by
  have either {c : Prop} [Decidable c] {l : List Nat} {x y : Nat} (hx : x ∈ l) (hy : y ∈ l) : (if c then x else y) ∈ l := by
    split <;> assumption
  rw [ptrClass_eq]
  repeat' apply either
  all_goals decide

theorem pointerClass : PointerClass := by
  intro s a d
  refine finishPush_gives rfl ?_
  have hlt : ptrClass s.cur (src s a) < 2 ^ 64 := by
    have : ∀ c ∈ [0, 1, 2, 3, 4, 8, 15, 0x12, 0x13], c < 2 ^ 64 := by decide
    exact this _ (ptrClass_mem _ _)
  exact (BitVec.toNat_ofNat ..).trans ((Nat.mod_eq_of_lt hlt).trans (ptrClass_eq _ _))

/-! ### Casts (R79) -/

/-- A cast that forms a pointer pushes it. -/
theorem castPush_gives {i : Instr} {s : State} {a : Src} {d : Dest} {func : Nat} {y : Option Word} {x : Word} {p : Word → Prop}
    (h : exec i s = castPush s a d func y) (hy : y = some x) (hp : p x) : Gives i s d p := by
  subst hy; exact finishPush_gives h hp

/-- A cast that forms none raises WINDOW. -/
theorem castPush_window {i : Instr} {s : State} {a : Src} {d : Dest} {func : Nat} {y : Option Word}
    (h : exec i s = castPush s a d func y) (hy : y = none) : RaisesTrap i s cWindow (src s a) (BitVec.ofNat 64 func) := by
  subst hy; exact raise_raises h

/-- R79: the offset of `bits` bits in a plain offset or in an own pointer to the window `win`, below `size`. -/
def ownOffset (loc bits win size : Nat) (x : Word) : Option Nat :=
  if x.toNat < 2 ^ bits ∨ ptrClass loc x = win then (if x.toNat % 2 ^ bits < size then some (x.toNat % 2 ^ bits) else none) else none

theorem ownOffset_lt {loc bits win size o : Nat} {x : Word} (h : ownOffset loc bits win size x = some o) : o < 2 ^ bits := by
  unfold ownOffset at h
  split at h
  · split at h
    · cases h; exact Nat.mod_lt _ (by positivity)
    · cases h
  · cases h

/-- The shape that `scratchOff` and `clusterOff` share. -/
theorem ownOffset_of {loc bits win size high low' : Nat} {x : Word} (hhigh : high = 0 ↔ x.toNat < 2 ^ bits)
    (hlow : low' = x.toNat % 2 ^ bits) :
    Option.bind (if high == 0 then some x.toNat else if ptrClass loc x == win then some low' else none)
      (fun y => if y < size then some y else none) = ownOffset loc bits win size x := by
  subst hlow
  unfold ownOffset
  by_cases hp : x.toNat < 2 ^ bits
  · simp [hhigh.mpr hp, hp, Nat.mod_eq_of_lt hp]
  · by_cases hw : ptrClass loc x = win
    · simp [hw, mt hhigh.mp hp]
    · simp [hw, hp, mt hhigh.mp hp]

theorem scratchOff_eq (loc : Nat) (x : Word) : scratchOff loc x = ownOffset loc 18 2 (Config.scratchSize (dieOf loc)) x :=
  ownOffset_of (by have := x.isLt; simp only [fld]; omega) (by simp [fld])

theorem clusterOff_eq (loc : Nat) (x : Word) : clusterOff loc x = ownOffset loc 21 3 (Config.clusterSize (dieOf loc)) x :=
  ownOffset_of (by have := x.isLt; simp only [fld]; omega) (by simp [fld])

/-- An offset below the lowest bit of a window's base is added to it. -/
theorem base_or_offset (base : Word) {k o : Nat} (hb : base.toNat % 2 ^ k = 0) (hk : k < 64) (ho : o < 2 ^ k) :
    (base ||| BitVec.ofNat 64 o).toNat = base.toNat + o := by
  have ho' : o < 2 ^ 64 := ho.trans (Nat.pow_lt_pow_right (by decide) hk)
  rw [BitVec.toNat_or, BitVec.toNat_ofNat, Nat.mod_eq_of_lt ho', ← Nat.div_mul_cancel (Nat.dvd_of_mod_eq_zero hb), ← Nat.shiftLeft_eq,
    Nat.shiftLeft_add_eq_or_of_lt ho]

/-- R101: the number of the core and the offset stand in separate fields of the pointer. -/
theorem scratchPtr_eq (loc : Nat) {o : Nat} (ho : o < 2 ^ 18) :
    scratchPtr loc o = 0x0020000000000000 ||| BitVec.ofNat 64 (loc / 8 * 2 ^ 33) ||| BitVec.ofNat 64 o := by
  have ho' : o < 2 ^ 33 := ho.trans (by decide)
  rw [scratchPtr, BitVec.or_assoc, coreOf, ← BitVec.ofNat_or, ← Nat.shiftLeft_eq, Nat.shiftLeft_add_eq_or_of_lt ho']

/-- R79: what cast.off pushes, by the class with its foreign bit. -/
theorem castOff_value {c : Nat} (h : c ∈ [0, 1, 2, 3, 4, 8, 15, 0x12, 0x13]) (hc : c ≠ 15) (x : Word) :
    (if c % 16 = 0 then 0 else if c % 16 = 1 || c % 16 = 4 then fld x 47 0 else if c % 16 = 2 then fld x 17 0
        else if c % 16 = 3 then fld x 20 0 else fld x 50 0)
      = if c = 0 then 0 else if c = 1 ∨ c = 4 then x.toNat % 2 ^ 48 else if c % 16 = 2 then x.toNat % 2 ^ 18
        else if c % 16 = 3 then x.toNat % 2 ^ 21 else x.toNat % 2 ^ 51 := by
  simp only [List.mem_cons, List.not_mem_nil, or_false] at h
  rcases h with rfl | rfl | rfl | rfl | rfl | rfl | rfl | rfl | rfl <;> simp [fld] at hc ⊢

theorem ptrClass_mod_eq (loc : Nat) (x : Word) : ptrClass loc x % 16 = 15 ↔ ptrClass loc x = 15 := by
  have : ∀ c ∈ [0, 1, 2, 3, 4, 8, 15, 0x12, 0x13], c % 16 = 15 ↔ c = 15 := by decide
  exact this _ (ptrClass_mem _ _)

theorem castForms : CastForms := by
  intro s a d
  dsimp only
  have hpriv : fld (src s a) 47 0 = (src s a).toNat % 2 ^ 48 := by simp [fld]
  refine ⟨fun hin => ?_, fun hout => ?_, fun o ho => ?_, fun hn => ?_, fun o ho => ?_, fun hn => ?_, fun hc => ?_, fun hc => ?_⟩
  · exact castPush_gives rfl (if_pos (hpriv ▸ hin)) (by rw [hpriv])
  · exact castPush_window rfl (if_neg (hpriv ▸ hout))
  · have hoff := (scratchOff_eq s.cur (src s a)).trans ho
    have hlt := ownOffset_lt ho
    exact ⟨castPush_gives rfl (congrArg _ hoff) (base_or_offset 0x0020FFFE00000000 (by decide) (by decide) hlt),
      castPush_gives rfl (congrArg _ hoff) (scratchPtr_eq s.cur hlt)⟩
  · have hoff := (scratchOff_eq s.cur (src s a)).trans hn
    exact ⟨castPush_window rfl (congrArg _ hoff), castPush_window rfl (congrArg _ hoff)⟩
  · exact castPush_gives rfl (congrArg _ ((clusterOff_eq s.cur (src s a)).trans ho))
      (base_or_offset 0x0030FFF000000000 (by decide) (by decide) (ownOffset_lt ho))
  · exact castPush_window rfl (congrArg _ ((clusterOff_eq s.cur (src s a)).trans hn))
  · refine castPush_gives rfl (if_neg (mt (ptrClass_mod_eq _ _).mp hc)) ?_
    rw [castOff_value (ptrClass_mem _ _) hc, BitVec.toNat_ofNat]
    apply Nat.mod_eq_of_lt
    have := (src s a).isLt
    repeat' split
    all_goals omega
  · exact castPush_window rfl (if_pos ((ptrClass_mod_eq _ _).mpr hc))

/-- Settles O6: `space` row by row of the table, each cast by the offset it accepts and the base it adds. -/
theorem pointerClassAndCasts : Obligations.PointerClassAndCasts := ⟨pointerClass, castForms⟩

end Sys2Proof.Machine
end

section
/-! PROOF. Control transfer (O7). Branches and jumps are `branch`, `jumpTo` and `jumpReg`. For jtab there is one lemma for each thing
that its shared operations can do: what an access that faults at the home leaves (`access_home`), the fault there
(`raiseHome_raisesAtHome`), a load inside the chunk (`loadEffects_reads`) and a load that is a chunk of its own (`loadAll_closing`). -/

namespace Sys2Proof.Machine

/-! ### Branches and jumps (R80, R81) -/

theorem jumpTo_goesTo {i : Instr} {s : State} {t : Word} (h : exec i s = jumpTo s (me s).regs t) (ht : Canonical t) : GoesTo i s t :=
  finishAt_goesTo (h.trans (jumpTo_ok ht))

theorem jumpTo_links {i : Instr} {s : State} {t : Word} (h : exec i s = jumpTo s (linkRegs (me s).regs) t) (ht : Canonical t) :
    Links i s t := links_of (h.trans (jumpTo_ok ht))

theorem jumpTo_noncanon {i : Instr} {s : State} {r : Regs} {t : Word} (h : exec i s = jumpTo s r t) (ht : ¬ Canonical t) :
    RaisesTrap i s cNoncanon t 0 := raise_raises (h.trans (jumpTo_bad ht))

theorem jumpsAndBranches : JumpsAndBranches := by
  intro s a b o p
  have ht : pcPlus s p = target s p := pcPlus_target s p (by decide)
  have hlt (x y : Word) : x.slt y = true ↔ x.toInt < y.toInt := BitVec.slt_iff_toInt_lt
  have hge (x y : Word) : (!x.slt y) = true ↔ y.toInt ≤ x.toInt := by rw [Bool.not_eq_true', ← Bool.not_eq_true, hlt, not_lt]
  refine ⟨branch_branches rfl beq_iff_eq, branch_branches rfl bne_iff_ne, branch_branches rfl (hlt _ _), branch_branches rfl (hge _ _),
    branch_branches rfl (hlt _ _), branch_branches rfl (hge _ _), branch_branches rfl beq_iff_eq, branch_branches rfl bne_iff_ne, ?_⟩
  rw [← ht]
  exact ⟨fun hc => ⟨jumpTo_goesTo rfl hc, jumpTo_links rfl hc⟩, fun hc => ⟨jumpTo_noncanon rfl hc, jumpTo_noncanon rfl hc⟩⟩

/-! ### Jumps to a register (R80) -/

theorem aligned_iff (t : Word) : (fld t 1 0 != 0) = true ↔ t.toNat % 4 ≠ 0 := by simp [fld]

theorem jumpReg_ok {s : State} {r : Regs} {t : Word} (hc : Canonical t) (ha : t.toNat % 4 = 0) : jumpReg s r t = finishAt s r t := by
  rw [jumpReg, if_neg (fun h => (canonical_iff t).mp h hc), if_neg (fun h => (aligned_iff t).mp h ha)]

theorem jumpReg_noncanon {s : State} {r : Regs} {t : Word} (hc : ¬ Canonical t) : jumpReg s r t = raise s cNoncanon t 0 := by
  rw [jumpReg, if_pos ((canonical_iff t).mpr hc)]

theorem jumpReg_misaligned {s : State} {r : Regs} {t : Word} (hc : Canonical t) (ha : t.toNat % 4 ≠ 0) :
    jumpReg s r t = raise s cAlign t 0 := by
  rw [jumpReg, if_neg (fun h => (canonical_iff t).mp h hc), if_pos ((aligned_iff t).mpr ha)]

theorem registerJumps : RegisterJumps := fun _ _ =>
  ⟨fun hc ha => ⟨finishAt_goesTo (jumpReg_ok hc ha), links_of (jumpReg_ok hc ha)⟩,
    fun hc => ⟨raise_raises (jumpReg_noncanon hc), raise_raises (jumpReg_noncanon hc)⟩,
    fun hc ha => ⟨raise_raises (jumpReg_misaligned hc ha), raise_raises (jumpReg_misaligned hc ha)⟩⟩

/-! ### Faults at the home (R114) -/

/-- If it answers with a fault at the home, the access leaves everything but the homes and the agenda. -/
def FaultStays (s : State) : Acc → Prop
  | .home _ _ _ v => HomesOnly s v
  | _ => True

theorem faultStays_if {s : State} {c : Prop} [Decidable c] {a b : Acc} (h : FaultStays s a) (k : FaultStays s b) :
    FaultStays s (if c then a else b) := by
  split <;> assumption

theorem homeAccess_faultStays (s : State) (q : AccReq) (va : Nat) : FaultStays s (homeAccess s q va) := by
  unfold homeAccess
  extract_lets l c asid h write tv hit
  clear_value hit
  refine faultStays_if (.refl s) (faultStays_if (.refl s) (faultStays_if trivial ?_))
  cases hit with
  | none => cases c.walkFault with
    | none => trivial
    | some x => exact faultStays_if (.refl s) trivial
  | some lf =>
  dsimp only
  cases leafFault s lf va q.need (isUser c && !q.sup) with
  | some x => exact .refl s
  | none =>
  have hcp {p : Prop} [Decidable p] (pa : Nat) : HomesOnly s (if p then claimCp s h pa asid va (coreOf l) else s) :=
    homesOnly_if (homesOnly_claimCp ..) (.refl s)
  refine faultStays_if (faultStays_if (.refl s) trivial) (faultStays_if trivial (faultStays_if (hcp _) (faultStays_if ?_ ?_)))
  · exact (hcp _).trans (homesOnly_if (homesOnly_claimPin ..) (.refl _))
  · split
    · trivial
    · exact faultStays_if trivial trivial

theorem access_faultStays (s : State) (q : AccReq) : FaultStays s (access s q) := by
  unfold access
  extract_lets l c ea cls tv last die scratch
  refine faultStays_if (.refl s) (faultStays_if trivial (faultStays_if trivial (faultStays_if trivial (faultStays_if trivial
    (faultStays_if trivial (faultStays_if trivial ?_))))))
  generalize watchHit _ _ _ _ _ = w
  cases w with
  | some i => trivial
  | none =>
    exact faultStays_if trivial (faultStays_if trivial (faultStays_if trivial
      (faultStays_if trivial (faultStays_if trivial (faultStays_if trivial (homeAccess_faultStays _ _ _))))))

/-- R137: an access that faults at the home changes nothing but what the homes hold and the agenda. -/
theorem access_home {s v : State} {q : AccReq} {cause : Nat} {badva tval : Word} (h : access s q = .home cause badva tval v) :
    HomesOnly s v := by
  have := access_faultStays s q
  rwa [h] at this

theorem HomesOnly.ctxAt {s v : State} (h : HomesOnly s v) (l : Nat) : Machine.ctxAt v l = Machine.ctxAt s l := by
  rw [Machine.ctxAt, h.ctxs]; rfl

theorem HomesOnly.youngTask {s v : State} (h : HomesOnly s v) (l : Nat) : Machine.youngTask v l = Machine.youngTask s l := by
  rw [h.all]; rfl

theorem HomesOnly.sysOps {s v : State} (h : HomesOnly s v) (l : Nat) (write : Bool) : sysOpsOf v l write = sysOpsOf s l write := by
  rw [h.all]; rfl

/-- R114: the executing context waits for the fault response, which squashes the chunk to run again to before the instruction. -/
def awaitFault (v : State) : State := post (stallCtx v v.cur .fault) v.cur (.faultResponse v.cur ((me v).chunk.count + 1))

theorem me_awaitFault (v : State) : me (awaitFault v) = { me v with run := .stalled .fault } := by
  rw [awaitFault, me_post]; exact me_modMe v _

theorem ctxAt_awaitFault (v : State) {l : Nat} (h : l ≠ v.cur) : ctxAt (awaitFault v) l = ctxAt v l := by
  rw [awaitFault, ctxAt_post]; exact ctxAt_modMe_other v _ h

/-- R114: what `raiseHome` does after an access that has faulted at the home. -/
theorem raiseHome_raisesAtHome {i : Instr} {s v : State} {cause : Nat} {badva tval : Word} (hv : HomesOnly s v)
    (hi : exec i s = raiseHome v cause badva tval) : RaisesAtHome i s v cause badva tval := by
  refine ⟨fun t he ha ht hm => ?_, fun ha => ?_⟩
  · refine traps_after_access hv ht (hi.trans ?_)
    rw [raiseHome, hv.me, he, ha, if_neg hm]; rfl
  · have hexec : exec i s = .next (awaitFault v) := by
      rw [hi, raiseHome, hv.me, ha, Bool.and_false, awaitFault, hv.me]; rfl
    refine ⟨_, hexec, ⟨fun a => congrArg (memGet · a) hv.mem, fun l hl => ?_, hv.cur⟩, ?_, ?_, ?_, ?_, ?_⟩
    · rw [ctxAt_awaitFault v (by rwa [hv.cur]), hv.ctxAt]
    · rw [me_awaitFault]
    · rw [me_awaitFault, hv.me]
    · rw [me_awaitFault, hv.me]
    · rw [me_awaitFault, hv.me]
    · rw [← hv.me, ← hv.cur]
      exact List.mem_append_right _ (List.mem_singleton_self _)

/-! ### A load inside the chunk (R99, R101) -/

/-- Only caches, filters, homes and the agenda have changed. -/
structure CachesOnly (s t : State) : Prop where
  mem : t.mem = s.mem
  ctxs : t.ctxs = s.ctxs
  cur : t.cur = s.cur

theorem CachesOnly.refl (s : State) : CachesOnly s s := ⟨rfl, rfl, rfl⟩

theorem CachesOnly.trans {s t u : State} (h : CachesOnly s t) (k : CachesOnly t u) : CachesOnly s u :=
  ⟨k.mem.trans h.mem, k.ctxs.trans h.ctxs, k.cur.trans h.cur⟩

theorem CachesOnly.ctxAt {s t : State} (h : CachesOnly s t) (l : Nat) : Machine.ctxAt t l = Machine.ctxAt s l := by
  rw [Machine.ctxAt, h.ctxs]; rfl

theorem CachesOnly.me {s t : State} (h : CachesOnly s t) : Machine.me t = Machine.me s := by
  rw [Machine.me, h.cur]; exact h.ctxAt _

theorem cachesOnly_foldl {α : Type} {f : State → α → State} (hf : ∀ s x, CachesOnly s (f s x)) (xs : List α) (s : State) :
    CachesOnly s (xs.foldl f s) := by
  induction xs generalizing s with
  | nil => exact .refl s
  | cons x xs ih => exact (hf s x).trans (ih _)

theorem sendFill_cachesOnly (s : State) (f : FillReq) : CachesOnly s (sendFill s f) := ⟨rfl, rfl, rfl⟩
theorem modDie_cachesOnly (s : State) (d : Nat) (f : DieSt → DieSt) : CachesOnly s (modDie s d f) := ⟨rfl, rfl, rfl⟩
theorem modCore_cachesOnly (s : State) (k : Nat) (f : CoreSt → CoreSt) : CachesOnly s (modCore s k f) := ⟨rfl, rfl, rfl⟩
theorem post_cachesOnly (s : State) (u : Nat) (i : Instr) : CachesOnly s (post s u i) := ⟨rfl, rfl, rfl⟩

theorem askWords_cachesOnly (s : State) (f : FillReq) : CachesOnly s (askWords s f) := by
  unfold askWords
  extract_lets die d inL2 s1 held s2
  have hsend : CachesOnly s s2 := (modDie_cachesOnly ..).trans (cachesOnly_foldl (fun _ _ => sendFill_cachesOnly ..) _ _)
  split
  · exact hsend
  · extract_lets g w
    split
    · exact hsend
    · exact hsend.trans (post_cachesOnly ..)

theorem askFill_cachesOnly (s : State) (asid va region lo hi : Nat) (need : Nat → Bool) (sp : Span) :
    CachesOnly s (askFill s asid va region lo hi need sp) := by
  unfold askFill
  dsimp only
  split
  · exact .refl s
  · split
    · exact .refl s
    · exact askWords_cachesOnly ..

/-- R99, R101: a load of the chunk at `t` has read `n` bytes: its context holds the grains, and no memory and no other context is
changed. -/
structure Reads (s u : State) (t : Target) (n : Nat) : Prop where
  mem : u.mem = s.mem
  cur : u.cur = s.cur
  contexts : ∀ l, l ≠ s.cur → ctxAt u l = ctxAt s l
  mine : ∃ reads, me u = { me s with chunk := { markRead (me s).chunk t n with reads := reads } }

theorem Reads.caches {s u w : State} {t : Target} {n : Nat} (h : Reads s u t n) (k : CachesOnly u w) : Reads s w t n :=
  ⟨k.mem.trans h.mem, k.cur.trans h.cur, fun l hl => (k.ctxAt l).trans (h.contexts l hl), h.mine.imp fun _ e => k.me.trans e⟩

theorem recordFill_cachesOnly (s : State) (core region lo hi : Nat) : CachesOnly s (recordFill s core region lo hi) := ⟨rfl, rfl, rfl⟩

theorem markSharer_reads (s : State) (t : Target) (n : Nat) :
    Reads s (markSharer (modMe s (fun c => { c with chunk := markRead c.chunk t n })) t n) t n := by
  have h0 : Reads s (modMe s (fun c => { c with chunk := markRead c.chunk t n })) t n :=
    ⟨rfl, rfl, fun _ h => ctxAt_modMe_other s _ h, (markRead (me s).chunk t n).reads, me_modMe s _⟩
  generalize modMe s (fun c => { c with chunk := markRead c.chunk t n }) = u at h0
  unfold markSharer
  split
  · exact h0
  · extract_lets l x u1 u2
    have h1 : Reads s u1 t n := by
      obtain ⟨hmem, hcur, hctx, reads, hme⟩ := h0
      exact ⟨hmem, hcur, fun l hl => (ctxAt_modMe_other u _ (by rwa [hcur])).trans (hctx l hl), _, by rw [me_modMe, hme]⟩
    have h2 : Reads s u2 t n := h1.caches (recordFill_cachesOnly ..)
    split
    · exact h2
    · exact h2.caches ⟨rfl, rfl, rfl⟩

theorem loadEffects_reads (s : State) (t : Target) (n : Nat) (sp : Span) : Reads s (loadEffects s [(t, n)] sp) t n := by
  unfold loadEffects
  refine (markSharer_reads s t n).caches (cachesOnly_foldl (fun u e => ?_) _ _)
  exact (modCore_cachesOnly ..).trans (askFill_cachesOnly ..)

theorem markRead_frame (c : Chunk) (t : Target) (n : Nat) : (markRead c t n).stores = c.stores ∧ (markRead c t n).w = c.w := by
  unfold markRead; split <;> exact ⟨rfl, rfl⟩

theorem markRead_r (c : Chunk) {t : Target} (n : Nat) (ht : t.closes = false) :
    (markRead c t n).r = c.r ||| (if t.space = .sw then 0 else sigRange t.asid t.va n) := by
  by_cases h : t.space = .sw
  · simp [markRead, h]
  · simp [markRead, h, ht]

theorem DiscardsKept.refl (c : Ctx) : DiscardsKept c c := ⟨rfl, List.forall₂_same.mpr fun _ _ => .inl rfl⟩

/-! ### Loads of an instruction (R96, R99) -/

/-- A load inside the chunk, of one target, but for an ldp of an SW page. -/
theorem loadAll_inside {v : State} {t : Target} {n : Nat} {ea : Word} (sp : Span) (k : Bool → List Byte → State → Res) (hn : n ≠ 16)
    (ht : t.closes = false) (hp : viewPoisoned v t n = false) :
    loadAll v sp [(t, n, ea)] k = k false (viewBytes v t n) (loadEffects v [(t, n)] sp) := by
  have hu : unsplit v t n = v := by simp [unsplit, hn]
  simp [loadAll, ht, hp, hu]

/-- R130: without a system-scope target nothing is asked, and the instruction goes on. -/
theorem sysRead_nil {s : State} (k : List Byte → State → Res) (h : sysOpsOf s s.cur false = []) :
    sysRead s [] k = k [] (dropReads s) := by
  simp [sysRead, h]

/-- R96: a load of one target that is a chunk of its own. -/
theorem loadAll_isClosing {v : State} {t : Target} {n : Nat} {ea : Word} (sp : Span) (k : Bool → List Byte → State → Res)
    (ht : t.closes = true) : ∃ k', loadAll v sp [(t, n, ea)] k = closing v k' :=
  ⟨_, if_pos (by rw [List.any_cons, ht, Bool.true_or])⟩

theorem me_dropReads (s : State) : ∃ out, me (dropReads s) = { me s with sysOut := out } := ⟨_, me_modMe _ _⟩

theorem coreByte_dropReads (s : State) (t : Target) (i : Nat) : coreByte (dropReads s) t i = coreByte s t i := by
  obtain ⟨out, h⟩ := me_dropReads s
  have hchunk : (me (dropReads s)).chunk = (me s).chunk := by rw [h]
  have hticket : (me (dropReads s)).ticket = (me s).ticket := by rw [h]
  unfold coreByte
  rw [hchunk, hticket]
  rfl

/-- Answers that are taken change no byte that the chunk sees. -/
theorem viewBytes_dropReads (s : State) (t : Target) (n : Nat) : viewBytes (dropReads s) t n = viewBytes s t n := by
  obtain ⟨out, h⟩ := me_dropReads s
  induction n with
  | zero => rfl
  | succ n ih => rw [viewBytes, viewBytes, ih, h, coreByte_dropReads]

/-- R96: such a load of device memory, with nothing of a chunk before it. -/
theorem loadAll_alone {v : State} {t : Target} {n : Nat} {ea : Word} (sp : Span) (k : Bool → List Byte → State → Res)
    (ht : t.closes = true) (he : chunkEmpty (me v) = true) (hy : youngTask v v.cur = false) (hs : t.sys = false)
    (ho : sysOpsOf v v.cur false = []) (hp : viewPoisoned v t n = false) :
    loadAll v sp [(t, n, ea)] k = k true (viewBytes v t n) (dropReads v) := by
  rw [loadAll, if_pos (by rw [List.any_cons, ht, Bool.true_or]), closing_goes _ he hy]
  simp [hp, hs, sysRead_nil _ ho, viewBytes_dropReads]

theorem closesFrom_after_access {i : Instr} {s v : State} {k : State → Res} (hv : HomesOnly s v) (h : exec i s = closing v k) :
    ClosesFrom i s v := by
  rw [ClosesFrom, h, closing, hv.me, hv.cur, hv.youngTask]
  refine ⟨fun he => ?_, fun he hy => ?_⟩
  · rw [he, ← hv.cur]; rfl
  · rw [he, hy, ← hv.cur]; rfl

/-! ### jtab (R82) -/

/-- R82: what jtab does with the bytes of the entry. -/
def jtabGo (cl : Bool) (bs : List Byte) (s : State) : Res :=
  let dest : Word := (me s).regs.pc + (signExt (BitVec.ofNat 64 (leNat bs)) 32 <<< 2)
  if fld dest 63 56 != 0 then raise s cNoncanon dest 0 else finishAny cl s (me s).regs dest

/-- R82: the displacement of an entry. -/
theorem jtab_displacement (x : Nat) :
    signExt (BitVec.ofNat 64 x) 32 <<< 2 = BitVec.ofInt 64 (4 * (x : Int).bmod (2 ^ 32)) := by
  have hx : signExt (BitVec.ofNat 64 x) 32 = BitVec.ofInt 64 ((x : Int).bmod (2 ^ 32)) := by
    have hi : (signExt (BitVec.ofNat 64 x) 32).toInt = (x : Int).bmod (2 ^ 32) := by
      rw [signExt_toInt _ (by decide) (by decide), BitVec.toNat_ofNat]
      simp only [Int.bmod_def]
      omega
    rw [← hi, BitVec.ofInt_toInt]
  rw [hx, BitVec.shiftLeft_eq_mul_twoPow, BitVec.ofInt_mul, BitVec.mul_comm,
    show BitVec.twoPow 64 2 = BitVec.ofInt 64 4 from rfl]

section
variable {s v : State} {a b : Src} {o : BitVec 15}

theorem exec_jtab_through (h : (src s b).toNat ≤ (src s a).toNat) : exec (.jtab a b o) s = finish s (me s).regs :=
  if_pos h

/-- R82: the access of the entry. -/
def jtabReq (s : State) (a : Src) (o : BitVec 15) : AccReq := loadReq (target s o + 4 * src s a) 4

/-- R82: what jtab does with the answer to the access of its entry. -/
def jtabEntry (s : State) (ea : Word) : Acc → Res
  | .ok t v => loadAll v .pred [(t, 4, ea)] jtabGo
  | .core cause badva tval => raise s cause badva (tval ||| 1)
  | .home cause badva tval v => raiseHome v cause badva (tval ||| 1)
  | .wait w v => stall v w

theorem exec_jtab_entry (h : (src s a).toNat < (src s b).toNat) :
    exec (.jtab a b o) s = jtabEntry s (target s o + 4 * src s a) (access s (jtabReq s a o)) := by
  refine (if_neg (Nat.not_le.mpr h)).trans ?_
  rw [pcPlus_target s o (by decide)]
  dsimp only
  generalize hr : access s _ = r
  rw [show access s (jtabReq s a o) = r from hr]
  cases r <;> rfl

end

theorem jtabGo_goes {s : State} {cl : Bool} {bs : List Byte} {dest : Word}
    (hd : (me s).regs.pc + BitVec.ofInt 64 (4 * (leNat bs : Int).bmod (2 ^ 32)) = dest) (hc : Canonical dest) :
    jtabGo cl bs s = finishAny cl s (me s).regs dest := by
  subst hd
  rw [jtabGo, jtab_displacement]
  exact if_neg fun h => (canonical_iff _).mp h hc

/-- A state after a load inside the chunk, once the instruction is done. -/
theorem Reads.ran {s v u w : State} {t : Target} {n : Nat} {pc : Word} (hv : HomesOnly s v) (hl : Reads v u t n) (ht : t.closes = false)
    (hr : Ran u w { (me u).regs with pc := pc } (me u).ctl) :
    KeepsStored s w ∧ (me w).regs = { (me s).regs with pc := pc } ∧ (me w).ctl = (me s).ctl
      ∧ (me w).chunk.stores = (me s).chunk.stores ∧ (me w).chunk.w = (me s).chunk.w
      ∧ (me w).chunk.r = (me s).chunk.r ||| (if t.space = .sw then 0 else sigRange t.asid t.va n) := by
  obtain ⟨hmem, hcur, hctx, reads, hme⟩ := hl
  rw [hv.me] at hme
  refine ⟨⟨fun x => ?_, fun l hl => ?_, ?_⟩, ?_, ?_, ?_, ?_, ?_⟩
  · rw [hr.outside.memory, hmem, hv.mem]
  · rw [hr.outside.contexts l (by rwa [hcur, hv.cur]), hctx l (by rwa [hv.cur]), hv.ctxAt]
    exact .refl _
  · rw [hr.outside.rest]; exact hcur.trans hv.cur
  · rw [hr.regs, hme]
  · rw [hr.ctl, hme]
  · rw [hr.chunk, hme]; exact (markRead_frame ..).1
  · rw [hr.chunk, hme]; exact (markRead_frame ..).2
  · rw [hr.chunk, hme]; exact markRead_r _ _ ht

/-- The state after a load that was a chunk of its own. -/
theorem afterClosing_dropReads {s v : State} {pc : Word} (hv : HomesOnly s v) :
    let u := afterClosing (dropReads v) (me (dropReads v)).regs pc
    Keeps s u ∧ Closed (me s) (me u) pc ∧ (me u).regs = { (me s).regs with pc := pc } := by
  obtain ⟨out, hme⟩ := me_dropReads v
  rw [hv.me] at hme
  refine ⟨⟨fun x => ?_, fun l hl => ?_, ?_⟩, ?_, ?_⟩
  · rw [afterClosing_mem]; exact congrArg (memGet · x) hv.mem
  · rw [ctxAt_afterClosing _ _ _ (show l ≠ (dropReads v).cur by rwa [← hv.cur] at hl), ← hv.ctxAt]
    exact ctxAt_modMe_other _ _ (by rwa [← hv.cur] at hl)
  · exact (dropHeld_cur _ _).trans hv.cur
  · rw [me_afterClosing, hme]
    exact ⟨rfl, rfl, rfl, rfl, rfl⟩
  · rw [me_afterClosing, hme]; rfl

theorem jumpTable : JumpTable := by
  intro s v a b o t cause badva tval
  dsimp only
  refine ⟨fun h => finishAt_goesTo (exec_jtab_through h), fun h => ?_⟩
  have hexec := exec_jtab_entry (o := o) h
  refine ⟨fun hacc ht hp hc => ?_, fun hacc ht => ⟨?_, fun he hy hs ho hp hc => ?_⟩, fun hacc => ?_, fun hacc => ?_⟩
    <;> rw [show access s (jtabReq s a o) = _ from hacc, jtabEntry] at hexec
  · have hl := loadEffects_reads v t 4 .pred
    have hpc : (me (loadEffects v [(t, 4)] .pred)).regs.pc = (me s).regs.pc := by
      obtain ⟨_, hme⟩ := hl.mine
      rw [hme, (access_ok hacc).me]
    rw [loadAll_inside _ _ (by decide) ht hp, jtabGo_goes (by rw [hpc]) hc] at hexec
    obtain ⟨u, hu, hr⟩ := finishAt_ran (loadEffects v [(t, 4)] .pred) (me (loadEffects v [(t, 4)] .pred)).regs _
    exact ⟨u, hexec.trans hu, hl.ran (access_ok hacc) ht hr⟩
  · obtain ⟨k, hk⟩ := loadAll_isClosing .pred jtabGo ht (v := v) (n := 4) (ea := target s o + 4 * src s a)
    exact closesFrom_after_access (access_ok hacc) (hexec.trans hk)
  · have hv := access_ok hacc
    have hpc : (me (dropReads v)).regs.pc = (me s).regs.pc := by
      obtain ⟨_, hme⟩ := me_dropReads v
      rw [hme, hv.me]
    rw [loadAll_alone _ _ ht (by rwa [hv.me]) (by rwa [hv.cur, hv.youngTask]) hs (by rwa [hv.cur, hv.sysOps]) hp,
      jtabGo_goes (by rw [hpc]) hc] at hexec
    exact ⟨_, hexec, afterClosing_dropReads hv⟩
  · exact raise_raises hexec
  · exact raiseHome_raisesAtHome (access_home hacc) hexec

/-- Settles O7: the branches and jumps by what `branch`, `jumpTo` and `jumpReg` do, jtab by the answer to the access of its entry. -/
theorem controlTransfer : Obligations.ControlTransfer := ⟨jumpsAndBranches, registerJumps, jumpTable⟩

end Sys2Proof.Machine
end

section
/-! PROOF. Exact arithmetic on floating-point values and its one rounding (O8). On finite operands the model computes with integers at a
common exponent (`atExp`, `ofInt`); `valQ_ofInt` and `atExp_mul` take that to the numbers that the values stand for. A quotient and a
square root are cut, and their last digit tells whether something was cut off. -/

namespace Sys2Proof.Machine

/-! ### Numbers and integers at an exponent -/

/-- The sign of a value as a factor. -/
def sgn (n : Bool) : ℚ := if n then -1 else 1

theorem valQ_fin (n : Bool) (m : Nat) (e : Int) : valQ (.fin n m e) = sgn n * m * 2 ^ e := rfl

theorem sgn_bne (x y : Bool) : sgn (x != y) = sgn x * sgn y := by cases x <;> cases y <;> norm_num [sgn]
theorem sgn_not (x : Bool) : sgn (!x) = - sgn x := by cases x <;> norm_num [sgn]
theorem sgn_inv (x : Bool) : (sgn x)⁻¹ = sgn x := by cases x <;> norm_num [sgn]
theorem abs_sgn (x : Bool) : |sgn x| = 1 := by cases x <;> norm_num [sgn]

theorem pow_toNat {d : Int} (h : 0 ≤ d) : (2 : ℚ) ^ d.toNat = 2 ^ d := by
  rw [← zpow_natCast, Int.toNat_of_nonneg h]

theorem atExp_mul (n : Bool) (m : Nat) {e0 e : Int} (h : e ≤ e0) : (atExp n m e0 e : ℚ) * 2 ^ e = valQ (.fin n m e0) := by
  have hp : (2 : ℚ) ^ (e0 - e).toNat * 2 ^ e = 2 ^ e0 := by
    rw [pow_toNat (by omega), ← zpow_add₀ two_ne_zero, Int.sub_add_cancel]
  have hk : (atExp n m e0 e : ℚ) = sgn n * m * 2 ^ (e0 - e).toNat := by
    cases n <;> simp [atExp, sgn]
  rw [hk, mul_assoc, hp, valQ_fin]

theorem valQ_ofInt (k e : Int) (z : Bool) : valQ (ofInt k e z) = k * 2 ^ e := by
  unfold ofInt
  split
  · next h => simp [valQ, h]
  · next h =>
    rw [valQ_fin]
    congr 1
    rcases lt_or_gt_of_ne h with hk | hk
    · simp only [sgn, hk, decide_true, if_true, Nat.cast_natAbs, abs_of_neg hk]; push_cast; ring
    · simp only [sgn, not_lt.mpr hk.le, decide_false, Nat.cast_natAbs, abs_of_pos hk]; simp

theorem vFin_ofInt (k e : Int) (z : Bool) : vFin (ofInt k e z) = true := by unfold ofInt; split <;> rfl

/-! ### Sums and products (R84) -/

/-- The integer of a sum at the common exponent, and the sign of a zero sum. -/
theorem exAdd_fin (mode : Nat) (na nb : Bool) (ma mb : Nat) (ea eb : Int) : exAdd mode (.fin na ma ea) (.fin nb mb eb) =
    (ofInt (atExp na ma ea (min ea eb) + atExp nb mb eb (min ea eb)) (min ea eb)
      (if ma = 0 ∧ mb = 0 ∧ na = nb then na else mode == rdnMode), 0) := rfl

theorem sum_atExp (na nb : Bool) (ma mb : Nat) (ea eb : Int) :
    ((atExp na ma ea (min ea eb) + atExp nb mb eb (min ea eb) : Int) : ℚ) * 2 ^ min ea eb = valQ (.fin na ma ea) + valQ (.fin nb mb eb) := by
  push_cast
  rw [add_mul, atExp_mul _ _ (min_le_left ..), atExp_mul _ _ (min_le_right ..)]

theorem valQ_exAdd (mode : Nat) (na nb : Bool) (ma mb : Nat) (ea eb : Int) :
    valQ (exAdd mode (.fin na ma ea) (.fin nb mb eb)).1 = valQ (.fin na ma ea) + valQ (.fin nb mb eb) := by
  rw [exAdd_fin, valQ_ofInt, sum_atExp]

/-- R84: a zero sum of terms that are not all zeros of one sign is −0 under RDN only. -/
theorem vNeg_exAdd_zero {mode : Nat} {na nb : Bool} {ma mb : Nat} {ea eb : Int} (h : valQ (.fin na ma ea) + valQ (.fin nb mb eb) = 0)
    (hz : ¬ (ma = 0 ∧ mb = 0 ∧ na = nb)) : vNeg (exAdd mode (.fin na ma ea) (.fin nb mb eb)).1 = decide (mode = 2) := by
  rw [← sum_atExp] at h
  have hk := Int.cast_eq_zero.mp ((mul_eq_zero.mp h).resolve_right (zpow_ne_zero _ two_ne_zero))
  rw [exAdd_fin, hk, if_neg hz]
  rfl

theorem valQ_negVal (n : Bool) (m : Nat) (e : Int) : valQ (negVal (.fin n m e)) = - valQ (.fin n m e) := by
  rw [negVal, valQ_fin, valQ_fin, sgn_not]; ring

theorem exMul_fin (na nb : Bool) (ma mb : Nat) (ea eb : Int) :
    exMul (.fin na ma ea) (.fin nb mb eb) = (.fin (na != nb) (ma * mb) (ea + eb), 0) := rfl

theorem valQ_product (na nb : Bool) (ma mb : Nat) (ea eb : Int) :
    valQ (.fin (na != nb) (ma * mb) (ea + eb)) = valQ (.fin na ma ea) * valQ (.fin nb mb eb) := by
  rw [valQ_fin, valQ_fin, valQ_fin, sgn_bne, zpow_add₀ two_ne_zero]; push_cast; ring

theorem exFma_fin (mode : Nat) (na nb nc : Bool) (ma mb mc : Nat) (ea eb ec : Int) : exFma mode (.fin na ma ea) (.fin nb mb eb) (.fin nc mc ec) =
    exAdd mode (.fin (na != nb) (ma * mb) (ea + eb)) (.fin nc mc ec) := by
  simp [exFma, anyNan, vNan, exMul_fin]

/-! ### Quotients (R84) -/

/-- A quotient of naturals lies between its integer part and the next, and is its integer part when nothing is left over. -/
theorem quotient_bounds (x : Nat) {y : Nat} (hy : y ≠ 0) :
    (x % y = 0 → (x : ℚ) / y = (x / y : Nat)) ∧ (x % y ≠ 0 → ((x / y : Nat) : ℚ) < x / y ∧ (x : ℚ) / y < (x / y : Nat) + 1) := by
  have hyq : (0 : ℚ) < y := by exact_mod_cast Nat.pos_of_ne_zero hy
  have hdm : ((x / y : Nat) : ℚ) * y + (x % y : Nat) = x := by exact_mod_cast (Nat.div_add_mod' x y)
  have hlt : ((x % y : Nat) : ℚ) < y := by exact_mod_cast Nat.mod_lt x (Nat.pos_of_ne_zero hy)
  refine ⟨fun h => ?_, fun h => ?_⟩
  · rw [h, Nat.cast_zero, add_zero] at hdm
    rw [← hdm, mul_div_cancel_right₀ _ hyq.ne']
  · have hpos : (0 : ℚ) < (x % y : Nat) := by exact_mod_cast Nat.pos_of_ne_zero h
    exact ⟨(lt_div_iff₀ hyq).mpr (by linarith), (div_lt_iff₀ hyq).mpr (by linarith)⟩

section
variable (na nb : Bool) (ma : Nat) {mb : Nat} (ea eb : Int)

/-- The digits that `exDiv` computes: the quotient to far below the precision of any format, and a last digit that is 1 when
something follows. -/
def divDigits (ma mb : Nat) : Nat :=
  2 * (ma * 2 ^ (130 + Nat.log2 mb) / mb) + (if ma * 2 ^ (130 + Nat.log2 mb) % mb = 0 then 0 else 1)

/-- The exponent of these digits. -/
def divExp (mb : Nat) (ea eb : Int) : Int := ea - eb - (130 + Nat.log2 mb : Nat) - 1

/-- The exact quotient as a number of halves of the last but one digit. -/
theorem quotient_eq : valQ (.fin na ma ea) / valQ (.fin nb mb eb) =
    sgn (na != nb) * (2 * ((ma * 2 ^ (130 + Nat.log2 mb) : Nat) / mb : ℚ)) * 2 ^ divExp mb ea eb := by
  have hk : ea - eb = 1 + (130 + Nat.log2 mb : Nat) + divExp mb ea eb := by unfold divExp; ring
  have he : (2 : ℚ) ^ ea / 2 ^ eb = 2 * 2 ^ (130 + Nat.log2 mb) * 2 ^ divExp mb ea eb := by
    rw [← zpow_sub₀ two_ne_zero, hk, zpow_add₀ two_ne_zero, zpow_add₀ two_ne_zero, zpow_one, zpow_natCast]
  calc valQ (.fin na ma ea) / valQ (.fin nb mb eb)
      = sgn (na != nb) * (ma / mb) * (2 ^ ea / 2 ^ eb) := by
        rw [valQ_fin, valQ_fin, sgn_bne, div_eq_mul_inv, mul_inv, mul_inv, sgn_inv]; ring
    _ = _ := by rw [he]; push_cast; ring

variable (hb : mb ≠ 0)
include hb

theorem exDiv_fin : exDiv (.fin na ma ea) (.fin nb mb eb) = (.fin (na != nb) (divDigits ma mb) (divExp mb ea eb), 0) :=
  if_neg hb

theorem divDigits_large (ha : ma ≠ 0) : 2 ^ 129 ≤ divDigits ma mb := by
  have h1 : 2 ^ 129 ≤ ma * 2 ^ (130 + Nat.log2 mb) / mb := by
    rw [Nat.le_div_iff_mul_le (Nat.pos_of_ne_zero hb)]
    have hlog : mb < 2 ^ (Nat.log2 mb + 1) := Nat.lt_log2_self
    calc 2 ^ 129 * mb ≤ 2 ^ 129 * 2 ^ (Nat.log2 mb + 1) := Nat.mul_le_mul_left _ hlog.le
      _ = 1 * 2 ^ (130 + Nat.log2 mb) := by rw [← Nat.pow_add, Nat.one_mul]; congr 1; omega
      _ ≤ ma * 2 ^ (130 + Nat.log2 mb) := Nat.mul_le_mul_right _ (Nat.pos_of_ne_zero ha)
  unfold divDigits
  omega

theorem exDiv_even (h : divDigits ma mb % 2 = 0) :
    valQ (exDiv (.fin na ma ea) (.fin nb mb eb)).1 = valQ (.fin na ma ea) / valQ (.fin nb mb eb) := by
  rw [exDiv_fin _ _ _ _ _ hb, quotient_eq, valQ_fin]
  unfold divDigits at h ⊢
  split at h
  · next hr => rw [if_pos hr, (quotient_bounds _ hb).1 hr]; push_cast; ring
  · omega

theorem exDiv_odd (h : divDigits ma mb % 2 = 1) :
    |valQ (exDiv (.fin na ma ea) (.fin nb mb eb)).1 - valQ (.fin na ma ea) / valQ (.fin nb mb eb)| < 2 ^ divExp mb ea eb := by
  have hp : (0 : ℚ) < 2 ^ divExp mb ea eb := by positivity
  rw [exDiv_fin _ _ _ _ _ hb, quotient_eq, valQ_fin, ← sub_mul, ← mul_sub, abs_mul, abs_mul, abs_sgn, one_mul,
    abs_of_pos hp]
  unfold divDigits at h ⊢
  split at h
  · omega
  · next hr =>
    obtain ⟨hlo, hhi⟩ := (quotient_bounds _ hb).2 hr
    rw [if_neg hr]
    refine (mul_lt_iff_lt_one_left hp).mpr (abs_lt.mpr ?_)
    push_cast at hlo hhi ⊢
    constructor <;> linarith

end

/-! ### Square roots (R84) -/

theorem isqrt_spec (x : Nat) : ∀ n r, r * r ≤ x → x < (r + 2 ^ n) * (r + 2 ^ n) →
    isqrt x n r * isqrt x n r ≤ x ∧ x < (isqrt x n r + 1) * (isqrt x n r + 1)
  | 0, r, hle, hlt => ⟨hle, hlt⟩
  | n + 1, r, hle, hlt => by
    rw [isqrt]
    split
    · next h => exact isqrt_spec x n _ h (by rwa [Nat.add_assoc, ← Nat.two_mul, ← Nat.pow_succ'])
    · next h => exact isqrt_spec x n _ hle (Nat.not_le.mp h)

/-- The radicand that `exSqrt` makes: an even exponent, and 128 more bits. -/
def sqrtRadicand (m : Nat) (e : Int) : Nat := (if e % 2 = 0 then m else 2 * m) * 2 ^ 128

/-- Half the exponent of the radicand. -/
def sqrtExp (e : Int) : Int := ((if e % 2 = 0 then e else e - 1) - 128) / 2

theorem sqrtRadicand_mul (m : Nat) (e : Int) : (sqrtRadicand m e : ℚ) * (2 ^ sqrtExp e) ^ 2 = valQ (.fin false m e) := by
  have hsq : ((2 : ℚ) ^ sqrtExp e) ^ 2 = 2 ^ (2 * sqrtExp e) := by rw [mul_comm, zpow_mul, zpow_ofNat]
  rw [hsq, valQ_fin, sqrtRadicand, sqrtExp]
  split
  · next h =>
    have he : e = 128 + 2 * ((e - 128) / 2) := by omega
    conv_rhs => rw [he, zpow_add₀ two_ne_zero]
    norm_num [sgn, mul_assoc]
  · next h =>
    have he : e = 1 + 128 + 2 * ((e - 1 - 128) / 2) := by omega
    conv_rhs => rw [he, zpow_add₀ two_ne_zero, zpow_add₀ two_ne_zero]
    simp [sgn]; ring

/-- The integer root of the radicand. -/
def sqrtRoot (m : Nat) (e : Int) : Nat := isqrt (sqrtRadicand m e) 100 0

theorem sqrtRoot_spec {m : Nat} (e : Int) (h : m < 2 ^ 64) : sqrtRoot m e * sqrtRoot m e ≤ sqrtRadicand m e
    ∧ sqrtRadicand m e < (sqrtRoot m e + 1) * (sqrtRoot m e + 1) := by
  refine isqrt_spec _ 100 0 (Nat.zero_le _) ?_
  have : (if e % 2 = 0 then m else 2 * m) < 2 ^ 65 := by split <;> omega
  unfold sqrtRadicand
  omega

theorem sqrtRoot_large {m : Nat} (e : Int) (h0 : 0 < m) (h : m < 2 ^ 64) : 2 ^ 64 ≤ sqrtRoot m e := by
  by_contra hlt
  have hs : sqrtRoot m e + 1 ≤ 2 ^ 64 := by omega
  have hr : 1 ≤ if e % 2 = 0 then m else 2 * m := by split <;> omega
  have h1 := (sqrtRoot_spec e h).2
  have h2 : (sqrtRoot m e + 1) * (sqrtRoot m e + 1) ≤ 2 ^ 64 * 2 ^ 64 := Nat.mul_le_mul hs hs
  unfold sqrtRadicand at h1
  omega

/-- The digits that `exSqrt` computes: the root to far below the precision of any format, and a last digit that is 1 when something
follows. -/
def sqrtDigits (m : Nat) (e : Int) : Nat := 2 * sqrtRoot m e + (if sqrtRoot m e * sqrtRoot m e = sqrtRadicand m e then 0 else 1)

theorem exSqrt_fin {m : Nat} (e : Int) (h : m ≠ 0) : exSqrt (.fin false m e) = (.fin false (sqrtDigits m e) (sqrtExp e - 1), 0) :=
  (if_neg h).trans (if_neg Bool.false_ne_true)

/-- The square of a number of halves of the last but one digit. -/
theorem half_digit_sq (x : ℚ) (e : Int) : (2 * x * 2 ^ (sqrtExp e - 1)) ^ 2 = x ^ 2 * (2 ^ sqrtExp e) ^ 2 := by
  rw [zpow_sub₀ two_ne_zero, zpow_one]; ring

theorem sqrtDigits_even {m : Nat} (e : Int) (h : sqrtDigits m e % 2 = 0) :
    ((sqrtDigits m e : ℚ) * 2 ^ (sqrtExp e - 1)) ^ 2 = valQ (.fin false m e) := by
  unfold sqrtDigits at h ⊢
  split at h
  · next hr =>
    have hq : (sqrtRoot m e : ℚ) ^ 2 = sqrtRadicand m e := by rw [← hr]; push_cast; ring
    rw [if_pos hr, Nat.add_zero, Nat.cast_mul, Nat.cast_ofNat, half_digit_sq, hq, sqrtRadicand_mul]
  · omega

theorem sqrtDigits_odd {m : Nat} (e : Int) (hm : m < 2 ^ 64) (h : sqrtDigits m e % 2 = 1) :
    ((sqrtDigits m e - 1 : ℚ) * 2 ^ (sqrtExp e - 1)) ^ 2 < valQ (.fin false m e)
      ∧ valQ (.fin false m e) < ((sqrtDigits m e + 1 : ℚ) * 2 ^ (sqrtExp e - 1)) ^ 2 := by
  obtain ⟨hle, hlt⟩ := sqrtRoot_spec e hm
  have hp : (0 : ℚ) < (2 ^ sqrtExp e) ^ 2 := by positivity
  unfold sqrtDigits at h ⊢
  split at h
  · omega
  · next hr =>
    have hlo : (sqrtRoot m e : ℚ) ^ 2 < sqrtRadicand m e := by rw [sq]; exact_mod_cast lt_of_le_of_ne hle hr
    have hhi : (sqrtRadicand m e : ℚ) < (sqrtRoot m e + 1 : ℚ) ^ 2 := by rw [sq]; exact_mod_cast hlt
    have h1 : (((2 * sqrtRoot m e + 1 : Nat) : ℚ) - 1) = 2 * (sqrtRoot m e : ℚ) := by push_cast; ring
    have h2 : (((2 * sqrtRoot m e + 1 : Nat) : ℚ) + 1) = 2 * (sqrtRoot m e + 1 : ℚ) := by push_cast; ring
    rw [if_neg hr, h1, h2, half_digit_sq, half_digit_sq, ← sqrtRadicand_mul]
    exact ⟨mul_lt_mul_of_pos_right hlo hp, mul_lt_mul_of_pos_right hhi hp⟩

theorem fpExactResults : FpExactResults := by
  intro mode na nb nc ma mb mc ea eb ec
  dsimp only
  refine ⟨valQ_exAdd .., rfl, vFin_ofInt .., ?_, valQ_product .., rfl, rfl, ?_, ?_, ?_, vNeg_exAdd_zero, ?_, fun hb => ?_, fun hb ha => ?_,
    fun hb ha => ?_, fun hn h0 hm => ?_, fun h0 => ?_, fun hn h0 => ?_, ?_, rfl, fun hb => ⟨?_, ?_, ?_⟩, fun hb => ?_, rfl, ?_, rfl, rfl, rfl⟩
  · exact (valQ_exAdd ..).trans (by rw [show Val.fin (!nb) mb eb = negVal (.fin nb mb eb) from rfl, valQ_negVal, ← sub_eq_add_neg])
  · rw [exFma_fin, valQ_exAdd, valQ_product]
  · rw [exFma_fin]; rfl
  · rw [exFma_fin]; exact vFin_ofInt ..
  · intro h hz
    rw [exFma_fin]
    exact vNeg_exAdd_zero (by rw [valQ_product, h]) (by rwa [Nat.mul_eq_zero])
  · exact ⟨_, _, exDiv_fin _ _ _ _ _ hb, divDigits_large _ hb, exDiv_even _ _ _ _ _ hb, exDiv_odd _ _ _ _ _ hb⟩
  · exact (if_pos hb).trans (if_neg ha)
  · exact (if_pos hb).trans (if_pos ha)
  · subst hn
    have := sqrtRoot_large ea h0 hm
    exact ⟨_, _, exSqrt_fin _ h0.ne', by unfold sqrtDigits; omega, sqrtDigits_even _, sqrtDigits_odd _ hm⟩
  · subst h0
    exact ⟨by simp [exSqrt, valQ], rfl, rfl⟩
  · subst hn
    exact (if_neg h0).trans (if_pos rfl)
  · cases na <;> rfl
  · subst hb; rfl
  · subst hb; rfl
  · subst hb; rfl
  · simp [exMul, anyNan, vNan, vZero, vNeg, hb]
  · simp [exDiv, anyNan, vNan, valQ]

/-! ### Codes of a format (R83, R336) -/

/-- What the four IEEE formats have in common. -/
structure FpFmt.Ok (f : FpFmt) : Prop where
  tb : 1 ≤ f.tb
  eb : 2 ≤ f.eb
  bias : (2 ^ f.eb : Int) = 2 * f.bias + 2
  wide : (f.tb : Int) ≤ f.bias

theorem FpFmt.ok_of {f : FpFmt} (h : f = fmtDf ∨ f = fmtSf ∨ f = fmtHf ∨ f = fmtBf) : f.Ok := by
  rcases h with rfl | rfl | rfl | rfl <;> exact ⟨by decide, by decide, by decide, by decide⟩

theorem pFmt_ok (p : Prec) : (pFmt p).Ok := by cases p <;> exact FpFmt.ok_of (by decide)

theorem FpFmt.infCode_add (f : FpFmt) : f.infCode + 2 ^ f.tb = f.signBit := by
  rw [infCode, signBit, ← Nat.succ_mul, Nat.succ_eq_add_one, Nat.sub_add_cancel Nat.one_le_two_pow, Nat.pow_add]

theorem FpFmt.two_mul_signBit (f : FpFmt) : 2 * f.signBit = 2 ^ f.width := by rw [signBit, width, Nat.pow_succ']

theorem signOf_le (f : FpFmt) (n : Bool) : signOf f n ≤ f.signBit := by cases n <;> simp [signOf]

/-- A sign and a code below the sign bit have the width of the format. -/
theorem sign_code_lt (f : FpFmt) (n : Bool) {c : Nat} (h : c < f.signBit) : signOf f n + c < 2 ^ f.width := by
  have := signOf_le f n
  rw [← f.two_mul_signBit]
  omega

theorem FpFmt.canon_lt {f : FpFmt} (h : f.Ok) : f.canon < f.signBit := by
  have hp : 2 ^ (f.tb - 1) < 2 ^ f.tb := Nat.pow_lt_pow_right (by decide) (by have := h.tb; omega)
  rw [canon, ← f.infCode_add]
  omega

/-- R83: the bits above the format are zero. -/
theorem ieeeCode_bits_lt {f : FpFmt} (h : f.Ok) (flush : Bool) (mode r : Nat) (v : Val) : (ieeeCode f flush mode r v).bits < 2 ^ f.width := by
  have hinf : f.infCode < f.signBit := by have := f.infCode_add; have := Nat.two_pow_pos f.tb; omega
  have hzero : (0 : Nat) < f.signBit := Nat.two_pow_pos _
  cases v with
  | nan s => exact (FpFmt.canon_lt h).trans_le (by rw [← f.two_mul_signBit]; omega)
  | inf n => exact sign_code_lt f n hinf
  | fin n m e =>
    simp only [ieeeCode]
    split
    · exact sign_code_lt f n hzero
    · split
      · refine sign_code_lt f n ?_
        split <;> omega
      · split
        · exact sign_code_lt f n hzero
        · exact sign_code_lt f n (by omega)

/-! ### One rounding (R83, R84) -/

/-- R83: an instruction that rounds the exact result `e` once. -/
def finishExact (s : State) (d : Dest) (f : FpFmt) (e : Exact) : Res :=
  let c := pack (fpmode s) f e
  finishFp s d c.bits c.flags

section
variable {i : Instr} {s : State} {d : Dest} {f : FpFmt}

theorem finishExact_gives {e : Exact} (h : exec i s = finishExact s d f e) (hf : f.Ok) :
    let r := ieeeCode f (flushes (fpmode s) f) (roundMode (fpmode s)) 0 e.1
    GivesFp i s d (BitVec.ofNat 64 r.bits) (r.flags ||| e.2) ∧ r.bits < 2 ^ f.width ∧ (vNan e.1 = true → r.bits = f.canon) := by
  refine ⟨finishFp_gives h, ieeeCode_bits_lt hf .., fun hn => ?_⟩
  cases he : e.1 with
  | nan s => rfl
  | _ => rw [he] at hn; cases hn

/-- R83: a result that is a NaN is the canonical one, with the flags of its operands. -/
theorem finishExact_nan {fl : Flags} {e : Exact} (h : exec i s = finishExact s d f e) (he : e = (.nan false, fl)) :
    GivesFp i s d (BitVec.ofNat 64 f.canon) fl := by
  subst he
  have hfl : (0 : Flags) ||| fl = fl := BitVec.zero_or
  exact finishFp_gives (h.trans (congrArg (finishFp s d f.canon) hfl))

end

/-- R83: NV for a signalling operand. -/
theorem flagIf_anySnan (a b : Val) : flagIf (anySnan [a, b]) fNV = if vSnan a = true ∨ vSnan b = true then 1 else 0 := by
  simp [flagIf, anySnan, fNV]

theorem anyNan_iff (a b : Val) : anyNan [a, b] = true ↔ vNan a = true ∨ vNan b = true := by simp [anyNan]

theorem vNan_negVal (a : Val) : vNan (negVal a) = vNan a := by cases a <;> rfl
theorem vSnan_negVal (a : Val) : vSnan (negVal a) = vSnan a := by cases a <;> rfl

section
variable {a b : Val} (h : vNan a = true ∨ vNan b = true)
include h

theorem exAdd_nan (mode : Nat) : exAdd mode a b = (.nan false, if vSnan a = true ∨ vSnan b = true then 1 else 0) := by
  rw [← flagIf_anySnan]; exact if_pos ((anyNan_iff a b).mpr h)

theorem exSub_nan (mode : Nat) : exAdd mode a (negVal b) = (.nan false, if vSnan a = true ∨ vSnan b = true then 1 else 0) := by
  rw [exAdd_nan (by rwa [vNan_negVal]), vSnan_negVal]

theorem exMul_nan : exMul a b = (.nan false, if vSnan a = true ∨ vSnan b = true then 1 else 0) := by
  rw [← flagIf_anySnan]; exact if_pos ((anyNan_iff a b).mpr h)

theorem exDiv_nan : exDiv a b = (.nan false, if vSnan a = true ∨ vSnan b = true then 1 else 0) := by
  rw [← flagIf_anySnan]; exact if_pos ((anyNan_iff a b).mpr h)

end

theorem exSqrt_nan {a : Val} (h : vNan a = true) : exSqrt a = (.nan false, if vSnan a = true then 1 else 0) := by
  cases a with
  | nan s => rfl
  | _ => cases h

/-- R84: the product of `ffma` is a zero times an infinity. -/
def ZeroTimesInf (a b : Val) : Prop :=
  (vZero a = true ∧ (b = .inf false ∨ b = .inf true)) ∨ (vZero b = true ∧ (a = .inf false ∨ a = .inf true))

/-- The value is an infinity. -/
def isInf : Val → Bool
  | .inf _ => true
  | _ => false

theorem isInf_iff (a : Val) : isInf a = true ↔ a = .inf false ∨ a = .inf true := by
  cases a with
  | inf n => cases n <;> simp [isInf]
  | _ => simp [isInf]

theorem exFma_eq (mode : Nat) (a b c : Val) : exFma mode a b c =
    if ((vZero a && isInf b) || (vZero b && isInf a)) = true then (.nan false, fNV)
    else if anyNan [a, b, c] = true then (.nan false, flagIf (anySnan [a, b, c]) fNV) else exAdd mode (exMul a b).1 c := by
  cases a <;> cases b <;> rfl

theorem exFma_nan (mode : Nat) {a b c : Val} (h : vNan a = true ∨ vNan b = true ∨ vNan c = true) :
    (vSnan a = true ∨ vSnan b = true ∨ vSnan c = true ∨ ZeroTimesInf a b → exFma mode a b c = (.nan false, 1))
      ∧ (¬ (vSnan a = true ∨ vSnan b = true ∨ vSnan c = true ∨ ZeroTimesInf a b) → exFma mode a b c = (.nan false, 0)) := by
  have hz : ((vZero a && isInf b) || (vZero b && isInf a)) = true ↔ ZeroTimesInf a b := by
    rw [Bool.or_eq_true, Bool.and_eq_true, Bool.and_eq_true, isInf_iff, isInf_iff]; rfl
  have hn : anyNan [a, b, c] = true := by simpa [anyNan] using h
  have hs : (vSnan a = true ∨ vSnan b = true ∨ vSnan c = true ∨ ZeroTimesInf a b) ↔ anySnan [a, b, c] = true ∨ ZeroTimesInf a b := by
    simp [anySnan, or_assoc]
  rw [hs, exFma_eq, if_pos hn]
  by_cases hzi : ZeroTimesInf a b
  · rw [if_pos (hz.mpr hzi)]
    exact ⟨fun _ => rfl, fun hv => absurd (.inr hzi) hv⟩
  · rw [if_neg (mt hz.mp hzi)]
    cases hsn : anySnan [a, b, c] with
    | true => exact ⟨fun _ => rfl, fun hv => absurd (.inl rfl) hv⟩
    | false => exact ⟨fun hv => absurd (hv.resolve_right hzi) Bool.false_ne_true, fun _ => rfl⟩

theorem fpArithmeticRoundsOnce : FpArithmeticRoundsOnce := by
  intro s a b c d p
  have hf := pFmt_ok p
  refine ⟨finishExact_gives rfl hf, finishExact_gives rfl hf, finishExact_gives rfl hf, finishExact_gives rfl hf,
    finishExact_gives rfl hf, finishExact_gives rfl hf, fun h => ⟨?_, ?_, ?_, ?_⟩, fun h => ?_, fun h => ⟨fun hv => ?_, fun hv => ?_⟩⟩
  · exact finishExact_nan rfl (exAdd_nan h _)
  · exact finishExact_nan rfl (exSub_nan h _)
  · exact finishExact_nan rfl (exMul_nan h)
  · exact finishExact_nan rfl (exDiv_nan h)
  · exact finishExact_nan rfl (exSqrt_nan h)
  · exact finishExact_nan rfl ((exFma_nan _ h).1 hv)
  · exact finishExact_nan rfl ((exFma_nan _ h).2 hv)

/-- Settles O8: each form is `pack` of an exact result, which is one rounding; the exact results are those of the lemmas above. -/
theorem fpArithmetic : Obligations.FpArithmetic := ⟨fpArithmeticRoundsOnce, fpExactResults⟩

end Sys2Proof.Machine
end

section
/-! PROOF. Floating-point comparison, minimum and maximum, class and sign (O10). `cmpVal` orders values as `valLt` does; the class and the
sign are read off the fields of a code. -/

namespace Sys2Proof.Machine

/-! ### The order of values (R86) -/

theorem sub_atExp (na nb : Bool) (ma mb : Nat) (ea eb : Int) :
    ((atExp na ma ea (min ea eb) - atExp nb mb eb (min ea eb) : Int) : ℚ) * 2 ^ min ea eb = valQ (.fin na ma ea) - valQ (.fin nb mb eb) := by
  push_cast
  rw [sub_mul, atExp_mul _ _ (min_le_left ..), atExp_mul _ _ (min_le_right ..)]

/-- The comparison of two integers as `cmpVal` gives it. -/
theorem sign_cases (k : Int) : ((if k < 0 then -1 else if k = 0 then 0 else 1 : Int) < 0 ↔ k < 0)
    ∧ (0 < (if k < 0 then -1 else if k = 0 then 0 else 1 : Int) ↔ 0 < k) := by
  split <;> [skip; split] <;> omega

/-- R86: `cmpVal` orders values that are no NaNs. -/
theorem cmpVal_spec {a b : Val} (ha : vNan a = false) (hb : vNan b = false) : (cmpVal a b < 0 ↔ valLt a b) ∧ (0 < cmpVal a b ↔ valLt b a) := by
  cases a with
  | nan s => cases ha
  | inf m => cases b with
    | nan s => cases hb
    | inf n => cases m <;> cases n <;> simp [cmpVal, valLt]
    | fin n k e => cases m <;> simp [cmpVal, valLt]
  | fin na ma ea => cases b with
    | nan s => cases hb
    | inf n => cases n <;> simp [cmpVal, valLt]
    | fin nb mb eb =>
      have hp : (0 : ℚ) < 2 ^ min ea eb := by positivity
      have hd := sub_atExp na nb ma mb ea eb
      obtain ⟨hneg, hpos⟩ := sign_cases (atExp na ma ea (min ea eb) - atExp nb mb eb (min ea eb))
      refine ⟨hneg.trans ?_, hpos.trans ?_⟩
      · rw [valLt, ← sub_neg (a := valQ _), ← hd, ← not_le, ← not_le, mul_nonneg_iff_of_pos_right hp, Int.cast_nonneg_iff]
      · rw [valLt, ← sub_pos (a := valQ _), ← hd, mul_pos_iff_of_pos_right hp, Int.cast_pos]

theorem valLt_not_nan {a b : Val} (h : valLt a b) : vNan a = false ∧ vNan b = false := by
  constructor
  · cases a with
    | nan s => cases b <;> exact h.elim
    | _ => rfl
  · cases b with
    | nan s => cases a <;> exact h.elim
    | _ => rfl

theorem anyNan_eq_false {a b : Val} : anyNan [a, b] = false ↔ vNan a = false ∧ vNan b = false := by simp [anyNan]

section
variable (fpmode : Word) (f : FpFmt) (x y : Nat)

theorem fpEq_iff : let u := unpack fpmode f x
    let v := unpack fpmode f y
    (fpEq fpmode f x y).1 = true ↔ ¬ (vNan u = true ∨ vNan v = true) ∧ ¬ valLt u v ∧ ¬ valLt v u := by
  intro u v
  rw [← anyNan_iff, Bool.not_eq_true, fpEq, Bool.and_eq_true, Bool.not_eq_true']
  refine and_congr_right fun hn => ?_
  obtain ⟨hu, hv⟩ := anyNan_eq_false.mp hn
  rw [← (cmpVal_spec hu hv).1, ← (cmpVal_spec hu hv).2, beq_iff_eq]
  omega

theorem fpLess_iff : (fpLess fpmode f false x y).1 = true ↔ valLt (unpack fpmode f x) (unpack fpmode f y) := by
  rw [fpLess, Bool.and_eq_true, Bool.not_eq_true', Bool.false_and, Bool.or_false, decide_eq_true_eq, anyNan_eq_false]
  exact ⟨fun ⟨hn, h⟩ => (cmpVal_spec hn.1 hn.2).1.mp h,
    fun h => ⟨valLt_not_nan h, (cmpVal_spec (valLt_not_nan h).1 (valLt_not_nan h).2).1.mpr h⟩⟩

theorem fpLessEq_iff : let u := unpack fpmode f x
    let v := unpack fpmode f y
    (fpLess fpmode f true x y).1 = true ↔ ¬ (vNan u = true ∨ vNan v = true) ∧ ¬ valLt v u := by
  intro u v
  rw [← anyNan_iff, Bool.not_eq_true, fpLess, Bool.and_eq_true, Bool.not_eq_true']
  refine and_congr_right fun hn => ?_
  obtain ⟨hu, hv⟩ := anyNan_eq_false.mp hn
  rw [← (cmpVal_spec hu hv).2, Bool.true_and, Bool.or_eq_true, decide_eq_true_eq, beq_iff_eq]
  omega

end

/-- R86: an instruction that pushes 1 for true and 0 for false. -/
theorem finishFp_flag {i : Instr} {s : State} {d : Dest} {c : Bool × Flags} {fl : BitVec 5} {p : Prop}
    (h : exec i s = finishFp s d (if c.1 then 1 else 0) c.2) (hf : c.2 = fl) (hp : c.1 = true ↔ p) :
    ∃ r : Word, GivesFp i s d r fl ∧ r.toNat ≤ 1 ∧ (r.toNat = 1 ↔ p) := by
  subst hf
  refine ⟨_, finishFp_gives h, ?_⟩
  rw [← hp]
  cases c.1 <;> decide

theorem flagIf_anyNan (a b : Val) : flagIf (anyNan [a, b]) fNV = if vNan a = true ∨ vNan b = true then 1 else 0 := by
  simp [flagIf, anyNan, fNV]

theorem finishFp_gives_flags {i : Instr} {s : State} {d : Dest} {x : Nat} {f g : BitVec 5} (h : exec i s = finishFp s d x f) (hf : f = g) :
    GivesFp i s d (BitVec.ofNat 64 x) g := hf ▸ finishFp_gives h

/-! ### Minimum and maximum (R85) -/

section
variable (fpmode : Word) (f : FpFmt) (isMax : Bool) (x y : Nat)

theorem fpMinMax_flags : (fpMinMax fpmode f isMax x y).flags =
    if vSnan (unpack fpmode f x) = true ∨ vSnan (unpack fpmode f y) = true then 1 else 0 := by
  rw [← flagIf_anySnan]
  unfold fpMinMax
  dsimp only
  repeat' split
  all_goals rfl

variable {fpmode f x y}

theorem fpMinMax_nans (hx : vNan (unpack fpmode f x) = true) (hy : vNan (unpack fpmode f y) = true) :
    (fpMinMax fpmode f isMax x y).bits = f.canon := by simp [fpMinMax, hx, hy]

theorem fpMinMax_left_nan (hx : vNan (unpack fpmode f x) = true) (hy : vNan (unpack fpmode f y) = false) :
    (fpMinMax fpmode f isMax x y).bits = flushCode fpmode f y := by simp [fpMinMax, hx, hy]

theorem fpMinMax_right_nan (hx : vNan (unpack fpmode f x) = false) (hy : vNan (unpack fpmode f y) = true) :
    (fpMinMax fpmode f isMax x y).bits = flushCode fpmode f x := by simp [fpMinMax, hx, hy]

/-- R85: the order of fmin and fmax: that of the values, with −0 below +0. -/
def MinMaxLess (u v : Val) : Prop := valLt u v ∨ (vZero u = true ∧ vZero v = true ∧ vNeg u = true ∧ vNeg v = false)

theorem valQ_of_zero {a : Val} (h : vZero a = true) : ∃ n e, a = .fin n 0 e := by
  cases a with
  | fin n m e => exact ⟨n, e, by rw [beq_iff_eq.mp h]⟩
  | _ => cases h

/-- Two zeros are equal values. -/
theorem cmpVal_zeros {u v : Val} (hu : vZero u = true) (hv : vZero v = true) : cmpVal u v = 0 := by
  obtain ⟨_, _, rfl⟩ := valQ_of_zero hu
  obtain ⟨_, _, rfl⟩ := valQ_of_zero hv
  simp [cmpVal, atExp]

theorem fpMinMax_less (hx : vNan (unpack fpmode f x) = false) (hy : vNan (unpack fpmode f y) = false)
    (h : MinMaxLess (unpack fpmode f x) (unpack fpmode f y)) :
    (fpMinMax fpmode f isMax x y).bits = if isMax then flushCode fpmode f y else flushCode fpmode f x := by
  have hless : (decide (cmpVal (unpack fpmode f x) (unpack fpmode f y) < 0) || (cmpVal (unpack fpmode f x) (unpack fpmode f y) == 0
      && vNeg (unpack fpmode f x) && !vNeg (unpack fpmode f y))) = true := by
    rcases h with h | ⟨hzx, hzy, hnx, hny⟩
    · rw [decide_eq_true ((cmpVal_spec hx hy).1.mpr h), Bool.true_or]
    · rw [cmpVal_zeros hzx hzy, hnx, hny]; rfl
  simp only [fpMinMax, hx, hy, hless]
  cases isMax <;> rfl

theorem fpMinMax_greater (hx : vNan (unpack fpmode f x) = false) (hy : vNan (unpack fpmode f y) = false)
    (h : valLt (unpack fpmode f y) (unpack fpmode f x)
      ∨ (vZero (unpack fpmode f x) = true ∧ vZero (unpack fpmode f y) = true ∧ vNeg (unpack fpmode f x) = false)) :
    (fpMinMax fpmode f isMax x y).bits = if isMax then flushCode fpmode f x else flushCode fpmode f y := by
  have hless : (decide (cmpVal (unpack fpmode f x) (unpack fpmode f y) < 0) || (cmpVal (unpack fpmode f x) (unpack fpmode f y) == 0
      && vNeg (unpack fpmode f x) && !vNeg (unpack fpmode f y))) = false := by
    rcases h with h | ⟨hzx, hzy, hnx⟩
    · have hpos := (cmpVal_spec hx hy).2.mpr h
      rw [decide_eq_false (by omega), beq_false_of_ne (by omega)]; rfl
    · rw [cmpVal_zeros hzx hzy, hnx]; rfl
  simp only [fpMinMax, hx, hy, hless]
  cases isMax <;> rfl

end

/-! ### Class and sign (R87, R88) -/

theorem fsrc_lt (s : State) (p : Prec) (a : Src) : fsrc s p a < 2 ^ (pFmt p).width := Nat.mod_lt _ (by positivity)

/-- The sign of a code. -/
theorem sign_of_code {f : FpFmt} {x : Nat} (h : x < 2 ^ f.width) : x / f.signBit % 2 = x / f.signBit := by
  rw [← f.two_mul_signBit, Nat.mul_comm] at h
  exact Nat.mod_eq_of_lt (Nat.div_lt_of_lt_mul h)

/-- R87: the place of the class bit in the table. -/
def classBit (f : FpFmt) (x : Nat) : Nat :=
  let e := x / 2 ^ f.tb % 2 ^ f.eb
  let t := x % 2 ^ f.tb
  let neg := x / f.signBit = 1
  if e = 2 ^ f.eb - 1 then (if t = 0 then (if neg then 0 else 7) else if t < 2 ^ (f.tb - 1) then 8 else 9)
  else if e = 0 then (if t = 0 then (if neg then 3 else 4) else if neg then 2 else 5)
  else if neg then 1 else 6

theorem fpClass_eq {f : FpFmt} {x : Nat} (h : x < 2 ^ f.width) : fpClass f x = 2 ^ classBit f x := by
  simp only [fpClass, ieeeVal, classBit, sign_of_code h, Bool.false_eq_true, if_false]
  by_cases hmax : x / 2 ^ f.tb % 2 ^ f.eb = 2 ^ f.eb - 1
  · rw [if_pos hmax, if_pos hmax]
    by_cases ht : x % 2 ^ f.tb = 0
    · by_cases hn : x / f.signBit = 1 <;> simp [ht, hn]
    · have hq : x % 2 ^ f.tb / 2 ^ (f.tb - 1) = 0 ↔ x % 2 ^ f.tb < 2 ^ (f.tb - 1) := Nat.div_eq_zero_iff_lt (by positivity)
      by_cases hs : x % 2 ^ f.tb < 2 ^ (f.tb - 1) <;> simp [ht, hq, hs]
  · rw [if_neg hmax, if_neg hmax]
    by_cases h0 : x / 2 ^ f.tb % 2 ^ f.eb = 0
    · by_cases ht : x % 2 ^ f.tb = 0 <;> by_cases hn : x / f.signBit = 1 <;> simp [h0, ht, hn]
    · by_cases hn : x / f.signBit = 1 <;> simp [h0, hn]

theorem fpSign_testBit (f : FpFmt) (x y i : Nat) : (fpSign f x y).testBit i =
    if i < f.eb + f.tb then x.testBit i else if i = f.eb + f.tb then y.testBit i else false := by
  rw [fpSign, FpFmt.signBit, Nat.add_comm (x % _), Nat.mul_comm, Nat.testBit_two_pow_mul_add _ (Nat.mod_lt _ (by positivity))]
  split
  · next h => simp [Nat.testBit_mod_two_pow, h]
  · next h =>
    rw [← Nat.pow_one 2, ← Nat.pow_mul, Nat.one_mul, Nat.testBit_mod_two_pow, Nat.testBit_div_two_pow]
    split
    · next he => simp [he]
    · next he => simp [show ¬ i - (f.eb + f.tb) < 1 by omega]

theorem fsrc_testBit (s : State) (p : Prec) (a : Src) {i : Nat} (h : i < (pFmt p).width) : (fsrc s p a).testBit i = (src s a).getLsbD i :=
  (Nat.testBit_mod_two_pow ..).trans (by rw [decide_eq_true h, Bool.true_and]; rfl)

/-- Settles O10: the order of values is `cmpVal_spec`, the class `fpClass_eq` and the sign `fpSign_testBit`. -/
theorem fpCompareAndClass : Obligations.FpCompareAndClass := by
  intro s a b d p
  refine ⟨finishFp_flag rfl (flagIf_anySnan ..) (fpEq_iff ..), finishFp_flag rfl (flagIf_anyNan ..) (fpLess_iff ..),
    finishFp_flag rfl (flagIf_anyNan ..) (fpLessEq_iff ..),
    ⟨_, _, finishFp_gives_flags rfl (fpMinMax_flags ..), finishFp_gives_flags rfl (fpMinMax_flags ..),
      fun hx hy => ⟨fpMinMax_nans _ hx hy, fpMinMax_nans _ hx hy⟩, fun hx hy => ⟨fpMinMax_left_nan _ hx hy, fpMinMax_left_nan _ hx hy⟩,
      fun hx hy => ⟨fpMinMax_right_nan _ hx hy, fpMinMax_right_nan _ hx hy⟩, fun hn h => ?_, fun hn h => ?_⟩,
    finishFp_gives (congrArg (finishFp s d · 0) (fpClass_eq (fsrc_lt s p a))), _, finishFp_gives rfl, fun i hi => ?_⟩
  · obtain ⟨hx, hy⟩ := anyNan_eq_false.mp ((Bool.not_eq_true _).mp (mt (anyNan_iff _ _).mp hn))
    exact ⟨fpMinMax_less false hx hy h, fpMinMax_less true hx hy h⟩
  · obtain ⟨hx, hy⟩ := anyNan_eq_false.mp ((Bool.not_eq_true _).mp (mt (anyNan_iff _ _).mp hn))
    have hg := h.imp_right fun ⟨hzx, hzy, hnx, _⟩ => And.intro hzx (And.intro hzy hnx)
    exact ⟨fpMinMax_greater false hx hy hg, fpMinMax_greater true hx hy hg⟩
  · rw [BitVec.getLsbD_ofNat, decide_eq_true hi, Bool.true_and, fpSign_testBit]
    have hw : (pFmt p).width - 1 = (pFmt p).eb + (pFmt p).tb := rfl
    have hlt : (pFmt p).eb + (pFmt p).tb < (pFmt p).width := Nat.lt_succ_self _
    rw [hw]
    split
    · next h => exact fsrc_testBit s p a (h.trans hlt)
    · split
      · next h => exact fsrc_testBit s p b (h ▸ hlt)
      · rfl

end Sys2Proof.Machine
end

section
/-! PROOF. Rounding (O9). A magnitude m · 2^e at the quantum 2^q is the number m · 2^(e−q) of quanta; `roundTo` answers an integer next to it
(`roundTo_rounds`), and the code that `magCode` makes of the integer stands for it (`valQ_code`). -/

namespace Sys2Proof.Machine

/-! ### The number of quanta -/

/-- The magnitude m · 2^e in units of 2^q. -/
def quanta (m : Nat) (e q : Int) : ℚ := m * 2 ^ (e - q)

theorem quanta_of_le (m : Nat) {e q : Int} (h : q ≤ e) : quanta m e q = (m * 2 ^ (e - q).toNat : Nat) := by
  rw [quanta, Nat.cast_mul, Nat.cast_pow, Nat.cast_ofNat, pow_toNat (by omega)]

theorem quanta_of_ge (m : Nat) {e q : Int} (h : e ≤ q) : quanta m e q = m / (2 ^ (q - e).toNat : Nat) := by
  rw [quanta, Nat.cast_pow, Nat.cast_ofNat, pow_toNat (by omega), div_eq_mul_inv, ← zpow_neg, neg_sub]

/-- A multiple of the quantum is not rounded, in any mode. -/
theorem roundTo_exact {m : Nat} {e q : Int} (h : isMultiple m e q = true) (mode r : Nat) (n : Bool) :
    quanta m e q = roundTo mode r n m e q := by
  rw [isMultiple, Bool.or_eq_true, decide_eq_true_eq, beq_iff_eq] at h
  by_cases hq : q ≤ e
  · rw [quanta_of_le m hq, roundTo, if_pos hq]
  · have hm := h.resolve_left hq
    rw [quanta_of_ge m (by omega), roundTo, if_neg hq, if_pos hm]
    exact (quotient_bounds m (Nat.two_pow_pos _).ne').1 hm

/-- What is no multiple of the quantum lies between two of them. -/
structure Between (m : Nat) (e q : Int) (sh : Nat) : Prop where
  shift : sh = (q - e).toNat
  pos : 0 < sh
  rest : m % 2 ^ sh ≠ 0
  number : quanta m e q = m / (2 ^ sh : Nat)
  rounded : ∀ mode r n, roundTo mode r n m e q = if mode = srMode then roundStochastic m sh r else roundShift mode n m sh

theorem between_of_inexact {m : Nat} {e q : Int} (h : isMultiple m e q = false) : Between m e q (q - e).toNat := by
  rw [isMultiple, Bool.or_eq_false_iff, decide_eq_false_iff_not, beq_eq_false_iff_ne] at h
  obtain ⟨hq, hm⟩ := h
  refine ⟨rfl, by omega, hm, quanta_of_ge m (by omega), fun mode r n => ?_⟩
  rw [roundTo, if_neg hq, if_neg hm]

theorem Between.bounds {m : Nat} {e q : Int} {sh : Nat} (h : Between m e q sh) :
    ((m / 2 ^ sh : Nat) : ℚ) < quanta m e q ∧ quanta m e q < (m / 2 ^ sh : Nat) + 1 := by
  rw [h.number]
  exact (quotient_bounds m (Nat.two_pow_pos _).ne').2 h.rest

/-- R83: what is no multiple of the quantum is no number of quanta. -/
theorem quanta_ne_of_inexact {m : Nat} {e q : Int} (h : isMultiple m e q = false) (k : Nat) : quanta m e q ≠ k := by
  obtain ⟨hlo, hhi⟩ := (between_of_inexact h).bounds
  intro hk
  rw [hk] at hlo hhi
  norm_cast at hlo hhi
  omega

/-! ### The modes (R83, R345) -/

/-- R345: `k` is the integer that the mode names for the magnitude `x` with the sign `n`. -/
def Rounds (mode : Nat) (n : Bool) (x : ℚ) (k : Nat) : Prop :=
  (mode = 0 → |x - k| ≤ 1 / 2 ∧ (|x - k| = 1 / 2 → k % 2 = 0))
  ∧ (mode = 1 → (k : ℚ) ≤ x ∧ x < k + 1)
  ∧ (mode = 2 → if n then x ≤ k ∧ (k : ℚ) < x + 1 else (k : ℚ) ≤ x ∧ x < k + 1)
  ∧ (mode = 3 → if n then (k : ℚ) ≤ x ∧ x < k + 1 else x ≤ k ∧ (k : ℚ) < x + 1)

theorem rounds_self (mode : Nat) (n : Bool) {x : ℚ} {k : Nat} (h : x = k) : Rounds mode n x k := by
  subst h
  refine ⟨fun _ => ?_, fun _ => ?_, fun _ => ?_, fun _ => ?_⟩
  · norm_num
  · norm_num
  · cases n <;> norm_num
  · cases n <;> norm_num

/-- A part of `2 * h` units against one half. -/
theorem half_iff (x : Nat) {h : Nat} (hh : 0 < h) :
    ((x : ℚ) / (2 * h : Nat) ≤ 1 / 2 ↔ x ≤ h) ∧ (1 / 2 ≤ (x : ℚ) / (2 * h : Nat) ↔ h ≤ x) := by
  have hd : (0 : ℚ) < (2 * h : Nat) := by exact_mod_cast (by omega : 0 < 2 * h)
  have he : 1 / 2 * ((2 * h : Nat) : ℚ) = h := by push_cast; ring
  rw [div_le_iff₀ hd, le_div_iff₀ hd, he, Nat.cast_le, Nat.cast_le]
  exact ⟨Iff.rfl, Iff.rfl⟩

/-- RNE: nearest, a tie to the even one. -/
theorem roundShift_rne {m sh : Nat} (hs : 0 < sh) (n : Bool) :
    let k := roundShift 0 n m sh
    |(m : ℚ) / (2 ^ sh : Nat) - k| ≤ 1 / 2 ∧ (|(m : ℚ) / (2 ^ sh : Nat) - k| = 1 / 2 → k % 2 = 0) := by
  have hd : 2 ^ sh = 2 * 2 ^ (sh - 1) := by rw [← Nat.pow_succ']; congr 1; omega
  have hh := Nat.two_pow_pos (sh - 1)
  have hk : roundShift 0 n m sh = if m % 2 ^ sh > 2 ^ (sh - 1) ∨ (m % 2 ^ sh = 2 ^ (sh - 1) ∧ m / 2 ^ sh % 2 = 1) then m / 2 ^ sh + 1
      else m / 2 ^ sh := by simp [roundShift, rneMode]
  have hlt : m % 2 ^ sh < 2 ^ sh := Nat.mod_lt _ (Nat.two_pow_pos _)
  have hx : (m : ℚ) / (2 ^ sh : Nat) = (m / 2 ^ sh : Nat) + (m % 2 ^ sh : Nat) / (2 ^ sh : Nat) := by
    have hdm : (m : ℚ) = (2 ^ sh : Nat) * (m / 2 ^ sh : Nat) + (m % 2 ^ sh : Nat) := by exact_mod_cast (Nat.div_add_mod m (2 ^ sh)).symm
    have h0 : ((2 ^ sh : Nat) : ℚ) ≠ 0 := by exact_mod_cast (Nat.two_pow_pos sh).ne'
    conv_lhs => rw [hdm, add_div, mul_div_cancel_left₀ _ h0]
  rw [hd] at hx hk hlt
  obtain ⟨hlo, hhi⟩ := half_iff (m % (2 * 2 ^ (sh - 1))) hh
  have h1 : ((m % (2 * 2 ^ (sh - 1)) : Nat) : ℚ) / (2 * 2 ^ (sh - 1) : Nat) ≤ 1 :=
    (div_le_one (by exact_mod_cast (by omega : 0 < 2 * 2 ^ (sh - 1)))).mpr (by exact_mod_cast hlt.le)
  have h0 : (0 : ℚ) ≤ ((m % (2 * 2 ^ (sh - 1)) : Nat) : ℚ) / (2 * 2 ^ (sh - 1) : Nat) := by positivity
  intro k
  rw [show k = _ from hk, hd, hx]
  split
  · next hup =>
    have habs : |((m / (2 * 2 ^ (sh - 1)) : Nat) : ℚ) + (m % (2 * 2 ^ (sh - 1)) : Nat) / (2 * 2 ^ (sh - 1) : Nat)
        - (m / (2 * 2 ^ (sh - 1)) + 1 : Nat)| = 1 - (m % (2 * 2 ^ (sh - 1)) : Nat) / (2 * 2 ^ (sh - 1) : Nat) := by
      rw [abs_of_nonpos (by push_cast at *; linarith)]; push_cast; ring
    rw [habs]
    refine ⟨by linarith [hhi.mpr (by omega)], fun ht => ?_⟩
    have := hlo.mp (by linarith)
    omega
  · next hdown =>
    rw [add_sub_cancel_left, abs_of_nonneg h0]
    refine ⟨hlo.mpr (by omega), fun ht => ?_⟩
    have := hhi.mp (by linarith)
    omega

theorem roundTo_rounds {mode : Nat} (hmode : mode < 4) (r : Nat) (n : Bool) (m : Nat) (e q : Int) :
    Rounds mode n (quanta m e q) (roundTo mode r n m e q) := by
  cases h : isMultiple m e q with
  | true => exact rounds_self mode n (roundTo_exact h ..)
  | false =>
    have hb := between_of_inexact h
    obtain ⟨hlo, hhi⟩ := hb.bounds
    rw [hb.rounded, if_neg (by unfold srMode; omega)]
    generalize (q - e).toNat = sh at *
    have hdown : ((m / 2 ^ sh : Nat) : ℚ) ≤ quanta m e q ∧ quanta m e q < (m / 2 ^ sh : Nat) + 1 := ⟨hlo.le, hhi⟩
    have hup : quanta m e q ≤ (m / 2 ^ sh + 1 : Nat) ∧ ((m / 2 ^ sh + 1 : Nat) : ℚ) < quanta m e q + 1 := by
      push_cast; exact ⟨hhi.le, by linarith⟩
    refine ⟨?_, ?_, ?_, ?_⟩
    · rintro rfl
      rw [hb.number]
      exact roundShift_rne hb.pos n
    · rintro rfl; exact hdown
    · rintro rfl
      cases n
      · exact hdown
      · exact hup
    · rintro rfl
      cases n
      · exact hup
      · exact hdown

/-- In every mode the integer is one of the two nearest. -/
theorem Rounds.near {mode : Nat} {n : Bool} {x : ℚ} {k : Nat} (h : Rounds mode n x k) (hmode : mode < 4) : x - 1 < k ∧ (k : ℚ) < x + 1 := by
  have down (hk : (k : ℚ) ≤ x ∧ x < k + 1) : x - 1 < k ∧ (k : ℚ) < x + 1 := ⟨by linarith [hk.2], by linarith [hk.1]⟩
  have up (hk : x ≤ k ∧ (k : ℚ) < x + 1) : x - 1 < k ∧ (k : ℚ) < x + 1 := ⟨by linarith [hk.1], hk.2⟩
  obtain ⟨hrne, hrtz, hrdn, hrup⟩ := h
  interval_cases mode
  · have := abs_le.mp (hrne rfl).1
    constructor <;> linarith
  · exact down (hrtz rfl)
  · cases n
    · exact down (hrdn rfl)
    · exact up (hrdn rfl)
  · cases n
    · exact up (hrup rfl)
    · exact down (hrup rfl)

/-- R346: stochastic rounding adds the draw to the magnitude, cut to 2^−16 of a quantum. -/
theorem roundTo_stochastic {draw : Nat} (hd : draw < 2 ^ 16) (n : Bool) (m : Nat) (e q : Int) :
    (roundTo srMode draw n m e q : ℤ) = (⌊quanta m e q * 2 ^ 16⌋ + draw) / 2 ^ 16 := by
  cases h : isMultiple m e q with
  | true =>
    rw [roundTo_exact h srMode draw n]
    have : ⌊(roundTo srMode draw n m e q : ℚ) * 2 ^ 16⌋ = (roundTo srMode draw n m e q : ℤ) * 2 ^ 16 := by
      rw [← Int.cast_natCast, ← Int.floor_intCast (R := ℚ) ((roundTo srMode draw n m e q : ℤ) * 2 ^ 16)]
      push_cast; rfl
    rw [this]
    omega
  | false =>
    have hb := between_of_inexact h
    rw [hb.rounded, if_pos rfl, hb.number]
    generalize (q - e).toNat = sh
    have hcut : ⌊(m : ℚ) / (2 ^ sh : Nat) * 2 ^ 16⌋ = (if sh ≥ 16 then m / 2 ^ (sh - 16) else m * 2 ^ (16 - sh) : Nat) := by
      have hq : (m : ℚ) / (2 ^ sh : Nat) * 2 ^ 16 = (m * 2 ^ 16 : Nat) / (2 ^ sh : Nat) := by push_cast; ring
      rw [hq, Rat.floor_natCast_div_natCast, ← Int.natCast_ediv, Nat.cast_inj]
      split
      · next hs =>
        have hp : 2 ^ sh = 2 ^ (sh - 16) * 2 ^ 16 := by rw [← Nat.pow_add]; congr 1; omega
        rw [hp, Nat.mul_div_mul_right _ _ (by decide)]
      · next hs =>
        have hp : 2 ^ 16 = 2 ^ (16 - sh) * 2 ^ sh := by rw [← Nat.pow_add]; congr 1; omega
        rw [hp, ← Nat.mul_assoc, Nat.mul_div_cancel _ (Nat.two_pow_pos _)]
    rw [hcut, roundStochastic]
    norm_cast

/-! ### Sizes of magnitudes -/

theorem topBit_bounds {m : Nat} (h : m ≠ 0) (e q : Int) :
    (2 : ℚ) ^ (topBit m e - q) ≤ quanta m e q ∧ quanta m e q < 2 ^ (topBit m e - q + 1) := by
  have hp : (0 : ℚ) < 2 ^ (e - q) := by positivity
  have hlo : ((2 ^ Nat.log2 m : Nat) : ℚ) ≤ m := by exact_mod_cast Nat.log2_self_le h
  have hhi : (m : ℚ) < (2 ^ (Nat.log2 m + 1) : Nat) := by exact_mod_cast Nat.lt_log2_self
  have h1 : (2 : ℚ) ^ (topBit m e - q) = (2 ^ Nat.log2 m : Nat) * 2 ^ (e - q) := by
    rw [topBit, add_sub_assoc, zpow_add₀ two_ne_zero]; push_cast; rfl
  have h2 : (2 : ℚ) ^ (topBit m e - q + 1) = (2 ^ (Nat.log2 m + 1) : Nat) * 2 ^ (e - q) := by
    rw [zpow_add_one₀ two_ne_zero, h1]; push_cast; ring
  rw [h1, h2, quanta]
  exact ⟨mul_le_mul_of_nonneg_right hlo hp.le, mul_lt_mul_of_pos_right hhi hp⟩

section
variable {tb : Nat} {emin : Int} {m : Nat} {e : Int}

theorem quantum_ge : emin - tb ≤ quantum tb emin m e := by unfold quantum; omega

/-- At its quantum a magnitude is below two to the number of its bits. -/
theorem quanta_lt (h : m ≠ 0) : quanta m e (quantum tb emin m e) < (2 ^ (tb + 1) : Nat) := by
  refine (topBit_bounds h e _).2.trans_le ?_
  have he : topBit m e - quantum tb emin m e + 1 ≤ (tb + 1 : Nat) := by unfold quantum; omega
  exact (zpow_le_zpow_right₀ (by norm_num) he).trans (by rw [zpow_natCast]; push_cast; rfl)

/-- Above the least quantum a magnitude has its top bit. -/
theorem le_quanta (h : m ≠ 0) (hq : quantum tb emin m e ≠ emin - tb) : ((2 ^ tb : Nat) : ℚ) ≤ quanta m e (quantum tb emin m e) := by
  refine le_trans ?_ (topBit_bounds h e _).1
  have he : topBit m e - quantum tb emin m e = tb := by unfold quantum at *; omega
  rw [he, zpow_natCast]; push_cast; exact le_rfl

/-- The bounds of the rounded integer. -/
theorem roundTo_bounds {mode : Nat} (hmode : mode < 4) (r : Nat) (n : Bool) (h : m ≠ 0) :
    roundTo mode r n m e (quantum tb emin m e) ≤ 2 ^ (tb + 1)
      ∧ (quantum tb emin m e ≠ emin - tb → 2 ^ tb ≤ roundTo mode r n m e (quantum tb emin m e)) := by
  obtain ⟨hlo, hhi⟩ := (roundTo_rounds hmode r n m e (quantum tb emin m e)).near hmode
  refine ⟨?_, fun hq => ?_⟩
  · have : (roundTo mode r n m e (quantum tb emin m e) : ℚ) < (2 ^ (tb + 1) + 1 : Nat) := by
      have := quanta_lt (tb := tb) (emin := emin) (e := e) h
      push_cast at *
      linarith
    exact Nat.lt_succ_iff.mp (by exact_mod_cast this)
  · have : ((2 ^ tb : Nat) : ℚ) < (roundTo mode r n m e (quantum tb emin m e) + 1 : Nat) := by
      have := le_quanta h hq
      push_cast at *
      linarith
    exact Nat.lt_succ_iff.mp (by exact_mod_cast this)

end

/-! ### The value of a code (R336) -/

/-- The fields of a sign and a code below the sign bit. -/
theorem code_fields (f : FpFmt) (n : Bool) {c : Nat} (h : c < f.signBit) : (signOf f n + c) / f.signBit % 2 = (if n then 1 else 0)
    ∧ (signOf f n + c) / 2 ^ f.tb % 2 ^ f.eb = c / 2 ^ f.tb ∧ (signOf f n + c) % 2 ^ f.tb = c % 2 ^ f.tb := by
  have hs : f.signBit = 2 ^ f.tb * 2 ^ f.eb := by rw [FpFmt.signBit, Nat.pow_add, Nat.mul_comm]
  have he : c / 2 ^ f.tb < 2 ^ f.eb := Nat.div_lt_of_lt_mul (hs ▸ h)
  have hc : c / f.signBit = 0 := Nat.div_eq_of_lt h
  cases n with
  | false => simp [signOf, hc, Nat.mod_eq_of_lt he]
  | true =>
    have hp : 0 < f.signBit := Nat.two_pow_pos _
    refine ⟨?_, ?_, ?_⟩
    · rw [signOf, if_pos rfl, Nat.add_div_left _ hp, hc]; rfl
    · rw [signOf, if_pos rfl, hs, Nat.mul_add_div (Nat.two_pow_pos _), Nat.add_mod_left, Nat.mod_eq_of_lt he]
    · rw [signOf, if_pos rfl, hs, Nat.mul_add_mod]

/-- R336: a code below the code of ∞ stands for a finite value. -/
theorem ieeeVal_code (f : FpFmt) (n : Bool) {c : Nat} (h : c < f.infCode) : ieeeVal f false (signOf f n + c) =
    if c / 2 ^ f.tb = 0 then .fin n (c % 2 ^ f.tb) (f.emin - f.tb)
    else .fin n (2 ^ f.tb + c % 2 ^ f.tb) ((c / 2 ^ f.tb : Nat) - f.bias - f.tb) := by
  obtain ⟨hsign, hexp, hfrac⟩ := code_fields f n (c := c) (by have := f.infCode_add; have := Nat.two_pow_pos f.tb; omega)
  have hmax : c / 2 ^ f.tb ≠ 2 ^ f.eb - 1 := (Nat.div_lt_of_lt_mul (by rwa [Nat.mul_comm])).ne
  simp only [ieeeVal, hsign, hexp, hfrac, if_neg hmax]
  cases n <;> rfl

/-- R83: the code of `k` quanta, with the exponent field counted from the least quantum, stands for that number. -/
theorem valQ_code (f : FpFmt) (n : Bool) {x k : Nat} (hk : k ≤ 2 ^ (f.tb + 1)) (hx : x ≠ 0 → 2 ^ f.tb ≤ k)
    (hlt : x * 2 ^ f.tb + k < f.infCode) :
    valQ (ieeeVal f false (signOf f n + (x * 2 ^ f.tb + k))) = sgn n * k * 2 ^ (x + (f.emin - f.tb)) := by
  have hp := Nat.two_pow_pos f.tb
  have hdiv : (x * 2 ^ f.tb + k) / 2 ^ f.tb = x + k / 2 ^ f.tb := by rw [Nat.mul_comm, Nat.mul_add_div hp]
  have hmod : (x * 2 ^ f.tb + k) % 2 ^ f.tb = k % 2 ^ f.tb := by rw [Nat.mul_comm, Nat.mul_add_mod]
  rw [ieeeVal_code f n hlt, hdiv, hmod]
  rw [Nat.pow_succ] at hk
  rcases lt_or_ge k (2 ^ f.tb) with hsmall | hlarge
  · have h0 : x = 0 := by by_contra h; exact absurd (hx h) (by omega)
    rw [h0, Nat.div_eq_of_lt hsmall, if_pos rfl, Nat.mod_eq_of_lt hsmall, valQ_fin, Nat.cast_zero, zero_add]
  · have hne : x + k / 2 ^ f.tb ≠ 0 := by have := Nat.div_pos hlarge hp; omega
    rw [if_neg hne, valQ_fin, FpFmt.emin, mul_assoc, mul_assoc]
    congr 1
    rcases hk.lt_or_eq with hfull | hfull
    · have h1 : k / 2 ^ f.tb = 1 := by rw [Nat.div_eq_iff hp]; omega
      have h2 : 2 ^ f.tb + k % 2 ^ f.tb = k := by have := Nat.mod_add_div k (2 ^ f.tb); rw [h1] at this; omega
      rw [h1, h2]
      congr 2
      push_cast; ring
    · have h1 : k / 2 ^ f.tb = 2 := by rw [hfull, Nat.mul_div_cancel_left _ hp]
      have h2 : k % 2 ^ f.tb = 0 := by rw [hfull, Nat.mul_mod_right]
      have he : ((x + 2 : Nat) : Int) - f.bias - f.tb = x + (1 - f.bias - f.tb) + 1 := by push_cast; ring
      rw [h1, h2, he, hfull, zpow_add_one₀ two_ne_zero]
      push_cast; ring

/-! ### One rounding to a format (R83) -/

/-- The flags of a result in range. -/
theorem rangeFlags_bits (c u : Bool) : (flagIf c fNX ||| flagIf (c && u) fUF).getLsbD 4 = c
    ∧ (flagIf c fNX ||| flagIf (c && u) fUF).getLsbD 2 = false := by cases c <;> cases u <;> decide

theorem needsRounding_iff {tb : Nat} {emin : Int} {m : Nat} {e : Int} (h : m ≠ 0) :
    needsRounding tb emin m e = !isMultiple m e (quantum tb emin m e) := by
  rw [needsRounding, bne_iff_ne.mpr h, Bool.true_and]

/-- R83: NX tells whether the value is no multiple of the quantum. -/
theorem isMultiple_iff (m : Nat) (e q : Int) (mode r : Nat) (n : Bool) : isMultiple m e q = true ↔ quanta m e q = roundTo mode r n m e q := by
  cases h : isMultiple m e q with
  | true => exact iff_of_true rfl (roundTo_exact h ..)
  | false => exact iff_of_false Bool.false_ne_true (quanta_ne_of_inexact h _)

section
variable {f : FpFmt} {mode : Nat} {n : Bool} {m : Nat} {e : Int} (hm : m ≠ 0)
include hm

/-- R83: a rounded magnitude whose code is below that of ∞. -/
theorem ieeeCode_inRange (h : magCode f.tb f.emin mode 0 n m e < f.infCode) :
    (ieeeCode f false mode 0 (.fin n m e)).bits = signOf f n + magCode f.tb f.emin mode 0 n m e
      ∧ ((ieeeCode f false mode 0 (.fin n m e)).flags.getLsbD 4 = true ↔
          quanta m e (quantum f.tb f.emin m e) ≠ roundTo mode 0 n m e (quantum f.tb f.emin m e))
      ∧ (ieeeCode f false mode 0 (.fin n m e)).flags.getLsbD 2 = false := by
  simp only [ieeeCode, if_neg hm, if_neg (Nat.not_le.mpr h), Bool.false_and, Bool.false_eq_true, if_false, needsRounding_iff hm]
  obtain ⟨hnx, hof⟩ := rangeFlags_bits (!isMultiple m e (quantum f.tb f.emin m e)) (isTiny f.tb f.emin mode 0 n m e)
  refine ⟨trivial, ?_, hof⟩
  rw [hnx, Bool.not_eq_true', ← Bool.not_eq_true, isMultiple_iff m e _ mode 0 n]

/-- R83: a rounded magnitude whose code is not: ∞ or the largest finite magnitude, as the mode says. -/
theorem ieeeCode_overflow (hmode : mode < 4) (h : f.infCode ≤ magCode f.tb f.emin mode 0 n m e) :
    (ieeeCode f false mode 0 (.fin n m e)).flags = 20 ∧ (ieeeCode f false mode 0 (.fin n m e)).bits = signOf f n +
      if mode = 0 ∨ mode = 3 ∧ n = false ∨ mode = 2 ∧ n = true then f.infCode else f.infCode - 1 := by
  have hinf : (mode == rneMode || mode == srMode || (mode == rupMode && !n) || (mode == rdnMode && n)) = true ↔
      (mode = 0 ∨ mode = 3 ∧ n = false ∨ mode = 2 ∧ n = true) := by
    have hsr : (mode == srMode) = false := beq_false_of_ne (by unfold srMode; omega)
    simp [hsr, rneMode, rupMode, rdnMode, or_assoc]
  simp only [ieeeCode, if_neg hm, ge_iff_le, if_pos h, hinf]
  exact ⟨rfl, trivial⟩

/-- R83: the value of a result in range is the rounded number of quanta. -/
theorem valQ_inRange (hmode : mode < 4) (h : magCode f.tb f.emin mode 0 n m e < f.infCode) :
    valQ (ieeeVal f false (ieeeCode f false mode 0 (.fin n m e)).bits) =
      sgn n * roundTo mode 0 n m e (quantum f.tb f.emin m e) * 2 ^ quantum f.tb f.emin m e := by
  have hq := quantum_ge (tb := f.tb) (emin := f.emin) (m := m) (e := e)
  obtain ⟨hle, hge⟩ := roundTo_bounds (tb := f.tb) (emin := f.emin) (e := e) hmode 0 n hm
  rw [(ieeeCode_inRange hm h).1, magCode, valQ_code f n hle (fun hx => hge (by omega)) h]
  congr 2
  omega

end

theorem roundingModes : RoundingModes := by
  intro f mode m n e hf hmode hm
  exact ⟨fun draw hd => roundTo_stochastic hd n m e _, roundTo_rounds hmode 0 n m e _,
    fun h => ⟨valQ_inRange hm hmode h, (ieeeCode_inRange hm h).2⟩, ieeeCode_overflow hm hmode⟩

/-! ### Rounding to an integer in the same format (R88) -/

/-- R336: the range of a finite value of a format. -/
theorem ieeeVal_range {f : FpFmt} (hf : f.Ok) {flush : Bool} {x : Nat} {n : Bool} {m : Nat} {e : Int} (h : ieeeVal f flush x = .fin n m e) :
    m < 2 ^ (f.tb + 1) ∧ e + f.tb ≤ f.bias := by
  have ht : x % 2 ^ f.tb < 2 ^ f.tb := Nat.mod_lt _ (Nat.two_pow_pos _)
  have he : x / 2 ^ f.tb % 2 ^ f.eb < 2 ^ f.eb := Nat.mod_lt _ (Nat.two_pow_pos _)
  have hb : ((2 ^ f.eb : Nat) : Int) = 2 * f.bias + 2 := by rw [← hf.bias]; push_cast; rfl
  have htb := hf.tb
  have hwide := hf.wide
  rw [Nat.pow_succ]
  simp only [ieeeVal] at h
  split at h
  · split at h <;> cases h
  · split at h
    · cases h
      refine ⟨by split <;> omega, ?_⟩
      rw [FpFmt.emin]
      omega
    · cases h
      exact ⟨by omega, by omega⟩

section
variable {f : FpFmt} (hf : f.Ok)
include hf

/-- R88: rounding a value of a format to an integer gives an integer of at most `tb + 1` bits and some zeros. -/
theorem roundTo_integer {mode : Nat} (hmode : mode < 4) (n : Bool) {m : Nat} {e : Int} (hm : m < 2 ^ (f.tb + 1)) (he : e + f.tb ≤ f.bias) :
    ∃ m' j : Nat, roundTo mode 0 n m e 0 = m' * 2 ^ j ∧ m' < 2 ^ (f.tb + 1) ∧ (j + f.tb : Int) ≤ f.bias := by
  have hwide := hf.wide
  by_cases h0 : 0 ≤ e
  · refine ⟨m, e.toNat, ?_, hm, by omega⟩
    rw [roundTo, if_pos h0, sub_zero]
  · refine ⟨roundTo mode 0 n m e 0, 0, (Nat.mul_one _).symm, ?_, by omega⟩
    have hnear := ((roundTo_rounds hmode 0 n m e 0).near hmode).2
    have hhalf : (2 : ℚ) ^ e ≤ 2⁻¹ := by
      rw [← zpow_neg_one]; exact zpow_le_zpow_right₀ (by norm_num) (by omega)
    have hmq : (m : ℚ) < 2 ^ f.tb * 2 := by rw [← pow_succ]; exact_mod_cast hm
    have hx : quanta m e 0 < 2 ^ f.tb := by
      rw [quanta, sub_zero]
      calc (m : ℚ) * 2 ^ e ≤ m * 2⁻¹ := mul_le_mul_of_nonneg_left hhalf (Nat.cast_nonneg _)
        _ < 2 ^ f.tb := by linarith
    have hk : (roundTo mode 0 n m e 0 : ℚ) < (2 ^ f.tb + 1 : Nat) := by push_cast; linarith
    have hk' : roundTo mode 0 n m e 0 < 2 ^ f.tb + 1 := by exact_mod_cast hk
    have := Nat.two_pow_pos f.tb
    have htb : 2 ^ f.tb ≠ 1 := (Nat.one_lt_two_pow (by have := hf.tb; omega)).ne'
    rw [Nat.pow_succ]
    omega

/-- Such an integer is a multiple of its quantum, and below ∞. -/
theorem integer_inFormat {m j : Nat} (hm : m < 2 ^ (f.tb + 1)) (hj : (j + f.tb : Int) ≤ f.bias) (h0 : m * 2 ^ j ≠ 0) (n : Bool) :
    isMultiple (m * 2 ^ j) 0 (quantum f.tb f.emin (m * 2 ^ j) 0) = true
      ∧ magCode f.tb f.emin rneMode 0 n (m * 2 ^ j) 0 < f.infCode := by
  have hlog : Nat.log2 (m * 2 ^ j) < f.tb + 1 + j := by
    rw [Nat.log2_lt h0, Nat.pow_add]
    exact Nat.mul_lt_mul_of_pos_right hm (Nat.two_pow_pos _)
  have hb := hf.bias
  have htb := hf.tb
  have hwide := hf.wide
  have hq : quantum f.tb f.emin (m * 2 ^ j) 0 = max (Nat.log2 (m * 2 ^ j) : Int) (1 - f.bias) - f.tb := by
    rw [quantum, topBit, add_zero]; rfl
  have hmul : isMultiple (m * 2 ^ j) 0 (quantum f.tb f.emin (m * 2 ^ j) 0) = true := by
    rw [isMultiple, Bool.or_eq_true, decide_eq_true_eq, beq_iff_eq, sub_zero]
    exact .inr (Nat.mod_eq_zero_of_dvd (Dvd.dvd.mul_left (pow_dvd_pow 2 (by omega)) m))
  refine ⟨hmul, ?_⟩
  have hk : roundTo rneMode 0 n (m * 2 ^ j) 0 (quantum f.tb f.emin (m * 2 ^ j) 0) < 2 ^ (f.tb + 1) := by
    have := quanta_lt (tb := f.tb) (emin := f.emin) (e := 0) h0
    rw [roundTo_exact hmul rneMode 0 n] at this
    exact_mod_cast this
  have hx : (quantum f.tb f.emin (m * 2 ^ j) 0 - (f.emin - f.tb)).toNat + 2 ≤ 2 ^ f.eb - 1 := by
    have : ((2 ^ f.eb : Nat) : Int) = 2 * f.bias + 2 := by push_cast; exact hb
    rw [hq, FpFmt.emin]
    omega
  calc magCode f.tb f.emin rneMode 0 n (m * 2 ^ j) 0
      < (quantum f.tb f.emin (m * 2 ^ j) 0 - (f.emin - f.tb)).toNat * 2 ^ f.tb + 2 ^ (f.tb + 1) := Nat.add_lt_add_left hk _
    _ = ((quantum f.tb f.emin (m * 2 ^ j) 0 - (f.emin - f.tb)).toNat + 2) * 2 ^ f.tb := by rw [Nat.pow_succ', Nat.add_mul]
    _ ≤ f.infCode := Nat.mul_le_mul_right _ hx

theorem valQ_signOf (n : Bool) : valQ (ieeeVal f false (signOf f n)) = 0 := by
  have heb : 2 ^ 2 ≤ 2 ^ f.eb := Nat.pow_le_pow_right (by decide) hf.eb
  have hpos : 0 < f.infCode := Nat.mul_pos (by omega) (Nat.two_pow_pos _)
  have := ieeeVal_code f n hpos
  rw [Nat.add_zero, Nat.zero_div, if_pos rfl, Nat.zero_mod] at this
  rw [this, valQ_fin, Nat.cast_zero, mul_zero, zero_mul]

/-- R88: the code of an integer in the format. -/
theorem valQ_integer (n : Bool) {m j : Nat} (hm : m < 2 ^ (f.tb + 1)) (hj : (j + f.tb : Int) ≤ f.bias) :
    valQ (ieeeVal f false (ieeeCode f false rneMode 0 (.fin n (m * 2 ^ j) 0)).bits) = sgn n * (m * 2 ^ j : Nat) := by
  by_cases h0 : m * 2 ^ j = 0
  · rw [h0, Nat.cast_zero, mul_zero]
    exact valQ_signOf hf n
  · obtain ⟨hmul, hlt⟩ := integer_inFormat hf hm hj h0 n
    rw [valQ_inRange h0 (by decide) hlt, ← roundTo_exact hmul, quanta, mul_assoc, mul_assoc, ← zpow_add₀ two_ne_zero]
    simp

end

theorem roundMode_lt (x : Word) : roundMode x < 4 := Nat.mod_lt _ (by decide)

theorem fpRound_fin {fpmode : Word} {f : FpFmt} {x : Nat} {n : Bool} {m : Nat} {e : Int} (h : unpack fpmode f x = .fin n m e) :
    fpRound fpmode f x = ⟨(ieeeCode f false rneMode 0 (.fin n (roundTo (roundMode fpmode) 0 n m e 0) 0)).bits, 0⟩ := by
  have hk : (if e ≥ 0 then m * 2 ^ e.toNat else roundTo (roundMode fpmode) 0 n m e 0) = roundTo (roundMode fpmode) 0 n m e 0 := by
    split
    · next he => rw [roundTo, if_pos he, sub_zero]
    · rfl
  simp only [fpRound, h, hk]

theorem fpRoundToIntegral : FpRoundToIntegral := by
  intro s a d p f mode
  have hf : f.Ok := pFmt_ok p
  have hgives : GivesFp (.fround a d p) s d (BitVec.ofNat 64 (fpRound (fpmode s) f (fsrc s p a)).bits) (fpRound (fpmode s) f (fsrc s p a)).flags :=
    finishFp_gives rfl
  cases hv : unpack (fpmode s) f (fsrc s p a) with
  | nan sig =>
    have hr : fpRound (fpmode s) f (fsrc s p a) = ieeeCode f false 0 0 (.nan sig) := by simp only [fpRound, hv]; rfl
    rw [hr] at hgives
    exact ⟨_, _, hgives, ieeeCode_bits_lt hf .., rfl, rfl⟩
  | inf n =>
    have hr : fpRound (fpmode s) f (fsrc s p a) = ieeeCode f false 0 0 (.inf n) := by simp only [fpRound, hv]; rfl
    rw [hr] at hgives
    exact ⟨_, _, hgives, ieeeCode_bits_lt hf .., rfl, rfl⟩
  | fin n m e =>
    rw [fpRound_fin hv] at hgives
    obtain ⟨hm, he⟩ := ieeeVal_range hf hv
    obtain ⟨m', j, hk, hm', hj⟩ := roundTo_integer hf (roundMode_lt _) n hm he
    refine ⟨_, _, hgives, ieeeCode_bits_lt hf .., rfl, ?_, fun _ => ?_⟩
    · rintro rfl
      have : roundTo (roundMode (fpmode s)) 0 n 0 e 0 = 0 := by simp [roundTo]
      rw [this]; rfl
    · exact (hk ▸ valQ_integer hf n hm' hj :)

/-- Settles O9: rounding picks an integer of quanta next to the magnitude, whose code stands for it; an integer of a format is itself such
a number of quanta. -/
theorem roundingToFormats : Obligations.RoundingToFormats := ⟨roundingModes, fpRoundToIntegral⟩

end Sys2Proof.Machine
end

section
/-! PROOF. Scalar conversions (O11). To an integer: the rounded integer, held within the ends of the type (`intOut`), which the register
word stands for. To a floating-point type: one rounding of the value, as in O8, with a draw for .hf and .bf under stochastic rounding. -/

namespace Sys2Proof.Machine

/-! ### Integers of `n` bits -/

/-- The magnitude of the least integer of a type. -/
def lowEnd (n : Nat) (signed : Bool) : Nat := if signed then 2 ^ (n - 1) else 0

/-- The greatest integer of a type. -/
def highEnd (n : Nat) (signed : Bool) : Nat := if signed then 2 ^ (n - 1) - 1 else 2 ^ n - 1

theorem lowEnd_le (n : Nat) (signed : Bool) : lowEnd n signed ≤ 2 ^ n := by
  cases signed with
  | false => exact Nat.zero_le _
  | true => exact Nat.pow_le_pow_right (by decide) (Nat.sub_le n 1)

theorem highEnd_lt (n : Nat) (signed : Bool) : highEnd n signed < 2 ^ n := by
  have hle : 2 ^ (n - 1) ≤ 2 ^ n := Nat.pow_le_pow_right (by decide) (Nat.sub_le n 1)
  have hpos := Nat.two_pow_pos (n - 1)
  cases signed <;> simp only [highEnd, Bool.false_eq_true, if_true, if_false] <;> omega

/-- The rounded integer of a finite value, with its sign. -/
def roundedInt (mode : Nat) (n : Bool) (m : Nat) (e : Int) : Int := (if n then -1 else 1) * (roundTo mode 0 n m e 0 : Int)

/-- R89: the integer that a conversion gives, and its flags. -/
def intOut (bot top : Int) (mode : Nat) : Val → Int × Flags
  | .nan _ => (0, fNV)
  | .inf n => (if n then bot else top, fNV)
  | .fin n m e =>
    if roundedInt mode n m e < bot then (bot, fNV)
    else if top < roundedInt mode n m e then (top, fNV)
    else (roundedInt mode n m e, flagIf (m != 0 && !isMultiple m e 0) fNX)

theorem intOut_mem {bot top : Int} (hb : bot ≤ 0) (ht : 0 ≤ top) (mode : Nat) (v : Val) :
    bot ≤ (intOut bot top mode v).1 ∧ (intOut bot top mode v).1 ≤ top := by
  cases v with
  | nan s => exact ⟨hb, ht⟩
  | inf n => cases n <;> simp [intOut] <;> omega
  | fin n m e =>
    simp only [intOut]
    split
    · exact ⟨le_rfl, by omega⟩
    · split
      · exact ⟨by omega, le_rfl⟩
      · exact ⟨by omega, by omega⟩

/-- An integer as `n` bits. -/
theorem toNat_emod_neg {n b : Nat} (h : b ≤ 2 ^ n) : (-(b : Int) % 2 ^ n).toNat = (2 ^ n - b) % 2 ^ n := by
  have : (-(b : Int)) % 2 ^ n = ((2 ^ n - b) % 2 ^ n : Nat) := by
    rw [← Int.add_emod_right]
    push_cast [h]
    congr 1
    ring
  rw [this, Int.toNat_natCast]

theorem toNat_emod_of_lt {n b : Nat} (h : b < 2 ^ n) : ((b : Int) % 2 ^ n).toNat = b := by
  have : (b : Int) % 2 ^ n = b := Int.emod_eq_of_lt (Int.natCast_nonneg b) (by exact_mod_cast h)
  rw [this, Int.toNat_natCast]

/-- R89: `intCode` gives the bits of that integer. -/
theorem intCode_eq (n : Nat) (signed : Bool) (mode : Nat) (v : Val) : intCode n signed mode v =
    ⟨((intOut (-(lowEnd n signed : Int)) (highEnd n signed) mode v).1 % 2 ^ n).toNat,
      (intOut (-(lowEnd n signed : Int)) (highEnd n signed) mode v).2⟩ := by
  have hlow := toNat_emod_neg (lowEnd_le n signed)
  have hhigh := toNat_emod_of_lt (highEnd_lt n signed)
  cases v with
  | nan s => simp [intCode, intOut]
  | inf s =>
    cases s with
    | true => simp only [intOut, if_true, hlow]; rfl
    | false => simp only [intOut, Bool.false_eq_true, if_false, hhigh]; rfl
  | fin s m e =>
    cases s with
    | true =>
      have hk : roundedInt mode true m e = -(roundTo mode 0 true m e 0 : Int) := by rw [roundedInt, if_pos rfl, neg_one_mul]
      have hcode : intCode n signed mode (.fin true m e) =
          if roundTo mode 0 true m e 0 > lowEnd n signed then ⟨(2 ^ n - lowEnd n signed) % 2 ^ n, fNV⟩
          else ⟨(2 ^ n - roundTo mode 0 true m e 0) % 2 ^ n, flagIf (m != 0 && !isMultiple m e 0) fNX⟩ := by
        simp [intCode, lowEnd]
      rw [hcode]
      simp only [intOut, hk]
      split
      · rw [if_pos (by omega), hlow]
      · next hle =>
        rw [if_neg (by omega), if_neg (by omega), toNat_emod_neg (by have := lowEnd_le n signed; omega)]
    | false =>
      have hk : roundedInt mode false m e = roundTo mode 0 false m e 0 := by rw [roundedInt, if_neg Bool.false_ne_true, one_mul]
      have hcode : intCode n signed mode (.fin false m e) =
          if roundTo mode 0 false m e 0 > highEnd n signed then ⟨highEnd n signed, fNV⟩
          else ⟨roundTo mode 0 false m e 0, flagIf (m != 0 && !isMultiple m e 0) fNX⟩ := by
        simp [intCode, highEnd]
      rw [hcode]
      simp only [intOut, hk]
      split
      · rw [if_neg (by omega), if_pos (by omega), hhigh]
      · next hle =>
        rw [if_neg (by omega), if_neg (by omega), toNat_emod_of_lt (by have := highEnd_lt n signed; omega)]

/-! ### The register word (R89) -/

/-- The least and the greatest integer of a type of `fcvt`. -/
def intBot : STy → Int
  | .w => - 2 ^ 31 | .wz => 0 | .dz => 0 | _ => - 2 ^ 63
def intTop : STy → Int
  | .w => 2 ^ 31 - 1 | .wz => 2 ^ 32 - 1 | .dz => 2 ^ 64 - 1 | _ => 2 ^ 63 - 1

theorem sx32_ofNat_emod {z : Int} (hlo : -2 ^ 31 ≤ z) (hhi : z ≤ 2 ^ 31 - 1) : sx32 (BitVec.ofNat 32 (z % 2 ^ 32).toNat) = BitVec.ofInt 64 z := by
  have hz : BitVec.ofNat 32 (z % 2 ^ 32).toNat = BitVec.ofInt 32 z := by
    apply BitVec.eq_of_toNat_eq
    rw [BitVec.toNat_ofNat, BitVec.toNat_ofInt]
    omega
  rw [sx32, hz, BitVec.signExtend, BitVec.toInt_ofInt, Int.bmod_eq_of_le (by omega) (by omega)]

theorem ofNat_emod_64 (z : Int) : BitVec.ofNat 64 (z % 2 ^ 64).toNat = BitVec.ofInt 64 z := by
  apply BitVec.eq_of_toNat_eq
  rw [BitVec.toNat_ofNat, BitVec.toNat_ofInt]
  omega

theorem ofNat_emod_32 {z : Int} (hlo : 0 ≤ z) (hhi : z ≤ 2 ^ 32 - 1) : BitVec.ofNat 64 (z % 2 ^ 32).toNat = BitVec.ofInt 64 z := by
  rw [Int.emod_eq_of_lt hlo (by omega), ← Int.emod_eq_of_lt (b := 2 ^ 64) hlo (by omega), ofNat_emod_64, Int.emod_eq_of_lt hlo (by omega)]

/-- R89: what `fcvt` to an integer type hands to the register and to the flags. -/
theorem cvtOut_int {t : STy} (ht : sFlt t = none) (fpmode rng : Word) (v : Val) :
    (cvtOut fpmode rng t v).1 = rng
    ∧ BitVec.ofNat 64 (cvtOut fpmode rng t v).2.bits = BitVec.ofInt 64 (intOut (intBot t) (intTop t) (roundMode fpmode) v).1
    ∧ (cvtOut fpmode rng t v).2.flags = (intOut (intBot t) (intTop t) (roundMode fpmode) v).2 := by
  have hmem (hb : intBot t ≤ 0) (hp : 0 ≤ intTop t) := intOut_mem hb hp (roundMode fpmode) v
  cases t with
  | sf => cases ht
  | df => cases ht
  | hf => cases ht
  | bf => cases ht
  | w =>
    obtain ⟨hlo, hhi⟩ := hmem (by decide) (by decide)
    refine ⟨rfl, ?_, congrArg Coded.flags (intCode_eq 32 true _ v)⟩
    have hbits := congrArg Coded.bits (intCode_eq 32 true (roundMode fpmode) v)
    exact (BitVec.eq_of_toNat_eq (Nat.mod_eq_of_lt (BitVec.isLt _))).trans
      ((congrArg (fun b => sx32 (BitVec.ofNat 32 b)) hbits).trans (sx32_ofNat_emod hlo hhi))
  | wz =>
    obtain ⟨hlo, hhi⟩ := hmem (by decide) (by decide)
    refine ⟨rfl, ?_, congrArg Coded.flags (intCode_eq 32 false _ v)⟩
    exact (congrArg (fun c : Coded => BitVec.ofNat 64 c.bits) (intCode_eq 32 false (roundMode fpmode) v)).trans (ofNat_emod_32 hlo hhi)
  | d =>
    refine ⟨rfl, ?_, congrArg Coded.flags (intCode_eq 64 true _ v)⟩
    exact (congrArg (fun c : Coded => BitVec.ofNat 64 c.bits) (intCode_eq 64 true (roundMode fpmode) v)).trans (ofNat_emod_64 _)
  | dz =>
    refine ⟨rfl, ?_, congrArg Coded.flags (intCode_eq 64 false _ v)⟩
    exact (congrArg (fun c : Coded => BitVec.ofNat 64 c.bits) (intCode_eq 64 false (roundMode fpmode) v)).trans (ofNat_emod_64 _)

/-- A conversion that leaves the generator alone. -/
theorem fcvt_gives {s : State} {a : Src} {d : Dest} {t y : STy}
    (h : (cvtOut (fpmode s) (coreAt s (coreOf s.cur)).rng t (cvtVal (fpmode s) y (src s a))).1 = (coreAt s (coreOf s.cur)).rng) :
    GivesFp (.fcvt a d t y) s d
      (BitVec.ofNat 64 (cvtOut (fpmode s) (coreAt s (coreOf s.cur)).rng t (cvtVal (fpmode s) y (src s a))).2.bits)
      (cvtOut (fpmode s) (coreAt s (coreOf s.cur)).rng t (cvtVal (fpmode s) y (src s a))).2.flags :=
  finishFp_gives (congrArg (fun z => finishFp z d _ _) (if_pos h))

theorem fcvt_int {t : STy} (ht : sFlt t = none) (s : State) (a : Src) (d : Dest) (y : STy) :
    GivesFp (.fcvt a d t y) s d
      (BitVec.ofInt 64 (intOut (intBot t) (intTop t) (roundMode (fpmode s)) (cvtVal (fpmode s) y (src s a))).1)
      (intOut (intBot t) (intTop t) (roundMode (fpmode s)) (cvtVal (fpmode s) y (src s a))).2 := by
  obtain ⟨hrng, hbits, hflags⟩ := cvtOut_int ht (fpmode s) (coreAt s (coreOf s.cur)).rng (cvtVal (fpmode s) y (src s a))
  rw [← hbits, ← hflags]
  exact fcvt_gives hrng

/-- R89: NX tells whether the value is no integer. -/
theorem flagIf_inexact (mode : Nat) (n : Bool) (m : Nat) (e : Int) :
    flagIf (m != 0 && !isMultiple m e 0) fNX = if valQ (.fin n m e) = roundedInt mode n m e then 0 else 16 := by
  have hv : valQ (.fin n m e) = sgn n * quanta m e 0 := by rw [valQ_fin, quanta, sub_zero, mul_assoc]
  have hr : (roundedInt mode n m e : ℚ) = sgn n * roundTo mode 0 n m e 0 := by cases n <;> simp [roundedInt, sgn]
  have hs : sgn n ≠ 0 := by cases n <;> norm_num [sgn]
  have hint : valQ (.fin n m e) = roundedInt mode n m e ↔ isMultiple m e 0 = true := by
    rw [hv, hr, mul_right_inj' hs, isMultiple_iff m e 0 mode 0 n]
  have hzero : isMultiple m e 0 = false → m ≠ 0 := by rintro h rfl; simp [isMultiple] at h
  simp only [hint]
  cases h : isMultiple m e 0 with
  | true => rw [Bool.not_true, Bool.and_false]; rfl
  | false => rw [bne_iff_ne.mpr (hzero h)]; rfl

/-! ### The generator (R346) -/

theorem eq_zero_of_shiftLeft {x : Word} {k : Nat} (hk : 0 < k) (h : x <<< k = x) : x = 0 := by
  have hall (n : Nat) : x <<< (k * n) = x := by
    induction n with
    | zero => exact BitVec.shiftLeft_zero x
    | succ n ih => rw [Nat.mul_succ, BitVec.shiftLeft_add, ih, h]
  rw [← hall 64]
  exact BitVec.shiftLeft_eq_zero (by omega)

theorem eq_zero_of_ushiftRight {x : Word} {k : Nat} (hk : 0 < k) (h : x >>> k = x) : x = 0 := by
  have hn : x.toNat / 2 ^ k = x.toNat := by rw [← Nat.shiftRight_eq_div_pow, ← BitVec.toNat_ushiftRight, h]
  by_contra hx
  have hpos : 0 < x.toNat := Nat.pos_of_ne_zero fun h0 => hx (BitVec.eq_of_toNat_eq h0)
  exact absurd hn (Nat.div_lt_self hpos (Nat.one_lt_two_pow (by omega))).ne

/-- R346: the generator never falls to zero. -/
theorem xorshift_eq_zero {x : Word} (h : xorshift x = 0) : x = 0 :=
  eq_zero_of_shiftLeft (by decide) (BitVec.xor_eq_zero_iff.mp
    (eq_zero_of_ushiftRight (by decide) (BitVec.xor_eq_zero_iff.mp
      (eq_zero_of_shiftLeft (by decide) (BitVec.xor_eq_zero_iff.mp h).symm)).symm)).symm

/-- The state after the generator of a core has advanced. -/
def advanced (s : State) (core : Nat) : State :=
  if xorshift (coreAt s core).rng = (coreAt s core).rng then s else setRng s core (xorshift (coreAt s core).rng)

section
variable (s : State) (core : Nat)

theorem advanced_rng : (coreAt (advanced s core) core).rng = xorshift (coreAt s core).rng := by
  unfold advanced
  split
  · next h => exact h.symm
  · next h =>
    have hne : xorshift (coreAt s core).rng ≠ 0 := fun h0 => h (by rw [h0, xorshift_eq_zero h0])
    simp only [setRng, coreAt_modCore, if_neg hne]

theorem advanced_other {k : Nat} (h : k ≠ core) : coreAt (advanced s core) k = coreAt s k := by
  unfold advanced
  split
  · rfl
  · exact coreAt_modCore_other s _ h

theorem me_advanced : me (advanced s core) = me s := by unfold advanced; split <;> rfl
theorem cur_advanced : (advanced s core).cur = s.cur := by unfold advanced; split <;> rfl
theorem mem_advanced : (advanced s core).mem = s.mem := by unfold advanced; split <;> rfl
theorem ctxAt_advanced (l : Nat) : ctxAt (advanced s core) l = ctxAt s l := by unfold advanced; split <;> rfl

end

/-! ### To a floating-point type (R89, R345) -/

/-- The format of a floating-point type of `fcvt`. -/
def cvtFmt : ETy → FpFmt
  | .hf => fmtHf | .bf => fmtBf | .sf => fmtSf | _ => fmtDf

/-- R345: the result of `fcvt` is rounded stochastically. -/
def Stochastic (fpmode : Word) (e : ETy) : Prop := srOn fpmode = true ∧ (e = .hf ∨ e = .bf)

section
variable {t : STy} {e : ETy} (ht : sFlt t = some e)
include ht

theorem eCode_cvtFmt (fpmode : Word) (mode r : Nat) (v : Val) :
    eCode fpmode true false e mode r v = ieeeCode (cvtFmt e) (flushes fpmode (cvtFmt e)) mode r v := by
  cases t <;> cases ht <;> rfl

theorem srDest_iff (fpmode : Word) : srDest fpmode e = true ↔ Stochastic fpmode e := by
  cases t <;> cases ht <;> simp [srDest, srShape, Stochastic]

theorem cvtOut_plain {fpmode : Word} (h : ¬ Stochastic fpmode e) (rng : Word) (v : Val) :
    cvtOut fpmode rng t v = (rng, ieeeCode (cvtFmt e) (flushes fpmode (cvtFmt e)) (roundMode fpmode) 0 v) := by
  rw [← srDest_iff ht] at h
  simp only [cvtOut, ht, if_neg h, convert, eCode_cvtFmt ht]

theorem cvtOut_drawn {fpmode : Word} (h : Stochastic fpmode e) (rng : Word) (v : Val) :
    cvtOut fpmode rng t v =
      (xorshift rng, ieeeCode (cvtFmt e) (flushes fpmode (cvtFmt e)) srMode ((xorshift rng).toNat / 2 ^ 48) v) := by
  have hdraw : drawBits (xorshift rng) = (xorshift rng).toNat / 2 ^ 48 := Nat.mod_eq_of_lt (by have := (xorshift rng).isLt; omega)
  rw [← srDest_iff ht] at h
  simp only [cvtOut, ht, if_pos h, convertDraw, eCode_cvtFmt ht, hdraw]

end

/-- `finishFp` is one push that sets flags, in any state. -/
theorem finishFp_next (s : State) (d : Dest) (x : Nat) (f : Flags) :
    ∃ t, finishFp s d x f = .next t ∧ Pushed (me s).regs (me t).regs d (BitVec.ofNat 64 x) ∧ (me t).regs.pc = (me s).regs.pc + 4
      ∧ Ran s t (me t).regs { (me s).ctl with fpflags := (me s).ctl.fpflags ||| f.setWidth 64 } := by
  refine ⟨_, rfl, ?_, ?_, onlyMe_modMe s _, rfl, ?_, ?_, ?_⟩
  · simp only [me_modMe, stepped]; exact vpush_pushed _ _ _ _
  · simp only [me_modMe, stepped]; cases d <;> rfl
  all_goals simp [stepped, orFlags]

theorem OnlyMe.core {s t : State} (h : OnlyMe s t) (k : Nat) : coreAt t k = coreAt s k := by rw [h.rest]; rfl

/-- Settles O11: an integer type takes the rounded integer within its ends, a floating-point type one rounding; a draw advances the
generator, which is never zero. -/
theorem convertScalar : Obligations.ConvertScalar := by
  intro s a d t y v mode core
  cases ht : sFlt t with
  | none =>
    have hgives := fcvt_int ht s a d y
    change GivesFp _ s d (BitVec.ofInt 64 (intOut (intBot t) (intTop t) mode v).1) (intOut (intBot t) (intTop t) mode v).2 at hgives
    generalize v = v' at hgives ⊢
    cases v' with
    | nan sig => exact hgives
    | inf n => exact hgives
    | fin n m e =>
      simp only [intOut, flagIf_inexact mode n] at hgives
      change if roundedInt mode n m e < intBot t then GivesFp _ s d (BitVec.ofInt 64 (intBot t)) 1
        else if intTop t < roundedInt mode n m e then GivesFp _ s d (BitVec.ofInt 64 (intTop t)) 1
        else GivesFp _ s d (BitVec.ofInt 64 (roundedInt mode n m e)) (if valQ (.fin n m e) = roundedInt mode n m e then 0 else 16)
      split
      · next hlow => rwa [if_pos hlow] at hgives
      · next hlow =>
        rw [if_neg hlow] at hgives
        split
        · next hhigh => rwa [if_pos hhigh] at hgives
        · next hhigh => rwa [if_neg hhigh] at hgives
  | some e =>
    refine ⟨fun h => ?_, fun h => ?_⟩
    · have hout := cvtOut_plain ht h (coreAt s core).rng v
      have hgives := fcvt_gives (s := s) (a := a) (d := d) (t := t) (y := y) (congrArg Prod.fst hout)
      rw [show cvtOut _ _ _ _ = _ from hout] at hgives
      exact hgives
    · have hout := cvtOut_drawn ht h (coreAt s core).rng v
      obtain ⟨u, hu, hpush, hpc, hran⟩ := finishFp_next (advanced s core) d
        (ieeeCode (cvtFmt e) (flushes (fpmode s) (cvtFmt e)) srMode ((xorshift (coreAt s core).rng).toNat / 2 ^ 48) v).bits
        (ieeeCode (cvtFmt e) (flushes (fpmode s) (cvtFmt e)) srMode ((xorshift (coreAt s core).rng).toNat / 2 ^ 48) v).flags
      have hexec : exec (.fcvt a d t y) s = .next u := by
        rw [← hu]
        change execFcvt a d t y s = _
        simp only [execFcvt]
        rw [show cvtOut _ _ _ _ = _ from hout]
        rfl
      rw [me_advanced] at hpush hpc hran
      have hchunk := hran.chunk
      rw [me_advanced] at hchunk
      refine ⟨u, hexec, hpush, hpc, hran.ctl, hchunk, ?_, fun k hk => ?_, fun k => ?_, fun l hl => ?_⟩
      · rw [hran.outside.core, advanced_rng]
      · rw [hran.outside.core, advanced_other s core hk]
      · rw [hran.outside.memory, mem_advanced]
      · rw [hran.outside.contexts l (by rwa [cur_advanced]), ctxAt_advanced]

end Sys2Proof.Machine
end

section
/-! PROOF. The end, hold, squash and resumption of chunks (O38). A held chunk asks arbiters only, so that every step of
HELD_CHUNK_START is a change of `arbs` (`ArbsOnly`), in which a priority grant, once given, stands (`askPriority_keeps`). FAULT_RESPONSE
and SOFT_ERROR are one squash and what their own rules add to the squashed context. -/

namespace Sys2Proof.Machine

/-! ### The length limit (R95, R111, R114) -/

theorem lengthLimit_eq_chunkLimit (c : Ctx) : lengthLimit c = chunkLimit c := by
  have hbase : (c.unit.ordered.isSome && c.chunk.num == 0) = decide (c.unit.ordered ≠ none ∧ c.chunk.num = 0) := by
    cases c.unit.ordered <;> simp [beq_eq_decide]
  simp only [lengthLimit, chunkLimit, hbase, decide_eq_true_eq, Bool.or_eq_true]
  cases c.chunk.stopAt <;> rfl

theorem exec_chunkLengthLimit {s : State} (hrun : (me s).run = .ready) (hlive : (me s).chunk.live = true)
    (hlimit : chunkLimit (me s) ≤ (me s).chunk.count) : exec .chunkLengthLimit s = .next (endChunkOf s s.cur .resume) := by
  show execChunkLengthLimit s = _
  rw [← lengthLimit_eq_chunkLimit] at hlimit
  simp [execChunkLengthLimit, hrun, hlive, hlimit]

/-! ### Priority grants of a held chunk (R111) -/

/-- Only the arbiters have changed. -/
def ArbsOnly (s t : State) : Prop := t = { s with arbs := t.arbs }

theorem ArbsOnly.trans {s t u : State} (h : ArbsOnly s t) (k : ArbsOnly t u) : ArbsOnly s u := by
  rw [ArbsOnly, k, h]

theorem ArbsOnly.mem {s t : State} (h : ArbsOnly s t) : t.mem = s.mem := by rw [h]
theorem ArbsOnly.cur {s t : State} (h : ArbsOnly s t) : t.cur = s.cur := by rw [h]
theorem ArbsOnly.ctxAt {s t : State} (h : ArbsOnly s t) (l : Nat) : Machine.ctxAt t l = Machine.ctxAt s l := by rw [h]; rfl
theorem ArbsOnly.me {s t : State} (h : ArbsOnly s t) : Machine.me t = Machine.me s := by rw [h]; rfl

theorem arbAt_modArb_other (s : State) {a b : Nat} (f : ArbSt → ArbSt) (h : b ≠ a) : arbAt (modArb s a f) b = arbAt s b := by
  simp [arbAt, tblGet_tblSet_other _ _ _ h]

/-- Asking an arbiter changes that arbiter at most, and its priority grant only when no context holds it. -/
theorem askPriority_cases (s : State) (l arb : Nat) : askPriority s l arb = s ∨ ∃ f, askPriority s l arb = modArb s arb f
    ∧ ((arbAt s arb).priority = none ∨ (f (arbAt s arb)).priority = (arbAt s arb).priority) := by
  unfold askPriority
  extract_lets a mine
  split
  · exact .inl rfl
  · split
    · next hfree =>
      simp only [Bool.and_eq_true, Option.isNone_iff_eq_none] at hfree
      exact .inr ⟨_, rfl, .inl hfree.1.1⟩
    · split
      · exact .inl rfl
      · exact .inr ⟨_, rfl, .inr rfl⟩

theorem askPriority_arbsOnly (s : State) (l arb : Nat) : ArbsOnly s (askPriority s l arb) := by
  obtain h | ⟨f, h, -⟩ := askPriority_cases s l arb <;> rw [h] <;> rfl

theorem takePriorities_arbsOnly (s : State) (l : Nat) (arbs : List Nat) : ArbsOnly s (takePriorities s l arbs).1 := by
  induction arbs generalizing s with
  | nil => rfl
  | cons arb rest ih =>
    rw [takePriorities]
    split
    · exact (askPriority_arbsOnly s l arb).trans (ih _)
    · exact askPriority_arbsOnly s l arb

theorem arbAt_askPriority_other (s : State) (l : Nat) {arb a : Nat} (h : a ≠ arb) : arbAt (askPriority s l arb) a = arbAt s a := by
  obtain hs | ⟨f, hs, -⟩ := askPriority_cases s l arb <;> rw [hs]
  exact arbAt_modArb_other s f h

/-- A priority grant that an arbiter has given stands, whoever asks. -/
theorem askPriority_keeps {s : State} (l arb : Nat) {a k : Nat} (h : (arbAt s a).priority = some k) :
    (arbAt (askPriority s l arb) a).priority = some k := by
  by_cases ha : a = arb
  · subst ha
    obtain hs | ⟨f, hs, hfree | hsame⟩ := askPriority_cases s l a
    · rw [hs, h]
    · rw [h] at hfree; cases hfree
    · rw [hs, arbAt_modArb, hsame, h]
  · rw [arbAt_askPriority_other s l ha, h]

theorem takePriorities_keeps {s : State} (l : Nat) (arbs : List Nat) {a k : Nat} (h : (arbAt s a).priority = some k) :
    (arbAt (takePriorities s l arbs).1 a).priority = some k := by
  induction arbs generalizing s with
  | nil => exact h
  | cons arb rest ih =>
    rw [takePriorities]
    split
    · exact ih (askPriority_keeps l arb h)
    · exact askPriority_keeps l arb h

/-- The arbiter gives its priority grant to context `l` when it is asked, or has given it before. -/
def Grants (s : State) (l a : Nat) : Prop :=
  (arbAt s a).priority = some l ∨ ((arbAt s a).priority = none ∧ (arbAt s a).asking = [] ∧ (arbAt s a).inProg = [])

theorem askPriority_takes {s : State} {l arb : Nat} (h : Grants s l arb) : (arbAt (askPriority s l arb) arb).priority = some l := by
  rcases h with h | ⟨hfree, hasking, hprog⟩
  · exact askPriority_keeps l arb h
  · simp [askPriority, hfree, hasking, hprog]

theorem Grants.after_ask {s : State} {l a : Nat} (h : Grants s l a) (arb : Nat) : Grants (askPriority s l arb) l a := by
  by_cases ha : a = arb
  · subst ha; exact .inl (askPriority_takes h)
  · rwa [Grants, arbAt_askPriority_other s l ha]

/-- R111: arbiters that all grant give the held chunk their priority. -/
theorem takePriorities_granted {s : State} {l : Nat} {arbs : List Nat} (h : ∀ a ∈ arbs, Grants s l a) :
    (takePriorities s l arbs).2 = true ∧ ∀ a ∈ arbs, (arbAt (takePriorities s l arbs).1 a).priority = some l := by
  induction arbs generalizing s with
  | nil => exact ⟨rfl, by simp⟩
  | cons arb rest ih =>
    obtain ⟨harb, hrest⟩ := List.forall_mem_cons.mp h
    have htaken := askPriority_takes harb
    obtain ⟨hall, hgiven⟩ := ih fun a ha => (hrest a ha).after_ask arb
    rw [takePriorities, if_pos (by rw [htaken]; exact beq_self_eq_true _)]
    exact ⟨hall, List.forall_mem_cons.mpr ⟨takePriorities_keeps l rest htaken, hgiven⟩⟩

/-- R111: an arbiter whose priority another context holds keeps the held chunk waiting. -/
theorem takePriorities_refused {s : State} {l a k : Nat} {arbs : List Nat} (ha : a ∈ arbs) (hk : k ≠ l)
    (h : (arbAt s a).priority = some k) : (takePriorities s l arbs).2 = false := by
  induction arbs generalizing s with
  | nil => simp at ha
  | cons arb rest ih =>
    have hkeeps := askPriority_keeps l arb h
    rw [takePriorities]
    split
    · next htaken =>
      have hne : a ≠ arb := by
        rintro rfl
        rw [hkeeps, beq_iff_eq] at htaken
        exact hk (Option.some.inj htaken)
      exact ih ((List.mem_cons.mp ha).resolve_left hne) hkeeps
    · rfl

/-! ### HELD_CHUNK_START (R111) -/

/-- No other context of the executing context's core runs held. -/
def HeldAlone (s : State) : Prop := ∀ i, i < 8 → s.cur / 8 * 8 + i ≠ s.cur → (ctxAt s (s.cur / 8 * 8 + i)).chunk.held = false

theorem otherHeld_iff (s : State) : ((List.range 8).any fun i => coreOf s.cur * 8 + i != s.cur
    && (ctxAt s (coreOf s.cur * 8 + i)).chunk.held) = true ↔ ¬ HeldAlone s := by
  simp [HeldAlone, coreOf]

section
variable {s : State} (hlive : (me s).chunk.live = false) (hconflicts : 4 ≤ (me s).chunk.conflicts) (hheld : (me s).chunk.held = false)
include hlive hconflicts hheld

theorem exec_heldChunkStart_beside (h : ¬ HeldAlone s) : exec .heldChunkStart s = .next (stallCtx s s.cur .start) := by
  show execHeldChunkStart s = _
  rw [execHeldChunkStart, if_neg (by simp [hlive, wantsHeld, hconflicts, hheld]), if_pos ((otherHeld_iff s).mpr h)]
  rfl

theorem exec_heldChunkStart_alone (h : HeldAlone s) : exec .heldChunkStart s =
    (let p := takePriorities s s.cur (me s).chunk.prevArbs
     if p.2 then .next (modMe p.1 (fun c => { c with
       run := .ready, ctl := withHeld c.ctl true, chunk := { c.chunk with held := true, grants := c.chunk.prevArbs } }))
     else stall p.1 .start) := by
  show execHeldChunkStart s = _
  rw [execHeldChunkStart, if_neg (by simp [hlive, wantsHeld, hconflicts, hheld]), if_neg fun k => (otherHeld_iff s).mp k h]

end

/-- A change of the executing context, after the arbiters have changed. -/
theorem ArbsOnly.quietBut_modMe {s t : State} (h : ArbsOnly s t) (f : Ctx → Ctx) :
    QuietBut s.cur s (modMe t f) ∧ Machine.me (modMe t f) = f (Machine.me s) :=
  ⟨⟨h.mem, fun l hl => (ctxAt_modMe_other t f (by rwa [h.cur])).trans (h.ctxAt l)⟩, by rw [me_modMe, h.me]⟩

theorem heldOn_withHeld (c : Ctl) (h : Bool) : heldOn (withHeld c h) = h :=
  (statusWord_fields (plOf c) (pplOf c) (stepOn c) (tsOn c) h).2.2.2.2

/-! ### FAULT_RESPONSE (R114) -/

theorem squash_quietBut (s : State) (l : Nat) (conflict : Bool) : QuietBut l s (squash s l conflict) :=
  ⟨squash_mem s l conflict, fun _ hk => ctxAt_squash_other s conflict hk⟩

theorem modCtx_quietBut (s : State) (l : Nat) (f : Ctx → Ctx) : QuietBut l s (modCtx s l f) :=
  ⟨rfl, fun _ hk => ctxAt_modCtx_other s f hk⟩

/-- A squashed chunk is squashed whatever is noted of its next execution. -/
theorem Squashed.of_notes {c d e : Ctx} (h : Squashed c d) (hregs : e.regs = d.regs) (hctl : e.ctl = d.ctl) (hrun : e.run = d.run)
    (hchunk : e.chunk = { d.chunk with stopAt := e.chunk.stopAt, alone := e.chunk.alone, softs := e.chunk.softs }) : Squashed c e where
  regs := hregs.trans h.regs
  choice := hctl ▸ h.choice
  spoor := hctl ▸ h.spoor
  flags := hctl ▸ h.flags
  run := hrun.trans h.run
  empty := by rw [chunkEmpty, hchunk]; exact h.empty
  num := by rw [hchunk]; exact h.num
  sigs := by rw [hchunk]; exact h.sigs

theorem squash_squashed (s : State) (l : Nat) (conflict : Bool) : Squashed (ctxAt s l) (ctxAt (squash s l conflict) l) := by
  rw [ctxAt_squash]
  exact squashedCtx_squashed _ _ _

theorem exec_faultResponse {s : State} {loc : Nat} (pos : Nat) (h : (ctxAt s loc).run = .stalled .fault) :
    exec (.faultResponse loc pos) s = .next (modCtx (squash s loc false) loc (fun c => { c with chunk :=
      if pos ≤ 1 then { c.chunk with stopAt := none, alone := true } else { c.chunk with stopAt := some (pos - 1) } })) :=
  if_neg (by simp [h])

/-! ### SOFT_ERROR (R116, R211) -/

theorem tblFind_tblDel {α : Type} (t : Tbl α) (i : Nat) : tblFind (tblDel t i) i = none := by
  induction t with
  | nil => rfl
  | cons e rest ih =>
    obtain ⟨j, x⟩ := e
    by_cases h : j = i
    · simpa [tblDel, h] using ih
    · simpa [tblDel, h, tblFind] using ih

theorem bar0Get_bar0Set (s : State) (off : Nat) (x : Word) : bar0Get (bar0Set s off x) off = x := by
  show tblGet (if x = 0 then tblDel s.io.bar0 off else tblSet s.io.bar0 off x) off 0 = x
  split
  · next h => rw [tblGet, tblFind_tblDel, h]
  · exact tblGet_tblSet_same _ _ _ _

/-- R302: the soft-error squashes in a die's error record. -/
def softErrors (s : State) (die : Nat) : Nat := (bar0Get s (0x100 + 8 * die)).toNat % 2 ^ 32

theorem softErrors_countSoft (s : State) (die : Nat) : softErrors (countSoft s die) die = (softErrors s die + 1) % 2 ^ 32 := by
  have hlow (w : Word) (n : Nat) (hn : n < 2 ^ 32) : ((w &&& 0xFFFFFFFF00000000) ||| BitVec.ofNat 64 n).toNat % 2 ^ 32 = n := by
    have hmask : (0xFFFFFFFF00000000 : Word).toNat % 2 ^ 32 = 0 := by decide
    have hn64 : n < 2 ^ 64 := by omega
    rw [BitVec.toNat_or, BitVec.toNat_and, Nat.or_mod_two_pow, Nat.and_mod_two_pow, hmask, Nat.and_zero, Nat.zero_or,
      BitVec.toNat_ofNat, Nat.mod_eq_of_lt hn64, Nat.mod_eq_of_lt hn]
  rw [softErrors, countSoft, bar0Get_bar0Set, hlow _ _ (Nat.mod_lt _ (by decide))]
  simp [softErrors, fld]

theorem countSoft_quiet (s : State) (die : Nat) : Quiet s (countSoft s die) := ⟨rfl, fun _ => rfl⟩

theorem foldl_io {α : Type} {f : State → α → State} (hf : ∀ s x, (f s x).io = s.io) (xs : List α) (s : State) :
    (xs.foldl f s).io = s.io := by
  induction xs generalizing s with
  | nil => rfl
  | cons x xs ih => rw [List.foldl_cons, ih, hf]

theorem reexamine_io (s : State) (a : Nat) : (reexamine s a).io = s.io := by
  unfold reexamine; dsimp only; split <;> rfl

theorem withdraw_io (s : State) (l : Nat) : (withdraw s l).io = s.io := by
  unfold withdraw; split
  · rfl
  · exact foldl_io reexamine_io _ _

theorem squash_io (s : State) (l : Nat) (conflict : Bool) : (squash s l conflict).io = s.io := withdraw_io s l

theorem releasePriority_io (s : State) (l : Nat) : (releasePriority s l).io = s.io := foldl_io reexamine_io _ _

theorem softErrors_of_io {s t : State} (h : t.io = s.io) (die : Nat) : softErrors t die = softErrors s die := by
  rw [softErrors, bar0Get, h]; rfl

/-- A unit number below 2^18 is a context's. -/
theorem exec_softError_context {s : State} (h : s.cur < 2 ^ 18) : exec .softError s = .next (softContext s s.cur) := by
  show execSoftError s = _
  have hclass : s.cur / 2 ^ 60 = 0 := by omega
  rw [execSoftError, dataError, hclass, Nat.mod_eq_of_lt h]
  rfl

/-- R96: a chunk that is not live, or is under way outside the core, is only counted. -/
theorem softContext_counts {s : State} {l : Nat} (h : (ctxAt s l).chunk.live = false ∨ underWay s l = true) :
    softContext s l = countSoft s (dieOf l) :=
  if_pos (by simpa using h)

/-- R116: the live chunk of context `l` is squashed and the error counted. -/
def squashCounted (s : State) (l : Nat) : State := countSoft (squash s l false) (dieOf l)

theorem squashCounted_cur (s : State) (l : Nat) : (squashCounted s l).cur = s.cur := (withdraw_spares l s l).cur

theorem squashCounted_quietBut (s : State) (l : Nat) : QuietBut l s (squashCounted s l) :=
  squash_quietBut s l false

theorem squashCounted_squashed (s : State) (l : Nat) : Squashed (ctxAt s l) (ctxAt (squashCounted s l) l) :=
  squash_squashed s l false

theorem softErrors_squashCounted (s : State) (l : Nat) :
    softErrors (squashCounted s l) (dieOf l) = (softErrors s (dieOf l) + 1) % 2 ^ 32 := by
  rw [squashCounted, softErrors_countSoft, softErrors_of_io (squash_io s l false)]

section
variable {s : State} {l : Nat} (hlive : (ctxAt s l).chunk.live = true) (hway : underWay s l = false)
include hlive hway

theorem softContext_squashes (hsofts : (ctxAt s l).chunk.softs < 2) : softContext s l =
    modCtx (squashCounted s l) l (fun x => { x with chunk := { x.chunk with softs := (ctxAt s l).chunk.softs + 1 } }) := by
  rw [softContext, if_neg (by simp [hlive, hway])]
  exact if_neg (by omega)

theorem softContext_mchecks (hsofts : 2 ≤ (ctxAt s l).chunk.softs) : softContext s l =
    modCtx (releasePriority (squashCounted s l) l) l (fun c => mcheckCtx c 2 0 0 c.regs.pc) := by
  rw [softContext, if_neg (by simp [hlive, hway])]
  exact if_pos (by omega)

end

/-- A word is poisoned once its key is on the list. -/
theorem poisoned_of_mem {s : State} {key : Nat} (h8 : key % 8 = 0) (h : key ∈ s.poison) : poisoned s key 8 = true := by
  have hwords : wordsTouched key 8 = [key] := by
    have hone : (key + 8 - 1) / 8 - key / 8 + 1 = 1 := by omega
    rw [wordsTouched, if_neg (by decide), hone]
    exact congrArg (fun k => [k]) (show (key / 8 + 0) * 8 = key by omega)
  simp [poisoned, hwords, h]

/-- R211: an uncorrectable error of a word of HBM. -/
theorem exec_softError_word {s : State} (hclass : s.cur / 2 ^ 60 = 2) (hlt : s.cur % 2 ^ 60 < 2 ^ 41) (h8 : s.cur % 8 = 0) :
    exec .softError s = .next { s with poison := s.cur % 2 ^ 60 :: s.poison.filter (· != s.cur % 2 ^ 60) } := by
  show execSoftError s = _
  have hkey : s.cur % 2 ^ 41 / 8 * 8 = s.cur % 2 ^ 60 := by omega
  rw [execSoftError, dataError, hclass, hkey]
  rfl

/-! ### Waking (R135, R257) -/

theorem exec_watchWake {s : State} {k : Nat} (hwatch : (me s).watch ≠ none) (hrun : (me s).run = .waiting k) :
    exec .watchWake s = .next (modMe s (fun c => { c with run := .ready, woken := true, watch := none })) := by
  show execWatchWake s = _
  simp [execWatchWake, Option.isSome_iff_ne_none.mpr hwatch, hrun]

theorem exec_yieldResume {s : State} {till : Nat} {await : List Nat} (hrun : (me s).run = .yielded till await)
    (h : till ≤ s.now ∨ await = []) : exec .yieldResume s = .next (modMe s (fun c => { c with run := .ready })) := by
  show execYieldResume s = _
  simp [execYieldResume, hrun, h]

/-- Settles O38: HELD_CHUNK_START by what the arbiters of the previous execution answer, FAULT_RESPONSE and SOFT_ERROR by the squash and
what follows it, every other step on its one path. -/
theorem chunkSteps : Obligations.ChunkSteps := by
  intro s loc pos till k await c d sole errors
  refine ⟨exec_chunkLengthLimit, fun hlive hconflicts hheld => ⟨fun halone hgrants => ?_, fun hbeside => ?_, fun halone hother => ?_⟩,
    fun hrun => ?_, fun hloc hcounts => ?_, fun hloc hlive hway => ?_, fun hclass hlt h8 => ?_, fun hwatch hrun => ?_, fun hrun h => ?_⟩
  · obtain ⟨hall, hgiven⟩ := takePriorities_granted hgrants
    have harbs := takePriorities_arbsOnly s s.cur c.chunk.prevArbs
    obtain ⟨hquiet, hme⟩ := harbs.quietBut_modMe (fun c => { c with
      run := .ready, ctl := withHeld c.ctl true, chunk := { c.chunk with held := true, grants := c.chunk.prevArbs } })
    refine ⟨_, (exec_heldChunkStart_alone hlive hconflicts hheld halone).trans (if_pos hall), hquiet, ?_⟩
    rw [hme]
    exact ⟨rfl, heldOn_withHeld _ _, rfl, rfl, hgiven⟩
  · exact exec_heldChunkStart_beside hlive hconflicts hheld hbeside
  · obtain ⟨a, ha, l, hl, hpriority⟩ := hother
    have harbs := takePriorities_arbsOnly s s.cur c.chunk.prevArbs
    obtain ⟨hquiet, hme⟩ := harbs.quietBut_modMe (fun c => { c with run := .stalled .start })
    have hrefused : ¬ (takePriorities s s.cur c.chunk.prevArbs).2 = true := by simp [takePriorities_refused ha hl hpriority]
    refine ⟨_, (exec_heldChunkStart_alone hlive hconflicts hheld halone).trans (if_neg hrefused), hquiet, ?_⟩
    rw [show me (stallCtx _ _ _) = _ from hme]
    exact ⟨rfl, rfl⟩
  · refine ⟨_, exec_faultResponse pos hrun, (squash_quietBut s loc false).trans (modCtx_quietBut _ _ _), ?_⟩
    rw [ctxAt_modCtx]
    refine ⟨(squash_squashed s loc false).of_notes rfl rfl rfl ?_, fun h => ?_, fun h => ?_⟩
    · split <;> rfl
    · rw [if_pos h]
    · rw [if_neg (by omega)]
  · rw [Does, exec_softError_context hloc, softContext_counts hcounts]
    exact ⟨_, rfl, countSoft_quiet _ _, softErrors_countSoft s (s.cur / 4096)⟩
  · have hquiet := squashCounted_quietBut s s.cur
    have hcur := squashCounted_cur s s.cur
    have hcount := softErrors_squashCounted s s.cur
    have hsq := squashCounted_squashed s s.cur
    rw [Does, exec_softError_context hloc]
    by_cases hsofts : c.chunk.softs < 2
    · rw [softContext_squashes hlive hway hsofts]
      refine ⟨_, rfl, hquiet.trans (modCtx_quietBut ..), hcount, fun _ => ?_, fun h => absurd hsofts (by omega)⟩
      rw [me, modCtx_cur, hcur, ctxAt_modCtx]
      exact ⟨hsq.of_notes rfl rfl rfl rfl, rfl⟩
    · rw [softContext_mchecks hlive hway (not_lt.mp hsofts)]
      refine ⟨_, rfl, hquiet.trans (quietBut_release ..), ?_, fun h => absurd h hsofts, fun _ => ?_⟩
      · exact (softErrors_of_io (releasePriority_io _ _) _).trans hcount
      · rw [me, modCtx_cur, (releasePriority_spares 0 _ _).cur, hcur, ctxAt_modCtx_release]
        obtain ⟨-, -, hcause, -, -, hlevel, -, -, -, hregs, -⟩ := mcheckCtx_took (ctxAt (squashCounted s s.cur) s.cur) 0
          (ctxAt (squashCounted s s.cur) s.cur).regs.pc (reason := 2) (detail := 0) (by decide) (by decide)
        exact ⟨hlevel, hcause, rfl, by rw [hregs, hsq.regs]; rfl⟩
  · exact ⟨_, exec_softError_word hclass hlt h8, ⟨rfl, fun _ => rfl⟩, poisoned_of_mem (by omega) (List.mem_cons_self ..)⟩
  · exact ⟨_, exec_watchWake hwatch hrun, onlyMe_modMe s _, me_modMe s _⟩
  · exact ⟨_, exec_yieldResume hrun h, onlyMe_modMe s _, me_modMe s _⟩

end Sys2Proof.Machine
end

section
/-! PROOF. Grants and commits of chunks (O39). The statement's clause on COMMIT_COMPLETE leaves every byte of memory as it was, for a
chunk that recorded no replay. But the arbiters that granted the commit then append the records that they still owe, of whatever chunk
(`recordsDue`, R117): a record that could not be written when its own commit was complete goes into its ring at this step. The clause
asks for no arbiter without such records. -/

namespace Sys2Proof.Machine

/-- VA 0x400 of the global window: the replay table of ASID 0, and in it the descriptor of arbiter 0. -/
def replayTable : Word := 0x80000000000400

/-- R118: the descriptor of a ring of 2^4 records at the bottom of the global window, whose write and read indices are 0. -/
def emptyRing : List Word := [0x80000000000000, 4, 0, 0]

/-- R117: the record of a chunk of context 1 whose commit is complete. -/
def owedRecord : ReplayRec := { waitsFor := none, asid := 0, loc := 1, num := 0, count := 1 }

/-- The commit of a chunk of context 0 without replay: arbiter 0 has granted it, and every answer is in. -/
def answeredCommit : Commit := { freshCommit .chunk 0 with w := sigRange 0 (2 ^ 55 + 8) 8, granted := [0], point := true }

/-- Context 0 waits for the end of `answeredCommit`, and arbiter 0 still owes `owedRecord` to the empty ring. -/
def owingRecord : State :=
  let s := bar0Set (State.reset.withFetchWord 32 0x02000000) (asidOff 0 0x20) replayTable
  let s := modArb s 0 (fun a => { a with inProg := [0], records := [owedRecord] })
  let s := modCtx s 0 (fun c => { c with run := .committing .resume, chunk := { c.chunk with count := 1 } })
  { s with mem := memPutAll s.mem 0x400 (wordsBytes emptyRing), commits := [(0, answeredCommit)], nextCommit := 1 }

/-- R118: the write index in the descriptor of arbiter 0, whose page stands at the bottom of home H0. -/
def writeIndex (m : List Host.Cell) : Word := memWord m 0x410

/-- Committed memory in the state that a step answers. -/
def memNext : Res → Option (List Host.Cell)
  | .next t => some t.mem
  | _ => none

/-- R117: the record is appended when `answeredCommit` is complete, and the write index counts it. -/
theorem writeIndex_commitComplete : writeIndex owingRecord.mem = 0
    ∧ (memNext (exec .commitComplete owingRecord)).map writeIndex = some 1 :=
  ⟨by decide +kernel, by decide +kernel⟩

/-- Refutes O39, in its clause on COMMIT_COMPLETE: `owingRecord` meets every hypothesis of the clause, but the step changes the write
index of the ring in memory. -/
theorem not_grantAndCommitSteps : ¬ Obligations.GrantAndCommitSteps := by
  unfold Obligations.GrantAndCommitSteps
  intro ⟨_, hcommit⟩
  obtain ⟨-, -, -, hcomplete⟩ := hcommit owingRecord (home := 0) (core := 0) (cid := 0) answeredCommit
    (st := ⟨.hc, 0, 0, 0, []⟩) (f := ⟨.add, false, 0, 0, 0, 0⟩) (after := .resume)
  have hnone : (ctxAt owingRecord 0).chunk.effects = [] := by decide +kernel
  obtain ⟨u, hexec, hmem, -⟩ := hcomplete rfl rfl rfl rfl rfl rfl rfl (by decide +kernel)
    (by rw [show answeredCommit.loc = 0 from rfl, hnone]; exact List.forall_mem_nil _) (by decide +kernel) (by decide +kernel)
  obtain ⟨hbefore, hafter⟩ := writeIndex_commitComplete
  rw [hexec, memNext, Option.map_some, hmem, hbefore] at hafter
  exact absurd hafter (by decide)

end Sys2Proof.Machine
end

section
/-! PROOF. What a committed write, and what comes home before an access, leave as it was: a plain write the state of the I/O die (`IoKept`), the
words of a CP page and the lines of hosts all that caches hold (`CopiesKept`). What has come home once comes home again to the same
bytes (`memGet_cpHome_again`), and a line that has been asked back is no longer a host's (`hostTouched_gather`). -/

namespace Sys2Proof.Machine

/-! ### What a committed write leaves of the I/O die and of the commits to come -/

/-- The state of the I/O die, and the number of the next commit, stand. -/
structure IoKept (s t : State) : Prop where
  io : t.io = s.io
  nextCommit : t.nextCommit = s.nextCommit

theorem IoKept.refl (s : State) : IoKept s s := ⟨rfl, rfl⟩
theorem IoKept.trans {s t u : State} (h : IoKept s t) (k : IoKept t u) : IoKept s u := ⟨k.io.trans h.io, k.nextCommit.trans h.nextCommit⟩

theorem ioKept_foldl {α : Type} {f : State → α → State} (hf : ∀ s x, IoKept s (f s x)) (xs : List α) (s : State) :
    IoKept s (xs.foldl f s) := by
  induction xs generalizing s with
  | nil => exact .refl s
  | cons x xs ih => exact (hf s x).trans (ih _)

section
variable (s : State)

theorem reexamine_ioKept (a : Nat) : IoKept s (reexamine s a) := by
  unfold reexamine; dsimp only; split
  · exact .refl s
  · exact ⟨rfl, rfl⟩

theorem withdraw_ioKept (l : Nat) : IoKept s (withdraw s l) := by
  unfold withdraw; split
  · exact .refl s
  · refine IoKept.trans ?_ (ioKept_foldl reexamine_ioKept _ _)
    exact ⟨rfl, rfl⟩

theorem squash_ioKept (l : Nat) (conflict : Bool) : IoKept s (squash s l conflict) :=
  (withdraw_ioKept s l).trans ⟨rfl, rfl⟩

theorem squashMeeting_ioKept (w : BitVec 1024) (p : Nat → Bool) : IoKept s (squashMeeting s w p) := by
  refine ioKept_foldl (fun t e => ?_) _ _
  dsimp only
  split
  · exact squash_ioKept t _ _
  · exact .refl t

theorem poisonBad_ioKept (b : Block) : IoKept s (poisonBad s b) := by
  unfold poisonBad; split
  · exact .refl s
  · exact ⟨rfl, rfl⟩

theorem settleBad_ioKept (own : Option Nat) (region : Nat) : IoKept s (settleBad own s region) := by
  unfold settleBad; dsimp only; split
  · exact .refl s
  · refine IoKept.trans ?_ (ioKept_foldl poisonBad_ioKept _ _)
    exact ⟨rfl, rfl⟩

theorem post_ioKept (u : Nat) (i : Instr) : IoKept s (post s u i) := ⟨rfl, rfl⟩

theorem noteWrite_ioKept (key n : Nat) : IoKept s (noteWrite s key n) := by
  let hit : Nat → Bool := fun g => key / 32 ≤ g && g ≤ (key + n - 1) / 32
  have h : IoKept s ((s.ctxs.filter (fun e => e.2.watch.any hit)).foldl (fun t e => post t e.1 .watchWake) s) :=
    ioKept_foldl (fun t _ => post_ioKept t _ _) _ _
  exact ⟨h.io, h.nextCommit⟩

theorem dropCopies_ioKept (region : Nat) : IoKept s (dropCopies s region) := ⟨rfl, rfl⟩

theorem commitPlain_ioKept (w : BitVec 1024) (key : Nat) (bs : List Byte) : IoKept s (commitPlain s w key bs) := by
  unfold commitPlain
  extract_lets regions s1 s2 s3 s4
  have hwritten : IoKept s s2 := (ioKept_foldl (settleBad_ioKept · none ·) regions s).trans ⟨rfl, rfl⟩
  have hdropped : IoKept s3 s4 := ioKept_foldl dropCopies_ioKept regions s3
  exact ((hwritten.trans (squashMeeting_ioKept s2 _ _)).trans hdropped).trans (noteWrite_ioKept s4 _ _)

end

/-! ### Bytes in memory -/

theorem memGet_memPutAll {m : List Host.Cell} (h : Memory.wf m = true) (a : Nat) (bs : List Byte) (k : Nat) :
    memGet (memPutAll m a bs) k = if a ≤ k ∧ k < a + bs.length then (nth bs (k - a)).getD 0 else memGet m k := by
  induction bs generalizing m a with
  | nil => rw [if_neg (by simp)]; rfl
  | cons b bs ih =>
    rw [memPutAll, ih (memPut_wf m a b h), List.length_cons]
    by_cases hk : k = a
    · subst hk
      rw [if_neg (by omega), if_pos (by omega), memGet_memPut_same m k b h, Nat.sub_self]
      rfl
    · rw [memGet_memPut_other m a b hk]
      by_cases hin : a + 1 ≤ k ∧ k < a + 1 + bs.length
      · obtain ⟨i, rfl⟩ : ∃ i, k = a + 1 + i := ⟨k - (a + 1), by omega⟩
        rw [if_pos hin, if_pos (by omega), show a + 1 + i - (a + 1) = i by omega, show a + 1 + i - a = i + 1 by omega]
        rfl
      · rw [if_neg hin, if_neg (by omega)]

theorem stored_of_mem {s u : State} {key : Nat} {bs : List Byte} (hs : MemOk s) (h : u.mem = memPutAll s.mem key bs) :
    Stored s u key bs := fun k => by rw [h, memGet_memPutAll hs]

theorem nth_memBytes (m : List Host.Cell) (a : Nat) {n i : Nat} (h : i < n) : nth (memBytes m a n) i = some (memGet m (a + i)) := by
  induction n generalizing a i with
  | zero => omega
  | succ n ih =>
    cases i with
    | zero => rfl
    | succ i => rw [memBytes, nth, ih (a + 1) (by omega), Nat.add_right_comm, Nat.add_assoc]

/-- Bytes that stand already. -/
theorem stored_same {s u : State} (h : u.mem = s.mem) (a n : Nat) : Stored s u a (memBytes s.mem a n) := by
  intro k
  rw [length_memBytes, h]
  split
  · next hk => rw [nth_memBytes _ _ (by omega), show a + (k - a) = k by omega]; rfl
  · rfl

/-- R5: the bytes of the number that bytes stand for. -/
theorem natBytes_leNat (bs : List Byte) : natBytes bs.length (leNat bs) = bs := by
  induction bs with
  | nil => rfl
  | cons b bs ih =>
    have hb := b.isLt
    have hlow : BitVec.ofNat 8 (b.toNat + 256 * leNat bs) = b := by
      apply BitVec.eq_of_toNat_eq
      rw [BitVec.toNat_ofNat]
      omega
    rw [List.length_cons, leNat, natBytes, hlow, show (b.toNat + 256 * leNat bs) / 256 = leNat bs by omega, ih]

/-! ### What comes home before an access (R120, R296) -/

/-- The contexts, the I/O die and the tick stand, and what the caches hold; no write-back is put on its way. -/
structure CopiesKept (s t : State) : Prop where
  ctxs : t.ctxs = s.ctxs
  io : t.io = s.io
  tick : t.tick = s.tick
  l1 : l1All t = l1All s
  l2 : l2All t = l2All s
  flights : ∀ e ∈ t.agenda, e ∈ s.agenda ∨ ∀ r who, flightOf r who e.2.2 = false

theorem CopiesKept.refl (s : State) : CopiesKept s s := ⟨rfl, rfl, rfl, rfl, rfl, fun _ h => .inl h⟩

theorem CopiesKept.trans {s t u : State} (h : CopiesKept s t) (k : CopiesKept t u) : CopiesKept s u where
  ctxs := k.ctxs.trans h.ctxs
  io := k.io.trans h.io
  tick := k.tick.trans h.tick
  l1 := k.l1.trans h.l1
  l2 := k.l2.trans h.l2
  flights e he := (k.flights e he).elim (h.flights e) .inr

theorem copiesKept_foldl {α : Type} {f : State → α → State} (hf : ∀ s x, CopiesKept s (f s x)) (xs : List α) (s : State) :
    CopiesKept s (xs.foldl f s) := by
  induction xs generalizing s with
  | nil => exact .refl s
  | cons x xs ih => exact (hf s x).trans (ih _)

theorem flightOf_watchWake (r : Nat) (who : Nat → Bool) : flightOf r who .watchWake = false := rfl

theorem post_watchWake_copiesKept (s : State) (u : Nat) : CopiesKept s (post s u .watchWake) :=
  ⟨rfl, rfl, rfl, rfl, rfl, fun _ he => (List.mem_append.mp he).imp_right fun h => by
    rw [List.mem_singleton.mp h]; exact flightOf_watchWake⟩

theorem noteWrite_copiesKept (s : State) (key n : Nat) : CopiesKept s (noteWrite s key n) := by
  let hit : Nat → Bool := fun g => key / 32 ≤ g && g ≤ (key + n - 1) / 32
  have h : CopiesKept s ((s.ctxs.filter (fun e => e.2.watch.any hit)).foldl (fun t e => post t e.1 .watchWake) s) :=
    copiesKept_foldl (fun t (e : Nat × Ctx) => post_watchWake_copiesKept t e.1) _ _
  refine ⟨h.ctxs, h.io, h.tick, h.l1, ?_, h.flights⟩
  refine Eq.trans ?_ h.l2
  unfold noteWrite l2All
  dsimp only [tblMap]
  rw [List.map_map]
  rfl

theorem putWords_copiesKept (s : State) (region : Nat) (ws : List (Nat × Word)) : CopiesKept s (putWords s region ws) := by
  refine copiesKept_foldl (fun t p => ?_) _ _
  have hput : CopiesKept t (putBytes t (region * 512 + 8 * (p.1 % 64)) (wordBytes p.2)) := ⟨rfl, rfl, rfl, rfl, rfl, fun _ h => .inl h⟩
  have h := hput.trans (noteWrite_copiesKept _ (region * 512 + 8 * (p.1 % 64)) 8)
  dsimp only
  split
  · exact h
  · exact ⟨h.ctxs, h.io, h.tick, h.l1, h.l2, h.flights⟩

theorem filterAgenda_copiesKept (s : State) (p : Nat × Nat × Instr → Bool) : CopiesKept s { s with agenda := s.agenda.filter p } :=
  ⟨rfl, rfl, rfl, rfl, rfl, fun _ h => .inl (List.mem_filter.mp h).1⟩

theorem absorbFlight_copiesKept (s : State) (region : Nat) (who : Nat → Bool) : CopiesKept s (absorbFlight s region who) := by
  unfold absorbFlight; dsimp only; split
  · exact .refl s
  · refine (filterAgenda_copiesKept s _).trans (copiesKept_foldl (fun t e => ?_) _ _)
    split
    · exact putWords_copiesKept t region _
    · exact .refl t

theorem cpHome_copiesKept (s : State) (region : Nat) : CopiesKept s (cpHome s region) := by
  unfold cpHome; split
  · exact .refl s
  · exact ((absorbFlight_copiesKept s _ _).trans (putWords_copiesKept _ _ _)).trans (putWords_copiesKept _ _ _)

/-! ### The words of a CP page come home once (R120) -/

/-- One word of a write-back reaches memory. -/
def putWord (region : Nat) (m : List Host.Cell) (p : Nat × Word) : List Host.Cell :=
  memPutAll m (region * 512 + 8 * (p.1 % 64)) (wordBytes p.2)

theorem putWords_mem (s : State) (region : Nat) (ws : List (Nat × Word)) : (putWords s region ws).mem = ws.foldl (putWord region) s.mem := by
  unfold putWords
  induction ws generalizing s with
  | nil => rfl
  | cons p ws ih =>
    rw [List.foldl_cons, ih, List.foldl_cons]
    congr 1
    dsimp only
    split
    · exact noteWrite_mem _ _ _
    · exact noteWrite_mem _ _ _

theorem foldl_putWord_wf {region : Nat} (ws : List (Nat × Word)) {m : List Host.Cell} (h : Memory.wf m = true) :
    Memory.wf (ws.foldl (putWord region) m) = true := by
  induction ws generalizing m with
  | nil => exact h
  | cons p ws ih => exact ih (memPutAll_wf _ _ _ h)

/-- What words that reach memory leave at an address: a byte of theirs, whatever stood there, or what stood there. -/
theorem memGet_foldl_putWord (region : Nat) (ws : List (Nat × Word)) (k : Nat) : ∃ o : Option Byte, ∀ m, Memory.wf m = true →
    memGet (ws.foldl (putWord region) m) k = o.getD (memGet m k) := by
  induction ws with
  | nil => exact ⟨none, fun _ _ => rfl⟩
  | cons p ws ih =>
    obtain ⟨o, ho⟩ := ih
    have hput : ∀ m, Memory.wf m = true → memGet ((p :: ws).foldl (putWord region) m) k = o.getD (memGet (putWord region m p) k) :=
      fun m hm => ho _ (memPutAll_wf _ _ _ hm)
    cases o with
    | some b => exact ⟨some b, hput⟩
    | none =>
      let a := region * 512 + 8 * (p.1 % 64)
      refine ⟨if a ≤ k ∧ k < a + (wordBytes p.2).length then some ((nth (wordBytes p.2) (k - a)).getD 0) else none, fun m hm => ?_⟩
      rw [hput m hm, Option.getD_none, putWord, memGet_memPutAll hm]
      split <;> rfl

theorem memGet_foldl_putWord_twice {region : Nat} (ws : List (Nat × Word)) {m : List Host.Cell} (h : Memory.wf m = true) (k : Nat) :
    memGet (ws.foldl (putWord region) (ws.foldl (putWord region) m)) k = memGet (ws.foldl (putWord region) m) k := by
  obtain ⟨o, ho⟩ := memGet_foldl_putWord region ws k
  rw [ho _ (foldl_putWord_wf ws h), ho m h]
  cases o <;> rfl

/-- The words of a region's CP page that caches hold, in the order in which they come home. -/
def cpWords (s : State) (region : Nat) : List (Nat × Word) :=
  givenWords ((l2All s).filter (fun b => b.mode == .cp && b.region == region))
    ++ givenWords ((l1All s).filter (fun b => b.mode == .cp && b.region == region))

/-- No write-back of words of the region is on its way. -/
def Landed (s : State) (region : Nat) : Prop := ∀ e ∈ s.agenda, flightOf region (fun _ => true) e.2.2 = false

theorem cpWords_eq_nil {s : State} {region : Nat} (h : cpHeld s region = false) : cpWords s region = [] := by
  have hblocks := List.any_eq_false.mp (Bool.or_eq_false_iff.mp h).1
  rw [cpWords, List.filter_eq_nil_iff.mpr fun b hb => hblocks b (List.mem_append_right _ hb),
    List.filter_eq_nil_iff.mpr fun b hb => hblocks b (List.mem_append_left _ hb)]
  rfl

theorem CopiesKept.cpWords {s t : State} (h : CopiesKept s t) (region : Nat) : cpWords t region = cpWords s region := by
  rw [Machine.cpWords, Machine.cpWords, h.l1, h.l2]

theorem CopiesKept.landed {s t : State} (h : CopiesKept s t) {region : Nat} (hs : Landed s region) : Landed t region :=
  fun e he => (h.flights e he).elim (hs e) fun hno => hno _ _

theorem landed_of_cpHeld {s : State} {region : Nat} (h : cpHeld s region = false) : Landed s region := by
  intro e he
  have := List.any_eq_false.mp (Bool.or_eq_false_iff.mp h).2 e he
  simpa using this

theorem absorbFlight_landed {s : State} {region : Nat} (h : Landed s region) : absorbFlight s region (fun _ => true) = s := by
  have hnone : s.agenda.filter (fun e => flightOf region (fun _ => true) e.2.2) = [] := List.filter_eq_nil_iff.mpr fun e he => by simp [h e he]
  simp [absorbFlight, hnone]

theorem landed_absorbFlight (s : State) (region : Nat) : Landed (absorbFlight s region (fun _ => true)) region := by
  unfold absorbFlight; dsimp only; split
  · next h => exact fun e he => by simpa using List.filter_eq_nil_iff.mp (List.isEmpty_iff.mp h) e he
  · refine CopiesKept.landed (copiesKept_foldl (fun t e => ?_) _ _) (s := { s with
      agenda := s.agenda.filter (fun e => !flightOf region (fun _ => true) e.2.2) }) fun e he => ?_
    · split
      · exact putWords_copiesKept t region _
      · exact .refl t
    · simpa using (List.mem_filter.mp he).2

theorem cpHome_mem {s : State} {region : Nat} (h : cpHeld s region = true) : (cpHome s region).mem
    = (cpWords s region).foldl (putWord region) (absorbFlight s region (fun _ => true)).mem := by
  rw [cpHome, h, cpWords, List.foldl_append, ← putWords_mem, ← putWords_mem]
  rfl

theorem landed_cpHome (s : State) (region : Nat) : Landed (cpHome s region) region := by
  cases h : cpHeld s region with
  | false => rw [cpHome_none s region h]; exact landed_of_cpHeld h
  | true =>
    rw [cpHome, h]
    exact ((putWords_copiesKept _ region _).trans (putWords_copiesKept _ region _)).landed (landed_absorbFlight s region)

/-- What has come home and is still held comes home again to the same bytes. -/
theorem memGet_cpHome_again {s t : State} {region : Nat} (hs : MemOk s) (hlanded : Landed t region)
    (hheld : cpWords t region = cpWords (cpHome s region) region) (hmem : t.mem = (cpHome s region).mem) (k : Nat) :
    memGet (cpHome t region).mem k = memGet t.mem k := by
  cases ht : cpHeld t region with
  | false => rw [cpHome_none t region ht]
  | true =>
    rw [cpHome_mem ht, absorbFlight_landed hlanded, hheld, (cpHome_copiesKept s region).cpWords]
    cases hc : cpHeld s region with
    | false => rw [cpWords_eq_nil hc]; rfl
    | true =>
      rw [hmem, cpHome_mem hc]
      exact memGet_foldl_putWord_twice _ (absorbFlight_wf _ _ _ hs) k

/-! ### Lines that hosts hold (R296) -/

theorem mem_dedup {α : Type} [DecidableEq α] (x : α) (l : List α) : x ∈ dedup l ↔ x ∈ l := by
  have hfold : ∀ (l acc : List α), x ∈ l.foldl (fun acc x => if acc.contains x then acc else acc ++ [x]) acc ↔ x ∈ acc ∨ x ∈ l := by
    intro l
    induction l with
    | nil => simp
    | cons y l ih =>
      intro acc
      rw [List.foldl_cons, ih]
      by_cases h : acc.contains y = true
      · rw [if_pos h, List.mem_cons]
        have : x = y → x ∈ acc := fun e => by simpa [e] using h
        tauto
      · rw [if_neg h, List.mem_append, List.mem_singleton, List.mem_cons]
        tauto
  exact (hfold l []).trans (by simp)

theorem lineBack_hostLines (s : State) (line : Nat) (cells : List (Nat × Byte)) :
    (lineBack s line cells).io.hostLines = s.io.hostLines.filter (fun p => p.1 != line) := by
  unfold lineBack
  rw [(ioKept_foldl (fun t (r : Nat × List Byte) => commitPlain_ioKept t _ _ _) _ _).io]
  rfl

theorem mem_hostTouched {s : State} {key n l : Nat} (h : l ∈ hostTouched s key n) :
    key / 64 ≤ l ∧ l ≤ (key + n - 1) / 64 ∧ isHbm key = true ∧ ∃ p ∈ s.io.hostLines, p.1 = l := by
  unfold hostTouched at h
  split at h
  · cases h
  · next hkey =>
    obtain ⟨p, hp, rfl⟩ := List.mem_map.mp ((mem_dedup _ _).mp h)
    obtain ⟨hheld, hin⟩ := List.mem_filter.mp hp
    rw [Bool.and_eq_true, decide_eq_true_eq, decide_eq_true_eq] at hin
    exact ⟨hin.1, hin.2, by simp_all, p, hheld, rfl⟩

theorem hostTouched_eq_nil {s : State} {key n : Nat} (h : ∀ p ∈ s.io.hostLines, ¬ (key / 64 ≤ p.1 ∧ p.1 ≤ (key + n - 1) / 64)) :
    hostTouched s key n = [] := by
  refine List.eq_nil_iff_forall_not_mem.mpr fun l hl => ?_
  obtain ⟨hlow, hhigh, -, p, hp, rfl⟩ := mem_hostTouched hl
  exact h p hp ⟨hlow, hhigh⟩

/-- `gather` asks one host line back, with what the host returns in the step that begins in `s`. -/
def askBack (s t : State) (line : Nat) : State := lineBack (answer t (.backInvalidate line)) line (returnedLine s line)

theorem mem_hostLines_foldl_askBack {s t : State} {lines : List Nat} {p : Nat × Nat}
    (h : p ∈ (lines.foldl (askBack s) t).io.hostLines) : p ∈ t.io.hostLines ∧ p.1 ∉ lines := by
  induction lines generalizing t with
  | nil => exact ⟨h, List.not_mem_nil⟩
  | cons l lines ih =>
    obtain ⟨hp, hnot⟩ := ih h
    rw [askBack, lineBack_hostLines] at hp
    obtain ⟨hheld, hne⟩ := List.mem_filter.mp hp
    exact ⟨hheld, by simpa using ⟨by simpa using hne, hnot⟩⟩

theorem gather_hbm {s t : State} {key n : Nat} (h : isHbm key = true) (ht : (keyRegions key n).foldl cpHome s = t) :
    gather s key n = (hostTouched t key n).foldl (askBack t) t := by
  rw [gather, h, if_pos rfl, ht]; rfl

/-- No host holds a line of the bytes any more. -/
theorem hostTouched_gather {s : State} {key n : Nat} (h : isHbm key = true) (hn : n ≠ 0) : hostTouched (gather s key n) key n = [] := by
  refine hostTouched_eq_nil fun p hp hin => ?_
  rw [gather_hbm h rfl] at hp
  obtain ⟨hheld, hnot⟩ := mem_hostLines_foldl_askBack hp
  refine hnot ?_
  rw [hostTouched, if_neg (by simp [h, hn])]
  exact (mem_dedup _ _).mpr (List.mem_map.mpr ⟨p, List.mem_filter.mpr ⟨hheld, by simpa using hin⟩, rfl⟩)

end Sys2Proof.Machine
end

section
/-! PROOF. Inbound requests, I/O commits and engine commits (O42). One rule for each clause: an inbound write waits for its commits
(`inboundWrite_waits`), a commit appears at one point (`ioCommit_appears`, `engineCommit_appears`), an access to BAR0 is one of the
control space, a read answers with memory (`inboundRead_answers`), an AtomicOp is one read-modify-write
(`atomic_readsModifiesWrites`). The rule for an AtomicOp asks that the lines that hosts hold come back unmodified
(`LinesReturnUnmodified`): the step asks back what is held of its bytes before it reads and again before it writes, and only then do both
find the same memory in every state. The last section says why the clause cannot do without that. -/

namespace Sys2Proof.Machine

/-! ### One committed store of the I/O die or of an engine (R128, R132) -/

section
variable {s : State} {st : Store} (hheld : heldElsewhere s st.pa st.bytes.length = false)
include hheld

/-- Nothing of the bytes is held elsewhere: the commit is one plain write. -/
theorem hwCommit_plain (w : BitVec 1024) : hwCommit s w st.pa st.bytes
    = commitPlain s (allNames s w st.pa st.bytes.length) st.pa st.bytes := by
  rw [hwCommit, commitBytes, gather_none _ _ _ hheld]

theorem hwCommit_stored (hs : MemOk s) (w : BitVec 1024) : Stored s (hwCommit s w st.pa st.bytes) st.pa st.bytes :=
  stored_of_mem hs (by rw [hwCommit_mem, gather_none _ _ _ hheld])

theorem hwCommit_ioKept (w : BitVec 1024) : IoKept s (hwCommit s w st.pa st.bytes) := by
  rw [hwCommit_plain hheld]; exact commitPlain_ioKept ..

end

/-- R103: a signature meets whatever a part of it meets. -/
theorem sigMeets_or {r a : BitVec 1024} (b : BitVec 1024) (h : sigMeets r a = true) : sigMeets r (a ||| b) = true := by
  simp only [sigMeets, List.all_eq_true, bne_iff_ne] at h ⊢
  intro i hi hz
  refine h i hi ?_
  ext j hj
  have := congrArg (fun x => x.getLsbD j) hz
  simp only [BitVec.getLsbD_extractLsb', BitVec.getLsbD_and, BitVec.getLsbD_or] at this ⊢
  simp_all

theorem met_allNames {s : State} {c : Ctx} {w : BitVec 1024} (key n : Nat) (h : Met c w) : Met c (allNames s w key n) := by
  unfold allNames
  split
  · exact ⟨h.1, sigMeets_or _ h.2⟩
  · exact h

theorem hwCommit_squashes {s : State} {st : Store} {w : BitVec 1024} (hheld : heldElsewhere s st.pa st.bytes.length = false) {l : Nat}
    (h : Met (ctxAt s l) w) : Squashed (ctxAt s l) (ctxAt (hwCommit s w st.pa st.bytes) l) := by
  rw [hwCommit_plain hheld]
  exact (commitPlain_squashes s _ st.pa st.bytes l).2 (met_allNames _ _ h)

/-! ### The commits themselves -/

theorem endAtArb_ctxs (s : State) (cid loc arb : Nat) : (endAtArb s cid loc arb).ctxs = s.ctxs := by
  unfold endAtArb; exact reexamine_ctxs _ _

theorem endAtArb_mem (s : State) (cid loc arb : Nat) : (endAtArb s cid loc arb).mem = s.mem := by
  unfold endAtArb; exact reexamine_mem _ _

theorem endAtArb_ioKept (s : State) (cid loc arb : Nat) : IoKept s (endAtArb s cid loc arb) := by
  refine IoKept.trans ?_ (reexamine_ioKept _ _)
  exact ⟨rfl, rfl⟩

theorem reexamine_commits (s : State) (a : Nat) : (reexamine s a).commits = s.commits := by
  unfold reexamine; dsimp only; split <;> rfl

theorem closeCommit_quiet (s : State) (cid : Nat) (c : Commit) : Quiet s (closeCommit s cid c) := by
  refine ⟨foldl_mem (endAtArb_mem · cid _ ·) _ _, fun l => ?_⟩
  rw [ctxAt, closeCommit, foldl_ctxs (endAtArb_ctxs · cid _ ·)]
  rfl

theorem closeCommit_ioKept (s : State) (cid : Nat) (c : Commit) : IoKept s (closeCommit s cid c) := by
  refine IoKept.trans ?_ (ioKept_foldl (endAtArb_ioKept · cid _ ·) _ _)
  exact ⟨rfl, rfl⟩

theorem tblFind_closeCommit (s : State) (cid : Nat) (c : Commit) : tblFind (closeCommit s cid c).commits cid = none := by
  have hfold : ∀ (as : List Nat) (t : State), (as.foldl (fun t arb => endAtArb t cid (2 ^ 18) arb) t).commits = t.commits := by
    intro as
    induction as with
    | nil => exact fun _ => rfl
    | cons a as ih => exact fun t => (ih _).trans (reexamine_commits _ a)
  rw [closeCommit, hfold]
  exact tblFind_tblDel _ _

theorem Quiet.trans {s t u : State} (h : Quiet s t) (k : Quiet t u) : Quiet s u := ⟨k.1.trans h.1, fun l => (k.2 l).trans (h.2 l)⟩

/-- What an engine commit that counts at no barrier tells its command or packet. -/
theorem engineCommitDone_quiet (s : State) {c : Commit} (h : c.barrier = none) : Quiet s (engineCommitDone s c) := by
  unfold engineCommitDone
  rw [h]
  extract_lets q t u
  have hu : Quiet s u := by
    unfold u
    split
    · split
      · split
        · exact ⟨rfl, fun _ => rfl⟩
        · extract_lets d v w
          have hw : Quiet s w := ⟨rfl, fun _ => rfl⟩
          split
          · exact hw.trans ⟨rfl, fun _ => rfl⟩
          · exact hw
      · exact ⟨rfl, fun _ => rfl⟩
    · exact ⟨rfl, fun _ => rfl⟩
  refine hu.trans ?_
  split
  · show Quiet u (settlePacket u _)
    unfold settlePacket
    split
    · exact ⟨rfl, fun _ => rfl⟩
    · exact ⟨rfl, fun _ => rfl⟩
  · exact ⟨rfl, fun _ => rfl⟩

theorem askInbound_quiet (s : State) (x : Inbound) : Quiet s (askInbound s x) := ⟨rfl, fun _ => rfl⟩

theorem quiet_foldl {α : Type} {f : State → α → State} (hf : ∀ s x, Quiet s (f s x)) (xs : List α) (s : State) : Quiet s (xs.foldl f s) := by
  induction xs generalizing s with
  | nil => exact ⟨rfl, fun _ => rfl⟩
  | cons x xs ih => exact (hf s x).trans (ih _)

theorem pumpInbound_quiet (s : State) : Quiet s (pumpInbound s) := quiet_foldl askInbound_quiet _ _

/-- The commits that are asked for have numbers from the next one on. -/
theorem tblFind_pumpInbound {s : State} {cid : Nat} (h : cid < s.nextCommit) : tblFind (pumpInbound s).commits cid = tblFind s.commits cid := by
  have hfold : ∀ (xs : List Inbound) (t : State), cid < t.nextCommit → tblFind (xs.foldl askInbound t).commits cid = tblFind t.commits cid := by
    intro xs
    induction xs with
    | nil => exact fun _ _ => rfl
    | cons x xs ih =>
      intro t ht
      exact (ih (askInbound t x) (Nat.lt_succ_of_lt ht)).trans (tblFind_tblSet_other _ _ (Nat.ne_of_lt ht))
  exact hfold _ s h

section
variable {s : State} {c : Commit} {st : Store} (hcommit : tblFind s.commits s.cur = some c) (hask : c.ask = [])
  (hlines : linesOf s c = []) (hstores : c.stores = [st]) (hwaits : plainWaits s c = false)
  (hheld : heldElsewhere s st.pa st.bytes.length = false)
include hcommit hask hlines hstores hwaits

/-- R132: the signature under which an I/O commit is applied: its own, and its sectors under every name that they have by then. -/
def ioSig (s : State) (c : Commit) (st : Store) : BitVec 1024 :=
  c.w ||| nameSig s (sectorsOf st.pa st.bytes.length).1 (sectorsOf st.pa st.bytes.length).2

/-- The part of an inbound write that lies in the region of a commit no longer waits. -/
def acknowledged (c : Commit) (region : Nat) (io : IoSt) : IoSt := { io with inbound := io.inbound.filter (fun x =>
  !(x.id == c.num && x.asked && (x.cells.head?.map (fun e => e.1)).getD 0 / 512 == region)) }

theorem exec_ioCommit_applies (hkind : c.kind = .io) : exec .ioCommit s = .next (pumpInbound (modIo
    (closeCommit (hwCommit s (ioSig s c st) st.pa st.bytes) s.cur c) (acknowledged c (st.pa / 512)))) := by
  have hsig : c.w ||| sectorSig s ([st].map (fun t => (t.pa, t.bytes))) = ioSig s c st := by simp [sectorSig, ioSig]
  show execIoCommit s = _
  simp only [execIoCommit, hcommit, hkind, hask, hlines, hwaits, bne_self_eq_false, Bool.false_eq_true, if_false, List.isEmpty_nil,
    Bool.not_true, applyStores, hstores, hsig, List.foldl_cons, List.foldl_nil]
  rfl

theorem exec_engineCommit_applies (hkind : c.kind = .engine) : exec .engineCommit s
    = .next (engineCommitDone (closeCommit (hwCommit s c.w st.pa st.bytes) s.cur c) c) := by
  show execEngineCommit s = _
  simp only [execEngineCommit, hcommit, hkind, hask, hlines, hwaits, bne_self_eq_false, Bool.false_eq_true, if_false, List.isEmpty_nil,
    Bool.not_true, applyStores, hstores, List.foldl_cons, List.foldl_nil]

include hheld

theorem ioCommit_appears (hs : MemOk s) (hkind : c.kind = .io) : Does .ioCommit s (fun u => Stored s u st.pa st.bytes
    ∧ (s.cur < s.nextCommit → tblFind u.commits s.cur = none)
    ∧ ∀ l, Met (ctxAt s l) (ioSig s c st) → Squashed (ctxAt s l) (ctxAt u l)) := by
  let t := hwCommit s (ioSig s c st) st.pa st.bytes
  let v := modIo (closeCommit t s.cur c) (acknowledged c (st.pa / 512))
  have hquiet : Quiet t (pumpInbound v) := (closeCommit_quiet t s.cur c).trans (pumpInbound_quiet v)
  have hnext : v.nextCommit = s.nextCommit := ((hwCommit_ioKept hheld _).trans (closeCommit_ioKept t s.cur c)).nextCommit
  refine ⟨_, exec_ioCommit_applies hcommit hask hlines hstores hwaits hkind, fun k => ?_, fun hcur => ?_, fun l hl => ?_⟩
  · rw [hquiet.1]; exact hwCommit_stored hheld hs _ k
  · rw [tblFind_pumpInbound (hnext ▸ hcur)]; exact tblFind_closeCommit t s.cur c
  · rw [hquiet.2]; exact hwCommit_squashes hheld hl

theorem engineCommit_appears (hs : MemOk s) (hkind : c.kind = .engine) (hbarrier : c.barrier = none) : Does .engineCommit s (fun u =>
    Stored s u st.pa st.bytes ∧ ∀ l, Met (ctxAt s l) c.w → Squashed (ctxAt s l) (ctxAt u l)) := by
  let t := hwCommit s c.w st.pa st.bytes
  have hquiet : Quiet t (engineCommitDone (closeCommit t s.cur c) c) :=
    (closeCommit_quiet t s.cur c).trans (engineCommitDone_quiet _ hbarrier)
  refine ⟨_, exec_engineCommit_applies hcommit hask hlines hstores hwaits hkind, fun k => ?_, fun l hl => ?_⟩
  · rw [hquiet.1]; exact hwCommit_stored hheld hs _ k
  · rw [hquiet.2]; exact hwCommit_squashes hheld hl

end

/-! ### Inbound writes (R132) -/

/-- The commit of an inbound write has been asked for. -/
def nowAsked (x : Inbound) : Inbound := { x with asked := true }

theorem inbound_askInbound (s : State) (x : Inbound) :
    (askInbound s x).io.inbound = s.io.inbound.map (fun y => if y == x then nowAsked y else y) := rfl

theorem mem_askInbound_other {s : State} {x y : Inbound} (hy : y ∈ s.io.inbound) (h : y ≠ x) : y ∈ (askInbound s x).io.inbound := by
  rw [inbound_askInbound]
  exact List.mem_map.mpr ⟨y, hy, if_neg (by simpa using h)⟩

theorem mem_askInbound_same {s : State} {x : Inbound} (hx : x ∈ s.io.inbound) : nowAsked x ∈ (askInbound s x).io.inbound := by
  rw [inbound_askInbound]
  exact List.mem_map.mpr ⟨x, hx, if_pos (by simp)⟩

theorem mem_askInbound_asked {s : State} (x : Inbound) {y : Inbound} (hy : nowAsked y ∈ s.io.inbound) :
    nowAsked y ∈ (askInbound s x).io.inbound := by
  by_cases h : nowAsked y = x
  · exact h ▸ mem_askInbound_same hy
  · exact mem_askInbound_other hy h

/-- A write that waits still waits after others have been asked for, or it has been asked for itself. -/
theorem mem_foldl_askInbound {s : State} {xs : List Inbound} {y : Inbound} (hy : y ∈ s.io.inbound) :
    (if y ∈ xs then nowAsked y else y) ∈ (xs.foldl askInbound s).io.inbound := by
  have hstays : ∀ (xs : List Inbound) (t : State), nowAsked y ∈ t.io.inbound → nowAsked y ∈ (xs.foldl askInbound t).io.inbound := by
    intro xs
    induction xs with
    | nil => exact fun _ h => h
    | cons x xs ih => exact fun t h => ih _ (mem_askInbound_asked x h)
  induction xs generalizing s with
  | nil => exact hy
  | cons x xs ih =>
    by_cases h : y = x
    · subst h
      rw [if_pos (List.mem_cons_self ..)]
      exact hstays xs _ (mem_askInbound_same hy)
    · simp only [List.mem_cons, h, false_or]
      exact ih (mem_askInbound_other hy h)

/-- The part of a write that lies in one region, before its commit is asked for. -/
def newPart (s : State) (req : Nat) (ro : Bool) (cs : List (Nat × Byte)) : Inbound :=
  { id := s.io.nextInbound, req := req, ro := ro, cells := cs, asked := false }

/-- The parts of an accepted write wait for their commits. -/
def received (s : State) (req : Nat) (ro : Bool) (cells : List (Nat × Byte)) : State :=
  modIo s (fun io => { io with
    inbound := io.inbound ++ (regionCells cells).map (newPart s req ro), nextInbound := s.io.nextInbound + 1 })

/-- R132: a part of a new write may ask for its commit with Relaxed Ordering, or when no earlier write of its requester waits. -/
theorem mayAsk_newPart {s : State} {req : Nat} {ro : Bool} (cells cs : List (Nat × Byte))
    (h : ro = true ∨ ∀ k ∈ s.io.inbound, k.req % 2 ^ 15 ≠ req % 2 ^ 15) : mayAsk (received s req ro cells) (newPart s req ro cs) = true := by
  rcases h with hro | hfirst
  · simp [mayAsk, newPart, hro]
  · have hearlier : ∀ y ∈ (received s req ro cells).io.inbound,
        ¬ (reqOrder y.req = reqOrder req ∧ decide (y.id < s.io.nextInbound) = true) := by
      intro y hy
      rw [decide_eq_true_eq]
      rcases List.mem_append.mp hy with hold | hpart
      · exact fun h => hfirst y hold h.1
      · obtain ⟨cs', -, rfl⟩ := List.mem_map.mp hpart
        exact fun h => absurd h.2 (Nat.lt_irrefl _)
    simp only [mayAsk, newPart, Bool.not_false, Bool.true_and, Bool.or_eq_true, Bool.not_eq_true', List.any_eq_false, Bool.and_eq_true,
      beq_iff_eq]
    exact .inr hearlier

/-- The request may be carried out: it is no longer than a write may be, and reaches no byte outside its range. -/
def WriteFits (s : State) (req : Nat) (cells : List (Nat × Byte)) : Prop :=
  cells.length ≤ 512 ∧ ∀ e ∈ cells.map (fun e => (devAddr s req e.1, e.2)), devOk s req e.1 = true

theorem writeFits_iff (s : State) (req : Nat) (cells : List (Nat × Byte)) : WriteFits s req cells
    ↔ (decide ((cells.map (fun e => (devAddr s req e.1, e.2))).length ≤ maxPayload)
      && (cells.map (fun e => (devAddr s req e.1, e.2))).all (fun e => devOk s req e.1)) = true := by
  rw [Bool.and_eq_true, decide_eq_true_eq, List.length_map, List.all_eq_true]
  rfl

section
variable {s : State} {req : Nat} (ro : Bool) {cells : List (Nat × Byte)} (hmem : reqBar0 req = false)
include hmem

theorem exec_inboundWrite_mem : exec (.inboundWrite req ro cells) s = .next (memWrite s req ro cells) := by
  show execInboundWrite req ro cells s = _
  rw [execInboundWrite, hmem]
  rfl

theorem exec_inboundWrite_fits (h : WriteFits s req cells) : exec (.inboundWrite req ro cells) s
    = .next (pumpInbound (received s req ro (cells.map (fun e => (devAddr s req e.1, e.2))))) := by
  rw [exec_inboundWrite_mem ro hmem, memWrite]
  exact congrArg _ (if_pos ((writeFits_iff s req cells).mp h))

theorem exec_inboundWrite_unfit (h : ¬ WriteFits s req cells) : exec (.inboundWrite req ro cells) s = .next s := by
  rw [exec_inboundWrite_mem ro hmem, memWrite]
  exact congrArg _ (if_neg (mt (writeFits_iff s req cells).mpr h))

theorem inboundWrite_waits (h : WriteFits s req cells) : Does (.inboundWrite req ro cells) s (fun u => Quiet s u
    ∧ ∀ cs ∈ regionCells (cells.map (fun e => (devAddr s req e.1, e.2))), ∃ z ∈ u.io.inbound, z.id = s.io.nextInbound ∧ z.req = req
      ∧ z.ro = ro ∧ z.cells = cs ∧ (ro = true ∨ (∀ k ∈ s.io.inbound, k.req % 2 ^ 15 ≠ req % 2 ^ 15) → z.asked = true)) := by
  let t := received s req ro (cells.map (fun e => (devAddr s req e.1, e.2)))
  refine ⟨_, exec_inboundWrite_fits ro hmem h, (show Quiet s t from ⟨rfl, fun _ => rfl⟩).trans (pumpInbound_quiet t), fun cs hcs => ?_⟩
  have hpart : newPart s req ro cs ∈ t.io.inbound := List.mem_append_right _ (List.mem_map.mpr ⟨cs, hcs, rfl⟩)
  refine ⟨_, mem_foldl_askInbound (xs := t.io.inbound.filter (mayAsk t)) hpart, ?_⟩
  by_cases hasked : newPart s req ro cs ∈ t.io.inbound.filter (mayAsk t)
  · rw [if_pos hasked]
    exact ⟨rfl, rfl, rfl, rfl, fun _ => rfl⟩
  · rw [if_neg hasked]
    exact ⟨rfl, rfl, rfl, rfl, fun h => absurd (List.mem_filter.mpr ⟨hpart, mayAsk_newPart _ cs h⟩) hasked⟩

end

/-! ### Accesses to BAR0 (R290) -/

/-- The eight bytes of a word at `pa` with their addresses. -/
def wordCells (pa : Nat) (x : Word) : List (Nat × Byte) := (List.range 8).map (fun i => (pa + i, BitVec.ofNat 8 (x.toNat / 2 ^ (8 * i))))

theorem find?_wordCells (pa : Nat) (x : Word) {i : Nat} (h : i < 8) :
    (wordCells pa x).find? (fun e => e.1 == pa + i) = some (pa + i, BitVec.ofNat 8 (x.toNat / 2 ^ (8 * i))) := by
  have hrange : (List.range 8).find? (fun j => pa + j == pa + i) = some i :=
    List.find?_range_eq_some.mpr ⟨by simp, by simpa using h, fun j hj => by simp; omega⟩
  rw [wordCells, List.find?_map]
  exact congrArg (Option.map _) hrange

theorem wordOrder_singleton (o : Nat) : wordOrder [o] = [o] := by
  unfold wordOrder
  extract_lets last
  cases h : last o <;> simp [h]

/-- R294: a write of one word touches that word. -/
theorem wordOrder_wordCells {pa : Nat} (x : Word) (h : pa % 8 = 0) :
    wordOrder (dedup ((wordCells pa x).map (fun e => e.1 / 8 * 8))) = [pa] := by
  have hsame : (wordCells pa x).map (fun e => e.1 / 8 * 8) = List.replicate 8 pa := by
    rw [wordCells, List.map_map, List.eq_replicate_iff]
    refine ⟨by simp, fun b hb => ?_⟩
    obtain ⟨i, hi, rfl⟩ := List.mem_map.mp hb
    have := List.mem_range.mp hi
    simp only [Function.comp_apply]
    omega
  rw [hsame, show dedup (List.replicate 8 pa) = [pa] by simp [dedup, List.replicate], wordOrder_singleton]

theorem wordBytes_eq_map (x : Word) : (List.range 8).map (fun i => BitVec.ofNat 8 (x.toNat / 2 ^ (8 * i))) = wordBytes x := by
  refine List.ext_getElem? fun i => ?_
  by_cases h : i < 8
  · rw [wordBytes, natBytes_getElem? _ _ h, List.getElem?_map, List.getElem?_range h, Option.map_some, Nat.pow_mul]
  · rw [List.getElem?_eq_none (by simpa using h), List.getElem?_eq_none (by simpa using h)]

/-- A write of all eight bytes of a word is one write of the word. -/
theorem bar0Write_wordCells (s : State) (req : Nat) {pa : Nat} (x : Word) (h : pa % 8 = 0) :
    bar0Write s req (wordCells pa x) = controlWrite s (writerOf req) pa x := by
  simp only [bar0Write, wordOrder_wordCells x h, List.foldl_cons, List.foldl_nil]
  refine (congrArg (fun bs => controlWrite s (writerOf req) pa (BitVec.ofNat 64 (leNat bs)))
    ((List.map_congr_left fun i hi => ?_).trans (wordBytes_eq_map x))).trans ?_
  · rw [find?_wordCells pa x (List.mem_range.mp hi)]
  · exact congrArg _ (ofNat_leNat_natBytes 8 x)

section
variable {s : State} {req : Nat} (hbar : reqBar0 req = true)
include hbar

theorem exec_inboundWrite_bar0 {ro : Bool} {pa : Nat} (x : Word) (h8 : pa % 8 = 0) (hok : ∀ i, i < 8 → bar0Ok s req (pa + i) = true)
    (horder : ro = true ∨ reqWaits s req = false) :
    exec (.inboundWrite req ro (wordCells pa x)) s = exec (.controlSpaceWrite (8 + req % 2 ^ 16) pa x) s := by
  have hcells : (decide ((wordCells pa x).length ≤ maxPayload) && (wordCells pa x).all (fun e => bar0Ok s req e.1)) = true := by
    simpa [wordCells, maxPayload] using hok
  show execInboundWrite req ro (wordCells pa x) s = .next (controlWrite s (writerOf req) pa x)
  rw [execInboundWrite, hbar, hcells, if_pos rfl, if_neg (by simp), if_neg (by rcases horder with h | h <;> simp [h]),
    bar0Write_wordCells s req x h8]

theorem exec_inboundRead_bar0 {pa : Nat} (h8 : pa % 8 = 0) (hfirst : bar0Ok s req pa = true) (hlast : bar0Ok s req (pa + 7) = true)
    (horder : reqWaits s req = false) :
    exec (.inboundRead req pa 8) s = .next (answer s (.read req (natBytes 8 (bar0Word s req pa).toNat))) := by
  show execInboundRead req pa 8 s = _
  have hwords : (pa + 7) / 8 - pa / 8 + 1 = 1 := by omega
  have hword : (pa / 8 + 0) * 8 = pa := by omega
  unfold execInboundRead
  simp only [hbar, if_true, hfirst, show pa + 8 - 1 = pa + 7 by omega, hlast, horder, hwords, List.range_one, List.map_cons,
    List.map_nil, hword, List.flatten_cons, List.flatten_nil, List.append_nil, h8, List.drop_zero]
  rfl

theorem exec_inboundRead_bar0_outside {pa : Nat} (n : Nat) (h : bar0Ok s req pa = false) :
    exec (.inboundRead req pa n) s = .next (answer s (.unsupported req)) := by
  show execInboundRead req pa n s = _
  unfold execInboundRead
  simp only [hbar, if_true, h, Bool.false_and, Bool.not_false]

end

/-! ### Inbound reads of device memory (R132, R289) -/

section
variable {s : State} {req pa n : Nat} (hmem : reqBar0 req = false)
include hmem

theorem exec_inboundRead_outside (h : devOk s req (devAddr s req pa) = false ∨ 4096 < n) :
    exec (.inboundRead req pa n) s = .next (answer s (.unsupported req)) := by
  have hbad : (devOk s req (devAddr s req pa) && devOk s req (devAddr s req pa + n - 1) && decide (n ≤ 4096)) = false := by
    rcases h with h | h
    · simp [h]
    · simp [Nat.not_le.mpr h]
  show execInboundRead req pa n s = _
  simp only [execInboundRead, hmem, memRead, hbad, Bool.false_eq_true, if_false, Bool.not_false, if_true]

section
variable (hfirst : devOk s req (devAddr s req pa) = true) (hlast : devOk s req (devAddr s req pa + n - 1) = true) (hn : n ≤ 4096)
  (hwaits : reqWaits s req = false) (hheld : deviceHeld s (devAddr s req pa) n = false)
include hfirst hlast hn hwaits hheld

/-- The answer carries the bytes as they stand once the words of CP owners have come home; lines may go to the host that asks. -/
theorem exec_inboundRead_inside : ∃ lines, exec (.inboundRead req pa n) s = .next (answer
    (modIo ((keyRegions (devAddr s req pa) n).foldl cpHome s) (fun io => { io with hostLines := lines }))
    (.read req (memBytes ((keyRegions (devAddr s req pa) n).foldl cpHome s).mem (devAddr s req pa) n))) := by
  show ∃ lines, execInboundRead req pa n s = _
  simp only [execInboundRead, hmem, memRead, hfirst, hlast, hn, hwaits, hheld, Bool.false_eq_true, if_false, decide_true, Bool.and_self,
    Bool.not_true, Bool.or_self]
  split
  · exact ⟨_, rfl⟩
  · exact ⟨_, rfl⟩

theorem inboundRead_answers : Does (.inboundRead req pa n) s (fun u => (∀ l, ctxAt u l = ctxAt s l)
    ∧ u.io.out = s.io.out ++ [.read req (memBytes u.mem (devAddr s req pa) n)]
    ∧ ((∀ r ∈ keyRegions (devAddr s req pa) n, cpHeld s r = false) → u.mem = s.mem)) := by
  obtain ⟨lines, hexec⟩ := exec_inboundRead_inside hmem hfirst hlast hn hwaits hheld
  have hkept := copiesKept_foldl cpHome_copiesKept (keyRegions (devAddr s req pa) n) s
  refine ⟨_, hexec, fun l => ?_, ?_, fun hfree => ?_⟩
  · show tblGet ((keyRegions (devAddr s req pa) n).foldl cpHome s).ctxs l initCtx = _
    rw [hkept.ctxs]; rfl
  · show ((keyRegions (devAddr s req pa) n).foldl cpHome s).io.out ++ _ = _
    rw [hkept.io]; rfl
  · show ((keyRegions (devAddr s req pa) n).foldl cpHome s).mem = s.mem
    rw [foldl_cpHome_none _ _ (List.any_eq_false.mpr fun r hr => by simp [hfree r hr])]

end
end

/-! ### AtomicOps (R152, R288) -/

section
variable {a n : Nat} (hsize : n = 4 ∨ n = 8) (haligned : a % n = 0)
include hsize haligned

/-- R288: the bytes of an AtomicOp lie in one region, and in one line. -/
theorem keyRegions_aligned : keyRegions a n = [a / 512] := by
  have hone : (a + n - 1) / 512 + 1 - a / 512 = 1 := by rcases hsize with rfl | rfl <;> omega
  have hn : n ≠ 0 := by omega
  simp [keyRegions, hone, hn]

theorem hostTouched_aligned {s : State} {l : Nat} (h : l ∈ hostTouched s a n) : l = a / 64 := by
  obtain ⟨hlow, hhigh, -⟩ := mem_hostTouched h
  rcases hsize with rfl | rfl <;> omega

end

theorem isHbm_of_devOk {s : State} {req a : Nat} (h : devOk s req a = true) : isHbm a = true := by
  simp only [devOk, Bool.and_eq_true] at h
  exact h.1.1.2

/-- R296: no host returns a modified line of memory that a requester may reach. Whether a returned line is modified is a free value
of the model (`Config.outside`), of which nothing can be proved. -/
def LinesReturnUnmodified : Prop := ∀ (s : State) (req pa : Nat), devOk s req (devAddr s req pa) = true →
  devAddr s req pa % 4 = 0 → returnedLine s (devAddr s req pa / 64) = []

/-- Lines that come back unmodified change only what the I/O die knows. -/
theorem foldl_askBack_unmodified {s : State} {lines : List Nat} (h : ∀ l ∈ lines, returnedLine s l = []) (t : State) :
    ∃ f, lines.foldl (askBack s) t = modIo t f := by
  induction lines generalizing t with
  | nil => exact ⟨id, rfl⟩
  | cons l lines ih =>
    obtain ⟨f, hf⟩ := ih (fun k hk => h k (List.mem_cons_of_mem l hk)) (askBack s t l)
    rw [List.foldl_cons, hf, askBack, h l (List.mem_cons_self ..)]
    exact ⟨fun io => f { io with out := _, hostLines := _ }, rfl⟩

theorem memGet_gather_again {s : State} {a n : Nat} (hs : MemOk s) (hbm : isHbm a = true) (hsize : n = 4 ∨ n = 8) (haligned : a % n = 0)
    (hlines : ∀ t, t.io = s.io → t.tick = s.tick → returnedLine t (a / 64) = []) (k : Nat) :
    memGet (gather (gather s a n) a n).mem k = memGet (gather s a n).mem k := by
  have hregions := keyRegions_aligned hsize haligned
  have hkept := cpHome_copiesKept s (a / 512)
  have hgather : gather s a n = (hostTouched (cpHome s (a / 512)) a n).foldl (askBack (cpHome s (a / 512))) (cpHome s (a / 512)) :=
    gather_hbm hbm (by rw [hregions]; rfl)
  obtain ⟨f, hf⟩ := foldl_askBack_unmodified (s := cpHome s (a / 512)) (lines := hostTouched (cpHome s (a / 512)) a n)
    (fun l hl => by rw [hostTouched_aligned hsize haligned hl]; exact hlines _ hkept.io hkept.tick) (cpHome s (a / 512))
  have hv : gather s a n = modIo (cpHome s (a / 512)) f := hgather.trans hf
  have hagain := cpHome_copiesKept (gather s a n) (a / 512)
  have hnone : hostTouched (cpHome (gather s a n) (a / 512)) a n = [] := by
    have hn : n ≠ 0 := by omega
    rw [← hostTouched_gather (s := s) hbm hn, hostTouched, hostTouched, hagain.io]
  rw [gather_hbm (t := cpHome (gather s a n) (a / 512)) hbm (by rw [hregions]; rfl), hnone, List.foldl_nil]
  refine memGet_cpHome_again hs ?_ ?_ ?_ k
  · rw [hv]; exact landed_cpHome s (a / 512)
  · rw [hv]; rfl
  · rw [hv]; rfl

/-- R288: the request can be carried out. -/
def AtomicFits (s : State) (req a n : Nat) : Prop := devOk s req a = true ∧ (n = 4 ∨ n = 8) ∧ a % n = 0

theorem atomicFits_iff (s : State) (req a n : Nat) : AtomicFits s req a n
    ↔ (devOk s req a && (decide (n = 4) || decide (n = 8)) && decide (a % n = 0)) = true := by
  simp [AtomicFits, and_assoc]

/-- What an AtomicOp that need not wait leaves, for the value that it stores over the old one. -/
def atomicDone (v : State) (req a n : Nat) (w : BitVec 1024) (new : Option Nat) : State :=
  answer (match new with
    | some x => commitBytes v w a (natBytes n x)
    | none => v) (.atomic req (BitVec.ofNat 64 (leNat (memBytes v.mem a n))))

section
variable {s : State} {req pa n : Nat} (again : Instr) (f : Nat → Option Nat)

theorem atomicOp_unfit (h : ¬ AtomicFits s req (devAddr s req pa) n) : atomicOp s req pa n again f = answer s (.unsupported req) := by
  have hbad := Bool.eq_false_iff.mpr (mt (atomicFits_iff s req _ n).mpr h)
  rw [atomicOp]
  exact if_pos (by rw [hbad]; rfl)

theorem atomicOp_fits (h : AtomicFits s req (devAddr s req pa) n) (hwaits : reqWaits s req = false)
    (hrefuses : refuses s (devAddr s req pa / 2 ^ 37) none (nameSig s (devAddr s req pa) n) (nameSig s (devAddr s req pa) n) = false)
    (hheld : deviceHeld s (devAddr s req pa) n = false) : atomicOp s req pa n again f
      = atomicDone (gather s (devAddr s req pa) n) req (devAddr s req pa) n (nameSig s (devAddr s req pa) n)
          (f (leNat (memBytes (gather s (devAddr s req pa) n).mem (devAddr s req pa) n))) := by
  have hgood := (atomicFits_iff s req _ n).mp h
  rw [atomicOp]
  dsimp only
  rw [hgood, hwaits, hrefuses, hheld]
  rfl

end

section
variable {s v : State} {a n : Nat} (hs : MemOk v) (hagain : ∀ k, memGet (gather v a n).mem k = memGet v.mem k)
include hs hagain

theorem commitBytes_stored (w : BitVec 1024) (x : Nat) : Stored v (commitBytes v w a (natBytes n x)) a (natBytes n x) := by
  intro k
  rw [commitBytes_mem, memGet_memPutAll (gather_wf v a _ hs), natBytes_length, hagain]

/-- R152: the old value stands, or what `new` makes of it is stored over it. -/
theorem atomicDone_stored (req : Nat) (w : BitVec 1024) {o : Option Nat} {new : Nat → Nat}
    (ho : o = some (new (leNat (memBytes v.mem a n))) ∨ o = none ∧ new (leNat (memBytes v.mem a n)) = leNat (memBytes v.mem a n)) :
    Stored v (atomicDone v req a n w o) a (natBytes n (new (leNat (memBytes v.mem a n)))) := by
  rcases ho with rfl | ⟨rfl, hold⟩
  · exact commitBytes_stored hs hagain w _
  · have hbytes := natBytes_leNat (memBytes v.mem a n)
    rw [length_memBytes] at hbytes
    rw [hold, hbytes]
    exact stored_same rfl a n

end

theorem memGet_atomicDone_other {v : State} {req a n x k : Nat} {w : BitVec 1024} (hk : k < a ∨ a + n ≤ k) :
    memGet (atomicDone v req a n w (some x)).mem k = memGet (gather v a n).mem k := by
  show memGet (commitBytes v w a (natBytes n x)).mem k = _
  rw [commitBytes_mem, memGet_memPutAll_other _ _ _ (by rwa [natBytes_length]), natBytes_length]

/-- R288: nothing comes back a second time, so nothing but the answer leaves the package. -/
theorem atomicDone_out {v : State} {a n : Nat} (hbm : isHbm a = true) (hnone : hostTouched v a n = []) (req : Nat) (w : BitVec 1024)
    (o : Option Nat) : (atomicDone v req a n w o).io.out = v.io.out ++ [.atomic req (BitVec.ofNat 64 (leNat (memBytes v.mem a n)))] := by
  have hgather : (gather v a n).io = v.io := by
    have hkept := copiesKept_foldl cpHome_copiesKept (keyRegions a n) v
    have hnone' : hostTouched ((keyRegions a n).foldl cpHome v) a n = [] := by rw [← hnone, hostTouched, hostTouched, hkept.io]
    rw [gather_hbm hbm rfl, hnone']
    exact hkept.io
  cases o with
  | none => rfl
  | some x =>
    show (commitBytes v w a (natBytes n x)).io.out ++ _ = _
    rw [commitBytes, (commitPlain_ioKept _ _ _ _).io, natBytes_length, hgather]

/-- R152, R288: one read-modify-write, if every line that comes back before it comes back unmodified; a request that cannot be carried
out is answered as unsupported. -/
theorem atomic_readsModifiesWrites (hlines : LinesReturnUnmodified) {s : State} {req pa n : Nat} {i : Instr} {f : Nat → Option Nat}
    {new : Nat → Nat} (hexec : exec i s = .next (atomicOp s req pa n i f))
    (hf : ∀ old, f old = some (new old) ∨ f old = none ∧ new old = old) :
    let a := devAddr s req pa
    let v := gather s a n
    let old := leNat (memBytes v.mem a n)
    (devOk s req a = true → (n = 4 ∨ n = 8) → a % n = 0 → reqWaits s req = false ∧ deviceHeld s a n = false →
      refuses s (a / 2 ^ 37) none (nameSig s a n) (nameSig s a n) = false → MemOk s → Does i s (fun u =>
        u.io.out = v.io.out ++ [.atomic req (BitVec.ofNat 64 old)] ∧ Stored v u a (natBytes n (new old))))
    ∧ ((devOk s req a = false ∨ (n ≠ 4 ∧ n ≠ 8) ∨ a % n ≠ 0) →
      Does i s (fun u => Quiet s u ∧ u.io.out = s.io.out ++ [.unsupported req])) := by
  intro a v old
  refine ⟨fun hok hsize haligned ⟨hwaits, hheld⟩ hrefuses hs => ?_, fun hbad => ?_⟩
  · have hbm := isHbm_of_devOk hok
    have hreturned : ∀ t : State, t.io = s.io → t.tick = s.tick → returnedLine t (a / 64) = [] := by
      intro t _ htick
      have h := hlines s req pa hok (by rcases hsize with rfl | rfl <;> omega)
      rwa [returnedLine, ← htick] at h
    refine ⟨_, hexec.trans (congrArg _ (atomicOp_fits i f ⟨hok, hsize, haligned⟩ hwaits hrefuses hheld)), ?_, ?_⟩
    · exact atomicDone_out hbm (hostTouched_gather hbm (by omega)) req _ _
    · exact atomicDone_stored (gather_memOk hs a n) (memGet_gather_again hs hbm hsize haligned hreturned) req _ (hf old)
  · refine ⟨_, hexec.trans (congrArg _ (atomicOp_unfit i f ?_)), ⟨rfl, fun _ => rfl⟩, rfl⟩
    rintro ⟨hok, hsize, haligned⟩
    rcases hbad with h | ⟨h4, h8⟩ | h
    · exact Bool.noConfusion (hok.symm.trans h)
    · exact hsize.elim h4 h8
    · exact h haligned

/-- Every clause of O42 holds if no host returns a modified line. -/
theorem inboundSteps_of_unmodified (hlines : LinesReturnUnmodified) : Obligations.InboundSteps := by
  intro s req pa n ro cells c st x y mem bar mine fits word a free sector sig bits v old rmw
  have hrmw : ∀ {i : Instr} {f : Nat → Option Nat} {new : Nat → Nat}, exec i s = .next (atomicOp s req pa n i f) →
      (∀ old, f old = some (new old) ∨ f old = none ∧ new old = old) → rmw i new := atomic_readsModifiesWrites hlines
  refine ⟨fun hmem h => inboundWrite_waits ro hmem h, fun hmem h => exec_inboundWrite_unfit ro hmem h,
    fun hbar h8 hok horder => exec_inboundWrite_bar0 hbar x h8 hok horder,
    fun hbar h8 hfirst hlast horder => ⟨_, exec_inboundRead_bar0 hbar h8 hfirst hlast horder, ⟨rfl, fun _ => rfl⟩, rfl⟩,
    fun hbar h => ⟨_, exec_inboundRead_bar0_outside hbar n h, ⟨rfl, fun _ => rfl⟩, rfl⟩,
    fun hcommit hask hlines hstores hwaits hheld hs => ⟨fun hkind => ?_, fun hkind hbarrier => ?_⟩,
    fun hmem hfirst hlast hn ⟨hwaits, hheld⟩ => inboundRead_answers hmem hfirst hlast hn hwaits hheld,
    fun hmem h => ⟨_, exec_inboundRead_outside hmem h, ⟨rfl, fun _ => rfl⟩, rfl⟩,
    hrmw (f := fun old => some ((old + x.toNat) % bits)) rfl fun _ => .inl rfl,
    hrmw (f := fun _ => some (x.toNat % bits)) rfl fun _ => .inl rfl,
    hrmw (f := fun old => if old = x.toNat % bits then some (y.toNat % bits) else none)
      (new := fun old => if old = x.toNat % bits then y.toNat % bits else old) rfl fun old => ?_⟩
  · obtain ⟨u, hexec, hstored, hclosed, hsquashed⟩ := ioCommit_appears hcommit hask hlines hstores hwaits hheld hs hkind
    exact ⟨u, hexec, hstored, hclosed, fun l hlive hmeets => hsquashed l ⟨hlive, hmeets⟩⟩
  · obtain ⟨u, hexec, hstored, hsquashed⟩ := engineCommit_appears hcommit hask hlines hstores hwaits hheld hs hkind hbarrier
    exact ⟨u, hexec, hstored, fun l hlive hmeets => hsquashed l ⟨hlive, hmeets⟩⟩
  · by_cases h : old = x.toNat % bits
    · exact .inl (by rw [if_pos h, if_pos h])
    · exact .inr ⟨if_neg h, if_neg h⟩

end Sys2Proof.Machine
end

section
/-! PROOF. O42 is settled neither way: it is equivalent to a statement about a free value of the model, that no host returns a modified line
(`inboundSteps_iff`). `Config.outside` decides whether a returned line is modified, and nothing can be proved of it. The state that makes
the difference holds a block of a CP page in an L2 that carries the mark of a speculative write. The words of such a block come home before
an access, but a write of its bytes does not drop it. So an AtomicOp on a line that a host holds has the words come home, applies the
host's line over them, and then writes, before which the words come home once more, over what the host returned. -/

namespace Sys2Proof.Machine

/-! ### A line that comes back modified -/

/-- Byte `i` of a modified line that a host returns. -/
def hostByte (s : State) (line i : Nat) : Byte := (Config.outside s.tick (2 ^ 40 + 128 * line + 1 + i)).setWidth 8

theorem returnedLine_modified {s : State} {line : Nat} (h : returnedLine s line ≠ []) :
    returnedLine s line = (List.range 64).map (fun i => (line * 64 + i, hostByte s line i)) := by
  rw [returnedLine] at h ⊢
  by_cases hbit : (Config.outside s.tick (2 ^ 40 + 128 * line)).getLsbD 0 = true
  · exact if_pos hbit
  · exact absurd (if_neg hbit) h

/-- Bytes at consecutive addresses are one run. -/
theorem runsOf_consecutive (f : Nat → Byte) (n i a : Nat) :
    runsOf ((List.range' i (n + 1)).map (fun j => (a + j, f j))) = [(a + i, (List.range' i (n + 1)).map f)] := by
  induction n generalizing i with
  | zero => rfl
  | succ n ih =>
    rw [List.range'_succ, List.map_cons, List.map_cons, runsOf, List.foldr_cons, ← runsOf, ih]
    exact if_pos (Nat.add_assoc a i 1)

theorem lineBack_modified {s t : State} {line : Nat} (h : returnedLine s line ≠ []) : ∃ w f, lineBack t line (returnedLine s line)
    = commitPlain (modIo t f) w (line * 64) ((List.range 64).map (hostByte s line)) := by
  have hcells : (returnedLine s line).filter (fun e => e.1 / 64 == line) = returnedLine s line := by
    refine List.filter_eq_self.mpr fun e he => ?_
    rw [returnedLine_modified h] at he
    obtain ⟨i, hi, rfl⟩ := List.mem_map.mp he
    have := List.mem_range.mp hi
    rw [beq_iff_eq]
    omega
  have hruns : runsOf (returnedLine s line) = [(line * 64, (List.range 64).map (hostByte s line))] := by
    rw [returnedLine_modified h, List.range_eq_range']
    exact runsOf_consecutive (hostByte s line) 63 0 (line * 64)
  unfold lineBack
  rw [hcells, hruns]
  exact ⟨_, _, rfl⟩

/-- The package holds one block, in an L2. -/
structure OnlyL2Block (b : Block) (s : State) : Prop where
  ctxs : s.ctxs = []
  cores : s.cores = []
  l2 : s.dies.map (fun e => e.2.l2) = [[(0, [b])]]

namespace OnlyL2Block

variable {b : Block} {s : State} (h : OnlyL2Block b s)
include h

theorem of_dies {t : State} (hctxs : t.ctxs = s.ctxs) (hcores : t.cores = s.cores) (hdies : t.dies = s.dies) : OnlyL2Block b t :=
  ⟨hctxs.trans h.ctxs, hcores.trans h.cores, hdies ▸ h.l2⟩

theorem l1All : l1All s = [] := by rw [Machine.l1All, h.cores]; rfl

theorem l2All : l2All s = [b] := by
  have hblocks : s.dies.map (fun e => l2Blocks e.2) = (s.dies.map (fun e => e.2.l2)).map (fun t => (t.map (fun p => p.2)).foldr (· ++ ·) []) := by
    rw [List.map_map]; rfl
  rw [Machine.l2All, hblocks, h.l2]
  rfl

theorem settleBad (hmode : b.mode = .cp) (region : Nat) : settleBad none s region = s := by
  simp [Machine.settleBad, h.l2All, h.cores, hmode]

/-- The block is none of the non-speculative ones that a write drops. -/
theorem dropCopies {x : Fin 8} (hwriter : b.writer = some x) (region : Nat) : OnlyL2Block b (dropCopies s region) := by
  have hdies : (Machine.dropCopies s region).dies.map (fun e => e.2.l2) = (s.dies.map (fun e => e.2.l2)).map (fun t =>
      (t.map (fun p => (p.1, p.2.filterMap (fun b => if b.writer.isNone && b.mode != .sw && b.region == region then none else some b)))).filter
        (fun p => !p.2.isEmpty)) := by
    simp only [Machine.dropCopies, forgetOwner, tblMap, l2Map, List.map_map]
    rfl
  refine ⟨h.ctxs, ?_, ?_⟩
  · simp only [Machine.dropCopies, forgetOwner, h.cores]; rfl
  · rw [hdies, h.l2]
    simp [hwriter]

theorem noteWrite (key n : Nat) : OnlyL2Block b (noteWrite s key n) := by
  refine ⟨(noteWrite_ctxs s key n).trans h.ctxs, by rw [Machine.noteWrite, h.ctxs]; exact h.cores, ?_⟩
  rw [← h.l2, Machine.noteWrite, h.ctxs]
  simp only [List.filter_nil, List.foldl_nil, tblMap, List.map_map]
  rfl

theorem putWords (region : Nat) (ws : List (Nat × Word)) : OnlyL2Block b (putWords s region ws) := by
  unfold Machine.putWords
  induction ws generalizing s with
  | nil => exact h
  | cons p ws ih =>
    refine ih ?_
    have hput : OnlyL2Block b (putBytes s (region * 512 + 8 * (p.1 % 64)) (wordBytes p.2)) := h.of_dies rfl rfl rfl
    have hnote := hput.noteWrite (region * 512 + 8 * (p.1 % 64)) 8
    dsimp only
    split
    · exact hnote
    · exact hnote.of_dies rfl rfl rfl

theorem cpHome {region : Nat} (hagenda : s.agenda = []) : OnlyL2Block b (cpHome s region) := by
  have hlanded : Landed s region := fun e he => by rw [hagenda] at he; cases he
  unfold Machine.cpHome
  split
  · exact h
  · dsimp only
    rw [absorbFlight_landed hlanded]
    exact (h.putWords region _).putWords region _

theorem commitPlain {x : Fin 8} (hmode : b.mode = .cp) (hwriter : b.writer = some x) (w : BitVec 1024) (key : Nat) (bs : List Byte) :
    OnlyL2Block b (commitPlain s w key bs) := by
  have hsettle (rs : List Nat) : rs.foldl (Machine.settleBad none) s = s := by
    induction rs with
    | nil => rfl
    | cons r rs ih => rw [List.foldl_cons, h.settleBad hmode, ih]
  have hdrop (rs : List Nat) : ∀ t, OnlyL2Block b t → OnlyL2Block b (rs.foldl Machine.dropCopies t) := by
    induction rs with
    | nil => exact fun _ ht => ht
    | cons r rs ih => exact fun t ht => ih _ (ht.dropCopies hwriter r)
  unfold Machine.commitPlain
  extract_lets regions s1 s2 s3 s4
  have h2 : OnlyL2Block b s2 := by
    unfold s2 s1
    rw [hsettle]
    exact h.of_dies rfl rfl rfl
  have h3 : OnlyL2Block b s3 := by
    unfold s3 squashMeeting
    rw [h2.ctxs]
    exact h2
  exact (hdrop regions s3 h3).noteWrite key bs.length

end OnlyL2Block

/-- A block of a CP page in an L2 that carries the mark of a speculative write, as no block of an L2 does: it holds the word `w` of the
region, dirty, with the value `x`. -/
def markedBlock (region w : Nat) (x : Word) : Block :=
  { asid := 0, va := 0, region := region, start := 0, stop := 63, state := 4, specRead := 0, writer := some 0, pinned := false, off := 0,
    mode := .cp, place := 0, dirty := BitVec.allOnes 64, bad := 0, words := [(w, x)], filled := 0, pcIdx := 0, first := 0, lowest := 0,
    highest := 63 }

/-- The package as the hosts of `s` have configured it, with that one block, and with one line in a host's hands. -/
def withMarked (s : State) (b : Block) (line : Nat) : State :=
  { State.reset with
    tick := s.tick, dies := [(0, { initDie with l2 := [(0, [b])] })], io := { s.io with hostLines := [(line, 0)], inbound := [] } }

theorem onlyL2Block_withMarked (s : State) (b : Block) (line : Nat) : OnlyL2Block b (withMarked s b line) := ⟨rfl, rfl, rfl⟩

theorem deviceHeld_withMarked (s : State) (b : Block) (line a n : Nat) : deviceHeld (withMarked s b line) a n = false := by
  have hregions : (keyRegions a n).any (regionHeld (withMarked s b line)) = false := List.any_eq_false.mpr fun _ _ => Bool.eq_false_iff.mp rfl
  have hwords : (wordsTouched a n).any (unapplied (withMarked s b line)) = false := List.any_eq_false.mpr fun _ _ => Bool.eq_false_iff.mp rfl
  rw [deviceHeld, hregions, hwords]
  rfl

/-- The marked word comes home whenever the region's words do. -/
theorem memGet_cpHome_marked {s : State} {region w : Nat} {x : Word} (hs : MemOk s) (h : OnlyL2Block (markedBlock region w x) s)
    (hw : w < 64) {k : Nat} (hk : k = region * 512 + 8 * w) : memGet (cpHome s region).mem k = BitVec.ofNat 8 x.toNat := by
  have hheld : cpHeld s region = true := by simp [cpHeld, h.l2All, markedBlock]
  have hwords : cpWords s region = [(w, x)] := by
    rw [cpWords, h.l2All, h.l1All]
    simp [markedBlock, givenWords, dirtyWords, hw]
    exact BitVec.getElem_allOnes w hw
  rw [cpHome_mem hheld, hwords, List.foldl_cons, List.foldl_nil, putWord, memGet_memPutAll (absorbFlight_wf _ _ _ hs), Nat.mod_eq_of_lt hw, ← hk,
    if_pos (by rw [length_wordBytes]; omega), Nat.sub_self]
  rfl

theorem refuses_withMarked (s : State) (b : Block) (line arb : Nat) (r w : BitVec 1024) :
    refuses (withMarked s b line) arb none r w = false := by
  have harb : arbAt (withMarked s b line) arb = initArb := rfl
  simp [refuses, harb, initArb]

/-- A value of which the first byte is not the one that the host returns. -/
def otherWord (s : State) (line i : Nat) : Word := BitVec.ofNat 64 (~~~ hostByte s line (8 * i)).toNat

/-- The host of a request for the bytes at `a` holds their line, and word `i` of the line is marked. -/
def markedLine (s : State) (a i : Nat) : State := withMarked s (markedBlock (a / 512) (a / 64 % 8 * 8 + i) (otherWord s (a / 64) i)) (a / 64)

section
variable {s : State} {a i : Nat} (hbm : isHbm a = true) (haligned : a % 4 = 0) (hi : i < 2) (hline : returnedLine s (a / 64) ≠ [])
include hbm haligned

theorem hostTouched_markedLine {t : State} (h : t.io.hostLines = [(a / 64, 0)]) : hostTouched t a 4 = [a / 64] := by
  have hin : a / 64 ≤ (a + 3) / 64 := by omega
  simp [hostTouched, hbm, h, dedup, hin]

include hline

/-- The marked word comes home, and then the host's line is applied. -/
theorem gather_markedLine : ∃ g f, gather (markedLine s a i) a 4 = commitPlain (modIo (cpHome (markedLine s a i) (a / 512)) f) g
    (a / 64 * 64) ((List.range 64).map (hostByte s (a / 64))) := by
  let t := cpHome (markedLine s a i) (a / 512)
  have hkept : CopiesKept (markedLine s a i) t := cpHome_copiesKept _ _
  have htline : returnedLine t (a / 64) = returnedLine s (a / 64) := by rw [returnedLine, returnedLine, hkept.tick]; rfl
  obtain ⟨g, f, hback⟩ := lineBack_modified (t := answer t (.backInvalidate (a / 64))) hline
  refine ⟨g, fun io => f { io with out := io.out ++ [.backInvalidate (a / 64)] }, ?_⟩
  rw [gather_hbm (t := t) hbm (by rw [keyRegions_aligned (.inl rfl) haligned]; rfl),
    hostTouched_markedLine hbm haligned (by rw [hkept.io]; rfl), List.foldl_cons, List.foldl_nil, askBack, htline, hback]
  rfl

include hi

/-- The line has the host's byte at the marked word. -/
theorem memGet_gather_markedLine : memGet (gather (markedLine s a i) a 4).mem (a / 64 * 64 + 8 * i) = hostByte s (a / 64) (8 * i) := by
  obtain ⟨g, f, hgather⟩ := gather_markedLine hbm haligned hline (i := i)
  have hwf : Memory.wf (modIo (cpHome (markedLine s a i) (a / 512)) f).mem = true := cpHome_wf _ _ rfl
  have hbyte : nth ((List.range 64).map (hostByte s (a / 64))) (8 * i) = some (hostByte s (a / 64) (8 * i)) := by
    rw [nth_eq_getElem?, List.getElem?_map, List.getElem?_range (by omega)]
    rfl
  rw [hgather, commitPlain_mem, memGet_memPutAll hwf, if_pos (by simp; omega), Nat.add_sub_cancel_left, hbyte]
  rfl

/-- The marked word is not dropped, and comes home once more. -/
theorem memGet_gather_markedLine_again :
    memGet (gather (gather (markedLine s a i) a 4) a 4).mem (a / 64 * 64 + 8 * i) = ~~~ hostByte s (a / 64) (8 * i) := by
  let v := gather (markedLine s a i) a 4
  have hv : OnlyL2Block (markedBlock (a / 512) (a / 64 % 8 * 8 + i) (otherWord s (a / 64) i)) v := by
    obtain ⟨g, f, hgather⟩ := gather_markedLine hbm haligned hline (i := i)
    have hhome := (onlyL2Block_withMarked s (markedBlock (a / 512) (a / 64 % 8 * 8 + i) (otherWord s (a / 64) i)) (a / 64)).cpHome
      (region := a / 512) rfl
    have hmodIo := hhome.of_dies (t := modIo _ f) rfl rfl rfl
    show OnlyL2Block _ (gather (markedLine s a i) a 4)
    rw [hgather]
    exact hmodIo.commitPlain rfl rfl g _ _
  have hmem : MemOk v := gather_wf _ _ _ rfl
  have hnone : hostTouched (cpHome v (a / 512)) a 4 = [] := by
    rw [← hostTouched_gather (s := markedLine s a i) (n := 4) hbm (by decide), hostTouched, hostTouched, (cpHome_copiesKept v _).io]
  have hother : BitVec.ofNat 8 (otherWord s (a / 64) i).toNat = ~~~ hostByte s (a / 64) (8 * i) := by
    have := (~~~ hostByte s (a / 64) (8 * i)).isLt
    apply BitVec.eq_of_toNat_eq
    rw [otherWord, BitVec.toNat_ofNat, BitVec.toNat_ofNat]
    omega
  rw [gather_hbm (t := cpHome v (a / 512)) hbm (by rw [keyRegions_aligned (.inl rfl) haligned]; rfl), hnone, List.foldl_nil,
    memGet_cpHome_marked hmem hv (by omega) (by omega), hother]

end

/-- A modified line is a counterexample to the clause on AtomicOps: the marked word comes home before the read, the host's line is
applied over it, and the store has the marked word come home once more. -/
theorem not_inboundSteps_of_modified {s : State} {req pa : Nat} (hok : devOk s req (devAddr s req pa) = true)
    (haligned : devAddr s req pa % 4 = 0) (hline : returnedLine s (devAddr s req pa / 64) ≠ []) : ¬ Obligations.InboundSteps := by
  intro hinbound
  have hbm := isHbm_of_devOk hok
  obtain ⟨i, hi, hother⟩ : ∃ i, i < 2 ∧ i ≠ devAddr s req pa / 8 % 8 := by
    by_cases h : devAddr s req pa / 8 % 8 = 0
    · exact ⟨1, by omega, by omega⟩
    · exact ⟨0, by omega, by omega⟩
  let z := markedLine s (devAddr s req pa) i
  have hdevAddr : devAddr z req pa = devAddr s req pa := rfl
  have hrefuses : ∀ arb r w, refuses z arb none r w = false := fun _ _ _ => refuses_withMarked ..
  have hheld : deviceHeld z (devAddr s req pa) 4 = false := deviceHeld_withMarked ..
  obtain ⟨-, -, -, -, -, -, -, -, -, ⟨hswap, -⟩, -⟩ := hinbound z req pa 4 false [] (freshCommit .io 0) ⟨.hc, 0, 0, 0, []⟩ 0 0
  rw [hdevAddr] at hswap
  obtain ⟨u, hexec, -, hstored⟩ := hswap hok (.inl rfl) haligned ⟨rfl, hheld⟩ (hrefuses ..) rfl
  have hdone := atomicOp_fits (s := z) (pa := pa) (.atomicopSwap req pa 4 0) (fun _ => some ((0 : Word).toNat % 2 ^ (8 * 4)))
    ⟨hok, .inl rfl, haligned⟩ rfl (hrefuses ..) hheld
  rw [hdevAddr] at hdone
  have hu : atomicDone _ _ _ _ _ _ = u := hdone.symm.trans (Host.Outcome.next.inj hexec)
  have hout : ¬ (devAddr s req pa ≤ devAddr s req pa / 64 * 64 + 8 * i ∧ devAddr s req pa / 64 * 64 + 8 * i < devAddr s req pa + 4) := by
    omega
  have hbyte := hstored (devAddr s req pa / 64 * 64 + 8 * i)
  rw [natBytes_length, if_neg hout, memGet_gather_markedLine hbm haligned hi hline, ← hu, memGet_atomicDone_other (by omega),
    memGet_gather_markedLine_again hbm haligned hi hline] at hbyte
  exact absurd (congrArg (BitVec.getLsbD · 0) hbyte) (by simp)

/-- O42 stands or falls with a free value: it holds exactly if no host returns a modified line of memory that a requester may reach. -/
theorem inboundSteps_iff : Obligations.InboundSteps ↔ LinesReturnUnmodified := by
  refine ⟨fun h s req pa hok haligned => ?_, inboundSteps_of_unmodified⟩
  by_contra hline
  exact not_inboundSteps_of_modified hok haligned hline h

end Sys2Proof.Machine
end

section
/-! PROOF. Host lines, MSI-X, message ports and completions of system-scope accesses (O43). One rule for each step says what it
answers: the answer to a back-invalidate drops the host's claim to the line and may send the commit on
(`execBackInvalidateAnswer_commit`), MSIX_SEND either does nothing, sends, or comes again (`exec_msixSend`), a message port has one list
of staging words (`stagingOf_setStaging`) of which the message is made (`portMessage`), and a completion changes the I/O-die cache, the
table of accesses and the context of the access (`wakeAll_waitsForSys`). -/

namespace Sys2Proof.Machine

/-! ### Waking a context -/

theorem ctxAt_wakeAll (s : State) (p : Nat → Ctx → Bool) (l : Nat) : ctxAt (wakeAll s p) l
    = ((tblFind s.ctxs l).map fun c => if p l c then { c with run := .ready } else c).getD initCtx := by
  rw [ctxAt, wakeAll, tblGet, tblFind_tblMap]
  cases tblFind s.ctxs l <;> rfl

/-- Waking changes what contexts do next, and nothing else of them. -/
theorem ctxAt_wakeAll_run (s : State) (p : Nat → Ctx → Bool) (l : Nat) :
    ∃ r, ctxAt (wakeAll s p) l = { ctxAt s l with run := r } := by
  rw [ctxAt_wakeAll, ctxAt, tblGet]
  cases tblFind s.ctxs l with
  | none => exact ⟨_, rfl⟩
  | some c =>
    by_cases h : p l c = true
    · exact ⟨.ready, by simp [h]⟩
    · exact ⟨c.run, by simp [h]⟩

theorem ctxAt_wakeAll_asleep {s : State} {p : Nat → Ctx → Bool} {l : Nat} (h : p l (ctxAt s l) = false) :
    ctxAt (wakeAll s p) l = ctxAt s l := by
  rw [ctxAt_wakeAll]
  rw [ctxAt, tblGet] at h ⊢
  cases e : tblFind s.ctxs l with
  | none => rfl
  | some c => rw [e] at h; simp [h]

/-- A context that is picked is ready; one that is not listed stays as at reset, so the pick must leave it out. -/
theorem ctxAt_wakeAll_woken {s : State} {p : Nat → Ctx → Bool} {l : Nat} (h : p l (ctxAt s l) = true) (hinit : p l initCtx = false) :
    (ctxAt (wakeAll s p) l).run = .ready := by
  rw [ctxAt_wakeAll]
  rw [ctxAt, tblGet] at h
  cases e : tblFind s.ctxs l with
  | none => rw [e] at h; simp [hinit] at h
  | some c => rw [e] at h; simp [h]

/-! ### Back-invalidates (R296) -/

/-- An answer without bytes: the host no longer holds the line. -/
theorem lineBack_clean (s : State) (line : Nat) :
    lineBack s line [] = modIo s (fun io => { io with hostLines := io.hostLines.filter (fun p => p.1 != line) }) := rfl

theorem not_mem_hostLines_lineBack_clean {s : State} {line : Nat} {p : Nat × Nat} (h : p ∈ (lineBack s line []).io.hostLines) :
    p.1 ≠ line := by
  rw [lineBack_clean] at h
  simpa using (List.mem_filter.mp h).2

/-- The commit has one line less to wait for; after the last one an engine's or the I/O die's commit is looked at again. -/
theorem execBackInvalidateAnswer_commit {s : State} {line cid : Nat} {c : Commit} (h : tblFind s.commits cid = some c) :
    ∃ again, execBackInvalidateAnswer line cid [] s = .next { lineBack s line [] with
        commits := tblSet s.commits cid { c with lines := c.lines.filter (· != line) }, agenda := s.agenda ++ again }
      ∧ (c.lines = [line] → c.kind = .engine → again = [(0, cid, .engineCommit)])
      ∧ (c.lines = [line] → c.kind = .io → again = [(0, cid, .ioCommit)]) := by
  have hcommit : tblFind (lineBack s line []).commits cid = some c := h
  rw [execBackInvalidateAnswer]
  simp only [hcommit]
  by_cases hlines : (c.lines.filter (· != line)).isEmpty = true
  · rw [if_neg (by simp [hlines])]
    cases c.kind with
    | engine => exact ⟨_, rfl, fun _ _ => rfl, fun _ h => nomatch h⟩
    | io => exact ⟨_, rfl, fun _ h => (nomatch h), fun _ _ => rfl⟩
    | chunk =>
      by_cases hdone : (c.point && c.homes.isEmpty && c.fwd.isEmpty) = true
      · exact ⟨_, congrArg _ (if_pos hdone), fun _ h => (nomatch h), fun _ h => nomatch h⟩
      · exact ⟨[], (congrArg _ (if_neg hdone)).trans (by rw [List.append_nil]; rfl), fun _ h => (nomatch h), fun _ h => nomatch h⟩
  · rw [if_pos (by simp [hlines])]
    have hmore : c.lines ≠ [line] := fun e => hlines (by simp [e])
    exact ⟨[], by rw [List.append_nil]; rfl, fun e => absurd e hmore, fun e => absurd e hmore⟩

theorem exec_backInvalidateAnswer (s : State) (line cid : Nat) : Does (.backInvalidateAnswer line cid []) s (fun u =>
    (∀ l, ctxAt u l = ctxAt s l) ∧ (∀ p ∈ u.io.hostLines, p.1 ≠ line)
    ∧ ∀ c, tblFind s.commits cid = some c → u.mem = s.mem
      ∧ tblFind u.commits cid = some { c with lines := c.lines.filter (· != line) }
      ∧ (c.lines = [line] → c.kind = .engine → u.agenda = s.agenda ++ [(0, cid, .engineCommit)])
      ∧ (c.lines = [line] → c.kind = .io → u.agenda = s.agenda ++ [(0, cid, .ioCommit)])) := by
  show ∃ u, execBackInvalidateAnswer line cid [] s = .next u ∧ _
  cases h : tblFind s.commits cid with
  | none =>
    have hcommit : tblFind (lineBack s line []).commits cid = none := h
    exact ⟨lineBack s line [], by simp only [execBackInvalidateAnswer, hcommit], fun _ => rfl,
      fun _ => not_mem_hostLines_lineBack_clean, fun _ h => nomatch h⟩
  | some c =>
    obtain ⟨again, hexec, hengine, hio⟩ := execBackInvalidateAnswer_commit (line := line) h
    refine ⟨_, hexec, fun _ => rfl, fun _ => not_mem_hostLines_lineBack_clean, fun d hd => ?_⟩
    cases hd
    exact ⟨rfl, tblFind_tblSet_same _ _ _, fun hl hk => by rw [hengine hl hk], fun hl hk => by rw [hio hl hk]⟩

/-! ### MSI-X (R293, R403) -/

/-- The message of a vector leaves, and with it the records of every ASID that announces by the vector. -/
def msixSent (s : State) (pv : Nat) : State := modIo (answer s (.msix pv)) (fun io => { io with
  pendingMsix := io.pendingMsix.filter (fun a => packageVector s a != some pv), lastSent := tblSet io.lastSent pv s.now })

section
variable {s : State} {pv : Nat} (hpending : s.io.pendingMsix.contains s.cur = true) (hvalid : (asidWord s s.cur 0x10).getLsbD 63 = true)
  (hvector : packageVector s s.cur = some pv)
include hpending hvalid hvector

/-- The ASID has a record to announce and a vector to do it by: what MSIX_SEND then looks at. -/
theorem exec_msixSend : exec .msixSend s = if masked s s.cur then .next s else match tblFind s.io.lastSent pv with
    | some t => if t + Config.cycles1us ≤ s.now then .next (msixSent s pv) else .next (repost s (t + Config.cycles1us - s.now) s.cur .msixSend)
    | none => .next (msixSent s pv) := by
  show execMsixSend s = _
  simp only [execMsixSend, hpending, bit, hvalid, hvector, Bool.not_true, Bool.false_eq_true, if_false]
  rfl

theorem exec_msixSend_masked (h : masked s s.cur = true) : exec .msixSend s = .next s := by
  rw [exec_msixSend hpending hvalid hvector, if_pos h]

theorem exec_msixSend_sent (h : masked s s.cur = false) (hlast : ∀ t, tblFind s.io.lastSent pv = some t → t + 1800 ≤ s.now) :
    exec .msixSend s = .next (msixSent s pv) := by
  rw [exec_msixSend hpending hvalid hvector, if_neg (by simp [h])]
  cases e : tblFind s.io.lastSent pv with
  | none => rfl
  | some t => exact if_pos (hlast t e)

theorem exec_msixSend_later {t : Nat} (h : masked s s.cur = false) (hlast : tblFind s.io.lastSent pv = some t) (ht : s.now < t + 1800) :
    exec .msixSend s = .next (repost s (t + Config.cycles1us - s.now) s.cur .msixSend) := by
  rw [exec_msixSend hpending hvalid hvector, if_neg (by simp [h]), hlast]
  exact if_neg (Nat.not_le.mpr ht)

end

theorem mem_pendingMsix_msixSent (s : State) (pv a : Nat) :
    a ∈ (msixSent s pv).io.pendingMsix ↔ a ∈ s.io.pendingMsix ∧ packageVector s a ≠ some pv := by
  simp [msixSent, modIo, answer]

/-! ### Message ports (R294) -/

/-- A port's staging words are those that were set last. -/
theorem stagingOf_setStaging (s : State) (asid req : Nat) (ws : List (Nat × Word)) : stagingOf (setStaging s asid req ws) asid req = ws := by
  have hothers : (s.io.staging.filter (fun b => !(b.asid == asid && b.req == req))).find? (fun b => b.asid == asid && b.req == req) = none :=
    List.find?_eq_none.mpr fun b hb => by simpa [imp_iff_not_or] using (List.mem_filter.mp hb).2
  unfold stagingOf setStaging
  dsimp only [modIo]
  rw [List.find?_append, hothers]
  cases ws with
  | nil => rfl
  | cons w ws => simp

/-- Staging word `j` put in among the words of a port. -/
def staged (ws : List (Nat × Word)) (j : Nat) (x : Word) : List (Nat × Word) := ws.filter (fun p => p.1 != j) ++ [(j, x)]

theorem find?_staged_same (ws : List (Nat × Word)) (j : Nat) (x : Word) : (staged ws j x).find? (fun p => p.1 == j) = some (j, x) := by
  simp [staged, List.find?_append, List.find?_eq_none.mpr]

theorem find?_staged_other (ws : List (Nat × Word)) {j k : Nat} (x : Word) (h : k ≠ j) :
    (staged ws j x).find? (fun p => p.1 == k) = ws.find? (fun p => p.1 == k) := by
  have hlast : [(j, x)].find? (fun p => p.1 == k) = none := by simp [h.symm]
  rw [staged, List.find?_append, hlast, Option.or_none, List.find?_filter]
  congr 1
  funext p
  by_cases hp : p.1 = k
  · simp [hp, h]
  · simp [hp]

theorem exec_messagePortWord_accepted {s : State} {asid req j : Nat} (x : Word) (hopen : portOpen s asid req = true) (h1 : 1 ≤ j) (h7 : j ≤ 7) :
    exec (.messagePortWord asid req j x) s = .next (setStaging s asid req (staged (stagingOf s asid req) j x)) :=
  congrArg _ (if_neg (by simp [hopen]; omega))

theorem exec_messagePortWord_dropped {s : State} {asid req j : Nat} (x : Word) (h : portOpen s asid req = false ∨ j = 0 ∨ 7 < j) :
    exec (.messagePortWord asid req j x) s = .next s :=
  congrArg _ (if_pos (by simpa [or_assoc] using h))

/-- The eight words that a port delivers: the header and the staged words, 0 for a word that is not staged. -/
def portMessage (hdr : Word) (ws : List (Nat × Word)) : List Word :=
  hdr :: (List.range 7).map (fun i => match ws.find? (fun p => p.1 == i + 1) with
    | some p => p.2
    | none => 0)

theorem wordAt_portMessage {hdr w : Word} {ws : List (Nat × Word)} {k : Nat} (h1 : 1 ≤ k) (h7 : k ≤ 7)
    (h : ws.find? (fun p => p.1 == k) = some (k, w)) : wordAt (portMessage hdr ws) k = w := by
  obtain ⟨i, rfl⟩ : ∃ i, k = i + 1 := ⟨k - 1, by omega⟩
  rw [wordAt, nth_eq_getElem?, portMessage, List.getElem?_cons_succ, List.getElem?_map, List.getElem?_range (by omega)]
  simp [h]

/-- What a port delivers to the queue that its ASID's entry names. -/
def portDelivery (s : State) (asid req : Nat) (hdr : Word) : Delivery :=
  { loc := none, src := some (2 ^ 18 + req), die := none, asid := asid, handle := fld (asidWord s asid 0x38) 11 0, desc := 0,
    msg := portMessage hdr (stagingOf s asid req), route := none, via := none, slot := none, words := [], since := s.now,
    stallPosted := false, port := true, event := false }

theorem exec_messagePortSend_accepted {s : State} {asid req : Nat} {x : Word} (hopen : portOpen s asid req = true)
    (hok : headerOk (headerSet x 0 (0x8000 + req % 2 ^ 15)) true false = true) : exec (.messagePortSend asid req x) s
      = .next (deliver (setStaging s asid req []) (portDelivery s asid req (headerSet x 0 (0x8000 + req % 2 ^ 15)))) := by
  show Host.Outcome.next (portSend s asid req x) = _
  rw [portSend, if_neg (by simp [hopen])]
  dsimp only
  rw [hok]
  rfl

/-! ### Completions of system-scope accesses (R130, R295) -/

theorem cxlPut_io (s : State) (addr : Nat) (bs : List Byte) : cxlPut s addr bs = { s with io := (cxlPut s addr bs).io } := by
  unfold cxlPut; rfl

/-- What the cache keeps of an access changes the cache only. -/
theorem cxlAccess_io (s : State) (op : SysOp) (x : Word) : (cxlAccess s op x).1 = { s with io := (cxlAccess s op x).1.io } := by
  unfold cxlAccess
  split
  · rfl
  · split
    · exact cxlPut_io ..
    · split
      · exact cxlPut_io ..
      · exact cxlPut_io ..

theorem cxlAccess_read_outside {s : State} {op : SysOp} (x : Word) (hread : op.write = false)
    (h : cxlServes op = false ∨ cxlGet s op.addr op.n = none) : (cxlAccess s op x).2 = x := by
  unfold cxlAccess
  split
  · rfl
  · next hserves => rw [h.resolve_left (by simpa using hserves)]; simp [hread]

theorem cxlAccess_read_held {s : State} {op : SysOp} {bs : List Byte} (x : Word) (hread : op.write = false) (hserves : cxlServes op = true)
    (h : cxlGet s op.addr op.n = some bs) : (cxlAccess s op x).2 = BitVec.ofNat 64 (leNat bs) := by
  simp [cxlAccess, hread, hserves, h]

/-- The context waits for a system-scope access. -/
def waitsForSys (loc l : Nat) (c : Ctx) : Bool := l == loc && (match c.run with
  | .stalled (.sys _) => true
  | _ => false)

/-- A system-scope access of the context is complete. -/
def withoutSysOp (id : Nat) (c : Ctx) : Ctx := { c with sysOut := c.sysOut.filter (· != id) }

/-- The cache has kept what it keeps of an access, and the accesses that are not complete are `ops`. -/
def afterCxl (s : State) (op : SysOp) (x : Word) (ops : Tbl SysOp) : State := { s with io := (cxlAccess s op x).1.io, sysOps := ops }

section
variable {s : State} {id : Nat} {op : SysOp} (h : tblFind s.sysOps id = some op)
include h

theorem exec_systemScopeCompletion_write (x : Word) (hwrite : op.write = true) : exec (.systemScopeCompletion id x) s
    = .next (wakeAll (modCtx (afterCxl s op x (tblDel s.sysOps id)) op.loc (withoutSysOp id)) (waitsForSys op.loc)) := by
  show execSystemScopeCompletion id x s = _
  simp only [execSystemScopeCompletion, h, hwrite, if_true]
  rw [cxlAccess_io]
  rfl

theorem exec_systemScopeCompletion_read (x : Word) (hread : op.write = false) : exec (.systemScopeCompletion id x) s
    = .next (wakeAll (afterCxl s op x (tblSet s.sysOps id { op with answer := some (cxlAccess s op x).2 })) (waitsForSys op.loc)) := by
  show execSystemScopeCompletion id x s = _
  simp only [execSystemScopeCompletion, h, hread, Bool.false_eq_true, if_false]
  rw [cxlAccess_io]
  rfl

end

/-- The context of the access goes on, and no other is changed. -/
theorem wakeAll_waitsForSys {s t : State} {loc : Nat} {out : List Nat} (hothers : ∀ l, l ≠ loc → ctxAt t l = ctxAt s l)
    (hown : ctxAt t loc = { ctxAt s loc with sysOut := out }) :
    (∀ l, l ≠ loc → ctxAt (wakeAll t (waitsForSys loc)) l = ctxAt s l)
    ∧ (ctxAt (wakeAll t (waitsForSys loc)) loc).regs = (ctxAt s loc).regs
    ∧ (∀ k, (ctxAt s loc).run = .stalled (.sys k) → (ctxAt (wakeAll t (waitsForSys loc)) loc).run = .ready)
    ∧ (ctxAt (wakeAll t (waitsForSys loc)) loc).sysOut = out := by
  obtain ⟨r, hr⟩ := ctxAt_wakeAll_run t (waitsForSys loc) loc
  refine ⟨fun l hl => ?_, by rw [hr, hown], fun k hk => ctxAt_wakeAll_woken ?_ ?_, by rw [hr, hown]⟩
  · rw [ctxAt_wakeAll_asleep (by simp [waitsForSys, hl]), hothers l hl]
  · simp [waitsForSys, hown, hk]
  · simp [waitsForSys, initCtx]

/-- Settles O43: each step by its rule; MSIX_SEND by whether the vector is masked and when it last sent, a message port by whether the
requester may use it, a completion by whether the access was a write or a read. -/
theorem hostSteps : Obligations.HostSteps := by
  intro s line cid asid req j pv id c x op told sending hdr
  refine ⟨⟨_, rfl, ⟨rfl, fun _ => rfl⟩, rfl, _, _, rfl⟩, ?_, ⟨_, rfl, ⟨rfl, fun _ => rfl⟩, rfl, rfl⟩, ?_, ?_, ?_, ?_, ?_, ?_, ?_⟩
  · obtain ⟨u, hexec, hctxs, hlines, hcommit⟩ := exec_backInvalidateAnswer s line cid
    exact ⟨u, hexec, hctxs, hlines, hcommit c⟩
  · rintro ⟨hpending, hvalid, hvector⟩ hmasked
    exact exec_msixSend_masked hpending hvalid hvector hmasked
  · rintro ⟨hpending, hvalid, hvector⟩ hmasked hlast
    exact ⟨_, exec_msixSend_sent hpending hvalid hvector hmasked hlast, ⟨rfl, fun _ => rfl⟩, rfl, mem_pendingMsix_msixSent s pv,
      tblFind_tblSet_same _ _ _⟩
  · rintro ⟨hpending, hvalid, hvector⟩ hmasked ⟨t, hlast, ht⟩
    exact ⟨_, exec_msixSend_later hpending hvalid hvector hmasked hlast ht, ⟨rfl, fun _ => rfl⟩, rfl⟩
  · intro hopen h1 h7
    refine ⟨_, exec_messagePortWord_accepted x hopen h1 h7, ⟨rfl, fun _ => rfl⟩, ?_⟩
    rw [stagingOf_setStaging]
    exact ⟨find?_staged_same _ j x, fun k hk => find?_staged_other _ x hk⟩
  · exact exec_messagePortWord_dropped x
  · intro hopen hok
    refine ⟨_, exec_messagePortSend_accepted hopen hok, ⟨rfl, fun _ => rfl⟩, stagingOf_setStaging s asid req [], rfl,
      portDelivery s asid req hdr, tblFind_tblSet_same _ _ _, rfl, ?_, rfl, fun k w => wordAt_portMessage⟩
    simp [portDelivery, fld]
  · intro hop
    rcases Bool.eq_false_or_eq_true op.write with hwrite | hread
    · obtain ⟨hothers, hregs, hready, hout⟩ := wakeAll_waitsForSys (s := s) (loc := op.loc)
        (t := modCtx (afterCxl s op x (tblDel s.sysOps id)) op.loc (withoutSysOp id)) (fun _ hl => ctxAt_modCtx_other _ _ hl)
        (ctxAt_modCtx _ _ (withoutSysOp id))
      exact ⟨_, exec_systemScopeCompletion_write hop x hwrite, rfl, hothers, hregs, hready, fun _ => ⟨tblFind_tblDel _ _, hout⟩,
        fun hread => absurd hwrite (by simp [hread])⟩
    · obtain ⟨hothers, hregs, hready, -⟩ := wakeAll_waitsForSys (s := s) (loc := op.loc)
        (t := afterCxl s op x (tblSet s.sysOps id { op with answer := some (cxlAccess s op x).2 })) (fun _ _ => rfl) rfl
      refine ⟨_, exec_systemScopeCompletion_read hop x hread, rfl, hothers, hregs, hready, fun hwrite => absurd hwrite (by simp [hread]),
        fun _ => ⟨fun hfree => ?_, fun bs hserves hheld => ?_⟩⟩
      · exact (tblFind_tblSet_same _ _ _).trans (by rw [cxlAccess_read_outside x hread hfree])
      · exact (tblFind_tblSet_same _ _ _).trans (by rw [cxlAccess_read_held x hread hserves hheld])

end Sys2Proof.Machine
end
